-- ==== Sys2Proof/Word.lean ====
section
/-! DEFINITION. The plain types the model counts and numbers with: bytes, 16-bit register values, host addresses,
submission records, and the numbers of segments, queues, contexts, vectors, watches and targets. -/

namespace Sys2Proof

/-- A byte of a record. -/
abbrev Byte := BitVec 8

/-- A 16-bit register value of a target, a mask, or a 16-bit record field. -/
abbrev Half := BitVec 16

/-- A 64-bit address in host memory. -/
abbrev Addr := BitVec 64

/-- Bytes 1 to 31 of a submission entry (11.3): everything but the opcode. Byte k is bits 8(k-1) to 8(k-1)+7. -/
abbrev Body := BitVec 248

/-- The 32 bytes of a submission entry (11.3). Byte k is bits 8k to 8k+7. -/
abbrev Record := BitVec 256

/-- Segment number, 0 to 3. -/
abbrev SegId := Fin 4

/-- Submission queue id, 0 to 15; 0 is the admin submission queue. -/
abbrev SqId := Fin 16

/-- Completion queue id, 0 to 7; 0 is the admin completion queue. -/
abbrev CqId := Fin 8

/-- Interrupt vector, 0 to 7. -/
abbrev VecId := Fin 8

/-- Number of a context of the Context Pool, 0 to 63 (R63). -/
abbrev CtxNum := Fin 64

/-- Watch id, 0 to 127 (R109). -/
abbrev WatchId := Fin 128

/-- A target of a segment (R22). Only addresses 1 to 62 are targets: `slot` is the address less one, so that
addresses 0 and 63 cannot be named. -/
structure Tgt where
  seg  : SegId
  slot : Fin 62
deriving DecidableEq, Repr

/-- The HMB address of a target, 1 to 62. -/
def Tgt.address (t : Tgt) : Nat := t.slot.val + 1

end Sys2Proof
end

