-- ==== Sys2Proof/Config.lean ====
section
/-! DEFINITION. What the manual leaves to the world outside the engine: the level of the data line at each tick. -/

namespace Sys2Proof

/-- Whether a segment's HDA line reads low when the controller samples it at a tick of the 10 µs time base (R13),
by segment number and tick count. What targets do to the line is outside the manual's control of the engine, so
this is a FREE VALUE: it has no body, and no proof can learn what it is (log entry 4). -/
opaque Config.hdaLow : Nat → Nat → Bool

end Sys2Proof
end

