-- ==== Sys2Proof/Syntax.lean ====
section
/-! DEFINITION. The commands the block takes, one constructor per row of spec/opcode_table.json. Each carries what the
outside gives with it: the bytes of a register write, the bytes of a fetched entry, the answer bits of a frame, the
outcome of an access to host memory. -/

namespace Sys2Proof

/-- A host write to a 4-byte register of the window: its byte enables (bit k for byte k) and its data (R60). -/
structure RegWrite where
  enables : BitVec 4
  value   : BitVec 32
deriving DecidableEq, Repr

/-- The three admin queue registers (R41). -/
inductive AdminReg where
  | sqBase
  | cqBase
  | sizes
deriving DecidableEq, Repr

/-- An access to host memory, named by what it is for (the table of R57). -/
inductive Access where
  /-- the read of a submission queue's head entry -/
  | entryRead (sq : SqId)
  /-- the write of a completion record to a completion queue -/
  | completion (cq : CqId)
  /-- the buffer write of a READ_BLOCK context -/
  | buffer (ctx : CtxNum)
  /-- the result record write of the admin command in execution -/
  | result
  /-- the write of an event record -/
  | event
deriving DecidableEq, Repr

/-- The owner of a frame request (1.4): a host context, a watch poll, a watch response write or a replay write. -/
inductive Requester where
  | host (ctx : CtxNum)
  | poll (watch : WatchId)
  | response (watch : WatchId)
  | replay (tgt : Tgt)
deriving DecidableEq, Repr

/-- The commands. `tag` names one access to host memory among all that were issued, so that the outcome of an access
that the engine no longer waits for is told from the outcome of the one it waits for. -/
inductive Instr where
  -- resets and configuration space
  | powerOnReset
  | hostLinkReset
  | msiConfigChange (on : Bool) (vectors : Nat)
  -- writes to the register window
  | enable (w : RegWrite)
  | enableResume (w : RegWrite)
  | pause (w : RegWrite)
  | reset (w : RegWrite)
  | adminQueueRegisterWrite (reg : AdminReg) (enables : BitVec 8) (value : BitVec 64)
  | sqTailWrite (sq : SqId) (w : RegWrite)
  | cqHeadWrite (cq : CqId) (w : RegWrite)
  | eqHeadWrite (w : RegWrite)
  | interruptMaskSetWrite (w : RegWrite)
  | interruptMaskClearWrite (w : RegWrite)
  | interruptPendingWrite (w : RegWrite)
  | registerWriteOther (offset : Nat) (w : RegWrite)
  -- admin entries: the read of SQ0's head entry with this tag succeeded and delivered this entry
  | createSq (tag : Nat) (body : Body)
  | deleteSq (tag : Nat) (body : Body)
  | createCq (tag : Nat) (body : Body)
  | deleteCq (tag : Nat) (body : Body)
  | segmentSetup (tag : Nat) (body : Body)
  | segmentOn (tag : Nat) (body : Body)
  | segmentOff (tag : Nat) (body : Body)
  | segmentRecover (tag : Nat) (body : Body)
  | querySegment (tag : Nat) (body : Body)
  | queryTarget (tag : Nat) (body : Body)
  | watchAdd (tag : Nat) (body : Body)
  | watchRemove (tag : Nat) (body : Body)
  | watchArm (tag : Nat) (body : Body)
  | queryWatch (tag : Nat) (body : Body)
  | restoreAdd (tag : Nat) (body : Body)
  | restoreDrop (tag : Nat) (body : Body)
  | configureEvents (tag : Nat) (body : Body)
  | abort (tag : Nat) (body : Body)
  -- I/O entries: the fetch arbiter's entry read with this tag succeeded and delivered this entry
  | read (tag : Nat) (body : Body)
  | write (tag : Nat) (body : Body)
  | maskedWrite (tag : Nat) (body : Body)
  | broadcastWrite (tag : Nat) (body : Body)
  | readBlock (tag : Nat) (body : Body)
  | waitUntil (tag : Nat) (body : Body)
  | fence (tag : Nat) (body : Body)
  -- failures of entry reads, and accesses that run out of time
  | entryReadFail (sq : SqId) (tag : Nat)
  | dmaAccessTimeout (access : Access) (tag : Nat)
  -- the wire
  | frameBoundary (seg : SegId)
  | frameAttemptEnd (seg : SegId) (answer : BitVec 2) (data : Half) (parity : Bool)
  | broadcastFrameEnd (seg : SegId)
  -- timers
  | retryDelayEnd (requester : Requester)
  | pollIntervalEnd (ctx : CtxNum)
  | waitUntilDeadline (ctx : CtxNum)
  | watchDue (watch : WatchId)
  -- stuck line and recovery
  | stuckLineDetected (seg : SegId)
  | recoveryPulseEnd (seg : SegId) (hdaHigh : Bool)
  | recoveryIdleEnd (seg : SegId)
  -- outcomes of writes to host memory
  | bufferWriteDone (ctx : CtxNum) (tag : Nat) (ok : Bool)
  | resultWriteDone (tag : Nat) (ok : Bool)
  | completionWriteDone (cq : CqId) (tag : Nat)
  | completionWriteFail (cq : CqId) (tag : Nat)
  | eventWriteDone (tag : Nat)
  | eventWriteFail (tag : Nat)
  -- the remaining rows
  | invalidOpcodeEntry (admin : Bool) (tag : Nat) (opcode : Byte) (body : Body)
  | discardedEntryRead (sq : SqId) (tag : Nat)
  | engineControlWrite (w : RegWrite)
deriving DecidableEq, Repr

end Sys2Proof
end

