-- ==== Sys2Proof/Decode.lean ====
section
/-! DEFINITION. Reading the bytes of a submission entry (11.3, R191) and the command codes. The rows of
spec/opcode_table.json give no bits, so no word spells a command: decodeTableWord answers none for every word. -/

namespace Sys2Proof

/-- No row of the table gives bits (every row's "fields" is empty), so no word spells a command. -/
def decodeTableWord (_nbits _w : Nat) : Option Instr := none

/-- The 32 bytes of an entry, from its opcode and its other bytes. -/
def Record.of (opcode : Byte) (body : Body) : Record := body ++ opcode

/-- Byte `k` of an entry. -/
def Record.byte (r : Record) (k : Nat) : Byte := r.extractLsb' (8 * k) 8

/-- The little-endian 16-bit field at bytes `k` and `k + 1`. -/
def Record.half (r : Record) (k : Nat) : Half := r.extractLsb' (8 * k) 16

/-- The 64-bit address field, bytes 24 to 31. -/
def Record.address (r : Record) : Addr := r.extractLsb' 192 64

/-- Byte 1, bit 0 (R191). -/
def Record.chainFlag (r : Record) : Bool := r.getLsbD 8

/-- Byte 1, bit 1 (R191). -/
def Record.keepFlag (r : Record) : Bool := r.getLsbD 9

/-- The command identifier, bytes 2 and 3. -/
def Record.ident (r : Record) : Half := r.half 2

/-- The seven I/O commands (R69). -/
inductive IoKind where
  | read
  | write
  | maskedWrite
  | broadcastWrite
  | readBlock
  | waitUntil
  | fence
deriving DecidableEq, Repr

/-- The I/O command a code names, if it names one (11.3, Command codes). -/
def IoKind.ofCode (op : Byte) : Option IoKind :=
  match op.toNat with
  | 0x01 => some .read
  | 0x02 => some .write
  | 0x03 => some .maskedWrite
  | 0x04 => some .broadcastWrite
  | 0x05 => some .readBlock
  | 0x06 => some .waitUntil
  | 0x07 => some .fence
  | _ => none

/-- The codes that name admin commands (11.3, Command codes). -/
def adminCodes : List Nat :=
  [0x40, 0x41, 0x42, 0x43, 0x48, 0x49, 0x4A, 0x4B, 0x4C, 0x4D, 0x50, 0x51, 0x52, 0x53, 0x58, 0x59, 0x60, 0x61]

/-- Whether a code names a command valid for the queue: an admin command for SQ0, an I/O command for SQ1 to SQ15
(R69 check 1, R87 check 1). -/
def codeValid (admin : Bool) (op : Byte) : Bool :=
  if admin then adminCodes.contains op.toNat else (IoKind.ofCode op).isSome

/-- The segment a byte names: 4 to 255 name none (R191). -/
def segOfByte (b : Byte) : Option SegId := if h : b.toNat < 4 then some ⟨b.toNat, h⟩ else none

/-- The target slot an address byte names: 0, 63 and 64 to 255 name none (R191, R3). -/
def slotOfByte (b : Byte) : Option (Fin 62) :=
  if h : 1 ≤ b.toNat ∧ b.toNat ≤ 62 then some ⟨b.toNat - 1, by omega⟩ else none

/-- The target a segment byte and an address byte name, if both name one. -/
def tgtOfBytes (segment address : Byte) : Option Tgt :=
  match segOfByte segment, slotOfByte address with
  | some g, some a => some ⟨g, a⟩
  | _, _ => none

end Sys2Proof
end

