-- ==== Sys2Proof/Machine/State.lean ====
section
/-! DEFINITION. The state of the M416, block by block, as plain data, and its value after power-on reset. -/

namespace Sys2Proof.Machine

/-! ### Engine control (chapter 10) -/

/-- The five engine states (R182). -/
inductive EngineState where
  | idle
  | running
  | pausing
  | paused
  | failed
deriving DecidableEq, Repr

/-- Why the engine entered FAILED (R181). -/
inductive FailCause where
  | none
  | adminConfig
  | adminMemory
deriving DecidableEq, Repr

/-- Engine state, ENGINE_CONTROL and the admin queue registers (R41, R180, R181). RESET reads 0 at all times, so
only ENABLE and KEEP_TARGETS are held. -/
structure Control where
  engine      : EngineState
  cause       : FailCause
  enable      : Bool
  keepTargets : Bool
  adminSqBase : Addr
  adminCqBase : Addr
  adminSizes  : BitVec 32
deriving DecidableEq, Repr

/-! ### Statuses, rings and queues (chapters 3 and 4) -/

/-- The completion statuses (the table of 4.4). -/
inductive Status where
  | success
  | successNotKept
  | invalidOpcode
  | invalidField
  | segmentOff
  | segmentFault
  | noAnswer
  | targetRefused
  | targetBusy
  | dataParity
  | conditionTimeout
  | bufferError
  | aborted
  | queueDeleted
  | chainAborted
  | queueExists
  | queueAbsent
  | queueInUse
  | segmentBusy
  | recoveryFailed
  | watchExists
  | watchAbsent
  | poolFull
  | abortTooLate
  | abortNotFound
  | resultBufferError
deriving DecidableEq, Repr

/-- The submission queue states (R39). -/
inductive SqState where
  | absent
  | active
  | deleting
  | error
deriving DecidableEq, Repr

/-- A chain being fetched on a submission queue (R39, R71): its chain id, the position of the next member, the segment
byte of its first member, and whether the chain has failed or been ended, so that its later members complete
CHAIN_ABORTED at their fetch (R72, R173). -/
structure OpenChain where
  id      : Nat
  next    : Nat
  segByte : Byte
  failed  : Bool
deriving DecidableEq, Repr

/-- The context in a staging slot, and whether it is a chain start waiting for the chain-fetch lock (R93, R94). -/
structure Staging where
  ctx       : CtxNum
  waitsLock : Bool
deriving DecidableEq, Repr

/-- A submission queue (R39). -/
structure Sq where
  state   : SqState
  base    : Addr
  size    : Nat
  tail    : Nat
  head    : Nat
  bound   : CqId
  weight  : Nat
  staging : Option Staging
  chain   : Option OpenChain
deriving DecidableEq, Repr

/-- An ABSENT submission queue: its items are not held, and its index register reads 0 (R39, R61). -/
def Sq.absent : Sq :=
  { state := .absent, base := 0, size := 0, tail := 0, head := 0, bound := 0, weight := 0,
    staging := Option.none, chain := Option.none }

/-- The completion queue states (R40). -/
inductive CqState where
  | absent
  | active
  | error
deriving DecidableEq, Repr

/-- A completion waiting in a ready list: an I/O context, or the admin context (R50). -/
inductive ReadyItem where
  | ctx (n : CtxNum)
  | admin
deriving DecidableEq, Repr

/-- The posting in flight: the completion, and the tag of its DMA write (R47). -/
structure Posting where
  item : ReadyItem
  tag  : Nat
deriving DecidableEq, Repr

/-- A completion queue (R40). -/
structure Cq where
  state    : CqState
  base     : Addr
  size     : Nat
  tail     : Nat
  head     : Nat
  phase    : Bool
  vector   : VecId
  ready    : List ReadyItem
  inFlight : Option Posting
deriving DecidableEq, Repr

/-- An ABSENT completion queue (R40, R61). -/
def Cq.absent : Cq :=
  { state := .absent, base := 0, size := 0, tail := 0, head := 0, phase := true, vector := 0, ready := [],
    inFlight := Option.none }

/-- An entry read outstanding: its queue and its tag. -/
structure EntryRead where
  sq  : SqId
  tag : Nat
deriving DecidableEq, Repr

/-- The fetch arbiter (R90): rotation position, the queue whose turn is in progress, the turn count, the read
outstanding. -/
structure FetchArb where
  rotation : Option SqId
  turn     : Option SqId
  count    : Nat
  read     : Option EntryRead
deriving DecidableEq, Repr

/-- The chain-fetch lock while it is held (R95): holding queue, chain id, members fetched. -/
structure ChainLock where
  sq      : SqId
  chain   : Nat
  fetched : Nat
deriving DecidableEq, Repr

/-! ### Contexts (chapter 4) -/

/-- The context states but FREE (R64): a FREE context holds nothing and is not in the list of contexts. -/
inductive CtxState where
  | staged
  | pending
  | active
  | retryWait
  | pollWait
  | fenceWait
  | ready
deriving DecidableEq, Repr

/-- Chain membership (R63, R71): chain id, position 1 to 16, last-member flag. -/
structure ChainMember where
  id   : Nat
  pos  : Nat
  last : Bool
deriving DecidableEq, Repr

/-- A context out of FREE (R63). `staged` is the staged data, and its length is the block count. `tries` counts the
attempts of the frame request in progress (R12). Timers are the tick counts at which they end: `retryEnd` on the
10 µs base, `pollEnd` and `deadline` on the 100 µs base. `mark` is the cancel mark (R167, R171). `buffer` is the tag
of the buffer write outstanding (R80). -/
structure Ctx where
  num            : CtxNum
  sq             : SqId
  record         : Record
  state          : CtxState
  chain          : Option ChainMember
  attempts       : Nat
  value          : Option Half
  status         : Option Status
  staged         : List Half
  retryEnd       : Option Nat
  pollEnd        : Option Nat
  deadline       : Option Nat
  deadlinePassed : Bool
  mark           : Option Status
  tries          : Nat
  buffer         : Option Nat
deriving DecidableEq, Repr

/-- What the admin command in the admin context is doing (R85, R88). -/
inductive AdminProgress where
  | executing
  | deletingSq (q : SqId)
  | drainingSegment (g : SegId)
  | recovering (g : SegId)
  | removingWatch (w : WatchId)
  | resultWrite (tag : Nat)
  | completed
deriving DecidableEq, Repr

/-- The admin context while it holds a command (R85). -/
structure AdminCtx where
  record   : Record
  progress : AdminProgress
  status   : Option Status
  result   : Option Half
deriving DecidableEq, Repr

/-- The Admin Executor: the admin context, and the tag of the SQ0 entry read outstanding (R85, R86). -/
structure Admin where
  ctx  : Option AdminCtx
  read : Option Nat
deriving DecidableEq, Repr

/-! ### Segments (chapters 1 and 5) -/

/-- The segment states (R15). -/
inductive SegState where
  | off
  | active
  | draining
  | faulted
  | recovering
deriving DecidableEq, Repr

/-- The five segment settings (R16). -/
structure Settings where
  divider       : Nat
  retryDelay    : Nat
  retryLimit    : Nat
  missThreshold : Nat
  stuckTime     : Nat
deriving DecidableEq, Repr

/-- The defaults of R16. -/
def Settings.default : Settings :=
  { divider := 249, retryDelay := 20, retryLimit := 3, missThreshold := 3, stuckTime := 50 }

/-- A watch response write: one frame request (R127), with the attempts it has made. -/
structure RespWrite where
  watch : WatchId
  tgt   : Tgt
  index : Byte
  data  : Half
  tries : Nat
deriving DecidableEq, Repr

/-- An entry of the internal write list (R102). -/
inductive IwEntry where
  | response (r : RespWrite)
  | job (t : Tgt)
deriving DecidableEq, Repr

/-- An entry of the due-poll list (R117): the watch, the due time at which it became due, and whether it came back
from a retry delay. -/
structure DuePoll where
  watch   : WatchId
  due     : Nat
  retried : Bool
deriving DecidableEq, Repr

/-- The holder of a segment (R103). -/
inductive Holder where
  | chain (id : Nat)
  | maskedWrite (n : CtxNum)
  | readBlock (n : CtxNum)
deriving DecidableEq, Repr

/-- The class last served by the segment arbiter (R101). -/
inductive LastServed where
  | poll
  | host
deriving DecidableEq, Repr

/-- The three frame kinds (R3). -/
inductive FrameKind where
  | read
  | write
  | broadcast
deriving DecidableEq, Repr

/-- Who waits for the frame on the wire. A response write whose watch has been removed is `orphan`: its outcome is
recorded nowhere (R114). -/
inductive WireOwner where
  | host (n : CtxNum)
  | poll (w : WatchId)
  | response (r : RespWrite) (orphan : Bool)
  | replay (t : Tgt)
deriving DecidableEq, Repr

/-- The frame on a segment's wire: its kind, the target it addresses (none for BROADCAST), the register index, its
owner, and the bits the engine sends: the 22-bit header, and for WRITE and BROADCAST the 16 data bits with their
parity (R3 to R7). -/
structure Wire where
  kind    : FrameKind
  tgt     : Option Tgt
  index   : Byte
  owner   : WireOwner
  header  : BitVec 22
  payload : Option (BitVec 17)
deriving DecidableEq, Repr

/-- A response write in its retry delay, and the tick of the 10 µs base at which the delay ends (R12, R128). -/
structure RespDelay where
  write    : RespWrite
  retryEnd : Nat
deriving DecidableEq, Repr

/-- A segment controller (R13, R15, R16, R19, R97, R99, R101 to R103, R117). `offered` holds the host contexts
whose retry delay or poll interval has ended, in the order in which they ended. `recoveryIdle` is set in the 8 idle
bit times that end a recovery. -/
structure SegCtl where
  state        : SegState
  settings     : Settings
  pendingList  : List CtxNum
  offered      : List CtxNum
  writes       : List IwEntry
  respDelays   : List RespDelay
  duePolls     : List DuePoll
  holder       : Option Holder
  lastServed   : LastServed
  wire         : Option Wire
  stuckCount   : Nat
  pulseCount   : Nat
  recoveryIdle : Bool
deriving DecidableEq, Repr

/-- A segment as a reset leaves it, with the given settings (R21, R101). -/
def SegCtl.afterReset (x : Settings) : SegCtl :=
  { state := .off, settings := x, pendingList := [], offered := [], writes := [], respDelays := [], duePolls := [],
    holder := Option.none, lastServed := .poll, wire := Option.none, stuckCount := 0, pulseCount := 0,
    recoveryIdle := false }

/-! ### Presence, restore, watches (chapters 2, 6 and 7) -/

/-- The presence states (R22). -/
inductive Presence where
  | unknown
  | present
  | lost
  | restoring
deriving DecidableEq, Repr

/-- An entry of the Presence Table (R22). -/
structure PresEntry where
  state : Presence
  miss  : Nat
deriving DecidableEq, Repr

/-- An entry in use of the restore pool (R133). -/
structure PoolEntry where
  tgt   : Tgt
  index : Byte
  value : Half
deriving DecidableEq, Repr

/-- The replay write in flight of a job: index and value as taken at issue, and attempts made (R140). -/
structure ReplayWrite where
  index : Byte
  value : Half
  tries : Nat
deriving DecidableEq, Repr

/-- A replay job (R138). The cursor is none at "start". -/
structure Job where
  tgt         : Tgt
  cursor      : Option Byte
  inFlight    : Option ReplayWrite
  retryEnd    : Option Nat
  written     : Nat
  failed      : Nat
  firstFailed : Option Byte
deriving DecidableEq, Repr

/-- Why a job was abandoned (R145). -/
inductive AbandonCause where
  | targetLost
  | segmentOff
  | segmentFault
deriving DecidableEq, Repr

/-- The watch conditions (R109, R122). -/
inductive Cond where
  | change
  | rise
  | fall
  | matches
  | leave
  | reinit
deriving DecidableEq, Repr

/-- The response write configured for a watch: a target slot on the watch's segment, an index and data (R109). -/
structure RespCfg where
  slot  : Fin 62
  index : Byte
  data  : Half
deriving DecidableEq, Repr

/-- The configuration of a watch (R109). -/
structure WatchCfg where
  tgt        : Tgt
  index      : Byte
  mask       : Half
  cond       : Cond
  matchValue : Option Half
  interval   : Nat
  debounce   : Nat
  oneShot    : Bool
  report     : Bool
  response   : Option RespCfg
deriving DecidableEq, Repr

/-- The watch states (R110). -/
inductive WatchState where
  | armed
  | fired
  | halted
deriving DecidableEq, Repr

/-- Where a watch's poll stands (R110). -/
inductive PollState where
  | none
  | listed
  | onWire
  | retryWait
deriving DecidableEq, Repr

/-- A report held while the event ring is full (R153): the held previous value, and the coalesced count. -/
structure HeldReport where
  previous : Option Half
  count    : Nat
deriving DecidableEq, Repr

/-- A watch: configuration and runtime items (R109, R110). `held` is the pending report flag with its coalesced count
and the Event Unit's held previous value (R150). `tries` and `retryEnd` belong to the poll's frame request (R117). -/
structure Watch where
  cfg          : WatchCfg
  state        : WatchState
  stable       : Option Half
  candidate    : Option Half
  run          : Nat
  nextDue      : Option Nat
  poll         : PollState
  tries        : Nat
  retryEnd     : Option Nat
  overrun      : Bool
  overrunCount : Nat
  triggers     : Nat
  lastPoll     : Option Status
  held         : Option HeldReport
  respPending  : Bool
  lastResponse : Option Status
deriving DecidableEq, Repr

/-! ### Events and interrupts (chapter 8) -/

/-- The requester kind of a frame, as events report it (R29). -/
inductive Source where
  | host
  | poll
  | response
  | replay
deriving DecidableEq, Repr

/-- The causes of QUEUE_ERROR (R54, R56, R58, R59). -/
inductive QueueCause where
  | badIndex
  | memory
  | cqLost
deriving DecidableEq, Repr

/-- The event records (R159), with the contents that the rules raising them fix when they are handed over. -/
inductive Event where
  | watchTriggered (w : WatchId) (stable previous : Option Half) (count : Nat)
  | deviceFound (t : Tgt) (first replay : Bool) (count : Nat) (src : Source)
  | deviceLost (t : Tgt) (left : Presence) (miss : Nat) (src : Source)
  | deviceReinit (t : Tgt) (w : WatchId) (started : Bool)
  | restoreDone (t : Tgt) (written failed : Nat) (firstFailed : Option Byte) (cause : Option AbandonCause)
      (remaining : Nat)
  | segmentFaulted (g : SegId)
  | segmentRecovered (g : SegId)
  | queueError (completion : Bool) (id : Nat) (cause : QueueCause)
  | eventsLost (count : Nat)
deriving DecidableEq, Repr

/-- The event ring while it is present (R150). `output` holds the records assigned a slot and not yet written, in slot
order; the one whose write is in flight stands at its head, and `inFlight` is that write's tag. -/
structure Ring where
  base     : Addr
  size     : Nat
  vector   : VecId
  head     : Nat
  tail     : Nat
  phase    : Bool
  output   : List Event
  inFlight : Option Nat
deriving DecidableEq, Repr

/-- The Event Unit (R150); the held reports stand with their watches. -/
structure EventUnit where
  ring    : Option Ring
  backlog : List Event
  lost    : Nat
deriving DecidableEq, Repr

/-- The Interrupt Unit (R160, R165): mask and pending flags, the two inputs from configuration space, and `messages`,
the numbers of the messages sent so far (the model's own record of what leaves on the host link, log entry 5). -/
structure IntUnit where
  mask       : BitVec 8
  pending    : BitVec 8
  msiOn      : Bool
  msiVectors : Nat
  messages   : List Nat
deriving DecidableEq, Repr

/-- An access to host memory that the Link Interface has issued and whose outcome has not come: what it is for, its
tag, its address, the bytes of a write (none for a read), and the tick of its issue (R57). -/
structure Dma where
  access : Access
  tag    : Nat
  addr   : Addr
  bytes  : List Byte
  issued : Nat
deriving DecidableEq, Repr

/-- The Link Interface: the next tag, and the accesses outstanding (R57). -/
structure Link where
  next        : Nat
  outstanding : List Dma
deriving DecidableEq, Repr

/-- The state of the machine. `pending` is the queue of commands waiting, first in first out. `ticks` counts the ticks
of the 10 µs time base. `ctxs` holds the contexts out of FREE in the order in which they were fetched. `nextChain` is
the next chain id. The contexts' numbers, the chain ids, the tags and the messages are the model's own numbering. -/
structure State where
  pending   : List Instr
  ticks     : Nat
  ctl       : Control
  sqs       : Vector Sq 16
  cqs       : Vector Cq 8
  arb       : FetchArb
  lock      : Option ChainLock
  ctxs      : List Ctx
  nextChain : Nat
  adm       : Admin
  segs      : Vector SegCtl 4
  presence  : Vector (Vector PresEntry 62) 4
  watches   : Vector (Option Watch) 128
  pool      : List PoolEntry
  jobs      : List Job
  ev        : EventUnit
  irq       : IntUnit
  link      : Link
deriving DecidableEq, Repr

/-- The fetch arbiter after a reset (R90). -/
def FetchArb.afterReset : FetchArb := { rotation := none, turn := none, count := 0, read := none }

/-- The machine after power-on reset: each block at the values its chapter gives (R190), no command waiting, the time
base and the model's own numberings at 0 (log entries 2, 5 and 6). -/
def State.reset : State :=
  { pending := []
    ticks := 0
    ctl := { engine := .idle, cause := .none, enable := false, keepTargets := false, adminSqBase := 0, adminCqBase := 0,
             adminSizes := 0 }
    sqs := Vector.replicate 16 Sq.absent
    cqs := Vector.replicate 8 Cq.absent
    arb := FetchArb.afterReset
    lock := none
    ctxs := []
    nextChain := 0
    adm := { ctx := none, read := none }
    segs := Vector.replicate 4 (SegCtl.afterReset Settings.default)
    presence := Vector.replicate 4 (Vector.replicate 62 { state := .unknown, miss := 0 })
    watches := Vector.replicate 128 none
    pool := []
    jobs := []
    ev := { ring := none, backlog := [], lost := 0 }
    irq := { mask := 0xFF, pending := 0, msiOn := false, msiVectors := 1, messages := [] }
    link := { next := 0, outstanding := [] } }

/-- Why the machine stops with a fault: never. The manual gives this block no event that stops it; FAILED is a state
of the engine, not a fault of the machine. -/
inductive Fault where
deriving DecidableEq, Repr

/-- Why a command is refused. -/
inductive Refusal where
  /-- Raised by no arm: every command has its meaning. Safe: the machine stops. -/
  | notModelled (mnemonic : String)
  /-- Raised by a command whose operands are not ones its row of the table can carry (`Instr.wellFormed`): a vector
  count outside 1 to 8, an offset that holds another register, an opcode that is valid for its queue. Safe: the
  machine stops, and no command the outside can send is of this form. -/
  | illFormed (mnemonic : String)
deriving DecidableEq, Repr

end Sys2Proof.Machine
end

