-- ==== Sys2Proof/Machine/Operands.lean ====
section
/-! DEFINITION. Operand forms and formats: the bytes a register write replaces, the fields of an I/O command and their
ranges, the bits of a frame and of its answer, and the layouts of every record the engine writes (chapter 11). -/

namespace Sys2Proof

/-! ### Register writes (R60) -/

/-- The bits of a 4-byte register that a write replaces (R60). -/
def RegWrite.mask (w : RegWrite) : BitVec 32 :=
  let lane (k : Nat) : BitVec 8 := if w.enables.getLsbD k then 0xFF else 0
  lane 3 ++ lane 2 ++ lane 1 ++ lane 0

/-- The whole register as it stands after the write: enabled bytes replaced, the others kept (R60, R44). -/
def RegWrite.onto (w : RegWrite) (old : BitVec 32) : BitVec 32 := (w.value &&& w.mask) ||| (old &&& ~~~w.mask)

/-- The value written, with 0 in the bytes that are not enabled (R162, R163; log entry 9). -/
def RegWrite.written (w : RegWrite) : BitVec 32 := w.value &&& w.mask

/-- An 8-byte register after a write with the given byte enables (R41, R60). -/
def replaceBytes (enables : BitVec 8) (value old : BitVec 64) : BitVec 64 :=
  let lane (k : Nat) : BitVec 8 := if enables.getLsbD k then 0xFF else 0
  let mask : BitVec 64 := lane 7 ++ lane 6 ++ lane 5 ++ lane 4 ++ lane 3 ++ lane 2 ++ lane 1 ++ lane 0
  (value &&& mask) ||| (old &&& ~~~mask)

/-! ### Fields of I/O commands (R70) -/

/-- The end of a run of bytes does not pass the top of the 64-bit address space. -/
def fitsBelowTop (base : Addr) (bytes : Nat) : Bool := base.toNat + bytes ≤ 2 ^ 64

/-- Whether every field the command kind uses lies in its range, and KEEP is valid for the kind (R69 check 2, R70). -/
def IoKind.fieldsOk (k : IoKind) (r : Record) : Bool :=
  let segment := (segOfByte (r.byte 4)).isSome
  let target := (slotOfByte (r.byte 5)).isSome
  match k with
  | .read => segment && target
  | .write => segment && target
  | .maskedWrite => segment && target
  | .broadcastWrite => segment && r.byte 5 == 0 && !r.keepFlag
  | .readBlock =>
    segment && target && 1 ≤ (r.byte 7).toNat && (r.byte 7).toNat ≤ 32 &&
      (r.byte 6).toNat + (r.byte 7).toNat - 1 ≤ 255 && r.address.toNat % 2 == 0 &&
      fitsBelowTop r.address (2 * (r.byte 7).toNat) && !r.keepFlag
  | .waitUntil =>
    segment && target && (r.half 12 &&& ~~~(r.half 10)) == 0 && 1 ≤ (r.half 14).toNat &&
      1 ≤ (r.half 16).toNat && !r.keepFlag
  | .fence => !r.keepFlag

/-! ### Frames (R1 to R7, R10, 11.2) -/

/-- Whether a field holds an odd number of 1s (R4). -/
def oddOnes {n : Nat} (x : BitVec n) : Bool := (List.range n).foldl (fun odd i => odd ^^ x.getLsbD i) false

end Sys2Proof

namespace Sys2Proof.Machine

/-- The kind field of the header (R3). -/
def FrameKind.code : FrameKind → BitVec 3
  | .read => 0b001
  | .write => 0b010
  | .broadcast => 0b100

/-- The header: start pattern 0110, kind, address, index, and the parity of the 17 bits of kind, address and index. The
most significant bit is sent first (R3, R4). -/
def frameHeader (kind : FrameKind) (address : Nat) (index : Byte) : BitVec 22 :=
  let fields : BitVec 17 := kind.code ++ BitVec.ofNat 6 address ++ index
  (0b0110 : BitVec 4) ++ fields ++ BitVec.ofBool (oddOnes fields)

/-- The 16 data bits and their parity (R4, R5, R7). -/
def framePayload (data : Half) : BitVec 17 := data ++ BitVec.ofBool (oddOnes data)

/-- The length of a frame in bit times; a READ that is not answered ACCEPT ends after its answer (R5, R6, R7). -/
def FrameKind.bitTimes (k : FrameKind) (accepted : Bool) : Nat :=
  match k with
  | .write => 43
  | .read => if accepted then 43 else 26
  | .broadcast => 39

/-- One bit time of a segment, in nanoseconds (R2). -/
def Settings.bitTimeNs (x : Settings) : Nat := (x.divider + 1) * 20

/-- The result of one READ or WRITE attempt (R10). The value of an ACCEPT is the value read; a WRITE has none. -/
inductive Attempt where
  | accept (value : Half)
  | parityFail
  | hold
  | refuse
  | silent
deriving DecidableEq, Repr

/-- The attempt result that the two answer bits give, and on an answered READ the 17 data and parity bits (R10). -/
def Attempt.ofAnswer (kind : FrameKind) (answer : BitVec 2) (data : Half) (parity : Bool) : Attempt :=
  match answer.toNat with
  | 0b01 => if kind = .read ∧ oddOnes data ≠ parity then .parityFail else .accept data
  | 0b10 => .hold
  | 0b00 => .refuse
  | _ => .silent

/-- Whether a failed attempt may be retried (R12). -/
def Attempt.retriable : Attempt → Bool
  | .hold => true
  | .parityFail => true
  | _ => false

/-- The completion status of a frame request that ends with this attempt (the table of R11); a HOLD or a parity failure
ends it only when its budget is spent or a rule stops its retry (R12). -/
def Attempt.status : Attempt → Status
  | .accept _ => .success
  | .parityFail => .dataParity
  | .hold => .targetBusy
  | .refuse => .targetRefused
  | .silent => .noAnswer

/-! ### A context's command -/

/-- The command a context holds; none for an entry whose opcode names no I/O command. -/
def Ctx.kind (c : Ctx) : Option IoKind := IoKind.ofCode (c.record.byte 0)

/-- The segment of a context's command. Validation lets only bytes 0 to 3 through (R70). -/
def Ctx.seg (c : Ctx) : SegId := ⟨(c.record.byte 4).toNat % 4, Nat.mod_lt _ (by decide)⟩

/-- The target of a context's command. Validation lets only addresses 1 to 62 through (R70). -/
def Ctx.tgt (c : Ctx) : Tgt := ⟨c.seg, ⟨((c.record.byte 5).toNat + 61) % 62, Nat.mod_lt _ (by decide)⟩⟩

/-- The number of registers a READ_BLOCK has read (R79). -/
def Ctx.blockCount (c : Ctx) : Nat := c.staged.length

/-- The kind of the next frame of the command. A MASKED_WRITE reads until it has formed its merged value (R77). -/
def Ctx.frameKind (c : Ctx) : FrameKind :=
  match c.kind with
  | some .write => .write
  | some .broadcastWrite => .broadcast
  | some .maskedWrite => if c.value.isSome then .write else .read
  | _ => .read

/-- The register index of the next frame of the command (R79 for READ_BLOCK). -/
def Ctx.frameIndex (c : Ctx) : Byte :=
  match c.kind with
  | some .readBlock => c.record.byte 6 + BitVec.ofNat 8 c.blockCount
  | _ => c.record.byte 6

/-- The data of the next WRITE or BROADCAST frame: the merged value for a MASKED_WRITE (R77). -/
def Ctx.frameData (c : Ctx) : Half :=
  match c.kind with
  | some .maskedWrite => c.value.getD 0
  | _ => c.record.half 8

/-- The merged value of a MASKED_WRITE: data where the mask is 1, the value read where it is 0 (R77). -/
def mergedValue (r : Record) (readValue : Half) : Half :=
  (r.half 8 &&& r.half 10) ||| (readValue &&& ~~~(r.half 10))

/-- Whether a WAIT_UNTIL sample matches (R81). -/
def sampleMatches (r : Record) (v : Half) : Bool := (v &&& r.half 10) == r.half 12

/-- The host address in a record's buffer field to which a READ_BLOCK writes its staged data, little-endian (R80). -/
def Ctx.stagedBytes (c : Ctx) : List Byte :=
  c.staged.flatMap fun v => [v.extractLsb' 0 8, v.extractLsb' 8 8]

/-! ### Codes (chapter 11) -/

/-- The status codes of 11.4. -/
def Status.code : Status → Byte
  | .success => 0x00
  | .successNotKept => 0x01
  | .invalidOpcode => 0x02
  | .invalidField => 0x03
  | .segmentOff => 0x04
  | .segmentFault => 0x05
  | .noAnswer => 0x06
  | .targetRefused => 0x07
  | .targetBusy => 0x08
  | .dataParity => 0x09
  | .conditionTimeout => 0x0A
  | .bufferError => 0x0B
  | .aborted => 0x0C
  | .queueDeleted => 0x0D
  | .chainAborted => 0x0E
  | .queueExists => 0x20
  | .queueAbsent => 0x21
  | .queueInUse => 0x22
  | .segmentBusy => 0x23
  | .recoveryFailed => 0x24
  | .watchExists => 0x25
  | .watchAbsent => 0x26
  | .poolFull => 0x27
  | .abortTooLate => 0x28
  | .abortNotFound => 0x29
  | .resultBufferError => 0x2A

/-- A status field of a result record: FFh when it holds none (R192). -/
def statusField : Option Status → Byte
  | some st => st.code
  | none => 0xFF

/-- Presence state codes (11.5). -/
def Presence.code : Presence → Byte
  | .unknown => 0
  | .present => 1
  | .lost => 2
  | .restoring => 3

/-- Source codes (11.5). -/
def Source.code : Source → Byte
  | .host => 0
  | .poll => 1
  | .response => 2
  | .replay => 3

/-- QUEUE_ERROR cause codes (11.5). -/
def QueueCause.code : QueueCause → Byte
  | .badIndex => 1
  | .memory => 2
  | .cqLost => 3

/-- Abandon cause codes (11.5). -/
def abandonCode : Option AbandonCause → Byte
  | none => 0
  | some .targetLost => 1
  | some .segmentOff => 2
  | some .segmentFault => 3

/-- Segment state codes (11.6). -/
def SegState.code : SegState → Byte
  | .off => 0
  | .active => 1
  | .draining => 2
  | .faulted => 3
  | .recovering => 4

/-- Holder codes (11.6). -/
def holderCode : Option Holder → Byte
  | none => 0
  | some (.chain _) => 1
  | some (.maskedWrite _) => 2
  | some (.readBlock _) => 3

/-- Condition codes (11.3). -/
def Cond.code : Cond → Byte
  | .change => 1
  | .rise => 2
  | .fall => 3
  | .matches => 4
  | .leave => 5
  | .reinit => 6

/-- The condition a code names (11.3, R191). -/
def Cond.ofCode (b : Byte) : Option Cond :=
  match b.toNat with
  | 1 => some .change
  | 2 => some .rise
  | 3 => some .fall
  | 4 => some .matches
  | 5 => some .leave
  | 6 => some .reinit
  | _ => none

/-- Whether the condition compares with a match value (R109). -/
def Cond.usesMatch : Cond → Bool
  | .matches => true
  | .leave => true
  | .reinit => true
  | _ => false

/-- The value a two-valued code names: 0 or 1 (11.3, R191). -/
def boolOfCode (b : Byte) : Option Bool :=
  match b.toNat with
  | 0 => some false
  | 1 => some true
  | _ => none

/-- Watch state codes (11.6). -/
def WatchState.code : WatchState → Byte
  | .armed => 0
  | .fired => 1
  | .halted => 2

/-- Poll outstanding codes (11.6). -/
def PollState.code : PollState → Byte
  | .none => 0
  | .listed => 1
  | .onWire => 2
  | .retryWait => 3

/-- Engine state codes (11.7). -/
def EngineState.code : EngineState → Nat
  | .idle => 0
  | .running => 1
  | .pausing => 2
  | .paused => 3
  | .failed => 4

/-- Failure cause codes (11.7). -/
def FailCause.code : FailCause → Nat
  | .none => 0
  | .adminConfig => 1
  | .adminMemory => 2

/-! ### Records (11.4, 11.5, 11.6, R192) -/

/-- Low byte of a number. -/
def lowByte (n : Nat) : Byte := BitVec.ofNat 8 n

/-- Second byte of a number. -/
def highByte (n : Nat) : Byte := BitVec.ofNat 8 (n / 256)

/-- Bit `k` of a byte, when the flag is set. -/
def flagBit (k : Nat) (b : Bool) : Byte := if b then BitVec.ofNat 8 (2 ^ k) else 0

/-- The 16 bytes of a completion entry (11.4). -/
def completionBytes (ident : Half) (sq : Nat) (status : Status) (value : Option Half) (block attempts sqHead : Nat)
    (phase : Bool) : List Byte :=
  let v := (value.getD 0).toNat
  [lowByte ident.toNat, highByte ident.toNat, lowByte sq, status.code, lowByte v, highByte v,
   flagBit 0 value.isSome, lowByte block, lowByte attempts, 0, lowByte sqHead, highByte sqHead, 0, 0, 0,
   flagBit 0 phase]

/-- The 16 bytes of an event entry (11.5). -/
def Event.bytes (e : Event) (phase : Bool) : List Byte :=
  let p := flagBit 0 phase
  match e with
  | .watchTriggered w stable previous count =>
    let n := (stable.getD 0).toNat
    let q := (previous.getD 0).toNat
    [0x01, lowByte w.val, flagBit 0 stable.isSome ||| flagBit 1 previous.isSome, 0, lowByte n, highByte n,
     lowByte q, highByte q, lowByte count, highByte count, 0, 0, 0, 0, 0, p]
  | .deviceFound t first replay count src =>
    [0x02, lowByte t.seg.val, lowByte t.address, flagBit 0 first ||| flagBit 1 replay, lowByte count, highByte count,
     src.code, 0, 0, 0, 0, 0, 0, 0, 0, p]
  | .deviceLost t left miss src =>
    [0x03, lowByte t.seg.val, lowByte t.address, left.code, lowByte miss, 0, src.code, 0, 0, 0, 0, 0, 0, 0, 0, p]
  | .deviceReinit t w started =>
    [0x04, lowByte t.seg.val, lowByte t.address, flagBit 0 started, lowByte w.val, 0, 0, 0, 0, 0, 0, 0, 0, 0, 0, p]
  | .restoreDone t written failed firstFailed cause remaining =>
    [0x05, lowByte t.seg.val, lowByte t.address, flagBit 0 cause.isSome ||| flagBit 1 firstFailed.isSome,
     lowByte written, highByte written, lowByte failed, highByte failed, firstFailed.getD 0, abandonCode cause,
     lowByte remaining, highByte remaining, 0, 0, 0, p]
  | .segmentFaulted g => [0x06, lowByte g.val, 0, 0, 0, 0, 0, 0, 0, 0, 0, 0, 0, 0, 0, p]
  | .segmentRecovered g => [0x07, lowByte g.val, 0, 0, 0, 0, 0, 0, 0, 0, 0, 0, 0, 0, 0, p]
  | .queueError completion id cause =>
    [0x08, flagBit 0 completion, lowByte id, cause.code, 0, 0, 0, 0, 0, 0, 0, 0, 0, 0, 0, p]
  | .eventsLost count => [0x09, 0, 0, 0, lowByte count, highByte count, 0, 0, 0, 0, 0, 0, 0, 0, 0, p]

/-- The segment result record (11.6, R20). -/
def segmentRecord (g : SegId) (x : SegCtl) : List Byte :=
  [lowByte g.val, x.state.code, lowByte x.settings.divider, highByte x.settings.divider,
   lowByte x.settings.retryDelay, lowByte x.settings.retryLimit, lowByte x.settings.missThreshold,
   lowByte x.settings.stuckTime, lowByte x.pendingList.length, lowByte x.writes.length, lowByte x.duePolls.length,
   holderCode x.holder, lowByte x.pulseCount, 0, 0, 0]

/-- The target result record (11.6, R34). -/
def targetRecord (t : Tgt) (e : PresEntry) (threshold entries : Nat) (job : Option Job) : List Byte :=
  let cursorKind : Byte := match job with
    | none => 0
    | some j => if j.cursor.isNone then 1 else 2
  let cursor : Byte := match job with
    | none => 0
    | some j => j.cursor.getD 0
  let written := match job with
    | none => 0
    | some j => j.written
  let failed := match job with
    | none => 0
    | some j => j.failed
  [lowByte t.seg.val, lowByte t.address, e.state.code, lowByte e.miss, lowByte threshold, flagBit 0 job.isSome,
   lowByte entries, highByte entries, cursorKind, cursor, lowByte written, highByte written, lowByte failed,
   highByte failed, 0, 0]

/-- The watch result record (11.6, R115). The time to next due is the next due time minus now, 0 when it has arrived. -/
def watchRecord (w : WatchId) (x : Watch) (now : Nat) : List Byte :=
  let c := x.cfg
  let m := (c.matchValue.getD 0).toNat
  let stable := (x.stable.getD 0).toNat
  let candidate := (x.candidate.getD 0).toNat
  let due := match x.nextDue with
    | none => 0
    | some d => d - now
  let coalesced := match x.held with
    | none => 0
    | some h => h.count
  let respSlot := match c.response with
    | none => 0
    | some r => r.slot.val + 1
  let respIndex : Byte := match c.response with
    | none => 0
    | some r => r.index
  let respData := match c.response with
    | none => 0
    | some r => r.data.toNat
  [lowByte w.val, lowByte c.tgt.seg.val, lowByte c.tgt.address, c.index,
   lowByte c.mask.toNat, highByte c.mask.toNat, lowByte m, highByte m,
   lowByte c.interval, highByte c.interval, c.cond.code, lowByte c.debounce,
   flagBit 0 c.oneShot ||| flagBit 1 c.report ||| flagBit 2 c.response.isSome ||| flagBit 3 x.stable.isSome |||
     flagBit 4 x.candidate.isSome ||| flagBit 5 x.nextDue.isNone ||| flagBit 6 x.overrun ||| flagBit 7 x.respPending,
   lowByte respSlot, respIndex, x.state.code,
   lowByte respData, highByte respData, lowByte stable, highByte stable,
   lowByte candidate, highByte candidate, lowByte x.run, x.poll.code,
   lowByte due, highByte due, lowByte x.overrunCount, statusField x.lastPoll,
   lowByte x.triggers, highByte x.triggers, lowByte coalesced, highByte coalesced,
   statusField x.lastResponse, 0, 0, 0, 0, 0, 0, 0]

end Sys2Proof.Machine
end

