-- ==== Sys2Proof/Machine/Ops.lean ====
section
/-! DEFINITION. The named operations over the state: reading and replacing one segment, queue, target entry, watch or
context; the time base; the accesses to host memory that the Link Interface has issued. -/

namespace Sys2Proof.Machine

/-- A function applied to every entry of a table. -/
def tableMap {α β : Type} {n : Nat} (f : α → β) (v : Vector α n) : Vector β n := ⟨⟨v.toList.map f⟩, by simp⟩

/-- A function of the place applied to every entry of a table. -/
def tableMapAt {α β : Type} {n : Nat} (f : Fin n → α → β) (v : Vector α n) : Vector β n :=
  Vector.ofFn fun i => f i (v.get i)

/-! ### Tables -/

/-- The controller of segment `g`. -/
def State.seg (s : State) (g : SegId) : SegCtl := s.segs.get g

/-- The state with segment `g`'s controller replaced. -/
def State.setSeg (s : State) (g : SegId) (x : SegCtl) : State := { s with segs := s.segs.set g.val x g.isLt }

/-- The state with segment `g`'s controller changed. -/
def State.updSeg (s : State) (g : SegId) (f : SegCtl → SegCtl) : State := s.setSeg g (f (s.seg g))

/-- Submission queue `q`. -/
def State.sq (s : State) (q : SqId) : Sq := s.sqs.get q

/-- The state with submission queue `q` replaced. -/
def State.setSq (s : State) (q : SqId) (x : Sq) : State := { s with sqs := s.sqs.set q.val x q.isLt }

/-- The state with submission queue `q` changed. -/
def State.updSq (s : State) (q : SqId) (f : Sq → Sq) : State := s.setSq q (f (s.sq q))

/-- Completion queue `c`. -/
def State.cq (s : State) (c : CqId) : Cq := s.cqs.get c

/-- The state with completion queue `c` replaced. -/
def State.setCq (s : State) (c : CqId) (x : Cq) : State := { s with cqs := s.cqs.set c.val x c.isLt }

/-- The state with completion queue `c` changed. -/
def State.updCq (s : State) (c : CqId) (f : Cq → Cq) : State := s.setCq c (f (s.cq c))

/-- The watch with id `w`, if the id is in use. -/
def State.watch (s : State) (w : WatchId) : Option Watch := s.watches.get w

/-- The state with the entry of watch id `w` replaced. -/
def State.setWatch (s : State) (w : WatchId) (x : Option Watch) : State :=
  { s with watches := s.watches.set w.val x w.isLt }

/-- The state with the watch of id `w`, if there is one, changed. -/
def State.updWatch (s : State) (w : WatchId) (f : Watch → Watch) : State := s.setWatch w ((s.watch w).map f)

/-- The state with every watch changed. -/
def State.mapWatches (s : State) (f : Watch → Watch) : State :=
  { s with watches := tableMap (Option.map f) s.watches }

/-- The state with every segment's controller changed. -/
def State.mapSegs (s : State) (f : SegCtl → SegCtl) : State := { s with segs := tableMap f s.segs }

/-- The state with every submission queue changed. -/
def State.mapSqs (s : State) (f : Sq → Sq) : State := { s with sqs := tableMap f s.sqs }

/-- The state with every completion queue changed. -/
def State.mapCqs (s : State) (f : Cq → Cq) : State := { s with cqs := tableMap f s.cqs }

/-- The state with another fetch arbiter. -/
def State.setArb (s : State) (a : FetchArb) : State := { s with arb := a }

/-- The state with another Admin Executor. -/
def State.setAdm (s : State) (a : Admin) : State := { s with adm := a }

/-- The state with the chain-fetch lock as given. -/
def State.setLock (s : State) (l : Option ChainLock) : State := { s with lock := l }

/-- The state with another list of contexts out of FREE. -/
def State.setCtxs (s : State) (l : List Ctx) : State := { s with ctxs := l }

/-- The watch ids in rising order. -/
def watchIds : List WatchId := List.finRange 128

/-- The segment numbers in rising order. -/
def segIds : List SegId := [0, 1, 2, 3]

/-- The completion queue ids in rising order. -/
def cqIds : List CqId := [0, 1, 2, 3, 4, 5, 6, 7]

/-- The submission queue ids in rising order. -/
def sqIds : List SqId := [0, 1, 2, 3, 4, 5, 6, 7, 8, 9, 10, 11, 12, 13, 14, 15]

/-- The targets of a segment in rising order of address. -/
def targetsOf (g : SegId) : List Tgt := (List.finRange 62).map fun a => { seg := g, slot := a }

/-- The presence entry of a target (R22). -/
def State.pres (s : State) (t : Tgt) : PresEntry := (s.presence.get t.seg).get t.slot

/-- The state with a target's presence entry replaced. -/
def State.setPres (s : State) (t : Tgt) (e : PresEntry) : State :=
  { s with presence :=
      s.presence.set t.seg.val ((s.presence.get t.seg).set t.slot.val e t.slot.isLt) t.seg.isLt }

/-- Whether a target is RESTORING. -/
def State.isRestoring (s : State) (t : Tgt) : Bool := (s.pres t).state == .restoring

/-- Whether any target of a segment is RESTORING. -/
def State.anyRestoring (s : State) (g : SegId) : Bool := (targetsOf g).any s.isRestoring

/-! ### Contexts -/

/-- The context with number `n`, if it is out of FREE. -/
def State.ctx (s : State) (n : CtxNum) : Option Ctx := s.ctxs.find? (fun c => c.num == n)

/-- The state with context `n`, if it is out of FREE, changed. -/
def State.updCtx (s : State) (n : CtxNum) (f : Ctx → Ctx) : State :=
  { s with ctxs := s.ctxs.map (fun c => if c.num = n then f c else c) }

/-- Context `n` returns to FREE (R65). -/
def State.freeCtx (s : State) (n : CtxNum) : State := { s with ctxs := s.ctxs.filter (fun c => c.num ≠ n) }

/-- The number of FREE contexts, F of R92. -/
def State.freeCount (s : State) : Nat := 64 - s.ctxs.length

/-- The lowest number that no context out of FREE carries (R63; log entry 6). -/
def State.freshNum (s : State) : Option CtxNum :=
  (List.finRange 64).find? (fun n => s.ctxs.all (fun c => c.num ≠ n))

/-- Whether the frame on the wire of a context's segment belongs to the context (R167). -/
def State.onWire (s : State) (c : Ctx) : Bool :=
  match (s.seg c.seg).wire with
  | some w => w.owner == .host c.num
  | none => false

/-! ### Time -/

/-- The tick count of the 100 µs base, the manual's "now" (6.3). -/
def State.now (s : State) : Nat := s.ticks / 10

/-- A segment controller monitors HDA: it is ACTIVE, and no frame is on its wire (R13). -/
def SegCtl.monitors (y : SegCtl) : Bool := y.state == .active && y.wire.isNone

/-- A segment controller after a tick at which its line reads low, or reads high: when it monitors HDA, a low sample adds 1
to its stuck count, and a high one sets it to 0 (R13). -/
def SegCtl.sample (y : SegCtl) (low : Bool) : SegCtl :=
  if y.monitors then { y with stuckCount := if low then y.stuckCount + 1 else 0 } else y

/-- The segment is stuck: it monitors HDA, and its stuck count has reached its stuck time (R13). -/
def SegCtl.stuck (y : SegCtl) : Bool := y.monitors && y.settings.stuckTime ≤ y.stuckCount

/-! ### Accesses to host memory (R57) -/

/-- The Link Interface issues an access; its tag is `s.link.next`. -/
def State.issue (s : State) (a : Access) (addr : Addr) (bytes : List Byte) : State :=
  { s with link :=
      { next := s.link.next + 1
        outstanding := s.link.outstanding ++
          [{ access := a, tag := s.link.next, addr := addr, bytes := bytes, issued := s.ticks }] } }

/-- The access with this tag has finished or failed. -/
def State.retire (s : State) (tag : Nat) : State :=
  { s with link := { s.link with outstanding := s.link.outstanding.filter (fun d => d.tag ≠ tag) } }

/-- Whether the engine posts into host memory: RUNNING, PAUSING or PAUSED (the table of R182). -/
def EngineState.posts : EngineState → Bool
  | .running => true
  | .pausing => true
  | .paused => true
  | _ => false

/-! ### Ring arithmetic (R38, R46) -/

/-- The slot after `i` in a ring of `size` slots. -/
def nextSlot (size i : Nat) : Nat := (i + 1) % size

/-- The number of slots from `a` up to but not including `b`. -/
def slotsBetween (size a b : Nat) : Nat := (b + size - a) % size

/-- The address of slot `i` of a ring of records of `record` bytes (R38). -/
def slotAddr (base : Addr) (record i : Nat) : Addr := base + BitVec.ofNat 64 (record * i)

/-- The unfetched count (R39). -/
def Sq.unfetched (x : Sq) : Nat := slotsBetween x.size x.head x.tail

/-- The unreleased count (R40). -/
def Cq.unreleased (x : Cq) : Nat := slotsBetween x.size x.head x.tail

/-- A completion queue is full when its unreleased count is size - 1 (R46). -/
def Cq.full (x : Cq) : Bool := x.unreleased == x.size - 1

end Sys2Proof.Machine
end

