-- ==== Sys2Proof/Machine/Flags.lean ====
section
/-! DEFINITION. The Interrupt Unit: the mask and pending flags of the eight vectors, and the messages it sends
(R160 to R165). -/

namespace Sys2Proof.Machine

/-- The flag of vector `v` alone. -/
def vectorBit (v : VecId) : BitVec 8 := BitVec.ofNat 8 (2 ^ v.val)

/-- A message for vector `v` is called for: it is sent only while message-signalled interrupts are enabled, as message
number v modulo the number of enabled vectors (R165). -/
def IntUnit.send (u : IntUnit) (v : VecId) : IntUnit :=
  if u.msiOn then { u with messages := u.messages ++ [v.val % u.msiVectors] } else u

/-- A hand-off of vector `v`: a pending flag of 0 becomes 1, with a message when the vector is unmasked; a pending flag
of 1 changes nothing (R161). -/
def IntUnit.handOff (u : IntUnit) (v : VecId) : IntUnit :=
  if u.pending.getLsbD v.val then u
  else
    let u' := { u with pending := u.pending ||| vectorBit v }
    if u.mask.getLsbD v.val then u' else u'.send v

/-- The Interrupt Unit is handed vector `v` (R47, R154, R164). -/
def State.handVector (s : State) (v : VecId) : State := { s with irq := s.irq.handOff v }

/-- A write to INTERRUPT_MASK_SET (R162). -/
def IntUnit.maskSet (u : IntUnit) (bits : BitVec 8) : IntUnit := { u with mask := u.mask ||| bits }

/-- The vectors in rising order. -/
def vecIds : List VecId := [0, 1, 2, 3, 4, 5, 6, 7]

/-- A write to INTERRUPT_MASK_CLEAR: each vector whose mask flag goes from 1 to 0 while it is pending sends one message
(R162). Messages of one write go out in rising vector order (log entry 8). -/
def IntUnit.maskClear (u : IntUnit) (bits : BitVec 8) : IntUnit :=
  let unmasked := u.mask &&& bits &&& u.pending
  (vecIds.filter fun v => unmasked.getLsbD v.val).foldl IntUnit.send { u with mask := u.mask &&& ~~~bits }

/-- A write to INTERRUPT_PENDING (R163). -/
def IntUnit.pendingClear (u : IntUnit) (bits : BitVec 8) : IntUnit := { u with pending := u.pending &&& ~~~bits }

end Sys2Proof.Machine
end

