-- ==== Sys2Proof/Machine/Events.lean ====
section
/-! DEFINITION. The Event Unit: taking, holding, draining and writing event records (R150 to R158). -/

namespace Sys2Proof.Machine

/-- The first slot of the output list: the slot after the last posted record (R150). -/
def Ring.firstOut (r : Ring) : Nat := (r.tail + r.size - r.output.length) % r.size

/-- The unreleased count of the event ring: the output list is not counted (R150). -/
def Ring.unreleased (r : Ring) : Nat := slotsBetween r.size r.head r.firstOut

/-- The free space of the event ring (R150). -/
def Ring.free (r : Ring) : Nat := r.size - 1 - r.unreleased - r.output.length

/-- A record is assigned the slot at the tail and joins the output list (R152). -/
def Ring.assign (r : Ring) (e : Event) : Ring :=
  { r with output := r.output ++ [e], tail := nextSlot r.size r.tail }

/-- The state with another event ring. -/
def State.setRing (s : State) (r : Option Ring) : State := { s with ev := { s.ev with ring := r } }

/-- The state with another backlog. -/
def State.setBacklog (s : State) (b : List Event) : State := { s with ev := { s.ev with backlog := b } }

/-- The state with another lost count. -/
def State.setLost (s : State) (n : Nat) : State := { s with ev := { s.ev with lost := n } }

/-- An event other than a watch report is handed to the Event Unit (R152). -/
def State.handEvent (s : State) (e : Event) : State :=
  if s.ctl.engine = .failed then s
  else
    match s.ev.ring with
    | none => s
    | some r =>
      if 0 < r.free then s.setRing (some (r.assign e))
      else if s.ev.backlog.length < 16 then s.setBacklog (s.ev.backlog ++ [e])
      else s.setLost (min (s.ev.lost + 1) 65535)

/-- A held report after one more firing (R153). -/
def heldAfter (held : Option HeldReport) (previous : Option Half) : HeldReport :=
  match held with
  | none => { previous := previous, count := 1 }
  | some h => { h with count := min (h.count + 1) 65535 }

/-- A watch report with new stable value `n` and previous stable value `p` is handed to the Event Unit (R153). -/
def State.handReport (s : State) (w : WatchId) (n : Half) (p : Option Half) : State :=
  if s.ctl.engine = .failed then s
  else
    match s.ev.ring with
    | none => s
    | some r =>
      if 0 < r.free then s.setRing (some (r.assign (.watchTriggered w (some n) p 1)))
      else s.updWatch w fun x => { x with held := some (heldAfter x.held p) }

/-- Step 1 of the drain: EVENTS_LOST, if records were lost (R156). -/
def State.drainLost (s : State) : State :=
  match s.ev.ring with
  | none => s
  | some r =>
    if 0 < s.ev.lost ∧ 0 < r.free then (s.setRing (some (r.assign (.eventsLost s.ev.lost)))).setLost 0 else s

/-- Step 2 of the drain: the backlog, oldest first, while free space remains (R156). The argument is the backlog. -/
def State.drainBacklog : List Event → State → State
  | [], s => s
  | e :: rest, s =>
    match s.ev.ring with
    | none => s
    | some r =>
      if 0 < r.free then State.drainBacklog rest ((s.setRing (some (r.assign e))).setBacklog rest) else s

/-- Step 3 of the drain, for one watch: its held report, with the stable value of this moment (R156). -/
def State.drainHeld (s : State) (w : WatchId) : State :=
  match s.ev.ring, s.watch w with
  | some r, some x =>
    match x.held with
    | some h =>
      if 0 < r.free then
        (s.setRing (some (r.assign (.watchTriggered w x.stable h.previous h.count)))).updWatch w
          fun x => { x with held := none }
      else s
    | none => s
  | _, _ => s

/-- The ring has gained free space: held records are assigned slots (R156). -/
def State.drain (s : State) : State :=
  let s := s.drainLost
  watchIds.foldl State.drainHeld (State.drainBacklog s.ev.backlog s)

/-- The first record of the output list is written, when no write is in flight (R154). -/
def State.issueEvent (s : State) : State :=
  match s.ev.ring with
  | none => s
  | some r =>
    match r.inFlight, r.output with
    | none, e :: _ =>
      if s.ctl.engine.posts then
        (s.issue .event (slotAddr r.base 16 r.firstOut) (e.bytes r.phase)).setRing
          (some { r with inFlight := some s.link.next })
      else s
    | _, _ => s

/-- Every held report is discarded: pending report flags cleared, coalesced counts 0 (R151, R157). -/
def State.discardHeld (s : State) : State := s.mapWatches fun x => { x with held := none }

/-- The event ring is removed by an error (R157). -/
def State.removeRing (s : State) : State :=
  { s.discardHeld with ev := { ring := none, backlog := [], lost := 1 } }

end Sys2Proof.Machine
end

