-- ==== Sys2Proof/Machine/Restore.lean ====
section
/-! DEFINITION. The Restore Unit: the restore pool, recording and dropping values, and replay jobs (R133 to R149). -/

namespace Sys2Proof.Machine

/-- The place of an entry in the pool's order: by segment, then address, then index (R134). -/
def PoolEntry.key (e : PoolEntry) : Nat := (e.tgt.seg.val * 62 + e.tgt.slot.val) * 256 + e.index.toNat

/-- An entry put into the pool: it replaces the entry of the same segment, target and index, or takes its place in the
order (R133, R135). -/
def poolPut (e : PoolEntry) : List PoolEntry → List PoolEntry
  | [] => [e]
  | x :: rest =>
    if e.key < x.key then e :: x :: rest
    else if e.key = x.key then e :: rest
    else x :: poolPut e rest

/-- The restore list of a target, in ascending order of index (R134). -/
def State.restoreList (s : State) (t : Tgt) : List PoolEntry := s.pool.filter (fun e => e.tgt == t)

/-- The entries of a target's restore list above a cursor; "start" lies below index 0 (R138, R140). -/
def State.restoreAbove (s : State) (t : Tgt) (cursor : Option Byte) : List PoolEntry :=
  (s.restoreList t).filter fun e =>
    match cursor with
    | none => true
    | some c => c.toNat < e.index.toNat

/-- The size of the restore pool (R133). -/
def poolSize : Nat := 384

/-- Whether a value for this index can be recorded: the list holds the index, or the pool is not full (R135, R136). -/
def State.canRecord (s : State) (t : Tgt) (i : Byte) : Bool :=
  (s.restoreList t).any (fun e => e.index == i) || s.pool.length < poolSize

/-- The value is recorded (R135). -/
def State.record (s : State) (t : Tgt) (i : Byte) (v : Half) : State :=
  { s with pool := poolPut { tgt := t, index := i, value := v } s.pool }

/-- The replay job of a target, if one exists. -/
def State.job (s : State) (t : Tgt) : Option Job := s.jobs.find? (fun j => j.tgt == t)

/-- The state with a target's job changed. -/
def State.updJob (s : State) (t : Tgt) (f : Job → Job) : State :=
  { s with jobs := s.jobs.map (fun j => if j.tgt = t then f j else j) }

/-- A job as the Restore Unit creates it (R138). -/
def Job.new (t : Tgt) : Job :=
  { tgt := t, cursor := none, inFlight := none, retryEnd := none, written := 0, failed := 0, firstFailed := none }

/-- A job is created for the target and placed at the tail of its segment's internal write list (R138). -/
def State.createJob (s : State) (t : Tgt) : State :=
  let s : State := { s with jobs := s.jobs ++ [Job.new t] }
  s.updSeg t.seg fun x => { x with writes := x.writes ++ [.job t] }

/-- The target's job is removed, from the internal write list too (R143, R145). -/
def State.removeJob (s : State) (t : Tgt) : State :=
  let s : State := { s with jobs := s.jobs.filter (fun j => j.tgt ≠ t) }
  s.updSeg t.seg fun x => { x with writes := x.writes.filter (fun e => e ≠ .job t) }

/-- The order to abandon a target's job (R145). -/
def State.abandonJob (s : State) (t : Tgt) (cause : AbandonCause) : State :=
  match s.job t with
  | none => s
  | some j =>
    (s.removeJob t).handEvent
      (.restoreDone t j.written j.failed j.firstFailed (some cause) (s.restoreAbove t j.cursor).length)

/-- The replay-end notice: a RESTORING target goes to PRESENT (R31). -/
def State.replayEnd (s : State) (t : Tgt) : State :=
  if s.isRestoring t then s.setPres t { s.pres t with state := .present } else s

/-- Whether a job has no entry above its cursor and no write in flight (R143). -/
def State.jobOver (s : State) (j : Job) : Bool := (s.restoreAbove j.tgt j.cursor).isEmpty && j.inFlight.isNone

/-- The test of R143, and the end of the job when it holds: the job is removed, the replay-end notice given, RESTORE_DONE
handed over. -/
def State.endJobIfOver (s : State) (t : Tgt) : State :=
  match s.job t with
  | none => s
  | some j =>
    if s.jobOver j then
      ((s.removeJob t).replayEnd t).handEvent (.restoreDone t j.written j.failed j.firstFailed none 0)
    else s

/-- The outcome of a replay write reaches its job, if the job has not been abandoned (R141). -/
def State.replayOutcome (s : State) (t : Tgt) (a : Attempt) : State :=
  match s.job t with
  | none => s
  | some _ =>
    let ok := a.status == .success
    let s := s.updJob t fun j =>
      { j with inFlight := none, retryEnd := none,
               written := if ok then j.written + 1 else j.written,
               failed := if ok then j.failed else j.failed + 1,
               firstFailed := if ok then j.firstFailed else (j.firstFailed <|> j.cursor) }
    let s := s.updSeg t.seg fun x => { x with writes := x.writes ++ [.job t] }
    s.endJobIfOver t

end Sys2Proof.Machine
end

