-- ==== Sys2Proof/Machine/Watches.lean ====
section
/-! DEFINITION. The Watch Unit, but for firing: sampling and debounce, halting, re-arming, loss notices, due-poll lists
(R109 to R132). -/

namespace Sys2Proof.Machine

/-- The condition of a watch, judged on a change of the stable value from `p` to `n` (R122). -/
def WatchCfg.fires (c : WatchCfg) (p : Option Half) (n : Half) : Bool :=
  match c.cond with
  | .change => p.isSome
  | .rise => p == some 0 && n != 0
  | .fall => p.isSome && p != some 0 && n == 0
  | .matches => c.matchValue == some n && p != c.matchValue
  | .reinit => c.matchValue == some n && p != c.matchValue
  | .leave => p.isSome && p == c.matchValue && c.matchValue != some n

/-- Candidate and run count after an ACCEPTed sample `v` (R120). -/
def Watch.takeSample (x : Watch) (v : Half) : Watch :=
  let m := v &&& x.cfg.mask
  if x.candidate = some m then { x with run := min (x.run + 1) x.cfg.debounce }
  else { x with candidate := some m, run := 1 }

/-- Whether the stable value changes: the run count equals the debounce, and the stable value is absent or differs from
the candidate (R121). -/
def Watch.settles (x : Watch) : Bool := x.run == x.cfg.debounce && x.stable != x.candidate

/-- The loss notice of the Presence Table for a target (R132). -/
def State.lossNotice (s : State) (t : Tgt) : State :=
  s.mapWatches fun x => if x.cfg.tgt = t then { x with stable := none, candidate := none, run := 0 } else x

/-- A watch of a segment that leaves ACTIVE: an ARMED watch goes to HALTED, a poll LISTED or in its retry delay ends, a
poll on the wire runs on (R129). A poll that ends so after a failed attempt, in its retry delay or LISTED again for its
retry, records no last poll outcome (DESIGN CHOICE, log entry 35). -/
def Watch.halt (x : Watch) : Watch :=
  let x := if x.state = .armed then { x with state := .halted } else x
  let x := { x with nextDue := none, overrun := false }
  if x.poll = .onWire then x else { x with poll := .none, tries := 0, retryEnd := none }

/-- Every watch of a segment halts, and its due-poll list empties (R129). -/
def State.haltWatches (s : State) (g : SegId) : State :=
  (s.mapWatches fun x => if x.cfg.tgt.seg = g then x.halt else x).updSeg g fun y => { y with duePolls := [] }

/-- An ARMED watch when the engine goes to PAUSING: its next due time becomes absent at once; it goes to HALTED unless
its poll is on the wire or in its retry delay (R130). A poll LISTED again for its retry that this ends records no last
poll outcome (DESIGN CHOICE, log entry 35). -/
def Watch.pauseHalt (x : Watch) : Watch :=
  if x.state = .armed then
    let x := { x with nextDue := none, overrun := false }
    if x.poll = .none ∨ x.poll = .listed then { x with state := .halted, poll := .none, tries := 0 } else x
  else x

/-- Every watch begins to halt, and every due-poll list empties (R130, PAUSING). -/
def State.pauseWatches (s : State) : State :=
  segIds.foldl (fun s g => s.updSeg g fun y => { y with duePolls := [] }) (s.mapWatches Watch.pauseHalt)

/-- A HALTED watch of a segment that is ACTIVE while the engine is RUNNING is re-armed (R131). -/
def Watch.rearm (x : Watch) (now : Nat) : Watch :=
  if x.state = .halted then
    { x with state := .armed, stable := none, candidate := none, run := 0, nextDue := some (now + x.cfg.interval),
             overrun := false, poll := .none }
  else x

/-- The HALTED watches of a segment are re-armed, if the segment is ACTIVE and the engine is RUNNING (R131). -/
def State.rearmWatches (s : State) (g : SegId) : State :=
  if (s.seg g).state = .active ∧ s.ctl.engine = .running then
    s.mapWatches fun x => if x.cfg.tgt.seg = g then x.rearm s.now else x
  else s

/-- The due-poll list with a watch that became due in the ordinary way: behind the retries, in order of due time and
then of watch id (R117). -/
def insertDue (d : DuePoll) : List DuePoll → List DuePoll
  | [] => [d]
  | x :: rest =>
    if x.retried ∨ x.due < d.due ∨ (x.due = d.due ∧ x.watch < d.watch) then x :: insertDue d rest else d :: x :: rest

/-- The due-poll list with a watch whose retry delay has ended: at the head, behind the retries that ended before
(R117). -/
def insertRetried (d : DuePoll) : List DuePoll → List DuePoll
  | [] => [d]
  | x :: rest => if x.retried then x :: insertRetried d rest else d :: x :: rest

end Sys2Proof.Machine
end

