-- ==== Sys2Proof/Machine/Presence.lean ====
section
/-! DEFINITION. The Presence Table: answers, silences, reinit requests and teardown (R23 to R33), and the firing of
watches, which may ask it for a replay (R124 to R127). -/

namespace Sys2Proof.Machine

/-- The target goes to RESTORING, the event is handed over, and the Restore Unit creates the job, in the order of R26. -/
def State.startReplay (s : State) (t : Tgt) (e : Event) : State :=
  ((s.setPres t { s.pres t with state := .restoring }).handEvent e).createJob t

/-- An answer from a target (R24, R25). -/
def State.answer (s : State) (t : Tgt) (src : Source) : State :=
  let before := (s.pres t).state
  let count := (s.restoreList t).length
  let s := s.setPres t { state := before, miss := 0 }
  match before with
  | .unknown =>
    (s.setPres t { state := .present, miss := 0 }).handEvent (.deviceFound t true false count src)
  | .present => s
  | .restoring => s
  | .lost =>
    if 0 < count then s.startReplay t (.deviceFound t false true count src)
    else (s.setPres t { state := .present, miss := 0 }).handEvent (.deviceFound t false false count src)

/-- The target goes to LOST: the hand-offs of R28, in order. -/
def State.goLost (s : State) (t : Tgt) (src : Source) : State :=
  let e := s.pres t
  let s := (s.setPres t { e with state := .lost }).handEvent (.deviceLost t e.state e.miss src)
  let s := if e.state = .restoring then s.abandonJob t .targetLost else s
  s.lossNotice t

/-- A silence from a target (R27). -/
def State.silence (s : State) (t : Tgt) (src : Source) : State :=
  let e := s.pres t
  let m := min (e.miss + 1) 7
  let s := s.setPres t { e with miss := m }
  if (e.state = .present ∨ e.state = .restoring) ∧ (s.seg t.seg).settings.missThreshold ≤ m then s.goLost t src else s

/-- The report of one attempt (R23): SILENT is a silence, every other result an answer (R11). -/
def State.report (s : State) (t : Tgt) (src : Source) (a : Attempt) : State :=
  if a = .silent then s.silence t src else s.answer t src

/-- The reinit request of a firing REINIT watch (R30, R126). -/
def State.reinitRequest (s : State) (t : Tgt) (w : WatchId) : State :=
  match (s.pres t).state with
  | .present =>
    if 0 < (s.restoreList t).length then s.startReplay t (.deviceReinit t w true) else s
  | .restoring => s.handEvent (.deviceReinit t w false)
  | _ => s

/-- A RESTORING target whose segment is torn down goes to LOST: its job is abandoned and the Watch Unit told; no
DEVICE_LOST (R32). -/
def State.giveUp (cause : AbandonCause) (s : State) (t : Tgt) : State :=
  if s.isRestoring t then
    ((s.setPres t { s.pres t with state := .lost }).abandonJob t cause).lossNotice t
  else s

/-- Every RESTORING target of a segment is given up, in ascending address order (R32, R177, R179). -/
def State.giveUpAll (s : State) (g : SegId) (cause : AbandonCause) : State :=
  (targetsOf g).foldl (State.giveUp cause) s

/-! ### Firing -/

/-- The response write of a watch that fires, when it has one and none is pending (R127). -/
def State.respond (s : State) (w : WatchId) : State :=
  match s.watch w with
  | none => s
  | some x =>
    match x.cfg.response with
    | none => s
    | some r =>
      if x.respPending then s
      else
        let g := x.cfg.tgt.seg
        (s.setWatch w (some { x with respPending := true })).updSeg g fun y =>
          { y with writes := y.writes ++
              [.response { watch := w, tgt := ⟨g, r.slot⟩, index := r.index, data := r.data, tries := 0 }] }

/-- A watch fires on a change of its stable value from `p` to `n`: the five steps of R124 (and R125). -/
def State.fire (s : State) (w : WatchId) (c : WatchCfg) (p : Option Half) (n : Half) : State :=
  let s := s.updWatch w fun x => { x with triggers := min (x.triggers + 1) 65535 }
  let s := if c.report then s.handReport w n p else s
  let s := if c.cond = .reinit then s.reinitRequest c.tgt w else s
  let s := s.respond w
  if c.oneShot then s.updWatch w fun x => { x with state := .fired, nextDue := none, overrun := false } else s

/-- Steps 2 and 3 of R119 for an ACCEPTed sample `v`: the sample is evaluated, and the watch fires if its stable value
changes and its condition is met (R120 to R122). -/
def State.evaluate (s : State) (w : WatchId) (x : Watch) (v : Half) : State :=
  let y := x.takeSample v
  if y.settles then
    let n := v &&& x.cfg.mask
    let s := s.setWatch w (some { y with stable := some n })
    if x.cfg.fires x.stable n then s.fire w x.cfg x.stable n else s
  else s.setWatch w (some y)

/-- An ARMED watch after its poll's outcome: with the engine RUNNING, a watch with an overrun pending, or with no next due
time because of a pause since resumed, is next due one interval from now (R118, R119 step 4, R186); with the engine
pausing, the watch goes to HALTED (R130). -/
def Watch.afterPoll (x : Watch) (engine : EngineState) (now : Nat) : Watch :=
  if x.state = .armed then
    if engine = .running then
      if x.overrun ∨ x.nextDue = none then { x with nextDue := some (now + x.cfg.interval), overrun := false } else x
    else { x with state := .halted, nextDue := none, overrun := false }
  else x

/-- A poll's frame request ends with this attempt (R119). The outcome of a poll whose watch is not ARMED is recorded and
not evaluated (R129, R130). -/
def State.pollOver (s : State) (w : WatchId) (a : Attempt) : State :=
  match s.watch w with
  | none => s
  | some x =>
    let x := { x with poll := .none, tries := 0, retryEnd := none, lastPoll := some a.status }
    if x.state = .armed then
      let s := match a with
        | .accept v => s.evaluate w x v
        | _ => s.setWatch w (some x)
      s.updWatch w fun y => y.afterPoll s.ctl.engine s.now
    else s.setWatch w (some x)

end Sys2Proof.Machine
end

