-- ==== Sys2Proof/Machine/Contexts.lean ====
section
/-! DEFINITION. How a context ends: becoming READY, the buffer write of a READ_BLOCK, chain failure, cancellation
(R50, R65, R80, R106, R166 to R172), and how a queue enters ERROR (R54 to R56). -/

namespace Sys2Proof.Machine

/-- A segment without context `n` in its pending list. -/
def SegCtl.unlist (x : SegCtl) (n : CtxNum) : SegCtl :=
  { x with pendingList := x.pendingList.filter (· ≠ n), offered := x.offered.filter (· ≠ n) }

/-- A submission queue without context `n` in its staging slot. -/
def Sq.unstage (x : Sq) (n : CtxNum) : Sq :=
  match x.staging with
  | some t => if t.ctx = n then { x with staging := none } else x
  | none => x

/-- A context leaves its pending list and its staging slot. -/
def State.unlist (s : State) (c : Ctx) : State :=
  (s.updSeg c.seg (·.unlist c.num)).updSq c.sq (·.unstage c.num)

/-- A context with its status known and nothing running (R64, READY). -/
def Ctx.asReady (c : Ctx) (st : Status) : Ctx :=
  { c with state := .ready, status := some st, retryEnd := none, pollEnd := none, deadline := none, mark := none,
           tries := 0, buffer := none }

/-- Context `n` becomes READY with a status: it leaves its lists and joins the ready list of its bound completion queue,
or its completion is discarded and it returns to FREE when that queue is not ACTIVE (R50, R56, R65). -/
def State.becomeReady (s : State) (n : CtxNum) (st : Status) : State :=
  match s.ctx n with
  | none => s
  | some c =>
    let s := s.unlist c
    let b := (s.sq c.sq).bound
    if (s.cq b).state = .active then
      (s.updCtx n (·.asReady st)).updCq b fun x => { x with ready := x.ready ++ [.ctx n] }
    else s.freeCtx n

/-- A context whose frames are done and whose buffer write has been issued: it is ACTIVE, and its status waits to be
reported (R80, R166). -/
def Ctx.asWriting (c : Ctx) (st : Status) (tag : Nat) : Ctx :=
  { c with state := .active, status := some st, retryEnd := none, pollEnd := none, deadline := none, mark := none,
           tries := 0, buffer := some tag }

/-- The host address of a READ_BLOCK's buffer is bytes 24 to 31. Its buffer write is issued (R80). -/
def State.writeBuffer (s : State) (c : Ctx) (st : Status) : State :=
  ((s.issue (.buffer c.num) c.record.address c.stagedBytes).updCtx c.num (·.asWriting st s.link.next)).updSeg c.seg
    fun x => { x with offered := x.offered.filter (· ≠ c.num) }

/-- Whether the end of a context's frames is followed by a buffer write (R79, R80). -/
def Ctx.needsBuffer (c : Ctx) : Bool := c.kind == some .readBlock && 0 < c.blockCount

/-- A context's frames are done with a status: a READ_BLOCK that has read something makes its buffer write first (R80);
any other context becomes READY. -/
def State.finish (s : State) (n : CtxNum) (st : Status) : State :=
  match s.ctx n with
  | none => s
  | some c => if c.needsBuffer then s.writeBuffer c st else s.becomeReady n st

/-! ### Holds and chains -/

/-- The hold of a MASKED_WRITE or READ_BLOCK that is not in a chain, if context `n` has it, ends (R103). -/
def SegCtl.endHoldOf (x : SegCtl) (n : CtxNum) : SegCtl :=
  if x.holder = some (.maskedWrite n) ∨ x.holder = some (.readBlock n) then { x with holder := none } else x

/-- The hold of a chain ends (R103). -/
def SegCtl.endHoldOfChain (x : SegCtl) (id : Nat) : SegCtl :=
  if x.holder = some (.chain id) then { x with holder := none } else x

/-- Whether a context is a member of a chain. -/
def Ctx.inChain (c : Ctx) (id : Nat) : Bool :=
  match c.chain with
  | some m => m.id == id
  | none => false

/-- Whether a context has not been reached: STAGED or PENDING. -/
def Ctx.unreached (c : Ctx) : Bool := c.state == .staged || c.state == .pending

/-- A cancellation ends a context that is not READY, has no frame on the wire and no buffer write outstanding (R166). If
it is its segment's holder, or the member that the holding chain has reached, the hold ends. -/
def State.cancel (st : Status) (s : State) (n : CtxNum) : State :=
  match s.ctx n with
  | none => s
  | some c =>
    let s := s.updSeg c.seg (·.endHoldOf n)
    let s := match c.chain with
      | some m => if c.unreached then s else s.updSeg c.seg (·.endHoldOfChain m.id)
      | none => s
    s.finish n st

/-- The members of a chain that have been fetched, have not run and have not ended, in member order (fetch order). -/
def State.unreachedMembers (s : State) (id : Nat) : List CtxNum :=
  (s.ctxs.filter fun c => c.inChain id && c.unreached).map (·.num)

/-- The chain, if it is still open on a queue, has failed: members fetched later complete CHAIN_ABORTED (R72, R173). -/
def Sq.failChain (x : Sq) (id : Nat) : Sq :=
  match x.chain with
  | some c => if c.id = id then { x with chain := some { c with failed := true } } else x
  | none => x

/-- A chain has ended by the failure or the abort of a member: each member not yet run ends CHAIN_ABORTED, in member
order, and members not yet fetched will (R72, R106, R172, R173). -/
def State.abortChain (s : State) (id : Nat) : State :=
  let s := (s.unreachedMembers id).foldl (State.cancel .chainAborted) s
  s.mapSqs (Sq.failChain · id)

/-- The two success statuses of a chain member (R105). -/
def Status.isSuccess : Status → Bool
  | .success => true
  | .successNotKept => true
  | _ => false

/-- A chain member has ended with a status: after a success the chain goes on; otherwise the chain ends and the hold with
it (R105, R106). -/
def State.memberEnded (s : State) (c : Ctx) (st : Status) : State :=
  match c.chain with
  | none => s
  | some m =>
    if st.isSuccess then s else (s.updSeg c.seg (·.endHoldOfChain m.id)).abortChain m.id

/-- A command ends by its own outcome (R74). A chain that waits for a member's buffer write learns its status when the
write's outcome is known (R105). -/
def State.endCommand (s : State) (n : CtxNum) (st : Status) : State :=
  match s.ctx n with
  | none => s
  | some c =>
    let s := (s.updSeg c.seg (·.endHoldOf n)).finish n st
    if c.needsBuffer then s else s.memberEnded c st

/-- A command ends ABORTED: its chain, if it is a member of one, ends with it (R172). -/
def State.endAborted (s : State) (n : CtxNum) : State :=
  match s.ctx n with
  | none => s
  | some c =>
    let s := State.cancel .aborted s n
    match c.chain with
    | some m => s.abortChain m.id
    | none => s

/-- A context that is discarded with no completion leaves its lists and returns to FREE (R67). -/
def State.discard (s : State) (n : CtxNum) : State :=
  match s.ctx n with
  | none => s
  | some c => (s.unlist c).freeCtx n

/-! ### The admin context -/

/-- A completion that is posted or discarded: its context returns to FREE, or the admin context empties (R47, R85). -/
def State.freeItem (s : State) (i : ReadyItem) : State :=
  match i with
  | .ctx n => s.freeCtx n
  | .admin => { s with adm := { s.adm with ctx := none } }

/-- The admin command completes with a status and a result value: its completion joins CQ0's ready list, or is discarded
when CQ0 is not ACTIVE (R43, R88). -/
def State.adminDone (s : State) (st : Status) (result : Option Half) : State :=
  match s.adm.ctx with
  | none => s
  | some a =>
    if (s.cq 0).state = .active then
      let done : AdminCtx := { a with progress := .completed, status := some st, result := result }
      let s : State := { s with adm := { s.adm with ctx := some done } }
      s.updCq 0 fun x => { x with ready := x.ready ++ [.admin] }
    else s.freeItem ReadyItem.admin

/-- The admin command goes on: it is a long command (R88). -/
def State.adminWaits (s : State) (p : AdminProgress) : State :=
  { s with adm := { s.adm with ctx := s.adm.ctx.map fun a => { a with progress := p } } }

/-- Whether the command in the admin context stands at this point. -/
def State.adminAt (s : State) (p : AdminProgress) : Bool :=
  match s.adm.ctx with
  | some a => a.progress == p
  | none => false

/-! ### Queue errors -/

/-- The chain-fetch lock is released, with its reserve, if the queue holds it (R96). -/
def State.releaseLock (s : State) (q : SqId) : State :=
  match s.lock with
  | some l => if l.sq = q then s.setLock none else s
  | none => s

/-- An ACTIVE submission queue goes to ERROR: QUEUE_ERROR is handed over, the lock released, the members of its partly
fetched chain end CHAIN_ABORTED (R54, R55, R58, R96). A queue in another state does not change (R55). -/
def State.sqError (cause : QueueCause) (s : State) (q : SqId) : State :=
  let x := s.sq q
  if x.state = .active then
    let s := (s.setSq q { x with state := .error }).handEvent (.queueError false q.val cause)
    let s := s.releaseLock q
    match x.chain with
    | some c => s.abortChain c.id
    | none => s
  else s

/-- The ACTIVE submission queues bound to a completion queue, in ascending id order (R56). -/
def State.boundActive (s : State) (c : CqId) : List SqId :=
  sqIds.filter fun q => (s.sq q).state == .active && (s.sq q).bound == c

/-- A completion queue goes to ERROR: its ready list is emptied, QUEUE_ERROR handed over, and its ACTIVE submission
queues go to ERROR with cause CQ_LOST (R54, R56, R59). -/
def State.cqError (s : State) (c : CqId) (cause : QueueCause) : State :=
  let x := s.cq c
  let s := s.setCq c { x with state := .error, ready := [] }
  let s := x.ready.foldl State.freeItem s
  let s := s.handEvent (.queueError true c.val cause)
  (s.boundActive c).foldl (State.sqError .cqLost) s

end Sys2Proof.Machine
end

