-- ==== Sys2Proof/Machine/Teardown.lean ====
section
/-! DEFINITION. Taking a segment out of service, by SEGMENT_OFF or by a fault, and the engine's entry to FAILED
(R176 to R179, R187, R188). -/

namespace Sys2Proof.Machine

/-- A context bound for a segment that is being torn down: one with a frame on the wire takes the cancel mark, unless it
carries one; one whose buffer write is outstanding, and one that has ended, are left; any other ends (R166 to R168,
R176, R179). -/
def State.tearDownCtx (st : Status) (s : State) (n : CtxNum) : State :=
  match s.ctx n with
  | none => s
  | some c =>
    match c.state with
    | .ready => s
    | .active =>
      if c.buffer.isSome then s
      else if s.onWire c then s.updCtx n fun c => { c with mark := c.mark <|> some st }
      else s.cancel st n
    | _ => s.cancel st n

/-- The contexts bound for a segment, in fetch order: FENCE contexts name no segment (R176, R179). -/
def State.boundFor (s : State) (g : SegId) : List CtxNum :=
  (s.ctxs.filter fun c => c.seg == g && c.state != .fenceWait && c.state != .ready).map (·.num)

/-- A chain open on a queue whose members are bound for the segment has ended (R173). -/
def Sq.failChainOn (x : Sq) (g : SegId) : Sq :=
  match x.chain with
  | some c => if segOfByte c.segByte = some g then { x with chain := some { c with failed := true } } else x
  | none => x

/-- The contexts of a segment end with a cancel status (R176, R179), and its chains with them (R173). -/
def State.endContexts (s : State) (g : SegId) (st : Status) : State :=
  let s := (s.boundFor g).foldl (State.tearDownCtx st) s
  s.mapSqs (Sq.failChainOn · g)

/-- A dropped response write: its watch has none pending (R128). -/
def State.dropResponse (s : State) (r : RespWrite) : State := s.updWatch r.watch fun x => { x with respPending := false }

/-- The response writes of an internal write list. -/
def responsesIn (l : List IwEntry) : List RespWrite :=
  l.filterMap fun e => match e with
    | .response r => some r
    | .job _ => none

/-- The response writes of a segment that are not on the wire are dropped (R176 step 4, R179 step 3). -/
def State.dropResponses (s : State) (g : SegId) : State :=
  let y := s.seg g
  let s := (responsesIn y.writes ++ y.respDelays.map (·.write)).foldl State.dropResponse s
  s.updSeg g fun y =>
    { y with respDelays := [], writes := y.writes.filter fun e => match e with
        | .response _ => false
        | .job _ => true }

/-- The replay writes of a segment in their retry delay are not retried (R176 step 5, R179 step 3). -/
def State.stopReplayRetries (s : State) (g : SegId) : State :=
  { s with jobs := s.jobs.map fun j => if j.tgt.seg = g then { j with retryEnd := none } else j }

/-- Entry to DRAINING by SEGMENT_OFF: watches, contexts, internal writes, in the order of R176. -/
def State.enterDraining (s : State) (g : SegId) : State :=
  let s := s.updSeg g fun y => { y with state := .draining, stuckCount := 0 }
  let s := s.haltWatches g
  let s := s.endContexts g .segmentOff
  let s := s.dropResponses g
  s.stopReplayRetries g

/-- A segment without work of its own: no internal write, no due poll, no holder (R177). -/
def SegCtl.emptied (y : SegCtl) (st : SegState) : SegCtl :=
  { y with state := st, writes := [], respDelays := [], duePolls := [], holder := none, stuckCount := 0 }

/-- A DRAINING segment with no frame on its wire goes to OFF; its RESTORING targets are given up (R177). -/
def State.arriveOff (s : State) (g : SegId) : State :=
  let s := s.updSeg g fun y => { y with state := .off }
  let s := s.giveUpAll g .segmentOff
  s.updSeg g (·.emptied .off)

/-- If a segment is DRAINING and no frame is on its wire, it goes to OFF, and the SEGMENT_OFF in execution for it
completes (R18, R177). -/
def State.drainIfDone (s : State) (g : SegId) : State :=
  if (s.seg g).state = .draining ∧ (s.seg g).wire = none then
    let s := s.arriveOff g
    if s.adminAt (.drainingSegment g) then s.adminDone .success none else s
  else s

/-- A stuck line takes a segment from ACTIVE to FAULTED: SEGMENT_FAULTED is handed over (R14), then the segment is torn
down in the order of R179. -/
def State.faultSegment (s : State) (g : SegId) : State :=
  let s := (s.updSeg g fun y => { y with state := .faulted, stuckCount := 0 }).handEvent (.segmentFaulted g)
  let s := s.haltWatches g
  let s := s.endContexts g .segmentFault
  let s := s.dropResponses g
  let s := s.stopReplayRetries g
  let s := s.updSeg g fun y => { y with writes := [] }
  let s := s.giveUpAll g .segmentFault
  s.updSeg g (·.emptied .faulted)

/-! ### Failure -/

/-- A segment at the engine's entry to FAILED: an ACTIVE one goes to DRAINING, and to OFF when no frame is on its wire;
any other goes to OFF (R188 step 6). -/
def State.failSegment (s : State) (g : SegId) : State :=
  let s := s.haltWatches g
  match (s.seg g).state with
  | .active =>
    let s := s.updSeg g fun y => { y with state := .draining, stuckCount := 0 }
    let s := (s.dropResponses g).stopReplayRetries g
    s.drainIfDone g
  | .draining => s.drainIfDone g
  | .off => s
  | _ => s.updSeg g (·.emptied .off)

/-- A segment's lists at entry to FAILED: only contexts with a frame on the wire remain, and holds end (R188 step 3). -/
def SegCtl.keepOnly (y : SegCtl) (kept : List CtxNum) : SegCtl :=
  { y with pendingList := y.pendingList.filter (kept.contains ·), offered := [], holder := none }

/-- A completion queue at entry to FAILED: its ready list is discarded and its posting in flight forgotten; indexes,
phase and state keep their values (R188 step 1). -/
def Cq.stop (x : Cq) : Cq := { x with ready := [], inFlight := none }

/-- The Queue Manager, the Admin Executor and the Event Unit stop at entry to FAILED, and only the contexts numbered in
`nums`, those with a frame on the wire, are left (R188 steps 1 to 4). -/
def State.stopBlocks (s : State) (nums : List CtxNum) : State :=
  let s := s.setCtxs (s.ctxs.filter fun c => nums.contains c.num)
  let s := ((s.mapCqs Cq.stop).mapSqs fun x => { x with staging := none }).mapSegs (SegCtl.keepOnly · nums)
  let s := (s.setArb { s.arb with read := none }).setAdm { ctx := none, read := none }
  s.setRing (s.ev.ring.map fun r => { r with inFlight := none })

/-- The engine enters FAILED with cause ADMIN_MEMORY (R187, R188). -/
def State.failEngine (s : State) : State :=
  let s : State := { s with ctl := { s.ctl with engine := .failed, cause := .adminMemory } }
  let s := s.stopBlocks ((s.ctxs.filter fun c => s.onWire c).map (·.num))
  segIds.foldl State.failSegment s

end Sys2Proof.Machine
end

