-- ==== Sys2Proof/Machine/Fetch.lean ====
section
/-! DEFINITION. The fetch arbiter, the chain-fetch lock, validation and placing of fetched I/O entries, and the fetching
of admin entries (R68 to R73, R85 to R87, R90 to R96). -/

namespace Sys2Proof.Machine

/-! ### The fetch arbiter -/

/-- Whether a context is available to a queue (R92): the reserve is 16 less the members fetched (R95). -/
def State.available (s : State) (q : SqId) : Bool :=
  match s.lock with
  | none => 1 ≤ s.freeCount
  | some l => if l.sq = q then 1 ≤ s.freeCount else 16 - l.fetched + 1 ≤ s.freeCount

/-- Whether a queue can fetch its next entry (R91). -/
def State.canFetch (s : State) (q : SqId) : Bool :=
  let x := s.sq q
  x.state == .active && x.unfetched != 0 && x.staging.isNone && s.available q

/-- Whether a queue holds the chain-fetch lock. -/
def State.holdsLock (s : State) (q : SqId) : Bool :=
  match s.lock with
  | some l => l.sq == q
  | none => false

/-- The read of a queue's head entry is issued, in a turn of that queue (R45, R91). -/
def State.issueRead (s : State) (q : SqId) : State :=
  let x := s.sq q
  (s.issue (.entryRead q) (slotAddr x.base 32 x.head) []).setArb
    { s.arb with turn := some q, read := some { sq := q, tag := s.link.next } }

/-- The turn in progress ends: its queue becomes the rotation position (R91). -/
def State.endTurn (s : State) (q : SqId) : State :=
  s.setArb { rotation := some q, turn := none, count := 0, read := s.arb.read }

/-- The turn in progress, if it is over, ends (R91). A turn whose queue cannot fetch, or has used its weight, ends only
between entries; one whose queue leaves ACTIVE, or whose engine leaves RUNNING, ends at once. -/
def State.endTurnIfOver (s : State) : State :=
  match s.arb.turn with
  | none => s
  | some q =>
    if s.ctl.engine ≠ .running ∨ (s.sq q).state ≠ .active ∨
        (s.arb.read.isNone ∧ (¬ s.canFetch q ∨ ((s.sq q).weight ≤ s.arb.count ∧ ¬ s.holdsLock q))) then
      s.endTurn q
    else s

/-- The I/O submission queues in the order of their turns after a rotation position; SQ1 comes first when there is none
(R90, R91). -/
def turnOrder (rotation : Option SqId) : List SqId :=
  let io := sqIds.filter (fun q => q ≠ 0)
  match rotation with
  | none => io
  | some r => io.filter (fun q => r < q) ++ io.filter (fun q => q ≤ r)

/-- A validated context of a kind with a segment is placed: at the tail of its segment's pending list, or in its queue's
staging slot when the list holds 32 contexts (R73). -/
def State.place (s : State) (n : CtxNum) : State :=
  match s.ctx n with
  | none => s
  | some c =>
    if (s.seg c.seg).pendingList.length < 32 then
      ((s.updCtx n fun c => { c with state := .pending }).updSeg c.seg
          fun y => { y with pendingList := y.pendingList ++ [n] }).updSq c.sq fun x => x.unstage n
    else
      (s.updCtx n fun c => { c with state := .staged }).updSq c.sq
        fun x => { x with staging := some { ctx := n, waitsLock := false } }

/-- Whether a chain start can take the lock: the lock is free and F is at least 15 (R94). -/
def State.lockFree (s : State) : Bool := s.lock.isNone && 15 ≤ s.freeCount

/-- A chain start takes the lock and is placed (R94). -/
def State.takeLock (s : State) (n : CtxNum) : State :=
  match s.ctx n with
  | none => s
  | some c =>
    match c.chain with
    | none => s
    | some m => (s.setLock (some { sq := c.sq, chain := m.id, fetched := 1 })).place n

/-- The waiting chain start in a queue's staging slot, if there is one. -/
def Sq.waitingStart (x : Sq) : Option CtxNum :=
  match x.staging with
  | some t => if t.waitsLock then some t.ctx else none
  | none => none

/-- Whether context `n` is STAGED. -/
def State.isStaged (s : State) (n : CtxNum) : Bool :=
  match s.ctx n with
  | some c => c.state == .staged
  | none => false

/-- At a queue's turn, a waiting chain start in its staging slot has its chance at the lock before anything else; when it
takes the lock, the turn is one of that queue (R94). -/
def State.lockChance (s : State) (q : SqId) : State :=
  match (s.sq q).waitingStart with
  | some n =>
    if (s.sq q).state = .active ∧ s.lockFree ∧ s.isStaged n then
      let s := s.takeLock n
      s.setArb { s.arb with turn := some q }
    else s
  | none => s

/-- Turns are offered to queues in order until one can fetch, and its entry read is issued (R91). -/
def State.offerTurns : List SqId → State → State
  | [], s => s
  | q :: rest, s =>
    let s := s.lockChance q
    if s.canFetch q then s.issueRead q
    else State.offerTurns rest (if s.arb.turn = some q then s.endTurn q else s)

/-- The fetch arbiter goes on: with no read outstanding and the engine RUNNING, it issues the next entry read (R90,
R91). -/
def State.ioFetch (s : State) : State :=
  let s := s.endTurnIfOver
  if s.ctl.engine ≠ .running ∨ s.arb.read.isSome then s
  else
    match s.arb.turn with
    | some q => s.issueRead q
    | none => State.offerTurns (turnOrder s.arb.rotation) s

/-! ### Validation -/

/-- Chain membership of a fetched entry, the chain left open on its queue, and whether the chain had already failed
(R71). `fresh` is the id a new chain gets. -/
def chainOf (chain : Option OpenChain) (r : Record) (fresh : Nat) :
    Option ChainMember × Option OpenChain × Bool :=
  match chain with
  | none =>
    if r.chainFlag then
      (some { id := fresh, pos := 1, last := false },
       some { id := fresh, next := 2, segByte := r.byte 4, failed := false }, false)
    else (none, none, false)
  | some c =>
    if r.chainFlag ∧ c.next ≠ 16 then
      (some { id := c.id, pos := c.next, last := false }, some { c with next := c.next + 1 }, c.failed)
    else (some { id := c.id, pos := c.next, last := true }, none, c.failed)

/-- The segment byte of the first member of an entry's chain. -/
def firstSegByte (chain : Option OpenChain) (r : Record) : Byte :=
  match chain with
  | none => r.byte 4
  | some c => c.segByte

/-- Whether a chain member's shape is allowed (R71): no WAIT_UNTIL or FENCE, the segment of the first member, no CHAIN
flag at position 16. -/
def chainShapeOk (k : IoKind) (r : Record) (m : Option ChainMember) (first : Byte) : Bool :=
  match m with
  | none => true
  | some m => k != .waitUntil && k != .fence && r.byte 4 == first && !(m.pos == 16 && r.chainFlag)

/-- The four checks of R69, in order: the status of the first that fails, or none. -/
def State.validate (s : State) (r : Record) (m : Option ChainMember) (first : Byte) : Option Status :=
  match IoKind.ofCode (r.byte 0) with
  | none => some .invalidOpcode
  | some k =>
    if !k.fieldsOk r then some .invalidField
    else if !chainShapeOk k r m first then some .invalidField
    else if k = .fence then none
    else
      match segOfByte (r.byte 4) with
      | none => some .invalidField
      | some g =>
        match (s.seg g).state with
        | .active => none
        | .off => some .segmentOff
        | .draining => some .segmentOff
        | .faulted => some .segmentFault
        | .recovering => some .segmentFault

/-- A context as a fetch fills it (R68). -/
def Ctx.fetched (n : CtxNum) (q : SqId) (r : Record) (m : Option ChainMember) : Ctx :=
  { num := n, sq := q, record := r, state := .fenceWait, chain := m, attempts := 0, value := none, status := none,
    staged := [], retryEnd := none, pollEnd := none, deadline := none, deadlinePassed := false, mark := none, tries := 0,
    buffer := none }

/-- The lock counts one more member of its chain, and is released when the last is fetched (R95, R96). -/
def lockAfter (lock : Option ChainLock) (m : Option ChainMember) : Option ChainLock :=
  match lock, m with
  | some l, some m =>
    if l.chain = m.id then (if m.last then none else some { l with fetched := l.fetched + 1 }) else some l
  | l, _ => l

/-- A validated chain start takes the lock and is placed, or waits in its staging slot for the lock (R94). -/
def State.chainStart (s : State) (q : SqId) (n : CtxNum) : State :=
  if s.lockFree then s.takeLock n
  else
    (s.updCtx n fun c => { c with state := .staged }).updSq q
      fun x => { x with staging := some { ctx := n, waitsLock := true } }

/-- A validated context is placed according to its kind (R73). A FENCE stands in FENCE_WAIT; it becomes READY within the
same step when no earlier command of its queue is unposted. -/
def State.placeByKind (s : State) (q : SqId) (n : CtxNum) (r : Record) (m : Option ChainMember) : State :=
  if IoKind.ofCode (r.byte 0) = some .fence then s
  else
    match m with
    | some m => if m.pos = 1 then s.chainStart q n else s.place n
    | none => s.place n

/-- A fetched context has its membership, and is validated and placed, or completes at once (R69, R72, R73). -/
def State.settleEntry (s : State) (q : SqId) (n : CtxNum) (r : Record) (m : Option ChainMember) (first : Byte)
    (failed : Bool) : State :=
  if failed then s.becomeReady n .chainAborted
  else
    match s.validate r m first with
    | none => s.placeByKind q n r m
    | some st =>
      let s := s.becomeReady n st
      match m with
      | some m => s.abortChain m.id
      | none => s

/-- The entry read of an ACTIVE I/O queue has succeeded: the head advances, a FREE context takes the entry, and the entry is
validated and placed (R45, R68 to R73). It does so whatever the tail is by then, also when a tail write made it equal to the
head while the read was outstanding (DESIGN CHOICE, log entry 36). -/
def State.takeEntry (s : State) (q : SqId) (n : CtxNum) (r : Record) : State :=
  let x := s.sq q
  let mem := chainOf x.chain r s.nextChain
  let count := if s.arb.turn = some q then s.arb.count + 1 else s.arb.count
  let s := (s.setArb { s.arb with count := count, read := none }).setLock (lockAfter s.lock mem.1)
  let s : State := { s.setCtxs (s.ctxs ++ [Ctx.fetched n q r mem.1]) with nextChain := s.nextChain + 1 }
  let s := s.setSq q { x with head := nextSlot x.size x.head, chain := mem.2.1 }
  s.settleEntry q n r mem.1 (firstSegByte x.chain r) mem.2.2

/-- The outcome of an entry read that is not acted on: the record is discarded, the head stays (R55, R174). -/
def State.discardRead (s : State) (tag : Nat) : State :=
  (s.retire tag).setArb { s.arb with read := none }

/-- The read with this tag has delivered an I/O entry. The read the fetch arbiter waits for is acted on: its entry is
taken, or discarded when its queue has left ACTIVE (R55, R174). The outcome of any other read is not (R62, R188, R189). -/
def State.ioEntry (s : State) (opcode : Byte) (tag : Nat) (b : Body) : State :=
  match s.arb.read with
  | none => s.retire tag
  | some rd =>
    if rd.tag ≠ tag then s.retire tag
    else if (s.sq rd.sq).state ≠ .active then s.discardRead tag
    else
      match s.freshNum with
      | none => s
      | some n => (s.retire tag).takeEntry rd.sq n (Record.of opcode b)

/-! ### Admin entries -/

/-- The Admin Executor issues the read of SQ0's head entry, when the three conditions of R86 hold and no read is
outstanding. -/
def State.adminFetch (s : State) : State :=
  let x := s.sq 0
  if s.ctl.engine = .running ∧ x.state = .active ∧ x.unfetched ≠ 0 ∧ s.adm.ctx = none ∧ s.adm.read = none then
    (s.issue (.entryRead 0) (slotAddr x.base 32 x.head) []).setAdm { ctx := none, read := some s.link.next }
  else s

/-- An admin command enters the admin context (R85, R86). -/
def State.adminEnter (s : State) (r : Record) : State :=
  let x := s.sq 0
  (s.setAdm { ctx := some { record := r, progress := .executing, status := none, result := none },
              read := none }).setSq 0 { x with head := nextSlot x.size x.head }

/-- The read with this tag has delivered an admin entry. It is taken when it is the read the Admin Executor waits for and
SQ0 is ACTIVE: the flags are checked, then the command's own rule executes it (R45, R86, R87), whatever the tail is by then
(DESIGN CHOICE, log entry 36). Otherwise its record is discarded (R55, R62, R188). -/
def State.adminEntry (s : State) (opcode : Byte) (tag : Nat) (b : Body) (run : Record → State → State) : State :=
  if s.adm.read ≠ some tag then s.retire tag
  else if (s.sq 0).state ≠ .active then
    (s.retire tag).setAdm { s.adm with read := none }
  else
    let r := Record.of opcode b
    let s := (s.retire tag).adminEnter r
    if r.chainFlag || r.keepFlag then s.adminDone .invalidField none else run r s

end Sys2Proof.Machine
end

