-- ==== Sys2Proof/Machine/Arbiter.lean ====
section
/-! DEFINITION. The segment arbiter: which contexts and internal writes may start, yielding, and the choice made at a frame
boundary (R97 to R104, R117, R140). -/

namespace Sys2Proof.Machine

/-- Whether RESTORING holds a context's next frame: any target of the segment for a BROADCAST_WRITE, its own target for
any other command (R98 conditions 3 and 4, R99, R104). -/
def State.heldByRestoring (s : State) (c : Ctx) : Bool :=
  if c.kind = some .broadcastWrite then s.anyRestoring c.seg else s.isRestoring c.tgt

/-- R98 condition 1: no context of the same queue that entered the same list before is still PENDING. -/
def State.firstOfQueue (s : State) (c : Ctx) : Bool :=
  ((s.seg c.seg).pendingList.takeWhile (· ≠ c.num)).all fun m =>
    match s.ctx m with
    | some d => !(d.sq == c.sq && d.state == .pending)
    | none => true

/-- R98 condition 2: no FENCE of the same queue in FENCE_WAIT was fetched before the context (R107). -/
def State.noFenceBefore (s : State) (c : Ctx) : Bool :=
  (s.ctxs.takeWhile (fun d => d.num ≠ c.num)).all fun d => !(d.sq == c.sq && d.state == .fenceWait)

/-- R98 condition 5, and the judgment of a chain by the first of its members not yet run: every member has been fetched,
and no earlier member is unreached. -/
def State.chainReady (s : State) (c : Ctx) : Bool :=
  match c.chain with
  | none => true
  | some m =>
    (match (s.sq c.sq).chain with
      | some o => o.id != m.id
      | none => true) &&
    (s.ctxs.takeWhile (fun d => d.num ≠ c.num)).all fun d => !(d.inChain m.id && d.unreached)

/-- A startable context of a pending list (R98). -/
def State.startable (s : State) (c : Ctx) : Bool :=
  c.state == .pending && s.firstOfQueue c && s.noFenceBefore c && !s.heldByRestoring c && s.chainReady c

/-- The first context of a list of numbers that satisfies a test. -/
def State.firstCtx (s : State) (l : List CtxNum) (p : Ctx → Bool) : Option Ctx := (l.filterMap s.ctx).find? p

/-- The host context at the head of its class: one offered again whose target is not RESTORING, or else the startable
context earliest in list order (R99, R101). -/
def State.hostChoice (s : State) (g : SegId) : Option Ctx :=
  match s.firstCtx (s.seg g).offered (fun c => !s.heldByRestoring c) with
  | some c => some c
  | none => s.firstCtx (s.seg g).pendingList s.startable

/-! ### Putting a frame on the wire -/

/-- A frame starts: its bits go out, and the stuck count is 0 (R3 to R7, R13). -/
def State.startFrame (s : State) (g : SegId) (kind : FrameKind) (tgt : Option Tgt) (index : Byte) (data : Half)
    (owner : WireOwner) : State :=
  let address := match tgt with
    | some t => t.address
    | none => 0
  let w : Wire :=
    { kind := kind, tgt := tgt, index := index, owner := owner, header := frameHeader kind address index,
      payload := if kind = .read then none else some (framePayload data) }
  s.updSeg g fun y => { y with wire := some w, stuckCount := 0 }

/-- A context whose frame is chosen: ACTIVE, one more attempt (R74), and on a WAIT_UNTIL's first attempt its deadline set
(R82). -/
def Ctx.started (c : Ctx) (now : Nat) : Ctx :=
  { c with
    state := .active, attempts := min (c.attempts + 1) 255, tries := c.tries + 1, retryEnd := none, pollEnd := none
    deadline := if c.kind = some .waitUntil ∧ c.attempts = 0 then some (now + 10 * (c.record.half 16).toNat)
      else c.deadline }

/-- A host context's frame starts on its segment. -/
def State.startHost (s : State) (g : SegId) (c : Ctx) : State :=
  let s := s.updCtx c.num (·.started s.now)
  let s := s.updSeg g fun y => { y with offered := y.offered.filter (· ≠ c.num) }
  let tgt := if c.kind = some .broadcastWrite then none else some c.tgt
  s.startFrame g c.frameKind tgt c.frameIndex c.frameData (.host c.num)

/-- The holder that a chosen host context makes of itself: its chain, a MASKED_WRITE, a READ_BLOCK, or none (R100,
R103). -/
def Ctx.holderOf (c : Ctx) : Option Holder :=
  match c.chain with
  | some m => some (.chain m.id)
  | none =>
    match c.kind with
    | some .maskedWrite => some (.maskedWrite c.num)
    | some .readBlock => some (.readBlock c.num)
    | _ => none

/-- A host context chosen at step 3 of R100. -/
def State.chooseHost (s : State) (g : SegId) (c : Ctx) : State :=
  (s.updSeg g fun y => { y with holder := c.holderOf, lastServed := .host }).startHost g c

/-- The oldest due poll is chosen: a READ of the watch's target and index (R101, R117). -/
def State.choosePoll (s : State) (g : SegId) (d : DuePoll) : State :=
  let s := s.updSeg g fun y => { y with duePolls := y.duePolls.tail, lastServed := .poll }
  match s.watch d.watch with
  | none => s
  | some x =>
    (s.setWatch d.watch (some { x with poll := .onWire, tries := x.tries + 1 })).startFrame g .read (some x.cfg.tgt)
      x.cfg.index 0 (.poll d.watch)

/-- Whether an entry of the internal write list is eligible (R102). -/
def State.eligible (s : State) (e : IwEntry) : Bool :=
  match e with
  | .job _ => true
  | .response r => !s.isRestoring r.tgt

/-- The replay write that a chosen job makes: its retry, or the entry with the lowest index above its cursor (R140,
R142). -/
def State.nextReplay (s : State) (j : Job) : Option ReplayWrite :=
  match j.inFlight with
  | some w => some { w with tries := w.tries + 1 }
  | none => (s.restoreAbove j.tgt j.cursor).head?.map fun e => { index := e.index, value := e.value, tries := 1 }

/-- An entry of the internal write list is chosen: it leaves the list and its frame starts (R102, R140). -/
def State.chooseWrite (s : State) (g : SegId) (e : IwEntry) : State :=
  let s := s.updSeg g fun y => { y with writes := y.writes.erase e }
  match e with
  | .response r =>
    s.startFrame g .write (some r.tgt) r.index r.data (.response { r with tries := r.tries + 1 } false)
  | .job t =>
    match s.job t with
    | none => s
    | some j =>
      match s.nextReplay j with
      | none => s
      | some w =>
        (s.updJob t fun j => { j with cursor := some w.index, inFlight := some w, retryEnd := none }).startFrame g .write
          (some t) w.index w.value (.replay t)

/-! ### Holders -/

/-- The context whose frame a segment's holder would offer next: the MASKED_WRITE or READ_BLOCK itself, or the member
that the chain has reached (R103, R105). -/
def State.holderCtx (s : State) (g : SegId) : Option Ctx :=
  match (s.seg g).holder with
  | none => none
  | some (.maskedWrite n) => s.ctx n
  | some (.readBlock n) => s.ctx n
  | some (.chain id) => s.ctxs.find? fun c => c.inChain id && (c.state == .active || c.state == .retryWait)

/-- Whether a holder's context offers a frame: not in a retry delay, and with no buffer write outstanding (R100, R103,
R105). -/
def Ctx.offersFrame (c : Ctx) : Bool :=
  c.buffer.isNone && (c.state == .active || (c.state == .retryWait && c.retryEnd.isNone))

/-- A context that yields returns to PENDING with its attempts; a MASKED_WRITE forgets its merged value, a READ_BLOCK
keeps its block count and staged data (R104). -/
def Ctx.yielded (c : Ctx) : Ctx :=
  { c with state := .pending, retryEnd := none, tries := 0,
           value := if c.kind = some .maskedWrite then none else c.value }

/-- The holder yields when the frame it would offer is held by RESTORING (R104). -/
def State.yieldIfHeld (s : State) (g : SegId) : State :=
  match s.holderCtx g with
  | none => s
  | some c =>
    if c.offersFrame ∧ s.heldByRestoring c then
      (s.updCtx c.num (·.yielded)).updSeg g fun y => { y with holder := none }
    else s

/-- Step 1 of R100: the holder's next frame, if it offers one. -/
def State.holderFrame (s : State) (g : SegId) : State :=
  match s.holderCtx g with
  | some c => if c.offersFrame then s.startHost g c else s
  | none => s

/-- Step 3 of R100: a due poll or a host context, in turns while both wait (R101). -/
def State.pollOrHost (s : State) (g : SegId) : State :=
  match (s.seg g).duePolls.head?, s.hostChoice g with
  | none, none => s
  | some d, none => s.choosePoll g d
  | none, some c => s.chooseHost g c
  | some d, some c => if (s.seg g).lastServed = .poll then s.chooseHost g c else s.choosePoll g d

/-- Steps 2 and 3 of R100. -/
def State.openBoundary (s : State) (g : SegId) : State :=
  match (s.seg g).writes.find? s.eligible with
  | some e => s.chooseWrite g e
  | none => s.pollOrHost g

/-- A frame boundary of a segment (R8, R100): the segment is ACTIVE, no frame is on its wire, the idle bit times have
passed and HDA reads high. An engine in FAILED chooses no frame. -/
def State.boundary (s : State) (g : SegId) : State :=
  if (s.seg g).state = .active ∧ (s.seg g).wire = none ∧ s.ctl.engine ≠ .failed then
    let s := s.yieldIfHeld g
    match (s.seg g).holder with
    | some _ => s.holderFrame g
    | none => s.openBoundary g
  else s

end Sys2Proof.Machine
end

