-- ==== Sys2Proof/Machine/FrameEnd.lean ====
section
/-! DEFINITION. The end of an attempt: the report to the Presence Table, the KEEP hand-off, the retry decision, and the
outcome to the requester (R11, R12, R74 to R82, R117, R119, R128, R141, R167, R171, R177, R188). -/

namespace Sys2Proof.Machine

/-- Whether the retry budget of a segment allows one more attempt after `tries` (R12). -/
def State.budgetLeft (s : State) (g : SegId) (tries : Nat) : Bool := tries < 1 + (s.seg g).settings.retryLimit

/-- The tick at which a retry delay that begins now ends (R12). -/
def State.retryTick (s : State) (g : SegId) : Nat := s.ticks + (s.seg g).settings.retryDelay

/-! ### Host contexts -/

/-- What an attempt's result, applied by the command's rule, calls for. -/
inductive Verdict where
  /-- the command ends, or a READ_BLOCK's frames are done, with this status -/
  | final (st : Status)
  /-- the request is retried after its retry delay (R12) -/
  | retry
  /-- a further frame follows (R77, R79) -/
  | further
  /-- a WAIT_UNTIL waits out its poll interval (R81) -/
  | pollWait
deriving DecidableEq, Repr

/-- The context's value and staged data after an ACCEPT of a READ frame (R75, R77, R79, R81). -/
def Ctx.applyRead (c : Ctx) (v : Half) : Ctx :=
  match c.kind with
  | some .maskedWrite => { c with value := some (mergedValue c.record v) }
  | some .readBlock => { c with staged := c.staged ++ [v] }
  | _ => { c with value := some v }

/-- The context after the attempt's result is applied: only an ACCEPTed READ frame delivers a value. -/
def Ctx.apply (c : Ctx) (frame : FrameKind) (a : Attempt) : Ctx :=
  match frame, a with
  | .read, .accept v => c.applyRead v
  | _, _ => c

/-- The verdict on an attempt of a context's frame (R12, R75 to R82). `more` says that the retry budget is not spent,
`kept` that a KEEP value was recorded or none was carried; `c` is the context after the result was applied. -/
def Ctx.verdict (c : Ctx) (frame : FrameKind) (a : Attempt) (more kept : Bool) : Verdict :=
  match a with
  | .accept v =>
    match frame with
    | .read =>
      match c.kind with
      | some .maskedWrite => .further
      | some .readBlock => if c.blockCount = (c.record.byte 7).toNat then .final .success else .further
      | some .waitUntil =>
        if sampleMatches c.record v then .final .success
        else if c.deadlinePassed then .final .conditionTimeout
        else .pollWait
      | _ => .final .success
    | _ => .final (if kept then .success else .successNotKept)
  | .hold =>
    if more then (if c.deadlinePassed then .final .conditionTimeout else .retry) else .final .targetBusy
  | .parityFail =>
    if more then (if c.deadlinePassed then .final .conditionTimeout else .retry) else .final .dataParity
  | .refuse => .final .targetRefused
  | .silent => .final .noAnswer

/-- The value a write frame of a context put into its target (R135). -/
def Ctx.writtenValue (c : Ctx) : Half := c.frameData

/-- The KEEP hand-off after a WRITE frame: the Restore Unit records the value if it can (R76, R135). -/
def State.keepHandOff (s : State) (c : Ctx) (frame : FrameKind) (a : Attempt) : State :=
  if frame = .write ∧ a.status = .success ∧ c.record.keepFlag ∧ s.canRecord c.tgt (c.record.byte 6) then
    s.record c.tgt (c.record.byte 6) c.writtenValue
  else s

/-- The answer of the Restore Unit: false only for "pool full" (R76, R135). -/
def State.keepAnswer (s : State) (c : Ctx) (frame : FrameKind) (a : Attempt) : Bool :=
  !(frame == .write && a.status == .success && c.record.keepFlag) || s.canRecord c.tgt (c.record.byte 6)

/-- The command goes on after an attempt that is not final. -/
def State.goOn (s : State) (c : Ctx) (v : Verdict) : State :=
  match v with
  | .retry => s.updCtx c.num fun c => { c with state := .retryWait, retryEnd := some (s.retryTick c.seg) }
  | .pollWait =>
    s.updCtx c.num fun c =>
      { c with state := .pollWait, tries := 0, pollEnd := some (s.now + (c.record.half 14).toNat) }
  | _ => s.updCtx c.num fun c => { c with tries := 0 }

/-- The verdict is judged against the cancel mark: an abort mark ends the command ABORTED whatever the result (R171);
any other mark ends a command whose attempt is not final (R167). -/
def State.judge (s : State) (c : Ctx) (v : Verdict) : State :=
  match c.mark, v with
  | some .aborted, _ => s.endAborted c.num
  | _, .final st => s.endCommand c.num st
  | some st, _ => s.cancel st c.num
  | none, v => s.goOn c v

/-- The result of an attempt reaches a host context (R74, R167, R188 step 4). -/
def State.hostAttempt (s : State) (g : SegId) (n : CtxNum) (frame : FrameKind) (a : Attempt) : State :=
  match s.ctx n with
  | none => s
  | some c =>
    let kept := s.keepAnswer c frame a
    let s := s.keepHandOff c frame a
    if s.ctl.engine = .failed then s.discard n
    else
      let c' := c.apply frame a
      (s.updCtx n fun _ => c').judge c' (c'.verdict frame a (s.budgetLeft g c.tries) kept)

/-! ### Polls, response writes and replay writes -/

/-- The removal of a watch completes: the entry empties (R114 steps 5 and 6). -/
def State.removeDone (s : State) (w : WatchId) : State := (s.setWatch w none).adminDone .success none

/-- The result of an attempt reaches a watch's poll (R114, R117, R119, R129, R130). -/
def State.pollAttempt (s : State) (g : SegId) (w : WatchId) (a : Attempt) : State :=
  match s.watch w with
  | none => s
  | some x =>
    if s.adminAt (.removingWatch w) then s.removeDone w
    else if a.retriable ∧ s.budgetLeft g x.tries ∧ x.state = .armed ∧ (s.seg g).state = .active then
      s.setWatch w (some { x with poll := .retryWait, retryEnd := some (s.retryTick g) })
    else s.pollOver w a

/-- The result of an attempt reaches a watch response write (R12, R114, R128, R176). -/
def State.responseAttempt (s : State) (g : SegId) (r : RespWrite) (orphan : Bool) (a : Attempt) : State :=
  if orphan then s
  else if a.retriable ∧ s.budgetLeft g r.tries ∧ (s.seg g).state = .active then
    s.updSeg g fun y => { y with respDelays := y.respDelays ++ [{ write := r, retryEnd := s.retryTick g }] }
  else s.updWatch r.watch fun x => { x with respPending := false, lastResponse := some a.status }

/-- The result of an attempt reaches a replay write (R141, R142, R145): no job, no outcome. -/
def State.replayAttempt (s : State) (g : SegId) (t : Tgt) (a : Attempt) : State :=
  match s.job t with
  | none => s
  | some j =>
    let tries := match j.inFlight with
      | some w => w.tries
      | none => 0
    if a.retriable ∧ s.budgetLeft g tries ∧ (s.seg g).state = .active then
      s.updJob t fun j => { j with retryEnd := some (s.retryTick g) }
    else s.replayOutcome t a

/-- The requester kind of a frame, as the Presence Table reports it (R23, R29). -/
def WireOwner.source : WireOwner → Source
  | .host _ => .host
  | .poll _ => .poll
  | .response _ _ => .response
  | .replay _ => .replay

/-- The result of an attempt goes to its requester. -/
def State.toOwner (s : State) (g : SegId) (w : Wire) (a : Attempt) : State :=
  match w.owner with
  | .host n => s.hostAttempt g n w.kind a
  | .poll i => s.pollAttempt g i a
  | .response r orphan => s.responseAttempt g r orphan a
  | .replay t => s.replayAttempt g t a

/-- The wire of a segment is free. -/
def State.clearWire (s : State) (g : SegId) : State := s.updSeg g fun y => { y with wire := none }

/-- A READ or WRITE attempt on a segment ends (R11): the report is applied first, then the result goes to the requester,
and a DRAINING segment goes to OFF. -/
def State.attemptEnd (s : State) (g : SegId) (answer : BitVec 2) (data : Half) (parity : Bool) : State :=
  match (s.seg g).wire with
  | none => s
  | some w =>
    match w.tgt with
    | none => s
    | some t =>
      let a := Attempt.ofAnswer w.kind answer data parity
      let s := (s.clearWire g).report t w.owner.source a
      (s.toOwner g w a).drainIfDone g

/-- The last bit of a BROADCAST frame is sent: outcome SENT, no report (R7, R78). -/
def State.broadcastEnd (s : State) (g : SegId) : State :=
  match (s.seg g).wire with
  | none => s
  | some w =>
    match w.tgt, w.owner with
    | none, .host n =>
      let s := s.clearWire g
      let s := if s.ctl.engine = .failed then s.discard n else s.endCommand n .success
      s.drainIfDone g
    | _, _ => s

end Sys2Proof.Machine
end

