-- ==== Sys2Proof/Machine/Settle.lean ====
section
/-! DEFINITION. What comes about by itself inside a step once its own effect is made: FENCE release, staged contexts moving
in, a chain reaching its next member, DELETE_SQ completing, postings and event writes issued, entries fetched, the
passage to PAUSED (R47, R83, R86, R91, R93, R105, R154, R175, R185). -/

namespace Sys2Proof.Machine

/-- The FENCE contexts in FENCE_WAIT, in fetch order (R107). -/
def State.waitingFences (s : State) : List CtxNum := (s.ctxs.filter fun c => c.state == .fenceWait).map (·.num)

/-- A FENCE is released when no command of its queue fetched before it is unposted (R83). -/
def State.releaseFence (s : State) (n : CtxNum) : State :=
  match s.ctx n with
  | none => s
  | some c =>
    if c.state = .fenceWait ∧ (s.ctxs.takeWhile fun d => d.num ≠ n).all (fun d => d.sq ≠ c.sq) then
      s.becomeReady n .success
    else s

/-- Every FENCE whose wait is over becomes READY, in fetch order: one that is discarded counts as posted for the next
(R83). -/
def State.releaseFences (s : State) : State := s.waitingFences.foldl State.releaseFence s

/-- Whether a context is an ordinary staged context: a waiting chain start does not compete for a place (R93). -/
def State.ordinaryStaged (s : State) (c : Ctx) : Bool :=
  c.state == .staged && (s.sq c.sq).waitingStart != some c.num

/-- A staged context moves into its segment's pending list if the list has room (R93). -/
def State.moveStaged (s : State) (n : CtxNum) : State :=
  match s.ctx n with
  | none => s
  | some c => if s.ordinaryStaged c ∧ (s.seg c.seg).pendingList.length < 32 then s.place n else s

/-- Staged contexts move into pending lists with room, the one fetched earliest first (R93). -/
def State.moveAllStaged (s : State) : State :=
  ((s.ctxs.filter s.ordinaryStaged).map (·.num)).foldl State.moveStaged s

/-- The members of a chain that are out of FREE and have not ended. -/
def State.liveMembers (s : State) (id : Nat) : List Ctx := s.ctxs.filter fun c => c.inChain id && c.state != .ready

/-- A chain that holds the segment and has reached no member reaches the next: a PENDING one becomes ACTIVE; a STAGED one
is waited for; when none is left the hold ends (R105, R172). -/
def State.reachMember (s : State) (g : SegId) : State :=
  match (s.seg g).holder with
  | some (.chain id) =>
    match s.liveMembers id with
    | [] => s.updSeg g fun y => { y with holder := none }
    | c :: _ => if c.state = .pending then s.updCtx c.num fun c => { c with state := .active } else s
  | _ => s

/-- Every segment's chain reaches its next member. -/
def State.reachMembers (s : State) : State := segIds.foldl State.reachMember s

/-- Whether a queue's deletion is over: no context of the queue is out of FREE, and no entry read for it is outstanding
(R175). -/
def State.deletionOver (s : State) (q : SqId) : Bool :=
  s.ctxs.all (fun c => c.sq ≠ q) &&
    (match s.arb.read with
      | some rd => rd.sq != q
      | none => true)

/-- The queue whose DELETE_SQ is in execution. -/
def State.deletingQueue (s : State) : Option SqId :=
  match s.adm.ctx with
  | some a =>
    match a.progress with
    | .deletingSq q => some q
    | _ => none
  | none => none

/-- A DELETE_SQ whose queue has nothing left completes: the queue becomes ABSENT (R175). -/
def State.deleteIfOver (s : State) : State :=
  match s.deletingQueue with
  | some q => if (s.sq q).state = .deleting ∧ s.deletionOver q then (s.setSq q Sq.absent).adminDone .success none else s
  | none => s

/-- The record of a completion, as it is built when its write is issued (R45, R47, R84, R88). -/
def State.recordOf (s : State) (i : ReadyItem) (phase : Bool) : List Byte :=
  match i with
  | .ctx n =>
    match s.ctx n with
    | some c =>
      completionBytes c.record.ident c.sq.val (c.status.getD .success) c.value c.blockCount c.attempts (s.sq c.sq).head
        phase
    | none => []
  | .admin =>
    match s.adm.ctx with
    | some a => completionBytes a.record.ident 0 (a.status.getD .success) a.result 0 0 (s.sq 0).head phase
    | none => []

/-- The completion at the front of a ready list is posted: its write is issued when the queue is ACTIVE, not full and has
no posting in flight (R46, R47). -/
def State.post (s : State) (c : CqId) : State :=
  let x := s.cq c
  match x.ready with
  | [] => s
  | i :: rest =>
    if s.ctl.engine.posts ∧ x.state = .active ∧ ¬ x.full ∧ x.inFlight = none then
      (s.issue (.completion c) (slotAddr x.base 16 x.tail) (s.recordOf i x.phase)).setCq c
        { x with ready := rest, inFlight := some { item := i, tag := s.link.next } }
    else s

/-- Every completion queue that can post issues its next posting. -/
def State.postAll (s : State) : State := cqIds.foldl State.post s

/-- Whether the engine in PAUSING is quiet: the six conditions of R185. -/
def State.quiet (s : State) : Bool :=
  s.ctxs.isEmpty && s.adm.ctx.isNone && s.arb.read.isNone && s.adm.read.isNone &&
    watchIds.all (fun w => match s.watch w with
      | some x => x.state != .armed
      | none => true) &&
    segIds.all (fun g => (s.seg g).writes.isEmpty && (s.seg g).respDelays.isEmpty && (s.seg g).wire.isNone) &&
    s.jobs.isEmpty

/-- An engine in PAUSING that is quiet goes to PAUSED (R185). -/
def State.pauseIfQuiet (s : State) : State :=
  if s.ctl.engine = .pausing ∧ s.quiet then { s with ctl := { s.ctl with engine := .paused } } else s

/-- What follows by itself, in the order in which each part can enable the next. -/
def State.settle (s : State) : State :=
  (((((((s.releaseFences.moveAllStaged).reachMembers).deleteIfOver).postAll).issueEvent).adminFetch).ioFetch).pauseIfQuiet

end Sys2Proof.Machine
end

