-- ==== Sys2Proof/WellFormed.lean ====
section
/-! DEFINITION. Which commands are well formed: the operands a row of the table can carry. Most operands are of types
that hold no ill-formed value; the checks here are the rest. -/

namespace Sys2Proof

/-- A write sets ENGINE_CONTROL's three acting bits as given: byte 0 is written (bit 0 ENABLE, bit 1 RESET). -/
def RegWrite.control (w : RegWrite) (enable reset : Bool) : Bool :=
  w.enables.getLsbD 0 && w.value.getLsbD 0 == enable && w.value.getLsbD 1 == reset

/-- Whether an offset of the 4 KB window holds no register a write could reach other than ENGINE_STATUS (11.7, R60). -/
def offsetOther (offset : Nat) : Bool :=
  offset < 4096 && offset % 4 == 0 &&
    (offset == 0x004 || offset == 0x00C || (0x030 ≤ offset && offset < 0x040) || 0x0A0 ≤ offset)

/-- The well-formed commands.
MSI_CONFIG_CHANGE enables 1 to 8 vectors (R165); each row of ENGINE_CONTROL is a write with the bits its row names
(R180); REGISTER_WRITE_OTHER is to ENGINE_STATUS or to an offset that holds no register (R60); the opcode of
INVALID_OPCODE_ENTRY names no command valid for its queue (R69, R87). -/
def Instr.wellFormed : Instr → Bool
  | .msiConfigChange _ n => 1 ≤ n && n ≤ 8
  | .enable w => w.control true false
  | .enableResume w => w.control true false
  | .pause w => w.control false false
  | .reset w => w.enables.getLsbD 0 && w.value.getLsbD 1
  | .engineControlWrite w => !(w.enables.getLsbD 0 && w.value.getLsbD 1)
  | .registerWriteOther offset _ => offsetOther offset
  | .invalidOpcodeEntry admin _ op _ => !codeValid admin op
  | _ => true

end Sys2Proof
end

