-- ==== Sys2Proof/Machine/Control.lean ====
section
/-! DEFINITION. Resets, message-signalled interrupt configuration, and writes to ENGINE_CONTROL: the rows POWER_ON_RESET,
HOST_LINK_RESET, MSI_CONFIG_CHANGE, ENABLE, ENABLE_RESUME, PAUSE, RESET and ENGINE_CONTROL_WRITE (chapter 10). -/

namespace Sys2Proof.Machine

/-- What a command answers. -/
abbrev Result := Host.Outcome State Fault Refusal

/-- A command's own effect, then what follows by itself. -/
def done (s : State) : Result := .next s.settle

/-! ### Resets -/

/-- A presence entry after a reset that keeps the targets: RESTORING becomes LOST (R37). -/
def PresEntry.kept (e : PresEntry) : PresEntry := if e.state = .restoring then { e with state := .lost } else e

/-- The Interrupt Unit after a reset that leaves configuration space alone (R160, R165). -/
def IntUnit.afterReset (u : IntUnit) : IntUnit := { u with mask := 0xFF, pending := 0 }

/-- An engine reset (R189). Every block takes its reset values; with KEEP_TARGETS = 1 the segment settings, presence
entries and restore pool are kept (R21, R37, R149). The time base runs on, accesses already issued stay outstanding on
the host link and are not acted on, and configuration space is not touched. -/
def State.engineReset (s : State) (keep : Bool) : State :=
  { State.reset with
    pending := s.pending
    ticks := s.ticks
    nextChain := s.nextChain
    segs := if keep then tableMap (fun y => SegCtl.afterReset y.settings) s.segs else State.reset.segs
    presence := if keep then tableMap (tableMap PresEntry.kept) s.presence else State.reset.presence
    pool := if keep then s.pool else []
    irq := s.irq.afterReset
    link := s.link }

/-- POWER_ON_RESET: every block takes its power-on reset values (R190); the commands still waiting stay in the queue. -/
def execPowerOnReset (s : State) : Result := .next { State.reset with pending := s.pending }

/-- HOST_LINK_RESET: as an engine reset with KEEP_TARGETS = 0, and message-signalled interrupts are disabled with one
vector enabled (R165, R190). -/
def execHostLinkReset (s : State) : Result :=
  let s := s.engineReset false
  .next { s with irq := { s.irq with msiOn := false, msiVectors := 1 } }

/-- MSI_CONFIG_CHANGE: the two inputs from configuration space change; nothing is sent by the change (R165). -/
def execMsiConfigChange (on : Bool) (vectors : Nat) (s : State) : Result :=
  if 1 ≤ vectors ∧ vectors ≤ 8 then .next { s with irq := { s.irq with msiOn := on, msiVectors := vectors } }
  else .refused (.illFormed "MSI_CONFIG_CHANGE")

/-! ### ENGINE_CONTROL -/

/-- The sizes that ADMIN_QUEUE_SIZES gives SQ0 and CQ0 (11.7). -/
def Control.sqSize (c : Control) : Nat := (c.adminSizes.extractLsb' 0 16).toNat

/-- See `Control.sqSize`. -/
def Control.cqSize (c : Control) : Nat := (c.adminSizes.extractLsb' 16 16).toNat

/-- A ring's base is a multiple of 64, its size lies in 4 to 1024, and it does not pass the top of the address space
(R42, R51, R52). -/
def ringOk (base : Addr) (size record : Nat) : Bool :=
  base.toNat % 64 == 0 && 4 ≤ size && size ≤ 1024 && fitsBelowTop base (size * record)

/-- The check of the admin queue registers (R42). -/
def Control.adminOk (c : Control) : Bool :=
  ringOk c.adminSqBase c.sqSize 32 && ringOk c.adminCqBase c.cqSize 16

/-- A submission queue as its creation makes it (R42, R51). -/
def Sq.created (base : Addr) (size : Nat) (bound : CqId) (weight : Nat) : Sq :=
  { state := .active, base := base, size := size, tail := 0, head := 0, bound := bound, weight := weight,
    staging := none, chain := none }

/-- A completion queue as its creation makes it (R42, R52). -/
def Cq.created (base : Addr) (size : Nat) (vector : VecId) : Cq :=
  { state := .active, base := base, size := size, tail := 0, head := 0, phase := true, vector := vector, ready := [],
    inFlight := none }

/-- ENABLE in IDLE (R42, R183). -/
def State.enableIdle (s : State) : State :=
  let c := s.ctl
  if c.adminOk then
    (({ s with ctl := { c with engine := .running } } : State).setSq 0 (Sq.created c.adminSqBase c.sqSize 0 1)).setCq 0
      (Cq.created c.adminCqBase c.cqSize 0)
  else { s with ctl := { c with engine := .failed, cause := .adminConfig } }

/-- ENABLE written 1 in PAUSING or PAUSED (R186). -/
def State.resume (s : State) : State :=
  segIds.foldl State.rearmWatches { s with ctl := { s.ctl with engine := .running } }

/-- ENABLE written 0 in RUNNING (R184). -/
def State.beginPause (s : State) : State :=
  ({ s with ctl := { s.ctl with engine := .pausing } } : State).pauseWatches

/-- The value of ENGINE_CONTROL as it reads: RESET reads 0 (R180). -/
def Control.controlWord (c : Control) : BitVec 32 :=
  (if c.enable then 1 else 0) ||| (if c.keepTargets then 4 else 0)

/-- A write to ENGINE_CONTROL: the enabled bytes are replaced, and the engine acts on the whole value (R60, R180). -/
def State.writeControl (s : State) (w : RegWrite) : State :=
  let v := w.onto s.ctl.controlWord
  if v.getLsbD 1 then s.engineReset (v.getLsbD 2)
  else
    let s : State := { s with ctl := { s.ctl with enable := v.getLsbD 0, keepTargets := v.getLsbD 2 } }
    match s.ctl.engine, v.getLsbD 0 with
    | .idle, true => s.enableIdle.settle
    | .running, false => s.beginPause.settle
    | .pausing, true => s.resume.settle
    | .paused, true => s.resume.settle
    | _, _ => s

/-- ENABLE (R42). -/
def execEnable (w : RegWrite) (s : State) : Result := .next (s.writeControl w)

/-- ENABLE_RESUME (R186). -/
def execEnableResume (w : RegWrite) (s : State) : Result := .next (s.writeControl w)

/-- PAUSE (R184). -/
def execPause (w : RegWrite) (s : State) : Result := .next (s.writeControl w)

/-- RESET (R189). -/
def execReset (w : RegWrite) (s : State) : Result := .next (s.writeControl w)

/-- ENGINE_CONTROL_WRITE (R180). -/
def execEngineControlWrite (w : RegWrite) (s : State) : Result := .next (s.writeControl w)

end Sys2Proof.Machine
end

