-- ==== Sys2Proof/Machine/AdminQueues.lean ====
section
/-! DEFINITION. The queue commands of the admin queue: CREATE_SQ, DELETE_SQ, CREATE_CQ, DELETE_CQ, and ABORT, with the
admin entry whose opcode names no admin command (R51 to R53, R87, R169 to R175). -/

namespace Sys2Proof.Machine

/-- A byte that names a submission queue of the I/O queues, SQ1 to SQ15. -/
def ioSqOfByte (b : Byte) : Option SqId :=
  if h : 1 ≤ b.toNat ∧ b.toNat ≤ 15 then some ⟨b.toNat, by omega⟩ else none

/-- A byte that names a completion queue of the I/O queues, CQ1 to CQ7. -/
def ioCqOfByte (b : Byte) : Option CqId :=
  if h : 1 ≤ b.toNat ∧ b.toNat ≤ 7 then some ⟨b.toNat, by omega⟩ else none

/-- A byte that names a vector, 0 to 7. -/
def vecOfByte (b : Byte) : Option VecId := if h : b.toNat < 8 then some ⟨b.toNat, h⟩ else none

/-- CREATE_SQ's own rule (R51). -/
def runCreateSq (r : Record) (s : State) : State :=
  match ioSqOfByte (r.byte 4) with
  | none => s.adminDone .invalidField none
  | some q =>
    if (s.sq q).state ≠ .absent then s.adminDone .queueExists none
    else
      let size := (r.half 8).toNat
      let weight := (r.byte 6).toNat
      match ioCqOfByte (r.byte 5) with
      | none => s.adminDone .invalidField none
      | some c =>
        if ¬ (ringOk r.address size 32 ∧ 1 ≤ weight ∧ weight ≤ 8) then s.adminDone .invalidField none
        else if (s.cq c).state ≠ .active then s.adminDone .queueAbsent none
        else (s.setSq q (Sq.created r.address size c weight)).adminDone .success none

/-- CREATE_SQ (R51). -/
def execCreateSq (tag : Nat) (b : Body) (s : State) : Result := done (s.adminEntry 0x40 tag b runCreateSq)

/-- CREATE_CQ's own rule (R52). -/
def runCreateCq (r : Record) (s : State) : State :=
  match ioCqOfByte (r.byte 4) with
  | none => s.adminDone .invalidField none
  | some c =>
    if (s.cq c).state ≠ .absent then s.adminDone .queueExists none
    else
      let size := (r.half 8).toNat
      match vecOfByte (r.byte 7) with
      | none => s.adminDone .invalidField none
      | some v =>
        if ¬ ringOk r.address size 16 then s.adminDone .invalidField none
        else (s.setCq c (Cq.created r.address size v)).adminDone .success none

/-- CREATE_CQ (R52). -/
def execCreateCq (tag : Nat) (b : Body) (s : State) : Result := done (s.adminEntry 0x42 tag b runCreateCq)

/-- Whether a submission queue that is not ABSENT is bound to a completion queue (R53). -/
def State.cqInUse (s : State) (c : CqId) : Bool :=
  sqIds.any fun q => (s.sq q).state != .absent && (s.sq q).bound == c

/-- DELETE_CQ's own rule (R53). -/
def runDeleteCq (r : Record) (s : State) : State :=
  match ioCqOfByte (r.byte 4) with
  | none => s.adminDone .invalidField none
  | some c =>
    if (s.cq c).state = .absent then s.adminDone .queueAbsent none
    else if s.cqInUse c then s.adminDone .queueInUse none
    else (s.setCq c Cq.absent).adminDone .success none

/-- DELETE_CQ (R53). -/
def execDeleteCq (tag : Nat) (b : Body) (s : State) : Result := done (s.adminEntry 0x43 tag b runDeleteCq)

/-- A context of a queue that goes to DELETING: steps 3 to 5 of R174. -/
def State.deleteCtx (s : State) (n : CtxNum) : State := s.tearDownCtx .queueDeleted n

/-- The contexts of a queue, in fetch order. -/
def State.ctxsOf (s : State) (q : SqId) : List CtxNum := (s.ctxs.filter fun c => c.sq == q).map (·.num)

/-- A queue goes to DELETING (R174): fetching stops, the lock is released, its contexts end or are marked. It becomes
ABSENT, and the command completes, within the same step when nothing is outstanding (R175). -/
def State.startDelete (s : State) (q : SqId) : State :=
  let s := s.updSq q fun x => { x with state := .deleting }
  let s := s.releaseLock q
  let s := (s.ctxsOf q).foldl State.deleteCtx s
  s.adminWaits (.deletingSq q)

/-- DELETE_SQ's own rule (R174). -/
def runDeleteSq (r : Record) (s : State) : State :=
  match ioSqOfByte (r.byte 4) with
  | none => s.adminDone .invalidField none
  | some q => if (s.sq q).state = .absent then s.adminDone .queueAbsent none else s.startDelete q

/-- DELETE_SQ (R174, R175). -/
def execDeleteSq (tag : Nat) (b : Body) (s : State) : Result := done (s.adminEntry 0x41 tag b runDeleteSq)

/-! ### ABORT -/

/-- Whether the frame a context has on the wire is its last frame request (R171). -/
def Ctx.lastRequest (c : Ctx) : Bool :=
  match c.kind with
  | some .read => true
  | some .write => true
  | some .broadcastWrite => true
  | some .maskedWrite => c.value.isSome
  | some .readBlock => c.blockCount + 1 == (c.record.byte 7).toNat
  | _ => false

/-- ABORT on the context it has found: the new state and the status ABORT completes with (the table of R170). -/
def State.abortCtx (s : State) (c : Ctx) : State × Status :=
  match c.state with
  | .ready => (s, .abortTooLate)
  | .active =>
    if c.buffer.isSome then (s, .abortTooLate)
    else if s.onWire c then
      if c.lastRequest then (s, .abortTooLate)
      else (s.updCtx c.num fun c => { c with mark := c.mark <|> some .aborted }, .success)
    else (s.endAborted c.num, .success)
  | _ => (s.endAborted c.num, .success)

/-- ABORT's own rule (R169): the oldest context out of FREE with the SQ id and identifier. -/
def runAbort (r : Record) (s : State) : State :=
  match ioSqOfByte (r.byte 4) with
  | none => s.adminDone .invalidField none
  | some q =>
    match s.ctxs.find? (fun c => c.sq == q && c.record.ident == r.half 8) with
    | none => s.adminDone .abortNotFound none
    | some c => (s.abortCtx c).1.adminDone (s.abortCtx c).2 none

/-- ABORT (R169). -/
def execAbort (tag : Nat) (b : Body) (s : State) : Result := done (s.adminEntry 0x61 tag b runAbort)

end Sys2Proof.Machine
end

