-- ==== Sys2Proof/Machine/AdminSegments.lean ====
section
/-! DEFINITION. The segment and target commands of the admin queue: SEGMENT_SETUP, SEGMENT_ON, SEGMENT_OFF,
SEGMENT_RECOVER, QUERY_SEGMENT and QUERY_TARGET (R16 to R20, R34, R89). -/

namespace Sys2Proof.Machine

/-- The settings a SEGMENT_SETUP entry carries (11.3). -/
def setupOf (r : Record) : Settings :=
  { divider := (r.half 8).toNat, retryDelay := (r.byte 10).toNat, retryLimit := (r.byte 11).toNat,
    missThreshold := (r.byte 12).toNat, stuckTime := (r.byte 13).toNat }

/-- The ranges of R16. -/
def Settings.inRange (x : Settings) : Bool :=
  3 ≤ x.divider && x.divider ≤ 499 && 1 ≤ x.retryDelay && x.retryDelay ≤ 255 && x.retryLimit ≤ 15 &&
    1 ≤ x.missThreshold && x.missThreshold ≤ 7 && 1 ≤ x.stuckTime && x.stuckTime ≤ 255

/-- SEGMENT_SETUP's own rule (R16). -/
def runSegmentSetup (r : Record) (s : State) : State :=
  match segOfByte (r.byte 4) with
  | none => s.adminDone .invalidField none
  | some g =>
    if (s.seg g).state ≠ .off then s.adminDone .segmentBusy none
    else if ¬ (setupOf r).inRange then s.adminDone .invalidField none
    else (s.updSeg g fun y => { y with settings := setupOf r }).adminDone .success none

/-- SEGMENT_SETUP (R16). -/
def execSegmentSetup (tag : Nat) (b : Body) (s : State) : Result := done (s.adminEntry 0x48 tag b runSegmentSetup)

/-- A segment's entry to ACTIVE: stuck count 0, last class served POLL (R17, R19, R101). -/
def SegCtl.activated (y : SegCtl) : SegCtl :=
  { y with state := .active, stuckCount := 0, lastServed := .poll, recoveryIdle := false }

/-- SEGMENT_ON's own rule (R17). -/
def runSegmentOn (r : Record) (s : State) : State :=
  match segOfByte (r.byte 4) with
  | none => s.adminDone .invalidField none
  | some g =>
    match (s.seg g).state with
    | .off => ((s.updSeg g SegCtl.activated).rearmWatches g).adminDone .success none
    | .active => s.adminDone .success none
    | _ => s.adminDone .segmentBusy none

/-- SEGMENT_ON (R17). -/
def execSegmentOn (tag : Nat) (b : Body) (s : State) : Result := done (s.adminEntry 0x49 tag b runSegmentOn)

/-- SEGMENT_OFF's own rule (R18, R176 to R178). -/
def runSegmentOff (r : Record) (s : State) : State :=
  match segOfByte (r.byte 4) with
  | none => s.adminDone .invalidField none
  | some g =>
    match (s.seg g).state with
    | .active => ((s.adminWaits (.drainingSegment g)).enterDraining g).drainIfDone g
    | .faulted => (s.updSeg g fun y => { y with state := .off }).adminDone .success none
    | .off => s.adminDone .success none
    | _ => s.adminDone .segmentBusy none

/-- SEGMENT_OFF (R18). -/
def execSegmentOff (tag : Nat) (b : Body) (s : State) : Result := done (s.adminEntry 0x4A tag b runSegmentOff)

/-- SEGMENT_RECOVER's own rule (R19): the first recovery pulse is issued. -/
def runSegmentRecover (r : Record) (s : State) : State :=
  match segOfByte (r.byte 4) with
  | none => s.adminDone .invalidField none
  | some g =>
    if (s.seg g).state = .faulted then
      (s.updSeg g fun y => { y with state := .recovering, pulseCount := 1, recoveryIdle := false }).adminWaits
        (.recovering g)
    else s.adminDone .segmentBusy none

/-- SEGMENT_RECOVER (R19). -/
def execSegmentRecover (tag : Nat) (b : Body) (s : State) : Result := done (s.adminEntry 0x4B tag b runSegmentRecover)

/-- An admin command's result record is written to its buffer in a single DMA write; a record that would pass the top of
the address space is not written, and the write counts as failed (R89). -/
def State.writeResult (s : State) (r : Record) (bytes : List Byte) : State :=
  if fitsBelowTop r.address bytes.length then
    (s.issue .result r.address bytes).adminWaits (.resultWrite s.link.next)
  else s.adminDone .resultBufferError none

/-- QUERY_SEGMENT's own rule (R20). -/
def runQuerySegment (r : Record) (s : State) : State :=
  match segOfByte (r.byte 4) with
  | none => s.adminDone .invalidField none
  | some g => s.writeResult r (segmentRecord g (s.seg g))

/-- QUERY_SEGMENT (R20). -/
def execQuerySegment (tag : Nat) (b : Body) (s : State) : Result := done (s.adminEntry 0x4C tag b runQuerySegment)

/-- QUERY_TARGET's own rule (R34). -/
def runQueryTarget (r : Record) (s : State) : State :=
  match tgtOfBytes (r.byte 4) (r.byte 5) with
  | none => s.adminDone .invalidField none
  | some t =>
    s.writeResult r (targetRecord t (s.pres t) (s.seg t.seg).settings.missThreshold (s.restoreList t).length (s.job t))

/-- QUERY_TARGET (R34). -/
def execQueryTarget (tag : Nat) (b : Body) (s : State) : Result := done (s.adminEntry 0x4D tag b runQueryTarget)

end Sys2Proof.Machine
end

