-- ==== Sys2Proof/Machine/AdminTables.lean ====
section
/-! DEFINITION. The watch, restore and event commands of the admin queue: WATCH_ADD, WATCH_REMOVE, WATCH_ARM, QUERY_WATCH,
RESTORE_ADD, RESTORE_DROP and CONFIGURE_EVENTS (R112 to R115, R136, R137, R151). -/

namespace Sys2Proof.Machine

/-! ### Watches -/

/-- The watch id a byte names: above 127 names none (6.2). -/
def watchOfByte (b : Byte) : Option WatchId := if h : b.toNat < 128 then some ⟨b.toNat, h⟩ else none

/-- The response write a WATCH_ADD entry configures: absent with presence 0; none when the presence code or the response
target is not valid (R112, 11.3). -/
def responseOf (r : Record) : Option (Option RespCfg) :=
  match boolOfCode (r.byte 18) with
  | none => none
  | some false => some none
  | some true =>
    match slotOfByte (r.byte 19) with
    | none => none
    | some a => some (some { slot := a, index := r.byte 20, data := r.half 22 })

/-- The match value a WATCH_ADD entry gives for a condition: not kept for CHANGE, RISE and FALL; none when it has a bit
outside the mask (R109, R112). -/
def matchOf (r : Record) (c : Cond) : Option (Option Half) :=
  if c.usesMatch then (if r.half 10 &&& ~~~(r.half 8) = 0 then some (some (r.half 10)) else none) else some none

/-- The configuration a WATCH_ADD entry gives, if every check of step 3 of R112 passes. -/
def watchCfgOf (r : Record) : Option WatchCfg := do
  let t ← tgtOfBytes (r.byte 4) (r.byte 5)
  let c ← Cond.ofCode (r.byte 14)
  let oneShot ← boolOfCode (r.byte 16)
  let report ← boolOfCode (r.byte 17)
  let response ← responseOf r
  let m ← matchOf r c
  let interval := (r.half 12).toNat
  let debounce := (r.byte 15).toNat
  if r.half 8 ≠ 0 ∧ 1 ≤ interval ∧ 1 ≤ debounce ∧ debounce ≤ 8 then
    some { tgt := t, index := r.byte 6, mask := r.half 8, cond := c, matchValue := m, interval := interval,
           debounce := debounce, oneShot := oneShot, report := report, response := response }
  else none

/-- A watch as WATCH_ADD fills its entry, HALTED (R112). -/
def Watch.new (c : WatchCfg) : Watch :=
  { cfg := c, state := .halted, stable := none, candidate := none, run := 0, nextDue := none, poll := .none, tries := 0,
    retryEnd := none, overrun := false, overrunCount := 0, triggers := 0, lastPoll := none, held := none,
    respPending := false, lastResponse := none }

/-- Whether watches of a segment run: it is ACTIVE and the engine is RUNNING (R112, R113, R131). -/
def State.watchesRun (s : State) (g : SegId) : Bool := (s.seg g).state == .active && s.ctl.engine == .running

/-- WATCH_ADD's own rule (R112). -/
def runWatchAdd (r : Record) (s : State) : State :=
  match watchOfByte (r.byte 7) with
  | none => s.adminDone .invalidField none
  | some w =>
    if (s.watch w).isSome then s.adminDone .watchExists none
    else
      match watchCfgOf r with
      | none => s.adminDone .invalidField none
      | some c =>
        let x := if s.watchesRun c.tgt.seg
          then { Watch.new c with state := .armed, nextDue := some (s.now + c.interval) }
          else Watch.new c
        (s.setWatch w (some x)).adminDone .success none

/-- WATCH_ADD (R112). -/
def execWatchAdd (tag : Nat) (b : Body) (s : State) : Result := done (s.adminEntry 0x50 tag b runWatchAdd)

/-- WATCH_ARM's own rule (R113). -/
def runWatchArm (r : Record) (s : State) : State :=
  match watchOfByte (r.byte 7) with
  | none => s.adminDone .invalidField none
  | some w =>
    match s.watch w with
    | none => s.adminDone .watchAbsent none
    | some x =>
      if x.state = .fired then
        let x := if s.watchesRun x.cfg.tgt.seg
          then { x with state := .armed, nextDue := some (s.now + x.cfg.interval) }
          else { x with state := .halted }
        (s.setWatch w (some x)).adminDone .success none
      else s.adminDone .success none

/-- WATCH_ARM (R113). -/
def execWatchArm (tag : Nat) (b : Body) (s : State) : Result := done (s.adminEntry 0x52 tag b runWatchArm)

/-- A response write of a removed watch on the wire: its outcome is recorded nowhere (R114). -/
def Wire.orphaned (y : Wire) (w : WatchId) : Wire :=
  match y.owner with
  | .response r o => { y with owner := .response r (o || r.watch == w) }
  | _ => y

/-- A segment without the listed poll and the response write of a watch that is removed (R114 steps 2 and 3). -/
def SegCtl.forgetWatch (y : SegCtl) (w : WatchId) : SegCtl :=
  { y with
    duePolls := y.duePolls.filter (fun d => d.watch ≠ w)
    writes := y.writes.filter fun e => match e with
      | .response r => r.watch ≠ w
      | .job _ => true
    respDelays := y.respDelays.filter (fun d => d.write.watch ≠ w)
    wire := y.wire.map (·.orphaned w) }

/-- WATCH_REMOVE's own rule (R114). -/
def runWatchRemove (r : Record) (s : State) : State :=
  match watchOfByte (r.byte 7) with
  | none => s.adminDone .invalidField none
  | some w =>
    match s.watch w with
    | none => s.adminDone .watchAbsent none
    | some x =>
      let s := s.updSeg x.cfg.tgt.seg (·.forgetWatch w)
      let onWire := x.poll == .onWire
      let s := s.setWatch w (some
        { x with nextDue := none, poll := if onWire then .onWire else .none, retryEnd := none, respPending := false,
                 held := none })
      if onWire then s.adminWaits (.removingWatch w) else s.removeDone w

/-- WATCH_REMOVE (R114). -/
def execWatchRemove (tag : Nat) (b : Body) (s : State) : Result := done (s.adminEntry 0x51 tag b runWatchRemove)

/-- QUERY_WATCH's own rule (R115). -/
def runQueryWatch (r : Record) (s : State) : State :=
  match watchOfByte (r.byte 7) with
  | none => s.adminDone .invalidField none
  | some w =>
    match s.watch w with
    | none => s.adminDone .watchAbsent none
    | some x => s.writeResult r (watchRecord w x s.now)

/-- QUERY_WATCH (R115). -/
def execQueryWatch (tag : Nat) (b : Body) (s : State) : Result := done (s.adminEntry 0x53 tag b runQueryWatch)

/-! ### Restore lists -/

/-- RESTORE_ADD's own rule (R136): the result value is the free count after the command. -/
def runRestoreAdd (r : Record) (s : State) : State :=
  match tgtOfBytes (r.byte 4) (r.byte 5) with
  | none => s.adminDone .invalidField none
  | some t =>
    if s.canRecord t (r.byte 6) then
      let s := s.record t (r.byte 6) (r.half 8)
      s.adminDone .success (some (BitVec.ofNat 16 (poolSize - s.pool.length)))
    else s.adminDone .poolFull none

/-- RESTORE_ADD (R136). -/
def execRestoreAdd (tag : Nat) (b : Body) (s : State) : Result := done (s.adminEntry 0x58 tag b runRestoreAdd)

/-- The entries that a RESTORE_DROP selector selects: one index, or ALL (R137, 11.3). -/
def dropSelects (t : Tgt) (all : Bool) (index : Byte) (e : PoolEntry) : Bool := e.tgt == t && (all || e.index == index)

/-- RESTORE_DROP's own rule (R137, R143, R144): the result value is the number of entries freed. -/
def runRestoreDrop (r : Record) (s : State) : State :=
  match tgtOfBytes (r.byte 4) (r.byte 5), boolOfCode (r.byte 7) with
  | some t, some all =>
    let freed := s.pool.countP (dropSelects t all (r.byte 6))
    let s : State := { s with pool := s.pool.filter (fun e => !dropSelects t all (r.byte 6) e) }
    (s.endJobIfOver t).adminDone .success (some (BitVec.ofNat 16 freed))
  | _, _ => s.adminDone .invalidField none

/-- RESTORE_DROP (R137). -/
def execRestoreDrop (tag : Nat) (b : Body) (s : State) : Result := done (s.adminEntry 0x59 tag b runRestoreDrop)

/-! ### The event ring -/

/-- A new event ring (R151). -/
def Ring.created (base : Addr) (size : Nat) (vector : VecId) : Ring :=
  { base := base, size := size, vector := vector, head := 0, tail := 0, phase := true, output := [], inFlight := none }

/-- The check of CONFIGURE_EVENTS for a size that is not 0 (R151). -/
def eventRingOk (base : Addr) (size : Nat) : Bool :=
  base.toNat % 64 == 0 && 16 ≤ size && size ≤ 1024 && fitsBelowTop base (size * 16)

/-- CONFIGURE_EVENTS's own rule (R151). -/
def runConfigureEvents (r : Record) (s : State) : State :=
  let size := (r.half 8).toNat
  if size = 0 then
    { s.discardHeld with ev := { ring := none, backlog := [], lost := 0 } }.adminDone .success none
  else
    match vecOfByte (r.byte 7) with
    | none => s.adminDone .invalidField none
    | some v =>
      if ¬ eventRingOk r.address size then s.adminDone .invalidField none
      else
        let ring := Ring.created r.address size v
        let s := match s.ev.ring with
          | some _ => { s.discardHeld with ev := { ring := some ring, backlog := [], lost := 0 } }
          | none => s.setRing (some ring)
        s.drain.adminDone .success none

/-- CONFIGURE_EVENTS (R151). -/
def execConfigureEvents (tag : Nat) (b : Body) (s : State) : Result := done (s.adminEntry 0x60 tag b runConfigureEvents)

end Sys2Proof.Machine
end

