-- ==== Sys2Proof/Machine/Entries.lean ====
section
/-! DEFINITION. Fetched I/O entries: the rows READ, WRITE, MASKED_WRITE, BROADCAST_WRITE, READ_BLOCK, WAIT_UNTIL, FENCE,
and INVALID_OPCODE_ENTRY for either kind of queue (R45, R68 to R73, R87). Each row is the read of an entry with its opcode
succeeding; what the command then does on its segment is in the rows of the wire. -/

namespace Sys2Proof.Machine

/-- READ (R75). -/
def execRead (tag : Nat) (b : Body) (s : State) : Result := done (s.ioEntry 0x01 tag b)

/-- WRITE (R76). -/
def execWrite (tag : Nat) (b : Body) (s : State) : Result := done (s.ioEntry 0x02 tag b)

/-- MASKED_WRITE (R77). -/
def execMaskedWrite (tag : Nat) (b : Body) (s : State) : Result := done (s.ioEntry 0x03 tag b)

/-- BROADCAST_WRITE (R78). -/
def execBroadcastWrite (tag : Nat) (b : Body) (s : State) : Result := done (s.ioEntry 0x04 tag b)

/-- READ_BLOCK (R79). -/
def execReadBlock (tag : Nat) (b : Body) (s : State) : Result := done (s.ioEntry 0x05 tag b)

/-- WAIT_UNTIL (R81). -/
def execWaitUntil (tag : Nat) (b : Body) (s : State) : Result := done (s.ioEntry 0x06 tag b)

/-- FENCE (R83). -/
def execFence (tag : Nat) (b : Body) (s : State) : Result := done (s.ioEntry 0x07 tag b)

/-- An admin entry whose opcode names no admin command (R87 check 1). Its flags are not checked: the opcode is checked
first. -/
def State.adminInvalid (s : State) (opcode : Byte) (tag : Nat) (b : Body) : State :=
  if s.adm.read ≠ some tag then s.retire tag
  else if (s.sq 0).state ≠ .active then
    (s.retire tag).setAdm { s.adm with read := none }
  else ((s.retire tag).adminEnter (Record.of opcode b)).adminDone .invalidOpcode none

/-- INVALID_OPCODE_ENTRY (R69, R87): in a context for SQ1 to SQ15, in the admin context for SQ0. -/
def execInvalidOpcodeEntry (admin : Bool) (tag : Nat) (opcode : Byte) (b : Body) (s : State) : Result :=
  if codeValid admin opcode then .refused (.illFormed "INVALID_OPCODE_ENTRY")
  else if admin then done (s.adminInvalid opcode tag b)
  else done (s.ioEntry opcode tag b)

end Sys2Proof.Machine
end

