-- ==== Sys2Proof/Machine/Dma.lean ====
section
/-! DEFINITION. Outcomes of accesses to host memory: the rows ENTRY_READ_FAIL, DISCARDED_ENTRY_READ, BUFFER_WRITE_DONE,
RESULT_WRITE_DONE, COMPLETION_WRITE_DONE, COMPLETION_WRITE_FAIL, EVENT_WRITE_DONE and EVENT_WRITE_FAIL (R47, R55, R57 to R59,
R80, R89, R154, R157). An outcome is acted on only by a block that still waits for the access with its tag. No block waits
for one that is not finished 50 ms after its issue: it has failed before the time moves on (R57; `State.passTick`). -/

namespace Sys2Proof.Machine

/-! ### Entry reads -/

/-- The read of a submission entry has failed (R58). The head does not move. -/
def State.readFailed (s : State) (q : SqId) (tag : Nat) : State :=
  if q = 0 then
    if s.adm.read = some tag then (s.retire tag).failEngine else s.retire tag
  else if s.arb.read = some { sq := q, tag := tag } then State.sqError .memory (s.discardRead tag) q
  else s.retire tag

/-- ENTRY_READ_FAIL (R58). -/
def execEntryReadFail (q : SqId) (tag : Nat) (s : State) : Result := done (s.readFailed q tag)

/-- The read of an entry returns for a queue that has left ACTIVE: its record is discarded and the head stays (R55,
R174). -/
def State.readDiscarded (s : State) (q : SqId) (tag : Nat) : State :=
  if (s.sq q).state = .active ∧ (s.arb.read = some { sq := q, tag := tag } ∨ (q = 0 ∧ s.adm.read = some tag)) then s
  else if s.arb.read = some { sq := q, tag := tag } then s.discardRead tag
  else if q = 0 ∧ s.adm.read = some tag then (s.retire tag).setAdm { s.adm with read := none }
  else s.retire tag

/-- DISCARDED_ENTRY_READ (R55, R90, R174). -/
def execDiscardedEntryRead (q : SqId) (tag : Nat) (s : State) : Result := done (s.readDiscarded q tag)

/-! ### Completion writes -/

/-- The tail of a completion queue after a posting: it advances, and at the last slot wraps and inverts the phase (R47,
R48). -/
def Cq.posted (x : Cq) : Cq :=
  { x with tail := nextSlot x.size x.tail, phase := if x.tail + 1 = x.size then !x.phase else x.phase,
           inFlight := none }

/-- The posting in flight of a queue, if it is the one with this tag. -/
def Cq.postingOf (x : Cq) (tag : Nat) : Option ReadyItem :=
  match x.inFlight with
  | some p => if p.tag = tag then some p.item else none
  | none => none

/-- A completion write has succeeded (R47). -/
def State.postingDone (s : State) (c : CqId) (tag : Nat) : State :=
  let x := s.cq c
  match x.postingOf tag with
  | none => s.retire tag
  | some i =>
    let s := s.retire tag
    if x.state = .active then ((s.setCq c x.posted).freeItem i).handVector x.vector
    else (s.setCq c { x with inFlight := none }).freeItem i

/-- COMPLETION_WRITE_DONE (R47). -/
def execCompletionWriteDone (c : CqId) (tag : Nat) (s : State) : Result := done (s.postingDone c tag)

/-- A completion write has failed (R59); for a queue that entered ERROR while it was in flight the outcome is not acted
on, and the context is discarded (R47). -/
def State.postingFailed (s : State) (c : CqId) (tag : Nat) : State :=
  let x := s.cq c
  match x.postingOf tag with
  | none => s.retire tag
  | some i =>
    let s := s.retire tag
    if x.state = .active ∧ c = 0 then s.failEngine
    else
      let s := (s.setCq c { x with inFlight := none }).freeItem i
      if x.state = .active then s.cqError c .memory else s

/-- COMPLETION_WRITE_FAIL (R59). -/
def execCompletionWriteFail (c : CqId) (tag : Nat) (s : State) : Result := done (s.postingFailed c tag)

/-! ### Buffer and result writes -/

/-- The outcome of a READ_BLOCK's buffer write is reported (R80, R105). -/
def State.bufferWritten (s : State) (n : CtxNum) (tag : Nat) (ok : Bool) : State :=
  match s.ctx n with
  | none => s.retire tag
  | some c =>
    if c.buffer = some tag then
      let st := if ok then c.status.getD .success else .bufferError
      let chainHolds : Bool := match c.chain with
        | some m => (s.seg c.seg).holder == some (.chain m.id)
        | none => false
      let s := (s.retire tag).becomeReady n st
      if chainHolds then s.memberEnded c st else s
    else s.retire tag

/-- BUFFER_WRITE_DONE (R80). -/
def execBufferWriteDone (n : CtxNum) (tag : Nat) (ok : Bool) (s : State) : Result := done (s.bufferWritten n tag ok)

/-- The outcome of an admin result record write is reported (R89). -/
def State.resultWritten (s : State) (tag : Nat) (ok : Bool) : State :=
  let s := s.retire tag
  if s.adminAt (.resultWrite tag) then s.adminDone (if ok then .success else .resultBufferError) none else s

/-- RESULT_WRITE_DONE (R89). -/
def execResultWriteDone (tag : Nat) (ok : Bool) (s : State) : Result := done (s.resultWritten tag ok)

/-! ### Event writes -/

/-- The ring after the write in flight has succeeded (R154). -/
def Ring.posted (r : Ring) : Ring :=
  { r with output := r.output.tail, inFlight := none,
           phase := if r.firstOut + 1 = r.size then !r.phase else r.phase }

/-- An event record write has succeeded: the record is posted (R154). -/
def State.eventWritten (s : State) (tag : Nat) : State :=
  let s := s.retire tag
  match s.ev.ring with
  | none => s
  | some r => if r.inFlight = some tag then (s.setRing (some r.posted)).handVector r.vector else s

/-- EVENT_WRITE_DONE (R154). -/
def execEventWriteDone (tag : Nat) (s : State) : Result := done (s.eventWritten tag)

/-- An event record write has failed: the ring is removed (R157). -/
def State.eventFailed (s : State) (tag : Nat) : State :=
  let s := s.retire tag
  match s.ev.ring with
  | none => s
  | some r => if r.inFlight = some tag then s.removeRing else s

/-- EVENT_WRITE_FAIL (R157). -/
def execEventWriteFail (tag : Nat) (s : State) : Result := done (s.eventFailed tag)

/-! ### Failures -/

/-- An access fails, and the failure goes to the rule of the block that asked (R57). -/
def State.failAccess (s : State) (a : Access) (tag : Nat) : State :=
  match a with
  | .entryRead q => s.readFailed q tag
  | .completion c => s.postingFailed c tag
  | .buffer n => s.bufferWritten n tag false
  | .result => s.resultWritten tag false
  | .event => s.eventFailed tag

end Sys2Proof.Machine
end

