-- ==== Sys2Proof/Machine/Timers.lean ====
section
/-! DEFINITION. Timed events: when each comes, and what it does (R12, R57, R81, R82, R99, R102, R116 to R118, R142). A timer
that has been stopped, or that has been set anew, does nothing at the tick for which it was set. -/

namespace Sys2Proof.Machine

/-- What comes at a tick of the time base. -/
inductive TimedEvent where
  /-- A retry delay ends (R12). -/
  | retry (requester : Requester)
  /-- A WAIT_UNTIL's poll interval ends (R81). -/
  | interval (ctx : CtxNum)
  /-- A WAIT_UNTIL's deadline passes (R82). -/
  | deadline (ctx : CtxNum)
  /-- A watch's next due time arrives (R116). -/
  | due (watch : WatchId)
  /-- An access to host memory is not finished within 50 ms (R57). -/
  | limit (access : Access) (tag : Nat)
deriving DecidableEq, Repr

/-- The command that is a timed event. -/
def TimedEvent.command : TimedEvent → Instr
  | .retry r => .retryDelayEnd r
  | .interval n => .pollIntervalEnd n
  | .deadline n => .waitUntilDeadline n
  | .due w => .watchDue w
  | .limit a tag => .dmaAccessTimeout a tag

/-! ### When each comes -/

/-- The tick at which a host context's retry delay ends, while it runs (R12). -/
def State.hostRetryEnd (s : State) (n : CtxNum) : Option Nat :=
  match s.ctx n with
  | some c => if c.state = .retryWait then c.retryEnd else none
  | none => none

/-- The tick at which a poll's retry delay ends, while it runs (R12). -/
def State.pollRetryEnd (s : State) (w : WatchId) : Option Nat :=
  match s.watch w with
  | some x => if x.poll = .retryWait then x.retryEnd else none
  | none => none

/-- The response write of a watch that is in its retry delay (R102). -/
def State.respDelay (s : State) (w : WatchId) : Option RespDelay :=
  match s.watch w with
  | some x => (s.seg x.cfg.tgt.seg).respDelays.find? (fun d => d.write.watch == w)
  | none => none

/-- The tick at which the retry delay of a target's replay write ends, while it runs (R142). -/
def State.replayRetryEnd (s : State) (t : Tgt) : Option Nat :=
  match s.job t with
  | some j => j.retryEnd
  | none => none

/-- The tick at which a retry delay ends, while it runs (R12). -/
def State.retryEnd (s : State) (r : Requester) : Option Nat :=
  match r with
  | .host n => s.hostRetryEnd n
  | .poll w => s.pollRetryEnd w
  | .response w => (s.respDelay w).map (·.retryEnd)
  | .replay t => s.replayRetryEnd t

/-- The tick at which a WAIT_UNTIL's poll interval ends, while it runs (R81). -/
def State.intervalEnd (s : State) (n : CtxNum) : Option Nat :=
  match s.ctx n with
  | some c => if c.state = .pollWait then c.pollEnd.map (10 * ·) else none
  | none => none

/-- The tick at which a WAIT_UNTIL's deadline passes, while the deadline stands (R82). -/
def State.deadlineEnd (s : State) (n : CtxNum) : Option Nat :=
  match s.ctx n with
  | some c => c.deadline.map (10 * ·)
  | none => none

/-- The tick at which a watch is next due, while it is ARMED (R116). -/
def State.dueEnd (s : State) (w : WatchId) : Option Nat :=
  match s.watch w with
  | some x => if x.state = .armed then x.nextDue.map (10 * ·) else none
  | none => none

/-- 50 ms in ticks of the 10 µs base (R57). -/
def dmaLimit : Nat := 5000

/-- The tick 50 ms after the issue of the access with this tag, or of the oldest, while it is outstanding (R57; log entry
3). -/
def State.limitEnd (s : State) (tag : Nat) : Option Nat :=
  ((s.link.outstanding.filter fun d => d.tag == tag).map (·.issued)).min?.map (· + dmaLimit)

/-- The tick at which a timed event comes, while its timer runs. -/
def State.comesAt (s : State) (e : TimedEvent) : Option Nat :=
  match e with
  | .retry r => s.retryEnd r
  | .interval n => s.intervalEnd n
  | .deadline n => s.deadlineEnd n
  | .due w => s.dueEnd w
  | .limit _ tag => s.limitEnd tag

/-- A timed event has come: its timer runs, and its tick is here. -/
def State.hasCome (s : State) (e : TimedEvent) : Bool :=
  match s.comesAt e with
  | some t => t ≤ s.ticks
  | none => false

/-! ### What each does -/

/-- Whether a context's segment is held by the context or by its chain, so that its retry is the holder's next frame
(R99, R103). -/
def State.holdsSegment (s : State) (c : Ctx) : Bool := c.holderOf.isSome && (s.seg c.seg).holder == c.holderOf

/-- A host context's retry is offered at the head of the host command class, or is the holder's next frame (R12, R99). -/
def State.offerHostRetry (s : State) (n : CtxNum) : State :=
  match s.ctx n with
  | none => s
  | some c =>
    let s := s.updCtx n fun c => { c with retryEnd := none }
    if s.holdsSegment c then s else s.updSeg c.seg fun y => { y with offered := y.offered ++ [n] }

/-- A watch whose poll was in its retry delay returns to the due-poll list (R117). -/
def State.listPollRetry (s : State) (w : WatchId) : State :=
  match s.watch w with
  | none => s
  | some x =>
    (s.setWatch w (some { x with poll := .listed, retryEnd := none })).updSeg x.cfg.tgt.seg fun y =>
      { y with duePolls := insertRetried { watch := w, due := s.now, retried := true } y.duePolls }

/-- A response write in its retry delay returns to the head of the internal write list (R102). -/
def State.offerResponse (s : State) (w : WatchId) : State :=
  match s.watch w, s.respDelay w with
  | some x, some d => s.updSeg x.cfg.tgt.seg fun y =>
      { y with respDelays := y.respDelays.erase d, writes := .response d.write :: y.writes }
  | _, _ => s

/-- A job whose replay write was in its retry delay goes to the head of the internal write list (R102, R142). -/
def State.offerReplay (s : State) (t : Tgt) : State :=
  (s.updJob t fun j => { j with retryEnd := none }).updSeg t.seg fun y => { y with writes := .job t :: y.writes }

/-- A retry delay has ended: the request is offered again (R12). -/
def State.offerRetry (s : State) (r : Requester) : State :=
  match r with
  | .host n => s.offerHostRetry n
  | .poll w => s.listPollRetry w
  | .response w => s.offerResponse w
  | .replay t => s.offerReplay t

/-- A WAIT_UNTIL that was waiting out its poll interval is offered at the head of the host command class (R81, R99). -/
def State.offerPollWait (s : State) (n : CtxNum) : State :=
  match s.ctx n with
  | none => s
  | some c =>
    (s.updCtx n fun c => { c with pollEnd := none }).updSeg c.seg fun y => { y with offered := y.offered ++ [n] }

/-- A WAIT_UNTIL's deadline passes (R82): a waiting context ends CONDITION_TIMEOUT; a frame on the wire runs to its end. -/
def State.passDeadline (s : State) (n : CtxNum) : State :=
  match s.ctx n with
  | none => s
  | some c =>
    match c.state with
    | .pollWait => s.endCommand n .conditionTimeout
    | .retryWait => s.endCommand n .conditionTimeout
    | _ => s.updCtx n fun c => { c with deadline := none, deadlinePassed := true }

/-- The next due time of an ARMED watch arrives (R116, R118). -/
def State.becomeDue (s : State) (w : WatchId) : State :=
  match s.watch w with
  | none => s
  | some x =>
    match x.nextDue with
    | none => s
    | some d =>
      if x.poll = .none then
        (s.setWatch w (some { x with poll := .listed, nextDue := some (d + x.cfg.interval) })).updSeg x.cfg.tgt.seg
          fun y => { y with duePolls := insertDue { watch := w, due := d, retried := false } y.duePolls }
      else
        s.setWatch w (some { x with overrun := true, nextDue := none, overrunCount := min (x.overrunCount + 1) 255 })

/-- What a timed event that has come does. -/
def State.take (s : State) (e : TimedEvent) : State :=
  match e with
  | .retry r => s.offerRetry r
  | .interval n => s.offerPollWait n
  | .deadline n => s.passDeadline n
  | .due w => s.becomeDue w
  | .limit a tag => s.failAccess a tag

/-! ### Those that have come -/

/-- The timed events of a segment: the retry delays of response writes. -/
def State.segTimers (s : State) (g : SegId) : List TimedEvent :=
  (s.seg g).respDelays.map fun d => .retry (.response d.write.watch)

/-- The timed events of a context. -/
def Ctx.timers (c : Ctx) : List TimedEvent := [.retry (.host c.num), .interval c.num, .deadline c.num]

/-- The watch ids in use, in rising order. -/
def State.watchesInUse (s : State) : List WatchId :=
  ((watchIds.zip s.watches.toList).filter fun p => p.2.isSome).map (·.1)

/-- The timed events of a watch. -/
def watchTimers (w : WatchId) : List TimedEvent := [.due w, .retry (.poll w)]

/-- The timed events that have come, in the order in which they are taken at one tick (log entry 3). -/
def State.timedEvents (s : State) : List TimedEvent :=
  (segIds.flatMap s.segTimers ++ s.ctxs.flatMap Ctx.timers ++ s.watchesInUse.flatMap watchTimers ++
    s.jobs.map (fun j => TimedEvent.retry (.replay j.tgt)) ++
    s.link.outstanding.map fun d => TimedEvent.limit d.access d.tag).filter s.hasCome

end Sys2Proof.Machine
end

