-- ==== Sys2Proof/Machine/Clock.lean ====
section
/-! DEFINITION. The 10 µs time base: what happens as each tick passes, whatever moves the time on, and the rows of timed
events, RETRY_DELAY_END, POLL_INTERVAL_END, WAIT_UNTIL_DEADLINE, WATCH_DUE and DMA_ACCESS_TIMEOUT. The time does not move on
past a timed event that has come and not been taken; at every tick segments sample HDA, and a segment that is stuck goes
to FAULTED (R12 to R14, R57, R81, R82, R116). -/

namespace Sys2Proof.Machine

/-- What the lines read: whether the line of a segment reads low at a tick. -/
abbrev LineReads := SegId → Nat → Bool

/-- What the lines read is open (log entry 4). -/
def LineReads.free : LineReads := fun g tick => Config.hdaLow g.val tick

/-- The lines, but that the line of segment `g` reads low at every tick (log entry 26). -/
def LineReads.heldLow (low : LineReads) (g : SegId) : LineReads := fun k tick => k == g || low k tick

/-- A stuck segment goes to FAULTED; any other is left (R13, R14). -/
def State.faultIfStuck (s : State) (g : SegId) : State := if (s.seg g).stuck then s.faultSegment g else s

/-- The next tick comes, and every segment samples its line (R13). -/
def State.sampleLines (low : LineReads) (s : State) : State :=
  { s with
    ticks := s.ticks + 1
    segs := tableMapAt (fun g y => y.sample (low g (s.ticks + 1))) s.segs }

/-- A timed event, if it has come, is taken, and what follows by itself is made; any other is left. -/
def State.takeIfCome (s : State) (e : TimedEvent) : State := if s.hasCome e then (s.take e).settle else s

/-- Every timed event that has come is taken, one after another, unless one before it has stopped it (log entry 3). -/
def State.takeTimed (s : State) : State := s.timedEvents.foldl State.takeIfCome s

/-- One tick passes. First every timed event that has come and not been taken is taken, so that none is left behind: an
access that is not finished 50 ms after its issue has failed, a deadline has passed, a retry is offered (R12, R57, R81, R82,
R116). Then the tick comes, every segment samples its line, and every segment that is stuck goes to FAULTED, in rising order
(R13, R14; the orders: log entry 3). -/
def State.passTick (low : LineReads) (s : State) : State :=
  (segIds.foldl State.faultIfStuck (s.takeTimed.sampleLines low)).settle

/-- So many ticks pass, one after another. -/
def State.passTicks (low : LineReads) : Nat → State → State
  | 0, s => s
  | n + 1, s => State.passTicks low n (s.passTick low)

/-- Time moves on to at least tick `t` of the 10 µs base, tick by tick: a timed event is taken no earlier than its tick (log
entry 3). -/
def State.advance (s : State) (t : Nat) : State := s.passTicks LineReads.free (t - s.ticks)

/-- A timed event given as a command: time moves on to its tick, and the event is taken if its timer then still runs. -/
def State.await (s : State) (e : TimedEvent) : State :=
  match s.comesAt e with
  | none => s
  | some t => if (s.advance t).hasCome e then (s.advance t).take e else s.advance t

/-- RETRY_DELAY_END (R12). -/
def execRetryDelayEnd (r : Requester) (s : State) : Result := done (s.await (.retry r))

/-- POLL_INTERVAL_END (R81). -/
def execPollIntervalEnd (n : CtxNum) (s : State) : Result := done (s.await (.interval n))

/-- WAIT_UNTIL_DEADLINE (R82). -/
def execWaitUntilDeadline (n : CtxNum) (s : State) : Result := done (s.await (.deadline n))

/-- WATCH_DUE (R116). -/
def execWatchDue (w : WatchId) (s : State) : Result := done (s.await (.due w))

/-- An access not finished within 50 ms fails: time moves on to the tick of the limit, and the failure goes to the rule of
the block that asked (R57). -/
def State.timedOut (s : State) (a : Access) (tag : Nat) : State :=
  match s.limitEnd tag with
  | some t => (s.advance t).failAccess a tag
  | none => s.failAccess a tag

/-- DMA_ACCESS_TIMEOUT (R57). -/
def execDmaAccessTimeout (a : Access) (tag : Nat) (s : State) : Result := done (s.timedOut a tag)

/-- One tick of the 10 µs time base with no command waiting; the timed events that have come with it join the queue as
commands (R12, R13, R57, R81, R82, R116; log entry 3). -/
def State.tick (s : State) : State :=
  let s := s.passTick LineReads.free
  { s with pending := s.pending ++ s.timedEvents.map (·.command) }

end Sys2Proof.Machine
end

