-- ==== Sys2Proof/Machine/Lines.lean ====
section
/-! DEFINITION. The two lines of a segment as the engine drives them, at every moment: HCK and HDA at rest, in idle bit
times, in the bit times of a frame and in recovery pulses (R1, R3 to R8, R14, R15, R17 to R19, R21, 11.2). -/

namespace Sys2Proof.Machine

/-- The two halves of a bit time, the low half first (R1). -/
inductive BitHalf where
  | low
  | high
deriving DecidableEq, Repr

/-- What the engine does with HDA: drive it low, or release it (R1). -/
inductive HdaDrive where
  | low
  | released
deriving DecidableEq, Repr

/-- Where a segment stands in the sequence of bit times on its lines. Bit times are not counted by the state, so a moment
is given from outside (log entry 10): at rest, in an idle bit time, in the `k`-th bit time of the frame on the wire
(counted from 0), or in a recovery pulse. -/
inductive LineMoment where
  | rest
  | idleBit (half : BitHalf)
  | frameBit (k : Nat) (half : BitHalf)
  | pulse (half : BitHalf)
deriving DecidableEq, Repr

/-- The level of HCK, which the engine alone drives, and what the engine does with HDA (R1). -/
structure Lines where
  hckHigh : Bool
  hda     : HdaDrive
deriving DecidableEq, Repr

/-- The lines at rest, as every segment holds them outside frames, idle bit times and recovery pulses (R1, R15, R21). -/
def Lines.atRest : Lines := { hckHigh := true, hda := .released }

/-- The bit that the engine sends in the `k`-th bit time of its frame, most significant bit of each field first; none in
the bit times of turnaround, answer and read data, which are the target's (R1, R3, R5 to R7, 11.2). -/
def Wire.sends (w : Wire) (k : Nat) : Option Bool :=
  if k < 22 then some (w.header.getMsbD k)
  else match w.payload with
    | some p => if k < 39 then some (p.getMsbD (k - 22)) else none
    | none => none

/-- Whether the engine samples HDA in the `k`-th bit time of a frame: the answer bits, and the data and parity bits of a
READ answered ACCEPT; the turnaround is not sampled (R5 to R7, 11.2). -/
def FrameKind.samples (kind : FrameKind) (accepted : Bool) (k : Nat) : Bool :=
  match kind with
  | .write => k == 41 || k == 42
  | .read => k == 24 || k == 25 || (accepted && 26 ≤ k && k ≤ 42)
  | .broadcast => false

/-- To send a 0 the engine drives HDA low; to send a 1, and in the bit times of the target, it releases HDA (R1). -/
def HdaDrive.ofBit : Option Bool → HdaDrive
  | some false => .low
  | _ => .released

/-- The moments that a segment's state allows. Frames are on the wire of an ACTIVE or a DRAINING segment, idle bit times
belong to ACTIVE and to the end of a recovery, pulses to RECOVERING; a segment in OFF or FAULTED is at rest (R8, R14,
R15, R17 to R19, R21). -/
def SegCtl.allows (y : SegCtl) : LineMoment → Bool
  | .rest => y.wire.isNone && y.state != .recovering
  | .idleBit _ => y.wire.isNone && (y.state == .active || (y.state == .recovering && y.recoveryIdle))
  | .frameBit k _ => match y.wire with
    | some w => k < w.kind.bitTimes true
    | none => false
  | .pulse _ => y.state == .recovering && !y.recoveryIdle

/-- The lines of a segment at a moment: in every bit time HCK is low and then high, and otherwise high; HDA is driven low
only to send a 0 of the frame on the wire (R1, R19). -/
def SegCtl.lines (y : SegCtl) : LineMoment → Lines
  | .rest => Lines.atRest
  | .idleBit half => { hckHigh := half == .high, hda := .released }
  | .pulse half => { hckHigh := half == .high, hda := .released }
  | .frameBit k half =>
    { hckHigh := half == .high
      hda := HdaDrive.ofBit (match y.wire with
        | some w => w.sends k
        | none => none) }

end Sys2Proof.Machine
end

