-- ==== Sys2Proof/Machine/Frames.lean ====
section
/-! DEFINITION. What happens on the wire: the rows FRAME_BOUNDARY, FRAME_ATTEMPT_END, BROADCAST_FRAME_END,
STUCK_LINE_DETECTED, RECOVERY_PULSE_END and RECOVERY_IDLE_END (R7, R8, R11, R14, R19, R100). -/

namespace Sys2Proof.Machine

/-- FRAME_BOUNDARY (R100). -/
def execFrameBoundary (g : SegId) (s : State) : Result := done (s.boundary g)

/-- FRAME_ATTEMPT_END (R11). The answer bits, and on an answered READ the data and parity bits, are what the engine sampled;
the data of any other attempt is not looked at. -/
def execFrameAttemptEnd (g : SegId) (answer : BitVec 2) (data : Half) (parity : Bool) (s : State) : Result :=
  done (s.attemptEnd g answer data parity)

/-- BROADCAST_FRAME_END (R7). -/
def execBroadcastFrameEnd (g : SegId) (s : State) : Result := done (s.broadcastEnd g)

/-- The samples that a segment's line must still read low, one at each tick, for its stuck count to reach its stuck time
(R13). -/
def SegCtl.samplesToStuck (y : SegCtl) : Nat := y.settings.stuckTime - y.stuckCount

/-- The stuck count of a segment that monitors HDA reaches its stuck time, and the segment goes to FAULTED (R13, R14): the
line of the segment reads low at every tick that this still takes, and the other segments sample their own lines at them
(log entry 26). A segment in another state, or with a frame on its wire, is not monitored. -/
def State.stuckLine (s : State) (g : SegId) : State :=
  let y := s.seg g
  if y.monitors then (s.passTicks (LineReads.free.heldLow g) y.samplesToStuck).faultIfStuck g else s

/-- STUCK_LINE_DETECTED (R14). -/
def execStuckLineDetected (g : SegId) (s : State) : Result := done (s.stuckLine g)

/-- The SEGMENT_RECOVER in execution for a segment, if there is one, completes. -/
def State.recoverDone (s : State) (g : SegId) (st : Status) : State :=
  if s.adminAt (.recovering g) then s.adminDone st none else s

/-- A recovery pulse ends and HDA is sampled (R19). -/
def State.pulseEnd (s : State) (g : SegId) (hdaHigh : Bool) : State :=
  let y := s.seg g
  if y.state = .recovering ∧ ¬ y.recoveryIdle then
    if hdaHigh then s.setSeg g { y with recoveryIdle := true }
    else if 16 ≤ y.pulseCount then (s.setSeg g { y with state := .faulted }).recoverDone g .recoveryFailed
    else s.setSeg g { y with pulseCount := y.pulseCount + 1 }
  else s

/-- RECOVERY_PULSE_END (R19). -/
def execRecoveryPulseEnd (g : SegId) (hdaHigh : Bool) (s : State) : Result := done (s.pulseEnd g hdaHigh)

/-- The 8 idle bit times after a successful recovery end (R19). -/
def State.recoveryEnd (s : State) (g : SegId) : State :=
  let y := s.seg g
  if y.state = .recovering ∧ y.recoveryIdle then
    (((s.setSeg g y.activated).handEvent (.segmentRecovered g)).rearmWatches g).recoverDone g .success
  else s

/-- RECOVERY_IDLE_END (R19). -/
def execRecoveryIdleEnd (g : SegId) (s : State) : Result := done (s.recoveryEnd g)

end Sys2Proof.Machine
end

