-- ==== Sys2Proof/Machine/Registers.lean ====
section
/-! DEFINITION. Writes to the other registers of the window, and what every register reads: the rows
ADMIN_QUEUE_REGISTER_WRITE, SQ_TAIL_WRITE, CQ_HEAD_WRITE, EQ_HEAD_WRITE, INTERRUPT_MASK_SET_WRITE,
INTERRUPT_MASK_CLEAR_WRITE, INTERRUPT_PENDING_WRITE and REGISTER_WRITE_OTHER (R41, R44, R49, R60, R61, R155, R162,
R163, R193). -/

namespace Sys2Proof.Machine

/-- ADMIN_QUEUE_REGISTER_WRITE: taken in IDLE, ignored in any other engine state (R41). ADMIN_QUEUE_SIZES takes the low
four byte enables. -/
def execAdminQueueRegisterWrite (reg : AdminReg) (enables : BitVec 8) (value : BitVec 64) (s : State) : Result :=
  if s.ctl.engine = .idle then
    match reg with
    | .sqBase => .next { s with ctl := { s.ctl with adminSqBase := replaceBytes enables value s.ctl.adminSqBase } }
    | .cqBase => .next { s with ctl := { s.ctl with adminCqBase := replaceBytes enables value s.ctl.adminCqBase } }
    | .sizes =>
      .next { s with ctl := { s.ctl with
        adminSizes := ({ enables := enables.extractLsb' 0 4, value := value.extractLsb' 0 32 } : RegWrite).onto
          s.ctl.adminSizes } }
  else .next s

/-- An index register after a write, as a number: the whole register (R44, R193). -/
def indexAfter (w : RegWrite) (old : Nat) : Nat := (w.onto (BitVec.ofNat 32 old)).toNat

/-- Whether register writes to queue indexes are taken: not in IDLE and not in FAILED (R44, R49, R155). -/
def EngineState.takesIndexes : EngineState → Bool
  | .idle => false
  | .failed => false
  | _ => true

/-- A write to SQ_TAIL[n] (R44, R54). -/
def State.writeTail (s : State) (q : SqId) (w : RegWrite) : State :=
  let x := s.sq q
  if s.ctl.engine.takesIndexes ∧ x.state = .active then
    let v := indexAfter w x.tail
    if v < x.size then s.setSq q { x with tail := v } else s.sqError .badIndex q
  else s

/-- SQ_TAIL_WRITE (R44). -/
def execSqTailWrite (q : SqId) (w : RegWrite) (s : State) : Result := done (s.writeTail q w)

/-- A vector is re-raised when records stay unreleased (R164). -/
def State.reRaise (s : State) (v : VecId) (unreleased : Nat) : State := if 0 < unreleased then s.handVector v else s

/-- A write to CQ_HEAD[n] (R49, R54, R164). -/
def State.writeHead (s : State) (c : CqId) (w : RegWrite) : State :=
  let x := s.cq c
  if s.ctl.engine.takesIndexes ∧ x.state = .active then
    let v := indexAfter w x.head
    if v < x.size ∧ slotsBetween x.size x.head v ≤ x.unreleased then
      let x := { x with head := v }
      (s.setCq c x).reRaise x.vector x.unreleased
    else s.cqError c .badIndex
  else s

/-- CQ_HEAD_WRITE (R49). -/
def execCqHeadWrite (c : CqId) (w : RegWrite) (s : State) : Result := done (s.writeHead c w)

/-- A write to EQ_HEAD (R155, R156, R157, R164). -/
def State.writeEventHead (s : State) (w : RegWrite) : State :=
  if s.ctl.engine.takesIndexes then
    match s.ev.ring with
    | none => s
    | some r =>
      let v := indexAfter w r.head
      if v < r.size ∧ slotsBetween r.size r.head v ≤ r.unreleased then
        let r := { r with head := v }
        (s.setRing (some r)).drain.reRaise r.vector r.unreleased
      else s.removeRing
  else s

/-- EQ_HEAD_WRITE (R155). -/
def execEqHeadWrite (w : RegWrite) (s : State) : Result := done (s.writeEventHead w)

/-- The eight vector bits of a value written to an interrupt register (R162, R163). -/
def vectorBits (w : RegWrite) : BitVec 8 := w.written.extractLsb' 0 8

/-- INTERRUPT_MASK_SET_WRITE (R162). -/
def execInterruptMaskSetWrite (w : RegWrite) (s : State) : Result :=
  .next { s with irq := s.irq.maskSet (vectorBits w) }

/-- INTERRUPT_MASK_CLEAR_WRITE (R162). -/
def execInterruptMaskClearWrite (w : RegWrite) (s : State) : Result :=
  .next { s with irq := s.irq.maskClear (vectorBits w) }

/-- INTERRUPT_PENDING_WRITE (R163). -/
def execInterruptPendingWrite (w : RegWrite) (s : State) : Result :=
  .next { s with irq := s.irq.pendingClear (vectorBits w) }

/-- REGISTER_WRITE_OTHER: a write to ENGINE_STATUS or to an offset that holds no register is ignored (R60, R181). -/
def execRegisterWriteOther (offset : Nat) (_w : RegWrite) (s : State) : Result :=
  if offsetOther offset then .next s else .refused (.illFormed "REGISTER_WRITE_OTHER")

/-! ### Reads (R60, R61, R162, R163, R180, R181, R193, 11.7) -/

/-- ENGINE_STATUS as it reads (R181). -/
def State.statusWord (s : State) : BitVec 32 :=
  BitVec.ofNat 32 (s.ctl.engine.code + 16 * s.ctl.cause.code + (if s.adm.ctx.isSome then 128 else 0) +
    256 * s.ctxs.length + 65536 * s.jobs.length)

/-- The value of the 4 bytes at an offset of the register window, a multiple of 4. A read has no side effect (R60). -/
def State.readWord (s : State) (offset : Nat) : BitVec 32 :=
  if offset = 0x000 then s.ctl.controlWord
  else if offset = 0x004 then s.statusWord
  else if offset = 0x008 then s.ctl.adminSizes
  else if offset = 0x010 then s.ctl.adminSqBase.extractLsb' 0 32
  else if offset = 0x014 then s.ctl.adminSqBase.extractLsb' 32 32
  else if offset = 0x018 then s.ctl.adminCqBase.extractLsb' 0 32
  else if offset = 0x01C then s.ctl.adminCqBase.extractLsb' 32 32
  else if offset = 0x020 then s.irq.mask.setWidth 32
  else if offset = 0x024 then s.irq.mask.setWidth 32
  else if offset = 0x028 then s.irq.pending.setWidth 32
  else if offset = 0x02C then
    match s.ev.ring with
    | some r => BitVec.ofNat 32 r.head
    | none => 0
  else if offset % 4 ≠ 0 then 0
  else if h : 0x040 ≤ offset ∧ offset < 0x080 then
    BitVec.ofNat 32 (s.sq ⟨(offset - 0x040) / 4, by omega⟩).tail
  else if h : 0x080 ≤ offset ∧ offset < 0x0A0 then
    BitVec.ofNat 32 (s.cq ⟨(offset - 0x080) / 4, by omega⟩).head
  else 0

end Sys2Proof.Machine
end

