-- ==== Sys2Proof/Machine/Dispatch.lean ====
section
/-! DEFINITION. One arm per command, in the order of spec/opcode_table.json. -/

namespace Sys2Proof.Machine

def exec (i : Instr) (s : State) : Host.Outcome State Fault Refusal :=
  match i with
  | .powerOnReset => Sys2Proof.Machine.execPowerOnReset s
  | .hostLinkReset => Sys2Proof.Machine.execHostLinkReset s
  | .msiConfigChange on vectors => Sys2Proof.Machine.execMsiConfigChange on vectors s
  | .enable w => Sys2Proof.Machine.execEnable w s
  | .enableResume w => Sys2Proof.Machine.execEnableResume w s
  | .pause w => Sys2Proof.Machine.execPause w s
  | .reset w => Sys2Proof.Machine.execReset w s
  | .adminQueueRegisterWrite reg enables value => Sys2Proof.Machine.execAdminQueueRegisterWrite reg enables value s
  | .sqTailWrite q w => Sys2Proof.Machine.execSqTailWrite q w s
  | .cqHeadWrite c w => Sys2Proof.Machine.execCqHeadWrite c w s
  | .eqHeadWrite w => Sys2Proof.Machine.execEqHeadWrite w s
  | .interruptMaskSetWrite w => Sys2Proof.Machine.execInterruptMaskSetWrite w s
  | .interruptMaskClearWrite w => Sys2Proof.Machine.execInterruptMaskClearWrite w s
  | .interruptPendingWrite w => Sys2Proof.Machine.execInterruptPendingWrite w s
  | .registerWriteOther offset w => Sys2Proof.Machine.execRegisterWriteOther offset w s
  | .createSq tag b => Sys2Proof.Machine.execCreateSq tag b s
  | .deleteSq tag b => Sys2Proof.Machine.execDeleteSq tag b s
  | .createCq tag b => Sys2Proof.Machine.execCreateCq tag b s
  | .deleteCq tag b => Sys2Proof.Machine.execDeleteCq tag b s
  | .segmentSetup tag b => Sys2Proof.Machine.execSegmentSetup tag b s
  | .segmentOn tag b => Sys2Proof.Machine.execSegmentOn tag b s
  | .segmentOff tag b => Sys2Proof.Machine.execSegmentOff tag b s
  | .segmentRecover tag b => Sys2Proof.Machine.execSegmentRecover tag b s
  | .querySegment tag b => Sys2Proof.Machine.execQuerySegment tag b s
  | .queryTarget tag b => Sys2Proof.Machine.execQueryTarget tag b s
  | .watchAdd tag b => Sys2Proof.Machine.execWatchAdd tag b s
  | .watchRemove tag b => Sys2Proof.Machine.execWatchRemove tag b s
  | .watchArm tag b => Sys2Proof.Machine.execWatchArm tag b s
  | .queryWatch tag b => Sys2Proof.Machine.execQueryWatch tag b s
  | .restoreAdd tag b => Sys2Proof.Machine.execRestoreAdd tag b s
  | .restoreDrop tag b => Sys2Proof.Machine.execRestoreDrop tag b s
  | .configureEvents tag b => Sys2Proof.Machine.execConfigureEvents tag b s
  | .abort tag b => Sys2Proof.Machine.execAbort tag b s
  | .read tag b => Sys2Proof.Machine.execRead tag b s
  | .write tag b => Sys2Proof.Machine.execWrite tag b s
  | .maskedWrite tag b => Sys2Proof.Machine.execMaskedWrite tag b s
  | .broadcastWrite tag b => Sys2Proof.Machine.execBroadcastWrite tag b s
  | .readBlock tag b => Sys2Proof.Machine.execReadBlock tag b s
  | .waitUntil tag b => Sys2Proof.Machine.execWaitUntil tag b s
  | .fence tag b => Sys2Proof.Machine.execFence tag b s
  | .entryReadFail q tag => Sys2Proof.Machine.execEntryReadFail q tag s
  | .dmaAccessTimeout access tag => Sys2Proof.Machine.execDmaAccessTimeout access tag s
  | .frameBoundary g => Sys2Proof.Machine.execFrameBoundary g s
  | .frameAttemptEnd g answer data parity => Sys2Proof.Machine.execFrameAttemptEnd g answer data parity s
  | .broadcastFrameEnd g => Sys2Proof.Machine.execBroadcastFrameEnd g s
  | .retryDelayEnd r => Sys2Proof.Machine.execRetryDelayEnd r s
  | .pollIntervalEnd n => Sys2Proof.Machine.execPollIntervalEnd n s
  | .waitUntilDeadline n => Sys2Proof.Machine.execWaitUntilDeadline n s
  | .watchDue w => Sys2Proof.Machine.execWatchDue w s
  | .stuckLineDetected g => Sys2Proof.Machine.execStuckLineDetected g s
  | .recoveryPulseEnd g hdaHigh => Sys2Proof.Machine.execRecoveryPulseEnd g hdaHigh s
  | .recoveryIdleEnd g => Sys2Proof.Machine.execRecoveryIdleEnd g s
  | .bufferWriteDone n tag ok => Sys2Proof.Machine.execBufferWriteDone n tag ok s
  | .resultWriteDone tag ok => Sys2Proof.Machine.execResultWriteDone tag ok s
  | .completionWriteDone c tag => Sys2Proof.Machine.execCompletionWriteDone c tag s
  | .completionWriteFail c tag => Sys2Proof.Machine.execCompletionWriteFail c tag s
  | .eventWriteDone tag => Sys2Proof.Machine.execEventWriteDone tag s
  | .eventWriteFail tag => Sys2Proof.Machine.execEventWriteFail tag s
  | .invalidOpcodeEntry admin tag opcode b => Sys2Proof.Machine.execInvalidOpcodeEntry admin tag opcode b s
  | .discardedEntryRead q tag => Sys2Proof.Machine.execDiscardedEntryRead q tag s
  | .engineControlWrite w => Sys2Proof.Machine.execEngineControlWrite w s

end Sys2Proof.Machine
end

