-- ==== Sys2Proof/Safety.lean ====
section
/-! DEFINITION. What the statements about the machine speak of: the invariants that every step keeps, the part of the
state that stands still while a step settles, and the situations in which a command is taken. -/

namespace Sys2Proof.Machine

/-! ### Invariants -/

/-- The restore pool in its one form: entries in rising order of segment, target and index, no two with the same, and at
most 384 of them (R133, R134). -/
def State.poolInv (s : State) : Prop :=
  s.pool.Pairwise (fun a b => a.key < b.key) ∧ s.pool.length ≤ poolSize

/-- Every miss count lies in 0 to 7 (R22). -/
def State.missInv (s : State) : Prop := ∀ t, (s.pres t).miss ≤ 7

/-- No segment is left stuck: every stuck time is at least 1, every stuck count lies below it, and the count of a segment
that is not ACTIVE is 0 (R13, R14, R16). -/
def State.stuckInv (s : State) : Prop :=
  ∀ g, 1 ≤ (s.seg g).settings.stuckTime ∧ (s.seg g).stuckCount < (s.seg g).settings.stuckTime ∧
    ((s.seg g).state ≠ .active → (s.seg g).stuckCount = 0)

/-- No two contexts out of FREE carry one number, so that at most 64 are out of FREE (R63). -/
def State.distinct (s : State) : Prop := (s.ctxs.map (·.num)).Nodup

/-! ### What stands still while a step settles

After a command's own effect a step lets follow what follows by itself (`State.settle`): postings and event writes are
issued, entries fetched, contexts moved between lists, a deletion or a pause completed. `State.standing` keeps of a state
all that none of this changes, so that a command's effect can be stated whole: the state it leaves stands as the state its
rule describes. -/

/-- A segment controller but for its lists of contexts and its holder. -/
def SegCtl.standing (y : SegCtl) : SegCtl := { y with pendingList := [], offered := [], holder := none }

/-- A submission queue but for its staging slot; a queue being deleted counts as ABSENT. -/
def Sq.standing (x : Sq) : Sq := if x.state = .deleting then Sq.absent else { x with staging := none }

/-- A completion queue but for its ready list and its posting in flight. -/
def Cq.standing (x : Cq) : Cq := { x with ready := [], inFlight := none }

/-- The Event Unit but for its write in flight. -/
def EventUnit.standing (u : EventUnit) : EventUnit := { u with ring := u.ring.map fun r => { r with inFlight := none } }

/-- Engine control; PAUSED counts as PAUSING, into which it settles. -/
def Control.standing (c : Control) : Control :=
  { c with engine := if c.engine = .paused then .pausing else c.engine }

/-- The part of the state that settling leaves alone. It leaves out the contexts, the fetch arbiter, the chain-fetch lock,
the Admin Executor and the Link Interface, of which statements speak by themselves. -/
def State.standing (s : State) : State :=
  { s with
    ctl := s.ctl.standing
    sqs := tableMap Sq.standing s.sqs
    cqs := tableMap Cq.standing s.cqs
    arb := FetchArb.afterReset
    lock := none
    ctxs := []
    adm := { ctx := none, read := none }
    segs := tableMap SegCtl.standing s.segs
    ev := s.ev.standing
    link := { next := 0, outstanding := [] } }

/-- A context that settling does not move: it waits for no fence, no place in a list and no chain. -/
def Ctx.calm (c : Ctx) : Prop :=
  c.state ≠ .fenceWait ∧ c.state ≠ .staged ∧ (c.state = .pending → c.chain = none)

/-- A completion waits in a completion queue's ready list, or its write is in flight (R47, R50). -/
def Cq.owes (x : Cq) (i : ReadyItem) : Prop := i ∈ x.ready ∨ ∃ p, x.inFlight = some p ∧ p.item = i

/-! ### Resets -/

/-- Every block at the values its chapter gives for a reset, but for what a reset may keep: the segment settings, the
presence entries, the restore pool, the inputs from configuration space and the host link (R62, R67, R85, R90, R111, R150,
R160, R180, R181). -/
def State.blocksReset (t : State) : Prop :=
  t.ctl = { engine := .idle, cause := .none, enable := false, keepTargets := false, adminSqBase := 0, adminCqBase := 0,
            adminSizes := 0 } ∧
  (∀ q, t.sq q = Sq.absent) ∧ (∀ c, t.cq c = Cq.absent) ∧
  t.arb = { rotation := none, turn := none, count := 0, read := none } ∧ t.lock = none ∧ t.ctxs = [] ∧
  t.adm = { ctx := none, read := none } ∧ (∀ g, t.seg g = SegCtl.afterReset (t.seg g).settings) ∧
  (∀ w, t.watch w = none) ∧ t.jobs = [] ∧ t.ev = { ring := none, backlog := [], lost := 0 } ∧
  t.irq.mask = 0xFF ∧ t.irq.pending = 0

/-- The segment settings, the presence entries and the restore pool at their values of power-on reset (R21, R35, R149). -/
def State.targetsReset (t : State) : Prop :=
  (∀ g, (t.seg g).settings = Settings.default) ∧ (∀ x, t.pres x = { state := .unknown, miss := 0 }) ∧ t.pool = []

/-- The engine is quiet: the six conditions of R185. -/
def State.isQuiet (s : State) : Prop :=
  s.ctxs = [] ∧ s.adm.ctx = none ∧ s.arb.read = none ∧ s.adm.read = none ∧
  (∀ w x, s.watch w = some x → x.state ≠ .armed) ∧
  (∀ g, (s.seg g).writes = [] ∧ (s.seg g).respDelays = [] ∧ (s.seg g).wire = none) ∧ s.jobs = []

/-! ### Situations -/

/-- A ring of a queue may stand at this base with this size: a base that is a multiple of 64, a size of 4 to 1024, and an
end that does not pass the top of the address space (R42, R51, R52). -/
abbrev ringAllowed (base : Addr) (size record : Nat) : Prop :=
  base.toNat % 64 = 0 ∧ 4 ≤ size ∧ size ≤ 1024 ∧ base.toNat + size * record ≤ 2 ^ 64

/-- The Admin Executor waits for the entry read with this tag, SQ0 and CQ0 are ACTIVE, and the entry carries no flag: the
admin command is executed by its own rule (R45, R86, R87). -/
def State.takesAdmin (s : State) (tag : Nat) (r : Record) : Prop :=
  s.adm.read = some tag ∧ (s.sq 0).state = .active ∧ (s.cq 0).state = .active ∧ r.chainFlag = false ∧ r.keepFlag = false

/-- SQ0 with its head moved past the entry taken (R45). -/
def State.headMoved (s : State) (q : SqId) : State := s.updSq q fun x => { x with head := nextSlot x.size x.head }

/-- The admin command has completed with a status and a result value, and CQ0 owes its completion (R88). -/
def State.adminCompleted (t : State) (r : Record) (st : Status) (result : Option Half) : Prop :=
  t.adm.ctx = some { record := r, progress := .completed, status := some st, result := result } ∧ (t.cq 0).owes .admin

/-- The admin command is in execution and stands at this point (R88). -/
def State.adminWaiting (t : State) (r : Record) (p : AdminProgress) : Prop :=
  t.adm.ctx = some { record := r, progress := p, status := none, result := none }

/-- The fetch arbiter waits for the entry read with this tag for an ACTIVE queue, a context is FREE, and the queue has no
chain open (R68, R71). -/
def State.takesIo (s : State) (q : SqId) (tag : Nat) : Prop :=
  s.arb.read = some { sq := q, tag := tag } ∧ (s.sq q).state = .active ∧ s.freshNum.isSome ∧ (s.sq q).chain = none

/-- The admin command has completed with this status and no result value, and nothing else has changed but that SQ0's head
has moved past its entry. -/
def State.adminOnly (s t : State) (r : Record) (st : Status) : Prop :=
  t.adminCompleted r st none ∧ t.standing = (s.headMoved 0).standing

/-- The admin command writes this result record to its buffer and waits for the outcome, or completes RESULT_BUFFER_ERROR
when the record would pass the top of the address space (R89). -/
def State.writesRecord (s t : State) (r : Record) (l : List Byte) : Prop :=
  if r.address.toNat + l.length ≤ 2 ^ 64 then
    t.adminWaiting r (.resultWrite s.link.next) ∧ t.standing = (s.headMoved 0).standing ∧
      ∃ d ∈ t.link.outstanding, d.access = .result ∧ d.tag = s.link.next ∧ d.addr = r.address ∧ d.bytes = l
  else s.adminOnly t r .resultBufferError

/-- The admin commands by opcode (11.3). -/
def adminRows : List (Byte × (Nat → Body → Instr)) :=
  [(0x40, .createSq), (0x41, .deleteSq), (0x42, .createCq), (0x43, .deleteCq), (0x48, .segmentSetup),
   (0x49, .segmentOn), (0x4A, .segmentOff), (0x4B, .segmentRecover), (0x4C, .querySegment), (0x4D, .queryTarget),
   (0x50, .watchAdd), (0x51, .watchRemove), (0x52, .watchArm), (0x53, .queryWatch), (0x58, .restoreAdd),
   (0x59, .restoreDrop), (0x60, .configureEvents), (0x61, .abort)]

/-- A context that is READY with this status, but for its status as it was before. -/
def Ctx.endsAs (d c : Ctx) (st : Status) : Prop :=
  d.num = c.num ∧ d.sq = c.sq ∧ d.record = c.record ∧ d.chain = c.chain ∧ d.state = .ready ∧ d.status = some st ∧
    d.value = c.value ∧ d.staged = c.staged ∧ d.attempts = c.attempts

/-- The context is READY with this status, and completion queue `b` owes its completion (R50, R74). -/
def State.readyWith (t : State) (b : CqId) (c : Ctx) (st : Status) : Prop :=
  (∃ d ∈ t.ctxs, d.endsAs c st) ∧ (t.cq b).owes (.ctx c.num)

/-- The context is not running: it has not ended, it has no frame on the wire, and no buffer write of it is outstanding
(R166, R170, R174, R176). -/
def State.notRunning (s : State) (c : Ctx) : Prop :=
  c.state ≠ .ready ∧ (c.state = .active → c.buffer = none ∧ s.onWire c = false)

/-- A frame of the context is on the wire (R167). -/
def State.running (s : State) (c : Ctx) : Prop := c.state = .active ∧ c.buffer = none ∧ s.onWire c = true

/-- A cancellation has ended the context with this status: it is READY and completion queue `b` owes its completion, but a
READ_BLOCK that has read something is ACTIVE with its buffer write outstanding, and will have the status then (R80,
R166). -/
def State.cancelledAs (t : State) (b : CqId) (c : Ctx) (st : Status) : Prop :=
  if c.kind = some .readBlock ∧ c.staged ≠ [] then
    ∃ d ∈ t.ctxs, ∃ m ∈ t.link.outstanding, d.num = c.num ∧ d.state = .active ∧ d.status = some st ∧
      d.staged = c.staged ∧ d.buffer = some m.tag ∧ m.access = .buffer c.num ∧ m.addr = c.record.address ∧
      m.bytes = c.staged.flatMap fun v => [v.extractLsb' 0 8, v.extractLsb' 8 8]
  else t.readyWith b c st

/-- Every calm context but the one numbered `n` is still as it was, in the lists in which it was. -/
def State.keepsOthers (s t : State) (n : CtxNum) : Prop :=
  ∀ d ∈ s.ctxs, d.num ≠ n → d.calm → d ∈ t.ctxs ∧
    ∀ g, (d.num ∈ (s.seg g).pendingList → d.num ∈ (t.seg g).pendingList) ∧
      (d.num ∈ (s.seg g).offered → d.num ∈ (t.seg g).offered)

/-- The I/O commands by opcode (11.3). -/
def ioRows : List (Byte × IoKind × (Nat → Body → Instr)) :=
  [(0x01, .read, .read), (0x02, .write, .write), (0x03, .maskedWrite, .maskedWrite),
   (0x04, .broadcastWrite, .broadcastWrite), (0x05, .readBlock, .readBlock), (0x06, .waitUntil, .waitUntil),
   (0x07, .fence, .fence)]

/-- The state with the head of queue `q` moved past the entry taken, and a chain id used up (R45, R71; log entry 6). -/
def State.entryTaken (s : State) (q : SqId) : State := { s.headMoved q with nextChain := s.nextChain + 1 }

/-- The entry has taken a FREE context and completed at once with this status, and nothing else has changed but that the
head of its queue has moved (R68, R72). -/
def State.entryEnds (s t : State) (q : SqId) (c : CtxNum → Ctx) (st : Status) : Prop :=
  ∃ n, (∀ d ∈ s.ctxs, d.num ≠ n) ∧ t.readyWith (s.sq q).bound (c n) st ∧ s.keepsOthers t n ∧
    t.standing = (s.entryTaken q).standing

/-- The entry has taken a FREE context, and waits PENDING in the pending list of segment `g`; nothing else has changed but
that the head of its queue has moved (R68, R73). -/
def State.entryPlaced (s t : State) (q : SqId) (g : SegId) (c : CtxNum → Ctx) : Prop :=
  ∃ n, (∀ d ∈ s.ctxs, d.num ≠ n) ∧ { c n with state := .pending } ∈ t.ctxs ∧ n ∈ (t.seg g).pendingList ∧
    s.keepsOthers t n

/-- A frame with its header and data bits (R3 to R7). -/
def frameOf (kind : FrameKind) (tgt : Option Tgt) (index : Byte) (data : Half) (owner : WireOwner) : Wire :=
  { kind := kind, tgt := tgt, index := index, owner := owner
    header := frameHeader kind (match tgt with
      | some x => x.address
      | none => 0) index
    payload := if kind = .read then none else some (framePayload data) }

/-- Segment `g` is at a frame boundary with no holder: ACTIVE, its wire free, the engine not in FAILED (R8, R100). -/
def State.atBoundary (s : State) (g : SegId) : Prop :=
  (s.seg g).state = .active ∧ (s.seg g).wire = none ∧ (s.seg g).holder = none ∧ s.ctl.engine ≠ .failed

/-- The frame on the wire of segment `g` belongs to host context `c`, which is ACTIVE. -/
def State.sendsFor (s : State) (g : SegId) (w : Wire) (c : Ctx) : Prop :=
  (s.seg g).wire = some w ∧ w.owner = .host c.num ∧ w.kind = c.frameKind ∧
    w.tgt = (if c.kind = some .broadcastWrite then none else some c.tgt) ∧ c ∈ s.ctxs ∧ s.distinct ∧
    c.state = .active ∧ c.buffer = none ∧ c.seg = g

/-- The frame on the wire of segment `g` belongs to host context `c`, which is outside chains; the segment is ACTIVE and
the engine not in FAILED. -/
def State.hostFrame (s : State) (g : SegId) (w : Wire) (c : Ctx) : Prop :=
  s.sendsFor g w c ∧ c.chain = none ∧ s.ctl.engine ≠ .failed ∧ (s.seg g).state = .active ∧
    (s.cq (s.sq c.sq).bound).state = .active

/-- The state right after the report of an attempt (R11): the wire is free and the Presence Table has taken the report. -/
def State.reported (s : State) (g : SegId) (t : Tgt) (src : Source) (a : Attempt) : State :=
  (s.setSeg g { s.seg g with wire := none }).report t src a

end Sys2Proof.Machine
end

