-- ==== Sys2Proof/Certificates/Slice0/Obligations.lean ====
section
/-! DEFINITION. The statements handed to the provers, one definition each. Each docstring names the rules a statement rests
on; one that rests on a choice of the model names the log entry. -/

open Sys2Proof Sys2Proof.Machine

/-! ### The step -/

/-- The command at the front of the queue is the one that runs, on the state with the rest of the queue. -/
def Obligations.StepRunsCommandInFront : Prop :=
  ∀ (c : Instr) (rest : List Instr) (s : State), s.pending = c :: rest → step s = exec c { s with pending := rest }

/-- With no command waiting, a step is one tick of the 10 µs time base (log entry 3): the tick passes, and the timed events
that have come with it join the queue as commands. Before a tick passes, whatever moves the time on, every timed event that
has come and not been taken is taken as its own command would be (what each does is said in TimersFire and
EntryReadsAndTimeouts), so that the time leaves none behind. Then a segment that monitors HDA samples it: it is ACTIVE with no
frame on its wire. A low sample adds 1 to its stuck count and a high one sets it to 0. Every segment whose count has then
reached its stuck time goes to FAULTED at that tick (R13, R14; what a fault does is said in StuckLineFaults), and what
follows by itself is made. Nothing else changes with the tick. What the lines read is open (log entry 4). Time that moves on
by several ticks moves on by one after another, and it does not go back. -/
def Obligations.EmptyQueueTicks : Prop :=
  (∀ s : State, s.pending = [] →
    ∃ t, step s = .next t ∧ t.pending = t.timedEvents.map (·.command) ∧
      t = { s.passTick (fun g tick => Config.hdaLow g.val tick) with pending := t.pending }) ∧
  ((∀ (s : State) (e : TimedEvent), s.hasCome e = true → (∀ a tag, e ≠ .limit a tag) → e ∈ s.timedEvents) ∧
   (∀ (s : State), ∀ d ∈ s.link.outstanding, d.issued + 5000 ≤ s.ticks → .limit d.access d.tag ∈ s.timedEvents) ∧
   (∀ (s : State), s.takeTimed = s.timedEvents.foldl (fun u e =>
      if u.hasCome e then (match exec e.command u with
        | .next v => v
        | _ => u)
      else u) s)) ∧
  (∀ (low : LineReads) (s : State),
    let u : State := { s.takeTimed with
      ticks := s.ticks + 1
      segs := tableMapAt (fun g y => { y with
        stuckCount := if y.state = .active ∧ y.wire = none then (if low g (s.ticks + 1) then y.stuckCount + 1 else 0)
          else y.stuckCount }) s.takeTimed.segs }
    s.passTick low = ((segIds.filter fun g => decide ((u.seg g).state = .active ∧ (u.seg g).wire = none ∧
      (u.seg g).settings.stuckTime ≤ (u.seg g).stuckCount)).foldl State.faultSegment u).settle) ∧
  (∀ (s : State) (n : Nat), s.advance (s.ticks + (n + 1)) =
    (s.passTick fun g tick => Config.hdaLow g.val tick).advance (s.ticks + n + 1)) ∧
  (∀ (s : State) (e : Nat), e ≤ s.ticks → s.advance e = s)

/-- Every well-formed command runs: the manual gives every command an effect. A command whose operands its row cannot
carry is refused (the model's choice, log entry 11). -/
def Obligations.WellFormedCommandsRun : Prop :=
  (∀ (c : Instr) (s : State), c.wellFormed = true → ∃ t, exec c s = .next t) ∧
  (∀ on n s, (n < 1 ∨ 8 < n) → exec (.msiConfigChange on n) s = .refused (.illFormed "MSI_CONFIG_CHANGE")) ∧
  (∀ k w s, offsetOther k = false → exec (.registerWriteOther k w) s = .refused (.illFormed "REGISTER_WRITE_OTHER")) ∧
  (∀ adm tag op b s, codeValid adm op = true →
    exec (.invalidOpcodeEntry adm tag op b) s = .refused (.illFormed "INVALID_OPCODE_ENTRY"))

/-! ### Invariants of every step -/

/-- Every step keeps the restore pool in its one form and within its 384 entries (R133, R134). -/
def Obligations.StepsKeepRestorePool : Prop := ∀ s t : State, s.poolInv → step s = .next t → t.poolInv

/-- Every step keeps every miss count in 0 to 7 (R22, R27), and every stuck count below the segment's stuck time, and 0 on a
segment that is not ACTIVE: no step leaves a segment stuck and not FAULTED (R13, R14, R16). -/
def Obligations.StepsKeepMissAndStuckCounts : Prop :=
  (∀ s t : State, s.missInv → step s = .next t → t.missInv) ∧
  (∀ s t : State, s.stuckInv → step s = .next t → t.stuckInv)

/-- Every step keeps the numbers of the contexts out of FREE distinct (R63), so that no more than 64 are out of FREE. -/
def Obligations.StepsKeepContextsDistinct : Prop :=
  ∀ s t : State, s.distinct → step s = .next t → t.distinct ∧ t.ctxs.length ≤ 64

/-- The invariants hold after reset. -/
def Obligations.ResetMeetsInvariants : Prop :=
  State.reset.poolInv ∧ State.reset.missInv ∧ State.reset.stuckInv ∧ State.reset.distinct

/-! ### Frames and records -/

/-- How many of the bits below `n` are 1. -/
def onesBelow {w : Nat} (n : Nat) (x : BitVec w) : Nat := ((List.range n).filter (fun i => x.getLsbD i)).length

/-- The fields of a frame header stand in their order, and parity is even: the 17 covered bits with the header parity,
and the 16 data bits with the data parity, hold an even number of 1s. The frame sequencer sends these bits, and read
data is good exactly when its 17 bits hold an even number of 1s (R3, R4). -/
def Obligations.FramesCarryEvenParity : Prop :=
  (∀ (k : FrameKind) (a : Nat) (i : Byte),
    (frameHeader k a i).extractLsb' 18 4 = 0b0110#4 ∧ (frameHeader k a i).extractLsb' 15 3 = k.code ∧
    (frameHeader k a i).extractLsb' 9 6 = BitVec.ofNat 6 a ∧ (frameHeader k a i).extractLsb' 1 8 = i ∧
    onesBelow 18 (frameHeader k a i) % 2 = 0) ∧
  (∀ d : Half, (framePayload d).extractLsb' 1 16 = d ∧ onesBelow 17 (framePayload d) % 2 = 0) ∧
  (∀ (s : State) g k tgt i d o, ∃ y, ((s.startFrame g k tgt i d o).seg g).wire = some y ∧ y.kind = k ∧ y.tgt = tgt ∧
    y.index = i ∧ y.owner = o ∧
    y.header = frameHeader k (match tgt with | some x => x.address | none => 0) i ∧
    y.payload = if k = .read then none else some (framePayload d)) ∧
  (∀ d p, Attempt.ofAnswer .read 0b01 d p = .accept d ↔ onesBelow 17 (d ++ BitVec.ofBool p : BitVec 17) % 2 = 0)

/-- HCK and HDA at every moment. At rest HCK is high and HDA released, and a segment in OFF or FAULTED is at rest at every
moment. In a bit time HCK is low and then high. HDA is released in idle bit times and in recovery pulses, and in the bit
times of a frame it is driven low exactly when the engine sends a 0. The engine sends, most significant bit of each field
first, the 22 header bits of start pattern, kind, address, index and parity, and in a WRITE or a BROADCAST 16 data bits and
their parity; every other bit is the target's, and HDA is released. Of these it samples the answer, and the data and parity
of a READ answered ACCEPT, but not the turnaround (R1, R3 to R8, R14, R15, R17 to R19, R21; the moments: log entry 10). -/
def Obligations.LinesAreDriven : Prop :=
  (∀ (y : SegCtl) (half : BitHalf) (k : Nat),
    y.lines .rest = { hckHigh := true, hda := .released } ∧
    y.lines (.idleBit half) = { hckHigh := decide (half = .high), hda := .released } ∧
    y.lines (.pulse half) = { hckHigh := decide (half = .high), hda := .released } ∧
    (y.lines (.frameBit k half)).hckHigh = decide (half = .high) ∧
    ((y.lines (.frameBit k half)).hda = .low ↔ ∃ w, y.wire = some w ∧ w.sends k = some false)) ∧
  (∀ (y : SegCtl) (m : LineMoment), y.wire = none →
    ((y.state = .off ∨ y.state = .faulted ∨ y.state = .draining → (y.allows m = true ↔ m = .rest)) ∧
    (y.state = .active → (y.allows m = true ↔ m = .rest ∨ ∃ h, m = .idleBit h)) ∧
    (y.state = .recovering → (y.allows m = true ↔
      ∃ h, m = (if y.recoveryIdle then LineMoment.idleBit h else .pulse h))))) ∧
  (∀ (y : SegCtl) (w : Wire) (m : LineMoment), y.wire = some w → y.state ≠ .recovering →
    (y.allows m = true ↔ ∃ k h, k < w.kind.bitTimes true ∧ m = .frameBit k h)) ∧
  (∀ (kind : FrameKind) (x : Option Tgt) (i : Byte) (d : Half) (o : WireOwner), let w := frameOf kind x i d o
    (∀ k : Nat, k < 22 → w.sends k = some (w.header.getLsbD (21 - k))) ∧
    (∀ k, 22 ≤ k → w.sends k = if kind = .read ∨ 39 ≤ k then none
      else if k < 38 then some (d.getLsbD (37 - k)) else some (decide (onesBelow 16 d % 2 = 1)))) ∧
  (∀ (accepted : Bool) (k : Nat),
    (FrameKind.samples .read accepted k = true ↔ k = 24 ∨ k = 25 ∨ accepted = true ∧ 26 ≤ k ∧ k ≤ 42) ∧
    (FrameKind.samples .write accepted k = true ↔ k = 41 ∨ k = 42) ∧ FrameKind.samples .broadcast accepted k = false)

/-- The answer bits of an attempt decode to its result: a READ answered ACCEPT has the value exactly when its data
parity is good, and is a parity failure otherwise. Every result but SILENT is reported to the Presence Table as an
answer (R10). -/
def Obligations.AnswerBitsDecode : Prop :=
  (∀ d p, Attempt.ofAnswer .write 0b01 d p = .accept d) ∧
  (∀ d p, Attempt.ofAnswer .read 0b01 d p =
    if onesBelow 17 (d ++ BitVec.ofBool p : BitVec 17) % 2 = 0 then .accept d else .parityFail) ∧
  (∀ k d p, Attempt.ofAnswer k 0b10 d p = .hold ∧ Attempt.ofAnswer k 0b00 d p = .refuse ∧
    Attempt.ofAnswer k 0b11 d p = .silent) ∧
  (∀ (s : State) t src a, s.report t src a = if a = .silent then s.silence t src else s.answer t src)

/-- The records the engine writes have their whole length, and completion and event records carry the phase tag alone in
byte 15 (R192, 11.4 to 11.6). The completion at the front of a ready list is written to the slot at its queue's tail
exactly when the engine posts, the queue is ACTIVE and not full, and no posting is in flight (R46, R47). The first
record of the event ring's output list is written to its slot when no event write is in flight (R154). -/
def Obligations.RecordsAreWritten : Prop :=
  (∀ i q st v b a h p, (completionBytes i q st v b a h p).length = 16 ∧
    (completionBytes i q st v b a h p)[3]? = some st.code ∧
    (completionBytes i q st v b a h p)[15]? = some (if p then 1 else 0)) ∧
  (∀ (e : Event) p, (e.bytes p).length = 16 ∧ (e.bytes p)[15]? = some (if p then 1 else 0)) ∧
  (∀ g y, (segmentRecord g y).length = 16) ∧ (∀ t e m n j, (targetRecord t e m n j).length = 16) ∧
  (∀ w x now, (watchRecord w x now).length = 40) ∧
  (∀ (s : State) (k : CqId) (i : ReadyItem) (rest : List ReadyItem), (s.cq k).ready = i :: rest →
    let x := s.cq k
    let may := (s.ctl.engine = .running ∨ s.ctl.engine = .pausing ∨ s.ctl.engine = .paused) ∧ x.state = .active ∧
      (x.tail + x.size - x.head) % x.size ≠ x.size - 1 ∧ x.inFlight = none
    (may → ∃ bytes, (s.post k).cq k = { x with ready := rest, inFlight := some { item := i, tag := s.link.next } } ∧
      (s.post k).link.outstanding = s.link.outstanding ++ [{
        access := .completion k, tag := s.link.next, addr := x.base + BitVec.ofNat 64 (16 * x.tail), bytes := bytes
        issued := s.ticks }] ∧
      (∀ n c, i = .ctx n → s.ctx n = some c → bytes = completionBytes c.record.ident c.sq.val
        (c.status.getD .success) c.value c.blockCount c.attempts (s.sq c.sq).head x.phase) ∧
      (∀ a, i = .admin → s.adm.ctx = some a → bytes = completionBytes a.record.ident 0
        (a.status.getD .success) a.result 0 0 (s.sq 0).head x.phase)) ∧
    (¬ may → s.post k = s)) ∧
  (∀ (s : State) (r : Ring) (e : Event) (rest : List Event), s.ev.ring = some r → r.output = e :: rest →
    r.inFlight = none → s.ctl.engine = .running ∨ s.ctl.engine = .pausing ∨ s.ctl.engine = .paused →
    s.issueEvent.ev.ring = some { r with inFlight := some s.link.next } ∧
    s.issueEvent.link.outstanding = s.link.outstanding ++ [{
      access := .event, tag := s.link.next
      addr := r.base + BitVec.ofNat 64 (16 * ((r.tail + r.size - r.output.length) % r.size)), bytes := e.bytes r.phase
      issued := s.ticks }])

/-- A register write replaces the bytes it enables and keeps the others, in the 4-byte registers and in the 8-byte
ones (R60). Every register reads what the blocks hold: ENGINE_CONTROL its two fields that are kept, with RESET and every
other bit 0 (R180), ENGINE_STATUS the state, the cause, admin busy, the contexts in use and the replay jobs (R181), EQ_HEAD
the head of the event ring, or 0 with no ring (R155), and the admin queue, interrupt and index registers what they hold
(R41, R61, R162, R163, R193, 11.7). -/
def Obligations.RegistersWriteAndRead : Prop :=
  (∀ (w : RegWrite) (old : BitVec 32) (i : Nat), i < 32 →
    (w.onto old).getLsbD i = if w.enables.getLsbD (i / 8) then w.value.getLsbD i else old.getLsbD i) ∧
  (∀ (en : BitVec 8) (v old : BitVec 64) (i : Nat), i < 64 →
    (replaceBytes en v old).getLsbD i = if en.getLsbD (i / 8) then v.getLsbD i else old.getLsbD i) ∧
  (∀ (s : State) (i : Nat), (s.readWord 0x000).getLsbD i =
    if i = 0 then s.ctl.enable else if i = 2 then s.ctl.keepTargets else false) ∧
  (∀ s : State, s.ctxs.length ≤ 64 → s.jobs.length ≤ 248 →
    let x := s.readWord 0x004
    x.extractLsb' 0 3 = (match s.ctl.engine with
      | .idle => 0
      | .running => 1
      | .pausing => 2
      | .paused => 3
      | .failed => 4) ∧
    x.extractLsb' 4 2 = (match s.ctl.cause with
      | .none => 0
      | .adminConfig => 1
      | .adminMemory => 2) ∧
    x.getLsbD 7 = s.adm.ctx.isSome ∧ x.extractLsb' 8 7 = BitVec.ofNat 7 s.ctxs.length ∧
    x.extractLsb' 16 8 = BitVec.ofNat 8 s.jobs.length ∧
    x.getLsbD 3 = false ∧ x.getLsbD 6 = false ∧ x.getLsbD 15 = false ∧ x.extractLsb' 24 8 = 0) ∧
  (∀ s : State, s.readWord 0x008 = s.ctl.adminSizes ∧
    (s.readWord 0x014 ++ s.readWord 0x010 : BitVec 64) = s.ctl.adminSqBase ∧
    (s.readWord 0x01C ++ s.readWord 0x018 : BitVec 64) = s.ctl.adminCqBase ∧
    s.readWord 0x020 = s.irq.mask.setWidth 32 ∧ s.readWord 0x024 = s.irq.mask.setWidth 32 ∧
    s.readWord 0x028 = s.irq.pending.setWidth 32 ∧
    (s.ev.ring = none → s.readWord 0x02C = 0) ∧
    (∀ r, s.ev.ring = some r → s.readWord 0x02C = BitVec.ofNat 32 r.head) ∧
    (∀ q : SqId, s.readWord (0x040 + 4 * q.val) = BitVec.ofNat 32 (s.sq q).tail) ∧
    (∀ c : CqId, s.readWord (0x080 + 4 * c.val) = BitVec.ofNat 32 (s.cq c).head))

/-! ### Resets and engine control -/

/-- A power-on reset takes every block to its reset values; a host link reset does too, and disables message-signalled
interrupts with one vector enabled (R190, R165, R41). The commands waiting stay; the time base and the accesses
already on the host link outlast a host link reset (the model's choice, log entry 7). An engine reset, taken in every
engine state, takes every block to its reset values and leaves the inputs from configuration space. With KEEP_TARGETS 0
the segment settings, presence entries and restore pool are reset too; with KEEP_TARGETS 1 they are kept, but that
RESTORING becomes LOST (R189, R21, R37, R149). -/
def Obligations.ResetsTakeEveryBlock : Prop :=
  (∀ s : State,
    (∃ t, exec .powerOnReset s = .next t ∧ t.blocksReset ∧ t.targetsReset ∧ t.irq.msiOn = false ∧
      t.irq.msiVectors = 1 ∧ t.pending = s.pending) ∧
    (∃ t, exec .hostLinkReset s = .next t ∧ t.blocksReset ∧ t.targetsReset ∧ t.irq.msiOn = false ∧
      t.irq.msiVectors = 1 ∧ t.pending = s.pending ∧ t.ticks = s.ticks ∧ t.link = s.link)) ∧
  (∀ (w : RegWrite) (s : State), w.enables.getLsbD 0 = true → w.value.getLsbD 1 = true →
    ∃ t, exec (.reset w) s = .next t ∧ t.blocksReset ∧ t.irq.msiOn = s.irq.msiOn ∧
      t.irq.msiVectors = s.irq.msiVectors ∧ t.irq.messages = s.irq.messages ∧ t.pending = s.pending ∧
      (w.value.getLsbD 2 = false → t.targetsReset) ∧
      (w.value.getLsbD 2 = true →
        (∀ g, (t.seg g).settings = (s.seg g).settings) ∧ t.pool = s.pool ∧
        (∀ x, (t.pres x).miss = (s.pres x).miss ∧
          (t.pres x).state = if (s.pres x).state = .restoring then .lost else (s.pres x).state)))

/-- ENABLE in IDLE checks the admin queue registers: SQ0 and CQ0 become ACTIVE and the engine RUNNING when they hold,
and the engine FAILED with cause ADMIN_CONFIG when they do not (R42, R183). SQ0's weight, which no rule gives it, is 1 (the
model's choice, log entry 28). -/
def Obligations.EnableInIdle : Prop :=
  ∀ (w : RegWrite) (s : State), w.control true false = true → s.ctl.engine = .idle →
    let c := { s.ctl with enable := true, keepTargets := w.value.getLsbD 2 }
    let n := (s.ctl.adminSizes.extractLsb' 0 16).toNat
    let m := (s.ctl.adminSizes.extractLsb' 16 16).toNat
    ((ringAllowed s.ctl.adminSqBase n 32 ∧ ringAllowed s.ctl.adminCqBase m 16) →
      ∃ t, exec (.enable w) s = .next t ∧
        t.standing = ((({ s with ctl := { c with engine := .running } } : State).setSq 0
          { state := .active, base := s.ctl.adminSqBase, size := n, tail := 0, head := 0, bound := 0, weight := 1,
            staging := none, chain := none }).setCq 0
          { state := .active, base := s.ctl.adminCqBase, size := m, tail := 0, head := 0, phase := true, vector := 0,
            ready := [], inFlight := none }).standing) ∧
    (¬ (ringAllowed s.ctl.adminSqBase n 32 ∧ ringAllowed s.ctl.adminCqBase m 16) →
      ∃ t, exec (.enable w) s = .next t ∧
        t.standing = ({ s with ctl := { c with engine := .failed, cause := .adminConfig } } : State).standing)

/-- ENABLE written 0 in RUNNING: the engine goes to PAUSING, the due-poll lists empty, and every ARMED watch loses its
next due time and halts, unless its poll is on the wire or in its retry delay; nothing else that stands changes (R184,
R130). ENABLE written 1 in PAUSING or PAUSED: the engine goes to RUNNING, and the HALTED watches of ACTIVE segments
are armed again from nothing, next due one interval from now; nothing else that stands changes (R186, R131). An engine
in PAUSING goes to PAUSED when it is quiet, so that no settled state is quiet in PAUSING (R185). -/
def Obligations.PauseAndResume : Prop :=
  (∀ (w : RegWrite) (s : State), w.control false false = true → s.ctl.engine = .running →
     ∃ t, exec (.pause w) s = .next t ∧
       t.standing = ({ s with
         ctl := { s.ctl with engine := .pausing, enable := false, keepTargets := w.value.getLsbD 2 }
         segs := tableMap (fun y => { y with duePolls := [] }) s.segs
         watches := tableMap (Option.map fun x =>
           if x.state = .armed then
             if x.poll = .onWire ∨ x.poll = .retryWait then { x with nextDue := none, overrun := false }
             else { x with state := .halted, nextDue := none, overrun := false, poll := .none, tries := 0 }
           else x) s.watches } : State).standing) ∧
  (∀ (w : RegWrite) (s : State), w.control true false = true → (s.ctl.engine = .pausing ∨ s.ctl.engine = .paused) →
     ∃ t, exec (.enableResume w) s = .next t ∧
       t.standing = ({ s with
         ctl := { s.ctl with engine := .running, enable := true, keepTargets := w.value.getLsbD 2 }
         watches := tableMap (Option.map fun x =>
           if x.state = .halted ∧ (s.seg x.cfg.tgt.seg).state = .active then
             { x with state := .armed, stable := none, candidate := none, run := 0,
                      nextDue := some (s.ticks / 10 + x.cfg.interval), overrun := false, poll := .none }
           else x) s.watches } : State).standing) ∧
  (∀ s : State, s.ctl.engine = .pausing →
    (s.isQuiet → s.pauseIfQuiet = { s with ctl := { s.ctl with engine := .paused } }) ∧
    (¬ s.isQuiet → s.pauseIfQuiet = s)) ∧
  (∀ s : State, s.settle.ctl.engine = .pausing → ¬ s.settle.isQuiet)

/-! ### Registers -/

/-- A write to ENGINE_CONTROL for which R180 gives no transition changes the two fields that are kept, and nothing else; one
that does not enable byte 0 acts on the values held (log entry 12). MSI_CONFIG_CHANGE sets the two inputs from
configuration space and sends nothing (R165). The admin queue registers take writes in IDLE and ignore them in any other
engine state (R41). A write to ENGINE_STATUS or to an offset that holds no register changes nothing, and such an offset
reads 0 (R60, R181). -/
def Obligations.ConfigurationWrites : Prop :=
  (∀ (w : RegWrite) (s : State), (w.enables.getLsbD 0 = true → w.value.getLsbD 1 = false) →
    let on := if w.enables.getLsbD 0 then w.value.getLsbD 0 else s.ctl.enable
    ((s.ctl.engine = .idle ∧ on = false) ∨ (s.ctl.engine = .running ∧ on = true) ∨
      (s.ctl.engine = .pausing ∧ on = false) ∨ (s.ctl.engine = .paused ∧ on = false) ∨ s.ctl.engine = .failed) →
    exec (.engineControlWrite w) s = .next { s with ctl := { s.ctl with
      enable := on
      keepTargets := if w.enables.getLsbD 0 then w.value.getLsbD 2 else s.ctl.keepTargets } }) ∧
  (∀ on n (s : State), 1 ≤ n → n ≤ 8 →
    exec (.msiConfigChange on n) s = .next { s with irq := { s.irq with msiOn := on, msiVectors := n } }) ∧
  (∀ r e v (s : State), s.ctl.engine ≠ .idle → exec (.adminQueueRegisterWrite r e v) s = .next s) ∧
  (∀ e v (s : State), s.ctl.engine = .idle →
    exec (.adminQueueRegisterWrite .sqBase e v) s =
      .next { s with ctl := { s.ctl with adminSqBase := replaceBytes e v s.ctl.adminSqBase } } ∧
    exec (.adminQueueRegisterWrite .cqBase e v) s =
      .next { s with ctl := { s.ctl with adminCqBase := replaceBytes e v s.ctl.adminCqBase } } ∧
    exec (.adminQueueRegisterWrite .sizes e v) s =
      .next { s with ctl := { s.ctl with adminSizes :=
        ({ enables := e.extractLsb' 0 4, value := v.extractLsb' 0 32 } : RegWrite).onto s.ctl.adminSizes } }) ∧
  (∀ k w (s : State), k < 4096 → k % 4 = 0 →
    (k = 0x004 ∨ k = 0x00C ∨ (0x030 ≤ k ∧ k < 0x040) ∨ 0x0A0 ≤ k) →
    exec (.registerWriteOther k w) s = .next s ∧ (k ≠ 0x004 → s.readWord k = 0))

/-- The interrupt registers take one bit per vector, in their low byte. INTERRUPT_MASK_SET masks, and sends nothing.
INTERRUPT_MASK_CLEAR unmasks, and sends one message for each vector that was masked and is pending (in rising order: the
model's choice, log entry 8). INTERRUPT_PENDING clears, and sends nothing. Nothing else changes, in any engine state
(R162, R163, R165; bytes not enabled count as 0: log entry 9). -/
def Obligations.InterruptRegisterWrites : Prop :=
  ∀ (w : RegWrite) (s : State),
    (∃ t, exec (.interruptMaskSetWrite w) s = .next t ∧
      t = { s with irq := { s.irq with mask := t.irq.mask } } ∧
      ∀ v : VecId, t.irq.mask.getLsbD v = (s.irq.mask.getLsbD v || (w.enables.getLsbD 0 && w.value.getLsbD v))) ∧
    (∃ t, exec (.interruptMaskClearWrite w) s = .next t ∧
      t = { s with irq := { s.irq with mask := t.irq.mask, messages := t.irq.messages } } ∧
      (∀ v : VecId, t.irq.mask.getLsbD v = (s.irq.mask.getLsbD v && !(w.enables.getLsbD 0 && w.value.getLsbD v))) ∧
      t.irq.messages = s.irq.messages ++
        if s.irq.msiOn then
          ([0, 1, 2, 3, 4, 5, 6, 7].filter fun v : Nat => s.irq.mask.getLsbD v && s.irq.pending.getLsbD v &&
            w.enables.getLsbD 0 && w.value.getLsbD v).map (· % s.irq.msiVectors)
        else []) ∧
    (∃ t, exec (.interruptPendingWrite w) s = .next t ∧
      t = { s with irq := { s.irq with pending := t.irq.pending } } ∧
      ∀ v : VecId, t.irq.pending.getLsbD v =
        (s.irq.pending.getLsbD v && !(w.enables.getLsbD 0 && w.value.getLsbD v)))

/-- A hand-off of a vector sets a pending flag of 0, with one message when the vector is unmasked and message-signalled
interrupts are enabled; on a flag of 1 it changes nothing (R161, R165). -/
def Obligations.VectorHandOff : Prop :=
  ∀ (s : State) (v : VecId),
    (s.irq.pending.getLsbD v = true → s.handVector v = s) ∧
    (s.irq.pending.getLsbD v = false →
      (∀ u : VecId, (s.handVector v).irq.pending.getLsbD u = (decide (u = v) || s.irq.pending.getLsbD u)) ∧
      (s.handVector v).irq.messages = s.irq.messages ++
        (if s.irq.mask.getLsbD v = false ∧ s.irq.msiOn = true then [v.val % s.irq.msiVectors] else []) ∧
      s.handVector v = { s with irq := { s.irq with
        pending := (s.handVector v).irq.pending, messages := (s.handVector v).irq.messages } })

/-- A tail write to an ACTIVE queue with a value below its size is taken; in IDLE and FAILED, and for a queue that is
not ACTIVE, it is ignored (R44). One with a value at least the size is a bad index write: it is not taken, the queue goes to
ERROR, and QUEUE_ERROR is handed over with cause BAD_INDEX (said for a queue with no chain open). A queue that goes to
ERROR, for any cause, does not hold the chain-fetch lock afterwards; one that is not ACTIVE is not changed by an error (R54,
R55, R96). -/
def Obligations.SqTailWrites : Prop :=
  (∀ (q : SqId) (w : RegWrite) (s : State), let x := s.sq q
    let v := (w.onto (BitVec.ofNat 32 x.tail)).toNat
    (s.ctl.engine ≠ .idle → s.ctl.engine ≠ .failed → x.state = .active →
      (v < x.size →
        ∃ t, exec (.sqTailWrite q w) s = .next t ∧ t.standing = (s.setSq q { x with tail := v }).standing) ∧
      (x.size ≤ v → x.chain = none → ∃ t, exec (.sqTailWrite q w) s = .next t ∧
        t.standing = ((s.setSq q { x with state := .error }).handEvent (.queueError false q.val .badIndex)).standing)) ∧
    ((s.ctl.engine = .idle ∨ s.ctl.engine = .failed ∨ x.state ≠ .active) →
      ∃ t, exec (.sqTailWrite q w) s = .next t ∧ t.standing = s.standing)) ∧
  (∀ (s : State) (q : SqId) (cause : QueueCause), (s.sq q).state = .active →
    ((s.sqError cause q).sq q).state = .error ∧ (∀ l, (s.sqError cause q).lock = some l → l.sq ≠ q)) ∧
  (∀ (s : State) (q : SqId) (cause : QueueCause), (s.sq q).state ≠ .active → s.sqError cause q = s)

/-- A head write to an ACTIVE completion queue that releases no more than is unreleased is taken, and the vector is
re-raised when records stay unreleased; in IDLE and FAILED, and for a queue that is not ACTIVE, it is ignored (R49, R164).
One at least the size, or one that would release more than is unreleased, takes the queue to ERROR with its ready list
emptied. QUEUE_ERROR is handed over for it with cause BAD_INDEX and then, in ascending id order, with cause CQ_LOST for
every ACTIVE submission queue bound to it, each of which goes to ERROR. No other queue changes its state (R54, R56). -/
def Obligations.CqHeadWrites : Prop :=
  ∀ (c : CqId) (w : RegWrite) (s : State), let x := s.cq c
    let v := (w.onto (BitVec.ofNat 32 x.head)).toNat
    let taken := v < x.size ∧ (v + x.size - x.head) % x.size ≤ (x.tail + x.size - x.head) % x.size
    (s.ctl.engine ≠ .idle → s.ctl.engine ≠ .failed → x.state = .active → taken →
      ∃ t, exec (.cqHeadWrite c w) s = .next t ∧
        t.standing = (if 0 < (x.tail + x.size - v) % x.size
          then (s.setCq c { x with head := v }).handVector x.vector
          else s.setCq c { x with head := v }).standing) ∧
    ((s.ctl.engine = .idle ∨ s.ctl.engine = .failed ∨ x.state ≠ .active) →
      ∃ t, exec (.cqHeadWrite c w) s = .next t ∧ t.standing = s.standing) ∧
    (s.ctl.engine ≠ .idle → s.ctl.engine ≠ .failed → x.state = .active → ¬ taken →
      ∃ t, exec (.cqHeadWrite c w) s = .next t ∧
        (t.cq c).standing = { x.standing with state := .error } ∧ (t.cq c).ready = [] ∧
        (∀ k, k ≠ c → (t.cq k).standing = (s.cq k).standing) ∧
        (∀ q, (t.sq q).standing.state =
          if (s.sq q).state = .active ∧ (s.sq q).bound = c then .error else (s.sq q).standing.state) ∧
        t.ev.standing =
          ((sqIds.filter fun q => (s.sq q).state == .active && (s.sq q).bound == c).foldl
            (fun u q => u.handEvent (.queueError false q.val .cqLost))
            (s.handEvent (.queueError true c.val .badIndex))).ev.standing)

/-- A write to EQ_HEAD that is taken releases records, drains what is held, and re-raises the vector when records stay
unreleased; one that would release more than is posted removes the ring, with one record lost and every held report
discarded; with no ring, and in IDLE and FAILED, it is ignored (R155, R156, R157, R164). -/
def Obligations.EqHeadWrites : Prop :=
  ∀ (w : RegWrite) (s : State),
    (∀ r, s.ctl.engine ≠ .idle → s.ctl.engine ≠ .failed → s.ev.ring = some r →
      let v := (w.onto (BitVec.ofNat 32 r.head)).toNat
      ((v < r.size ∧ (v + r.size - r.head) % r.size ≤ r.unreleased) →
        ∃ t, exec (.eqHeadWrite w) s = .next t ∧
          t.standing = (let u := (s.setRing (some { r with head := v })).drain
            if 0 < ({ r with head := v } : Ring).unreleased then u.handVector r.vector else u).standing) ∧
      (¬ (v < r.size ∧ (v + r.size - r.head) % r.size ≤ r.unreleased) →
        ∃ t, exec (.eqHeadWrite w) s = .next t ∧
          t.standing = ({ s with
            ev := { ring := none, backlog := [], lost := 1 }
            watches := tableMap (Option.map fun x => { x with held := none }) s.watches } : State).standing)) ∧
    ((s.ctl.engine = .idle ∨ s.ctl.engine = .failed ∨ s.ev.ring = none) →
      ∃ t, exec (.eqHeadWrite w) s = .next t ∧ t.standing = s.standing)

/-- The records that the Event Unit holds: EVENTS_LOST with the lost count, if records were lost; the backlog, oldest
first; the held reports in rising watch id order, each with the stable value of this moment (R156). -/
def heldRecords (s : State) : List Event :=
  (if 0 < s.ev.lost then [.eventsLost s.ev.lost] else []) ++ s.ev.backlog ++
    watchIds.filterMap fun w =>
      match s.watch w with
      | some x => x.held.map fun h => .watchTriggered w x.stable h.previous h.count
      | none => none

/-- A drain assigns slots to the held records in their order, as many as the ring has space for, and no more (R156). -/
def Obligations.DrainAssignsInOrder : Prop :=
  ∀ (s : State) (r : Ring), s.ev.ring = some r → r.head < r.size → r.tail < r.size → r.output.length < r.size →
    ∃ l, l = (heldRecords s).take r.free ∧
      (s.drain).ev.ring = some { r with output := r.output ++ l, tail := (r.tail + l.length) % r.size } ∧
      heldRecords s.drain = (heldRecords s).drop r.free

/-- What the Event Unit does with an event. With no ring, and in FAILED, it is discarded. With free space it takes the slot
at the tail and joins the output list; in a full ring it joins a backlog of fewer than 16 records, and past that it is
discarded and the lost count rises, up to 65535 (R152). A watch report is discarded with no ring and in FAILED; with free
space it becomes a WATCH_TRIGGERED record with a coalesced count of 1; in a full ring it is held with its watch: the first
one with its previous value and a count of 1, a further one by a count 1 higher, up to 65535 (R153). Nothing else changes.
The free space is what the tail has left before the head, less one slot (R150). -/
def Obligations.EventsAreTaken : Prop :=
  (∀ (s : State) (e : Event),
    (s.ctl.engine = .failed ∨ s.ev.ring = none → s.handEvent e = s) ∧
    (∀ r, s.ctl.engine ≠ .failed → s.ev.ring = some r →
      (0 < r.free → s.handEvent e = { s with ev := { s.ev with ring := some { r with
        output := r.output ++ [e], tail := (r.tail + 1) % r.size } } }) ∧
      (r.free = 0 → s.ev.backlog.length < 16 →
        s.handEvent e = { s with ev := { s.ev with backlog := s.ev.backlog ++ [e] } }) ∧
      (r.free = 0 → 16 ≤ s.ev.backlog.length →
        s.handEvent e = { s with ev := { s.ev with lost := min (s.ev.lost + 1) 65535 } }))) ∧
  (∀ (s : State) (w : WatchId) (n : Half) (p : Option Half),
    (s.ctl.engine = .failed ∨ s.ev.ring = none → s.handReport w n p = s) ∧
    (∀ r, s.ctl.engine ≠ .failed → s.ev.ring = some r →
      (0 < r.free → s.handReport w n p = { s with ev := { s.ev with ring := some { r with
        output := r.output ++ [.watchTriggered w (some n) p 1], tail := (r.tail + 1) % r.size } } }) ∧
      (r.free = 0 → s.handReport w n p = s.setWatch w ((s.watch w).map fun x => { x with
        held := some (match x.held with
          | some h => { h with count := min (h.count + 1) 65535 }
          | none => { previous := p, count := 1 }) })))) ∧
  (∀ r : Ring, r.head < r.size → r.tail < r.size → r.output.length ≤ (r.tail + r.size - r.head) % r.size →
    r.free = r.size - 1 - (r.tail + r.size - r.head) % r.size)

/-! ### Admin commands: queues -/

/-- CREATE_SQ checks, in this order: the queue id, that the queue is ABSENT, the fields, that the bound completion
queue is ACTIVE; one that passes makes the queue ACTIVE and empty (R51). CREATE_CQ checks the queue id, that the queue is
ABSENT, the fields; one that passes makes the queue ACTIVE and empty with phase 1 (R52). DELETE_CQ checks the id, that the
queue is not ABSENT, and that no submission queue that is not ABSENT is bound to it; one that passes makes it ABSENT (R53).
A refused command changes nothing. -/
def Obligations.QueueCommandChecks : Prop :=
  (∀ (tag : Nat) (b : Body) (s : State), let r := Record.of 0x40 b
    s.takesAdmin tag r → ∃ t, exec (.createSq tag b) s = .next t ∧
      (¬ (1 ≤ (r.byte 4).toNat ∧ (r.byte 4).toNat ≤ 15) → s.adminOnly t r .invalidField) ∧
      (∀ q : SqId, q ≠ 0 → (r.byte 4).toNat = q.val →
        if (s.sq q).state ≠ .absent then s.adminOnly t r .queueExists
        else if ¬ (ringAllowed r.address (r.half 8).toNat 32 ∧ 1 ≤ (r.byte 6).toNat ∧ (r.byte 6).toNat ≤ 8 ∧
            1 ≤ (r.byte 5).toNat ∧ (r.byte 5).toNat ≤ 7) then s.adminOnly t r .invalidField
        else ∀ c : CqId, (r.byte 5).toNat = c.val →
          if (s.cq c).state ≠ .active then s.adminOnly t r .queueAbsent
          else t.adminCompleted r .success none ∧
            t.standing = ((s.headMoved 0).setSq q
              { state := .active, base := r.address, size := (r.half 8).toNat, tail := 0, head := 0, bound := c,
                weight := (r.byte 6).toNat, staging := none, chain := none }).standing)) ∧
  (∀ (tag : Nat) (b : Body) (s : State), let r := Record.of 0x42 b
    s.takesAdmin tag r → ∃ t, exec (.createCq tag b) s = .next t ∧
      (¬ (1 ≤ (r.byte 4).toNat ∧ (r.byte 4).toNat ≤ 7) → s.adminOnly t r .invalidField) ∧
      (∀ c : CqId, c ≠ 0 → (r.byte 4).toNat = c.val →
        if (s.cq c).state ≠ .absent then s.adminOnly t r .queueExists
        else if ¬ (ringAllowed r.address (r.half 8).toNat 16 ∧ (r.byte 7).toNat ≤ 7) then s.adminOnly t r .invalidField
        else ∀ v : VecId, (r.byte 7).toNat = v.val →
          t.adminCompleted r .success none ∧
            t.standing = ((s.headMoved 0).setCq c
              { state := .active, base := r.address, size := (r.half 8).toNat, tail := 0, head := 0, phase := true,
                vector := v, ready := [], inFlight := none }).standing)) ∧
  (∀ (tag : Nat) (b : Body) (s : State), let r := Record.of 0x43 b
    s.takesAdmin tag r → ∃ t, exec (.deleteCq tag b) s = .next t ∧
      (¬ (1 ≤ (r.byte 4).toNat ∧ (r.byte 4).toNat ≤ 7) → s.adminOnly t r .invalidField) ∧
      (∀ c : CqId, c ≠ 0 → (r.byte 4).toNat = c.val →
        ((s.cq c).state = .absent → s.adminOnly t r .queueAbsent) ∧
        ((s.cq c).state ≠ .absent → (∃ q, (s.sq q).state ≠ .absent ∧ (s.sq q).bound = c) →
          s.adminOnly t r .queueInUse) ∧
        ((s.cq c).state ≠ .absent → (∀ q, (s.sq q).state ≠ .absent → (s.sq q).bound ≠ c) →
          t.adminCompleted r .success none ∧ t.standing = ((s.headMoved 0).setCq c Cq.absent).standing)))

/-- DELETE_SQ refuses an id outside 1 to 15 and an ABSENT queue. A queue with no context out of FREE and no entry read
outstanding is ABSENT at once, and the command completes SUCCESS; otherwise the queue is DELETING and the command waits. A
context of the queue that is not running ends QUEUE_DELETED, one with a frame on the wire takes the cancel mark, unless it
carries one, and one that has ended or whose buffer write is outstanding is left; contexts of other queues are left (R174; log entries 24, 25).
The command completes, and the queue is ABSENT, when the last context of the queue is posted and when the entry read
returns (R175). -/
def Obligations.DeleteSqOutcomes : Prop :=
  (∀ (tag : Nat) (b : Body) (s : State), let r := Record.of 0x41 b
    s.takesAdmin tag r → ∃ t, exec (.deleteSq tag b) s = .next t ∧
      (¬ (1 ≤ (r.byte 4).toNat ∧ (r.byte 4).toNat ≤ 15) → s.adminOnly t r .invalidField) ∧
      (∀ q : SqId, q ≠ 0 → (r.byte 4).toNat = q.val →
        ((s.sq q).state = .absent → s.adminOnly t r .queueAbsent) ∧
        ((s.sq q).state ≠ .absent →
          ((∀ c ∈ s.ctxs, c.sq ≠ q) → (∀ rd, s.arb.read = some rd → rd.sq ≠ q) →
            t.adminCompleted r .success none ∧ t.standing = ((s.headMoved 0).setSq q Sq.absent).standing) ∧
          ((∃ rd, s.arb.read = some rd ∧ rd.sq = q) → t.adminWaiting r (.deletingSq q) ∧ (t.sq q).state = .deleting) ∧
          (s.distinct → (s.cq (s.sq q).bound).state = .active →
            ((∃ c ∈ s.ctxs, c.sq = q) → t.adminWaiting r (.deletingSq q) ∧ (t.sq q).state = .deleting) ∧
            ∀ c ∈ s.ctxs,
              (c.sq = q → s.notRunning c → t.cancelledAs (s.sq q).bound c .queueDeleted) ∧
              (c.sq = q → s.running c → { c with mark := c.mark <|> some .queueDeleted } ∈ t.ctxs) ∧
              (c.sq = q → ¬ s.notRunning c → ¬ s.running c → c ∈ t.ctxs) ∧
              (c.sq ≠ q → c.calm → c ∈ t.ctxs))))) ∧
  (∀ (q : SqId) (tag : Nat) (r : Record) (s : State), s.adminWaiting r (.deletingSq q) → (s.sq q).state = .deleting →
    (s.cq 0).state = .active →
    (∀ k n, (s.cq k).inFlight = some { item := .ctx n, tag := tag } → (∀ c ∈ s.ctxs, c.sq = q → c.num = n) →
      (∀ rd, s.arb.read = some rd → rd.sq ≠ q) →
      ∃ t, exec (.completionWriteDone k tag) s = .next t ∧ t.adminCompleted r .success none ∧ t.sq q = Sq.absent) ∧
    (s.arb.read = some { sq := q, tag := tag } → (∀ c ∈ s.ctxs, c.sq ≠ q) →
      ∃ t, exec (.discardedEntryRead q tag) s = .next t ∧ t.adminCompleted r .success none ∧ t.sq q = Sq.absent))

/-- ABORT looks for the oldest context of the SQ id with the identifier: none completes ABORT_NOT_FOUND. One that is not
running ends ABORTED, and ABORT completes SUCCESS; when it is a chain member, the chain ends: every other member that has
not been reached ends CHAIN_ABORTED, one that runs is left, and members fetched later will end CHAIN_ABORTED. One with a
frame on the wire keeps running: its last request completes ABORT_TOO_LATE, and any other is marked ABORTED. One that is
READY, or whose buffer write is outstanding, is left, and ABORT completes ABORT_TOO_LATE (R169 to R173; log entries 24,
25). -/
def Obligations.AbortOutcomes : Prop :=
  ∀ (tag : Nat) (b : Body) (s : State), let r := Record.of 0x61 b
    s.takesAdmin tag r → s.distinct → ∃ t, exec (.abort tag b) s = .next t ∧
      (¬ (1 ≤ (r.byte 4).toNat ∧ (r.byte 4).toNat ≤ 15) → s.adminOnly t r .invalidField) ∧
      (∀ q : SqId, q ≠ 0 → (r.byte 4).toNat = q.val →
        ((∀ c ∈ s.ctxs, ¬ (c.sq = q ∧ c.record.ident = r.half 8)) → s.adminOnly t r .abortNotFound) ∧
        (∀ c, s.ctxs.find? (fun c => c.sq == q && c.record.ident == r.half 8) = some c →
          (s.notRunning c → (s.cq (s.sq q).bound).state = .active →
            t.adminCompleted r .success none ∧ t.cancelledAs (s.sq q).bound c .aborted ∧
            (c.chain = none → s.adminOnly t r .success ∧ s.keepsOthers t c.num) ∧
            ∀ m, c.chain = some m →
              (∀ d ∈ s.ctxs, d.num ≠ c.num → d.inChain m.id = true →
                (d.unreached = true → (s.cq (s.sq d.sq).bound).state = .active →
                  t.cancelledAs (s.sq d.sq).bound d .chainAborted) ∧
                (d.unreached = false → d.calm → d ∈ t.ctxs)) ∧
              ∀ p o, (t.sq p).chain = some o → o.id = m.id → o.failed = true) ∧
          (s.running c →
            if c.lastRequest then s.adminOnly t r .abortTooLate ∧ c ∈ t.ctxs
            else s.adminOnly t r .success ∧ { c with mark := c.mark <|> some .aborted } ∈ t.ctxs) ∧
          (¬ s.notRunning c → ¬ s.running c → s.adminOnly t r .abortTooLate ∧ c ∈ t.ctxs)))

/-! ### Admin commands: segments -/

/-- SEGMENT_SETUP is taken only in OFF, and replaces all five settings when each is in its range (R16). SEGMENT_ON
takes an OFF segment to ACTIVE with its stuck count 0 and last class served POLL, and re-arms its HALTED watches while
the engine is RUNNING; on an ACTIVE segment it changes nothing, on any other it is refused (R17, R101, R131). -/
def Obligations.SegmentSetupAndOn : Prop :=
  (∀ (tag : Nat) (b : Body) (s : State), let r := Record.of 0x48 b
     s.takesAdmin tag r → ∃ t, exec (.segmentSetup tag b) s = .next t ∧
       (4 ≤ (r.byte 4).toNat → s.adminOnly t r .invalidField) ∧
       (∀ g : SegId, (r.byte 4).toNat = g.val →
         if (s.seg g).state ≠ .off then s.adminOnly t r .segmentBusy
         else if ¬ (3 ≤ (r.half 8).toNat ∧ (r.half 8).toNat ≤ 499 ∧ 1 ≤ (r.byte 10).toNat ∧ (r.byte 11).toNat ≤ 15 ∧
             1 ≤ (r.byte 12).toNat ∧ (r.byte 12).toNat ≤ 7 ∧ 1 ≤ (r.byte 13).toNat) then s.adminOnly t r .invalidField
         else t.adminCompleted r .success none ∧
           t.standing = ((s.headMoved 0).setSeg g { s.seg g with settings :=
             { divider := (r.half 8).toNat, retryDelay := (r.byte 10).toNat, retryLimit := (r.byte 11).toNat,
               missThreshold := (r.byte 12).toNat, stuckTime := (r.byte 13).toNat } }).standing)) ∧
  (∀ (tag : Nat) (b : Body) (s : State), let r := Record.of 0x49 b
     s.takesAdmin tag r → ∃ t, exec (.segmentOn tag b) s = .next t ∧
       (4 ≤ (r.byte 4).toNat → s.adminOnly t r .invalidField) ∧
       (∀ g : SegId, (r.byte 4).toNat = g.val →
         ((s.seg g).state = .active → s.adminOnly t r .success) ∧
         (((s.seg g).state = .draining ∨ (s.seg g).state = .faulted ∨ (s.seg g).state = .recovering) →
           s.adminOnly t r .segmentBusy) ∧
         ((s.seg g).state = .off → t.adminCompleted r .success none ∧
           t.standing = ({ (s.headMoved 0).setSeg g
               { s.seg g with state := .active, stuckCount := 0, lastServed := .poll, recoveryIdle := false } with
             watches := tableMap (Option.map fun x =>
               if s.ctl.engine = .running ∧ x.state = .halted ∧ x.cfg.tgt.seg = g then
                 { x with state := .armed, stable := none, candidate := none, run := 0,
                          nextDue := some (s.ticks / 10 + x.cfg.interval), overrun := false, poll := .none }
               else x) s.watches } : State).standing)))

/-- SEGMENT_OFF on an OFF segment changes nothing, and on a DRAINING or RECOVERING one is refused; a FAULTED segment
goes to OFF. An ACTIVE segment with a frame on its wire is DRAINING, and the command waits; one without reaches OFF at
once, with no internal write, no due poll, no ARMED watch and no RESTORING target, and the command completes. A context
bound for the segment that is not running ends SEGMENT_OFF, one with a frame on the wire takes the cancel mark, unless it
carries one, and one that has ended or whose buffer write is outstanding is left; FENCEs are not reached, but for the release
that follows by itself, and contexts bound for other segments are left. Other segments keep what they have (R18, R176 to
R178; log entries 24, 25). -/
def Obligations.SegmentOffOutcomes : Prop :=
  ∀ (tag : Nat) (b : Body) (s : State), let r := Record.of 0x4A b
    s.takesAdmin tag r → ∃ t, exec (.segmentOff tag b) s = .next t ∧
      (4 ≤ (r.byte 4).toNat → s.adminOnly t r .invalidField) ∧
      (∀ g : SegId, (r.byte 4).toNat = g.val →
        ((s.seg g).state = .off → s.adminOnly t r .success) ∧
        (((s.seg g).state = .draining ∨ (s.seg g).state = .recovering) → s.adminOnly t r .segmentBusy) ∧
        ((s.seg g).state = .faulted → t.adminCompleted r .success none ∧
          t.standing = ((s.headMoved 0).setSeg g { s.seg g with state := .off }).standing) ∧
        ((s.seg g).state = .active →
          (∀ k, k ≠ g → (t.seg k).standing = (s.seg k).standing) ∧ (t.seg g).settings = (s.seg g).settings ∧
          (∀ w x, t.watch w = some x → x.cfg.tgt.seg = g → x.state ≠ .armed) ∧
          (∀ w x, s.watch w = some x → x.cfg.tgt.seg ≠ g → ∃ y, t.watch w = some y ∧ y.state = x.state) ∧
          (s.distinct → ∀ c ∈ s.ctxs,
            (c.seg = g → c.state ≠ .fenceWait → (s.cq (s.sq c.sq).bound).state = .active → s.notRunning c →
              t.cancelledAs (s.sq c.sq).bound c .segmentOff) ∧
            (c.seg = g → s.running c → { c with mark := c.mark <|> some .segmentOff } ∈ t.ctxs) ∧
            (c.seg = g → ¬ s.notRunning c → ¬ s.running c → c ∈ t.ctxs) ∧
            (c.state = .fenceWait → (s.cq (s.sq c.sq).bound).state = .active →
              c ∈ t.ctxs ∨ ∃ d ∈ t.ctxs, d.endsAs c .success) ∧
            (c.seg ≠ g → c.calm → c ∈ t.ctxs)) ∧
          ((s.seg g).wire ≠ none → t.adminWaiting r (.drainingSegment g) ∧ (t.seg g).state = .draining ∧
            (t.seg g).wire = (s.seg g).wire ∧ t.presence = s.presence) ∧
          ((s.seg g).wire = none → t.adminCompleted r .success none ∧ (t.seg g).state = .off ∧
            (t.seg g).writes = [] ∧ (t.seg g).respDelays = [] ∧ (t.seg g).duePolls = [] ∧
            ∀ x, t.pres x = if x.seg = g ∧ (s.pres x).state = .restoring then { s.pres x with state := .lost }
              else s.pres x)))

/-- A DRAINING segment is OFF after the frame on its wire: it has no frame, no internal write, no due poll and no holder. -/
def nowOff (s t : State) (g : SegId) : Prop :=
  (t.seg g).standing = { (s.seg g).standing with
    state := .off, wire := none, writes := [], respDelays := [], duePolls := [], stuckCount := 0 } ∧
  (t.seg g).holder = none ∧ (∀ k, k ≠ g → (t.seg k).standing = (s.seg k).standing) ∧
  ∀ r, s.adminWaiting r (.drainingSegment g) → (s.cq 0).state = .active → t.adminCompleted r .success none

/-- The frame on the wire of a DRAINING segment runs to its end, and then the segment is OFF: it has no frame, no internal
write, no due poll and no holder, its RESTORING targets are LOST, and the SEGMENT_OFF that waits for it completes SUCCESS
(R18, R177). A poll's outcome is recorded, and so is a response write's; a job whose replay write this was is over, with its
target PRESENT when nothing was left to write and LOST otherwise (R128, R129, R141; log entry 20). A context whose attempt is not final
ends SEGMENT_OFF by its mark, a final one ends by its result, and in FAILED the context is discarded (R167, R188). Said where
no watch whose poll it is is ARMED; ends of contexts outside chains and with no block data. -/
def Obligations.DrainingSegmentsEnd : Prop :=
  (∀ (g : SegId) (answer : BitVec 2) (data : Half) (parity : Bool) (s : State) (w : Wire) (x : Tgt),
    (s.seg g).wire = some w → w.tgt = some x → x.seg = g → (s.seg g).state = .draining →
    (∀ y, w.owner = .replay y → y = x) →
    (∀ i y, w.owner = .poll i → s.watch i = some y → y.state ≠ .armed ∧ s.adminAt (.removingWatch i) = false) →
    let a := Attempt.ofAnswer w.kind answer data parity
    let u := s.reported g x w.owner.source a
    ∃ t, exec (.frameAttemptEnd g answer data parity) s = .next t ∧ nowOff s t g ∧
      (∀ y : Tgt, y.seg ≠ g → t.pres y = s.pres y) ∧ (∀ y : Tgt, y.seg = g → (t.pres y).state ≠ .restoring) ∧
      (∀ i y, w.owner = .poll i → s.watch i = some y → ∃ z, t.watch i = some z ∧ z.state = y.state ∧ z.poll = .none ∧
        z.lastPoll = some a.status) ∧
      (∀ r y, w.owner = .response r false → s.watch r.watch = some y → ∃ z, t.watch r.watch = some z ∧
        z.respPending = false ∧ z.lastResponse = some a.status) ∧
      (∀ j, w.owner = .replay x → s.job x = some j → (s.pres x).state = .restoring → t.job x = none ∧
        (t.pres x).state = if (u.pres x).state = .restoring ∧ s.restoreAbove x j.cursor = [] then .present else .lost) ∧
      (∀ n, s.ctl.engine = .failed → w.owner = .host n → ∀ d ∈ t.ctxs, d.num ≠ n) ∧
      (∀ c, s.ctl.engine ≠ .failed → s.sendsFor g w c → c.chain = none → c.staged = [] → c.mark = some .segmentOff →
        (s.cq (s.sq c.sq).bound).state = .active →
        ((a = .hold ∨ a = .parityFail) → c.tries < 1 + (s.seg g).settings.retryLimit → c.deadlinePassed = false →
          t.readyWith (s.sq c.sq).bound c .segmentOff) ∧
        (a = .refuse → t.readyWith (s.sq c.sq).bound c .targetRefused) ∧
        (a = .silent → t.readyWith (s.sq c.sq).bound c .noAnswer))) ∧
  (∀ (g : SegId) (s : State) (w : Wire) (c : Ctx), s.sendsFor g w c → c.kind = some .broadcastWrite →
    (s.seg g).state = .draining → (∀ x : Tgt, x.seg = g → (s.pres x).state ≠ .restoring) →
    ∃ t, exec (.broadcastFrameEnd g) s = .next t ∧ nowOff s t g ∧ t.presence = s.presence ∧
      (s.ctl.engine = .failed → ∀ d ∈ t.ctxs, d.num ≠ c.num) ∧
      (s.ctl.engine ≠ .failed → c.chain = none → (s.cq (s.sq c.sq).bound).state = .active →
        t.readyWith (s.sq c.sq).bound c .success))

/-- SEGMENT_RECOVER takes a FAULTED segment to RECOVERING with its first pulse issued, and waits; in any other state
it is refused. A pulse that ends with HDA low is followed by another, up to 16; after the 16th the segment is FAULTED
again and the command completes RECOVERY_FAILED. After one that ends with HDA high the 8 idle bit times follow, at
whose end the segment is ACTIVE, SEGMENT_RECOVERED is handed over, and the command completes SUCCESS (R19). -/
def Obligations.RecoveryRuns : Prop :=
  (∀ (tag : Nat) (b : Body) (s : State), let r := Record.of 0x4B b
    s.takesAdmin tag r → ∃ t, exec (.segmentRecover tag b) s = .next t ∧
      (4 ≤ (r.byte 4).toNat → s.adminOnly t r .invalidField) ∧
      (∀ g : SegId, (r.byte 4).toNat = g.val →
        if (s.seg g).state ≠ .faulted then s.adminOnly t r .segmentBusy
        else t.adminWaiting r (.recovering g) ∧
          t.standing = ((s.headMoved 0).setSeg g
            { s.seg g with state := .recovering, pulseCount := 1, recoveryIdle := false }).standing)) ∧
  (∀ (g : SegId) (s : State) (r : Record), (s.seg g).state = .recovering → s.adminWaiting r (.recovering g) →
    (s.cq 0).state = .active →
    ((s.seg g).recoveryIdle = false →
      (∃ t, exec (.recoveryPulseEnd g true) s = .next t ∧
        t.standing = (s.setSeg g { s.seg g with recoveryIdle := true }).standing) ∧
      (∃ t, exec (.recoveryPulseEnd g false) s = .next t ∧
        if (s.seg g).pulseCount < 16 then
          t.standing = (s.setSeg g { s.seg g with pulseCount := (s.seg g).pulseCount + 1 }).standing
        else t.standing = (s.setSeg g { s.seg g with state := .faulted }).standing ∧
          t.adminCompleted r .recoveryFailed none)) ∧
    ((s.seg g).recoveryIdle = true →
      ∃ t, exec (.recoveryIdleEnd g) s = .next t ∧ t.adminCompleted r .success none ∧
        t.standing = ({ (s.setSeg g
            { s.seg g with state := .active, stuckCount := 0, lastServed := .poll, recoveryIdle := false }).handEvent
              (.segmentRecovered g) with
          watches := tableMap (Option.map fun x =>
            if s.ctl.engine = .running ∧ x.state = .halted ∧ x.cfg.tgt.seg = g then
              { x with state := .armed, stable := none, candidate := none, run := 0,
                       nextDue := some (s.ticks / 10 + x.cfg.interval), overrun := false, poll := .none }
            else x) s.watches } : State).standing))

/-- The three queries write one record to the command's buffer, built from the state as it is, and wait for the
outcome of the write; a record that would pass the top of the address space is not written, and the command completes
RESULT_BUFFER_ERROR. A segment, target or watch id that names none is refused. Nothing else changes (R20, R34, R89,
R115). -/
def Obligations.QueriesWriteRecords : Prop :=
  (∀ (tag : Nat) (b : Body) (s : State), let r := Record.of 0x4C b
    s.takesAdmin tag r → ∃ t, exec (.querySegment tag b) s = .next t ∧
      (4 ≤ (r.byte 4).toNat → s.adminOnly t r .invalidField) ∧
      (∀ g : SegId, (r.byte 4).toNat = g.val → s.writesRecord t r (segmentRecord g (s.seg g)))) ∧
  (∀ (tag : Nat) (b : Body) (s : State), let r := Record.of 0x4D b
    s.takesAdmin tag r → ∃ t, exec (.queryTarget tag b) s = .next t ∧
      ((4 ≤ (r.byte 4).toNat ∨ (r.byte 5).toNat = 0 ∨ 63 ≤ (r.byte 5).toNat) → s.adminOnly t r .invalidField) ∧
      (∀ x : Tgt, (r.byte 4).toNat = x.seg.val → (r.byte 5).toNat = x.address →
        s.writesRecord t r
          (targetRecord x (s.pres x) (s.seg x.seg).settings.missThreshold (s.restoreList x).length (s.job x)))) ∧
  (∀ (tag : Nat) (b : Body) (s : State), let r := Record.of 0x53 b
    s.takesAdmin tag r → ∃ t, exec (.queryWatch tag b) s = .next t ∧
      (128 ≤ (r.byte 7).toNat → s.adminOnly t r .invalidField) ∧
      (∀ w : WatchId, (r.byte 7).toNat = w.val →
        (s.watch w = none → s.adminOnly t r .watchAbsent) ∧
        (∀ x, s.watch w = some x → s.writesRecord t r (watchRecord w x (s.ticks / 10)))))

/-! ### Admin commands: watches, restore lists, events -/

/-- WATCH_ADD checks, in this order: the watch id, that the id is not in use, the fields. One that passes fills the
entry with its configuration and no runtime item, ARMED and next due one interval from now when its segment is ACTIVE
and the engine RUNNING, and HALTED otherwise (R112). -/
def Obligations.WatchAddChecks : Prop :=
  (∀ r : Record, (watchCfgOf r).isSome = true ↔
    (r.byte 4).toNat ≤ 3 ∧ 1 ≤ (r.byte 5).toNat ∧ (r.byte 5).toNat ≤ 62 ∧ r.half 8 ≠ 0 ∧
    1 ≤ (r.byte 14).toNat ∧ (r.byte 14).toNat ≤ 6 ∧ (r.byte 16).toNat ≤ 1 ∧ (r.byte 17).toNat ≤ 1 ∧
    (r.byte 18).toNat ≤ 1 ∧ (4 ≤ (r.byte 14).toNat → r.half 10 &&& ~~~(r.half 8) = 0) ∧ 1 ≤ (r.half 12).toNat ∧
    1 ≤ (r.byte 15).toNat ∧ (r.byte 15).toNat ≤ 8 ∧
    ((r.byte 18).toNat = 1 → 1 ≤ (r.byte 19).toNat ∧ (r.byte 19).toNat ≤ 62)) ∧
  (∀ (r : Record) (c : WatchCfg), watchCfgOf r = some c →
    c.tgt.seg.val = (r.byte 4).toNat ∧ c.tgt.address = (r.byte 5).toNat ∧ c.index = r.byte 6 ∧ c.mask = r.half 8 ∧
    c.interval = (r.half 12).toNat ∧ c.cond.code = r.byte 14 ∧ c.debounce = (r.byte 15).toNat ∧
    (c.oneShot = true ↔ (r.byte 16).toNat = 1) ∧ (c.report = true ↔ (r.byte 17).toNat = 1) ∧
    (c.matchValue = if 4 ≤ (r.byte 14).toNat then some (r.half 10) else none) ∧
    (c.response = none ↔ (r.byte 18).toNat = 0) ∧
    ∀ p, c.response = some p → p.slot.val + 1 = (r.byte 19).toNat ∧ p.index = r.byte 20 ∧ p.data = r.half 22) ∧
  (∀ (tag : Nat) (b : Body) (s : State), let r := Record.of 0x50 b
    s.takesAdmin tag r → ∃ t, exec (.watchAdd tag b) s = .next t ∧
      (128 ≤ (r.byte 7).toNat → s.adminOnly t r .invalidField) ∧
      (∀ w : WatchId, (r.byte 7).toNat = w.val →
        ((s.watch w).isSome = true → s.adminOnly t r .watchExists) ∧
        (s.watch w = none → watchCfgOf r = none → s.adminOnly t r .invalidField) ∧
        (∀ c, s.watch w = none → watchCfgOf r = some c → t.adminCompleted r .success none ∧
          t.standing = ((s.headMoved 0).setWatch w (some
            { cfg := c
              state := if (s.seg c.tgt.seg).state = .active ∧ s.ctl.engine = .running then .armed else .halted
              nextDue := if (s.seg c.tgt.seg).state = .active ∧ s.ctl.engine = .running
                then some (s.ticks / 10 + c.interval) else none
              stable := none, candidate := none, run := 0, poll := .none, tries := 0, retryEnd := none
              overrun := false, overrunCount := 0, triggers := 0, lastPoll := none, held := none
              respPending := false, lastResponse := none })).standing)))

/-- WATCH_ARM arms a FIRED watch, with its values kept, when its segment is ACTIVE and the engine RUNNING, and takes
it to HALTED otherwise; on an ARMED or HALTED watch it changes nothing (R113). WATCH_REMOVE takes the watch out of the
due-poll list and its response write out of the internal write list and its retry delay; the outcome of one on the wire is
recorded nowhere. With no poll on the wire the
entry is empty and the command completes; with a poll on the wire the watch stays, without due time, held report or
pending response, and the command waits (R114). -/
def Obligations.WatchArmAndRemove : Prop :=
  (∀ (tag : Nat) (b : Body) (s : State), let r := Record.of 0x52 b
     s.takesAdmin tag r → ∃ t, exec (.watchArm tag b) s = .next t ∧
       (128 ≤ (r.byte 7).toNat → s.adminOnly t r .invalidField) ∧
       (∀ w : WatchId, (r.byte 7).toNat = w.val →
         (s.watch w = none → s.adminOnly t r .watchAbsent) ∧
         (∀ x, s.watch w = some x →
           if x.state ≠ .fired then s.adminOnly t r .success
           else t.adminCompleted r .success none ∧
             t.standing = ((s.headMoved 0).setWatch w (some
               (if (s.seg x.cfg.tgt.seg).state = .active ∧ s.ctl.engine = .running then
                 { x with state := .armed, nextDue := some (s.ticks / 10 + x.cfg.interval) }
               else { x with state := .halted }))).standing))) ∧
  (∀ (tag : Nat) (b : Body) (s : State), let r := Record.of 0x51 b
     s.takesAdmin tag r → ∃ t, exec (.watchRemove tag b) s = .next t ∧
       (128 ≤ (r.byte 7).toNat → s.adminOnly t r .invalidField) ∧
       (∀ w : WatchId, (r.byte 7).toNat = w.val →
         (s.watch w = none → s.adminOnly t r .watchAbsent) ∧
         (∀ x, s.watch w = some x →
           (∀ d, d ∈ (t.seg x.cfg.tgt.seg).duePolls ↔ d ∈ (s.seg x.cfg.tgt.seg).duePolls ∧ d.watch ≠ w) ∧
           (∀ e, e ∈ (t.seg x.cfg.tgt.seg).writes ↔
             e ∈ (s.seg x.cfg.tgt.seg).writes ∧ ∀ p, e = .response p → p.watch ≠ w) ∧
           (∀ d, d ∈ (t.seg x.cfg.tgt.seg).respDelays ↔ d ∈ (s.seg x.cfg.tgt.seg).respDelays ∧ d.write.watch ≠ w) ∧
           (t.seg x.cfg.tgt.seg).wire = ((s.seg x.cfg.tgt.seg).wire.map fun y => match y.owner with
             | .response p o => { y with owner := .response p (o || p.watch == w) }
             | _ => y) ∧
           (∀ v, v ≠ w → t.watch v = s.watch v) ∧
           (∀ g, g ≠ x.cfg.tgt.seg → (t.seg g).standing = (s.seg g).standing) ∧
           (x.poll ≠ .onWire → t.adminCompleted r .success none ∧ t.watch w = none) ∧
           (x.poll = .onWire → t.adminWaiting r (.removingWatch w) ∧
             t.watch w = some { x with nextDue := none, retryEnd := none, respPending := false, held := none }))))

/-- RESTORE_ADD records the value when the target's list holds the index or the pool is not full, and completes with
the free count after the command; otherwise it completes POOL_FULL and changes nothing (R136, R133, R135).
RESTORE_DROP frees the entry of one index, or every entry of the target, and completes with the number freed. A replay
job of the target with nothing left to write ends, and its target is PRESENT if it was RESTORING (R137, R143, R144). -/
def Obligations.RestoreAddAndDrop : Prop :=
  (∀ (tag : Nat) (b : Body) (s : State), let r := Record.of 0x58 b
     s.takesAdmin tag r → s.poolInv → ∃ t, exec (.restoreAdd tag b) s = .next t ∧
       ((4 ≤ (r.byte 4).toNat ∨ (r.byte 5).toNat = 0 ∨ 63 ≤ (r.byte 5).toNat) → s.adminOnly t r .invalidField) ∧
       (∀ x : Tgt, (r.byte 4).toNat = x.seg.val → (r.byte 5).toNat = x.address →
         let e : PoolEntry := { tgt := x, index := r.byte 6, value := r.half 8 }
         let held := ∃ d ∈ s.pool, d.tgt = x ∧ d.index = r.byte 6
         ((held ∨ s.pool.length < 384) →
           t.adminCompleted r .success (some (BitVec.ofNat 16 (384 - t.pool.length))) ∧
           (∀ d, d ∈ t.pool ↔ d = e ∨ (d ∈ s.pool ∧ ¬ (d.tgt = x ∧ d.index = r.byte 6))) ∧
           (held → t.pool.length = s.pool.length) ∧ (¬ held → t.pool.length = s.pool.length + 1) ∧
           t.standing = ({ s.headMoved 0 with pool := t.pool } : State).standing) ∧
         (¬ (held ∨ s.pool.length < 384) → s.adminOnly t r .poolFull))) ∧
  (∀ (tag : Nat) (b : Body) (s : State), let r := Record.of 0x59 b
     s.takesAdmin tag r → ∃ t, exec (.restoreDrop tag b) s = .next t ∧
       ((4 ≤ (r.byte 4).toNat ∨ (r.byte 5).toNat = 0 ∨ 63 ≤ (r.byte 5).toNat ∨ 2 ≤ (r.byte 7).toNat) →
         s.adminOnly t r .invalidField) ∧
       (∀ x : Tgt, (r.byte 4).toNat = x.seg.val → (r.byte 5).toNat = x.address → (r.byte 7).toNat ≤ 1 →
         let drops := fun e : PoolEntry => decide (e.tgt = x ∧ ((r.byte 7).toNat = 1 ∨ e.index = r.byte 6))
         t.adminCompleted r .success (some (BitVec.ofNat 16 (s.pool.countP drops))) ∧
         t.pool = s.pool.filter (fun e => !drops e) ∧
         (s.job x = none →
           t.standing = ({ s.headMoved 0 with pool := s.pool.filter (fun e => !drops e) } : State).standing) ∧
         (∀ j, s.job x = some j → j.inFlight = none →
           (∀ e ∈ s.pool, e.tgt = x → drops e = false → ∃ k, j.cursor = some k ∧ e.index.toNat ≤ k.toNat) →
           t.jobs = s.jobs.filter (fun k => k.tgt ≠ x) ∧
           t.pres x = (if (s.pres x).state = .restoring then { s.pres x with state := .present } else s.pres x) ∧
           t.ev.standing =
             (s.handEvent (.restoreDone x j.written j.failed j.firstFailed none 0)).ev.standing)))

/-- CONFIGURE_EVENTS with size 0 removes the ring and discards every held record; with a size that is not 0 and fields
in range it makes a new ring, after discarding what an old ring held, and otherwise it is refused (R151). -/
def Obligations.ConfigureEventsOutcomes : Prop :=
  ∀ (tag : Nat) (b : Body) (s : State), let r := Record.of 0x60 b
    let n := (r.half 8).toNat
    let ok := r.address.toNat % 64 = 0 ∧ 16 ≤ n ∧ n ≤ 1024 ∧ r.address.toNat + n * 16 ≤ 2 ^ 64 ∧ (r.byte 7).toNat ≤ 7
    s.takesAdmin tag r → ∃ t, exec (.configureEvents tag b) s = .next t ∧
      (n = 0 → t.adminCompleted r .success none ∧
        t.standing = ({ s.headMoved 0 with
          ev := { ring := none, backlog := [], lost := 0 }
          watches := tableMap (Option.map fun x => { x with held := none }) s.watches } : State).standing) ∧
      (n ≠ 0 → ¬ ok → s.adminOnly t r .invalidField) ∧
      (∀ v : VecId, ok → (r.byte 7).toNat = v.val →
        let ring : Ring := { base := r.address, size := n, vector := v, head := 0, tail := 0, phase := true,
                             output := [], inFlight := none }
        t.adminCompleted r .success none ∧
        (s.ev.ring ≠ none → t.standing = ({ s.headMoved 0 with
          ev := { ring := some ring, backlog := [], lost := 0 }
          watches := tableMap (Option.map fun x => { x with held := none }) s.watches } : State).standing) ∧
        (s.ev.ring = none → t.standing = ((s.headMoved 0).setRing (some ring)).drain.standing))

/-- An admin entry whose opcode names no admin command completes INVALID_OPCODE; one of any admin command with a flag
set completes INVALID_FIELD. Neither changes anything else (R87). -/
def Obligations.AdminEntriesRefused : Prop :=
  (∀ (tag : Nat) (op : Byte) (b : Body) (s : State), codeValid true op = false → s.adm.read = some tag →
    (s.sq 0).state = .active → (s.cq 0).state = .active →
    ∃ t, exec (.invalidOpcodeEntry true tag op b) s = .next t ∧ s.adminOnly t (Record.of op b) .invalidOpcode) ∧
  (∀ (op : Byte) (c : Nat → Body → Instr), (op, c) ∈ adminRows →
    ∀ (tag : Nat) (b : Body) (s : State), s.adm.read = some tag → (s.sq 0).state = .active →
      (s.cq 0).state = .active → ((Record.of op b).chainFlag = true ∨ (Record.of op b).keepFlag = true) →
      ∃ t, exec (c tag b) s = .next t ∧ s.adminOnly t (Record.of op b) .invalidField)

/-! ### Fetching -/

/-- The read of the entry at the head of `q` is issued: its address, and its tag, for which the block that asked waits
(R38, R45). -/
def headRead (s t : State) (q : SqId) : Prop :=
  t.link.outstanding = s.link.outstanding ++ [{
    access := .entryRead q, tag := s.link.next, addr := (s.sq q).base + BitVec.ofNat 64 (32 * (s.sq q).head), bytes := []
    issued := s.ticks }]

/-- The Admin Executor reads SQ0's head entry exactly when the engine is RUNNING, SQ0 ACTIVE with an unfetched entry, the
admin context empty and no read outstanding (R86). The fetch arbiter issues no read while one is outstanding or the
engine is not RUNNING. It goes on with the turn in progress while that queue can fetch and its weight is not used up or
it holds the chain-fetch lock; otherwise the turn ends and its queue is the rotation position. With no turn in progress
and no chain start waiting for the lock, the first queue after the rotation position that can fetch is served, and when
none can, nothing is read (R90 to R92). -/
def Obligations.EntriesAreFetched : Prop :=
  (∀ s : State, let x := s.sq 0
    let may := s.ctl.engine = .running ∧ x.state = .active ∧ (x.tail + x.size - x.head) % x.size ≠ 0 ∧
      s.adm.ctx = none ∧ s.adm.read = none
    (may → s.adminFetch.adm.read = some s.link.next ∧ headRead s s.adminFetch 0) ∧ (¬ may → s.adminFetch = s)) ∧
  (∀ (s : State) (q : SqId), s.canFetch q = true ↔
    (s.sq q).state = .active ∧ ((s.sq q).tail + (s.sq q).size - (s.sq q).head) % (s.sq q).size ≠ 0 ∧
    (s.sq q).staging = none ∧ s.ctxs.length < 64 ∧
    ∀ l, s.lock = some l → l.sq ≠ q → s.ctxs.length + (16 - l.fetched) < 64) ∧
  (∀ s : State, s.ctl.engine ≠ .running ∨ s.arb.read ≠ none → s.ioFetch.arb.read = s.arb.read ∧ s.ioFetch.link = s.link) ∧
  (∀ (s : State) (q : SqId), s.ctl.engine = .running → s.arb.read = none → s.arb.turn = some q →
    let goesOn := s.canFetch q = true ∧ (s.arb.count < (s.sq q).weight ∨ ∃ l, s.lock = some l ∧ l.sq = q)
    (goesOn → s.ioFetch.arb = { s.arb with read := some { sq := q, tag := s.link.next } } ∧ headRead s s.ioFetch q) ∧
    (¬ goesOn →
      s.ioFetch = ({ s with arb := { rotation := some q, turn := none, count := 0, read := none } } : State).ioFetch)) ∧
  (∀ s : State, s.ctl.engine = .running → s.arb.read = none → s.arb.turn = none →
    (∀ q x, (s.sq q).staging = some x → x.waitsLock = false) →
    let place := fun q : SqId => (q.val + 14 - (match s.arb.rotation with
      | some r => r.val
      | none => 0)) % 15
    (∀ q, q ≠ 0 → s.canFetch q = true → (∀ p, p ≠ 0 → place p < place q → s.canFetch p = false) →
      s.ioFetch.arb = { s.arb with turn := some q, read := some { sq := q, tag := s.link.next } } ∧
      headRead s s.ioFetch q) ∧
    ((∀ q, q ≠ 0 → s.canFetch q = false) → s.ioFetch = s))

/-! ### I/O entries -/

/-- The fields of each I/O command and their ranges (R70). A READ with KEEP passes (log entry 30). -/
def Obligations.IoFieldRanges : Prop :=
  ∀ r : Record,
    let place := (r.byte 4).toNat ≤ 3 ∧ 1 ≤ (r.byte 5).toNat ∧ (r.byte 5).toNat ≤ 62
    (∀ k : IoKind, k = .read ∨ k = .write ∨ k = .maskedWrite → (k.fieldsOk r = true ↔ place)) ∧
    (IoKind.fieldsOk .broadcastWrite r = true ↔ (r.byte 4).toNat ≤ 3 ∧ r.byte 5 = 0 ∧ r.keepFlag = false) ∧
    (IoKind.fieldsOk .readBlock r = true ↔ place ∧ 1 ≤ (r.byte 7).toNat ∧ (r.byte 7).toNat ≤ 32 ∧
      (r.byte 6).toNat + (r.byte 7).toNat - 1 ≤ 255 ∧ r.address.toNat % 2 = 0 ∧
      r.address.toNat + 2 * (r.byte 7).toNat ≤ 2 ^ 64 ∧ r.keepFlag = false) ∧
    (IoKind.fieldsOk .waitUntil r = true ↔ place ∧ r.half 12 &&& ~~~(r.half 10) = 0 ∧ 1 ≤ (r.half 14).toNat ∧
      1 ≤ (r.half 16).toNat ∧ r.keepFlag = false) ∧
    (IoKind.fieldsOk .fence r = true ↔ r.keepFlag = false)

/-- An I/O entry outside chains, with its fields in range and its segment ACTIVE, takes a FREE context and stands
PENDING in its segment's list. In a list of 32 a context is STAGED in its queue's staging slot instead, and in one
with room it stands at the tail (R45, R68, R69, R73). A STAGED context that does not wait for the chain-fetch lock moves
to the tail of its segment's list, as PENDING, and leaves its slot, when the list has room and no such context of the
segment was fetched before it, and none that could move is left; the place that a READ leaves as it ends is taken in the same
step (R93). -/
def Obligations.IoEntriesPlaced : Prop :=
  (∀ op k c, (op, k, c) ∈ ioRows → k ≠ .fence →
    ∀ (tag : Nat) (b : Body) (s : State) (q : SqId) (g : SegId), let r := Record.of op b
      s.takesIo q tag → s.distinct → r.chainFlag = false → k.fieldsOk r = true → (r.byte 4).toNat = g.val →
      (s.seg g).state = .active → (s.seg g).pendingList.length < 32 →
      ∃ t, exec (c tag b) s = .next t ∧ s.entryPlaced t q g (Ctx.fetched · q r none) ∧
        t.standing = (s.entryTaken q).standing) ∧
  (∀ (s : State) (c : Ctx), s.ctx c.num = some c → (s.seg c.seg).pendingList.length < 32 →
    ((s.place c.num).seg c.seg).pendingList = (s.seg c.seg).pendingList ++ [c.num] ∧
      (s.place c.num).ctx c.num = some { c with state := .pending }) ∧
  (∀ (s : State) (c : Ctx), s.ctx c.num = some c → 32 ≤ (s.seg c.seg).pendingList.length →
    ((s.place c.num).sq c.sq).staging = some { ctx := c.num, waitsLock := false } ∧
      (s.place c.num).ctx c.num = some { c with state := .staged } ∧ (s.place c.num).segs = s.segs) ∧
  (∀ (s : State) (l m : List Ctx) (c : Ctx), s.distinct → s.ctxs = l ++ c :: m → c.state = .staged →
    (s.sq c.sq).staging ≠ some { ctx := c.num, waitsLock := true } → (s.seg c.seg).pendingList.length < 32 →
    (∀ d ∈ l, d.state = .staged → d.seg = c.seg →
      (s.sq d.sq).staging = some { ctx := d.num, waitsLock := true }) →
    { c with state := .pending } ∈ s.moveAllStaged.ctxs ∧
      (∃ n, (s.moveAllStaged.seg c.seg).pendingList = (s.seg c.seg).pendingList ++ c.num :: n) ∧
      ∀ x, (s.moveAllStaged.sq c.sq).staging = some x → x.ctx ≠ c.num) ∧
  (∀ (s : State) (c : Ctx), s.distinct → c ∈ s.moveAllStaged.ctxs → c.state = .staged →
    (s.moveAllStaged.sq c.sq).staging ≠ some { ctx := c.num, waitsLock := true } →
    32 ≤ (s.moveAllStaged.seg c.seg).pendingList.length) ∧
  (∀ (g : SegId) (v : Half) (parity : Bool) (s : State) (w : Wire) (c d : Ctx) (l m : List Ctx), s.hostFrame g w c →
    c.mark = none → c.kind = some .read → Attempt.ofAnswer .read 0b01 v parity = .accept v →
    c.num ∈ (s.seg g).pendingList → (s.seg g).pendingList.length ≤ 32 →
    s.ctxs = l ++ d :: m → d.state = .staged → d.seg = g → d.chain = none →
    (s.sq d.sq).staging ≠ some { ctx := d.num, waitsLock := true } →
    (∀ e ∈ l, e.state = .staged → e.seg = g → (s.sq e.sq).staging = some { ctx := e.num, waitsLock := true }) →
    ∃ t, exec (.frameAttemptEnd g 0b01 v parity) s = .next t ∧ { d with state := .pending } ∈ t.ctxs ∧
      d.num ∈ (t.seg g).pendingList)

/-- An I/O entry outside chains whose fields are out of range completes INVALID_FIELD; one whose segment is OFF or
DRAINING completes SEGMENT_OFF, and one whose segment is FAULTED or RECOVERING completes SEGMENT_FAULT; one whose
opcode names no I/O command completes INVALID_OPCODE. Each takes a context and becomes READY at once (R69, R72). -/
def Obligations.IoEntriesRefused : Prop :=
  (∀ op k c, (op, k, c) ∈ ioRows →
    ∀ (tag : Nat) (b : Body) (s : State) (q : SqId), let r := Record.of op b
      s.takesIo q tag → s.distinct → r.chainFlag = false → (s.cq (s.sq q).bound).state = .active →
      ∃ t, exec (c tag b) s = .next t ∧
        (k.fieldsOk r = false → s.entryEnds t q (Ctx.fetched · q r none) .invalidField) ∧
        (∀ g : SegId, k ≠ .fence → k.fieldsOk r = true → (r.byte 4).toNat = g.val →
          ((s.seg g).state = .off ∨ (s.seg g).state = .draining →
            s.entryEnds t q (Ctx.fetched · q r none) .segmentOff) ∧
          ((s.seg g).state = .faulted ∨ (s.seg g).state = .recovering →
            s.entryEnds t q (Ctx.fetched · q r none) .segmentFault))) ∧
  (∀ (tag : Nat) (op : Byte) (b : Body) (s : State) (q : SqId), codeValid false op = false →
    s.takesIo q tag → s.distinct → (Record.of op b).chainFlag = false → (s.cq (s.sq q).bound).state = .active →
    ∃ t, exec (.invalidOpcodeEntry false tag op b) s = .next t ∧
      s.entryEnds t q (Ctx.fetched · q (Record.of op b) none) .invalidOpcode)

/-- A FENCE with no earlier command of its queue out of FREE completes SUCCESS at once. One that waits is not released
while a command of its queue fetched before it is unposted, and no context of its queue fetched after it is startable
meanwhile (R73, R83, R98, R107). -/
def Obligations.FenceEntries : Prop :=
  (∀ (tag : Nat) (b : Body) (s : State) (q : SqId), let r := Record.of 0x07 b
    s.takesIo q tag → s.distinct → r.chainFlag = false → r.keepFlag = false →
    (s.cq (s.sq q).bound).state = .active → (∀ c ∈ s.ctxs, c.sq ≠ q) →
    ∃ t, exec (.fence tag b) s = .next t ∧ s.entryEnds t q (Ctx.fetched · q r none) .success) ∧
  (∀ (s : State) (l m : List Ctx) (c d : Ctx), s.distinct → s.ctxs = l ++ c :: m → d ∈ l → d.sq = c.sq →
    s.releaseFence c.num = s) ∧
  (∀ (s : State) (l m : List Ctx) (c d : Ctx), s.distinct → s.ctxs = l ++ c :: m → d ∈ l → d.sq = c.sq →
    d.state = .fenceWait → s.startable c = false)

/-- The entry that opens a chain takes the chain-fetch lock when it is free and 16 contexts are FREE, and is placed
with position 1; the next entries take the next positions up to the last, which leaves CHAIN clear; a member of a
chain that has failed completes CHAIN_ABORTED at its fetch (R71, R72, R94, R95). When a chain ends by a failure, every
member that has not run ends CHAIN_ABORTED, no context outside the chain is touched, and members fetched later will
end CHAIN_ABORTED (R72, R106). -/
def Obligations.ChainsAreFetchedAndFail : Prop :=
  (∀ op k c, (op, k, c) ∈ ioRows → k ≠ .fence → k ≠ .waitUntil →
     ∀ (tag : Nat) (b : Body) (s : State) (q : SqId) (g : SegId), let r := Record.of op b
       s.arb.read = some { sq := q, tag := tag } → (s.sq q).state = .active → s.distinct →
       k.fieldsOk r = true → (r.byte 4).toNat = g.val → (s.seg g).state = .active →
       (s.seg g).pendingList.length < 32 →
       ((s.sq q).chain = none → r.chainFlag = true → s.lock = none → s.ctxs.length ≤ 48 →
         (∀ h, (s.seg h).holder ≠ some (.chain s.nextChain)) →
         ∃ t, exec (c tag b) s = .next t ∧
           s.entryPlaced t q g (Ctx.fetched · q r (some { id := s.nextChain, pos := 1, last := false })) ∧
           t.lock = some { sq := q, chain := s.nextChain, fetched := 1 } ∧
           t.standing = ((s.entryTaken q).updSq q fun x =>
             { x with chain := some { id := s.nextChain, next := 2, segByte := r.byte 4, failed := false } }).standing) ∧
       (∀ o l, (s.sq q).chain = some o → o.failed = false → o.segByte = r.byte 4 → 2 ≤ o.next → o.next < 16 →
         s.ctxs.length < 64 →
         s.lock = some l → l.chain = o.id → l.sq = q → (∀ h, (s.seg h).holder ≠ some (.chain o.id)) →
         ∃ t, exec (c tag b) s = .next t ∧
           s.entryPlaced t q g (Ctx.fetched · q r (some { id := o.id, pos := o.next, last := !r.chainFlag })) ∧
           (r.chainFlag = true → t.lock = some { l with fetched := l.fetched + 1 }) ∧
           t.standing = ((s.entryTaken q).updSq q fun x =>
             { x with chain := if r.chainFlag then some { o with next := o.next + 1 } else none }).standing) ∧
       (∀ o, (s.sq q).chain = some o → o.failed = true → o.next < 16 → s.ctxs.length < 64 →
         (s.cq (s.sq q).bound).state = .active →
         ∃ t n, exec (c tag b) s = .next t ∧ (∀ d ∈ s.ctxs, d.num ≠ n) ∧
           t.readyWith (s.sq q).bound
             (Ctx.fetched n q r (some { id := o.id, pos := o.next, last := !r.chainFlag })) .chainAborted)) ∧
  (∀ (s : State) (id : Nat), s.distinct →
     (∀ c ∈ s.ctxs, c.inChain id = true → c.unreached = true → c.staged = [] →
       (s.cq (s.sq c.sq).bound).state = .active →
       ∃ d ∈ (s.abortChain id).ctxs, d.endsAs c .chainAborted ∧
         .ctx c.num ∈ ((s.abortChain id).cq (s.sq c.sq).bound).ready) ∧
     (∀ c ∈ s.ctxs, ¬ (c.inChain id = true ∧ c.unreached = true) → c ∈ (s.abortChain id).ctxs) ∧
     (∀ q o, ((s.abortChain id).sq q).chain = some o → o.id = id → o.failed = true))

/-! ### Outcomes of entry reads, and engine failure -/

/-- A failed entry read of an ACTIVE I/O queue with no chain open takes the queue to ERROR with QUEUE_ERROR, cause MEMORY, and its head does
not move. The record of a read for a queue that has left ACTIVE is discarded: nothing changes but that the read is no
longer waited for. The entry of a read that no block waits for changes nothing (R55, R58, R174; log entry 1). An
access to host memory that runs out of time ends as the same access failing, at the moment 50 ms after its issue, and the
time does not move on past that moment while the access is outstanding, whatever moves it on, so that no outcome comes later
(R57, R58, R59, R80, R89, R157; the tick: log entry 3). -/
def Obligations.EntryReadsAndTimeouts : Prop :=
  ((∀ (q : SqId) (tag : Nat) (s : State), q ≠ 0 → s.arb.read = some { sq := q, tag := tag } →
     (s.sq q).state = .active → (s.sq q).chain = none →
     ∃ t, exec (.entryReadFail q tag) s = .next t ∧
       t.standing = ((s.setSq q { s.sq q with state := .error }).handEvent (.queueError false q.val .memory)).standing) ∧
   (∀ (q : SqId) (tag : Nat) (s : State), (s.sq q).state ≠ .active → tag < s.link.next →
     s.arb.read = some { sq := q, tag := tag } →
     ∃ t, exec (.discardedEntryRead q tag) s = .next t ∧ t.standing = s.standing ∧
       ∀ rd, t.arb.read = some rd → rd.tag ≠ tag) ∧
   (∀ (tag : Nat) (s : State), (s.sq 0).state ≠ .active → s.adm.read = some tag →
     (∀ rd, s.arb.read = some rd → rd.sq ≠ 0) →
     ∃ t, exec (.discardedEntryRead 0 tag) s = .next t ∧ t.standing = s.standing ∧ t.adm.read = none) ∧
   (∀ op k c, (op, k, c) ∈ ioRows → ∀ (tag : Nat) (b : Body) (s : State), (∀ rd, s.arb.read = some rd → rd.tag ≠ tag) →
     ∃ t, exec (c tag b) s = .next t ∧ t.standing = s.standing)) ∧
  (∀ (tag : Nat) (s : State),
     let late := match ((s.link.outstanding.filter fun d => d.tag == tag).map (·.issued)).min? with
       | some i => s.advance (i + 5000)
       | none => s
     (∀ q, ∃ t, exec (.dmaAccessTimeout (.entryRead q) tag) s = .next t ∧ exec (.entryReadFail q tag) late = .next t) ∧
     (∀ c, ∃ t, exec (.dmaAccessTimeout (.completion c) tag) s = .next t ∧
       exec (.completionWriteFail c tag) late = .next t) ∧
     (∀ n, ∃ t, exec (.dmaAccessTimeout (.buffer n) tag) s = .next t ∧
       exec (.bufferWriteDone n tag false) late = .next t) ∧
     (∃ t, exec (.dmaAccessTimeout .result tag) s = .next t ∧ exec (.resultWriteDone tag false) late = .next t) ∧
     (∃ t, exec (.dmaAccessTimeout .event tag) s = .next t ∧ exec (.eventWriteFail tag) late = .next t)) ∧
  (∀ (low : LineReads) (s : State), ∀ d ∈ (s.passTick low).link.outstanding, (s.passTick low).ticks ≤ d.issued + 5000)

/-- What the engine's entry to FAILED leaves of a segment. One with a frame on its wire that was ACTIVE or DRAINING is
DRAINING, and every other is OFF; no due poll and no hold is left. An ACTIVE one drops its response writes, and those in
their retry delay, and keeps its jobs only while its frame runs (R188 steps 3 and 6). -/
def segmentFailed (s t : State) (g : SegId) : Prop :=
  let y := s.seg g
  let runs := y.wire ≠ none ∧ (y.state = .active ∨ y.state = .draining)
  (t.seg g).state = (if runs then .draining else .off) ∧ (t.seg g).wire = y.wire ∧
  (t.seg g).settings = y.settings ∧ (t.seg g).duePolls = [] ∧ (t.seg g).holder = none ∧
  (y.state = .active → (t.seg g).respDelays = [] ∧
    ∀ e, e ∈ (t.seg g).writes ↔ runs ∧ e ∈ y.writes ∧ ∃ x, e = .job x) ∧
  ∀ x : Tgt, x.seg = g →
    let givenUp := ¬ runs ∧ (y.state = .active ∨ y.state = .draining) ∧ (s.pres x).state = .restoring
    t.pres x = (if givenUp then { s.pres x with state := .lost } else s.pres x) ∧
    (givenUp → t.job x = none) ∧
    (¬ givenUp → ∀ j, s.job x = some j →
      t.job x = some { j with retryEnd := if y.state = .active then none else j.retryEnd })

/-- The engine has entered FAILED with cause ADMIN_MEMORY. The contexts with a frame on the wire are left, every other is
FREE; the admin context is empty, no posting and no read is waited for, and every staging slot is empty. ARMED watches are
HALTED, and others keep their state. Queue indexes and states, the chains open on a queue, the event ring's records, the
restore pool and the interrupt flags keep their values (R187, R188). -/
def failedFrom (s t : State) : Prop :=
  t.ctl = { s.ctl with engine := .failed, cause := .adminMemory } ∧
  t.adm = { ctx := none, read := none } ∧ t.arb.read = none ∧ (∀ c, (t.cq c).inFlight = none) ∧
  (∀ q, (t.sq q).staging = none) ∧
  (∀ c ∈ s.ctxs, c.state = .active → s.onWire c = true → c ∈ t.ctxs) ∧
  (∀ c ∈ t.ctxs, ∃ d ∈ s.ctxs, d.num = c.num ∧ s.onWire d = true) ∧
  (∀ g, segmentFailed s t g) ∧
  (∀ w x, s.watch w = some x → ∃ y, t.watch w = some y ∧ (y.poll = .onWire ↔ x.poll = .onWire) ∧
    y.state = if x.state = .armed then .halted else x.state) ∧
  (∀ q, (t.sq q).standing = (s.sq q).standing) ∧ (∀ c, (t.cq c).standing = (s.cq c).standing) ∧
  t.ev.standing = s.ev.standing ∧ t.irq = s.irq ∧ t.pool = s.pool

/-- A failed read of an SQ0 entry, and a failed write of a CQ0 completion, take the engine to FAILED (R58, R59, R187, R188).
Of contexts, only those with a frame on the wire are left; jobs stay with a segment whose frame runs on, and are abandoned,
with their RESTORING targets LOST, on one that is OFF at once (R188 steps 3, 4 and 6). Three readings are the model's: the
failed read counts whatever SQ0's state (log entry 18); every segment is said, a DRAINING or RECOVERING one too, and the
chains open on a queue stay as they are (log entry 19). -/
def Obligations.AdminMemoryFailures : Prop :=
  (∀ (tag : Nat) (s : State), s.adm.read = some tag → ∃ t, exec (.entryReadFail 0 tag) s = .next t ∧ failedFrom s t) ∧
  (∀ (tag : Nat) (p : Posting) (s : State), (s.cq 0).state = .active → (s.cq 0).inFlight = some p → p.tag = tag →
    ∃ t, exec (.completionWriteFail 0 tag) s = .next t ∧ failedFrom s t)

/-! ### Frame boundaries -/

/-- A context of a pending list may start exactly when it is PENDING and the five conditions of R98 hold (R98). -/
def Obligations.StartableContexts : Prop :=
  ∀ (s : State) (c : Ctx), s.distinct → c ∈ s.ctxs →
    (s.startable c = true ↔
      c.state = .pending ∧
      (∀ l m, (s.seg c.seg).pendingList = l ++ c.num :: m → c.num ∉ l →
        ∀ d ∈ s.ctxs, d.num ∈ l → d.sq = c.sq → d.state ≠ .pending) ∧
      (c.num ∉ (s.seg c.seg).pendingList →
        ∀ d ∈ s.ctxs, d.num ∈ (s.seg c.seg).pendingList → d.sq = c.sq → d.state ≠ .pending) ∧
      (∀ l m, s.ctxs = l ++ c :: m → ∀ d ∈ l, d.sq = c.sq → d.state ≠ .fenceWait) ∧
      (c.kind ≠ some .broadcastWrite → (s.pres c.tgt).state ≠ .restoring) ∧
      (c.kind = some .broadcastWrite → ∀ x : Tgt, x.seg = c.seg → (s.pres x).state ≠ .restoring) ∧
      (∀ m, c.chain = some m →
        (∀ o, (s.sq c.sq).chain = some o → o.id ≠ m.id) ∧
        ∀ l k, s.ctxs = l ++ c :: k → ∀ d ∈ l, d.inChain m.id = true → d.unreached = false))

/-- At a frame boundary with no holder, the oldest eligible internal write starts: a response write whose target is not
RESTORING, or the next write of a replay job. With no eligible internal write, the oldest due poll starts when no host
context waits or the last class served is HOST. Where nothing may start, nothing changes (R100 to R102, R117, R140); a
boundary on a segment that is not ACTIVE, with a frame on its wire, or in FAILED, changes nothing (the model's choice, log
entry 1). -/
def Obligations.BoundariesServeWritesAndPolls : Prop :=
  (∀ (g : SegId) (s : State), ¬ ((s.seg g).state = .active ∧ (s.seg g).wire = none ∧ s.ctl.engine ≠ .failed) →
    ∃ t, exec (.frameBoundary g) s = .next t ∧ t.standing = s.standing) ∧
  (∀ (g : SegId) (s : State), s.atBoundary g → let y := s.seg g
    (∀ l m r, y.writes = l ++ .response r :: m → (∀ e ∈ l, ∃ p, e = .response p ∧ (s.pres p.tgt).state = .restoring) →
      (s.pres r.tgt).state ≠ .restoring →
      ∃ t, exec (.frameBoundary g) s = .next t ∧
        t.standing = (s.setSeg g { y with
          writes := l ++ m, stuckCount := 0
          wire := some (frameOf .write (some r.tgt) r.index r.data
            (.response { r with tries := r.tries + 1 } false)) }).standing) ∧
    (∀ l m x j, y.writes = l ++ .job x :: m → (∀ e ∈ l, ∃ p, e = .response p ∧ (s.pres p.tgt).state = .restoring) →
      s.job x = some j → (j.inFlight = none → s.restoreAbove x j.cursor ≠ []) →
      ∃ t w, exec (.frameBoundary g) s = .next t ∧
        (∀ v, j.inFlight = some v → w = { v with tries := v.tries + 1 }) ∧
        (j.inFlight = none → w.tries = 1 ∧ ∃ e, (s.restoreAbove x j.cursor).head? = some e ∧ w.index = e.index ∧
          w.value = e.value) ∧
        t.standing = ((s.setSeg g { y with
          writes := l ++ m, stuckCount := 0
          wire := some (frameOf .write (some x) w.index w.value (.replay x)) }).updJob x fun j =>
            { j with cursor := some w.index, inFlight := some w, retryEnd := none }).standing) ∧
    (∀ d l x, (∀ e ∈ y.writes, ∃ p, e = .response p ∧ (s.pres p.tgt).state = .restoring) → y.duePolls = d :: l →
      s.watch d.watch = some x → (s.hostChoice g = none ∨ y.lastServed = .host) →
      ∃ t, exec (.frameBoundary g) s = .next t ∧
        t.standing = ((s.setSeg g { y with
          duePolls := l, lastServed := .poll, stuckCount := 0
          wire := some (frameOf .read (some x.cfg.tgt) x.cfg.index 0 (.poll d.watch)) }).setWatch d.watch
            (some { x with poll := .onWire, tries := x.tries + 1 })).standing) ∧
    ((∀ e ∈ y.writes, ∃ p, e = .response p ∧ (s.pres p.tgt).state = .restoring) → y.duePolls = [] →
      s.hostChoice g = none → ∃ t, exec (.frameBoundary g) s = .next t ∧ t.standing = s.standing))

/-- A context whose frame starts: ACTIVE, with one more attempt; a WAIT_UNTIL's first frame sets its deadline (R74,
R82). -/
def startedAs (s : State) (c : Ctx) : Ctx :=
  { c with
    state := .active, attempts := min (c.attempts + 1) 255, tries := c.tries + 1, retryEnd := none, pollEnd := none
    deadline := if c.kind = some .waitUntil ∧ c.attempts = 0 then some (s.ticks / 10 + 10 * (c.record.half 16).toNat)
      else c.deadline }

/-- At a frame boundary with no holder, the host context at the head of its class starts when no internal write is eligible
and no poll is due, or the last class served is POLL: one offered again whose target is not held, or else the first startable
one in list order. A MASKED_WRITE or READ_BLOCK outside chains holds the segment from then on (R99 to R103). A holder's next
frame starts, whether it goes on or its retry delay has ended: that of the MASKED_WRITE or READ_BLOCK, or of the member that
the chain has reached; in its retry delay nothing starts (R103, R105). The holder yields when the frame is held by RESTORING:
the hold ends, its context is PENDING again, and the boundary is served without it (R104; log
entry 23). -/
def Obligations.BoundariesServeHosts : Prop :=
  (∀ (g : SegId) (s : State) (c : Ctx), s.atBoundary g → s.distinct → s.hostChoice g = some c → c.chain = none →
    (∀ e ∈ (s.seg g).writes, ∃ p, e = .response p ∧ (s.pres p.tgt).state = .restoring) →
    ((s.seg g).duePolls = [] ∨ (s.seg g).lastServed = .poll) →
    ∃ t, exec (.frameBoundary g) s = .next t ∧ startedAs s c ∈ t.ctxs ∧ s.keepsOthers t c.num ∧
      (t.seg g).holder = (if c.kind = some .maskedWrite then some (.maskedWrite c.num)
        else if c.kind = some .readBlock then some (.readBlock c.num) else none) ∧
      t.standing = (s.setSeg g { s.seg g with
        lastServed := .host, stuckCount := 0
        wire := some (frameOf c.frameKind (if c.kind = some .broadcastWrite then none else some c.tgt) c.frameIndex
          c.frameData (.host c.num)) }).standing) ∧
  (∀ (g : SegId) (s : State) (c : Ctx), s.hostChoice g = some c →
    (∃ l m, (s.seg g).offered = l ++ c.num :: m ∧ s.heldByRestoring c = false ∧
      ∀ n ∈ l, ∀ d, s.ctx n = some d → s.heldByRestoring d = true) ∨
    ((∀ n ∈ (s.seg g).offered, ∀ d, s.ctx n = some d → s.heldByRestoring d = true) ∧
      ∃ l m, (s.seg g).pendingList = l ++ c.num :: m ∧ s.startable c = true ∧
        ∀ n ∈ l, ∀ d, s.ctx n = some d → s.startable d = false)) ∧
  (∀ (g : SegId) (s : State) (c : Ctx), s.distinct → c ∈ s.ctxs → (s.seg g).state = .active → (s.seg g).wire = none →
    s.ctl.engine ≠ .failed → c.buffer = none → c.state = .active ∨ c.state = .retryWait →
    ((s.seg g).holder = some (.maskedWrite c.num) ∨ (s.seg g).holder = some (.readBlock c.num) ∨
      ∃ m, c.chain = some m ∧ (s.seg g).holder = some (.chain m.id) ∧
        ∀ l k, s.ctxs = l ++ c :: k → ∀ d ∈ l, d.inChain m.id = true → d.state ≠ .active ∧ d.state ≠ .retryWait) →
    let held := if c.kind = some .broadcastWrite then ∃ x : Tgt, x.seg = c.seg ∧ (s.pres x).state = .restoring
      else (s.pres c.tgt).state = .restoring
    let delayed := c.state = .retryWait ∧ c.retryEnd ≠ none
    (delayed → ∃ t, exec (.frameBoundary g) s = .next t ∧ c ∈ t.ctxs ∧ (t.seg g).holder = (s.seg g).holder ∧
      t.standing = s.standing) ∧
    (¬ delayed → ¬ held →
      ∃ t, exec (.frameBoundary g) s = .next t ∧ startedAs s c ∈ t.ctxs ∧ s.keepsOthers t c.num ∧
        (t.seg g).holder = (s.seg g).holder ∧
        t.standing = (s.setSeg g { s.seg g with
          stuckCount := 0
          wire := some (frameOf c.frameKind (if c.kind = some .broadcastWrite then none else some c.tgt) c.frameIndex
            c.frameData (.host c.num)) }).standing) ∧
    (¬ delayed → held →
      exec (.frameBoundary g) s = exec (.frameBoundary g) (s.yieldIfHeld g) ∧
      ((s.yieldIfHeld g).seg g).holder = none ∧
      (s.yieldIfHeld g).ctx c.num = some { c with
        state := .pending, retryEnd := none, tries := 0
        value := if c.kind = some .maskedWrite then none else c.value }))

/-! ### Attempts of host commands -/

/-- A HOLD or a parity failure is retried after the retry delay while the budget lasts, and ends the command when it
is spent, or when a WAIT_UNTIL's deadline has passed; REFUSE and SILENT end the command at once. The Presence Table
takes the report first. A command with a cancel mark ABORTED ends ABORTED whatever the result; another mark ends a
command whose attempt is not final, and a final attempt keeps its outcome. Said of commands outside chains whose segment
is ACTIVE; ends, but for ABORTED, of those with no block data read, and ABORTED of those but READ_BLOCKs and KEEP writes
(R11, R12, R74, R82, R167, R171). -/
def Obligations.HostAttemptsEnd : Prop :=
  ∀ (g : SegId) (answer : BitVec 2) (data : Half) (parity : Bool) (s : State) (w : Wire) (c : Ctx),
    s.hostFrame g w c → w.kind ≠ .broadcast →
    let a := Attempt.ofAnswer w.kind answer data parity
    let more := c.tries < 1 + (s.seg g).settings.retryLimit
    let ends := fun (d : Ctx) (st : Status) =>
      ∃ t, exec (.frameAttemptEnd g answer data parity) s = .next t ∧ t.readyWith (s.sq c.sq).bound d st ∧
        s.keepsOthers t c.num ∧ t.standing = (s.reported g c.tgt w.owner.source a).standing
    (c.mark = none → a = .hold ∨ a = .parityFail → more → c.deadlinePassed = false →
      ∃ t, exec (.frameAttemptEnd g answer data parity) s = .next t ∧
        { c with state := .retryWait, retryEnd := some (s.ticks + (s.seg g).settings.retryDelay) } ∈ t.ctxs ∧
        s.keepsOthers t c.num ∧ t.standing = (s.reported g c.tgt w.owner.source a).standing) ∧
    (c.mark ≠ some .aborted → c.staged = [] →
      (a = .hold ∨ a = .parityFail → more → c.deadlinePassed = true → ends c .conditionTimeout) ∧
      (a = .hold → ¬ more → ends c .targetBusy) ∧ (a = .parityFail → ¬ more → ends c .dataParity) ∧
      (a = .refuse → ends c .targetRefused) ∧ (a = .silent → ends c .noAnswer)) ∧
    (c.mark = some .aborted → c.kind ≠ some .readBlock → c.record.keepFlag = false → ends (c.apply w.kind a) .aborted) ∧
    (∀ st, c.mark = some st → st ≠ .aborted → c.staged = [] → a = .hold ∨ a = .parityFail → more →
      c.deadlinePassed = false → ends c st)

/-- An ACCEPT with good parity ends a READ SUCCESS with the value read. It ends a WAIT_UNTIL whose sample matches, or
whose deadline has passed, and otherwise begins its poll interval. It forms a MASKED_WRITE's merged value, and the
command goes on holding its segment. It appends to a READ_BLOCK's data, whose buffer write is issued after the last
register. Said of commands outside chains with no cancel mark (R75, R77, R79 to R81). -/
def Obligations.HostReadsAccepted : Prop :=
  ∀ (g : SegId) (v : Half) (parity : Bool) (s : State) (w : Wire) (c : Ctx),
    s.hostFrame g w c → c.mark = none → w.kind = .read → Attempt.ofAnswer .read 0b01 v parity = .accept v →
    ∃ t, exec (.frameAttemptEnd g 0b01 v parity) s = .next t ∧ s.keepsOthers t c.num ∧
      t.standing = (s.reported g c.tgt .host (.accept v)).standing ∧
      (c.kind = some .read → t.readyWith (s.sq c.sq).bound { c with value := some v } .success) ∧
      (c.kind = some .waitUntil →
        if v &&& c.record.half 10 = c.record.half 12 then
          t.readyWith (s.sq c.sq).bound { c with value := some v } .success
        else if c.deadlinePassed = true then
          t.readyWith (s.sq c.sq).bound { c with value := some v } .conditionTimeout
        else { c with
          value := some v, state := .pollWait, tries := 0
          pollEnd := some (s.ticks / 10 + (c.record.half 14).toNat) } ∈ t.ctxs) ∧
      (c.kind = some .maskedWrite →
        { c with
          value := some ((c.record.half 8 &&& c.record.half 10) ||| (v &&& ~~~(c.record.half 10)))
          tries := 0 } ∈ t.ctxs ∧
        ((s.seg g).holder = some (.maskedWrite c.num) → (t.seg g).holder = some (.maskedWrite c.num))) ∧
      (c.kind = some .readBlock →
        (c.staged.length + 1 < (c.record.byte 7).toNat →
          { c with staged := c.staged ++ [v], tries := 0 } ∈ t.ctxs ∧
          ((s.seg g).holder = some (.readBlock c.num) → (t.seg g).holder = some (.readBlock c.num))) ∧
        (c.staged.length + 1 = (c.record.byte 7).toNat →
          (t.seg g).holder ≠ some (.readBlock c.num) ∧
          ∃ d ∈ t.ctxs, ∃ m ∈ t.link.outstanding, d.num = c.num ∧ d.state = .active ∧ d.status = some .success ∧
            d.staged = c.staged ++ [v] ∧ d.buffer = some m.tag ∧ m.access = .buffer c.num ∧
            m.addr = c.record.address ∧
            m.bytes = (c.staged ++ [v]).flatMap fun x => [x.extractLsb' 0 8, x.extractLsb' 8 8]))

/-- An ACCEPTed WRITE frame ends a WRITE, or a MASKED_WRITE with its merged value, SUCCESS; with KEEP the value is
recorded in the target's restore list, and the status is SUCCESS_NOT_KEPT when the list does not hold the index and
the pool is full. A BROADCAST frame ends its command SUCCESS and gives the Presence Table no report. Said of commands
outside chains; those of WRITE frames with no cancel mark (R76 to R78, R135). -/
def Obligations.HostWritesAccepted : Prop :=
  (∀ (g : SegId) (d : Half) (parity : Bool) (s : State) (w : Wire) (c : Ctx),
    s.hostFrame g w c → c.mark = none → w.kind = .write → s.poolInv →
    let held := ∃ e ∈ s.pool, e.tgt = c.tgt ∧ e.index = c.record.byte 6
    let value := if c.kind = some .maskedWrite then c.value.getD 0 else c.record.half 8
    ∃ t, exec (.frameAttemptEnd g 0b01 d parity) s = .next t ∧ s.keepsOthers t c.num ∧
      t.standing = ({ s.reported g c.tgt .host (.accept d) with pool := t.pool } : State).standing ∧
      (c.record.keepFlag = false → t.readyWith (s.sq c.sq).bound c .success ∧ t.pool = s.pool) ∧
      (c.record.keepFlag = true → held ∨ s.pool.length < 384 → t.readyWith (s.sq c.sq).bound c .success ∧
        ∀ e, e ∈ t.pool ↔ e = { tgt := c.tgt, index := c.record.byte 6, value := value } ∨
          (e ∈ s.pool ∧ ¬ (e.tgt = c.tgt ∧ e.index = c.record.byte 6))) ∧
      (c.record.keepFlag = true → ¬ (held ∨ s.pool.length < 384) →
        t.readyWith (s.sq c.sq).bound c .successNotKept ∧ t.pool = s.pool)) ∧
  (∀ (g : SegId) (s : State) (w : Wire) (c : Ctx), s.hostFrame g w c → c.kind = some .broadcastWrite →
    ∃ t, exec (.broadcastFrameEnd g) s = .next t ∧ t.readyWith (s.sq c.sq).bound c .success ∧
      s.keepsOthers t c.num ∧ t.standing = (s.setSeg g { s.seg g with wire := none }).standing)

/-- A member of the chain that holds the segment has ended with a success: the first member that has not ended, if it is
PENDING, is ACTIVE and the chain goes on holding the segment; when every other member has ended, the hold ends (R105). -/
def chainGoesOn (s t : State) (g : SegId) (c : Ctx) (id : Nat) : Prop :=
  (∀ l d m, s.ctxs = l ++ d :: m → d.inChain id = true → d.num ≠ c.num → d.state = .pending →
    (∀ e ∈ l, e.inChain id = true → e.num ≠ c.num → e.state = .ready) →
    { d with state := .active } ∈ t.ctxs ∧ (t.seg g).holder = some (.chain id)) ∧
  ((∀ d ∈ s.ctxs, d.inChain id = true → d.num ≠ c.num → d.state = .ready) → (t.seg g).holder = none)

/-- A member of the chain that holds the segment has ended without success: the hold ends, and every other member that has
not been reached ends CHAIN_ABORTED (R106). -/
def chainFails (s t : State) (g : SegId) (c : Ctx) (id : Nat) : Prop :=
  (t.seg g).holder = none ∧
  ∀ d ∈ s.ctxs, d.inChain id = true → d.num ≠ c.num → d.unreached = true →
    (s.cq (s.sq d.sq).bound).state = .active → t.cancelledAs (s.sq d.sq).bound d .chainAborted

/-- A chain whose member is chosen at a frame boundary is the holder from then on, and the member's frame starts (R103,
R105). When a member ends with a success, the next one is reached, and after the last the hold ends (R105; log
entry 23). When one ends
otherwise, the chain ends with it (R106). A READ_BLOCK member holds the chain until the outcome of its buffer write gives
it its status (R80, R105). Said of READs, WRITEs and BROADCAST_WRITEs with no cancel mark, of any member but a
BROADCAST_WRITE that is refused or not answered before it has read block data, and of READ_BLOCKs. -/
def Obligations.ChainsRunInOrder : Prop :=
  (∀ (g : SegId) (s : State) (c : Ctx) (m : ChainMember), s.atBoundary g → s.distinct → s.hostChoice g = some c →
    c.chain = some m →
    (∀ e ∈ (s.seg g).writes, ∃ p, e = .response p ∧ (s.pres p.tgt).state = .restoring) →
    ((s.seg g).duePolls = [] ∨ (s.seg g).lastServed = .poll) →
    ∃ t, exec (.frameBoundary g) s = .next t ∧ startedAs s c ∈ t.ctxs ∧ s.keepsOthers t c.num ∧
      (t.seg g).holder = some (.chain m.id) ∧
      t.standing = (s.setSeg g { s.seg g with
        lastServed := .host, stuckCount := 0
        wire := some (frameOf c.frameKind (if c.kind = some .broadcastWrite then none else some c.tgt) c.frameIndex
          c.frameData (.host c.num)) }).standing) ∧
  (∀ (g : SegId) (s : State) (w : Wire) (c : Ctx) (m : ChainMember), s.sendsFor g w c → c.chain = some m →
    (s.seg g).holder = some (.chain m.id) → s.ctl.engine ≠ .failed → (s.seg g).state = .active → c.mark = none →
    (s.cq (s.sq c.sq).bound).state = .active →
    (∀ answer data parity, let a := Attempt.ofAnswer w.kind answer data parity
      (c.kind = some .read ∨ c.kind = some .write → a.status = .success →
        ∃ t st, exec (.frameAttemptEnd g answer data parity) s = .next t ∧ st.isSuccess = true ∧
          t.readyWith (s.sq c.sq).bound (c.apply w.kind a) st ∧ chainGoesOn s t g c m.id) ∧
      (c.kind ≠ some .broadcastWrite → c.staged = [] → a = .refuse ∨ a = .silent →
        ∃ t, exec (.frameAttemptEnd g answer data parity) s = .next t ∧
          t.readyWith (s.sq c.sq).bound c (if a = .refuse then .targetRefused else .noAnswer) ∧
          chainFails s t g c m.id)) ∧
    (c.kind = some .broadcastWrite →
      ∃ t, exec (.broadcastFrameEnd g) s = .next t ∧ t.readyWith (s.sq c.sq).bound c .success ∧
        chainGoesOn s t g c m.id)) ∧
  (∀ (g : SegId) (s : State) (c : Ctx) (m : ChainMember) (tag : Nat) (ok : Bool) (st : Status), s.distinct → c ∈ s.ctxs →
    c.state = .active → c.buffer = some tag → c.status = some st → c.chain = some m → c.seg = g →
    (s.seg g).holder = some (.chain m.id) → (s.cq (s.sq c.sq).bound).state = .active →
    ∃ t, exec (.bufferWriteDone c.num tag ok) s = .next t ∧
      t.readyWith (s.sq c.sq).bound c (if ok then st else .bufferError) ∧
      if ok = true ∧ st.isSuccess = true then chainGoesOn s t g c m.id else chainFails s t g c m.id)

/-! ### Attempts of polls, response writes and replay writes -/

/-- A watch after its poll: with the engine RUNNING, one with an overrun pending, or with no next due time, is next due one
interval from now; with the engine pausing it is HALTED, with no next due time (R118, R119 step 4, R130, R186). -/
def afterPollOf (s : State) (x : Watch) : Watch :=
  if s.ctl.engine = .running then
    if x.overrun = true ∨ x.nextDue = none then
      { x with nextDue := some (s.ticks / 10 + x.cfg.interval), overrun := false }
    else x
  else { x with state := .halted, nextDue := none, overrun := false }

/-- A failed attempt of a poll, a response write or a replay write is retried after the retry delay while the budget
lasts and its segment is ACTIVE (R12). When a poll ends, its outcome becomes the last poll outcome; an ACCEPTed sample is
evaluated, and any other outcome keeps the values; a watch still ARMED is then next due one interval from now after an
overrun, and HALTED while the engine pauses (R117 to R119, R123, R130). A poll whose watch is not ARMED is recorded and not
evaluated (R129; log entry 20), and one whose watch is being removed completes the removal (R114). A response write's outcome is recorded
with its watch (R128). A replay write's outcome is counted by its job, which returns to the tail of the internal write list,
or ends when nothing is left above its cursor; a silence counts as failed while the target stays RESTORING, and one that
takes the target to LOST reaches no job (R141, R143, R145). -/
def Obligations.InternalAttemptsEnd : Prop :=
  ∀ (g : SegId) (answer : BitVec 2) (data : Half) (parity : Bool) (s : State) (w : Wire) (x : Tgt),
    (s.seg g).wire = some w → w.tgt = some x → (s.seg g).state = .active →
    let a := Attempt.ofAnswer w.kind answer data parity
    let u := s.reported g x w.owner.source a
    let limit := 1 + (s.seg g).settings.retryLimit
    let again := s.ticks + (s.seg g).settings.retryDelay
    let failed := a = .hold ∨ a = .parityFail
    (∀ i y, w.owner = .poll i → s.watch i = some y → s.adminAt (.removingWatch i) = false →
      ∃ t z, exec (.frameAttemptEnd g answer data parity) s = .next t ∧ u.watch i = some z ∧
        let ended := { z with poll := .none, tries := 0, retryEnd := none, lastPoll := some a.status }
        (y.state = .armed → failed → y.tries < limit →
          t.standing = (u.setWatch i (some { z with poll := .retryWait, retryEnd := some again })).standing) ∧
        (y.state = .armed → ¬ (failed ∧ y.tries < limit) →
          (a.status ≠ .success → t.standing = (u.setWatch i (some (afterPollOf s ended))).standing) ∧
          (∀ v, a = .accept v → t.standing = ((u.evaluate i ended v).updWatch i fun y =>
            if y.state = .armed then afterPollOf s y else y).standing)) ∧
        (y.state ≠ .armed → t.standing = (u.setWatch i (some ended)).standing)) ∧
    (∀ i y r, w.owner = .poll i → s.watch i = some y → s.adminWaiting r (.removingWatch i) →
      (s.cq 0).state = .active →
      ∃ t, exec (.frameAttemptEnd g answer data parity) s = .next t ∧ t.watch i = none ∧
        t.adminCompleted r .success none) ∧
    (∀ r, w.owner = .response r false →
      ∃ t, exec (.frameAttemptEnd g answer data parity) s = .next t ∧
        (failed → r.tries < limit → t.standing = (u.updSeg g fun y =>
          { y with respDelays := y.respDelays ++ [{ write := r, retryEnd := again }] }).standing) ∧
        (¬ (failed ∧ r.tries < limit) → t.standing = (u.updWatch r.watch fun y =>
          { y with respPending := false, lastResponse := some a.status }).standing)) ∧
    (∀ r, w.owner = .response r true →
      ∃ t, exec (.frameAttemptEnd g answer data parity) s = .next t ∧ t.standing = u.standing) ∧
    (∀ j v, w.owner = .replay x → s.job x = some j → (s.pres x).state = .restoring → j.inFlight = some v →
      let miss := if a = .silent then min ((s.pres x).miss + 1) 7 else 0
      let lost := a = .silent ∧ (s.seg x.seg).settings.missThreshold ≤ miss
      ∃ t, exec (.frameAttemptEnd g answer data parity) s = .next t ∧
        (lost → t.job x = none ∧ t.pres x = { state := .lost, miss := miss } ∧ t.standing = u.standing) ∧
        (¬ lost → failed → v.tries < limit →
          t.standing = (u.updJob x fun j => { j with retryEnd := some again }).standing) ∧
        (¬ lost → ¬ (failed ∧ v.tries < limit) →
          let done : Job := { j with
            inFlight := none, retryEnd := none
            written := if a.status = .success then j.written + 1 else j.written
            failed := if a.status = .success then j.failed else j.failed + 1
            firstFailed := if a.status = .success then j.firstFailed else (j.firstFailed <|> j.cursor) }
          (s.restoreAbove x j.cursor ≠ [] → t.job x = some done ∧ t.pres x = { state := .restoring, miss := miss } ∧
            (t.seg x.seg).writes = (u.seg x.seg).writes ++ [.job x]) ∧
          (s.restoreAbove x j.cursor = [] → t.job x = none ∧ t.pres x = { state := .present, miss := miss } ∧
            t.ev.standing = (s.handEvent
              (.restoreDone x done.written done.failed done.firstFailed none 0)).ev.standing)))

/-! ### Timers -/

/-- When a timed event has come: its timer runs, and its tick is here. One that is taken before its tick acts as the same
event taken at it, with time moved on to it tick by tick; where its timer has been stopped on the way, nothing is left to
do (log entry 3). A retry delay that ends offers its request again: a host context joins those offered, unless it holds
the segment; a poll stands in the due-poll list behind earlier retries and ahead of the rest; a response write or a replay
job goes to the head of the internal write list (log entry 21). A poll interval that ends offers its context; a deadline ends
a waiting WAIT_UNTIL CONDITION_TIMEOUT, and lets a frame on the wire run on (R12, R81, R82, R99, R102, R117, R142). When the
next due time of an ARMED watch arrives with no poll outstanding, the watch is LISTED in order of due time and then watch id,
and is next due one interval later; with a poll outstanding the due time is overrun (R116 to R118). -/
def Obligations.TimersFire : Prop :=
  (∀ s : State,
    (∀ n, s.hasCome (.retry (.host n)) = true ↔
      ∃ c e, s.ctx n = some c ∧ c.state = .retryWait ∧ c.retryEnd = some e ∧ e ≤ s.ticks) ∧
    (∀ w, s.hasCome (.retry (.poll w)) = true ↔
      ∃ x e, s.watch w = some x ∧ x.poll = .retryWait ∧ x.retryEnd = some e ∧ e ≤ s.ticks) ∧
    (∀ w, s.hasCome (.retry (.response w)) = true ↔
      ∃ x l m d, s.watch w = some x ∧ (s.seg x.cfg.tgt.seg).respDelays = l ++ d :: m ∧ (∀ p ∈ l, p.write.watch ≠ w) ∧
        d.write.watch = w ∧ d.retryEnd ≤ s.ticks) ∧
    (∀ x, s.hasCome (.retry (.replay x)) = true ↔ ∃ j e, s.job x = some j ∧ j.retryEnd = some e ∧ e ≤ s.ticks) ∧
    (∀ n, s.hasCome (.interval n) = true ↔
      ∃ c e, s.ctx n = some c ∧ c.state = .pollWait ∧ c.pollEnd = some e ∧ 10 * e ≤ s.ticks) ∧
    (∀ n, s.hasCome (.deadline n) = true ↔ ∃ c e, s.ctx n = some c ∧ c.deadline = some e ∧ 10 * e ≤ s.ticks) ∧
    (∀ w, s.hasCome (.due w) = true ↔
      ∃ x e, s.watch w = some x ∧ x.state = .armed ∧ x.nextDue = some e ∧ 10 * e ≤ s.ticks)) ∧
  (∀ s : State,
    let early := fun (i : TimedEvent) (e : Nat) =>
      ((s.advance e).hasCome i = true → ∃ t, exec i.command s = .next t ∧ exec i.command (s.advance e) = .next t) ∧
      ((s.advance e).hasCome i = false → exec i.command s = .next (s.advance e).settle)
    (∀ n c e, s.ctx n = some c → c.state = .retryWait → c.retryEnd = some e → early (.retry (.host n)) e) ∧
    (∀ w x e, s.watch w = some x → x.poll = .retryWait → x.retryEnd = some e → early (.retry (.poll w)) e) ∧
    (∀ w x l m d, s.watch w = some x → (s.seg x.cfg.tgt.seg).respDelays = l ++ d :: m →
      (∀ p ∈ l, p.write.watch ≠ w) → d.write.watch = w → early (.retry (.response w)) d.retryEnd) ∧
    (∀ x j e, s.job x = some j → j.retryEnd = some e → early (.retry (.replay x)) e) ∧
    (∀ n c e, s.ctx n = some c → c.state = .pollWait → c.pollEnd = some e → early (.interval n) (10 * e)) ∧
    (∀ n c e, s.ctx n = some c → c.deadline = some e → early (.deadline n) (10 * e)) ∧
    (∀ w x e, s.watch w = some x → x.state = .armed → x.nextDue = some e → early (.due w) (10 * e))) ∧
  ((∀ (s : State) (c : Ctx) (e : Nat), s.distinct → c ∈ s.ctxs → c.state = .retryWait → c.retryEnd = some e →
     e ≤ s.ticks →
     ∃ t, exec (.retryDelayEnd (.host c.num)) s = .next t ∧ { c with retryEnd := none } ∈ t.ctxs ∧
       (s.holdsSegment c = false → c.num ∈ (t.seg c.seg).offered) ∧ s.keepsOthers t c.num ∧ t.standing = s.standing) ∧
   (∀ (s : State) (i : WatchId) (x : Watch) (e : Nat), s.watch i = some x → x.poll = .retryWait → x.retryEnd = some e →
     e ≤ s.ticks →
     ∃ t l m d, exec (.retryDelayEnd (.poll i)) s = .next t ∧ (s.seg x.cfg.tgt.seg).duePolls = l ++ m ∧
       (∀ p ∈ l, p.retried = true) ∧ (∀ p ∈ m.head?, p.retried = false) ∧ d.watch = i ∧ d.retried = true ∧
       t.standing = ((s.updSeg x.cfg.tgt.seg fun y =>
         { y with duePolls := l ++ d :: m }).setWatch i (some { x with poll := .listed, retryEnd := none })).standing) ∧
   (∀ (s : State) (i : WatchId) (x : Watch) (l m : List RespDelay) (d : RespDelay), s.watch i = some x →
     (s.seg x.cfg.tgt.seg).respDelays = l ++ d :: m → (∀ p ∈ l, p.write.watch ≠ i) → d.write.watch = i →
     d.retryEnd ≤ s.ticks →
     ∃ t, exec (.retryDelayEnd (.response i)) s = .next t ∧
       t.standing = (s.updSeg x.cfg.tgt.seg fun y =>
         { y with respDelays := l ++ m, writes := .response d.write :: y.writes }).standing) ∧
   (∀ (s : State) (x : Tgt) (j : Job) (e : Nat), s.job x = some j → j.retryEnd = some e → e ≤ s.ticks →
     ∃ t, exec (.retryDelayEnd (.replay x)) s = .next t ∧
       t.standing = ((s.updJob x fun j =>
         { j with retryEnd := none }).updSeg x.seg fun y => { y with writes := .job x :: y.writes }).standing) ∧
   (∀ (s : State) (c : Ctx) (e : Nat), s.distinct → c ∈ s.ctxs → c.state = .pollWait → c.pollEnd = some e →
     10 * e ≤ s.ticks →
     ∃ t, exec (.pollIntervalEnd c.num) s = .next t ∧ { c with pollEnd := none } ∈ t.ctxs ∧
       c.num ∈ (t.seg c.seg).offered ∧ s.keepsOthers t c.num ∧ t.standing = s.standing) ∧
   (∀ (s : State) (c : Ctx) (e : Nat), s.distinct → c ∈ s.ctxs → c.deadline = some e → c.chain = none →
     (s.cq (s.sq c.sq).bound).state = .active → 10 * e ≤ s.ticks →
     ∃ t, exec (.waitUntilDeadline c.num) s = .next t ∧ t.standing = s.standing ∧
       (c.state = .pollWait ∨ c.state = .retryWait → c.staged = [] →
         t.readyWith (s.sq c.sq).bound c .conditionTimeout ∧ s.keepsOthers t c.num) ∧
       (c.state = .active → { c with deadline := none, deadlinePassed := true } ∈ t.ctxs ∧ s.keepsOthers t c.num))) ∧
  (∀ (s : State) (i : WatchId) (x : Watch) (e : Nat), s.watch i = some x → x.state = .armed → x.nextDue = some e →
     10 * e ≤ s.ticks →
     (x.poll = .none →
       ∃ t l m, exec (.watchDue i) s = .next t ∧ (s.seg x.cfg.tgt.seg).duePolls = l ++ m ∧
         (∀ p ∈ l, p.retried = true ∨ p.due < e ∨ (p.due = e ∧ p.watch < i)) ∧
         (∀ p ∈ m.head?, p.retried = false ∧ ¬ (p.due < e ∨ (p.due = e ∧ p.watch < i))) ∧
         t.standing = ((s.updSeg x.cfg.tgt.seg fun y =>
           { y with duePolls := l ++ { watch := i, due := e, retried := false } :: m }).setWatch i
             (some { x with poll := .listed, nextDue := some (e + x.cfg.interval) })).standing) ∧
     (x.poll ≠ .none →
       ∃ t, exec (.watchDue i) s = .next t ∧
         t.standing = (s.setWatch i (some { x with
           overrun := true, nextDue := none, overrunCount := min (x.overrunCount + 1) 255 })).standing))

/-! ### Stuck lines, presence, watches -/

/-- A stuck line takes an ACTIVE segment with a free wire to FAULTED (R13, R14). The event is that its stuck count reaches
its stuck time: the line reads low at as many further ticks as that takes, those ticks pass, and the segment faults at the
last of them, unless the engine has failed on the way; the other segments sample their lines at them (log entry 26). On a
segment in another state, or with a frame on its wire, nothing happens. Said for the case that no other segment is stuck and
no timed event comes on the way: SEGMENT_FAULTED is handed over (with no replay job, whose abandonment hands over more), its
watches halt, its contexts that are not running, with no buffer write outstanding, end SEGMENT_FAULT, its lists of internal
writes and due polls empty, its hold ends, and its RESTORING targets go to LOST; other contexts are left, and other segments
but for their stuck counts (R179; log entry 24). -/
def Obligations.StuckLineFaults : Prop :=
  ∀ (g : SegId) (s : State),
    (¬ ((s.seg g).state = .active ∧ (s.seg g).wire = none) →
      ∃ t, exec (.stuckLineDetected g) s = .next t ∧ t.standing = s.standing) ∧
    ((s.seg g).state = .active → (s.seg g).wire = none →
      let lows := (s.seg g).settings.stuckTime - (s.seg g).stuckCount
      ∃ t, exec (.stuckLineDetected g) s = .next t ∧ t.ticks = s.ticks + lows ∧
        ((t.seg g).state = .faulted ∨ t.ctl.engine = .failed) ∧
        (lows = 0 → t.standing = (s.faultSegment g).standing) ∧
        (0 < lows → t.standing =
          (s.passTicks (fun k tick => decide (k = g) || Config.hdaLow k.val tick) lows).standing) ∧
        ((s.seg g).settings.stuckTime ≤ 255 →
          (0 < lows → ∀ e, ({ s with ticks := s.ticks + (lows - 1) } : State).hasCome e = false) →
          (∀ k, k ≠ g → (s.seg k).state = .active → (s.seg k).wire = none →
            (s.seg k).stuckCount + lows < (s.seg k).settings.stuckTime) →
          (t.seg g).state = .faulted ∧
          (t.seg g).standing = { (s.seg g).standing with
            state := .faulted, writes := [], respDelays := [], duePolls := [], stuckCount := 0 } ∧
          (t.seg g).holder = none ∧
          (∀ k, k ≠ g → ∃ n, (t.seg k).standing = { (s.seg k).standing with stuckCount := n }) ∧
          (∀ w x, t.watch w = some x → x.cfg.tgt.seg = g → x.state ≠ .armed) ∧
          (∀ w x, s.watch w = some x → x.cfg.tgt.seg ≠ g → ∃ y, t.watch w = some y ∧ y.state = x.state) ∧
          (∀ x, t.pres x = if x.seg = g ∧ (s.pres x).state = .restoring then { s.pres x with state := .lost }
            else s.pres x) ∧
          t.pool = s.pool ∧ t.irq = s.irq ∧
          (s.jobs = [] → t.ev.standing = (s.handEvent (.segmentFaulted g)).ev.standing) ∧
          (s.distinct → ∀ c ∈ s.ctxs,
            (c.seg = g → c.state ≠ .fenceWait → s.notRunning c → c.buffer = none →
              (s.cq (s.sq c.sq).bound).state = .active →
              t.cancelledAs (s.sq c.sq).bound c .segmentFault) ∧
            (c.seg = g → ¬ s.notRunning c → c ∈ t.ctxs) ∧ (c.seg ≠ g → c.calm → c ∈ t.ctxs))))

/-- A replay job as it is created: nothing written, cursor at the start (R138). -/
def freshJob (x : Tgt) : Job :=
  { tgt := x, cursor := none, inFlight := none, retryEnd := none, written := 0, failed := 0, firstFailed := none }

/-- An answer sets the miss count to 0. It takes an UNKNOWN target to PRESENT with DEVICE_FOUND, first sighting; it
leaves a PRESENT or RESTORING one as it is; it takes a LOST one to PRESENT with DEVICE_FOUND, or, with entries in its
restore list, to RESTORING with DEVICE_FOUND, replay pending, and a replay job at the tail of the internal write list.
A silence adds 1 to the miss count, up to 7. A PRESENT or RESTORING target that reaches its threshold goes to LOST:
DEVICE_LOST is handed over, a RESTORING target's job is abandoned with RESTORE_DONE, and the watches of the target
lose their values. No other target is touched (R24 to R28, R132, R145). -/
def Obligations.PresenceReports : Prop :=
  ∀ (s : State) (x : Tgt) (src : Source) (a : Attempt),
    let e := s.pres x
    let n := (s.restoreList x).length
    let m := min (e.miss + 1) 7
    (∀ y, y ≠ x → (s.report x src a).pres y = s.pres y) ∧
    (a ≠ .silent →
      (e.state = .unknown → s.report x src a =
        (s.setPres x { state := .present, miss := 0 }).handEvent (.deviceFound x true false n src)) ∧
      (e.state = .present ∨ e.state = .restoring → s.report x src a = s.setPres x { e with miss := 0 }) ∧
      (e.state = .lost → n = 0 → s.report x src a =
        (s.setPres x { state := .present, miss := 0 }).handEvent (.deviceFound x false false n src)) ∧
      (e.state = .lost → n ≠ 0 →
        let u := (s.setPres x { state := .restoring, miss := 0 }).handEvent (.deviceFound x false true n src)
        s.report x src a = ({ u with jobs := u.jobs ++ [freshJob x] } : State).updSeg x.seg fun y =>
          { y with writes := y.writes ++ [.job x] })) ∧
    (a = .silent →
      let lose : Watch → Watch := fun y => if y.cfg.tgt = x then { y with stable := none, candidate := none, run := 0 }
        else y
      let lost := (s.setPres x { state := .lost, miss := m }).handEvent (.deviceLost x e.state m src)
      (e.state = .unknown ∨ e.state = .lost ∨ m < (s.seg x.seg).settings.missThreshold →
        s.report x src a = s.setPres x { e with miss := m }) ∧
      ((s.seg x.seg).settings.missThreshold ≤ m →
        (e.state = .present → s.report x src a = { lost with watches := tableMap (Option.map lose) s.watches }) ∧
        (e.state = .restoring → ∀ j, s.job x = some j → s.report x src a =
          { ((({ lost with jobs := s.jobs.filter (fun j => j.tgt ≠ x) } : State).updSeg x.seg fun y =>
              { y with writes := y.writes.filter (fun i => i ≠ .job x) }).handEvent (.restoreDone x j.written j.failed
                j.firstFailed (some .targetLost) (s.restoreAbove x j.cursor).length)) with
            watches := tableMap (Option.map lose) s.watches })))

/-- An ACCEPTed sample makes its masked value the candidate, or lengthens the candidate's run up to the debounce. The
stable value changes exactly when the run count equals the debounce and the stable value is absent or differs from the
candidate; the watch then fires if its condition is met by the change (R120 to R122). -/
def Obligations.SamplesAreEvaluated : Prop :=
  ∀ (s : State) (w : WatchId) (x : Watch) (v : Half), x.run ≤ x.cfg.debounce →
    let n := v &&& x.cfg.mask
    let y : Watch := { x with
      candidate := some n
      run := if x.candidate = some n then (if x.run = x.cfg.debounce then x.run else x.run + 1) else 1 }
    let met := match x.cfg.cond with
      | .change => x.stable ≠ none
      | .rise => x.stable = some 0 ∧ n ≠ 0
      | .fall => (∃ p, x.stable = some p ∧ p ≠ 0) ∧ n = 0
      | .matches => x.cfg.matchValue = some n ∧ x.stable ≠ some n
      | .leave => ∃ p, x.stable = some p ∧ x.cfg.matchValue = some p ∧ n ≠ p
      | .reinit => x.cfg.matchValue = some n ∧ x.stable ≠ some n
    (¬ (y.run = x.cfg.debounce ∧ x.stable ≠ some n) → s.evaluate w x v = s.setWatch w (some y)) ∧
    (y.run = x.cfg.debounce → x.stable ≠ some n → ¬ met →
      s.evaluate w x v = s.setWatch w (some { y with stable := some n })) ∧
    (y.run = x.cfg.debounce → x.stable ≠ some n → met →
      s.evaluate w x v = (s.setWatch w (some { y with stable := some n })).fire w x.cfg x.stable n)

/-- A watch that fires counts the trigger, up to 65535, hands a report for WATCH_TRIGGERED when report is yes, asks for a
replay when its condition is REINIT, places its response write at the tail of the internal write list unless one is pending,
and goes to FIRED, with no next due time, when its mode is ONE_SHOT, in this order (R124, R125, R127). A REINIT watch takes a
PRESENT target with entries in its restore list to RESTORING, with DEVICE_REINIT, replay started, and a replay job; for a
RESTORING target it hands over DEVICE_REINIT, replay not started; for any other it does nothing (R30, R126). -/
def Obligations.FiringWatchActs : Prop :=
  ∀ (s : State) (w : WatchId) (x : Watch) (p : Option Half) (n : Half), s.watch w = some x →
    let t := s.fire w x.cfg p n
    let g := x.cfg.tgt.seg
    let u := if x.cfg.report then s.handReport w n p else s
    let starts := x.cfg.cond = .reinit ∧ (s.pres x.cfg.tgt).state = .present ∧ s.restoreList x.cfg.tgt ≠ []
    let again := x.cfg.cond = .reinit ∧ (s.pres x.cfg.tgt).state = .restoring
    (∃ y z, t.watch w = some y ∧ u.watch w = some z ∧ y = { z with
      triggers := min (x.triggers + 1) 65535
      respPending := (x.respPending || x.cfg.response.isSome)
      state := if x.cfg.oneShot then .fired else x.state
      nextDue := if x.cfg.oneShot then none else x.nextDue
      overrun := if x.cfg.oneShot then false else x.overrun }) ∧
    (∀ v, v ≠ w → t.watch v = s.watch v) ∧
    t.ev = (if starts then u.handEvent (.deviceReinit x.cfg.tgt w true)
      else if again then u.handEvent (.deviceReinit x.cfg.tgt w false) else u).ev ∧
    t.jobs = s.jobs ++ (if starts then [freshJob x.cfg.tgt] else []) ∧
    (∀ y, t.pres y = if starts ∧ y = x.cfg.tgt then { s.pres y with state := .restoring } else s.pres y) ∧
    t.seg g = { s.seg g with writes := (s.seg g).writes ++ (if starts then [.job x.cfg.tgt] else []) ++
      (match x.cfg.response with
        | some r => if x.respPending then [] else [.response
            { watch := w, tgt := { seg := g, slot := r.slot }, index := r.index, data := r.data, tries := 0 }]
        | none => []) } ∧
    ∀ k, k ≠ g → t.seg k = s.seg k

/-! ### Outcomes of writes to host memory -/

/-- A completion that is written frees its context, moves its queue's tail on, inverts the phase after the last slot,
and hands over the queue's vector; for a queue that is not ACTIVE only the context is freed. A write that fails for an
ACTIVE queue but CQ0 takes the queue to ERROR with its ready list empty, and its ACTIVE submission queues with it
(R47, R48, R56, R59). -/
def Obligations.CompletionWriteOutcomes : Prop :=
  (∀ (k : CqId) (tag : Nat) (i : ReadyItem) (s : State), (s.cq k).inFlight = some { item := i, tag := tag } →
    ∃ t, exec (.completionWriteDone k tag) s = .next t ∧
      (∀ n, i = .ctx n → ∀ d ∈ t.ctxs, d.num ≠ n) ∧ (i = .admin → t.adm.ctx = none) ∧
      ((s.cq k).state = .active →
        t.standing = ((s.setCq k { s.cq k with
          tail := ((s.cq k).tail + 1) % (s.cq k).size
          phase := if (s.cq k).tail + 1 = (s.cq k).size then !(s.cq k).phase else (s.cq k).phase }).handVector
            (s.cq k).vector).standing) ∧
      ((s.cq k).state ≠ .active → t.standing = s.standing)) ∧
  (∀ (k : CqId) (tag : Nat) (i : ReadyItem) (s : State), (s.cq k).inFlight = some { item := i, tag := tag } →
    k ≠ 0 → (s.cq k).state = .active →
    ∃ t, exec (.completionWriteFail k tag) s = .next t ∧ (∀ n, i = .ctx n → ∀ d ∈ t.ctxs, d.num ≠ n) ∧
      (t.cq k).standing = { (s.cq k).standing with state := .error } ∧ (t.cq k).ready = [] ∧
      (t.cq k).inFlight = none ∧
      (∀ q, (t.sq q).standing.state =
        if (s.sq q).state = .active ∧ (s.sq q).bound = k then .error else (s.sq q).standing.state) ∧
      t.ev.standing =
        ((sqIds.filter fun q => (s.sq q).state == .active && (s.sq q).bound == k).foldl
          (fun u q => u.handEvent (.queueError false q.val .cqLost))
          (s.handEvent (.queueError true k.val .memory))).ev.standing)

/-- The outcome of the buffer write of a READ_BLOCK outside chains gives the context its status, or BUFFER_ERROR. The outcome of a result
record write completes the admin command SUCCESS or RESULT_BUFFER_ERROR. An event record written is posted, and the
ring's vector handed over; one that cannot be written removes the ring, with one record lost. The outcome of a write
that no block waits for changes nothing (R80, R89, R154, R157; log entry 1). -/
def Obligations.MemoryWriteOutcomes : Prop :=
  (∀ (c : Ctx) (tag : Nat) (ok : Bool) (st : Status) (s : State), s.distinct → c ∈ s.ctxs → c.buffer = some tag →
    c.status = some st → c.chain = none → c.state = .active → (s.cq (s.sq c.sq).bound).state = .active →
    ∃ t, exec (.bufferWriteDone c.num tag ok) s = .next t ∧ t.standing = s.standing ∧ s.keepsOthers t c.num ∧
      t.readyWith (s.sq c.sq).bound c (if ok then st else .bufferError)) ∧
  (∀ (r : Record) (tag : Nat) (ok : Bool) (s : State), s.adminWaiting r (.resultWrite tag) → (s.cq 0).state = .active →
    ∃ t, exec (.resultWriteDone tag ok) s = .next t ∧ t.standing = s.standing ∧
      t.adminCompleted r (if ok then .success else .resultBufferError) none) ∧
  (∀ (r : Ring) (tag : Nat) (s : State), s.ev.ring = some r → r.inFlight = some tag →
    (∃ t, exec (.eventWriteDone tag) s = .next t ∧
      t.standing = ((s.setRing (some { r with
        output := r.output.drop 1
        phase := if r.firstOut + 1 = r.size then !r.phase else r.phase })).handVector r.vector).standing) ∧
    (∃ t, exec (.eventWriteFail tag) s = .next t ∧
      t.standing = ({ s with
        ev := { ring := none, backlog := [], lost := 1 }
        watches := tableMap (Option.map fun x => { x with held := none }) s.watches } : State).standing)) ∧
  (∀ (n : CtxNum) (k : CqId) (tag : Nat) (ok : Bool) (s : State), (∀ c ∈ s.ctxs, c.buffer ≠ some tag) →
    s.adminAt (.resultWrite tag) = false → (∀ p, (s.cq k).inFlight = some p → p.tag ≠ tag) →
    (∀ r, s.ev.ring = some r → r.inFlight ≠ some tag) →
    ∀ i ∈ [Instr.bufferWriteDone n tag ok, .resultWriteDone tag ok, .completionWriteDone k tag,
      .completionWriteFail k tag, .eventWriteDone tag, .eventWriteFail tag],
      ∃ t, exec i s = .next t ∧ t.standing = s.standing)

/-! ### What commands leave alone -/

/-- Register writes, but for resets and writes to queue indexes, and admin commands, but for SEGMENT_OFF, DELETE_SQ
and ABORT, leave every context that waits for nothing as it is, in the lists in which it stands; no context is taken
or ended by them. They leave every wire as it is, but that WATCH_REMOVE marks the frame of its own watch's response write as
one whose outcome is recorded nowhere (log entry 20). -/
def Obligations.CommandsLeaveContexts : Prop :=
  ∀ (tag : Nat) (b : Body) (w : RegWrite) (k : Nat) (e : BitVec 8) (v : BitVec 64) (r : AdminReg) (s t : State),
    s.distinct → (w.enables.getLsbD 0 = false ∨ w.value.getLsbD 1 = false) →
    ∀ i ∈ [Instr.enable w, .enableResume w, .pause w, .engineControlWrite w, .adminQueueRegisterWrite r e v, .eqHeadWrite w,
      .interruptMaskSetWrite w, .interruptMaskClearWrite w, .interruptPendingWrite w, .registerWriteOther k w,
      .createSq tag b, .createCq tag b, .deleteCq tag b, .segmentSetup tag b, .segmentOn tag b, .segmentRecover tag b,
      .querySegment tag b, .queryTarget tag b, .watchAdd tag b, .watchRemove tag b, .watchArm tag b, .queryWatch tag b,
      .restoreAdd tag b, .restoreDrop tag b, .configureEvents tag b],
      exec i s = .next t →
      (∀ c ∈ s.ctxs, c.calm → c ∈ t.ctxs ∧ ∀ g, (c.num ∈ (s.seg g).pendingList → c.num ∈ (t.seg g).pendingList) ∧
        (c.num ∈ (s.seg g).offered → c.num ∈ (t.seg g).offered)) ∧
      (∀ c ∈ t.ctxs, ∃ d ∈ s.ctxs, d.num = c.num) ∧
      ∀ g, (t.seg g).wire = (s.seg g).wire ∨
        (i = .watchRemove tag b ∧ ∃ y p o, (s.seg g).wire = some y ∧ y.owner = .response p o ∧
          p.watch.val = ((Record.of 0x51 b).byte 7).toNat ∧
          (t.seg g).wire = some { y with owner := .response p true })
end

