-- ==== Sys2Proof/Laws/State.lean ====
section
/-! SUPPORT. What each update of the state leaves alone, one lemma for each field and each accessor, true by rfl; and what
an accessor reads after the update of its own table. -/

namespace Sys2Proof.Machine

/-! ### setSeg -/

@[simp] theorem State.setSeg_pending (s : State) (g : SegId) (x : SegCtl) : (s.setSeg g x).pending = s.pending := rfl
@[simp] theorem State.setSeg_ticks (s : State) (g : SegId) (x : SegCtl) : (s.setSeg g x).ticks = s.ticks := rfl
@[simp] theorem State.setSeg_ctl (s : State) (g : SegId) (x : SegCtl) : (s.setSeg g x).ctl = s.ctl := rfl
@[simp] theorem State.setSeg_sqs (s : State) (g : SegId) (x : SegCtl) : (s.setSeg g x).sqs = s.sqs := rfl
@[simp] theorem State.setSeg_cqs (s : State) (g : SegId) (x : SegCtl) : (s.setSeg g x).cqs = s.cqs := rfl
@[simp] theorem State.setSeg_arb (s : State) (g : SegId) (x : SegCtl) : (s.setSeg g x).arb = s.arb := rfl
@[simp] theorem State.setSeg_lock (s : State) (g : SegId) (x : SegCtl) : (s.setSeg g x).lock = s.lock := rfl
@[simp] theorem State.setSeg_ctxs (s : State) (g : SegId) (x : SegCtl) : (s.setSeg g x).ctxs = s.ctxs := rfl
@[simp] theorem State.setSeg_nextChain (s : State) (g : SegId) (x : SegCtl) : (s.setSeg g x).nextChain = s.nextChain := rfl
@[simp] theorem State.setSeg_adm (s : State) (g : SegId) (x : SegCtl) : (s.setSeg g x).adm = s.adm := rfl
@[simp] theorem State.setSeg_presence (s : State) (g : SegId) (x : SegCtl) : (s.setSeg g x).presence = s.presence := rfl
@[simp] theorem State.setSeg_watches (s : State) (g : SegId) (x : SegCtl) : (s.setSeg g x).watches = s.watches := rfl
@[simp] theorem State.setSeg_pool (s : State) (g : SegId) (x : SegCtl) : (s.setSeg g x).pool = s.pool := rfl
@[simp] theorem State.setSeg_jobs (s : State) (g : SegId) (x : SegCtl) : (s.setSeg g x).jobs = s.jobs := rfl
@[simp] theorem State.setSeg_ev (s : State) (g : SegId) (x : SegCtl) : (s.setSeg g x).ev = s.ev := rfl
@[simp] theorem State.setSeg_irq (s : State) (g : SegId) (x : SegCtl) : (s.setSeg g x).irq = s.irq := rfl
@[simp] theorem State.setSeg_link (s : State) (g : SegId) (x : SegCtl) : (s.setSeg g x).link = s.link := rfl
@[simp] theorem State.setSeg_sq (s : State) (g : SegId) (x : SegCtl) (h : SqId) : (s.setSeg g x).sq h = s.sq h := rfl
@[simp] theorem State.setSeg_cq (s : State) (g : SegId) (x : SegCtl) (h : CqId) : (s.setSeg g x).cq h = s.cq h := rfl
@[simp] theorem State.setSeg_watch (s : State) (g : SegId) (x : SegCtl) (h : WatchId) : (s.setSeg g x).watch h = s.watch h := rfl
@[simp] theorem State.setSeg_pres (s : State) (g : SegId) (x : SegCtl) (h : Tgt) : (s.setSeg g x).pres h = s.pres h := rfl
@[simp] theorem State.setSeg_ctx (s : State) (g : SegId) (x : SegCtl) (h : CtxNum) : (s.setSeg g x).ctx h = s.ctx h := rfl
@[simp] theorem State.setSeg_job (s : State) (g : SegId) (x : SegCtl) (h : Tgt) : (s.setSeg g x).job h = s.job h := rfl
@[simp] theorem State.setSeg_restoreList (s : State) (g : SegId) (x : SegCtl) (h : Tgt) : (s.setSeg g x).restoreList h = s.restoreList h := rfl
@[simp] theorem State.setSeg_now (s : State) (g : SegId) (x : SegCtl) : (s.setSeg g x).now = s.now := rfl

/-! ### updSeg -/

@[simp] theorem State.updSeg_pending (s : State) (g : SegId) (f : SegCtl → SegCtl) : (s.updSeg g f).pending = s.pending := rfl
@[simp] theorem State.updSeg_ticks (s : State) (g : SegId) (f : SegCtl → SegCtl) : (s.updSeg g f).ticks = s.ticks := rfl
@[simp] theorem State.updSeg_ctl (s : State) (g : SegId) (f : SegCtl → SegCtl) : (s.updSeg g f).ctl = s.ctl := rfl
@[simp] theorem State.updSeg_sqs (s : State) (g : SegId) (f : SegCtl → SegCtl) : (s.updSeg g f).sqs = s.sqs := rfl
@[simp] theorem State.updSeg_cqs (s : State) (g : SegId) (f : SegCtl → SegCtl) : (s.updSeg g f).cqs = s.cqs := rfl
@[simp] theorem State.updSeg_arb (s : State) (g : SegId) (f : SegCtl → SegCtl) : (s.updSeg g f).arb = s.arb := rfl
@[simp] theorem State.updSeg_lock (s : State) (g : SegId) (f : SegCtl → SegCtl) : (s.updSeg g f).lock = s.lock := rfl
@[simp] theorem State.updSeg_ctxs (s : State) (g : SegId) (f : SegCtl → SegCtl) : (s.updSeg g f).ctxs = s.ctxs := rfl
@[simp] theorem State.updSeg_nextChain (s : State) (g : SegId) (f : SegCtl → SegCtl) : (s.updSeg g f).nextChain = s.nextChain := rfl
@[simp] theorem State.updSeg_adm (s : State) (g : SegId) (f : SegCtl → SegCtl) : (s.updSeg g f).adm = s.adm := rfl
@[simp] theorem State.updSeg_presence (s : State) (g : SegId) (f : SegCtl → SegCtl) : (s.updSeg g f).presence = s.presence := rfl
@[simp] theorem State.updSeg_watches (s : State) (g : SegId) (f : SegCtl → SegCtl) : (s.updSeg g f).watches = s.watches := rfl
@[simp] theorem State.updSeg_pool (s : State) (g : SegId) (f : SegCtl → SegCtl) : (s.updSeg g f).pool = s.pool := rfl
@[simp] theorem State.updSeg_jobs (s : State) (g : SegId) (f : SegCtl → SegCtl) : (s.updSeg g f).jobs = s.jobs := rfl
@[simp] theorem State.updSeg_ev (s : State) (g : SegId) (f : SegCtl → SegCtl) : (s.updSeg g f).ev = s.ev := rfl
@[simp] theorem State.updSeg_irq (s : State) (g : SegId) (f : SegCtl → SegCtl) : (s.updSeg g f).irq = s.irq := rfl
@[simp] theorem State.updSeg_link (s : State) (g : SegId) (f : SegCtl → SegCtl) : (s.updSeg g f).link = s.link := rfl
@[simp] theorem State.updSeg_sq (s : State) (g : SegId) (f : SegCtl → SegCtl) (h : SqId) : (s.updSeg g f).sq h = s.sq h := rfl
@[simp] theorem State.updSeg_cq (s : State) (g : SegId) (f : SegCtl → SegCtl) (h : CqId) : (s.updSeg g f).cq h = s.cq h := rfl
@[simp] theorem State.updSeg_watch (s : State) (g : SegId) (f : SegCtl → SegCtl) (h : WatchId) : (s.updSeg g f).watch h = s.watch h := rfl
@[simp] theorem State.updSeg_pres (s : State) (g : SegId) (f : SegCtl → SegCtl) (h : Tgt) : (s.updSeg g f).pres h = s.pres h := rfl
@[simp] theorem State.updSeg_ctx (s : State) (g : SegId) (f : SegCtl → SegCtl) (h : CtxNum) : (s.updSeg g f).ctx h = s.ctx h := rfl
@[simp] theorem State.updSeg_job (s : State) (g : SegId) (f : SegCtl → SegCtl) (h : Tgt) : (s.updSeg g f).job h = s.job h := rfl
@[simp] theorem State.updSeg_restoreList (s : State) (g : SegId) (f : SegCtl → SegCtl) (h : Tgt) : (s.updSeg g f).restoreList h = s.restoreList h := rfl
@[simp] theorem State.updSeg_now (s : State) (g : SegId) (f : SegCtl → SegCtl) : (s.updSeg g f).now = s.now := rfl

/-! ### setSq -/

@[simp] theorem State.setSq_pending (s : State) (q : SqId) (x : Sq) : (s.setSq q x).pending = s.pending := rfl
@[simp] theorem State.setSq_ticks (s : State) (q : SqId) (x : Sq) : (s.setSq q x).ticks = s.ticks := rfl
@[simp] theorem State.setSq_ctl (s : State) (q : SqId) (x : Sq) : (s.setSq q x).ctl = s.ctl := rfl
@[simp] theorem State.setSq_cqs (s : State) (q : SqId) (x : Sq) : (s.setSq q x).cqs = s.cqs := rfl
@[simp] theorem State.setSq_arb (s : State) (q : SqId) (x : Sq) : (s.setSq q x).arb = s.arb := rfl
@[simp] theorem State.setSq_lock (s : State) (q : SqId) (x : Sq) : (s.setSq q x).lock = s.lock := rfl
@[simp] theorem State.setSq_ctxs (s : State) (q : SqId) (x : Sq) : (s.setSq q x).ctxs = s.ctxs := rfl
@[simp] theorem State.setSq_nextChain (s : State) (q : SqId) (x : Sq) : (s.setSq q x).nextChain = s.nextChain := rfl
@[simp] theorem State.setSq_adm (s : State) (q : SqId) (x : Sq) : (s.setSq q x).adm = s.adm := rfl
@[simp] theorem State.setSq_segs (s : State) (q : SqId) (x : Sq) : (s.setSq q x).segs = s.segs := rfl
@[simp] theorem State.setSq_presence (s : State) (q : SqId) (x : Sq) : (s.setSq q x).presence = s.presence := rfl
@[simp] theorem State.setSq_watches (s : State) (q : SqId) (x : Sq) : (s.setSq q x).watches = s.watches := rfl
@[simp] theorem State.setSq_pool (s : State) (q : SqId) (x : Sq) : (s.setSq q x).pool = s.pool := rfl
@[simp] theorem State.setSq_jobs (s : State) (q : SqId) (x : Sq) : (s.setSq q x).jobs = s.jobs := rfl
@[simp] theorem State.setSq_ev (s : State) (q : SqId) (x : Sq) : (s.setSq q x).ev = s.ev := rfl
@[simp] theorem State.setSq_irq (s : State) (q : SqId) (x : Sq) : (s.setSq q x).irq = s.irq := rfl
@[simp] theorem State.setSq_link (s : State) (q : SqId) (x : Sq) : (s.setSq q x).link = s.link := rfl
@[simp] theorem State.setSq_seg (s : State) (q : SqId) (x : Sq) (h : SegId) : (s.setSq q x).seg h = s.seg h := rfl
@[simp] theorem State.setSq_cq (s : State) (q : SqId) (x : Sq) (h : CqId) : (s.setSq q x).cq h = s.cq h := rfl
@[simp] theorem State.setSq_watch (s : State) (q : SqId) (x : Sq) (h : WatchId) : (s.setSq q x).watch h = s.watch h := rfl
@[simp] theorem State.setSq_pres (s : State) (q : SqId) (x : Sq) (h : Tgt) : (s.setSq q x).pres h = s.pres h := rfl
@[simp] theorem State.setSq_ctx (s : State) (q : SqId) (x : Sq) (h : CtxNum) : (s.setSq q x).ctx h = s.ctx h := rfl
@[simp] theorem State.setSq_job (s : State) (q : SqId) (x : Sq) (h : Tgt) : (s.setSq q x).job h = s.job h := rfl
@[simp] theorem State.setSq_restoreList (s : State) (q : SqId) (x : Sq) (h : Tgt) : (s.setSq q x).restoreList h = s.restoreList h := rfl
@[simp] theorem State.setSq_now (s : State) (q : SqId) (x : Sq) : (s.setSq q x).now = s.now := rfl

/-! ### updSq -/

@[simp] theorem State.updSq_pending (s : State) (q : SqId) (f : Sq → Sq) : (s.updSq q f).pending = s.pending := rfl
@[simp] theorem State.updSq_ticks (s : State) (q : SqId) (f : Sq → Sq) : (s.updSq q f).ticks = s.ticks := rfl
@[simp] theorem State.updSq_ctl (s : State) (q : SqId) (f : Sq → Sq) : (s.updSq q f).ctl = s.ctl := rfl
@[simp] theorem State.updSq_cqs (s : State) (q : SqId) (f : Sq → Sq) : (s.updSq q f).cqs = s.cqs := rfl
@[simp] theorem State.updSq_arb (s : State) (q : SqId) (f : Sq → Sq) : (s.updSq q f).arb = s.arb := rfl
@[simp] theorem State.updSq_lock (s : State) (q : SqId) (f : Sq → Sq) : (s.updSq q f).lock = s.lock := rfl
@[simp] theorem State.updSq_ctxs (s : State) (q : SqId) (f : Sq → Sq) : (s.updSq q f).ctxs = s.ctxs := rfl
@[simp] theorem State.updSq_nextChain (s : State) (q : SqId) (f : Sq → Sq) : (s.updSq q f).nextChain = s.nextChain := rfl
@[simp] theorem State.updSq_adm (s : State) (q : SqId) (f : Sq → Sq) : (s.updSq q f).adm = s.adm := rfl
@[simp] theorem State.updSq_segs (s : State) (q : SqId) (f : Sq → Sq) : (s.updSq q f).segs = s.segs := rfl
@[simp] theorem State.updSq_presence (s : State) (q : SqId) (f : Sq → Sq) : (s.updSq q f).presence = s.presence := rfl
@[simp] theorem State.updSq_watches (s : State) (q : SqId) (f : Sq → Sq) : (s.updSq q f).watches = s.watches := rfl
@[simp] theorem State.updSq_pool (s : State) (q : SqId) (f : Sq → Sq) : (s.updSq q f).pool = s.pool := rfl
@[simp] theorem State.updSq_jobs (s : State) (q : SqId) (f : Sq → Sq) : (s.updSq q f).jobs = s.jobs := rfl
@[simp] theorem State.updSq_ev (s : State) (q : SqId) (f : Sq → Sq) : (s.updSq q f).ev = s.ev := rfl
@[simp] theorem State.updSq_irq (s : State) (q : SqId) (f : Sq → Sq) : (s.updSq q f).irq = s.irq := rfl
@[simp] theorem State.updSq_link (s : State) (q : SqId) (f : Sq → Sq) : (s.updSq q f).link = s.link := rfl
@[simp] theorem State.updSq_seg (s : State) (q : SqId) (f : Sq → Sq) (h : SegId) : (s.updSq q f).seg h = s.seg h := rfl
@[simp] theorem State.updSq_cq (s : State) (q : SqId) (f : Sq → Sq) (h : CqId) : (s.updSq q f).cq h = s.cq h := rfl
@[simp] theorem State.updSq_watch (s : State) (q : SqId) (f : Sq → Sq) (h : WatchId) : (s.updSq q f).watch h = s.watch h := rfl
@[simp] theorem State.updSq_pres (s : State) (q : SqId) (f : Sq → Sq) (h : Tgt) : (s.updSq q f).pres h = s.pres h := rfl
@[simp] theorem State.updSq_ctx (s : State) (q : SqId) (f : Sq → Sq) (h : CtxNum) : (s.updSq q f).ctx h = s.ctx h := rfl
@[simp] theorem State.updSq_job (s : State) (q : SqId) (f : Sq → Sq) (h : Tgt) : (s.updSq q f).job h = s.job h := rfl
@[simp] theorem State.updSq_restoreList (s : State) (q : SqId) (f : Sq → Sq) (h : Tgt) : (s.updSq q f).restoreList h = s.restoreList h := rfl
@[simp] theorem State.updSq_now (s : State) (q : SqId) (f : Sq → Sq) : (s.updSq q f).now = s.now := rfl

/-! ### setCq -/

@[simp] theorem State.setCq_pending (s : State) (c : CqId) (x : Cq) : (s.setCq c x).pending = s.pending := rfl
@[simp] theorem State.setCq_ticks (s : State) (c : CqId) (x : Cq) : (s.setCq c x).ticks = s.ticks := rfl
@[simp] theorem State.setCq_ctl (s : State) (c : CqId) (x : Cq) : (s.setCq c x).ctl = s.ctl := rfl
@[simp] theorem State.setCq_sqs (s : State) (c : CqId) (x : Cq) : (s.setCq c x).sqs = s.sqs := rfl
@[simp] theorem State.setCq_arb (s : State) (c : CqId) (x : Cq) : (s.setCq c x).arb = s.arb := rfl
@[simp] theorem State.setCq_lock (s : State) (c : CqId) (x : Cq) : (s.setCq c x).lock = s.lock := rfl
@[simp] theorem State.setCq_ctxs (s : State) (c : CqId) (x : Cq) : (s.setCq c x).ctxs = s.ctxs := rfl
@[simp] theorem State.setCq_nextChain (s : State) (c : CqId) (x : Cq) : (s.setCq c x).nextChain = s.nextChain := rfl
@[simp] theorem State.setCq_adm (s : State) (c : CqId) (x : Cq) : (s.setCq c x).adm = s.adm := rfl
@[simp] theorem State.setCq_segs (s : State) (c : CqId) (x : Cq) : (s.setCq c x).segs = s.segs := rfl
@[simp] theorem State.setCq_presence (s : State) (c : CqId) (x : Cq) : (s.setCq c x).presence = s.presence := rfl
@[simp] theorem State.setCq_watches (s : State) (c : CqId) (x : Cq) : (s.setCq c x).watches = s.watches := rfl
@[simp] theorem State.setCq_pool (s : State) (c : CqId) (x : Cq) : (s.setCq c x).pool = s.pool := rfl
@[simp] theorem State.setCq_jobs (s : State) (c : CqId) (x : Cq) : (s.setCq c x).jobs = s.jobs := rfl
@[simp] theorem State.setCq_ev (s : State) (c : CqId) (x : Cq) : (s.setCq c x).ev = s.ev := rfl
@[simp] theorem State.setCq_irq (s : State) (c : CqId) (x : Cq) : (s.setCq c x).irq = s.irq := rfl
@[simp] theorem State.setCq_link (s : State) (c : CqId) (x : Cq) : (s.setCq c x).link = s.link := rfl
@[simp] theorem State.setCq_seg (s : State) (c : CqId) (x : Cq) (h : SegId) : (s.setCq c x).seg h = s.seg h := rfl
@[simp] theorem State.setCq_sq (s : State) (c : CqId) (x : Cq) (h : SqId) : (s.setCq c x).sq h = s.sq h := rfl
@[simp] theorem State.setCq_watch (s : State) (c : CqId) (x : Cq) (h : WatchId) : (s.setCq c x).watch h = s.watch h := rfl
@[simp] theorem State.setCq_pres (s : State) (c : CqId) (x : Cq) (h : Tgt) : (s.setCq c x).pres h = s.pres h := rfl
@[simp] theorem State.setCq_ctx (s : State) (c : CqId) (x : Cq) (h : CtxNum) : (s.setCq c x).ctx h = s.ctx h := rfl
@[simp] theorem State.setCq_job (s : State) (c : CqId) (x : Cq) (h : Tgt) : (s.setCq c x).job h = s.job h := rfl
@[simp] theorem State.setCq_restoreList (s : State) (c : CqId) (x : Cq) (h : Tgt) : (s.setCq c x).restoreList h = s.restoreList h := rfl
@[simp] theorem State.setCq_now (s : State) (c : CqId) (x : Cq) : (s.setCq c x).now = s.now := rfl

/-! ### updCq -/

@[simp] theorem State.updCq_pending (s : State) (c : CqId) (f : Cq → Cq) : (s.updCq c f).pending = s.pending := rfl
@[simp] theorem State.updCq_ticks (s : State) (c : CqId) (f : Cq → Cq) : (s.updCq c f).ticks = s.ticks := rfl
@[simp] theorem State.updCq_ctl (s : State) (c : CqId) (f : Cq → Cq) : (s.updCq c f).ctl = s.ctl := rfl
@[simp] theorem State.updCq_sqs (s : State) (c : CqId) (f : Cq → Cq) : (s.updCq c f).sqs = s.sqs := rfl
@[simp] theorem State.updCq_arb (s : State) (c : CqId) (f : Cq → Cq) : (s.updCq c f).arb = s.arb := rfl
@[simp] theorem State.updCq_lock (s : State) (c : CqId) (f : Cq → Cq) : (s.updCq c f).lock = s.lock := rfl
@[simp] theorem State.updCq_ctxs (s : State) (c : CqId) (f : Cq → Cq) : (s.updCq c f).ctxs = s.ctxs := rfl
@[simp] theorem State.updCq_nextChain (s : State) (c : CqId) (f : Cq → Cq) : (s.updCq c f).nextChain = s.nextChain := rfl
@[simp] theorem State.updCq_adm (s : State) (c : CqId) (f : Cq → Cq) : (s.updCq c f).adm = s.adm := rfl
@[simp] theorem State.updCq_segs (s : State) (c : CqId) (f : Cq → Cq) : (s.updCq c f).segs = s.segs := rfl
@[simp] theorem State.updCq_presence (s : State) (c : CqId) (f : Cq → Cq) : (s.updCq c f).presence = s.presence := rfl
@[simp] theorem State.updCq_watches (s : State) (c : CqId) (f : Cq → Cq) : (s.updCq c f).watches = s.watches := rfl
@[simp] theorem State.updCq_pool (s : State) (c : CqId) (f : Cq → Cq) : (s.updCq c f).pool = s.pool := rfl
@[simp] theorem State.updCq_jobs (s : State) (c : CqId) (f : Cq → Cq) : (s.updCq c f).jobs = s.jobs := rfl
@[simp] theorem State.updCq_ev (s : State) (c : CqId) (f : Cq → Cq) : (s.updCq c f).ev = s.ev := rfl
@[simp] theorem State.updCq_irq (s : State) (c : CqId) (f : Cq → Cq) : (s.updCq c f).irq = s.irq := rfl
@[simp] theorem State.updCq_link (s : State) (c : CqId) (f : Cq → Cq) : (s.updCq c f).link = s.link := rfl
@[simp] theorem State.updCq_seg (s : State) (c : CqId) (f : Cq → Cq) (h : SegId) : (s.updCq c f).seg h = s.seg h := rfl
@[simp] theorem State.updCq_sq (s : State) (c : CqId) (f : Cq → Cq) (h : SqId) : (s.updCq c f).sq h = s.sq h := rfl
@[simp] theorem State.updCq_watch (s : State) (c : CqId) (f : Cq → Cq) (h : WatchId) : (s.updCq c f).watch h = s.watch h := rfl
@[simp] theorem State.updCq_pres (s : State) (c : CqId) (f : Cq → Cq) (h : Tgt) : (s.updCq c f).pres h = s.pres h := rfl
@[simp] theorem State.updCq_ctx (s : State) (c : CqId) (f : Cq → Cq) (h : CtxNum) : (s.updCq c f).ctx h = s.ctx h := rfl
@[simp] theorem State.updCq_job (s : State) (c : CqId) (f : Cq → Cq) (h : Tgt) : (s.updCq c f).job h = s.job h := rfl
@[simp] theorem State.updCq_restoreList (s : State) (c : CqId) (f : Cq → Cq) (h : Tgt) : (s.updCq c f).restoreList h = s.restoreList h := rfl
@[simp] theorem State.updCq_now (s : State) (c : CqId) (f : Cq → Cq) : (s.updCq c f).now = s.now := rfl

/-! ### setWatch -/

@[simp] theorem State.setWatch_pending (s : State) (w : WatchId) (x : Option Watch) : (s.setWatch w x).pending = s.pending := rfl
@[simp] theorem State.setWatch_ticks (s : State) (w : WatchId) (x : Option Watch) : (s.setWatch w x).ticks = s.ticks := rfl
@[simp] theorem State.setWatch_ctl (s : State) (w : WatchId) (x : Option Watch) : (s.setWatch w x).ctl = s.ctl := rfl
@[simp] theorem State.setWatch_sqs (s : State) (w : WatchId) (x : Option Watch) : (s.setWatch w x).sqs = s.sqs := rfl
@[simp] theorem State.setWatch_cqs (s : State) (w : WatchId) (x : Option Watch) : (s.setWatch w x).cqs = s.cqs := rfl
@[simp] theorem State.setWatch_arb (s : State) (w : WatchId) (x : Option Watch) : (s.setWatch w x).arb = s.arb := rfl
@[simp] theorem State.setWatch_lock (s : State) (w : WatchId) (x : Option Watch) : (s.setWatch w x).lock = s.lock := rfl
@[simp] theorem State.setWatch_ctxs (s : State) (w : WatchId) (x : Option Watch) : (s.setWatch w x).ctxs = s.ctxs := rfl
@[simp] theorem State.setWatch_nextChain (s : State) (w : WatchId) (x : Option Watch) : (s.setWatch w x).nextChain = s.nextChain := rfl
@[simp] theorem State.setWatch_adm (s : State) (w : WatchId) (x : Option Watch) : (s.setWatch w x).adm = s.adm := rfl
@[simp] theorem State.setWatch_segs (s : State) (w : WatchId) (x : Option Watch) : (s.setWatch w x).segs = s.segs := rfl
@[simp] theorem State.setWatch_presence (s : State) (w : WatchId) (x : Option Watch) : (s.setWatch w x).presence = s.presence := rfl
@[simp] theorem State.setWatch_pool (s : State) (w : WatchId) (x : Option Watch) : (s.setWatch w x).pool = s.pool := rfl
@[simp] theorem State.setWatch_jobs (s : State) (w : WatchId) (x : Option Watch) : (s.setWatch w x).jobs = s.jobs := rfl
@[simp] theorem State.setWatch_ev (s : State) (w : WatchId) (x : Option Watch) : (s.setWatch w x).ev = s.ev := rfl
@[simp] theorem State.setWatch_irq (s : State) (w : WatchId) (x : Option Watch) : (s.setWatch w x).irq = s.irq := rfl
@[simp] theorem State.setWatch_link (s : State) (w : WatchId) (x : Option Watch) : (s.setWatch w x).link = s.link := rfl
@[simp] theorem State.setWatch_seg (s : State) (w : WatchId) (x : Option Watch) (h : SegId) : (s.setWatch w x).seg h = s.seg h := rfl
@[simp] theorem State.setWatch_sq (s : State) (w : WatchId) (x : Option Watch) (h : SqId) : (s.setWatch w x).sq h = s.sq h := rfl
@[simp] theorem State.setWatch_cq (s : State) (w : WatchId) (x : Option Watch) (h : CqId) : (s.setWatch w x).cq h = s.cq h := rfl
@[simp] theorem State.setWatch_pres (s : State) (w : WatchId) (x : Option Watch) (h : Tgt) : (s.setWatch w x).pres h = s.pres h := rfl
@[simp] theorem State.setWatch_ctx (s : State) (w : WatchId) (x : Option Watch) (h : CtxNum) : (s.setWatch w x).ctx h = s.ctx h := rfl
@[simp] theorem State.setWatch_job (s : State) (w : WatchId) (x : Option Watch) (h : Tgt) : (s.setWatch w x).job h = s.job h := rfl
@[simp] theorem State.setWatch_restoreList (s : State) (w : WatchId) (x : Option Watch) (h : Tgt) : (s.setWatch w x).restoreList h = s.restoreList h := rfl
@[simp] theorem State.setWatch_now (s : State) (w : WatchId) (x : Option Watch) : (s.setWatch w x).now = s.now := rfl

/-! ### updWatch -/

@[simp] theorem State.updWatch_pending (s : State) (w : WatchId) (f : Watch → Watch) : (s.updWatch w f).pending = s.pending := rfl
@[simp] theorem State.updWatch_ticks (s : State) (w : WatchId) (f : Watch → Watch) : (s.updWatch w f).ticks = s.ticks := rfl
@[simp] theorem State.updWatch_ctl (s : State) (w : WatchId) (f : Watch → Watch) : (s.updWatch w f).ctl = s.ctl := rfl
@[simp] theorem State.updWatch_sqs (s : State) (w : WatchId) (f : Watch → Watch) : (s.updWatch w f).sqs = s.sqs := rfl
@[simp] theorem State.updWatch_cqs (s : State) (w : WatchId) (f : Watch → Watch) : (s.updWatch w f).cqs = s.cqs := rfl
@[simp] theorem State.updWatch_arb (s : State) (w : WatchId) (f : Watch → Watch) : (s.updWatch w f).arb = s.arb := rfl
@[simp] theorem State.updWatch_lock (s : State) (w : WatchId) (f : Watch → Watch) : (s.updWatch w f).lock = s.lock := rfl
@[simp] theorem State.updWatch_ctxs (s : State) (w : WatchId) (f : Watch → Watch) : (s.updWatch w f).ctxs = s.ctxs := rfl
@[simp] theorem State.updWatch_nextChain (s : State) (w : WatchId) (f : Watch → Watch) : (s.updWatch w f).nextChain = s.nextChain := rfl
@[simp] theorem State.updWatch_adm (s : State) (w : WatchId) (f : Watch → Watch) : (s.updWatch w f).adm = s.adm := rfl
@[simp] theorem State.updWatch_segs (s : State) (w : WatchId) (f : Watch → Watch) : (s.updWatch w f).segs = s.segs := rfl
@[simp] theorem State.updWatch_presence (s : State) (w : WatchId) (f : Watch → Watch) : (s.updWatch w f).presence = s.presence := rfl
@[simp] theorem State.updWatch_pool (s : State) (w : WatchId) (f : Watch → Watch) : (s.updWatch w f).pool = s.pool := rfl
@[simp] theorem State.updWatch_jobs (s : State) (w : WatchId) (f : Watch → Watch) : (s.updWatch w f).jobs = s.jobs := rfl
@[simp] theorem State.updWatch_ev (s : State) (w : WatchId) (f : Watch → Watch) : (s.updWatch w f).ev = s.ev := rfl
@[simp] theorem State.updWatch_irq (s : State) (w : WatchId) (f : Watch → Watch) : (s.updWatch w f).irq = s.irq := rfl
@[simp] theorem State.updWatch_link (s : State) (w : WatchId) (f : Watch → Watch) : (s.updWatch w f).link = s.link := rfl
@[simp] theorem State.updWatch_seg (s : State) (w : WatchId) (f : Watch → Watch) (h : SegId) : (s.updWatch w f).seg h = s.seg h := rfl
@[simp] theorem State.updWatch_sq (s : State) (w : WatchId) (f : Watch → Watch) (h : SqId) : (s.updWatch w f).sq h = s.sq h := rfl
@[simp] theorem State.updWatch_cq (s : State) (w : WatchId) (f : Watch → Watch) (h : CqId) : (s.updWatch w f).cq h = s.cq h := rfl
@[simp] theorem State.updWatch_pres (s : State) (w : WatchId) (f : Watch → Watch) (h : Tgt) : (s.updWatch w f).pres h = s.pres h := rfl
@[simp] theorem State.updWatch_ctx (s : State) (w : WatchId) (f : Watch → Watch) (h : CtxNum) : (s.updWatch w f).ctx h = s.ctx h := rfl
@[simp] theorem State.updWatch_job (s : State) (w : WatchId) (f : Watch → Watch) (h : Tgt) : (s.updWatch w f).job h = s.job h := rfl
@[simp] theorem State.updWatch_restoreList (s : State) (w : WatchId) (f : Watch → Watch) (h : Tgt) : (s.updWatch w f).restoreList h = s.restoreList h := rfl
@[simp] theorem State.updWatch_now (s : State) (w : WatchId) (f : Watch → Watch) : (s.updWatch w f).now = s.now := rfl

/-! ### mapWatches -/

@[simp] theorem State.mapWatches_pending (s : State) (f : Watch → Watch) : (s.mapWatches f).pending = s.pending := rfl
@[simp] theorem State.mapWatches_ticks (s : State) (f : Watch → Watch) : (s.mapWatches f).ticks = s.ticks := rfl
@[simp] theorem State.mapWatches_ctl (s : State) (f : Watch → Watch) : (s.mapWatches f).ctl = s.ctl := rfl
@[simp] theorem State.mapWatches_sqs (s : State) (f : Watch → Watch) : (s.mapWatches f).sqs = s.sqs := rfl
@[simp] theorem State.mapWatches_cqs (s : State) (f : Watch → Watch) : (s.mapWatches f).cqs = s.cqs := rfl
@[simp] theorem State.mapWatches_arb (s : State) (f : Watch → Watch) : (s.mapWatches f).arb = s.arb := rfl
@[simp] theorem State.mapWatches_lock (s : State) (f : Watch → Watch) : (s.mapWatches f).lock = s.lock := rfl
@[simp] theorem State.mapWatches_ctxs (s : State) (f : Watch → Watch) : (s.mapWatches f).ctxs = s.ctxs := rfl
@[simp] theorem State.mapWatches_nextChain (s : State) (f : Watch → Watch) : (s.mapWatches f).nextChain = s.nextChain := rfl
@[simp] theorem State.mapWatches_adm (s : State) (f : Watch → Watch) : (s.mapWatches f).adm = s.adm := rfl
@[simp] theorem State.mapWatches_segs (s : State) (f : Watch → Watch) : (s.mapWatches f).segs = s.segs := rfl
@[simp] theorem State.mapWatches_presence (s : State) (f : Watch → Watch) : (s.mapWatches f).presence = s.presence := rfl
@[simp] theorem State.mapWatches_pool (s : State) (f : Watch → Watch) : (s.mapWatches f).pool = s.pool := rfl
@[simp] theorem State.mapWatches_jobs (s : State) (f : Watch → Watch) : (s.mapWatches f).jobs = s.jobs := rfl
@[simp] theorem State.mapWatches_ev (s : State) (f : Watch → Watch) : (s.mapWatches f).ev = s.ev := rfl
@[simp] theorem State.mapWatches_irq (s : State) (f : Watch → Watch) : (s.mapWatches f).irq = s.irq := rfl
@[simp] theorem State.mapWatches_link (s : State) (f : Watch → Watch) : (s.mapWatches f).link = s.link := rfl
@[simp] theorem State.mapWatches_seg (s : State) (f : Watch → Watch) (h : SegId) : (s.mapWatches f).seg h = s.seg h := rfl
@[simp] theorem State.mapWatches_sq (s : State) (f : Watch → Watch) (h : SqId) : (s.mapWatches f).sq h = s.sq h := rfl
@[simp] theorem State.mapWatches_cq (s : State) (f : Watch → Watch) (h : CqId) : (s.mapWatches f).cq h = s.cq h := rfl
@[simp] theorem State.mapWatches_pres (s : State) (f : Watch → Watch) (h : Tgt) : (s.mapWatches f).pres h = s.pres h := rfl
@[simp] theorem State.mapWatches_ctx (s : State) (f : Watch → Watch) (h : CtxNum) : (s.mapWatches f).ctx h = s.ctx h := rfl
@[simp] theorem State.mapWatches_job (s : State) (f : Watch → Watch) (h : Tgt) : (s.mapWatches f).job h = s.job h := rfl
@[simp] theorem State.mapWatches_restoreList (s : State) (f : Watch → Watch) (h : Tgt) : (s.mapWatches f).restoreList h = s.restoreList h := rfl
@[simp] theorem State.mapWatches_now (s : State) (f : Watch → Watch) : (s.mapWatches f).now = s.now := rfl

/-! ### setPres -/

@[simp] theorem State.setPres_pending (s : State) (t : Tgt) (e : PresEntry) : (s.setPres t e).pending = s.pending := rfl
@[simp] theorem State.setPres_ticks (s : State) (t : Tgt) (e : PresEntry) : (s.setPres t e).ticks = s.ticks := rfl
@[simp] theorem State.setPres_ctl (s : State) (t : Tgt) (e : PresEntry) : (s.setPres t e).ctl = s.ctl := rfl
@[simp] theorem State.setPres_sqs (s : State) (t : Tgt) (e : PresEntry) : (s.setPres t e).sqs = s.sqs := rfl
@[simp] theorem State.setPres_cqs (s : State) (t : Tgt) (e : PresEntry) : (s.setPres t e).cqs = s.cqs := rfl
@[simp] theorem State.setPres_arb (s : State) (t : Tgt) (e : PresEntry) : (s.setPres t e).arb = s.arb := rfl
@[simp] theorem State.setPres_lock (s : State) (t : Tgt) (e : PresEntry) : (s.setPres t e).lock = s.lock := rfl
@[simp] theorem State.setPres_ctxs (s : State) (t : Tgt) (e : PresEntry) : (s.setPres t e).ctxs = s.ctxs := rfl
@[simp] theorem State.setPres_nextChain (s : State) (t : Tgt) (e : PresEntry) : (s.setPres t e).nextChain = s.nextChain := rfl
@[simp] theorem State.setPres_adm (s : State) (t : Tgt) (e : PresEntry) : (s.setPres t e).adm = s.adm := rfl
@[simp] theorem State.setPres_segs (s : State) (t : Tgt) (e : PresEntry) : (s.setPres t e).segs = s.segs := rfl
@[simp] theorem State.setPres_watches (s : State) (t : Tgt) (e : PresEntry) : (s.setPres t e).watches = s.watches := rfl
@[simp] theorem State.setPres_pool (s : State) (t : Tgt) (e : PresEntry) : (s.setPres t e).pool = s.pool := rfl
@[simp] theorem State.setPres_jobs (s : State) (t : Tgt) (e : PresEntry) : (s.setPres t e).jobs = s.jobs := rfl
@[simp] theorem State.setPres_ev (s : State) (t : Tgt) (e : PresEntry) : (s.setPres t e).ev = s.ev := rfl
@[simp] theorem State.setPres_irq (s : State) (t : Tgt) (e : PresEntry) : (s.setPres t e).irq = s.irq := rfl
@[simp] theorem State.setPres_link (s : State) (t : Tgt) (e : PresEntry) : (s.setPres t e).link = s.link := rfl
@[simp] theorem State.setPres_seg (s : State) (t : Tgt) (e : PresEntry) (h : SegId) : (s.setPres t e).seg h = s.seg h := rfl
@[simp] theorem State.setPres_sq (s : State) (t : Tgt) (e : PresEntry) (h : SqId) : (s.setPres t e).sq h = s.sq h := rfl
@[simp] theorem State.setPres_cq (s : State) (t : Tgt) (e : PresEntry) (h : CqId) : (s.setPres t e).cq h = s.cq h := rfl
@[simp] theorem State.setPres_watch (s : State) (t : Tgt) (e : PresEntry) (h : WatchId) : (s.setPres t e).watch h = s.watch h := rfl
@[simp] theorem State.setPres_ctx (s : State) (t : Tgt) (e : PresEntry) (h : CtxNum) : (s.setPres t e).ctx h = s.ctx h := rfl
@[simp] theorem State.setPres_job (s : State) (t : Tgt) (e : PresEntry) (h : Tgt) : (s.setPres t e).job h = s.job h := rfl
@[simp] theorem State.setPres_restoreList (s : State) (t : Tgt) (e : PresEntry) (h : Tgt) : (s.setPres t e).restoreList h = s.restoreList h := rfl
@[simp] theorem State.setPres_now (s : State) (t : Tgt) (e : PresEntry) : (s.setPres t e).now = s.now := rfl

/-! ### updCtx -/

@[simp] theorem State.updCtx_pending (s : State) (n : CtxNum) (f : Ctx → Ctx) : (s.updCtx n f).pending = s.pending := rfl
@[simp] theorem State.updCtx_ticks (s : State) (n : CtxNum) (f : Ctx → Ctx) : (s.updCtx n f).ticks = s.ticks := rfl
@[simp] theorem State.updCtx_ctl (s : State) (n : CtxNum) (f : Ctx → Ctx) : (s.updCtx n f).ctl = s.ctl := rfl
@[simp] theorem State.updCtx_sqs (s : State) (n : CtxNum) (f : Ctx → Ctx) : (s.updCtx n f).sqs = s.sqs := rfl
@[simp] theorem State.updCtx_cqs (s : State) (n : CtxNum) (f : Ctx → Ctx) : (s.updCtx n f).cqs = s.cqs := rfl
@[simp] theorem State.updCtx_arb (s : State) (n : CtxNum) (f : Ctx → Ctx) : (s.updCtx n f).arb = s.arb := rfl
@[simp] theorem State.updCtx_lock (s : State) (n : CtxNum) (f : Ctx → Ctx) : (s.updCtx n f).lock = s.lock := rfl
@[simp] theorem State.updCtx_nextChain (s : State) (n : CtxNum) (f : Ctx → Ctx) : (s.updCtx n f).nextChain = s.nextChain := rfl
@[simp] theorem State.updCtx_adm (s : State) (n : CtxNum) (f : Ctx → Ctx) : (s.updCtx n f).adm = s.adm := rfl
@[simp] theorem State.updCtx_segs (s : State) (n : CtxNum) (f : Ctx → Ctx) : (s.updCtx n f).segs = s.segs := rfl
@[simp] theorem State.updCtx_presence (s : State) (n : CtxNum) (f : Ctx → Ctx) : (s.updCtx n f).presence = s.presence := rfl
@[simp] theorem State.updCtx_watches (s : State) (n : CtxNum) (f : Ctx → Ctx) : (s.updCtx n f).watches = s.watches := rfl
@[simp] theorem State.updCtx_pool (s : State) (n : CtxNum) (f : Ctx → Ctx) : (s.updCtx n f).pool = s.pool := rfl
@[simp] theorem State.updCtx_jobs (s : State) (n : CtxNum) (f : Ctx → Ctx) : (s.updCtx n f).jobs = s.jobs := rfl
@[simp] theorem State.updCtx_ev (s : State) (n : CtxNum) (f : Ctx → Ctx) : (s.updCtx n f).ev = s.ev := rfl
@[simp] theorem State.updCtx_irq (s : State) (n : CtxNum) (f : Ctx → Ctx) : (s.updCtx n f).irq = s.irq := rfl
@[simp] theorem State.updCtx_link (s : State) (n : CtxNum) (f : Ctx → Ctx) : (s.updCtx n f).link = s.link := rfl
@[simp] theorem State.updCtx_seg (s : State) (n : CtxNum) (f : Ctx → Ctx) (h : SegId) : (s.updCtx n f).seg h = s.seg h := rfl
@[simp] theorem State.updCtx_sq (s : State) (n : CtxNum) (f : Ctx → Ctx) (h : SqId) : (s.updCtx n f).sq h = s.sq h := rfl
@[simp] theorem State.updCtx_cq (s : State) (n : CtxNum) (f : Ctx → Ctx) (h : CqId) : (s.updCtx n f).cq h = s.cq h := rfl
@[simp] theorem State.updCtx_watch (s : State) (n : CtxNum) (f : Ctx → Ctx) (h : WatchId) : (s.updCtx n f).watch h = s.watch h := rfl
@[simp] theorem State.updCtx_pres (s : State) (n : CtxNum) (f : Ctx → Ctx) (h : Tgt) : (s.updCtx n f).pres h = s.pres h := rfl
@[simp] theorem State.updCtx_job (s : State) (n : CtxNum) (f : Ctx → Ctx) (h : Tgt) : (s.updCtx n f).job h = s.job h := rfl
@[simp] theorem State.updCtx_restoreList (s : State) (n : CtxNum) (f : Ctx → Ctx) (h : Tgt) : (s.updCtx n f).restoreList h = s.restoreList h := rfl
@[simp] theorem State.updCtx_now (s : State) (n : CtxNum) (f : Ctx → Ctx) : (s.updCtx n f).now = s.now := rfl

/-! ### freeCtx -/

@[simp] theorem State.freeCtx_pending (s : State) (n : CtxNum) : (s.freeCtx n).pending = s.pending := rfl
@[simp] theorem State.freeCtx_ticks (s : State) (n : CtxNum) : (s.freeCtx n).ticks = s.ticks := rfl
@[simp] theorem State.freeCtx_ctl (s : State) (n : CtxNum) : (s.freeCtx n).ctl = s.ctl := rfl
@[simp] theorem State.freeCtx_sqs (s : State) (n : CtxNum) : (s.freeCtx n).sqs = s.sqs := rfl
@[simp] theorem State.freeCtx_cqs (s : State) (n : CtxNum) : (s.freeCtx n).cqs = s.cqs := rfl
@[simp] theorem State.freeCtx_arb (s : State) (n : CtxNum) : (s.freeCtx n).arb = s.arb := rfl
@[simp] theorem State.freeCtx_lock (s : State) (n : CtxNum) : (s.freeCtx n).lock = s.lock := rfl
@[simp] theorem State.freeCtx_nextChain (s : State) (n : CtxNum) : (s.freeCtx n).nextChain = s.nextChain := rfl
@[simp] theorem State.freeCtx_adm (s : State) (n : CtxNum) : (s.freeCtx n).adm = s.adm := rfl
@[simp] theorem State.freeCtx_segs (s : State) (n : CtxNum) : (s.freeCtx n).segs = s.segs := rfl
@[simp] theorem State.freeCtx_presence (s : State) (n : CtxNum) : (s.freeCtx n).presence = s.presence := rfl
@[simp] theorem State.freeCtx_watches (s : State) (n : CtxNum) : (s.freeCtx n).watches = s.watches := rfl
@[simp] theorem State.freeCtx_pool (s : State) (n : CtxNum) : (s.freeCtx n).pool = s.pool := rfl
@[simp] theorem State.freeCtx_jobs (s : State) (n : CtxNum) : (s.freeCtx n).jobs = s.jobs := rfl
@[simp] theorem State.freeCtx_ev (s : State) (n : CtxNum) : (s.freeCtx n).ev = s.ev := rfl
@[simp] theorem State.freeCtx_irq (s : State) (n : CtxNum) : (s.freeCtx n).irq = s.irq := rfl
@[simp] theorem State.freeCtx_link (s : State) (n : CtxNum) : (s.freeCtx n).link = s.link := rfl
@[simp] theorem State.freeCtx_seg (s : State) (n : CtxNum) (h : SegId) : (s.freeCtx n).seg h = s.seg h := rfl
@[simp] theorem State.freeCtx_sq (s : State) (n : CtxNum) (h : SqId) : (s.freeCtx n).sq h = s.sq h := rfl
@[simp] theorem State.freeCtx_cq (s : State) (n : CtxNum) (h : CqId) : (s.freeCtx n).cq h = s.cq h := rfl
@[simp] theorem State.freeCtx_watch (s : State) (n : CtxNum) (h : WatchId) : (s.freeCtx n).watch h = s.watch h := rfl
@[simp] theorem State.freeCtx_pres (s : State) (n : CtxNum) (h : Tgt) : (s.freeCtx n).pres h = s.pres h := rfl
@[simp] theorem State.freeCtx_job (s : State) (n : CtxNum) (h : Tgt) : (s.freeCtx n).job h = s.job h := rfl
@[simp] theorem State.freeCtx_restoreList (s : State) (n : CtxNum) (h : Tgt) : (s.freeCtx n).restoreList h = s.restoreList h := rfl
@[simp] theorem State.freeCtx_now (s : State) (n : CtxNum) : (s.freeCtx n).now = s.now := rfl

/-! ### Samples -/

@[simp] theorem get_tableMapAt {α β : Type} {n : Nat} (f : Fin n → α → β) (v : Vector α n) (i : Fin n) :
    (tableMapAt f v).get i = f i (v.get i) := by
  simp [tableMapAt, Vector.get]
  rfl
@[simp] theorem SegCtl.sample_state (y : SegCtl) (l : Bool) : (y.sample l).state = y.state := by
  unfold SegCtl.sample; split <;> rfl
@[simp] theorem SegCtl.sample_settings (y : SegCtl) (l : Bool) : (y.sample l).settings = y.settings := by
  unfold SegCtl.sample; split <;> rfl
@[simp] theorem SegCtl.sample_pendingList (y : SegCtl) (l : Bool) : (y.sample l).pendingList = y.pendingList := by
  unfold SegCtl.sample; split <;> rfl
@[simp] theorem SegCtl.sample_offered (y : SegCtl) (l : Bool) : (y.sample l).offered = y.offered := by
  unfold SegCtl.sample; split <;> rfl
@[simp] theorem SegCtl.sample_writes (y : SegCtl) (l : Bool) : (y.sample l).writes = y.writes := by
  unfold SegCtl.sample; split <;> rfl
@[simp] theorem SegCtl.sample_respDelays (y : SegCtl) (l : Bool) : (y.sample l).respDelays = y.respDelays := by
  unfold SegCtl.sample; split <;> rfl
@[simp] theorem SegCtl.sample_duePolls (y : SegCtl) (l : Bool) : (y.sample l).duePolls = y.duePolls := by
  unfold SegCtl.sample; split <;> rfl
@[simp] theorem SegCtl.sample_holder (y : SegCtl) (l : Bool) : (y.sample l).holder = y.holder := by
  unfold SegCtl.sample; split <;> rfl
@[simp] theorem SegCtl.sample_lastServed (y : SegCtl) (l : Bool) : (y.sample l).lastServed = y.lastServed := by
  unfold SegCtl.sample; split <;> rfl
@[simp] theorem SegCtl.sample_wire (y : SegCtl) (l : Bool) : (y.sample l).wire = y.wire := by
  unfold SegCtl.sample; split <;> rfl
@[simp] theorem SegCtl.sample_pulseCount (y : SegCtl) (l : Bool) : (y.sample l).pulseCount = y.pulseCount := by
  unfold SegCtl.sample; split <;> rfl
@[simp] theorem SegCtl.sample_recoveryIdle (y : SegCtl) (l : Bool) : (y.sample l).recoveryIdle = y.recoveryIdle := by
  unfold SegCtl.sample; split <;> rfl
/-- A sample touches the stuck count alone (R13). -/
theorem SegCtl.sample_eq (y : SegCtl) (l : Bool) : y.sample l = { y with stuckCount := (y.sample l).stuckCount } := by
  unfold SegCtl.sample; split <;> rfl
/-- A segment that does not monitor HDA samples nothing. -/
theorem SegCtl.sample_unmonitored {y : SegCtl} (h : y.monitors = false) (l : Bool) : y.sample l = y := by
  simp [SegCtl.sample, h]

/-! ### issue -/

@[simp] theorem State.issue_pending (s : State) (a : Access) (p : Addr) (b : List Byte) : (s.issue a p b).pending = s.pending := rfl
@[simp] theorem State.issue_ticks (s : State) (a : Access) (p : Addr) (b : List Byte) : (s.issue a p b).ticks = s.ticks := rfl
@[simp] theorem State.issue_ctl (s : State) (a : Access) (p : Addr) (b : List Byte) : (s.issue a p b).ctl = s.ctl := rfl
@[simp] theorem State.issue_sqs (s : State) (a : Access) (p : Addr) (b : List Byte) : (s.issue a p b).sqs = s.sqs := rfl
@[simp] theorem State.issue_cqs (s : State) (a : Access) (p : Addr) (b : List Byte) : (s.issue a p b).cqs = s.cqs := rfl
@[simp] theorem State.issue_arb (s : State) (a : Access) (p : Addr) (b : List Byte) : (s.issue a p b).arb = s.arb := rfl
@[simp] theorem State.issue_lock (s : State) (a : Access) (p : Addr) (b : List Byte) : (s.issue a p b).lock = s.lock := rfl
@[simp] theorem State.issue_ctxs (s : State) (a : Access) (p : Addr) (b : List Byte) : (s.issue a p b).ctxs = s.ctxs := rfl
@[simp] theorem State.issue_nextChain (s : State) (a : Access) (p : Addr) (b : List Byte) : (s.issue a p b).nextChain = s.nextChain := rfl
@[simp] theorem State.issue_adm (s : State) (a : Access) (p : Addr) (b : List Byte) : (s.issue a p b).adm = s.adm := rfl
@[simp] theorem State.issue_segs (s : State) (a : Access) (p : Addr) (b : List Byte) : (s.issue a p b).segs = s.segs := rfl
@[simp] theorem State.issue_presence (s : State) (a : Access) (p : Addr) (b : List Byte) : (s.issue a p b).presence = s.presence := rfl
@[simp] theorem State.issue_watches (s : State) (a : Access) (p : Addr) (b : List Byte) : (s.issue a p b).watches = s.watches := rfl
@[simp] theorem State.issue_pool (s : State) (a : Access) (p : Addr) (b : List Byte) : (s.issue a p b).pool = s.pool := rfl
@[simp] theorem State.issue_jobs (s : State) (a : Access) (p : Addr) (b : List Byte) : (s.issue a p b).jobs = s.jobs := rfl
@[simp] theorem State.issue_ev (s : State) (a : Access) (p : Addr) (b : List Byte) : (s.issue a p b).ev = s.ev := rfl
@[simp] theorem State.issue_irq (s : State) (a : Access) (p : Addr) (b : List Byte) : (s.issue a p b).irq = s.irq := rfl
@[simp] theorem State.issue_seg (s : State) (a : Access) (p : Addr) (b : List Byte) (h : SegId) : (s.issue a p b).seg h = s.seg h := rfl
@[simp] theorem State.issue_sq (s : State) (a : Access) (p : Addr) (b : List Byte) (h : SqId) : (s.issue a p b).sq h = s.sq h := rfl
@[simp] theorem State.issue_cq (s : State) (a : Access) (p : Addr) (b : List Byte) (h : CqId) : (s.issue a p b).cq h = s.cq h := rfl
@[simp] theorem State.issue_watch (s : State) (a : Access) (p : Addr) (b : List Byte) (h : WatchId) : (s.issue a p b).watch h = s.watch h := rfl
@[simp] theorem State.issue_pres (s : State) (a : Access) (p : Addr) (b : List Byte) (h : Tgt) : (s.issue a p b).pres h = s.pres h := rfl
@[simp] theorem State.issue_ctx (s : State) (a : Access) (p : Addr) (b : List Byte) (h : CtxNum) : (s.issue a p b).ctx h = s.ctx h := rfl
@[simp] theorem State.issue_job (s : State) (a : Access) (p : Addr) (b : List Byte) (h : Tgt) : (s.issue a p b).job h = s.job h := rfl
@[simp] theorem State.issue_restoreList (s : State) (a : Access) (p : Addr) (b : List Byte) (h : Tgt) : (s.issue a p b).restoreList h = s.restoreList h := rfl
@[simp] theorem State.issue_now (s : State) (a : Access) (p : Addr) (b : List Byte) : (s.issue a p b).now = s.now := rfl

/-! ### retire -/

@[simp] theorem State.retire_pending (s : State) (t : Nat) : (s.retire t).pending = s.pending := rfl
@[simp] theorem State.retire_ticks (s : State) (t : Nat) : (s.retire t).ticks = s.ticks := rfl
@[simp] theorem State.retire_ctl (s : State) (t : Nat) : (s.retire t).ctl = s.ctl := rfl
@[simp] theorem State.retire_sqs (s : State) (t : Nat) : (s.retire t).sqs = s.sqs := rfl
@[simp] theorem State.retire_cqs (s : State) (t : Nat) : (s.retire t).cqs = s.cqs := rfl
@[simp] theorem State.retire_arb (s : State) (t : Nat) : (s.retire t).arb = s.arb := rfl
@[simp] theorem State.retire_lock (s : State) (t : Nat) : (s.retire t).lock = s.lock := rfl
@[simp] theorem State.retire_ctxs (s : State) (t : Nat) : (s.retire t).ctxs = s.ctxs := rfl
@[simp] theorem State.retire_nextChain (s : State) (t : Nat) : (s.retire t).nextChain = s.nextChain := rfl
@[simp] theorem State.retire_adm (s : State) (t : Nat) : (s.retire t).adm = s.adm := rfl
@[simp] theorem State.retire_segs (s : State) (t : Nat) : (s.retire t).segs = s.segs := rfl
@[simp] theorem State.retire_presence (s : State) (t : Nat) : (s.retire t).presence = s.presence := rfl
@[simp] theorem State.retire_watches (s : State) (t : Nat) : (s.retire t).watches = s.watches := rfl
@[simp] theorem State.retire_pool (s : State) (t : Nat) : (s.retire t).pool = s.pool := rfl
@[simp] theorem State.retire_jobs (s : State) (t : Nat) : (s.retire t).jobs = s.jobs := rfl
@[simp] theorem State.retire_ev (s : State) (t : Nat) : (s.retire t).ev = s.ev := rfl
@[simp] theorem State.retire_irq (s : State) (t : Nat) : (s.retire t).irq = s.irq := rfl
@[simp] theorem State.retire_seg (s : State) (t : Nat) (h : SegId) : (s.retire t).seg h = s.seg h := rfl
@[simp] theorem State.retire_sq (s : State) (t : Nat) (h : SqId) : (s.retire t).sq h = s.sq h := rfl
@[simp] theorem State.retire_cq (s : State) (t : Nat) (h : CqId) : (s.retire t).cq h = s.cq h := rfl
@[simp] theorem State.retire_watch (s : State) (t : Nat) (h : WatchId) : (s.retire t).watch h = s.watch h := rfl
@[simp] theorem State.retire_pres (s : State) (t : Nat) (h : Tgt) : (s.retire t).pres h = s.pres h := rfl
@[simp] theorem State.retire_ctx (s : State) (t : Nat) (h : CtxNum) : (s.retire t).ctx h = s.ctx h := rfl
@[simp] theorem State.retire_job (s : State) (t : Nat) (h : Tgt) : (s.retire t).job h = s.job h := rfl
@[simp] theorem State.retire_restoreList (s : State) (t : Nat) (h : Tgt) : (s.retire t).restoreList h = s.restoreList h := rfl
@[simp] theorem State.retire_now (s : State) (t : Nat) : (s.retire t).now = s.now := rfl

/-! ### handVector -/

@[simp] theorem State.handVector_pending (s : State) (v : VecId) : (s.handVector v).pending = s.pending := rfl
@[simp] theorem State.handVector_ticks (s : State) (v : VecId) : (s.handVector v).ticks = s.ticks := rfl
@[simp] theorem State.handVector_ctl (s : State) (v : VecId) : (s.handVector v).ctl = s.ctl := rfl
@[simp] theorem State.handVector_sqs (s : State) (v : VecId) : (s.handVector v).sqs = s.sqs := rfl
@[simp] theorem State.handVector_cqs (s : State) (v : VecId) : (s.handVector v).cqs = s.cqs := rfl
@[simp] theorem State.handVector_arb (s : State) (v : VecId) : (s.handVector v).arb = s.arb := rfl
@[simp] theorem State.handVector_lock (s : State) (v : VecId) : (s.handVector v).lock = s.lock := rfl
@[simp] theorem State.handVector_ctxs (s : State) (v : VecId) : (s.handVector v).ctxs = s.ctxs := rfl
@[simp] theorem State.handVector_nextChain (s : State) (v : VecId) : (s.handVector v).nextChain = s.nextChain := rfl
@[simp] theorem State.handVector_adm (s : State) (v : VecId) : (s.handVector v).adm = s.adm := rfl
@[simp] theorem State.handVector_segs (s : State) (v : VecId) : (s.handVector v).segs = s.segs := rfl
@[simp] theorem State.handVector_presence (s : State) (v : VecId) : (s.handVector v).presence = s.presence := rfl
@[simp] theorem State.handVector_watches (s : State) (v : VecId) : (s.handVector v).watches = s.watches := rfl
@[simp] theorem State.handVector_pool (s : State) (v : VecId) : (s.handVector v).pool = s.pool := rfl
@[simp] theorem State.handVector_jobs (s : State) (v : VecId) : (s.handVector v).jobs = s.jobs := rfl
@[simp] theorem State.handVector_ev (s : State) (v : VecId) : (s.handVector v).ev = s.ev := rfl
@[simp] theorem State.handVector_link (s : State) (v : VecId) : (s.handVector v).link = s.link := rfl
@[simp] theorem State.handVector_seg (s : State) (v : VecId) (h : SegId) : (s.handVector v).seg h = s.seg h := rfl
@[simp] theorem State.handVector_sq (s : State) (v : VecId) (h : SqId) : (s.handVector v).sq h = s.sq h := rfl
@[simp] theorem State.handVector_cq (s : State) (v : VecId) (h : CqId) : (s.handVector v).cq h = s.cq h := rfl
@[simp] theorem State.handVector_watch (s : State) (v : VecId) (h : WatchId) : (s.handVector v).watch h = s.watch h := rfl
@[simp] theorem State.handVector_pres (s : State) (v : VecId) (h : Tgt) : (s.handVector v).pres h = s.pres h := rfl
@[simp] theorem State.handVector_ctx (s : State) (v : VecId) (h : CtxNum) : (s.handVector v).ctx h = s.ctx h := rfl
@[simp] theorem State.handVector_job (s : State) (v : VecId) (h : Tgt) : (s.handVector v).job h = s.job h := rfl
@[simp] theorem State.handVector_restoreList (s : State) (v : VecId) (h : Tgt) : (s.handVector v).restoreList h = s.restoreList h := rfl
@[simp] theorem State.handVector_now (s : State) (v : VecId) : (s.handVector v).now = s.now := rfl

/-! ### setRing -/

@[simp] theorem State.setRing_pending (s : State) (r : Option Ring) : (s.setRing r).pending = s.pending := rfl
@[simp] theorem State.setRing_ticks (s : State) (r : Option Ring) : (s.setRing r).ticks = s.ticks := rfl
@[simp] theorem State.setRing_ctl (s : State) (r : Option Ring) : (s.setRing r).ctl = s.ctl := rfl
@[simp] theorem State.setRing_sqs (s : State) (r : Option Ring) : (s.setRing r).sqs = s.sqs := rfl
@[simp] theorem State.setRing_cqs (s : State) (r : Option Ring) : (s.setRing r).cqs = s.cqs := rfl
@[simp] theorem State.setRing_arb (s : State) (r : Option Ring) : (s.setRing r).arb = s.arb := rfl
@[simp] theorem State.setRing_lock (s : State) (r : Option Ring) : (s.setRing r).lock = s.lock := rfl
@[simp] theorem State.setRing_ctxs (s : State) (r : Option Ring) : (s.setRing r).ctxs = s.ctxs := rfl
@[simp] theorem State.setRing_nextChain (s : State) (r : Option Ring) : (s.setRing r).nextChain = s.nextChain := rfl
@[simp] theorem State.setRing_adm (s : State) (r : Option Ring) : (s.setRing r).adm = s.adm := rfl
@[simp] theorem State.setRing_segs (s : State) (r : Option Ring) : (s.setRing r).segs = s.segs := rfl
@[simp] theorem State.setRing_presence (s : State) (r : Option Ring) : (s.setRing r).presence = s.presence := rfl
@[simp] theorem State.setRing_watches (s : State) (r : Option Ring) : (s.setRing r).watches = s.watches := rfl
@[simp] theorem State.setRing_pool (s : State) (r : Option Ring) : (s.setRing r).pool = s.pool := rfl
@[simp] theorem State.setRing_jobs (s : State) (r : Option Ring) : (s.setRing r).jobs = s.jobs := rfl
@[simp] theorem State.setRing_irq (s : State) (r : Option Ring) : (s.setRing r).irq = s.irq := rfl
@[simp] theorem State.setRing_link (s : State) (r : Option Ring) : (s.setRing r).link = s.link := rfl
@[simp] theorem State.setRing_seg (s : State) (r : Option Ring) (h : SegId) : (s.setRing r).seg h = s.seg h := rfl
@[simp] theorem State.setRing_sq (s : State) (r : Option Ring) (h : SqId) : (s.setRing r).sq h = s.sq h := rfl
@[simp] theorem State.setRing_cq (s : State) (r : Option Ring) (h : CqId) : (s.setRing r).cq h = s.cq h := rfl
@[simp] theorem State.setRing_watch (s : State) (r : Option Ring) (h : WatchId) : (s.setRing r).watch h = s.watch h := rfl
@[simp] theorem State.setRing_pres (s : State) (r : Option Ring) (h : Tgt) : (s.setRing r).pres h = s.pres h := rfl
@[simp] theorem State.setRing_ctx (s : State) (r : Option Ring) (h : CtxNum) : (s.setRing r).ctx h = s.ctx h := rfl
@[simp] theorem State.setRing_job (s : State) (r : Option Ring) (h : Tgt) : (s.setRing r).job h = s.job h := rfl
@[simp] theorem State.setRing_restoreList (s : State) (r : Option Ring) (h : Tgt) : (s.setRing r).restoreList h = s.restoreList h := rfl
@[simp] theorem State.setRing_now (s : State) (r : Option Ring) : (s.setRing r).now = s.now := rfl

/-! ### setBacklog -/

@[simp] theorem State.setBacklog_pending (s : State) (b : List Event) : (s.setBacklog b).pending = s.pending := rfl
@[simp] theorem State.setBacklog_ticks (s : State) (b : List Event) : (s.setBacklog b).ticks = s.ticks := rfl
@[simp] theorem State.setBacklog_ctl (s : State) (b : List Event) : (s.setBacklog b).ctl = s.ctl := rfl
@[simp] theorem State.setBacklog_sqs (s : State) (b : List Event) : (s.setBacklog b).sqs = s.sqs := rfl
@[simp] theorem State.setBacklog_cqs (s : State) (b : List Event) : (s.setBacklog b).cqs = s.cqs := rfl
@[simp] theorem State.setBacklog_arb (s : State) (b : List Event) : (s.setBacklog b).arb = s.arb := rfl
@[simp] theorem State.setBacklog_lock (s : State) (b : List Event) : (s.setBacklog b).lock = s.lock := rfl
@[simp] theorem State.setBacklog_ctxs (s : State) (b : List Event) : (s.setBacklog b).ctxs = s.ctxs := rfl
@[simp] theorem State.setBacklog_nextChain (s : State) (b : List Event) : (s.setBacklog b).nextChain = s.nextChain := rfl
@[simp] theorem State.setBacklog_adm (s : State) (b : List Event) : (s.setBacklog b).adm = s.adm := rfl
@[simp] theorem State.setBacklog_segs (s : State) (b : List Event) : (s.setBacklog b).segs = s.segs := rfl
@[simp] theorem State.setBacklog_presence (s : State) (b : List Event) : (s.setBacklog b).presence = s.presence := rfl
@[simp] theorem State.setBacklog_watches (s : State) (b : List Event) : (s.setBacklog b).watches = s.watches := rfl
@[simp] theorem State.setBacklog_pool (s : State) (b : List Event) : (s.setBacklog b).pool = s.pool := rfl
@[simp] theorem State.setBacklog_jobs (s : State) (b : List Event) : (s.setBacklog b).jobs = s.jobs := rfl
@[simp] theorem State.setBacklog_irq (s : State) (b : List Event) : (s.setBacklog b).irq = s.irq := rfl
@[simp] theorem State.setBacklog_link (s : State) (b : List Event) : (s.setBacklog b).link = s.link := rfl
@[simp] theorem State.setBacklog_seg (s : State) (b : List Event) (h : SegId) : (s.setBacklog b).seg h = s.seg h := rfl
@[simp] theorem State.setBacklog_sq (s : State) (b : List Event) (h : SqId) : (s.setBacklog b).sq h = s.sq h := rfl
@[simp] theorem State.setBacklog_cq (s : State) (b : List Event) (h : CqId) : (s.setBacklog b).cq h = s.cq h := rfl
@[simp] theorem State.setBacklog_watch (s : State) (b : List Event) (h : WatchId) : (s.setBacklog b).watch h = s.watch h := rfl
@[simp] theorem State.setBacklog_pres (s : State) (b : List Event) (h : Tgt) : (s.setBacklog b).pres h = s.pres h := rfl
@[simp] theorem State.setBacklog_ctx (s : State) (b : List Event) (h : CtxNum) : (s.setBacklog b).ctx h = s.ctx h := rfl
@[simp] theorem State.setBacklog_job (s : State) (b : List Event) (h : Tgt) : (s.setBacklog b).job h = s.job h := rfl
@[simp] theorem State.setBacklog_restoreList (s : State) (b : List Event) (h : Tgt) : (s.setBacklog b).restoreList h = s.restoreList h := rfl
@[simp] theorem State.setBacklog_now (s : State) (b : List Event) : (s.setBacklog b).now = s.now := rfl

/-! ### setLost -/

@[simp] theorem State.setLost_pending (s : State) (n : Nat) : (s.setLost n).pending = s.pending := rfl
@[simp] theorem State.setLost_ticks (s : State) (n : Nat) : (s.setLost n).ticks = s.ticks := rfl
@[simp] theorem State.setLost_ctl (s : State) (n : Nat) : (s.setLost n).ctl = s.ctl := rfl
@[simp] theorem State.setLost_sqs (s : State) (n : Nat) : (s.setLost n).sqs = s.sqs := rfl
@[simp] theorem State.setLost_cqs (s : State) (n : Nat) : (s.setLost n).cqs = s.cqs := rfl
@[simp] theorem State.setLost_arb (s : State) (n : Nat) : (s.setLost n).arb = s.arb := rfl
@[simp] theorem State.setLost_lock (s : State) (n : Nat) : (s.setLost n).lock = s.lock := rfl
@[simp] theorem State.setLost_ctxs (s : State) (n : Nat) : (s.setLost n).ctxs = s.ctxs := rfl
@[simp] theorem State.setLost_nextChain (s : State) (n : Nat) : (s.setLost n).nextChain = s.nextChain := rfl
@[simp] theorem State.setLost_adm (s : State) (n : Nat) : (s.setLost n).adm = s.adm := rfl
@[simp] theorem State.setLost_segs (s : State) (n : Nat) : (s.setLost n).segs = s.segs := rfl
@[simp] theorem State.setLost_presence (s : State) (n : Nat) : (s.setLost n).presence = s.presence := rfl
@[simp] theorem State.setLost_watches (s : State) (n : Nat) : (s.setLost n).watches = s.watches := rfl
@[simp] theorem State.setLost_pool (s : State) (n : Nat) : (s.setLost n).pool = s.pool := rfl
@[simp] theorem State.setLost_jobs (s : State) (n : Nat) : (s.setLost n).jobs = s.jobs := rfl
@[simp] theorem State.setLost_irq (s : State) (n : Nat) : (s.setLost n).irq = s.irq := rfl
@[simp] theorem State.setLost_link (s : State) (n : Nat) : (s.setLost n).link = s.link := rfl
@[simp] theorem State.setLost_seg (s : State) (n : Nat) (h : SegId) : (s.setLost n).seg h = s.seg h := rfl
@[simp] theorem State.setLost_sq (s : State) (n : Nat) (h : SqId) : (s.setLost n).sq h = s.sq h := rfl
@[simp] theorem State.setLost_cq (s : State) (n : Nat) (h : CqId) : (s.setLost n).cq h = s.cq h := rfl
@[simp] theorem State.setLost_watch (s : State) (n : Nat) (h : WatchId) : (s.setLost n).watch h = s.watch h := rfl
@[simp] theorem State.setLost_pres (s : State) (n : Nat) (h : Tgt) : (s.setLost n).pres h = s.pres h := rfl
@[simp] theorem State.setLost_ctx (s : State) (n : Nat) (h : CtxNum) : (s.setLost n).ctx h = s.ctx h := rfl
@[simp] theorem State.setLost_job (s : State) (n : Nat) (h : Tgt) : (s.setLost n).job h = s.job h := rfl
@[simp] theorem State.setLost_restoreList (s : State) (n : Nat) (h : Tgt) : (s.setLost n).restoreList h = s.restoreList h := rfl
@[simp] theorem State.setLost_now (s : State) (n : Nat) : (s.setLost n).now = s.now := rfl

/-! ### mapSegs -/

@[simp] theorem State.mapSegs_pending (s : State) (f : SegCtl → SegCtl) : (s.mapSegs f).pending = s.pending := rfl
@[simp] theorem State.mapSegs_ticks (s : State) (f : SegCtl → SegCtl) : (s.mapSegs f).ticks = s.ticks := rfl
@[simp] theorem State.mapSegs_ctl (s : State) (f : SegCtl → SegCtl) : (s.mapSegs f).ctl = s.ctl := rfl
@[simp] theorem State.mapSegs_sqs (s : State) (f : SegCtl → SegCtl) : (s.mapSegs f).sqs = s.sqs := rfl
@[simp] theorem State.mapSegs_cqs (s : State) (f : SegCtl → SegCtl) : (s.mapSegs f).cqs = s.cqs := rfl
@[simp] theorem State.mapSegs_arb (s : State) (f : SegCtl → SegCtl) : (s.mapSegs f).arb = s.arb := rfl
@[simp] theorem State.mapSegs_lock (s : State) (f : SegCtl → SegCtl) : (s.mapSegs f).lock = s.lock := rfl
@[simp] theorem State.mapSegs_ctxs (s : State) (f : SegCtl → SegCtl) : (s.mapSegs f).ctxs = s.ctxs := rfl
@[simp] theorem State.mapSegs_nextChain (s : State) (f : SegCtl → SegCtl) : (s.mapSegs f).nextChain = s.nextChain := rfl
@[simp] theorem State.mapSegs_adm (s : State) (f : SegCtl → SegCtl) : (s.mapSegs f).adm = s.adm := rfl
@[simp] theorem State.mapSegs_presence (s : State) (f : SegCtl → SegCtl) : (s.mapSegs f).presence = s.presence := rfl
@[simp] theorem State.mapSegs_watches (s : State) (f : SegCtl → SegCtl) : (s.mapSegs f).watches = s.watches := rfl
@[simp] theorem State.mapSegs_pool (s : State) (f : SegCtl → SegCtl) : (s.mapSegs f).pool = s.pool := rfl
@[simp] theorem State.mapSegs_jobs (s : State) (f : SegCtl → SegCtl) : (s.mapSegs f).jobs = s.jobs := rfl
@[simp] theorem State.mapSegs_ev (s : State) (f : SegCtl → SegCtl) : (s.mapSegs f).ev = s.ev := rfl
@[simp] theorem State.mapSegs_irq (s : State) (f : SegCtl → SegCtl) : (s.mapSegs f).irq = s.irq := rfl
@[simp] theorem State.mapSegs_link (s : State) (f : SegCtl → SegCtl) : (s.mapSegs f).link = s.link := rfl
@[simp] theorem State.mapSegs_sq (s : State) (f : SegCtl → SegCtl) (h : SqId) : (s.mapSegs f).sq h = s.sq h := rfl
@[simp] theorem State.mapSegs_cq (s : State) (f : SegCtl → SegCtl) (h : CqId) : (s.mapSegs f).cq h = s.cq h := rfl
@[simp] theorem State.mapSegs_watch (s : State) (f : SegCtl → SegCtl) (h : WatchId) : (s.mapSegs f).watch h = s.watch h := rfl
@[simp] theorem State.mapSegs_pres (s : State) (f : SegCtl → SegCtl) (h : Tgt) : (s.mapSegs f).pres h = s.pres h := rfl
@[simp] theorem State.mapSegs_ctx (s : State) (f : SegCtl → SegCtl) (h : CtxNum) : (s.mapSegs f).ctx h = s.ctx h := rfl
@[simp] theorem State.mapSegs_job (s : State) (f : SegCtl → SegCtl) (h : Tgt) : (s.mapSegs f).job h = s.job h := rfl
@[simp] theorem State.mapSegs_restoreList (s : State) (f : SegCtl → SegCtl) (h : Tgt) : (s.mapSegs f).restoreList h = s.restoreList h := rfl
@[simp] theorem State.mapSegs_now (s : State) (f : SegCtl → SegCtl) : (s.mapSegs f).now = s.now := rfl

/-! ### mapSqs -/

@[simp] theorem State.mapSqs_pending (s : State) (f : Sq → Sq) : (s.mapSqs f).pending = s.pending := rfl
@[simp] theorem State.mapSqs_ticks (s : State) (f : Sq → Sq) : (s.mapSqs f).ticks = s.ticks := rfl
@[simp] theorem State.mapSqs_ctl (s : State) (f : Sq → Sq) : (s.mapSqs f).ctl = s.ctl := rfl
@[simp] theorem State.mapSqs_cqs (s : State) (f : Sq → Sq) : (s.mapSqs f).cqs = s.cqs := rfl
@[simp] theorem State.mapSqs_arb (s : State) (f : Sq → Sq) : (s.mapSqs f).arb = s.arb := rfl
@[simp] theorem State.mapSqs_lock (s : State) (f : Sq → Sq) : (s.mapSqs f).lock = s.lock := rfl
@[simp] theorem State.mapSqs_ctxs (s : State) (f : Sq → Sq) : (s.mapSqs f).ctxs = s.ctxs := rfl
@[simp] theorem State.mapSqs_nextChain (s : State) (f : Sq → Sq) : (s.mapSqs f).nextChain = s.nextChain := rfl
@[simp] theorem State.mapSqs_adm (s : State) (f : Sq → Sq) : (s.mapSqs f).adm = s.adm := rfl
@[simp] theorem State.mapSqs_segs (s : State) (f : Sq → Sq) : (s.mapSqs f).segs = s.segs := rfl
@[simp] theorem State.mapSqs_presence (s : State) (f : Sq → Sq) : (s.mapSqs f).presence = s.presence := rfl
@[simp] theorem State.mapSqs_watches (s : State) (f : Sq → Sq) : (s.mapSqs f).watches = s.watches := rfl
@[simp] theorem State.mapSqs_pool (s : State) (f : Sq → Sq) : (s.mapSqs f).pool = s.pool := rfl
@[simp] theorem State.mapSqs_jobs (s : State) (f : Sq → Sq) : (s.mapSqs f).jobs = s.jobs := rfl
@[simp] theorem State.mapSqs_ev (s : State) (f : Sq → Sq) : (s.mapSqs f).ev = s.ev := rfl
@[simp] theorem State.mapSqs_irq (s : State) (f : Sq → Sq) : (s.mapSqs f).irq = s.irq := rfl
@[simp] theorem State.mapSqs_link (s : State) (f : Sq → Sq) : (s.mapSqs f).link = s.link := rfl
@[simp] theorem State.mapSqs_seg (s : State) (f : Sq → Sq) (h : SegId) : (s.mapSqs f).seg h = s.seg h := rfl
@[simp] theorem State.mapSqs_cq (s : State) (f : Sq → Sq) (h : CqId) : (s.mapSqs f).cq h = s.cq h := rfl
@[simp] theorem State.mapSqs_watch (s : State) (f : Sq → Sq) (h : WatchId) : (s.mapSqs f).watch h = s.watch h := rfl
@[simp] theorem State.mapSqs_pres (s : State) (f : Sq → Sq) (h : Tgt) : (s.mapSqs f).pres h = s.pres h := rfl
@[simp] theorem State.mapSqs_ctx (s : State) (f : Sq → Sq) (h : CtxNum) : (s.mapSqs f).ctx h = s.ctx h := rfl
@[simp] theorem State.mapSqs_job (s : State) (f : Sq → Sq) (h : Tgt) : (s.mapSqs f).job h = s.job h := rfl
@[simp] theorem State.mapSqs_restoreList (s : State) (f : Sq → Sq) (h : Tgt) : (s.mapSqs f).restoreList h = s.restoreList h := rfl
@[simp] theorem State.mapSqs_now (s : State) (f : Sq → Sq) : (s.mapSqs f).now = s.now := rfl

/-! ### mapCqs -/

@[simp] theorem State.mapCqs_pending (s : State) (f : Cq → Cq) : (s.mapCqs f).pending = s.pending := rfl
@[simp] theorem State.mapCqs_ticks (s : State) (f : Cq → Cq) : (s.mapCqs f).ticks = s.ticks := rfl
@[simp] theorem State.mapCqs_ctl (s : State) (f : Cq → Cq) : (s.mapCqs f).ctl = s.ctl := rfl
@[simp] theorem State.mapCqs_sqs (s : State) (f : Cq → Cq) : (s.mapCqs f).sqs = s.sqs := rfl
@[simp] theorem State.mapCqs_arb (s : State) (f : Cq → Cq) : (s.mapCqs f).arb = s.arb := rfl
@[simp] theorem State.mapCqs_lock (s : State) (f : Cq → Cq) : (s.mapCqs f).lock = s.lock := rfl
@[simp] theorem State.mapCqs_ctxs (s : State) (f : Cq → Cq) : (s.mapCqs f).ctxs = s.ctxs := rfl
@[simp] theorem State.mapCqs_nextChain (s : State) (f : Cq → Cq) : (s.mapCqs f).nextChain = s.nextChain := rfl
@[simp] theorem State.mapCqs_adm (s : State) (f : Cq → Cq) : (s.mapCqs f).adm = s.adm := rfl
@[simp] theorem State.mapCqs_segs (s : State) (f : Cq → Cq) : (s.mapCqs f).segs = s.segs := rfl
@[simp] theorem State.mapCqs_presence (s : State) (f : Cq → Cq) : (s.mapCqs f).presence = s.presence := rfl
@[simp] theorem State.mapCqs_watches (s : State) (f : Cq → Cq) : (s.mapCqs f).watches = s.watches := rfl
@[simp] theorem State.mapCqs_pool (s : State) (f : Cq → Cq) : (s.mapCqs f).pool = s.pool := rfl
@[simp] theorem State.mapCqs_jobs (s : State) (f : Cq → Cq) : (s.mapCqs f).jobs = s.jobs := rfl
@[simp] theorem State.mapCqs_ev (s : State) (f : Cq → Cq) : (s.mapCqs f).ev = s.ev := rfl
@[simp] theorem State.mapCqs_irq (s : State) (f : Cq → Cq) : (s.mapCqs f).irq = s.irq := rfl
@[simp] theorem State.mapCqs_link (s : State) (f : Cq → Cq) : (s.mapCqs f).link = s.link := rfl
@[simp] theorem State.mapCqs_seg (s : State) (f : Cq → Cq) (h : SegId) : (s.mapCqs f).seg h = s.seg h := rfl
@[simp] theorem State.mapCqs_sq (s : State) (f : Cq → Cq) (h : SqId) : (s.mapCqs f).sq h = s.sq h := rfl
@[simp] theorem State.mapCqs_watch (s : State) (f : Cq → Cq) (h : WatchId) : (s.mapCqs f).watch h = s.watch h := rfl
@[simp] theorem State.mapCqs_pres (s : State) (f : Cq → Cq) (h : Tgt) : (s.mapCqs f).pres h = s.pres h := rfl
@[simp] theorem State.mapCqs_ctx (s : State) (f : Cq → Cq) (h : CtxNum) : (s.mapCqs f).ctx h = s.ctx h := rfl
@[simp] theorem State.mapCqs_job (s : State) (f : Cq → Cq) (h : Tgt) : (s.mapCqs f).job h = s.job h := rfl
@[simp] theorem State.mapCqs_restoreList (s : State) (f : Cq → Cq) (h : Tgt) : (s.mapCqs f).restoreList h = s.restoreList h := rfl
@[simp] theorem State.mapCqs_now (s : State) (f : Cq → Cq) : (s.mapCqs f).now = s.now := rfl

/-! ### setArb -/

@[simp] theorem State.setArb_pending (s : State) (a : FetchArb) : (s.setArb a).pending = s.pending := rfl
@[simp] theorem State.setArb_ticks (s : State) (a : FetchArb) : (s.setArb a).ticks = s.ticks := rfl
@[simp] theorem State.setArb_ctl (s : State) (a : FetchArb) : (s.setArb a).ctl = s.ctl := rfl
@[simp] theorem State.setArb_sqs (s : State) (a : FetchArb) : (s.setArb a).sqs = s.sqs := rfl
@[simp] theorem State.setArb_cqs (s : State) (a : FetchArb) : (s.setArb a).cqs = s.cqs := rfl
@[simp] theorem State.setArb_lock (s : State) (a : FetchArb) : (s.setArb a).lock = s.lock := rfl
@[simp] theorem State.setArb_ctxs (s : State) (a : FetchArb) : (s.setArb a).ctxs = s.ctxs := rfl
@[simp] theorem State.setArb_nextChain (s : State) (a : FetchArb) : (s.setArb a).nextChain = s.nextChain := rfl
@[simp] theorem State.setArb_adm (s : State) (a : FetchArb) : (s.setArb a).adm = s.adm := rfl
@[simp] theorem State.setArb_segs (s : State) (a : FetchArb) : (s.setArb a).segs = s.segs := rfl
@[simp] theorem State.setArb_presence (s : State) (a : FetchArb) : (s.setArb a).presence = s.presence := rfl
@[simp] theorem State.setArb_watches (s : State) (a : FetchArb) : (s.setArb a).watches = s.watches := rfl
@[simp] theorem State.setArb_pool (s : State) (a : FetchArb) : (s.setArb a).pool = s.pool := rfl
@[simp] theorem State.setArb_jobs (s : State) (a : FetchArb) : (s.setArb a).jobs = s.jobs := rfl
@[simp] theorem State.setArb_ev (s : State) (a : FetchArb) : (s.setArb a).ev = s.ev := rfl
@[simp] theorem State.setArb_irq (s : State) (a : FetchArb) : (s.setArb a).irq = s.irq := rfl
@[simp] theorem State.setArb_link (s : State) (a : FetchArb) : (s.setArb a).link = s.link := rfl
@[simp] theorem State.setArb_seg (s : State) (a : FetchArb) (h : SegId) : (s.setArb a).seg h = s.seg h := rfl
@[simp] theorem State.setArb_sq (s : State) (a : FetchArb) (h : SqId) : (s.setArb a).sq h = s.sq h := rfl
@[simp] theorem State.setArb_cq (s : State) (a : FetchArb) (h : CqId) : (s.setArb a).cq h = s.cq h := rfl
@[simp] theorem State.setArb_watch (s : State) (a : FetchArb) (h : WatchId) : (s.setArb a).watch h = s.watch h := rfl
@[simp] theorem State.setArb_pres (s : State) (a : FetchArb) (h : Tgt) : (s.setArb a).pres h = s.pres h := rfl
@[simp] theorem State.setArb_ctx (s : State) (a : FetchArb) (h : CtxNum) : (s.setArb a).ctx h = s.ctx h := rfl
@[simp] theorem State.setArb_job (s : State) (a : FetchArb) (h : Tgt) : (s.setArb a).job h = s.job h := rfl
@[simp] theorem State.setArb_restoreList (s : State) (a : FetchArb) (h : Tgt) : (s.setArb a).restoreList h = s.restoreList h := rfl
@[simp] theorem State.setArb_now (s : State) (a : FetchArb) : (s.setArb a).now = s.now := rfl

/-! ### setAdm -/

@[simp] theorem State.setAdm_pending (s : State) (a : Admin) : (s.setAdm a).pending = s.pending := rfl
@[simp] theorem State.setAdm_ticks (s : State) (a : Admin) : (s.setAdm a).ticks = s.ticks := rfl
@[simp] theorem State.setAdm_ctl (s : State) (a : Admin) : (s.setAdm a).ctl = s.ctl := rfl
@[simp] theorem State.setAdm_sqs (s : State) (a : Admin) : (s.setAdm a).sqs = s.sqs := rfl
@[simp] theorem State.setAdm_cqs (s : State) (a : Admin) : (s.setAdm a).cqs = s.cqs := rfl
@[simp] theorem State.setAdm_arb (s : State) (a : Admin) : (s.setAdm a).arb = s.arb := rfl
@[simp] theorem State.setAdm_lock (s : State) (a : Admin) : (s.setAdm a).lock = s.lock := rfl
@[simp] theorem State.setAdm_ctxs (s : State) (a : Admin) : (s.setAdm a).ctxs = s.ctxs := rfl
@[simp] theorem State.setAdm_nextChain (s : State) (a : Admin) : (s.setAdm a).nextChain = s.nextChain := rfl
@[simp] theorem State.setAdm_segs (s : State) (a : Admin) : (s.setAdm a).segs = s.segs := rfl
@[simp] theorem State.setAdm_presence (s : State) (a : Admin) : (s.setAdm a).presence = s.presence := rfl
@[simp] theorem State.setAdm_watches (s : State) (a : Admin) : (s.setAdm a).watches = s.watches := rfl
@[simp] theorem State.setAdm_pool (s : State) (a : Admin) : (s.setAdm a).pool = s.pool := rfl
@[simp] theorem State.setAdm_jobs (s : State) (a : Admin) : (s.setAdm a).jobs = s.jobs := rfl
@[simp] theorem State.setAdm_ev (s : State) (a : Admin) : (s.setAdm a).ev = s.ev := rfl
@[simp] theorem State.setAdm_irq (s : State) (a : Admin) : (s.setAdm a).irq = s.irq := rfl
@[simp] theorem State.setAdm_link (s : State) (a : Admin) : (s.setAdm a).link = s.link := rfl
@[simp] theorem State.setAdm_seg (s : State) (a : Admin) (h : SegId) : (s.setAdm a).seg h = s.seg h := rfl
@[simp] theorem State.setAdm_sq (s : State) (a : Admin) (h : SqId) : (s.setAdm a).sq h = s.sq h := rfl
@[simp] theorem State.setAdm_cq (s : State) (a : Admin) (h : CqId) : (s.setAdm a).cq h = s.cq h := rfl
@[simp] theorem State.setAdm_watch (s : State) (a : Admin) (h : WatchId) : (s.setAdm a).watch h = s.watch h := rfl
@[simp] theorem State.setAdm_pres (s : State) (a : Admin) (h : Tgt) : (s.setAdm a).pres h = s.pres h := rfl
@[simp] theorem State.setAdm_ctx (s : State) (a : Admin) (h : CtxNum) : (s.setAdm a).ctx h = s.ctx h := rfl
@[simp] theorem State.setAdm_job (s : State) (a : Admin) (h : Tgt) : (s.setAdm a).job h = s.job h := rfl
@[simp] theorem State.setAdm_restoreList (s : State) (a : Admin) (h : Tgt) : (s.setAdm a).restoreList h = s.restoreList h := rfl
@[simp] theorem State.setAdm_now (s : State) (a : Admin) : (s.setAdm a).now = s.now := rfl

/-! ### setLock -/

@[simp] theorem State.setLock_pending (s : State) (l : Option ChainLock) : (s.setLock l).pending = s.pending := rfl
@[simp] theorem State.setLock_ticks (s : State) (l : Option ChainLock) : (s.setLock l).ticks = s.ticks := rfl
@[simp] theorem State.setLock_ctl (s : State) (l : Option ChainLock) : (s.setLock l).ctl = s.ctl := rfl
@[simp] theorem State.setLock_sqs (s : State) (l : Option ChainLock) : (s.setLock l).sqs = s.sqs := rfl
@[simp] theorem State.setLock_cqs (s : State) (l : Option ChainLock) : (s.setLock l).cqs = s.cqs := rfl
@[simp] theorem State.setLock_arb (s : State) (l : Option ChainLock) : (s.setLock l).arb = s.arb := rfl
@[simp] theorem State.setLock_ctxs (s : State) (l : Option ChainLock) : (s.setLock l).ctxs = s.ctxs := rfl
@[simp] theorem State.setLock_nextChain (s : State) (l : Option ChainLock) : (s.setLock l).nextChain = s.nextChain := rfl
@[simp] theorem State.setLock_adm (s : State) (l : Option ChainLock) : (s.setLock l).adm = s.adm := rfl
@[simp] theorem State.setLock_segs (s : State) (l : Option ChainLock) : (s.setLock l).segs = s.segs := rfl
@[simp] theorem State.setLock_presence (s : State) (l : Option ChainLock) : (s.setLock l).presence = s.presence := rfl
@[simp] theorem State.setLock_watches (s : State) (l : Option ChainLock) : (s.setLock l).watches = s.watches := rfl
@[simp] theorem State.setLock_pool (s : State) (l : Option ChainLock) : (s.setLock l).pool = s.pool := rfl
@[simp] theorem State.setLock_jobs (s : State) (l : Option ChainLock) : (s.setLock l).jobs = s.jobs := rfl
@[simp] theorem State.setLock_ev (s : State) (l : Option ChainLock) : (s.setLock l).ev = s.ev := rfl
@[simp] theorem State.setLock_irq (s : State) (l : Option ChainLock) : (s.setLock l).irq = s.irq := rfl
@[simp] theorem State.setLock_link (s : State) (l : Option ChainLock) : (s.setLock l).link = s.link := rfl
@[simp] theorem State.setLock_seg (s : State) (l : Option ChainLock) (h : SegId) : (s.setLock l).seg h = s.seg h := rfl
@[simp] theorem State.setLock_sq (s : State) (l : Option ChainLock) (h : SqId) : (s.setLock l).sq h = s.sq h := rfl
@[simp] theorem State.setLock_cq (s : State) (l : Option ChainLock) (h : CqId) : (s.setLock l).cq h = s.cq h := rfl
@[simp] theorem State.setLock_watch (s : State) (l : Option ChainLock) (h : WatchId) : (s.setLock l).watch h = s.watch h := rfl
@[simp] theorem State.setLock_pres (s : State) (l : Option ChainLock) (h : Tgt) : (s.setLock l).pres h = s.pres h := rfl
@[simp] theorem State.setLock_ctx (s : State) (l : Option ChainLock) (h : CtxNum) : (s.setLock l).ctx h = s.ctx h := rfl
@[simp] theorem State.setLock_job (s : State) (l : Option ChainLock) (h : Tgt) : (s.setLock l).job h = s.job h := rfl
@[simp] theorem State.setLock_restoreList (s : State) (l : Option ChainLock) (h : Tgt) : (s.setLock l).restoreList h = s.restoreList h := rfl
@[simp] theorem State.setLock_now (s : State) (l : Option ChainLock) : (s.setLock l).now = s.now := rfl

/-! ### setCtxs -/

@[simp] theorem State.setCtxs_pending (s : State) (l : List Ctx) : (s.setCtxs l).pending = s.pending := rfl
@[simp] theorem State.setCtxs_ticks (s : State) (l : List Ctx) : (s.setCtxs l).ticks = s.ticks := rfl
@[simp] theorem State.setCtxs_ctl (s : State) (l : List Ctx) : (s.setCtxs l).ctl = s.ctl := rfl
@[simp] theorem State.setCtxs_sqs (s : State) (l : List Ctx) : (s.setCtxs l).sqs = s.sqs := rfl
@[simp] theorem State.setCtxs_cqs (s : State) (l : List Ctx) : (s.setCtxs l).cqs = s.cqs := rfl
@[simp] theorem State.setCtxs_arb (s : State) (l : List Ctx) : (s.setCtxs l).arb = s.arb := rfl
@[simp] theorem State.setCtxs_lock (s : State) (l : List Ctx) : (s.setCtxs l).lock = s.lock := rfl
@[simp] theorem State.setCtxs_nextChain (s : State) (l : List Ctx) : (s.setCtxs l).nextChain = s.nextChain := rfl
@[simp] theorem State.setCtxs_adm (s : State) (l : List Ctx) : (s.setCtxs l).adm = s.adm := rfl
@[simp] theorem State.setCtxs_segs (s : State) (l : List Ctx) : (s.setCtxs l).segs = s.segs := rfl
@[simp] theorem State.setCtxs_presence (s : State) (l : List Ctx) : (s.setCtxs l).presence = s.presence := rfl
@[simp] theorem State.setCtxs_watches (s : State) (l : List Ctx) : (s.setCtxs l).watches = s.watches := rfl
@[simp] theorem State.setCtxs_pool (s : State) (l : List Ctx) : (s.setCtxs l).pool = s.pool := rfl
@[simp] theorem State.setCtxs_jobs (s : State) (l : List Ctx) : (s.setCtxs l).jobs = s.jobs := rfl
@[simp] theorem State.setCtxs_ev (s : State) (l : List Ctx) : (s.setCtxs l).ev = s.ev := rfl
@[simp] theorem State.setCtxs_irq (s : State) (l : List Ctx) : (s.setCtxs l).irq = s.irq := rfl
@[simp] theorem State.setCtxs_link (s : State) (l : List Ctx) : (s.setCtxs l).link = s.link := rfl
@[simp] theorem State.setCtxs_seg (s : State) (l : List Ctx) (h : SegId) : (s.setCtxs l).seg h = s.seg h := rfl
@[simp] theorem State.setCtxs_sq (s : State) (l : List Ctx) (h : SqId) : (s.setCtxs l).sq h = s.sq h := rfl
@[simp] theorem State.setCtxs_cq (s : State) (l : List Ctx) (h : CqId) : (s.setCtxs l).cq h = s.cq h := rfl
@[simp] theorem State.setCtxs_watch (s : State) (l : List Ctx) (h : WatchId) : (s.setCtxs l).watch h = s.watch h := rfl
@[simp] theorem State.setCtxs_pres (s : State) (l : List Ctx) (h : Tgt) : (s.setCtxs l).pres h = s.pres h := rfl
@[simp] theorem State.setCtxs_job (s : State) (l : List Ctx) (h : Tgt) : (s.setCtxs l).job h = s.job h := rfl
@[simp] theorem State.setCtxs_restoreList (s : State) (l : List Ctx) (h : Tgt) : (s.setCtxs l).restoreList h = s.restoreList h := rfl
@[simp] theorem State.setCtxs_now (s : State) (l : List Ctx) : (s.setCtxs l).now = s.now := rfl

/-! ### discardHeld -/

@[simp] theorem State.discardHeld_pending (s : State) : s.discardHeld.pending = s.pending := rfl
@[simp] theorem State.discardHeld_ticks (s : State) : s.discardHeld.ticks = s.ticks := rfl
@[simp] theorem State.discardHeld_ctl (s : State) : s.discardHeld.ctl = s.ctl := rfl
@[simp] theorem State.discardHeld_sqs (s : State) : s.discardHeld.sqs = s.sqs := rfl
@[simp] theorem State.discardHeld_cqs (s : State) : s.discardHeld.cqs = s.cqs := rfl
@[simp] theorem State.discardHeld_arb (s : State) : s.discardHeld.arb = s.arb := rfl
@[simp] theorem State.discardHeld_lock (s : State) : s.discardHeld.lock = s.lock := rfl
@[simp] theorem State.discardHeld_ctxs (s : State) : s.discardHeld.ctxs = s.ctxs := rfl
@[simp] theorem State.discardHeld_nextChain (s : State) : s.discardHeld.nextChain = s.nextChain := rfl
@[simp] theorem State.discardHeld_adm (s : State) : s.discardHeld.adm = s.adm := rfl
@[simp] theorem State.discardHeld_segs (s : State) : s.discardHeld.segs = s.segs := rfl
@[simp] theorem State.discardHeld_presence (s : State) : s.discardHeld.presence = s.presence := rfl
@[simp] theorem State.discardHeld_pool (s : State) : s.discardHeld.pool = s.pool := rfl
@[simp] theorem State.discardHeld_jobs (s : State) : s.discardHeld.jobs = s.jobs := rfl
@[simp] theorem State.discardHeld_ev (s : State) : s.discardHeld.ev = s.ev := rfl
@[simp] theorem State.discardHeld_irq (s : State) : s.discardHeld.irq = s.irq := rfl
@[simp] theorem State.discardHeld_link (s : State) : s.discardHeld.link = s.link := rfl
@[simp] theorem State.discardHeld_seg (s : State) (h : SegId) : s.discardHeld.seg h = s.seg h := rfl
@[simp] theorem State.discardHeld_sq (s : State) (h : SqId) : s.discardHeld.sq h = s.sq h := rfl
@[simp] theorem State.discardHeld_cq (s : State) (h : CqId) : s.discardHeld.cq h = s.cq h := rfl
@[simp] theorem State.discardHeld_pres (s : State) (h : Tgt) : s.discardHeld.pres h = s.pres h := rfl
@[simp] theorem State.discardHeld_ctx (s : State) (h : CtxNum) : s.discardHeld.ctx h = s.ctx h := rfl
@[simp] theorem State.discardHeld_job (s : State) (h : Tgt) : s.discardHeld.job h = s.job h := rfl
@[simp] theorem State.discardHeld_restoreList (s : State) (h : Tgt) : s.discardHeld.restoreList h = s.restoreList h := rfl
@[simp] theorem State.discardHeld_now (s : State)  : s.discardHeld.now = s.now := rfl

/-! ### record -/

@[simp] theorem State.record_pending (s : State) (t : Tgt) (i : Byte) (v : Half) : (s.record t i v).pending = s.pending := rfl
@[simp] theorem State.record_ticks (s : State) (t : Tgt) (i : Byte) (v : Half) : (s.record t i v).ticks = s.ticks := rfl
@[simp] theorem State.record_ctl (s : State) (t : Tgt) (i : Byte) (v : Half) : (s.record t i v).ctl = s.ctl := rfl
@[simp] theorem State.record_sqs (s : State) (t : Tgt) (i : Byte) (v : Half) : (s.record t i v).sqs = s.sqs := rfl
@[simp] theorem State.record_cqs (s : State) (t : Tgt) (i : Byte) (v : Half) : (s.record t i v).cqs = s.cqs := rfl
@[simp] theorem State.record_arb (s : State) (t : Tgt) (i : Byte) (v : Half) : (s.record t i v).arb = s.arb := rfl
@[simp] theorem State.record_lock (s : State) (t : Tgt) (i : Byte) (v : Half) : (s.record t i v).lock = s.lock := rfl
@[simp] theorem State.record_ctxs (s : State) (t : Tgt) (i : Byte) (v : Half) : (s.record t i v).ctxs = s.ctxs := rfl
@[simp] theorem State.record_nextChain (s : State) (t : Tgt) (i : Byte) (v : Half) : (s.record t i v).nextChain = s.nextChain := rfl
@[simp] theorem State.record_adm (s : State) (t : Tgt) (i : Byte) (v : Half) : (s.record t i v).adm = s.adm := rfl
@[simp] theorem State.record_segs (s : State) (t : Tgt) (i : Byte) (v : Half) : (s.record t i v).segs = s.segs := rfl
@[simp] theorem State.record_presence (s : State) (t : Tgt) (i : Byte) (v : Half) : (s.record t i v).presence = s.presence := rfl
@[simp] theorem State.record_watches (s : State) (t : Tgt) (i : Byte) (v : Half) : (s.record t i v).watches = s.watches := rfl
@[simp] theorem State.record_jobs (s : State) (t : Tgt) (i : Byte) (v : Half) : (s.record t i v).jobs = s.jobs := rfl
@[simp] theorem State.record_ev (s : State) (t : Tgt) (i : Byte) (v : Half) : (s.record t i v).ev = s.ev := rfl
@[simp] theorem State.record_irq (s : State) (t : Tgt) (i : Byte) (v : Half) : (s.record t i v).irq = s.irq := rfl
@[simp] theorem State.record_link (s : State) (t : Tgt) (i : Byte) (v : Half) : (s.record t i v).link = s.link := rfl
@[simp] theorem State.record_seg (s : State) (t : Tgt) (i : Byte) (v : Half) (h : SegId) : (s.record t i v).seg h = s.seg h := rfl
@[simp] theorem State.record_sq (s : State) (t : Tgt) (i : Byte) (v : Half) (h : SqId) : (s.record t i v).sq h = s.sq h := rfl
@[simp] theorem State.record_cq (s : State) (t : Tgt) (i : Byte) (v : Half) (h : CqId) : (s.record t i v).cq h = s.cq h := rfl
@[simp] theorem State.record_watch (s : State) (t : Tgt) (i : Byte) (v : Half) (h : WatchId) : (s.record t i v).watch h = s.watch h := rfl
@[simp] theorem State.record_pres (s : State) (t : Tgt) (i : Byte) (v : Half) (h : Tgt) : (s.record t i v).pres h = s.pres h := rfl
@[simp] theorem State.record_ctx (s : State) (t : Tgt) (i : Byte) (v : Half) (h : CtxNum) : (s.record t i v).ctx h = s.ctx h := rfl
@[simp] theorem State.record_job (s : State) (t : Tgt) (i : Byte) (v : Half) (h : Tgt) : (s.record t i v).job h = s.job h := rfl
@[simp] theorem State.record_now (s : State) (t : Tgt) (i : Byte) (v : Half) : (s.record t i v).now = s.now := rfl

/-! ### updJob -/

@[simp] theorem State.updJob_pending (s : State) (t : Tgt) (f : Job → Job) : (s.updJob t f).pending = s.pending := rfl
@[simp] theorem State.updJob_ticks (s : State) (t : Tgt) (f : Job → Job) : (s.updJob t f).ticks = s.ticks := rfl
@[simp] theorem State.updJob_ctl (s : State) (t : Tgt) (f : Job → Job) : (s.updJob t f).ctl = s.ctl := rfl
@[simp] theorem State.updJob_sqs (s : State) (t : Tgt) (f : Job → Job) : (s.updJob t f).sqs = s.sqs := rfl
@[simp] theorem State.updJob_cqs (s : State) (t : Tgt) (f : Job → Job) : (s.updJob t f).cqs = s.cqs := rfl
@[simp] theorem State.updJob_arb (s : State) (t : Tgt) (f : Job → Job) : (s.updJob t f).arb = s.arb := rfl
@[simp] theorem State.updJob_lock (s : State) (t : Tgt) (f : Job → Job) : (s.updJob t f).lock = s.lock := rfl
@[simp] theorem State.updJob_ctxs (s : State) (t : Tgt) (f : Job → Job) : (s.updJob t f).ctxs = s.ctxs := rfl
@[simp] theorem State.updJob_nextChain (s : State) (t : Tgt) (f : Job → Job) : (s.updJob t f).nextChain = s.nextChain := rfl
@[simp] theorem State.updJob_adm (s : State) (t : Tgt) (f : Job → Job) : (s.updJob t f).adm = s.adm := rfl
@[simp] theorem State.updJob_segs (s : State) (t : Tgt) (f : Job → Job) : (s.updJob t f).segs = s.segs := rfl
@[simp] theorem State.updJob_presence (s : State) (t : Tgt) (f : Job → Job) : (s.updJob t f).presence = s.presence := rfl
@[simp] theorem State.updJob_watches (s : State) (t : Tgt) (f : Job → Job) : (s.updJob t f).watches = s.watches := rfl
@[simp] theorem State.updJob_pool (s : State) (t : Tgt) (f : Job → Job) : (s.updJob t f).pool = s.pool := rfl
@[simp] theorem State.updJob_ev (s : State) (t : Tgt) (f : Job → Job) : (s.updJob t f).ev = s.ev := rfl
@[simp] theorem State.updJob_irq (s : State) (t : Tgt) (f : Job → Job) : (s.updJob t f).irq = s.irq := rfl
@[simp] theorem State.updJob_link (s : State) (t : Tgt) (f : Job → Job) : (s.updJob t f).link = s.link := rfl
@[simp] theorem State.updJob_seg (s : State) (t : Tgt) (f : Job → Job) (h : SegId) : (s.updJob t f).seg h = s.seg h := rfl
@[simp] theorem State.updJob_sq (s : State) (t : Tgt) (f : Job → Job) (h : SqId) : (s.updJob t f).sq h = s.sq h := rfl
@[simp] theorem State.updJob_cq (s : State) (t : Tgt) (f : Job → Job) (h : CqId) : (s.updJob t f).cq h = s.cq h := rfl
@[simp] theorem State.updJob_watch (s : State) (t : Tgt) (f : Job → Job) (h : WatchId) : (s.updJob t f).watch h = s.watch h := rfl
@[simp] theorem State.updJob_pres (s : State) (t : Tgt) (f : Job → Job) (h : Tgt) : (s.updJob t f).pres h = s.pres h := rfl
@[simp] theorem State.updJob_ctx (s : State) (t : Tgt) (f : Job → Job) (h : CtxNum) : (s.updJob t f).ctx h = s.ctx h := rfl
@[simp] theorem State.updJob_restoreList (s : State) (t : Tgt) (f : Job → Job) (h : Tgt) : (s.updJob t f).restoreList h = s.restoreList h := rfl
@[simp] theorem State.updJob_now (s : State) (t : Tgt) (f : Job → Job) : (s.updJob t f).now = s.now := rfl

/-! ### Reading back -/

/-- A table entry after one entry was replaced. -/
theorem get_set {α : Type} {n : Nat} (v : Vector α n) (i j : Fin n) (x : α) :
    (v.set i.val x i.isLt).get j = if i = j then x else v.get j := by
  simp [Vector.get_eq_getElem, Vector.getElem_set, Fin.ext_iff]

/-- A table entry after a function was applied to every entry. -/
@[simp] theorem get_tableMap {α β : Type} {n : Nat} (f : α → β) (v : Vector α n) (i : Fin n) :
    (tableMap f v).get i = f (v.get i) := by
  simp [tableMap, Vector.get, Vector.toList]; rfl

theorem State.seg_setSeg (s : State) (g h : SegId) (x : SegCtl) :
    (s.setSeg g x).seg h = if g = h then x else s.seg h := get_set _ _ _ _
@[simp] theorem State.seg_setSeg_same (s : State) (g : SegId) (x : SegCtl) : (s.setSeg g x).seg g = x := by
  simp [State.seg_setSeg]
theorem State.seg_updSeg (s : State) (g h : SegId) (f : SegCtl → SegCtl) :
    (s.updSeg g f).seg h = if g = h then f (s.seg h) else s.seg h := by
  unfold State.updSeg; rw [State.seg_setSeg]; split <;> simp_all
@[simp] theorem State.seg_updSeg_same (s : State) (g : SegId) (f : SegCtl → SegCtl) :
    (s.updSeg g f).seg g = f (s.seg g) := by simp [State.seg_updSeg]

theorem State.sq_setSq (s : State) (q h : SqId) (x : Sq) : (s.setSq q x).sq h = if q = h then x else s.sq h :=
  get_set _ _ _ _
@[simp] theorem State.sq_setSq_same (s : State) (q : SqId) (x : Sq) : (s.setSq q x).sq q = x := by
  simp [State.sq_setSq]
theorem State.sq_updSq (s : State) (q h : SqId) (f : Sq → Sq) :
    (s.updSq q f).sq h = if q = h then f (s.sq h) else s.sq h := by
  unfold State.updSq; rw [State.sq_setSq]; split <;> simp_all
@[simp] theorem State.sq_updSq_same (s : State) (q : SqId) (f : Sq → Sq) : (s.updSq q f).sq q = f (s.sq q) := by
  simp [State.sq_updSq]

theorem State.cq_setCq (s : State) (c h : CqId) (x : Cq) : (s.setCq c x).cq h = if c = h then x else s.cq h :=
  get_set _ _ _ _
@[simp] theorem State.cq_setCq_same (s : State) (c : CqId) (x : Cq) : (s.setCq c x).cq c = x := by
  simp [State.cq_setCq]
theorem State.cq_updCq (s : State) (c h : CqId) (f : Cq → Cq) :
    (s.updCq c f).cq h = if c = h then f (s.cq h) else s.cq h := by
  unfold State.updCq; rw [State.cq_setCq]; split <;> simp_all
@[simp] theorem State.cq_updCq_same (s : State) (c : CqId) (f : Cq → Cq) : (s.updCq c f).cq c = f (s.cq c) := by
  simp [State.cq_updCq]

theorem State.watch_setWatch (s : State) (w h : WatchId) (x : Option Watch) :
    (s.setWatch w x).watch h = if w = h then x else s.watch h := get_set _ _ _ _
@[simp] theorem State.watch_setWatch_same (s : State) (w : WatchId) (x : Option Watch) :
    (s.setWatch w x).watch w = x := by simp [State.watch_setWatch]
theorem State.watch_updWatch (s : State) (w h : WatchId) (f : Watch → Watch) :
    (s.updWatch w f).watch h = if w = h then (s.watch h).map f else s.watch h := by
  unfold State.updWatch; rw [State.watch_setWatch]; split <;> simp_all
@[simp] theorem State.watch_updWatch_same (s : State) (w : WatchId) (f : Watch → Watch) :
    (s.updWatch w f).watch w = (s.watch w).map f := by simp [State.watch_updWatch]
@[simp] theorem State.watch_mapWatches (s : State) (f : Watch → Watch) (w : WatchId) :
    (s.mapWatches f).watch w = (s.watch w).map f := by simp [State.watch, State.mapWatches]

theorem State.pres_setPres (s : State) (t u : Tgt) (e : PresEntry) :
    (s.setPres t e).pres u = if t = u then e else s.pres u := by
  obtain ⟨g, a⟩ := t
  obtain ⟨h, b⟩ := u
  simp only [State.pres, State.setPres, get_set, Tgt.mk.injEq]
  by_cases hg : g = h
  · subst hg
    simp [get_set]
  · simp [hg]
@[simp] theorem State.pres_setPres_same (s : State) (t : Tgt) (e : PresEntry) : (s.setPres t e).pres t = e := by
  simp [State.pres_setPres]

@[simp] theorem State.seg_mapSegs (s : State) (f : SegCtl → SegCtl) (g : SegId) :
    (s.mapSegs f).seg g = f (s.seg g) := by simp [State.seg, State.mapSegs]
@[simp] theorem State.sq_mapSqs (s : State) (f : Sq → Sq) (q : SqId) : (s.mapSqs f).sq q = f (s.sq q) := by
  simp [State.sq, State.mapSqs]
@[simp] theorem State.cq_mapCqs (s : State) (f : Cq → Cq) (c : CqId) : (s.mapCqs f).cq c = f (s.cq c) := by
  simp [State.cq, State.mapCqs]
@[simp] theorem State.setArb_arb (s : State) (a : FetchArb) : (s.setArb a).arb = a := rfl
@[simp] theorem State.setAdm_adm (s : State) (a : Admin) : (s.setAdm a).adm = a := rfl
@[simp] theorem State.setLock_lock (s : State) (l : Option ChainLock) : (s.setLock l).lock = l := rfl
@[simp] theorem State.setCtxs_ctxs (s : State) (l : List Ctx) : (s.setCtxs l).ctxs = l := rfl
@[simp] theorem State.issue_next (s : State) (a : Access) (p : Addr) (b : List Byte) :
    (s.issue a p b).link.next = s.link.next + 1 := rfl
@[simp] theorem State.retire_next (s : State) (t : Nat) : (s.retire t).link.next = s.link.next := rfl
@[simp] theorem State.handVector_irq (s : State) (v : VecId) : (s.handVector v).irq = s.irq.handOff v := rfl
@[simp] theorem State.setRing_ring (s : State) (r : Option Ring) : (s.setRing r).ev.ring = r := rfl
@[simp] theorem State.setRing_backlog (s : State) (r : Option Ring) : (s.setRing r).ev.backlog = s.ev.backlog := rfl
@[simp] theorem State.setRing_lost (s : State) (r : Option Ring) : (s.setRing r).ev.lost = s.ev.lost := rfl
@[simp] theorem State.setBacklog_ring (s : State) (b : List Event) : (s.setBacklog b).ev.ring = s.ev.ring := rfl
@[simp] theorem State.setBacklog_backlog (s : State) (b : List Event) : (s.setBacklog b).ev.backlog = b := rfl
@[simp] theorem State.setBacklog_lost (s : State) (b : List Event) : (s.setBacklog b).ev.lost = s.ev.lost := rfl
@[simp] theorem State.setLost_ring (s : State) (n : Nat) : (s.setLost n).ev.ring = s.ev.ring := rfl
@[simp] theorem State.setLost_backlog (s : State) (n : Nat) : (s.setLost n).ev.backlog = s.ev.backlog := rfl
@[simp] theorem State.setLost_lost (s : State) (n : Nat) : (s.setLost n).ev.lost = n := rfl

end Sys2Proof.Machine
end

