-- ==== Sys2Proof/Laws/Events.lean ====
section
/-! SUPPORT. What each operation leaves alone, once for each: the Event Unit, the Restore Unit, watches and the Presence Table. A view of the state that is blind to the
fields an operation may change sees no change; the frame lemma lists the fields and tables that follow. -/

namespace Sys2Proof.Machine

/-- A fold of steps that keep a view keeps it. -/
theorem foldl_same {α β γ : Type} (v : α → γ) (f : α → β → α) (h : ∀ a b, v (f a b) = v a) (l : List β) (a : α) :
    v (l.foldl f a) = v a := by
  induction l generalizing a with
  | nil => rfl
  | cons b l ih => simp [ih, h]

/-! ### Views blind to one field -/

/-- The view does not see the field `pending`. -/
abbrev BlindPending {γ : Type} (view : State → γ) : Prop :=
  ∀ (s : State) (x : List Instr), view { s with pending := x } = view s

/-- The view does not see the field `ticks`. -/
abbrev BlindTicks {γ : Type} (view : State → γ) : Prop :=
  ∀ (s : State) (x : Nat), view { s with ticks := x } = view s

/-- The view does not see the field `ctl`. -/
abbrev BlindCtl {γ : Type} (view : State → γ) : Prop :=
  ∀ (s : State) (x : Control), view { s with ctl := x } = view s

/-- The view does not see the field `sqs`. -/
abbrev BlindSqs {γ : Type} (view : State → γ) : Prop :=
  ∀ (s : State) (x : Vector Sq 16), view { s with sqs := x } = view s

/-- The view does not see the field `cqs`. -/
abbrev BlindCqs {γ : Type} (view : State → γ) : Prop :=
  ∀ (s : State) (x : Vector Cq 8), view { s with cqs := x } = view s

/-- The view does not see the field `arb`. -/
abbrev BlindArb {γ : Type} (view : State → γ) : Prop :=
  ∀ (s : State) (x : FetchArb), view { s with arb := x } = view s

/-- The view does not see the field `lock`. -/
abbrev BlindLock {γ : Type} (view : State → γ) : Prop :=
  ∀ (s : State) (x : Option ChainLock), view { s with lock := x } = view s

/-- The view does not see the field `ctxs`. -/
abbrev BlindCtxs {γ : Type} (view : State → γ) : Prop :=
  ∀ (s : State) (x : List Ctx), view { s with ctxs := x } = view s

/-- The view does not see the field `nextChain`. -/
abbrev BlindNextChain {γ : Type} (view : State → γ) : Prop :=
  ∀ (s : State) (x : Nat), view { s with nextChain := x } = view s

/-- The view does not see the field `adm`. -/
abbrev BlindAdm {γ : Type} (view : State → γ) : Prop :=
  ∀ (s : State) (x : Admin), view { s with adm := x } = view s

/-- The view does not see the field `segs`. -/
abbrev BlindSegs {γ : Type} (view : State → γ) : Prop :=
  ∀ (s : State) (x : Vector SegCtl 4), view { s with segs := x } = view s

/-- The view does not see the field `presence`. -/
abbrev BlindPresence {γ : Type} (view : State → γ) : Prop :=
  ∀ (s : State) (x : Vector (Vector PresEntry 62) 4), view { s with presence := x } = view s

/-- The view does not see the field `watches`. -/
abbrev BlindWatches {γ : Type} (view : State → γ) : Prop :=
  ∀ (s : State) (x : Vector (Option Watch) 128), view { s with watches := x } = view s

/-- The view does not see the field `pool`. -/
abbrev BlindPool {γ : Type} (view : State → γ) : Prop :=
  ∀ (s : State) (x : List PoolEntry), view { s with pool := x } = view s

/-- The view does not see the field `jobs`. -/
abbrev BlindJobs {γ : Type} (view : State → γ) : Prop :=
  ∀ (s : State) (x : List Job), view { s with jobs := x } = view s

/-- The view does not see the field `ev`. -/
abbrev BlindEv {γ : Type} (view : State → γ) : Prop :=
  ∀ (s : State) (x : EventUnit), view { s with ev := x } = view s

/-- The view does not see the field `irq`. -/
abbrev BlindIrq {γ : Type} (view : State → γ) : Prop :=
  ∀ (s : State) (x : IntUnit), view { s with irq := x } = view s

/-- The view does not see the field `link`. -/
abbrev BlindLink {γ : Type} (view : State → γ) : Prop :=
  ∀ (s : State) (x : Link), view { s with link := x } = view s

/-! ### The updates -/

theorem State.setSeg_view {γ : Type} (view : State → γ) (hsegs : BlindSegs view)
    (s : State) (g : SegId) (x : SegCtl) : view (s.setSeg g x) = view s := hsegs _ _
theorem State.updSeg_view {γ : Type} (view : State → γ) (hsegs : BlindSegs view)
    (s : State) (g : SegId) (f : SegCtl → SegCtl) : view (s.updSeg g f) = view s := hsegs _ _
theorem State.setSq_view {γ : Type} (view : State → γ) (hsqs : BlindSqs view)
    (s : State) (q : SqId) (x : Sq) : view (s.setSq q x) = view s := hsqs _ _
theorem State.updSq_view {γ : Type} (view : State → γ) (hsqs : BlindSqs view)
    (s : State) (q : SqId) (f : Sq → Sq) : view (s.updSq q f) = view s := hsqs _ _
theorem State.setCq_view {γ : Type} (view : State → γ) (hcqs : BlindCqs view)
    (s : State) (c : CqId) (x : Cq) : view (s.setCq c x) = view s := hcqs _ _
theorem State.updCq_view {γ : Type} (view : State → γ) (hcqs : BlindCqs view)
    (s : State) (c : CqId) (f : Cq → Cq) : view (s.updCq c f) = view s := hcqs _ _
theorem State.setWatch_view {γ : Type} (view : State → γ) (hwatches : BlindWatches view)
    (s : State) (w : WatchId) (x : Option Watch) : view (s.setWatch w x) = view s := hwatches _ _
theorem State.updWatch_view {γ : Type} (view : State → γ) (hwatches : BlindWatches view)
    (s : State) (w : WatchId) (f : Watch → Watch) : view (s.updWatch w f) = view s := hwatches _ _
theorem State.mapWatches_view {γ : Type} (view : State → γ) (hwatches : BlindWatches view)
    (s : State) (f : Watch → Watch) : view (s.mapWatches f) = view s := hwatches _ _
theorem State.setPres_view {γ : Type} (view : State → γ) (hpresence : BlindPresence view)
    (s : State) (t : Tgt) (e : PresEntry) : view (s.setPres t e) = view s := hpresence _ _
theorem State.updCtx_view {γ : Type} (view : State → γ) (hctxs : BlindCtxs view)
    (s : State) (n : CtxNum) (f : Ctx → Ctx) : view (s.updCtx n f) = view s := hctxs _ _
theorem State.freeCtx_view {γ : Type} (view : State → γ) (hctxs : BlindCtxs view)
    (s : State) (n : CtxNum) : view (s.freeCtx n) = view s := hctxs _ _
theorem State.issue_view {γ : Type} (view : State → γ) (hlink : BlindLink view)
    (s : State) (a : Access) (p : Addr) (b : List Byte) : view (s.issue a p b) = view s := hlink _ _
theorem State.retire_view {γ : Type} (view : State → γ) (hlink : BlindLink view)
    (s : State) (t : Nat) : view (s.retire t) = view s := hlink _ _
theorem State.handVector_view {γ : Type} (view : State → γ) (hirq : BlindIrq view)
    (s : State) (v : VecId) : view (s.handVector v) = view s := hirq _ _
theorem State.setRing_view {γ : Type} (view : State → γ) (hev : BlindEv view)
    (s : State) (r : Option Ring) : view (s.setRing r) = view s := hev _ _
theorem State.setBacklog_view {γ : Type} (view : State → γ) (hev : BlindEv view)
    (s : State) (b : List Event) : view (s.setBacklog b) = view s := hev _ _
theorem State.setLost_view {γ : Type} (view : State → γ) (hev : BlindEv view)
    (s : State) (n : Nat) : view (s.setLost n) = view s := hev _ _
theorem State.mapSegs_view {γ : Type} (view : State → γ) (hsegs : BlindSegs view)
    (s : State) (f : SegCtl → SegCtl) : view (s.mapSegs f) = view s := hsegs _ _
theorem State.mapSqs_view {γ : Type} (view : State → γ) (hsqs : BlindSqs view)
    (s : State) (f : Sq → Sq) : view (s.mapSqs f) = view s := hsqs _ _
theorem State.mapCqs_view {γ : Type} (view : State → γ) (hcqs : BlindCqs view)
    (s : State) (f : Cq → Cq) : view (s.mapCqs f) = view s := hcqs _ _
theorem State.setArb_view {γ : Type} (view : State → γ) (harb : BlindArb view)
    (s : State) (a : FetchArb) : view (s.setArb a) = view s := harb _ _
theorem State.setAdm_view {γ : Type} (view : State → γ) (hadm : BlindAdm view)
    (s : State) (a : Admin) : view (s.setAdm a) = view s := hadm _ _
theorem State.setLock_view {γ : Type} (view : State → γ) (hlock : BlindLock view)
    (s : State) (l : Option ChainLock) : view (s.setLock l) = view s := hlock _ _
theorem State.setCtxs_view {γ : Type} (view : State → γ) (hctxs : BlindCtxs view)
    (s : State) (l : List Ctx) : view (s.setCtxs l) = view s := hctxs _ _
theorem State.discardHeld_view {γ : Type} (view : State → γ) (hwatches : BlindWatches view)
    (s : State)  : view s.discardHeld = view s := hwatches _ _
theorem State.record_view {γ : Type} (view : State → γ) (hpool : BlindPool view)
    (s : State) (t : Tgt) (i : Byte) (v : Half) : view (s.record t i v) = view s := hpool _ _
theorem State.updJob_view {γ : Type} (view : State → γ) (hjobs : BlindJobs view)
    (s : State) (t : Tgt) (f : Job → Job) : view (s.updJob t f) = view s := hjobs _ _


theorem State.handEvent_view {γ : Type} (view : State → γ) (hev : BlindEv view)
    (s : State) (e : Event) : view (s.handEvent e) = view s := by
  unfold State.handEvent
  try dsimp only
  (repeat' split) <;> first | simp only [State.setRing_view view hev, State.setBacklog_view view hev, State.setLost_view view hev, hev] | rfl
@[simp] theorem State.handEvent_frame (s : State) (e : Event) :
    (s.handEvent e).pending = s.pending ∧ (s.handEvent e).ticks = s.ticks ∧ (s.handEvent e).ctl = s.ctl ∧
    (s.handEvent e).sqs = s.sqs ∧ (s.handEvent e).cqs = s.cqs ∧ (s.handEvent e).arb = s.arb ∧
    (s.handEvent e).lock = s.lock ∧ (s.handEvent e).ctxs = s.ctxs ∧ (s.handEvent e).nextChain = s.nextChain ∧
    (s.handEvent e).adm = s.adm ∧ (s.handEvent e).segs = s.segs ∧ (s.handEvent e).presence = s.presence ∧
    (s.handEvent e).watches = s.watches ∧ (s.handEvent e).pool = s.pool ∧ (s.handEvent e).jobs = s.jobs ∧
    (s.handEvent e).irq = s.irq ∧ (s.handEvent e).link = s.link ∧ (∀ h, (s.handEvent e).seg h = s.seg h) ∧
    (∀ h, (s.handEvent e).sq h = s.sq h) ∧ (∀ h, (s.handEvent e).cq h = s.cq h) ∧
    (∀ h, (s.handEvent e).watch h = s.watch h) ∧ (∀ h, (s.handEvent e).pres h = s.pres h) ∧
    (∀ h, (s.handEvent e).ctx h = s.ctx h) ∧ (∀ h, (s.handEvent e).job h = s.job h) ∧
    (∀ h, (s.handEvent e).restoreList h = s.restoreList h) :=
  ⟨State.handEvent_view State.pending (fun _ _ => rfl) s e,
   State.handEvent_view State.ticks (fun _ _ => rfl) s e,
   State.handEvent_view State.ctl (fun _ _ => rfl) s e,
   State.handEvent_view State.sqs (fun _ _ => rfl) s e,
   State.handEvent_view State.cqs (fun _ _ => rfl) s e,
   State.handEvent_view State.arb (fun _ _ => rfl) s e,
   State.handEvent_view State.lock (fun _ _ => rfl) s e,
   State.handEvent_view State.ctxs (fun _ _ => rfl) s e,
   State.handEvent_view State.nextChain (fun _ _ => rfl) s e,
   State.handEvent_view State.adm (fun _ _ => rfl) s e,
   State.handEvent_view State.segs (fun _ _ => rfl) s e,
   State.handEvent_view State.presence (fun _ _ => rfl) s e,
   State.handEvent_view State.watches (fun _ _ => rfl) s e,
   State.handEvent_view State.pool (fun _ _ => rfl) s e,
   State.handEvent_view State.jobs (fun _ _ => rfl) s e,
   State.handEvent_view State.irq (fun _ _ => rfl) s e,
   State.handEvent_view State.link (fun _ _ => rfl) s e,
   fun h => State.handEvent_view (fun s => s.seg h) (fun _ _ => rfl) s e,
   fun h => State.handEvent_view (fun s => s.sq h) (fun _ _ => rfl) s e,
   fun h => State.handEvent_view (fun s => s.cq h) (fun _ _ => rfl) s e,
   fun h => State.handEvent_view (fun s => s.watch h) (fun _ _ => rfl) s e,
   fun h => State.handEvent_view (fun s => s.pres h) (fun _ _ => rfl) s e,
   fun h => State.handEvent_view (fun s => s.ctx h) (fun _ _ => rfl) s e,
   fun h => State.handEvent_view (fun s => s.job h) (fun _ _ => rfl) s e,
   fun h => State.handEvent_view (fun s => s.restoreList h) (fun _ _ => rfl) s e⟩

theorem State.handReport_view {γ : Type} (view : State → γ) (hwatches : BlindWatches view) (hev : BlindEv view)
    (s : State) (w : WatchId) (n : Half) (p : Option Half) : view (s.handReport w n p) = view s := by
  unfold State.handReport
  try dsimp only
  (repeat' split) <;> first | simp only [State.updWatch_view view hwatches, State.setRing_view view hev, hwatches, hev] | rfl
@[simp] theorem State.handReport_frame (s : State) (w : WatchId) (n : Half) (p : Option Half) :
    (s.handReport w n p).pending = s.pending ∧ (s.handReport w n p).ticks = s.ticks ∧
    (s.handReport w n p).ctl = s.ctl ∧ (s.handReport w n p).sqs = s.sqs ∧ (s.handReport w n p).cqs = s.cqs ∧
    (s.handReport w n p).arb = s.arb ∧ (s.handReport w n p).lock = s.lock ∧
    (s.handReport w n p).ctxs = s.ctxs ∧ (s.handReport w n p).nextChain = s.nextChain ∧
    (s.handReport w n p).adm = s.adm ∧ (s.handReport w n p).segs = s.segs ∧
    (s.handReport w n p).presence = s.presence ∧ (s.handReport w n p).pool = s.pool ∧
    (s.handReport w n p).jobs = s.jobs ∧ (s.handReport w n p).irq = s.irq ∧
    (s.handReport w n p).link = s.link ∧ (∀ h, (s.handReport w n p).seg h = s.seg h) ∧
    (∀ h, (s.handReport w n p).sq h = s.sq h) ∧ (∀ h, (s.handReport w n p).cq h = s.cq h) ∧
    (∀ h, (s.handReport w n p).pres h = s.pres h) ∧ (∀ h, (s.handReport w n p).ctx h = s.ctx h) ∧
    (∀ h, (s.handReport w n p).job h = s.job h) ∧
    (∀ h, (s.handReport w n p).restoreList h = s.restoreList h) :=
  ⟨State.handReport_view State.pending (fun _ _ => rfl) (fun _ _ => rfl) s w n p,
   State.handReport_view State.ticks (fun _ _ => rfl) (fun _ _ => rfl) s w n p,
   State.handReport_view State.ctl (fun _ _ => rfl) (fun _ _ => rfl) s w n p,
   State.handReport_view State.sqs (fun _ _ => rfl) (fun _ _ => rfl) s w n p,
   State.handReport_view State.cqs (fun _ _ => rfl) (fun _ _ => rfl) s w n p,
   State.handReport_view State.arb (fun _ _ => rfl) (fun _ _ => rfl) s w n p,
   State.handReport_view State.lock (fun _ _ => rfl) (fun _ _ => rfl) s w n p,
   State.handReport_view State.ctxs (fun _ _ => rfl) (fun _ _ => rfl) s w n p,
   State.handReport_view State.nextChain (fun _ _ => rfl) (fun _ _ => rfl) s w n p,
   State.handReport_view State.adm (fun _ _ => rfl) (fun _ _ => rfl) s w n p,
   State.handReport_view State.segs (fun _ _ => rfl) (fun _ _ => rfl) s w n p,
   State.handReport_view State.presence (fun _ _ => rfl) (fun _ _ => rfl) s w n p,
   State.handReport_view State.pool (fun _ _ => rfl) (fun _ _ => rfl) s w n p,
   State.handReport_view State.jobs (fun _ _ => rfl) (fun _ _ => rfl) s w n p,
   State.handReport_view State.irq (fun _ _ => rfl) (fun _ _ => rfl) s w n p,
   State.handReport_view State.link (fun _ _ => rfl) (fun _ _ => rfl) s w n p,
   fun h => State.handReport_view (fun s => s.seg h) (fun _ _ => rfl) (fun _ _ => rfl) s w n p,
   fun h => State.handReport_view (fun s => s.sq h) (fun _ _ => rfl) (fun _ _ => rfl) s w n p,
   fun h => State.handReport_view (fun s => s.cq h) (fun _ _ => rfl) (fun _ _ => rfl) s w n p,
   fun h => State.handReport_view (fun s => s.pres h) (fun _ _ => rfl) (fun _ _ => rfl) s w n p,
   fun h => State.handReport_view (fun s => s.ctx h) (fun _ _ => rfl) (fun _ _ => rfl) s w n p,
   fun h => State.handReport_view (fun s => s.job h) (fun _ _ => rfl) (fun _ _ => rfl) s w n p,
   fun h => State.handReport_view (fun s => s.restoreList h) (fun _ _ => rfl) (fun _ _ => rfl) s w n p⟩

theorem State.drainLost_view {γ : Type} (view : State → γ) (hev : BlindEv view)
    (s : State)  : view s.drainLost = view s := by
  unfold State.drainLost
  try dsimp only
  (repeat' split) <;> first | simp only [State.setRing_view view hev, State.setLost_view view hev, hev] | rfl
@[simp] theorem State.drainLost_frame (s : State) :
    s.drainLost.pending = s.pending ∧ s.drainLost.ticks = s.ticks ∧ s.drainLost.ctl = s.ctl ∧
    s.drainLost.sqs = s.sqs ∧ s.drainLost.cqs = s.cqs ∧ s.drainLost.arb = s.arb ∧ s.drainLost.lock = s.lock ∧
    s.drainLost.ctxs = s.ctxs ∧ s.drainLost.nextChain = s.nextChain ∧ s.drainLost.adm = s.adm ∧
    s.drainLost.segs = s.segs ∧ s.drainLost.presence = s.presence ∧ s.drainLost.watches = s.watches ∧
    s.drainLost.pool = s.pool ∧ s.drainLost.jobs = s.jobs ∧ s.drainLost.irq = s.irq ∧
    s.drainLost.link = s.link ∧ (∀ h, s.drainLost.seg h = s.seg h) ∧ (∀ h, s.drainLost.sq h = s.sq h) ∧
    (∀ h, s.drainLost.cq h = s.cq h) ∧ (∀ h, s.drainLost.watch h = s.watch h) ∧
    (∀ h, s.drainLost.pres h = s.pres h) ∧ (∀ h, s.drainLost.ctx h = s.ctx h) ∧
    (∀ h, s.drainLost.job h = s.job h) ∧ (∀ h, s.drainLost.restoreList h = s.restoreList h) :=
  ⟨State.drainLost_view State.pending (fun _ _ => rfl) s,
   State.drainLost_view State.ticks (fun _ _ => rfl) s,
   State.drainLost_view State.ctl (fun _ _ => rfl) s,
   State.drainLost_view State.sqs (fun _ _ => rfl) s,
   State.drainLost_view State.cqs (fun _ _ => rfl) s,
   State.drainLost_view State.arb (fun _ _ => rfl) s,
   State.drainLost_view State.lock (fun _ _ => rfl) s,
   State.drainLost_view State.ctxs (fun _ _ => rfl) s,
   State.drainLost_view State.nextChain (fun _ _ => rfl) s,
   State.drainLost_view State.adm (fun _ _ => rfl) s,
   State.drainLost_view State.segs (fun _ _ => rfl) s,
   State.drainLost_view State.presence (fun _ _ => rfl) s,
   State.drainLost_view State.watches (fun _ _ => rfl) s,
   State.drainLost_view State.pool (fun _ _ => rfl) s,
   State.drainLost_view State.jobs (fun _ _ => rfl) s,
   State.drainLost_view State.irq (fun _ _ => rfl) s,
   State.drainLost_view State.link (fun _ _ => rfl) s,
   fun h => State.drainLost_view (fun s => s.seg h) (fun _ _ => rfl) s,
   fun h => State.drainLost_view (fun s => s.sq h) (fun _ _ => rfl) s,
   fun h => State.drainLost_view (fun s => s.cq h) (fun _ _ => rfl) s,
   fun h => State.drainLost_view (fun s => s.watch h) (fun _ _ => rfl) s,
   fun h => State.drainLost_view (fun s => s.pres h) (fun _ _ => rfl) s,
   fun h => State.drainLost_view (fun s => s.ctx h) (fun _ _ => rfl) s,
   fun h => State.drainLost_view (fun s => s.job h) (fun _ _ => rfl) s,
   fun h => State.drainLost_view (fun s => s.restoreList h) (fun _ _ => rfl) s⟩

theorem State.drainHeld_view {γ : Type} (view : State → γ) (hwatches : BlindWatches view) (hev : BlindEv view)
    (s : State) (w : WatchId) : view (s.drainHeld w) = view s := by
  unfold State.drainHeld
  try dsimp only
  (repeat' split) <;> first | simp only [State.updWatch_view view hwatches, State.setRing_view view hev, hwatches, hev] | rfl
@[simp] theorem State.drainHeld_frame (s : State) (w : WatchId) :
    (s.drainHeld w).pending = s.pending ∧ (s.drainHeld w).ticks = s.ticks ∧ (s.drainHeld w).ctl = s.ctl ∧
    (s.drainHeld w).sqs = s.sqs ∧ (s.drainHeld w).cqs = s.cqs ∧ (s.drainHeld w).arb = s.arb ∧
    (s.drainHeld w).lock = s.lock ∧ (s.drainHeld w).ctxs = s.ctxs ∧ (s.drainHeld w).nextChain = s.nextChain ∧
    (s.drainHeld w).adm = s.adm ∧ (s.drainHeld w).segs = s.segs ∧ (s.drainHeld w).presence = s.presence ∧
    (s.drainHeld w).pool = s.pool ∧ (s.drainHeld w).jobs = s.jobs ∧ (s.drainHeld w).irq = s.irq ∧
    (s.drainHeld w).link = s.link ∧ (∀ h, (s.drainHeld w).seg h = s.seg h) ∧
    (∀ h, (s.drainHeld w).sq h = s.sq h) ∧ (∀ h, (s.drainHeld w).cq h = s.cq h) ∧
    (∀ h, (s.drainHeld w).pres h = s.pres h) ∧ (∀ h, (s.drainHeld w).ctx h = s.ctx h) ∧
    (∀ h, (s.drainHeld w).job h = s.job h) ∧ (∀ h, (s.drainHeld w).restoreList h = s.restoreList h) :=
  ⟨State.drainHeld_view State.pending (fun _ _ => rfl) (fun _ _ => rfl) s w,
   State.drainHeld_view State.ticks (fun _ _ => rfl) (fun _ _ => rfl) s w,
   State.drainHeld_view State.ctl (fun _ _ => rfl) (fun _ _ => rfl) s w,
   State.drainHeld_view State.sqs (fun _ _ => rfl) (fun _ _ => rfl) s w,
   State.drainHeld_view State.cqs (fun _ _ => rfl) (fun _ _ => rfl) s w,
   State.drainHeld_view State.arb (fun _ _ => rfl) (fun _ _ => rfl) s w,
   State.drainHeld_view State.lock (fun _ _ => rfl) (fun _ _ => rfl) s w,
   State.drainHeld_view State.ctxs (fun _ _ => rfl) (fun _ _ => rfl) s w,
   State.drainHeld_view State.nextChain (fun _ _ => rfl) (fun _ _ => rfl) s w,
   State.drainHeld_view State.adm (fun _ _ => rfl) (fun _ _ => rfl) s w,
   State.drainHeld_view State.segs (fun _ _ => rfl) (fun _ _ => rfl) s w,
   State.drainHeld_view State.presence (fun _ _ => rfl) (fun _ _ => rfl) s w,
   State.drainHeld_view State.pool (fun _ _ => rfl) (fun _ _ => rfl) s w,
   State.drainHeld_view State.jobs (fun _ _ => rfl) (fun _ _ => rfl) s w,
   State.drainHeld_view State.irq (fun _ _ => rfl) (fun _ _ => rfl) s w,
   State.drainHeld_view State.link (fun _ _ => rfl) (fun _ _ => rfl) s w,
   fun h => State.drainHeld_view (fun s => s.seg h) (fun _ _ => rfl) (fun _ _ => rfl) s w,
   fun h => State.drainHeld_view (fun s => s.sq h) (fun _ _ => rfl) (fun _ _ => rfl) s w,
   fun h => State.drainHeld_view (fun s => s.cq h) (fun _ _ => rfl) (fun _ _ => rfl) s w,
   fun h => State.drainHeld_view (fun s => s.pres h) (fun _ _ => rfl) (fun _ _ => rfl) s w,
   fun h => State.drainHeld_view (fun s => s.ctx h) (fun _ _ => rfl) (fun _ _ => rfl) s w,
   fun h => State.drainHeld_view (fun s => s.job h) (fun _ _ => rfl) (fun _ _ => rfl) s w,
   fun h => State.drainHeld_view (fun s => s.restoreList h) (fun _ _ => rfl) (fun _ _ => rfl) s w⟩

theorem State.drainBacklog_view {γ : Type} (view : State → γ) (hev : BlindEv view)
    (s : State) (l : List Event) : view (State.drainBacklog l s) = view s := by
  induction l generalizing s with
  | nil => rfl
  | cons e l ih =>
    unfold State.drainBacklog
    try dsimp only
    (repeat' split) <;> first | simp only [ih, State.setRing_view view hev, State.setBacklog_view view hev, hev] | rfl
@[simp] theorem State.drainBacklog_frame (s : State) (l : List Event) :
    (State.drainBacklog l s).pending = s.pending ∧ (State.drainBacklog l s).ticks = s.ticks ∧
    (State.drainBacklog l s).ctl = s.ctl ∧ (State.drainBacklog l s).sqs = s.sqs ∧
    (State.drainBacklog l s).cqs = s.cqs ∧ (State.drainBacklog l s).arb = s.arb ∧
    (State.drainBacklog l s).lock = s.lock ∧ (State.drainBacklog l s).ctxs = s.ctxs ∧
    (State.drainBacklog l s).nextChain = s.nextChain ∧ (State.drainBacklog l s).adm = s.adm ∧
    (State.drainBacklog l s).segs = s.segs ∧ (State.drainBacklog l s).presence = s.presence ∧
    (State.drainBacklog l s).watches = s.watches ∧ (State.drainBacklog l s).pool = s.pool ∧
    (State.drainBacklog l s).jobs = s.jobs ∧ (State.drainBacklog l s).irq = s.irq ∧
    (State.drainBacklog l s).link = s.link ∧ (∀ h, (State.drainBacklog l s).seg h = s.seg h) ∧
    (∀ h, (State.drainBacklog l s).sq h = s.sq h) ∧ (∀ h, (State.drainBacklog l s).cq h = s.cq h) ∧
    (∀ h, (State.drainBacklog l s).watch h = s.watch h) ∧ (∀ h, (State.drainBacklog l s).pres h = s.pres h) ∧
    (∀ h, (State.drainBacklog l s).ctx h = s.ctx h) ∧ (∀ h, (State.drainBacklog l s).job h = s.job h) ∧
    (∀ h, (State.drainBacklog l s).restoreList h = s.restoreList h) :=
  ⟨State.drainBacklog_view State.pending (fun _ _ => rfl) s l,
   State.drainBacklog_view State.ticks (fun _ _ => rfl) s l,
   State.drainBacklog_view State.ctl (fun _ _ => rfl) s l,
   State.drainBacklog_view State.sqs (fun _ _ => rfl) s l,
   State.drainBacklog_view State.cqs (fun _ _ => rfl) s l,
   State.drainBacklog_view State.arb (fun _ _ => rfl) s l,
   State.drainBacklog_view State.lock (fun _ _ => rfl) s l,
   State.drainBacklog_view State.ctxs (fun _ _ => rfl) s l,
   State.drainBacklog_view State.nextChain (fun _ _ => rfl) s l,
   State.drainBacklog_view State.adm (fun _ _ => rfl) s l,
   State.drainBacklog_view State.segs (fun _ _ => rfl) s l,
   State.drainBacklog_view State.presence (fun _ _ => rfl) s l,
   State.drainBacklog_view State.watches (fun _ _ => rfl) s l,
   State.drainBacklog_view State.pool (fun _ _ => rfl) s l,
   State.drainBacklog_view State.jobs (fun _ _ => rfl) s l,
   State.drainBacklog_view State.irq (fun _ _ => rfl) s l,
   State.drainBacklog_view State.link (fun _ _ => rfl) s l,
   fun h => State.drainBacklog_view (fun s => s.seg h) (fun _ _ => rfl) s l,
   fun h => State.drainBacklog_view (fun s => s.sq h) (fun _ _ => rfl) s l,
   fun h => State.drainBacklog_view (fun s => s.cq h) (fun _ _ => rfl) s l,
   fun h => State.drainBacklog_view (fun s => s.watch h) (fun _ _ => rfl) s l,
   fun h => State.drainBacklog_view (fun s => s.pres h) (fun _ _ => rfl) s l,
   fun h => State.drainBacklog_view (fun s => s.ctx h) (fun _ _ => rfl) s l,
   fun h => State.drainBacklog_view (fun s => s.job h) (fun _ _ => rfl) s l,
   fun h => State.drainBacklog_view (fun s => s.restoreList h) (fun _ _ => rfl) s l⟩

theorem State.drain_view {γ : Type} (view : State → γ) (hwatches : BlindWatches view) (hev : BlindEv view)
    (s : State)  : view s.drain = view s := by
  unfold State.drain
  try dsimp only
  (repeat' split) <;>
    simp (disch := first | (intros; simp only [State.drainLost_view view hev, State.drainHeld_view view hwatches hev, State.drainBacklog_view view hev, hwatches, hev])) only [foldl_same view, State.drainLost_view view hev, State.drainHeld_view view hwatches hev, State.drainBacklog_view view hev, hwatches, hev]
@[simp] theorem State.drain_frame (s : State) :
    s.drain.pending = s.pending ∧ s.drain.ticks = s.ticks ∧ s.drain.ctl = s.ctl ∧ s.drain.sqs = s.sqs ∧
    s.drain.cqs = s.cqs ∧ s.drain.arb = s.arb ∧ s.drain.lock = s.lock ∧ s.drain.ctxs = s.ctxs ∧
    s.drain.nextChain = s.nextChain ∧ s.drain.adm = s.adm ∧ s.drain.segs = s.segs ∧
    s.drain.presence = s.presence ∧ s.drain.pool = s.pool ∧ s.drain.jobs = s.jobs ∧ s.drain.irq = s.irq ∧
    s.drain.link = s.link ∧ (∀ h, s.drain.seg h = s.seg h) ∧ (∀ h, s.drain.sq h = s.sq h) ∧
    (∀ h, s.drain.cq h = s.cq h) ∧ (∀ h, s.drain.pres h = s.pres h) ∧ (∀ h, s.drain.ctx h = s.ctx h) ∧
    (∀ h, s.drain.job h = s.job h) ∧ (∀ h, s.drain.restoreList h = s.restoreList h) :=
  ⟨State.drain_view State.pending (fun _ _ => rfl) (fun _ _ => rfl) s,
   State.drain_view State.ticks (fun _ _ => rfl) (fun _ _ => rfl) s,
   State.drain_view State.ctl (fun _ _ => rfl) (fun _ _ => rfl) s,
   State.drain_view State.sqs (fun _ _ => rfl) (fun _ _ => rfl) s,
   State.drain_view State.cqs (fun _ _ => rfl) (fun _ _ => rfl) s,
   State.drain_view State.arb (fun _ _ => rfl) (fun _ _ => rfl) s,
   State.drain_view State.lock (fun _ _ => rfl) (fun _ _ => rfl) s,
   State.drain_view State.ctxs (fun _ _ => rfl) (fun _ _ => rfl) s,
   State.drain_view State.nextChain (fun _ _ => rfl) (fun _ _ => rfl) s,
   State.drain_view State.adm (fun _ _ => rfl) (fun _ _ => rfl) s,
   State.drain_view State.segs (fun _ _ => rfl) (fun _ _ => rfl) s,
   State.drain_view State.presence (fun _ _ => rfl) (fun _ _ => rfl) s,
   State.drain_view State.pool (fun _ _ => rfl) (fun _ _ => rfl) s,
   State.drain_view State.jobs (fun _ _ => rfl) (fun _ _ => rfl) s,
   State.drain_view State.irq (fun _ _ => rfl) (fun _ _ => rfl) s,
   State.drain_view State.link (fun _ _ => rfl) (fun _ _ => rfl) s,
   fun h => State.drain_view (fun s => s.seg h) (fun _ _ => rfl) (fun _ _ => rfl) s,
   fun h => State.drain_view (fun s => s.sq h) (fun _ _ => rfl) (fun _ _ => rfl) s,
   fun h => State.drain_view (fun s => s.cq h) (fun _ _ => rfl) (fun _ _ => rfl) s,
   fun h => State.drain_view (fun s => s.pres h) (fun _ _ => rfl) (fun _ _ => rfl) s,
   fun h => State.drain_view (fun s => s.ctx h) (fun _ _ => rfl) (fun _ _ => rfl) s,
   fun h => State.drain_view (fun s => s.job h) (fun _ _ => rfl) (fun _ _ => rfl) s,
   fun h => State.drain_view (fun s => s.restoreList h) (fun _ _ => rfl) (fun _ _ => rfl) s⟩

theorem State.issueEvent_view {γ : Type} (view : State → γ) (hev : BlindEv view) (hlink : BlindLink view)
    (s : State)  : view s.issueEvent = view s := by
  unfold State.issueEvent
  try dsimp only
  (repeat' split) <;> first | simp only [State.issue_view view hlink, State.setRing_view view hev, hev, hlink] | rfl
@[simp] theorem State.issueEvent_frame (s : State) :
    s.issueEvent.pending = s.pending ∧ s.issueEvent.ticks = s.ticks ∧ s.issueEvent.ctl = s.ctl ∧
    s.issueEvent.sqs = s.sqs ∧ s.issueEvent.cqs = s.cqs ∧ s.issueEvent.arb = s.arb ∧
    s.issueEvent.lock = s.lock ∧ s.issueEvent.ctxs = s.ctxs ∧ s.issueEvent.nextChain = s.nextChain ∧
    s.issueEvent.adm = s.adm ∧ s.issueEvent.segs = s.segs ∧ s.issueEvent.presence = s.presence ∧
    s.issueEvent.watches = s.watches ∧ s.issueEvent.pool = s.pool ∧ s.issueEvent.jobs = s.jobs ∧
    s.issueEvent.irq = s.irq ∧ (∀ h, s.issueEvent.seg h = s.seg h) ∧ (∀ h, s.issueEvent.sq h = s.sq h) ∧
    (∀ h, s.issueEvent.cq h = s.cq h) ∧ (∀ h, s.issueEvent.watch h = s.watch h) ∧
    (∀ h, s.issueEvent.pres h = s.pres h) ∧ (∀ h, s.issueEvent.ctx h = s.ctx h) ∧
    (∀ h, s.issueEvent.job h = s.job h) ∧ (∀ h, s.issueEvent.restoreList h = s.restoreList h) :=
  ⟨State.issueEvent_view State.pending (fun _ _ => rfl) (fun _ _ => rfl) s,
   State.issueEvent_view State.ticks (fun _ _ => rfl) (fun _ _ => rfl) s,
   State.issueEvent_view State.ctl (fun _ _ => rfl) (fun _ _ => rfl) s,
   State.issueEvent_view State.sqs (fun _ _ => rfl) (fun _ _ => rfl) s,
   State.issueEvent_view State.cqs (fun _ _ => rfl) (fun _ _ => rfl) s,
   State.issueEvent_view State.arb (fun _ _ => rfl) (fun _ _ => rfl) s,
   State.issueEvent_view State.lock (fun _ _ => rfl) (fun _ _ => rfl) s,
   State.issueEvent_view State.ctxs (fun _ _ => rfl) (fun _ _ => rfl) s,
   State.issueEvent_view State.nextChain (fun _ _ => rfl) (fun _ _ => rfl) s,
   State.issueEvent_view State.adm (fun _ _ => rfl) (fun _ _ => rfl) s,
   State.issueEvent_view State.segs (fun _ _ => rfl) (fun _ _ => rfl) s,
   State.issueEvent_view State.presence (fun _ _ => rfl) (fun _ _ => rfl) s,
   State.issueEvent_view State.watches (fun _ _ => rfl) (fun _ _ => rfl) s,
   State.issueEvent_view State.pool (fun _ _ => rfl) (fun _ _ => rfl) s,
   State.issueEvent_view State.jobs (fun _ _ => rfl) (fun _ _ => rfl) s,
   State.issueEvent_view State.irq (fun _ _ => rfl) (fun _ _ => rfl) s,
   fun h => State.issueEvent_view (fun s => s.seg h) (fun _ _ => rfl) (fun _ _ => rfl) s,
   fun h => State.issueEvent_view (fun s => s.sq h) (fun _ _ => rfl) (fun _ _ => rfl) s,
   fun h => State.issueEvent_view (fun s => s.cq h) (fun _ _ => rfl) (fun _ _ => rfl) s,
   fun h => State.issueEvent_view (fun s => s.watch h) (fun _ _ => rfl) (fun _ _ => rfl) s,
   fun h => State.issueEvent_view (fun s => s.pres h) (fun _ _ => rfl) (fun _ _ => rfl) s,
   fun h => State.issueEvent_view (fun s => s.ctx h) (fun _ _ => rfl) (fun _ _ => rfl) s,
   fun h => State.issueEvent_view (fun s => s.job h) (fun _ _ => rfl) (fun _ _ => rfl) s,
   fun h => State.issueEvent_view (fun s => s.restoreList h) (fun _ _ => rfl) (fun _ _ => rfl) s⟩

theorem State.removeRing_view {γ : Type} (view : State → γ) (hwatches : BlindWatches view) (hev : BlindEv view)
    (s : State)  : view s.removeRing = view s := by
  unfold State.removeRing
  try dsimp only
  (repeat' split) <;> first | simp only [State.discardHeld_view view hwatches, hwatches, hev] | rfl
@[simp] theorem State.removeRing_frame (s : State) :
    s.removeRing.pending = s.pending ∧ s.removeRing.ticks = s.ticks ∧ s.removeRing.ctl = s.ctl ∧
    s.removeRing.sqs = s.sqs ∧ s.removeRing.cqs = s.cqs ∧ s.removeRing.arb = s.arb ∧
    s.removeRing.lock = s.lock ∧ s.removeRing.ctxs = s.ctxs ∧ s.removeRing.nextChain = s.nextChain ∧
    s.removeRing.adm = s.adm ∧ s.removeRing.segs = s.segs ∧ s.removeRing.presence = s.presence ∧
    s.removeRing.pool = s.pool ∧ s.removeRing.jobs = s.jobs ∧ s.removeRing.irq = s.irq ∧
    s.removeRing.link = s.link ∧ (∀ h, s.removeRing.seg h = s.seg h) ∧ (∀ h, s.removeRing.sq h = s.sq h) ∧
    (∀ h, s.removeRing.cq h = s.cq h) ∧ (∀ h, s.removeRing.pres h = s.pres h) ∧
    (∀ h, s.removeRing.ctx h = s.ctx h) ∧ (∀ h, s.removeRing.job h = s.job h) ∧
    (∀ h, s.removeRing.restoreList h = s.restoreList h) :=
  ⟨State.removeRing_view State.pending (fun _ _ => rfl) (fun _ _ => rfl) s,
   State.removeRing_view State.ticks (fun _ _ => rfl) (fun _ _ => rfl) s,
   State.removeRing_view State.ctl (fun _ _ => rfl) (fun _ _ => rfl) s,
   State.removeRing_view State.sqs (fun _ _ => rfl) (fun _ _ => rfl) s,
   State.removeRing_view State.cqs (fun _ _ => rfl) (fun _ _ => rfl) s,
   State.removeRing_view State.arb (fun _ _ => rfl) (fun _ _ => rfl) s,
   State.removeRing_view State.lock (fun _ _ => rfl) (fun _ _ => rfl) s,
   State.removeRing_view State.ctxs (fun _ _ => rfl) (fun _ _ => rfl) s,
   State.removeRing_view State.nextChain (fun _ _ => rfl) (fun _ _ => rfl) s,
   State.removeRing_view State.adm (fun _ _ => rfl) (fun _ _ => rfl) s,
   State.removeRing_view State.segs (fun _ _ => rfl) (fun _ _ => rfl) s,
   State.removeRing_view State.presence (fun _ _ => rfl) (fun _ _ => rfl) s,
   State.removeRing_view State.pool (fun _ _ => rfl) (fun _ _ => rfl) s,
   State.removeRing_view State.jobs (fun _ _ => rfl) (fun _ _ => rfl) s,
   State.removeRing_view State.irq (fun _ _ => rfl) (fun _ _ => rfl) s,
   State.removeRing_view State.link (fun _ _ => rfl) (fun _ _ => rfl) s,
   fun h => State.removeRing_view (fun s => s.seg h) (fun _ _ => rfl) (fun _ _ => rfl) s,
   fun h => State.removeRing_view (fun s => s.sq h) (fun _ _ => rfl) (fun _ _ => rfl) s,
   fun h => State.removeRing_view (fun s => s.cq h) (fun _ _ => rfl) (fun _ _ => rfl) s,
   fun h => State.removeRing_view (fun s => s.pres h) (fun _ _ => rfl) (fun _ _ => rfl) s,
   fun h => State.removeRing_view (fun s => s.ctx h) (fun _ _ => rfl) (fun _ _ => rfl) s,
   fun h => State.removeRing_view (fun s => s.job h) (fun _ _ => rfl) (fun _ _ => rfl) s,
   fun h => State.removeRing_view (fun s => s.restoreList h) (fun _ _ => rfl) (fun _ _ => rfl) s⟩

theorem State.createJob_view {γ : Type} (view : State → γ) (hsegs : BlindSegs view) (hjobs : BlindJobs view)
    (s : State) (t : Tgt) : view (s.createJob t) = view s := by
  unfold State.createJob
  try dsimp only
  (repeat' split) <;> first | simp only [State.updSeg_view view hsegs, hsegs, hjobs] | rfl
@[simp] theorem State.createJob_frame (s : State) (t : Tgt) :
    (s.createJob t).pending = s.pending ∧ (s.createJob t).ticks = s.ticks ∧ (s.createJob t).ctl = s.ctl ∧
    (s.createJob t).sqs = s.sqs ∧ (s.createJob t).cqs = s.cqs ∧ (s.createJob t).arb = s.arb ∧
    (s.createJob t).lock = s.lock ∧ (s.createJob t).ctxs = s.ctxs ∧ (s.createJob t).nextChain = s.nextChain ∧
    (s.createJob t).adm = s.adm ∧ (s.createJob t).presence = s.presence ∧
    (s.createJob t).watches = s.watches ∧ (s.createJob t).pool = s.pool ∧ (s.createJob t).ev = s.ev ∧
    (s.createJob t).irq = s.irq ∧ (s.createJob t).link = s.link ∧ (∀ h, (s.createJob t).sq h = s.sq h) ∧
    (∀ h, (s.createJob t).cq h = s.cq h) ∧ (∀ h, (s.createJob t).watch h = s.watch h) ∧
    (∀ h, (s.createJob t).pres h = s.pres h) ∧ (∀ h, (s.createJob t).ctx h = s.ctx h) ∧
    (∀ h, (s.createJob t).restoreList h = s.restoreList h) :=
  ⟨State.createJob_view State.pending (fun _ _ => rfl) (fun _ _ => rfl) s t,
   State.createJob_view State.ticks (fun _ _ => rfl) (fun _ _ => rfl) s t,
   State.createJob_view State.ctl (fun _ _ => rfl) (fun _ _ => rfl) s t,
   State.createJob_view State.sqs (fun _ _ => rfl) (fun _ _ => rfl) s t,
   State.createJob_view State.cqs (fun _ _ => rfl) (fun _ _ => rfl) s t,
   State.createJob_view State.arb (fun _ _ => rfl) (fun _ _ => rfl) s t,
   State.createJob_view State.lock (fun _ _ => rfl) (fun _ _ => rfl) s t,
   State.createJob_view State.ctxs (fun _ _ => rfl) (fun _ _ => rfl) s t,
   State.createJob_view State.nextChain (fun _ _ => rfl) (fun _ _ => rfl) s t,
   State.createJob_view State.adm (fun _ _ => rfl) (fun _ _ => rfl) s t,
   State.createJob_view State.presence (fun _ _ => rfl) (fun _ _ => rfl) s t,
   State.createJob_view State.watches (fun _ _ => rfl) (fun _ _ => rfl) s t,
   State.createJob_view State.pool (fun _ _ => rfl) (fun _ _ => rfl) s t,
   State.createJob_view State.ev (fun _ _ => rfl) (fun _ _ => rfl) s t,
   State.createJob_view State.irq (fun _ _ => rfl) (fun _ _ => rfl) s t,
   State.createJob_view State.link (fun _ _ => rfl) (fun _ _ => rfl) s t,
   fun h => State.createJob_view (fun s => s.sq h) (fun _ _ => rfl) (fun _ _ => rfl) s t,
   fun h => State.createJob_view (fun s => s.cq h) (fun _ _ => rfl) (fun _ _ => rfl) s t,
   fun h => State.createJob_view (fun s => s.watch h) (fun _ _ => rfl) (fun _ _ => rfl) s t,
   fun h => State.createJob_view (fun s => s.pres h) (fun _ _ => rfl) (fun _ _ => rfl) s t,
   fun h => State.createJob_view (fun s => s.ctx h) (fun _ _ => rfl) (fun _ _ => rfl) s t,
   fun h => State.createJob_view (fun s => s.restoreList h) (fun _ _ => rfl) (fun _ _ => rfl) s t⟩

theorem State.removeJob_view {γ : Type} (view : State → γ) (hsegs : BlindSegs view) (hjobs : BlindJobs view)
    (s : State) (t : Tgt) : view (s.removeJob t) = view s := by
  unfold State.removeJob
  try dsimp only
  (repeat' split) <;> first | simp only [State.updSeg_view view hsegs, hsegs, hjobs] | rfl
@[simp] theorem State.removeJob_frame (s : State) (t : Tgt) :
    (s.removeJob t).pending = s.pending ∧ (s.removeJob t).ticks = s.ticks ∧ (s.removeJob t).ctl = s.ctl ∧
    (s.removeJob t).sqs = s.sqs ∧ (s.removeJob t).cqs = s.cqs ∧ (s.removeJob t).arb = s.arb ∧
    (s.removeJob t).lock = s.lock ∧ (s.removeJob t).ctxs = s.ctxs ∧ (s.removeJob t).nextChain = s.nextChain ∧
    (s.removeJob t).adm = s.adm ∧ (s.removeJob t).presence = s.presence ∧
    (s.removeJob t).watches = s.watches ∧ (s.removeJob t).pool = s.pool ∧ (s.removeJob t).ev = s.ev ∧
    (s.removeJob t).irq = s.irq ∧ (s.removeJob t).link = s.link ∧ (∀ h, (s.removeJob t).sq h = s.sq h) ∧
    (∀ h, (s.removeJob t).cq h = s.cq h) ∧ (∀ h, (s.removeJob t).watch h = s.watch h) ∧
    (∀ h, (s.removeJob t).pres h = s.pres h) ∧ (∀ h, (s.removeJob t).ctx h = s.ctx h) ∧
    (∀ h, (s.removeJob t).restoreList h = s.restoreList h) :=
  ⟨State.removeJob_view State.pending (fun _ _ => rfl) (fun _ _ => rfl) s t,
   State.removeJob_view State.ticks (fun _ _ => rfl) (fun _ _ => rfl) s t,
   State.removeJob_view State.ctl (fun _ _ => rfl) (fun _ _ => rfl) s t,
   State.removeJob_view State.sqs (fun _ _ => rfl) (fun _ _ => rfl) s t,
   State.removeJob_view State.cqs (fun _ _ => rfl) (fun _ _ => rfl) s t,
   State.removeJob_view State.arb (fun _ _ => rfl) (fun _ _ => rfl) s t,
   State.removeJob_view State.lock (fun _ _ => rfl) (fun _ _ => rfl) s t,
   State.removeJob_view State.ctxs (fun _ _ => rfl) (fun _ _ => rfl) s t,
   State.removeJob_view State.nextChain (fun _ _ => rfl) (fun _ _ => rfl) s t,
   State.removeJob_view State.adm (fun _ _ => rfl) (fun _ _ => rfl) s t,
   State.removeJob_view State.presence (fun _ _ => rfl) (fun _ _ => rfl) s t,
   State.removeJob_view State.watches (fun _ _ => rfl) (fun _ _ => rfl) s t,
   State.removeJob_view State.pool (fun _ _ => rfl) (fun _ _ => rfl) s t,
   State.removeJob_view State.ev (fun _ _ => rfl) (fun _ _ => rfl) s t,
   State.removeJob_view State.irq (fun _ _ => rfl) (fun _ _ => rfl) s t,
   State.removeJob_view State.link (fun _ _ => rfl) (fun _ _ => rfl) s t,
   fun h => State.removeJob_view (fun s => s.sq h) (fun _ _ => rfl) (fun _ _ => rfl) s t,
   fun h => State.removeJob_view (fun s => s.cq h) (fun _ _ => rfl) (fun _ _ => rfl) s t,
   fun h => State.removeJob_view (fun s => s.watch h) (fun _ _ => rfl) (fun _ _ => rfl) s t,
   fun h => State.removeJob_view (fun s => s.pres h) (fun _ _ => rfl) (fun _ _ => rfl) s t,
   fun h => State.removeJob_view (fun s => s.ctx h) (fun _ _ => rfl) (fun _ _ => rfl) s t,
   fun h => State.removeJob_view (fun s => s.restoreList h) (fun _ _ => rfl) (fun _ _ => rfl) s t⟩

theorem State.abandonJob_view {γ : Type} (view : State → γ) (hsegs : BlindSegs view) (hjobs : BlindJobs view) (hev : BlindEv view)
    (s : State) (t : Tgt) (c : AbandonCause) : view (s.abandonJob t c) = view s := by
  unfold State.abandonJob
  try dsimp only
  (repeat' split) <;> first | simp only [State.handEvent_view view hev, State.removeJob_view view hsegs hjobs, hsegs, hjobs, hev] | rfl
@[simp] theorem State.abandonJob_frame (s : State) (t : Tgt) (c : AbandonCause) :
    (s.abandonJob t c).pending = s.pending ∧ (s.abandonJob t c).ticks = s.ticks ∧
    (s.abandonJob t c).ctl = s.ctl ∧ (s.abandonJob t c).sqs = s.sqs ∧ (s.abandonJob t c).cqs = s.cqs ∧
    (s.abandonJob t c).arb = s.arb ∧ (s.abandonJob t c).lock = s.lock ∧ (s.abandonJob t c).ctxs = s.ctxs ∧
    (s.abandonJob t c).nextChain = s.nextChain ∧ (s.abandonJob t c).adm = s.adm ∧
    (s.abandonJob t c).presence = s.presence ∧ (s.abandonJob t c).watches = s.watches ∧
    (s.abandonJob t c).pool = s.pool ∧ (s.abandonJob t c).irq = s.irq ∧ (s.abandonJob t c).link = s.link ∧
    (∀ h, (s.abandonJob t c).sq h = s.sq h) ∧ (∀ h, (s.abandonJob t c).cq h = s.cq h) ∧
    (∀ h, (s.abandonJob t c).watch h = s.watch h) ∧ (∀ h, (s.abandonJob t c).pres h = s.pres h) ∧
    (∀ h, (s.abandonJob t c).ctx h = s.ctx h) ∧ (∀ h, (s.abandonJob t c).restoreList h = s.restoreList h) :=
  ⟨State.abandonJob_view State.pending (fun _ _ => rfl) (fun _ _ => rfl) (fun _ _ => rfl) s t c,
   State.abandonJob_view State.ticks (fun _ _ => rfl) (fun _ _ => rfl) (fun _ _ => rfl) s t c,
   State.abandonJob_view State.ctl (fun _ _ => rfl) (fun _ _ => rfl) (fun _ _ => rfl) s t c,
   State.abandonJob_view State.sqs (fun _ _ => rfl) (fun _ _ => rfl) (fun _ _ => rfl) s t c,
   State.abandonJob_view State.cqs (fun _ _ => rfl) (fun _ _ => rfl) (fun _ _ => rfl) s t c,
   State.abandonJob_view State.arb (fun _ _ => rfl) (fun _ _ => rfl) (fun _ _ => rfl) s t c,
   State.abandonJob_view State.lock (fun _ _ => rfl) (fun _ _ => rfl) (fun _ _ => rfl) s t c,
   State.abandonJob_view State.ctxs (fun _ _ => rfl) (fun _ _ => rfl) (fun _ _ => rfl) s t c,
   State.abandonJob_view State.nextChain (fun _ _ => rfl) (fun _ _ => rfl) (fun _ _ => rfl) s t c,
   State.abandonJob_view State.adm (fun _ _ => rfl) (fun _ _ => rfl) (fun _ _ => rfl) s t c,
   State.abandonJob_view State.presence (fun _ _ => rfl) (fun _ _ => rfl) (fun _ _ => rfl) s t c,
   State.abandonJob_view State.watches (fun _ _ => rfl) (fun _ _ => rfl) (fun _ _ => rfl) s t c,
   State.abandonJob_view State.pool (fun _ _ => rfl) (fun _ _ => rfl) (fun _ _ => rfl) s t c,
   State.abandonJob_view State.irq (fun _ _ => rfl) (fun _ _ => rfl) (fun _ _ => rfl) s t c,
   State.abandonJob_view State.link (fun _ _ => rfl) (fun _ _ => rfl) (fun _ _ => rfl) s t c,
   fun h => State.abandonJob_view (fun s => s.sq h) (fun _ _ => rfl) (fun _ _ => rfl) (fun _ _ => rfl) s t c,
   fun h => State.abandonJob_view (fun s => s.cq h) (fun _ _ => rfl) (fun _ _ => rfl) (fun _ _ => rfl) s t c,
   fun h => State.abandonJob_view (fun s => s.watch h) (fun _ _ => rfl) (fun _ _ => rfl) (fun _ _ => rfl) s t c,
   fun h => State.abandonJob_view (fun s => s.pres h) (fun _ _ => rfl) (fun _ _ => rfl) (fun _ _ => rfl) s t c,
   fun h => State.abandonJob_view (fun s => s.ctx h) (fun _ _ => rfl) (fun _ _ => rfl) (fun _ _ => rfl) s t c,
   fun h => State.abandonJob_view (fun s => s.restoreList h) (fun _ _ => rfl) (fun _ _ => rfl) (fun _ _ => rfl) s t c⟩

theorem State.replayEnd_view {γ : Type} (view : State → γ) (hpresence : BlindPresence view)
    (s : State) (t : Tgt) : view (s.replayEnd t) = view s := by
  unfold State.replayEnd
  try dsimp only
  (repeat' split) <;> first | simp only [State.setPres_view view hpresence, hpresence] | rfl
@[simp] theorem State.replayEnd_frame (s : State) (t : Tgt) :
    (s.replayEnd t).pending = s.pending ∧ (s.replayEnd t).ticks = s.ticks ∧ (s.replayEnd t).ctl = s.ctl ∧
    (s.replayEnd t).sqs = s.sqs ∧ (s.replayEnd t).cqs = s.cqs ∧ (s.replayEnd t).arb = s.arb ∧
    (s.replayEnd t).lock = s.lock ∧ (s.replayEnd t).ctxs = s.ctxs ∧ (s.replayEnd t).nextChain = s.nextChain ∧
    (s.replayEnd t).adm = s.adm ∧ (s.replayEnd t).segs = s.segs ∧ (s.replayEnd t).watches = s.watches ∧
    (s.replayEnd t).pool = s.pool ∧ (s.replayEnd t).jobs = s.jobs ∧ (s.replayEnd t).ev = s.ev ∧
    (s.replayEnd t).irq = s.irq ∧ (s.replayEnd t).link = s.link ∧ (∀ h, (s.replayEnd t).seg h = s.seg h) ∧
    (∀ h, (s.replayEnd t).sq h = s.sq h) ∧ (∀ h, (s.replayEnd t).cq h = s.cq h) ∧
    (∀ h, (s.replayEnd t).watch h = s.watch h) ∧ (∀ h, (s.replayEnd t).ctx h = s.ctx h) ∧
    (∀ h, (s.replayEnd t).job h = s.job h) ∧ (∀ h, (s.replayEnd t).restoreList h = s.restoreList h) :=
  ⟨State.replayEnd_view State.pending (fun _ _ => rfl) s t,
   State.replayEnd_view State.ticks (fun _ _ => rfl) s t,
   State.replayEnd_view State.ctl (fun _ _ => rfl) s t,
   State.replayEnd_view State.sqs (fun _ _ => rfl) s t,
   State.replayEnd_view State.cqs (fun _ _ => rfl) s t,
   State.replayEnd_view State.arb (fun _ _ => rfl) s t,
   State.replayEnd_view State.lock (fun _ _ => rfl) s t,
   State.replayEnd_view State.ctxs (fun _ _ => rfl) s t,
   State.replayEnd_view State.nextChain (fun _ _ => rfl) s t,
   State.replayEnd_view State.adm (fun _ _ => rfl) s t,
   State.replayEnd_view State.segs (fun _ _ => rfl) s t,
   State.replayEnd_view State.watches (fun _ _ => rfl) s t,
   State.replayEnd_view State.pool (fun _ _ => rfl) s t,
   State.replayEnd_view State.jobs (fun _ _ => rfl) s t,
   State.replayEnd_view State.ev (fun _ _ => rfl) s t,
   State.replayEnd_view State.irq (fun _ _ => rfl) s t,
   State.replayEnd_view State.link (fun _ _ => rfl) s t,
   fun h => State.replayEnd_view (fun s => s.seg h) (fun _ _ => rfl) s t,
   fun h => State.replayEnd_view (fun s => s.sq h) (fun _ _ => rfl) s t,
   fun h => State.replayEnd_view (fun s => s.cq h) (fun _ _ => rfl) s t,
   fun h => State.replayEnd_view (fun s => s.watch h) (fun _ _ => rfl) s t,
   fun h => State.replayEnd_view (fun s => s.ctx h) (fun _ _ => rfl) s t,
   fun h => State.replayEnd_view (fun s => s.job h) (fun _ _ => rfl) s t,
   fun h => State.replayEnd_view (fun s => s.restoreList h) (fun _ _ => rfl) s t⟩

theorem State.endJobIfOver_view {γ : Type} (view : State → γ) (hsegs : BlindSegs view) (hpresence : BlindPresence view) (hjobs : BlindJobs view) (hev : BlindEv view)
    (s : State) (t : Tgt) : view (s.endJobIfOver t) = view s := by
  unfold State.endJobIfOver
  try dsimp only
  (repeat' split) <;> first | simp only [State.handEvent_view view hev, State.removeJob_view view hsegs hjobs, State.replayEnd_view view hpresence, hsegs, hpresence, hjobs, hev] | rfl
@[simp] theorem State.endJobIfOver_frame (s : State) (t : Tgt) :
    (s.endJobIfOver t).pending = s.pending ∧ (s.endJobIfOver t).ticks = s.ticks ∧
    (s.endJobIfOver t).ctl = s.ctl ∧ (s.endJobIfOver t).sqs = s.sqs ∧ (s.endJobIfOver t).cqs = s.cqs ∧
    (s.endJobIfOver t).arb = s.arb ∧ (s.endJobIfOver t).lock = s.lock ∧ (s.endJobIfOver t).ctxs = s.ctxs ∧
    (s.endJobIfOver t).nextChain = s.nextChain ∧ (s.endJobIfOver t).adm = s.adm ∧
    (s.endJobIfOver t).watches = s.watches ∧ (s.endJobIfOver t).pool = s.pool ∧
    (s.endJobIfOver t).irq = s.irq ∧ (s.endJobIfOver t).link = s.link ∧
    (∀ h, (s.endJobIfOver t).sq h = s.sq h) ∧ (∀ h, (s.endJobIfOver t).cq h = s.cq h) ∧
    (∀ h, (s.endJobIfOver t).watch h = s.watch h) ∧ (∀ h, (s.endJobIfOver t).ctx h = s.ctx h) ∧
    (∀ h, (s.endJobIfOver t).restoreList h = s.restoreList h) :=
  ⟨State.endJobIfOver_view State.pending (fun _ _ => rfl) (fun _ _ => rfl) (fun _ _ => rfl) (fun _ _ => rfl) s t,
   State.endJobIfOver_view State.ticks (fun _ _ => rfl) (fun _ _ => rfl) (fun _ _ => rfl) (fun _ _ => rfl) s t,
   State.endJobIfOver_view State.ctl (fun _ _ => rfl) (fun _ _ => rfl) (fun _ _ => rfl) (fun _ _ => rfl) s t,
   State.endJobIfOver_view State.sqs (fun _ _ => rfl) (fun _ _ => rfl) (fun _ _ => rfl) (fun _ _ => rfl) s t,
   State.endJobIfOver_view State.cqs (fun _ _ => rfl) (fun _ _ => rfl) (fun _ _ => rfl) (fun _ _ => rfl) s t,
   State.endJobIfOver_view State.arb (fun _ _ => rfl) (fun _ _ => rfl) (fun _ _ => rfl) (fun _ _ => rfl) s t,
   State.endJobIfOver_view State.lock (fun _ _ => rfl) (fun _ _ => rfl) (fun _ _ => rfl) (fun _ _ => rfl) s t,
   State.endJobIfOver_view State.ctxs (fun _ _ => rfl) (fun _ _ => rfl) (fun _ _ => rfl) (fun _ _ => rfl) s t,
   State.endJobIfOver_view State.nextChain (fun _ _ => rfl) (fun _ _ => rfl) (fun _ _ => rfl) (fun _ _ => rfl) s t,
   State.endJobIfOver_view State.adm (fun _ _ => rfl) (fun _ _ => rfl) (fun _ _ => rfl) (fun _ _ => rfl) s t,
   State.endJobIfOver_view State.watches (fun _ _ => rfl) (fun _ _ => rfl) (fun _ _ => rfl) (fun _ _ => rfl) s t,
   State.endJobIfOver_view State.pool (fun _ _ => rfl) (fun _ _ => rfl) (fun _ _ => rfl) (fun _ _ => rfl) s t,
   State.endJobIfOver_view State.irq (fun _ _ => rfl) (fun _ _ => rfl) (fun _ _ => rfl) (fun _ _ => rfl) s t,
   State.endJobIfOver_view State.link (fun _ _ => rfl) (fun _ _ => rfl) (fun _ _ => rfl) (fun _ _ => rfl) s t,
   fun h => State.endJobIfOver_view (fun s => s.sq h) (fun _ _ => rfl) (fun _ _ => rfl) (fun _ _ => rfl) (fun _ _ => rfl) s t,
   fun h => State.endJobIfOver_view (fun s => s.cq h) (fun _ _ => rfl) (fun _ _ => rfl) (fun _ _ => rfl) (fun _ _ => rfl) s t,
   fun h => State.endJobIfOver_view (fun s => s.watch h) (fun _ _ => rfl) (fun _ _ => rfl) (fun _ _ => rfl) (fun _ _ => rfl) s t,
   fun h => State.endJobIfOver_view (fun s => s.ctx h) (fun _ _ => rfl) (fun _ _ => rfl) (fun _ _ => rfl) (fun _ _ => rfl) s t,
   fun h => State.endJobIfOver_view (fun s => s.restoreList h) (fun _ _ => rfl) (fun _ _ => rfl) (fun _ _ => rfl) (fun _ _ => rfl) s t⟩

theorem State.replayOutcome_view {γ : Type} (view : State → γ) (hsegs : BlindSegs view) (hpresence : BlindPresence view) (hjobs : BlindJobs view) (hev : BlindEv view)
    (s : State) (t : Tgt) (a : Attempt) : view (s.replayOutcome t a) = view s := by
  unfold State.replayOutcome
  try dsimp only
  (repeat' split) <;> first | simp only [State.updSeg_view view hsegs, State.updJob_view view hjobs, State.endJobIfOver_view view hsegs hpresence hjobs hev, hsegs, hpresence, hjobs, hev] | rfl
@[simp] theorem State.replayOutcome_frame (s : State) (t : Tgt) (a : Attempt) :
    (s.replayOutcome t a).pending = s.pending ∧ (s.replayOutcome t a).ticks = s.ticks ∧
    (s.replayOutcome t a).ctl = s.ctl ∧ (s.replayOutcome t a).sqs = s.sqs ∧
    (s.replayOutcome t a).cqs = s.cqs ∧ (s.replayOutcome t a).arb = s.arb ∧
    (s.replayOutcome t a).lock = s.lock ∧ (s.replayOutcome t a).ctxs = s.ctxs ∧
    (s.replayOutcome t a).nextChain = s.nextChain ∧ (s.replayOutcome t a).adm = s.adm ∧
    (s.replayOutcome t a).watches = s.watches ∧ (s.replayOutcome t a).pool = s.pool ∧
    (s.replayOutcome t a).irq = s.irq ∧ (s.replayOutcome t a).link = s.link ∧
    (∀ h, (s.replayOutcome t a).sq h = s.sq h) ∧ (∀ h, (s.replayOutcome t a).cq h = s.cq h) ∧
    (∀ h, (s.replayOutcome t a).watch h = s.watch h) ∧ (∀ h, (s.replayOutcome t a).ctx h = s.ctx h) ∧
    (∀ h, (s.replayOutcome t a).restoreList h = s.restoreList h) :=
  ⟨State.replayOutcome_view State.pending (fun _ _ => rfl) (fun _ _ => rfl) (fun _ _ => rfl) (fun _ _ => rfl) s t a,
   State.replayOutcome_view State.ticks (fun _ _ => rfl) (fun _ _ => rfl) (fun _ _ => rfl) (fun _ _ => rfl) s t a,
   State.replayOutcome_view State.ctl (fun _ _ => rfl) (fun _ _ => rfl) (fun _ _ => rfl) (fun _ _ => rfl) s t a,
   State.replayOutcome_view State.sqs (fun _ _ => rfl) (fun _ _ => rfl) (fun _ _ => rfl) (fun _ _ => rfl) s t a,
   State.replayOutcome_view State.cqs (fun _ _ => rfl) (fun _ _ => rfl) (fun _ _ => rfl) (fun _ _ => rfl) s t a,
   State.replayOutcome_view State.arb (fun _ _ => rfl) (fun _ _ => rfl) (fun _ _ => rfl) (fun _ _ => rfl) s t a,
   State.replayOutcome_view State.lock (fun _ _ => rfl) (fun _ _ => rfl) (fun _ _ => rfl) (fun _ _ => rfl) s t a,
   State.replayOutcome_view State.ctxs (fun _ _ => rfl) (fun _ _ => rfl) (fun _ _ => rfl) (fun _ _ => rfl) s t a,
   State.replayOutcome_view State.nextChain (fun _ _ => rfl) (fun _ _ => rfl) (fun _ _ => rfl) (fun _ _ => rfl) s t a,
   State.replayOutcome_view State.adm (fun _ _ => rfl) (fun _ _ => rfl) (fun _ _ => rfl) (fun _ _ => rfl) s t a,
   State.replayOutcome_view State.watches (fun _ _ => rfl) (fun _ _ => rfl) (fun _ _ => rfl) (fun _ _ => rfl) s t a,
   State.replayOutcome_view State.pool (fun _ _ => rfl) (fun _ _ => rfl) (fun _ _ => rfl) (fun _ _ => rfl) s t a,
   State.replayOutcome_view State.irq (fun _ _ => rfl) (fun _ _ => rfl) (fun _ _ => rfl) (fun _ _ => rfl) s t a,
   State.replayOutcome_view State.link (fun _ _ => rfl) (fun _ _ => rfl) (fun _ _ => rfl) (fun _ _ => rfl) s t a,
   fun h => State.replayOutcome_view (fun s => s.sq h) (fun _ _ => rfl) (fun _ _ => rfl) (fun _ _ => rfl) (fun _ _ => rfl) s t a,
   fun h => State.replayOutcome_view (fun s => s.cq h) (fun _ _ => rfl) (fun _ _ => rfl) (fun _ _ => rfl) (fun _ _ => rfl) s t a,
   fun h => State.replayOutcome_view (fun s => s.watch h) (fun _ _ => rfl) (fun _ _ => rfl) (fun _ _ => rfl) (fun _ _ => rfl) s t a,
   fun h => State.replayOutcome_view (fun s => s.ctx h) (fun _ _ => rfl) (fun _ _ => rfl) (fun _ _ => rfl) (fun _ _ => rfl) s t a,
   fun h => State.replayOutcome_view (fun s => s.restoreList h) (fun _ _ => rfl) (fun _ _ => rfl) (fun _ _ => rfl) (fun _ _ => rfl) s t a⟩

theorem State.lossNotice_view {γ : Type} (view : State → γ) (hwatches : BlindWatches view)
    (s : State) (t : Tgt) : view (s.lossNotice t) = view s := by
  unfold State.lossNotice
  try dsimp only
  (repeat' split) <;> first | simp only [State.mapWatches_view view hwatches, hwatches] | rfl
@[simp] theorem State.lossNotice_frame (s : State) (t : Tgt) :
    (s.lossNotice t).pending = s.pending ∧ (s.lossNotice t).ticks = s.ticks ∧ (s.lossNotice t).ctl = s.ctl ∧
    (s.lossNotice t).sqs = s.sqs ∧ (s.lossNotice t).cqs = s.cqs ∧ (s.lossNotice t).arb = s.arb ∧
    (s.lossNotice t).lock = s.lock ∧ (s.lossNotice t).ctxs = s.ctxs ∧
    (s.lossNotice t).nextChain = s.nextChain ∧ (s.lossNotice t).adm = s.adm ∧
    (s.lossNotice t).segs = s.segs ∧ (s.lossNotice t).presence = s.presence ∧
    (s.lossNotice t).pool = s.pool ∧ (s.lossNotice t).jobs = s.jobs ∧ (s.lossNotice t).ev = s.ev ∧
    (s.lossNotice t).irq = s.irq ∧ (s.lossNotice t).link = s.link ∧ (∀ h, (s.lossNotice t).seg h = s.seg h) ∧
    (∀ h, (s.lossNotice t).sq h = s.sq h) ∧ (∀ h, (s.lossNotice t).cq h = s.cq h) ∧
    (∀ h, (s.lossNotice t).pres h = s.pres h) ∧ (∀ h, (s.lossNotice t).ctx h = s.ctx h) ∧
    (∀ h, (s.lossNotice t).job h = s.job h) ∧ (∀ h, (s.lossNotice t).restoreList h = s.restoreList h) :=
  ⟨State.lossNotice_view State.pending (fun _ _ => rfl) s t,
   State.lossNotice_view State.ticks (fun _ _ => rfl) s t,
   State.lossNotice_view State.ctl (fun _ _ => rfl) s t,
   State.lossNotice_view State.sqs (fun _ _ => rfl) s t,
   State.lossNotice_view State.cqs (fun _ _ => rfl) s t,
   State.lossNotice_view State.arb (fun _ _ => rfl) s t,
   State.lossNotice_view State.lock (fun _ _ => rfl) s t,
   State.lossNotice_view State.ctxs (fun _ _ => rfl) s t,
   State.lossNotice_view State.nextChain (fun _ _ => rfl) s t,
   State.lossNotice_view State.adm (fun _ _ => rfl) s t,
   State.lossNotice_view State.segs (fun _ _ => rfl) s t,
   State.lossNotice_view State.presence (fun _ _ => rfl) s t,
   State.lossNotice_view State.pool (fun _ _ => rfl) s t,
   State.lossNotice_view State.jobs (fun _ _ => rfl) s t,
   State.lossNotice_view State.ev (fun _ _ => rfl) s t,
   State.lossNotice_view State.irq (fun _ _ => rfl) s t,
   State.lossNotice_view State.link (fun _ _ => rfl) s t,
   fun h => State.lossNotice_view (fun s => s.seg h) (fun _ _ => rfl) s t,
   fun h => State.lossNotice_view (fun s => s.sq h) (fun _ _ => rfl) s t,
   fun h => State.lossNotice_view (fun s => s.cq h) (fun _ _ => rfl) s t,
   fun h => State.lossNotice_view (fun s => s.pres h) (fun _ _ => rfl) s t,
   fun h => State.lossNotice_view (fun s => s.ctx h) (fun _ _ => rfl) s t,
   fun h => State.lossNotice_view (fun s => s.job h) (fun _ _ => rfl) s t,
   fun h => State.lossNotice_view (fun s => s.restoreList h) (fun _ _ => rfl) s t⟩

theorem State.haltWatches_view {γ : Type} (view : State → γ) (hsegs : BlindSegs view) (hwatches : BlindWatches view)
    (s : State) (g : SegId) : view (s.haltWatches g) = view s := by
  unfold State.haltWatches
  try dsimp only
  (repeat' split) <;> first | simp only [State.updSeg_view view hsegs, State.mapWatches_view view hwatches, hsegs, hwatches] | rfl
@[simp] theorem State.haltWatches_frame (s : State) (g : SegId) :
    (s.haltWatches g).pending = s.pending ∧ (s.haltWatches g).ticks = s.ticks ∧
    (s.haltWatches g).ctl = s.ctl ∧ (s.haltWatches g).sqs = s.sqs ∧ (s.haltWatches g).cqs = s.cqs ∧
    (s.haltWatches g).arb = s.arb ∧ (s.haltWatches g).lock = s.lock ∧ (s.haltWatches g).ctxs = s.ctxs ∧
    (s.haltWatches g).nextChain = s.nextChain ∧ (s.haltWatches g).adm = s.adm ∧
    (s.haltWatches g).presence = s.presence ∧ (s.haltWatches g).pool = s.pool ∧
    (s.haltWatches g).jobs = s.jobs ∧ (s.haltWatches g).ev = s.ev ∧ (s.haltWatches g).irq = s.irq ∧
    (s.haltWatches g).link = s.link ∧ (∀ h, (s.haltWatches g).sq h = s.sq h) ∧
    (∀ h, (s.haltWatches g).cq h = s.cq h) ∧ (∀ h, (s.haltWatches g).pres h = s.pres h) ∧
    (∀ h, (s.haltWatches g).ctx h = s.ctx h) ∧ (∀ h, (s.haltWatches g).job h = s.job h) ∧
    (∀ h, (s.haltWatches g).restoreList h = s.restoreList h) :=
  ⟨State.haltWatches_view State.pending (fun _ _ => rfl) (fun _ _ => rfl) s g,
   State.haltWatches_view State.ticks (fun _ _ => rfl) (fun _ _ => rfl) s g,
   State.haltWatches_view State.ctl (fun _ _ => rfl) (fun _ _ => rfl) s g,
   State.haltWatches_view State.sqs (fun _ _ => rfl) (fun _ _ => rfl) s g,
   State.haltWatches_view State.cqs (fun _ _ => rfl) (fun _ _ => rfl) s g,
   State.haltWatches_view State.arb (fun _ _ => rfl) (fun _ _ => rfl) s g,
   State.haltWatches_view State.lock (fun _ _ => rfl) (fun _ _ => rfl) s g,
   State.haltWatches_view State.ctxs (fun _ _ => rfl) (fun _ _ => rfl) s g,
   State.haltWatches_view State.nextChain (fun _ _ => rfl) (fun _ _ => rfl) s g,
   State.haltWatches_view State.adm (fun _ _ => rfl) (fun _ _ => rfl) s g,
   State.haltWatches_view State.presence (fun _ _ => rfl) (fun _ _ => rfl) s g,
   State.haltWatches_view State.pool (fun _ _ => rfl) (fun _ _ => rfl) s g,
   State.haltWatches_view State.jobs (fun _ _ => rfl) (fun _ _ => rfl) s g,
   State.haltWatches_view State.ev (fun _ _ => rfl) (fun _ _ => rfl) s g,
   State.haltWatches_view State.irq (fun _ _ => rfl) (fun _ _ => rfl) s g,
   State.haltWatches_view State.link (fun _ _ => rfl) (fun _ _ => rfl) s g,
   fun h => State.haltWatches_view (fun s => s.sq h) (fun _ _ => rfl) (fun _ _ => rfl) s g,
   fun h => State.haltWatches_view (fun s => s.cq h) (fun _ _ => rfl) (fun _ _ => rfl) s g,
   fun h => State.haltWatches_view (fun s => s.pres h) (fun _ _ => rfl) (fun _ _ => rfl) s g,
   fun h => State.haltWatches_view (fun s => s.ctx h) (fun _ _ => rfl) (fun _ _ => rfl) s g,
   fun h => State.haltWatches_view (fun s => s.job h) (fun _ _ => rfl) (fun _ _ => rfl) s g,
   fun h => State.haltWatches_view (fun s => s.restoreList h) (fun _ _ => rfl) (fun _ _ => rfl) s g⟩

theorem State.pauseWatches_view {γ : Type} (view : State → γ) (hsegs : BlindSegs view) (hwatches : BlindWatches view)
    (s : State)  : view s.pauseWatches = view s := by
  unfold State.pauseWatches
  try dsimp only
  (repeat' split) <;>
    simp (disch := first | (intros; simp only [State.updSeg_view view hsegs, State.mapWatches_view view hwatches, hsegs, hwatches])) only [foldl_same view, State.updSeg_view view hsegs, State.mapWatches_view view hwatches, hsegs, hwatches]
@[simp] theorem State.pauseWatches_frame (s : State) :
    s.pauseWatches.pending = s.pending ∧ s.pauseWatches.ticks = s.ticks ∧ s.pauseWatches.ctl = s.ctl ∧
    s.pauseWatches.sqs = s.sqs ∧ s.pauseWatches.cqs = s.cqs ∧ s.pauseWatches.arb = s.arb ∧
    s.pauseWatches.lock = s.lock ∧ s.pauseWatches.ctxs = s.ctxs ∧ s.pauseWatches.nextChain = s.nextChain ∧
    s.pauseWatches.adm = s.adm ∧ s.pauseWatches.presence = s.presence ∧ s.pauseWatches.pool = s.pool ∧
    s.pauseWatches.jobs = s.jobs ∧ s.pauseWatches.ev = s.ev ∧ s.pauseWatches.irq = s.irq ∧
    s.pauseWatches.link = s.link ∧ (∀ h, s.pauseWatches.sq h = s.sq h) ∧
    (∀ h, s.pauseWatches.cq h = s.cq h) ∧ (∀ h, s.pauseWatches.pres h = s.pres h) ∧
    (∀ h, s.pauseWatches.ctx h = s.ctx h) ∧ (∀ h, s.pauseWatches.job h = s.job h) ∧
    (∀ h, s.pauseWatches.restoreList h = s.restoreList h) :=
  ⟨State.pauseWatches_view State.pending (fun _ _ => rfl) (fun _ _ => rfl) s,
   State.pauseWatches_view State.ticks (fun _ _ => rfl) (fun _ _ => rfl) s,
   State.pauseWatches_view State.ctl (fun _ _ => rfl) (fun _ _ => rfl) s,
   State.pauseWatches_view State.sqs (fun _ _ => rfl) (fun _ _ => rfl) s,
   State.pauseWatches_view State.cqs (fun _ _ => rfl) (fun _ _ => rfl) s,
   State.pauseWatches_view State.arb (fun _ _ => rfl) (fun _ _ => rfl) s,
   State.pauseWatches_view State.lock (fun _ _ => rfl) (fun _ _ => rfl) s,
   State.pauseWatches_view State.ctxs (fun _ _ => rfl) (fun _ _ => rfl) s,
   State.pauseWatches_view State.nextChain (fun _ _ => rfl) (fun _ _ => rfl) s,
   State.pauseWatches_view State.adm (fun _ _ => rfl) (fun _ _ => rfl) s,
   State.pauseWatches_view State.presence (fun _ _ => rfl) (fun _ _ => rfl) s,
   State.pauseWatches_view State.pool (fun _ _ => rfl) (fun _ _ => rfl) s,
   State.pauseWatches_view State.jobs (fun _ _ => rfl) (fun _ _ => rfl) s,
   State.pauseWatches_view State.ev (fun _ _ => rfl) (fun _ _ => rfl) s,
   State.pauseWatches_view State.irq (fun _ _ => rfl) (fun _ _ => rfl) s,
   State.pauseWatches_view State.link (fun _ _ => rfl) (fun _ _ => rfl) s,
   fun h => State.pauseWatches_view (fun s => s.sq h) (fun _ _ => rfl) (fun _ _ => rfl) s,
   fun h => State.pauseWatches_view (fun s => s.cq h) (fun _ _ => rfl) (fun _ _ => rfl) s,
   fun h => State.pauseWatches_view (fun s => s.pres h) (fun _ _ => rfl) (fun _ _ => rfl) s,
   fun h => State.pauseWatches_view (fun s => s.ctx h) (fun _ _ => rfl) (fun _ _ => rfl) s,
   fun h => State.pauseWatches_view (fun s => s.job h) (fun _ _ => rfl) (fun _ _ => rfl) s,
   fun h => State.pauseWatches_view (fun s => s.restoreList h) (fun _ _ => rfl) (fun _ _ => rfl) s⟩

theorem State.rearmWatches_view {γ : Type} (view : State → γ) (hwatches : BlindWatches view)
    (s : State) (g : SegId) : view (s.rearmWatches g) = view s := by
  unfold State.rearmWatches
  try dsimp only
  (repeat' split) <;> first | simp only [State.mapWatches_view view hwatches, hwatches] | rfl
@[simp] theorem State.rearmWatches_frame (s : State) (g : SegId) :
    (s.rearmWatches g).pending = s.pending ∧ (s.rearmWatches g).ticks = s.ticks ∧
    (s.rearmWatches g).ctl = s.ctl ∧ (s.rearmWatches g).sqs = s.sqs ∧ (s.rearmWatches g).cqs = s.cqs ∧
    (s.rearmWatches g).arb = s.arb ∧ (s.rearmWatches g).lock = s.lock ∧ (s.rearmWatches g).ctxs = s.ctxs ∧
    (s.rearmWatches g).nextChain = s.nextChain ∧ (s.rearmWatches g).adm = s.adm ∧
    (s.rearmWatches g).segs = s.segs ∧ (s.rearmWatches g).presence = s.presence ∧
    (s.rearmWatches g).pool = s.pool ∧ (s.rearmWatches g).jobs = s.jobs ∧ (s.rearmWatches g).ev = s.ev ∧
    (s.rearmWatches g).irq = s.irq ∧ (s.rearmWatches g).link = s.link ∧
    (∀ h, (s.rearmWatches g).seg h = s.seg h) ∧ (∀ h, (s.rearmWatches g).sq h = s.sq h) ∧
    (∀ h, (s.rearmWatches g).cq h = s.cq h) ∧ (∀ h, (s.rearmWatches g).pres h = s.pres h) ∧
    (∀ h, (s.rearmWatches g).ctx h = s.ctx h) ∧ (∀ h, (s.rearmWatches g).job h = s.job h) ∧
    (∀ h, (s.rearmWatches g).restoreList h = s.restoreList h) :=
  ⟨State.rearmWatches_view State.pending (fun _ _ => rfl) s g,
   State.rearmWatches_view State.ticks (fun _ _ => rfl) s g,
   State.rearmWatches_view State.ctl (fun _ _ => rfl) s g,
   State.rearmWatches_view State.sqs (fun _ _ => rfl) s g,
   State.rearmWatches_view State.cqs (fun _ _ => rfl) s g,
   State.rearmWatches_view State.arb (fun _ _ => rfl) s g,
   State.rearmWatches_view State.lock (fun _ _ => rfl) s g,
   State.rearmWatches_view State.ctxs (fun _ _ => rfl) s g,
   State.rearmWatches_view State.nextChain (fun _ _ => rfl) s g,
   State.rearmWatches_view State.adm (fun _ _ => rfl) s g,
   State.rearmWatches_view State.segs (fun _ _ => rfl) s g,
   State.rearmWatches_view State.presence (fun _ _ => rfl) s g,
   State.rearmWatches_view State.pool (fun _ _ => rfl) s g,
   State.rearmWatches_view State.jobs (fun _ _ => rfl) s g,
   State.rearmWatches_view State.ev (fun _ _ => rfl) s g,
   State.rearmWatches_view State.irq (fun _ _ => rfl) s g,
   State.rearmWatches_view State.link (fun _ _ => rfl) s g,
   fun h => State.rearmWatches_view (fun s => s.seg h) (fun _ _ => rfl) s g,
   fun h => State.rearmWatches_view (fun s => s.sq h) (fun _ _ => rfl) s g,
   fun h => State.rearmWatches_view (fun s => s.cq h) (fun _ _ => rfl) s g,
   fun h => State.rearmWatches_view (fun s => s.pres h) (fun _ _ => rfl) s g,
   fun h => State.rearmWatches_view (fun s => s.ctx h) (fun _ _ => rfl) s g,
   fun h => State.rearmWatches_view (fun s => s.job h) (fun _ _ => rfl) s g,
   fun h => State.rearmWatches_view (fun s => s.restoreList h) (fun _ _ => rfl) s g⟩

theorem State.startReplay_view {γ : Type} (view : State → γ) (hsegs : BlindSegs view) (hpresence : BlindPresence view) (hjobs : BlindJobs view) (hev : BlindEv view)
    (s : State) (t : Tgt) (e : Event) : view (s.startReplay t e) = view s := by
  unfold State.startReplay
  try dsimp only
  (repeat' split) <;> first | simp only [State.setPres_view view hpresence, State.handEvent_view view hev, State.createJob_view view hsegs hjobs, hsegs, hpresence, hjobs, hev] | rfl
@[simp] theorem State.startReplay_frame (s : State) (t : Tgt) (e : Event) :
    (s.startReplay t e).pending = s.pending ∧ (s.startReplay t e).ticks = s.ticks ∧
    (s.startReplay t e).ctl = s.ctl ∧ (s.startReplay t e).sqs = s.sqs ∧ (s.startReplay t e).cqs = s.cqs ∧
    (s.startReplay t e).arb = s.arb ∧ (s.startReplay t e).lock = s.lock ∧ (s.startReplay t e).ctxs = s.ctxs ∧
    (s.startReplay t e).nextChain = s.nextChain ∧ (s.startReplay t e).adm = s.adm ∧
    (s.startReplay t e).watches = s.watches ∧ (s.startReplay t e).pool = s.pool ∧
    (s.startReplay t e).irq = s.irq ∧ (s.startReplay t e).link = s.link ∧
    (∀ h, (s.startReplay t e).sq h = s.sq h) ∧ (∀ h, (s.startReplay t e).cq h = s.cq h) ∧
    (∀ h, (s.startReplay t e).watch h = s.watch h) ∧ (∀ h, (s.startReplay t e).ctx h = s.ctx h) ∧
    (∀ h, (s.startReplay t e).restoreList h = s.restoreList h) :=
  ⟨State.startReplay_view State.pending (fun _ _ => rfl) (fun _ _ => rfl) (fun _ _ => rfl) (fun _ _ => rfl) s t e,
   State.startReplay_view State.ticks (fun _ _ => rfl) (fun _ _ => rfl) (fun _ _ => rfl) (fun _ _ => rfl) s t e,
   State.startReplay_view State.ctl (fun _ _ => rfl) (fun _ _ => rfl) (fun _ _ => rfl) (fun _ _ => rfl) s t e,
   State.startReplay_view State.sqs (fun _ _ => rfl) (fun _ _ => rfl) (fun _ _ => rfl) (fun _ _ => rfl) s t e,
   State.startReplay_view State.cqs (fun _ _ => rfl) (fun _ _ => rfl) (fun _ _ => rfl) (fun _ _ => rfl) s t e,
   State.startReplay_view State.arb (fun _ _ => rfl) (fun _ _ => rfl) (fun _ _ => rfl) (fun _ _ => rfl) s t e,
   State.startReplay_view State.lock (fun _ _ => rfl) (fun _ _ => rfl) (fun _ _ => rfl) (fun _ _ => rfl) s t e,
   State.startReplay_view State.ctxs (fun _ _ => rfl) (fun _ _ => rfl) (fun _ _ => rfl) (fun _ _ => rfl) s t e,
   State.startReplay_view State.nextChain (fun _ _ => rfl) (fun _ _ => rfl) (fun _ _ => rfl) (fun _ _ => rfl) s t e,
   State.startReplay_view State.adm (fun _ _ => rfl) (fun _ _ => rfl) (fun _ _ => rfl) (fun _ _ => rfl) s t e,
   State.startReplay_view State.watches (fun _ _ => rfl) (fun _ _ => rfl) (fun _ _ => rfl) (fun _ _ => rfl) s t e,
   State.startReplay_view State.pool (fun _ _ => rfl) (fun _ _ => rfl) (fun _ _ => rfl) (fun _ _ => rfl) s t e,
   State.startReplay_view State.irq (fun _ _ => rfl) (fun _ _ => rfl) (fun _ _ => rfl) (fun _ _ => rfl) s t e,
   State.startReplay_view State.link (fun _ _ => rfl) (fun _ _ => rfl) (fun _ _ => rfl) (fun _ _ => rfl) s t e,
   fun h => State.startReplay_view (fun s => s.sq h) (fun _ _ => rfl) (fun _ _ => rfl) (fun _ _ => rfl) (fun _ _ => rfl) s t e,
   fun h => State.startReplay_view (fun s => s.cq h) (fun _ _ => rfl) (fun _ _ => rfl) (fun _ _ => rfl) (fun _ _ => rfl) s t e,
   fun h => State.startReplay_view (fun s => s.watch h) (fun _ _ => rfl) (fun _ _ => rfl) (fun _ _ => rfl) (fun _ _ => rfl) s t e,
   fun h => State.startReplay_view (fun s => s.ctx h) (fun _ _ => rfl) (fun _ _ => rfl) (fun _ _ => rfl) (fun _ _ => rfl) s t e,
   fun h => State.startReplay_view (fun s => s.restoreList h) (fun _ _ => rfl) (fun _ _ => rfl) (fun _ _ => rfl) (fun _ _ => rfl) s t e⟩

theorem State.answer_view {γ : Type} (view : State → γ) (hsegs : BlindSegs view) (hpresence : BlindPresence view) (hjobs : BlindJobs view) (hev : BlindEv view)
    (s : State) (t : Tgt) (c : Source) : view (s.answer t c) = view s := by
  unfold State.answer
  try dsimp only
  (repeat' split) <;> first | simp only [State.setPres_view view hpresence, State.handEvent_view view hev, State.startReplay_view view hsegs hpresence hjobs hev, hsegs, hpresence, hjobs, hev] | rfl
@[simp] theorem State.answer_frame (s : State) (t : Tgt) (c : Source) :
    (s.answer t c).pending = s.pending ∧ (s.answer t c).ticks = s.ticks ∧ (s.answer t c).ctl = s.ctl ∧
    (s.answer t c).sqs = s.sqs ∧ (s.answer t c).cqs = s.cqs ∧ (s.answer t c).arb = s.arb ∧
    (s.answer t c).lock = s.lock ∧ (s.answer t c).ctxs = s.ctxs ∧ (s.answer t c).nextChain = s.nextChain ∧
    (s.answer t c).adm = s.adm ∧ (s.answer t c).watches = s.watches ∧ (s.answer t c).pool = s.pool ∧
    (s.answer t c).irq = s.irq ∧ (s.answer t c).link = s.link ∧ (∀ h, (s.answer t c).sq h = s.sq h) ∧
    (∀ h, (s.answer t c).cq h = s.cq h) ∧ (∀ h, (s.answer t c).watch h = s.watch h) ∧
    (∀ h, (s.answer t c).ctx h = s.ctx h) ∧ (∀ h, (s.answer t c).restoreList h = s.restoreList h) :=
  ⟨State.answer_view State.pending (fun _ _ => rfl) (fun _ _ => rfl) (fun _ _ => rfl) (fun _ _ => rfl) s t c,
   State.answer_view State.ticks (fun _ _ => rfl) (fun _ _ => rfl) (fun _ _ => rfl) (fun _ _ => rfl) s t c,
   State.answer_view State.ctl (fun _ _ => rfl) (fun _ _ => rfl) (fun _ _ => rfl) (fun _ _ => rfl) s t c,
   State.answer_view State.sqs (fun _ _ => rfl) (fun _ _ => rfl) (fun _ _ => rfl) (fun _ _ => rfl) s t c,
   State.answer_view State.cqs (fun _ _ => rfl) (fun _ _ => rfl) (fun _ _ => rfl) (fun _ _ => rfl) s t c,
   State.answer_view State.arb (fun _ _ => rfl) (fun _ _ => rfl) (fun _ _ => rfl) (fun _ _ => rfl) s t c,
   State.answer_view State.lock (fun _ _ => rfl) (fun _ _ => rfl) (fun _ _ => rfl) (fun _ _ => rfl) s t c,
   State.answer_view State.ctxs (fun _ _ => rfl) (fun _ _ => rfl) (fun _ _ => rfl) (fun _ _ => rfl) s t c,
   State.answer_view State.nextChain (fun _ _ => rfl) (fun _ _ => rfl) (fun _ _ => rfl) (fun _ _ => rfl) s t c,
   State.answer_view State.adm (fun _ _ => rfl) (fun _ _ => rfl) (fun _ _ => rfl) (fun _ _ => rfl) s t c,
   State.answer_view State.watches (fun _ _ => rfl) (fun _ _ => rfl) (fun _ _ => rfl) (fun _ _ => rfl) s t c,
   State.answer_view State.pool (fun _ _ => rfl) (fun _ _ => rfl) (fun _ _ => rfl) (fun _ _ => rfl) s t c,
   State.answer_view State.irq (fun _ _ => rfl) (fun _ _ => rfl) (fun _ _ => rfl) (fun _ _ => rfl) s t c,
   State.answer_view State.link (fun _ _ => rfl) (fun _ _ => rfl) (fun _ _ => rfl) (fun _ _ => rfl) s t c,
   fun h => State.answer_view (fun s => s.sq h) (fun _ _ => rfl) (fun _ _ => rfl) (fun _ _ => rfl) (fun _ _ => rfl) s t c,
   fun h => State.answer_view (fun s => s.cq h) (fun _ _ => rfl) (fun _ _ => rfl) (fun _ _ => rfl) (fun _ _ => rfl) s t c,
   fun h => State.answer_view (fun s => s.watch h) (fun _ _ => rfl) (fun _ _ => rfl) (fun _ _ => rfl) (fun _ _ => rfl) s t c,
   fun h => State.answer_view (fun s => s.ctx h) (fun _ _ => rfl) (fun _ _ => rfl) (fun _ _ => rfl) (fun _ _ => rfl) s t c,
   fun h => State.answer_view (fun s => s.restoreList h) (fun _ _ => rfl) (fun _ _ => rfl) (fun _ _ => rfl) (fun _ _ => rfl) s t c⟩

theorem State.goLost_view {γ : Type} (view : State → γ) (hsegs : BlindSegs view) (hpresence : BlindPresence view) (hwatches : BlindWatches view) (hjobs : BlindJobs view) (hev : BlindEv view)
    (s : State) (t : Tgt) (c : Source) : view (s.goLost t c) = view s := by
  unfold State.goLost
  try dsimp only
  (repeat' split) <;> first | simp only [State.setPres_view view hpresence, State.handEvent_view view hev, State.abandonJob_view view hsegs hjobs hev, State.lossNotice_view view hwatches, hsegs, hpresence, hwatches, hjobs, hev] | rfl
@[simp] theorem State.goLost_frame (s : State) (t : Tgt) (c : Source) :
    (s.goLost t c).pending = s.pending ∧ (s.goLost t c).ticks = s.ticks ∧ (s.goLost t c).ctl = s.ctl ∧
    (s.goLost t c).sqs = s.sqs ∧ (s.goLost t c).cqs = s.cqs ∧ (s.goLost t c).arb = s.arb ∧
    (s.goLost t c).lock = s.lock ∧ (s.goLost t c).ctxs = s.ctxs ∧ (s.goLost t c).nextChain = s.nextChain ∧
    (s.goLost t c).adm = s.adm ∧ (s.goLost t c).pool = s.pool ∧ (s.goLost t c).irq = s.irq ∧
    (s.goLost t c).link = s.link ∧ (∀ h, (s.goLost t c).sq h = s.sq h) ∧
    (∀ h, (s.goLost t c).cq h = s.cq h) ∧ (∀ h, (s.goLost t c).ctx h = s.ctx h) ∧
    (∀ h, (s.goLost t c).restoreList h = s.restoreList h) :=
  ⟨State.goLost_view State.pending (fun _ _ => rfl) (fun _ _ => rfl) (fun _ _ => rfl) (fun _ _ => rfl) (fun _ _ => rfl) s t c,
   State.goLost_view State.ticks (fun _ _ => rfl) (fun _ _ => rfl) (fun _ _ => rfl) (fun _ _ => rfl) (fun _ _ => rfl) s t c,
   State.goLost_view State.ctl (fun _ _ => rfl) (fun _ _ => rfl) (fun _ _ => rfl) (fun _ _ => rfl) (fun _ _ => rfl) s t c,
   State.goLost_view State.sqs (fun _ _ => rfl) (fun _ _ => rfl) (fun _ _ => rfl) (fun _ _ => rfl) (fun _ _ => rfl) s t c,
   State.goLost_view State.cqs (fun _ _ => rfl) (fun _ _ => rfl) (fun _ _ => rfl) (fun _ _ => rfl) (fun _ _ => rfl) s t c,
   State.goLost_view State.arb (fun _ _ => rfl) (fun _ _ => rfl) (fun _ _ => rfl) (fun _ _ => rfl) (fun _ _ => rfl) s t c,
   State.goLost_view State.lock (fun _ _ => rfl) (fun _ _ => rfl) (fun _ _ => rfl) (fun _ _ => rfl) (fun _ _ => rfl) s t c,
   State.goLost_view State.ctxs (fun _ _ => rfl) (fun _ _ => rfl) (fun _ _ => rfl) (fun _ _ => rfl) (fun _ _ => rfl) s t c,
   State.goLost_view State.nextChain (fun _ _ => rfl) (fun _ _ => rfl) (fun _ _ => rfl) (fun _ _ => rfl) (fun _ _ => rfl) s t c,
   State.goLost_view State.adm (fun _ _ => rfl) (fun _ _ => rfl) (fun _ _ => rfl) (fun _ _ => rfl) (fun _ _ => rfl) s t c,
   State.goLost_view State.pool (fun _ _ => rfl) (fun _ _ => rfl) (fun _ _ => rfl) (fun _ _ => rfl) (fun _ _ => rfl) s t c,
   State.goLost_view State.irq (fun _ _ => rfl) (fun _ _ => rfl) (fun _ _ => rfl) (fun _ _ => rfl) (fun _ _ => rfl) s t c,
   State.goLost_view State.link (fun _ _ => rfl) (fun _ _ => rfl) (fun _ _ => rfl) (fun _ _ => rfl) (fun _ _ => rfl) s t c,
   fun h => State.goLost_view (fun s => s.sq h) (fun _ _ => rfl) (fun _ _ => rfl) (fun _ _ => rfl) (fun _ _ => rfl) (fun _ _ => rfl) s t c,
   fun h => State.goLost_view (fun s => s.cq h) (fun _ _ => rfl) (fun _ _ => rfl) (fun _ _ => rfl) (fun _ _ => rfl) (fun _ _ => rfl) s t c,
   fun h => State.goLost_view (fun s => s.ctx h) (fun _ _ => rfl) (fun _ _ => rfl) (fun _ _ => rfl) (fun _ _ => rfl) (fun _ _ => rfl) s t c,
   fun h => State.goLost_view (fun s => s.restoreList h) (fun _ _ => rfl) (fun _ _ => rfl) (fun _ _ => rfl) (fun _ _ => rfl) (fun _ _ => rfl) s t c⟩

theorem State.silence_view {γ : Type} (view : State → γ) (hsegs : BlindSegs view) (hpresence : BlindPresence view) (hwatches : BlindWatches view) (hjobs : BlindJobs view) (hev : BlindEv view)
    (s : State) (t : Tgt) (c : Source) : view (s.silence t c) = view s := by
  unfold State.silence
  try dsimp only
  (repeat' split) <;> first | simp only [State.setPres_view view hpresence, State.goLost_view view hsegs hpresence hwatches hjobs hev, hsegs, hpresence, hwatches, hjobs, hev] | rfl
@[simp] theorem State.silence_frame (s : State) (t : Tgt) (c : Source) :
    (s.silence t c).pending = s.pending ∧ (s.silence t c).ticks = s.ticks ∧ (s.silence t c).ctl = s.ctl ∧
    (s.silence t c).sqs = s.sqs ∧ (s.silence t c).cqs = s.cqs ∧ (s.silence t c).arb = s.arb ∧
    (s.silence t c).lock = s.lock ∧ (s.silence t c).ctxs = s.ctxs ∧ (s.silence t c).nextChain = s.nextChain ∧
    (s.silence t c).adm = s.adm ∧ (s.silence t c).pool = s.pool ∧ (s.silence t c).irq = s.irq ∧
    (s.silence t c).link = s.link ∧ (∀ h, (s.silence t c).sq h = s.sq h) ∧
    (∀ h, (s.silence t c).cq h = s.cq h) ∧ (∀ h, (s.silence t c).ctx h = s.ctx h) ∧
    (∀ h, (s.silence t c).restoreList h = s.restoreList h) :=
  ⟨State.silence_view State.pending (fun _ _ => rfl) (fun _ _ => rfl) (fun _ _ => rfl) (fun _ _ => rfl) (fun _ _ => rfl) s t c,
   State.silence_view State.ticks (fun _ _ => rfl) (fun _ _ => rfl) (fun _ _ => rfl) (fun _ _ => rfl) (fun _ _ => rfl) s t c,
   State.silence_view State.ctl (fun _ _ => rfl) (fun _ _ => rfl) (fun _ _ => rfl) (fun _ _ => rfl) (fun _ _ => rfl) s t c,
   State.silence_view State.sqs (fun _ _ => rfl) (fun _ _ => rfl) (fun _ _ => rfl) (fun _ _ => rfl) (fun _ _ => rfl) s t c,
   State.silence_view State.cqs (fun _ _ => rfl) (fun _ _ => rfl) (fun _ _ => rfl) (fun _ _ => rfl) (fun _ _ => rfl) s t c,
   State.silence_view State.arb (fun _ _ => rfl) (fun _ _ => rfl) (fun _ _ => rfl) (fun _ _ => rfl) (fun _ _ => rfl) s t c,
   State.silence_view State.lock (fun _ _ => rfl) (fun _ _ => rfl) (fun _ _ => rfl) (fun _ _ => rfl) (fun _ _ => rfl) s t c,
   State.silence_view State.ctxs (fun _ _ => rfl) (fun _ _ => rfl) (fun _ _ => rfl) (fun _ _ => rfl) (fun _ _ => rfl) s t c,
   State.silence_view State.nextChain (fun _ _ => rfl) (fun _ _ => rfl) (fun _ _ => rfl) (fun _ _ => rfl) (fun _ _ => rfl) s t c,
   State.silence_view State.adm (fun _ _ => rfl) (fun _ _ => rfl) (fun _ _ => rfl) (fun _ _ => rfl) (fun _ _ => rfl) s t c,
   State.silence_view State.pool (fun _ _ => rfl) (fun _ _ => rfl) (fun _ _ => rfl) (fun _ _ => rfl) (fun _ _ => rfl) s t c,
   State.silence_view State.irq (fun _ _ => rfl) (fun _ _ => rfl) (fun _ _ => rfl) (fun _ _ => rfl) (fun _ _ => rfl) s t c,
   State.silence_view State.link (fun _ _ => rfl) (fun _ _ => rfl) (fun _ _ => rfl) (fun _ _ => rfl) (fun _ _ => rfl) s t c,
   fun h => State.silence_view (fun s => s.sq h) (fun _ _ => rfl) (fun _ _ => rfl) (fun _ _ => rfl) (fun _ _ => rfl) (fun _ _ => rfl) s t c,
   fun h => State.silence_view (fun s => s.cq h) (fun _ _ => rfl) (fun _ _ => rfl) (fun _ _ => rfl) (fun _ _ => rfl) (fun _ _ => rfl) s t c,
   fun h => State.silence_view (fun s => s.ctx h) (fun _ _ => rfl) (fun _ _ => rfl) (fun _ _ => rfl) (fun _ _ => rfl) (fun _ _ => rfl) s t c,
   fun h => State.silence_view (fun s => s.restoreList h) (fun _ _ => rfl) (fun _ _ => rfl) (fun _ _ => rfl) (fun _ _ => rfl) (fun _ _ => rfl) s t c⟩

theorem State.report_view {γ : Type} (view : State → γ) (hsegs : BlindSegs view) (hpresence : BlindPresence view) (hwatches : BlindWatches view) (hjobs : BlindJobs view) (hev : BlindEv view)
    (s : State) (t : Tgt) (c : Source) (a : Attempt) : view (s.report t c a) = view s := by
  unfold State.report
  try dsimp only
  (repeat' split) <;> first | simp only [State.answer_view view hsegs hpresence hjobs hev, State.silence_view view hsegs hpresence hwatches hjobs hev, hsegs, hpresence, hwatches, hjobs, hev] | rfl
@[simp] theorem State.report_frame (s : State) (t : Tgt) (c : Source) (a : Attempt) :
    (s.report t c a).pending = s.pending ∧ (s.report t c a).ticks = s.ticks ∧ (s.report t c a).ctl = s.ctl ∧
    (s.report t c a).sqs = s.sqs ∧ (s.report t c a).cqs = s.cqs ∧ (s.report t c a).arb = s.arb ∧
    (s.report t c a).lock = s.lock ∧ (s.report t c a).ctxs = s.ctxs ∧
    (s.report t c a).nextChain = s.nextChain ∧ (s.report t c a).adm = s.adm ∧
    (s.report t c a).pool = s.pool ∧ (s.report t c a).irq = s.irq ∧ (s.report t c a).link = s.link ∧
    (∀ h, (s.report t c a).sq h = s.sq h) ∧ (∀ h, (s.report t c a).cq h = s.cq h) ∧
    (∀ h, (s.report t c a).ctx h = s.ctx h) ∧ (∀ h, (s.report t c a).restoreList h = s.restoreList h) :=
  ⟨State.report_view State.pending (fun _ _ => rfl) (fun _ _ => rfl) (fun _ _ => rfl) (fun _ _ => rfl) (fun _ _ => rfl) s t c a,
   State.report_view State.ticks (fun _ _ => rfl) (fun _ _ => rfl) (fun _ _ => rfl) (fun _ _ => rfl) (fun _ _ => rfl) s t c a,
   State.report_view State.ctl (fun _ _ => rfl) (fun _ _ => rfl) (fun _ _ => rfl) (fun _ _ => rfl) (fun _ _ => rfl) s t c a,
   State.report_view State.sqs (fun _ _ => rfl) (fun _ _ => rfl) (fun _ _ => rfl) (fun _ _ => rfl) (fun _ _ => rfl) s t c a,
   State.report_view State.cqs (fun _ _ => rfl) (fun _ _ => rfl) (fun _ _ => rfl) (fun _ _ => rfl) (fun _ _ => rfl) s t c a,
   State.report_view State.arb (fun _ _ => rfl) (fun _ _ => rfl) (fun _ _ => rfl) (fun _ _ => rfl) (fun _ _ => rfl) s t c a,
   State.report_view State.lock (fun _ _ => rfl) (fun _ _ => rfl) (fun _ _ => rfl) (fun _ _ => rfl) (fun _ _ => rfl) s t c a,
   State.report_view State.ctxs (fun _ _ => rfl) (fun _ _ => rfl) (fun _ _ => rfl) (fun _ _ => rfl) (fun _ _ => rfl) s t c a,
   State.report_view State.nextChain (fun _ _ => rfl) (fun _ _ => rfl) (fun _ _ => rfl) (fun _ _ => rfl) (fun _ _ => rfl) s t c a,
   State.report_view State.adm (fun _ _ => rfl) (fun _ _ => rfl) (fun _ _ => rfl) (fun _ _ => rfl) (fun _ _ => rfl) s t c a,
   State.report_view State.pool (fun _ _ => rfl) (fun _ _ => rfl) (fun _ _ => rfl) (fun _ _ => rfl) (fun _ _ => rfl) s t c a,
   State.report_view State.irq (fun _ _ => rfl) (fun _ _ => rfl) (fun _ _ => rfl) (fun _ _ => rfl) (fun _ _ => rfl) s t c a,
   State.report_view State.link (fun _ _ => rfl) (fun _ _ => rfl) (fun _ _ => rfl) (fun _ _ => rfl) (fun _ _ => rfl) s t c a,
   fun h => State.report_view (fun s => s.sq h) (fun _ _ => rfl) (fun _ _ => rfl) (fun _ _ => rfl) (fun _ _ => rfl) (fun _ _ => rfl) s t c a,
   fun h => State.report_view (fun s => s.cq h) (fun _ _ => rfl) (fun _ _ => rfl) (fun _ _ => rfl) (fun _ _ => rfl) (fun _ _ => rfl) s t c a,
   fun h => State.report_view (fun s => s.ctx h) (fun _ _ => rfl) (fun _ _ => rfl) (fun _ _ => rfl) (fun _ _ => rfl) (fun _ _ => rfl) s t c a,
   fun h => State.report_view (fun s => s.restoreList h) (fun _ _ => rfl) (fun _ _ => rfl) (fun _ _ => rfl) (fun _ _ => rfl) (fun _ _ => rfl) s t c a⟩

theorem State.reinitRequest_view {γ : Type} (view : State → γ) (hsegs : BlindSegs view) (hpresence : BlindPresence view) (hjobs : BlindJobs view) (hev : BlindEv view)
    (s : State) (t : Tgt) (w : WatchId) : view (s.reinitRequest t w) = view s := by
  unfold State.reinitRequest
  try dsimp only
  (repeat' split) <;> first | simp only [State.handEvent_view view hev, State.startReplay_view view hsegs hpresence hjobs hev, hsegs, hpresence, hjobs, hev] | rfl
@[simp] theorem State.reinitRequest_frame (s : State) (t : Tgt) (w : WatchId) :
    (s.reinitRequest t w).pending = s.pending ∧ (s.reinitRequest t w).ticks = s.ticks ∧
    (s.reinitRequest t w).ctl = s.ctl ∧ (s.reinitRequest t w).sqs = s.sqs ∧
    (s.reinitRequest t w).cqs = s.cqs ∧ (s.reinitRequest t w).arb = s.arb ∧
    (s.reinitRequest t w).lock = s.lock ∧ (s.reinitRequest t w).ctxs = s.ctxs ∧
    (s.reinitRequest t w).nextChain = s.nextChain ∧ (s.reinitRequest t w).adm = s.adm ∧
    (s.reinitRequest t w).watches = s.watches ∧ (s.reinitRequest t w).pool = s.pool ∧
    (s.reinitRequest t w).irq = s.irq ∧ (s.reinitRequest t w).link = s.link ∧
    (∀ h, (s.reinitRequest t w).sq h = s.sq h) ∧ (∀ h, (s.reinitRequest t w).cq h = s.cq h) ∧
    (∀ h, (s.reinitRequest t w).watch h = s.watch h) ∧ (∀ h, (s.reinitRequest t w).ctx h = s.ctx h) ∧
    (∀ h, (s.reinitRequest t w).restoreList h = s.restoreList h) :=
  ⟨State.reinitRequest_view State.pending (fun _ _ => rfl) (fun _ _ => rfl) (fun _ _ => rfl) (fun _ _ => rfl) s t w,
   State.reinitRequest_view State.ticks (fun _ _ => rfl) (fun _ _ => rfl) (fun _ _ => rfl) (fun _ _ => rfl) s t w,
   State.reinitRequest_view State.ctl (fun _ _ => rfl) (fun _ _ => rfl) (fun _ _ => rfl) (fun _ _ => rfl) s t w,
   State.reinitRequest_view State.sqs (fun _ _ => rfl) (fun _ _ => rfl) (fun _ _ => rfl) (fun _ _ => rfl) s t w,
   State.reinitRequest_view State.cqs (fun _ _ => rfl) (fun _ _ => rfl) (fun _ _ => rfl) (fun _ _ => rfl) s t w,
   State.reinitRequest_view State.arb (fun _ _ => rfl) (fun _ _ => rfl) (fun _ _ => rfl) (fun _ _ => rfl) s t w,
   State.reinitRequest_view State.lock (fun _ _ => rfl) (fun _ _ => rfl) (fun _ _ => rfl) (fun _ _ => rfl) s t w,
   State.reinitRequest_view State.ctxs (fun _ _ => rfl) (fun _ _ => rfl) (fun _ _ => rfl) (fun _ _ => rfl) s t w,
   State.reinitRequest_view State.nextChain (fun _ _ => rfl) (fun _ _ => rfl) (fun _ _ => rfl) (fun _ _ => rfl) s t w,
   State.reinitRequest_view State.adm (fun _ _ => rfl) (fun _ _ => rfl) (fun _ _ => rfl) (fun _ _ => rfl) s t w,
   State.reinitRequest_view State.watches (fun _ _ => rfl) (fun _ _ => rfl) (fun _ _ => rfl) (fun _ _ => rfl) s t w,
   State.reinitRequest_view State.pool (fun _ _ => rfl) (fun _ _ => rfl) (fun _ _ => rfl) (fun _ _ => rfl) s t w,
   State.reinitRequest_view State.irq (fun _ _ => rfl) (fun _ _ => rfl) (fun _ _ => rfl) (fun _ _ => rfl) s t w,
   State.reinitRequest_view State.link (fun _ _ => rfl) (fun _ _ => rfl) (fun _ _ => rfl) (fun _ _ => rfl) s t w,
   fun h => State.reinitRequest_view (fun s => s.sq h) (fun _ _ => rfl) (fun _ _ => rfl) (fun _ _ => rfl) (fun _ _ => rfl) s t w,
   fun h => State.reinitRequest_view (fun s => s.cq h) (fun _ _ => rfl) (fun _ _ => rfl) (fun _ _ => rfl) (fun _ _ => rfl) s t w,
   fun h => State.reinitRequest_view (fun s => s.watch h) (fun _ _ => rfl) (fun _ _ => rfl) (fun _ _ => rfl) (fun _ _ => rfl) s t w,
   fun h => State.reinitRequest_view (fun s => s.ctx h) (fun _ _ => rfl) (fun _ _ => rfl) (fun _ _ => rfl) (fun _ _ => rfl) s t w,
   fun h => State.reinitRequest_view (fun s => s.restoreList h) (fun _ _ => rfl) (fun _ _ => rfl) (fun _ _ => rfl) (fun _ _ => rfl) s t w⟩

theorem State.giveUp_view {γ : Type} (view : State → γ) (hsegs : BlindSegs view) (hpresence : BlindPresence view) (hwatches : BlindWatches view) (hjobs : BlindJobs view) (hev : BlindEv view)
    (s : State) (c : AbandonCause) (t : Tgt) : view (State.giveUp c s t) = view s := by
  unfold State.giveUp
  try dsimp only
  (repeat' split) <;> first | simp only [State.setPres_view view hpresence, State.abandonJob_view view hsegs hjobs hev, State.lossNotice_view view hwatches, hsegs, hpresence, hwatches, hjobs, hev] | rfl
@[simp] theorem State.giveUp_frame (s : State) (c : AbandonCause) (t : Tgt) :
    (State.giveUp c s t).pending = s.pending ∧ (State.giveUp c s t).ticks = s.ticks ∧
    (State.giveUp c s t).ctl = s.ctl ∧ (State.giveUp c s t).sqs = s.sqs ∧ (State.giveUp c s t).cqs = s.cqs ∧
    (State.giveUp c s t).arb = s.arb ∧ (State.giveUp c s t).lock = s.lock ∧
    (State.giveUp c s t).ctxs = s.ctxs ∧ (State.giveUp c s t).nextChain = s.nextChain ∧
    (State.giveUp c s t).adm = s.adm ∧ (State.giveUp c s t).pool = s.pool ∧
    (State.giveUp c s t).irq = s.irq ∧ (State.giveUp c s t).link = s.link ∧
    (∀ h, (State.giveUp c s t).sq h = s.sq h) ∧ (∀ h, (State.giveUp c s t).cq h = s.cq h) ∧
    (∀ h, (State.giveUp c s t).ctx h = s.ctx h) ∧
    (∀ h, (State.giveUp c s t).restoreList h = s.restoreList h) :=
  ⟨State.giveUp_view State.pending (fun _ _ => rfl) (fun _ _ => rfl) (fun _ _ => rfl) (fun _ _ => rfl) (fun _ _ => rfl) s c t,
   State.giveUp_view State.ticks (fun _ _ => rfl) (fun _ _ => rfl) (fun _ _ => rfl) (fun _ _ => rfl) (fun _ _ => rfl) s c t,
   State.giveUp_view State.ctl (fun _ _ => rfl) (fun _ _ => rfl) (fun _ _ => rfl) (fun _ _ => rfl) (fun _ _ => rfl) s c t,
   State.giveUp_view State.sqs (fun _ _ => rfl) (fun _ _ => rfl) (fun _ _ => rfl) (fun _ _ => rfl) (fun _ _ => rfl) s c t,
   State.giveUp_view State.cqs (fun _ _ => rfl) (fun _ _ => rfl) (fun _ _ => rfl) (fun _ _ => rfl) (fun _ _ => rfl) s c t,
   State.giveUp_view State.arb (fun _ _ => rfl) (fun _ _ => rfl) (fun _ _ => rfl) (fun _ _ => rfl) (fun _ _ => rfl) s c t,
   State.giveUp_view State.lock (fun _ _ => rfl) (fun _ _ => rfl) (fun _ _ => rfl) (fun _ _ => rfl) (fun _ _ => rfl) s c t,
   State.giveUp_view State.ctxs (fun _ _ => rfl) (fun _ _ => rfl) (fun _ _ => rfl) (fun _ _ => rfl) (fun _ _ => rfl) s c t,
   State.giveUp_view State.nextChain (fun _ _ => rfl) (fun _ _ => rfl) (fun _ _ => rfl) (fun _ _ => rfl) (fun _ _ => rfl) s c t,
   State.giveUp_view State.adm (fun _ _ => rfl) (fun _ _ => rfl) (fun _ _ => rfl) (fun _ _ => rfl) (fun _ _ => rfl) s c t,
   State.giveUp_view State.pool (fun _ _ => rfl) (fun _ _ => rfl) (fun _ _ => rfl) (fun _ _ => rfl) (fun _ _ => rfl) s c t,
   State.giveUp_view State.irq (fun _ _ => rfl) (fun _ _ => rfl) (fun _ _ => rfl) (fun _ _ => rfl) (fun _ _ => rfl) s c t,
   State.giveUp_view State.link (fun _ _ => rfl) (fun _ _ => rfl) (fun _ _ => rfl) (fun _ _ => rfl) (fun _ _ => rfl) s c t,
   fun h => State.giveUp_view (fun s => s.sq h) (fun _ _ => rfl) (fun _ _ => rfl) (fun _ _ => rfl) (fun _ _ => rfl) (fun _ _ => rfl) s c t,
   fun h => State.giveUp_view (fun s => s.cq h) (fun _ _ => rfl) (fun _ _ => rfl) (fun _ _ => rfl) (fun _ _ => rfl) (fun _ _ => rfl) s c t,
   fun h => State.giveUp_view (fun s => s.ctx h) (fun _ _ => rfl) (fun _ _ => rfl) (fun _ _ => rfl) (fun _ _ => rfl) (fun _ _ => rfl) s c t,
   fun h => State.giveUp_view (fun s => s.restoreList h) (fun _ _ => rfl) (fun _ _ => rfl) (fun _ _ => rfl) (fun _ _ => rfl) (fun _ _ => rfl) s c t⟩

theorem State.giveUpAll_view {γ : Type} (view : State → γ) (hsegs : BlindSegs view) (hpresence : BlindPresence view) (hwatches : BlindWatches view) (hjobs : BlindJobs view) (hev : BlindEv view)
    (s : State) (g : SegId) (c : AbandonCause) : view (s.giveUpAll g c) = view s := by
  unfold State.giveUpAll
  try dsimp only
  (repeat' split) <;>
    simp (disch := first | (intros; simp only [State.giveUp_view view hsegs hpresence hwatches hjobs hev, hsegs, hpresence, hwatches, hjobs, hev])) only [foldl_same view, State.giveUp_view view hsegs hpresence hwatches hjobs hev, hsegs, hpresence, hwatches, hjobs, hev]
@[simp] theorem State.giveUpAll_frame (s : State) (g : SegId) (c : AbandonCause) :
    (s.giveUpAll g c).pending = s.pending ∧ (s.giveUpAll g c).ticks = s.ticks ∧
    (s.giveUpAll g c).ctl = s.ctl ∧ (s.giveUpAll g c).sqs = s.sqs ∧ (s.giveUpAll g c).cqs = s.cqs ∧
    (s.giveUpAll g c).arb = s.arb ∧ (s.giveUpAll g c).lock = s.lock ∧ (s.giveUpAll g c).ctxs = s.ctxs ∧
    (s.giveUpAll g c).nextChain = s.nextChain ∧ (s.giveUpAll g c).adm = s.adm ∧
    (s.giveUpAll g c).pool = s.pool ∧ (s.giveUpAll g c).irq = s.irq ∧ (s.giveUpAll g c).link = s.link ∧
    (∀ h, (s.giveUpAll g c).sq h = s.sq h) ∧ (∀ h, (s.giveUpAll g c).cq h = s.cq h) ∧
    (∀ h, (s.giveUpAll g c).ctx h = s.ctx h) ∧ (∀ h, (s.giveUpAll g c).restoreList h = s.restoreList h) :=
  ⟨State.giveUpAll_view State.pending (fun _ _ => rfl) (fun _ _ => rfl) (fun _ _ => rfl) (fun _ _ => rfl) (fun _ _ => rfl) s g c,
   State.giveUpAll_view State.ticks (fun _ _ => rfl) (fun _ _ => rfl) (fun _ _ => rfl) (fun _ _ => rfl) (fun _ _ => rfl) s g c,
   State.giveUpAll_view State.ctl (fun _ _ => rfl) (fun _ _ => rfl) (fun _ _ => rfl) (fun _ _ => rfl) (fun _ _ => rfl) s g c,
   State.giveUpAll_view State.sqs (fun _ _ => rfl) (fun _ _ => rfl) (fun _ _ => rfl) (fun _ _ => rfl) (fun _ _ => rfl) s g c,
   State.giveUpAll_view State.cqs (fun _ _ => rfl) (fun _ _ => rfl) (fun _ _ => rfl) (fun _ _ => rfl) (fun _ _ => rfl) s g c,
   State.giveUpAll_view State.arb (fun _ _ => rfl) (fun _ _ => rfl) (fun _ _ => rfl) (fun _ _ => rfl) (fun _ _ => rfl) s g c,
   State.giveUpAll_view State.lock (fun _ _ => rfl) (fun _ _ => rfl) (fun _ _ => rfl) (fun _ _ => rfl) (fun _ _ => rfl) s g c,
   State.giveUpAll_view State.ctxs (fun _ _ => rfl) (fun _ _ => rfl) (fun _ _ => rfl) (fun _ _ => rfl) (fun _ _ => rfl) s g c,
   State.giveUpAll_view State.nextChain (fun _ _ => rfl) (fun _ _ => rfl) (fun _ _ => rfl) (fun _ _ => rfl) (fun _ _ => rfl) s g c,
   State.giveUpAll_view State.adm (fun _ _ => rfl) (fun _ _ => rfl) (fun _ _ => rfl) (fun _ _ => rfl) (fun _ _ => rfl) s g c,
   State.giveUpAll_view State.pool (fun _ _ => rfl) (fun _ _ => rfl) (fun _ _ => rfl) (fun _ _ => rfl) (fun _ _ => rfl) s g c,
   State.giveUpAll_view State.irq (fun _ _ => rfl) (fun _ _ => rfl) (fun _ _ => rfl) (fun _ _ => rfl) (fun _ _ => rfl) s g c,
   State.giveUpAll_view State.link (fun _ _ => rfl) (fun _ _ => rfl) (fun _ _ => rfl) (fun _ _ => rfl) (fun _ _ => rfl) s g c,
   fun h => State.giveUpAll_view (fun s => s.sq h) (fun _ _ => rfl) (fun _ _ => rfl) (fun _ _ => rfl) (fun _ _ => rfl) (fun _ _ => rfl) s g c,
   fun h => State.giveUpAll_view (fun s => s.cq h) (fun _ _ => rfl) (fun _ _ => rfl) (fun _ _ => rfl) (fun _ _ => rfl) (fun _ _ => rfl) s g c,
   fun h => State.giveUpAll_view (fun s => s.ctx h) (fun _ _ => rfl) (fun _ _ => rfl) (fun _ _ => rfl) (fun _ _ => rfl) (fun _ _ => rfl) s g c,
   fun h => State.giveUpAll_view (fun s => s.restoreList h) (fun _ _ => rfl) (fun _ _ => rfl) (fun _ _ => rfl) (fun _ _ => rfl) (fun _ _ => rfl) s g c⟩

theorem State.respond_view {γ : Type} (view : State → γ) (hsegs : BlindSegs view) (hwatches : BlindWatches view)
    (s : State) (w : WatchId) : view (s.respond w) = view s := by
  unfold State.respond
  try dsimp only
  (repeat' split) <;> first | simp only [State.updSeg_view view hsegs, State.setWatch_view view hwatches, hsegs, hwatches] | rfl
@[simp] theorem State.respond_frame (s : State) (w : WatchId) :
    (s.respond w).pending = s.pending ∧ (s.respond w).ticks = s.ticks ∧ (s.respond w).ctl = s.ctl ∧
    (s.respond w).sqs = s.sqs ∧ (s.respond w).cqs = s.cqs ∧ (s.respond w).arb = s.arb ∧
    (s.respond w).lock = s.lock ∧ (s.respond w).ctxs = s.ctxs ∧ (s.respond w).nextChain = s.nextChain ∧
    (s.respond w).adm = s.adm ∧ (s.respond w).presence = s.presence ∧ (s.respond w).pool = s.pool ∧
    (s.respond w).jobs = s.jobs ∧ (s.respond w).ev = s.ev ∧ (s.respond w).irq = s.irq ∧
    (s.respond w).link = s.link ∧ (∀ h, (s.respond w).sq h = s.sq h) ∧ (∀ h, (s.respond w).cq h = s.cq h) ∧
    (∀ h, (s.respond w).pres h = s.pres h) ∧ (∀ h, (s.respond w).ctx h = s.ctx h) ∧
    (∀ h, (s.respond w).job h = s.job h) ∧ (∀ h, (s.respond w).restoreList h = s.restoreList h) :=
  ⟨State.respond_view State.pending (fun _ _ => rfl) (fun _ _ => rfl) s w,
   State.respond_view State.ticks (fun _ _ => rfl) (fun _ _ => rfl) s w,
   State.respond_view State.ctl (fun _ _ => rfl) (fun _ _ => rfl) s w,
   State.respond_view State.sqs (fun _ _ => rfl) (fun _ _ => rfl) s w,
   State.respond_view State.cqs (fun _ _ => rfl) (fun _ _ => rfl) s w,
   State.respond_view State.arb (fun _ _ => rfl) (fun _ _ => rfl) s w,
   State.respond_view State.lock (fun _ _ => rfl) (fun _ _ => rfl) s w,
   State.respond_view State.ctxs (fun _ _ => rfl) (fun _ _ => rfl) s w,
   State.respond_view State.nextChain (fun _ _ => rfl) (fun _ _ => rfl) s w,
   State.respond_view State.adm (fun _ _ => rfl) (fun _ _ => rfl) s w,
   State.respond_view State.presence (fun _ _ => rfl) (fun _ _ => rfl) s w,
   State.respond_view State.pool (fun _ _ => rfl) (fun _ _ => rfl) s w,
   State.respond_view State.jobs (fun _ _ => rfl) (fun _ _ => rfl) s w,
   State.respond_view State.ev (fun _ _ => rfl) (fun _ _ => rfl) s w,
   State.respond_view State.irq (fun _ _ => rfl) (fun _ _ => rfl) s w,
   State.respond_view State.link (fun _ _ => rfl) (fun _ _ => rfl) s w,
   fun h => State.respond_view (fun s => s.sq h) (fun _ _ => rfl) (fun _ _ => rfl) s w,
   fun h => State.respond_view (fun s => s.cq h) (fun _ _ => rfl) (fun _ _ => rfl) s w,
   fun h => State.respond_view (fun s => s.pres h) (fun _ _ => rfl) (fun _ _ => rfl) s w,
   fun h => State.respond_view (fun s => s.ctx h) (fun _ _ => rfl) (fun _ _ => rfl) s w,
   fun h => State.respond_view (fun s => s.job h) (fun _ _ => rfl) (fun _ _ => rfl) s w,
   fun h => State.respond_view (fun s => s.restoreList h) (fun _ _ => rfl) (fun _ _ => rfl) s w⟩

theorem State.fire_view {γ : Type} (view : State → γ) (hsegs : BlindSegs view) (hpresence : BlindPresence view) (hwatches : BlindWatches view) (hjobs : BlindJobs view) (hev : BlindEv view)
    (s : State) (w : WatchId) (c : WatchCfg) (p : Option Half) (n : Half) : view (s.fire w c p n) = view s := by
  unfold State.fire
  try dsimp only
  (repeat' split) <;> first | simp only [State.updWatch_view view hwatches, State.handReport_view view hwatches hev, State.report_view view hsegs hpresence hwatches hjobs hev, State.reinitRequest_view view hsegs hpresence hjobs hev, State.respond_view view hsegs hwatches, hsegs, hpresence, hwatches, hjobs, hev] | rfl
@[simp] theorem State.fire_frame (s : State) (w : WatchId) (c : WatchCfg) (p : Option Half) (n : Half) :
    (s.fire w c p n).pending = s.pending ∧ (s.fire w c p n).ticks = s.ticks ∧ (s.fire w c p n).ctl = s.ctl ∧
    (s.fire w c p n).sqs = s.sqs ∧ (s.fire w c p n).cqs = s.cqs ∧ (s.fire w c p n).arb = s.arb ∧
    (s.fire w c p n).lock = s.lock ∧ (s.fire w c p n).ctxs = s.ctxs ∧
    (s.fire w c p n).nextChain = s.nextChain ∧ (s.fire w c p n).adm = s.adm ∧
    (s.fire w c p n).pool = s.pool ∧ (s.fire w c p n).irq = s.irq ∧ (s.fire w c p n).link = s.link ∧
    (∀ h, (s.fire w c p n).sq h = s.sq h) ∧ (∀ h, (s.fire w c p n).cq h = s.cq h) ∧
    (∀ h, (s.fire w c p n).ctx h = s.ctx h) ∧ (∀ h, (s.fire w c p n).restoreList h = s.restoreList h) :=
  ⟨State.fire_view State.pending (fun _ _ => rfl) (fun _ _ => rfl) (fun _ _ => rfl) (fun _ _ => rfl) (fun _ _ => rfl) s w c p n,
   State.fire_view State.ticks (fun _ _ => rfl) (fun _ _ => rfl) (fun _ _ => rfl) (fun _ _ => rfl) (fun _ _ => rfl) s w c p n,
   State.fire_view State.ctl (fun _ _ => rfl) (fun _ _ => rfl) (fun _ _ => rfl) (fun _ _ => rfl) (fun _ _ => rfl) s w c p n,
   State.fire_view State.sqs (fun _ _ => rfl) (fun _ _ => rfl) (fun _ _ => rfl) (fun _ _ => rfl) (fun _ _ => rfl) s w c p n,
   State.fire_view State.cqs (fun _ _ => rfl) (fun _ _ => rfl) (fun _ _ => rfl) (fun _ _ => rfl) (fun _ _ => rfl) s w c p n,
   State.fire_view State.arb (fun _ _ => rfl) (fun _ _ => rfl) (fun _ _ => rfl) (fun _ _ => rfl) (fun _ _ => rfl) s w c p n,
   State.fire_view State.lock (fun _ _ => rfl) (fun _ _ => rfl) (fun _ _ => rfl) (fun _ _ => rfl) (fun _ _ => rfl) s w c p n,
   State.fire_view State.ctxs (fun _ _ => rfl) (fun _ _ => rfl) (fun _ _ => rfl) (fun _ _ => rfl) (fun _ _ => rfl) s w c p n,
   State.fire_view State.nextChain (fun _ _ => rfl) (fun _ _ => rfl) (fun _ _ => rfl) (fun _ _ => rfl) (fun _ _ => rfl) s w c p n,
   State.fire_view State.adm (fun _ _ => rfl) (fun _ _ => rfl) (fun _ _ => rfl) (fun _ _ => rfl) (fun _ _ => rfl) s w c p n,
   State.fire_view State.pool (fun _ _ => rfl) (fun _ _ => rfl) (fun _ _ => rfl) (fun _ _ => rfl) (fun _ _ => rfl) s w c p n,
   State.fire_view State.irq (fun _ _ => rfl) (fun _ _ => rfl) (fun _ _ => rfl) (fun _ _ => rfl) (fun _ _ => rfl) s w c p n,
   State.fire_view State.link (fun _ _ => rfl) (fun _ _ => rfl) (fun _ _ => rfl) (fun _ _ => rfl) (fun _ _ => rfl) s w c p n,
   fun h => State.fire_view (fun s => s.sq h) (fun _ _ => rfl) (fun _ _ => rfl) (fun _ _ => rfl) (fun _ _ => rfl) (fun _ _ => rfl) s w c p n,
   fun h => State.fire_view (fun s => s.cq h) (fun _ _ => rfl) (fun _ _ => rfl) (fun _ _ => rfl) (fun _ _ => rfl) (fun _ _ => rfl) s w c p n,
   fun h => State.fire_view (fun s => s.ctx h) (fun _ _ => rfl) (fun _ _ => rfl) (fun _ _ => rfl) (fun _ _ => rfl) (fun _ _ => rfl) s w c p n,
   fun h => State.fire_view (fun s => s.restoreList h) (fun _ _ => rfl) (fun _ _ => rfl) (fun _ _ => rfl) (fun _ _ => rfl) (fun _ _ => rfl) s w c p n⟩

theorem State.evaluate_view {γ : Type} (view : State → γ) (hsegs : BlindSegs view) (hpresence : BlindPresence view) (hwatches : BlindWatches view) (hjobs : BlindJobs view) (hev : BlindEv view)
    (s : State) (w : WatchId) (x : Watch) (v : Half) : view (s.evaluate w x v) = view s := by
  unfold State.evaluate
  try dsimp only
  (repeat' split) <;> first | simp only [State.setWatch_view view hwatches, State.fire_view view hsegs hpresence hwatches hjobs hev, hsegs, hpresence, hwatches, hjobs, hev] | rfl
@[simp] theorem State.evaluate_frame (s : State) (w : WatchId) (x : Watch) (v : Half) :
    (s.evaluate w x v).pending = s.pending ∧ (s.evaluate w x v).ticks = s.ticks ∧
    (s.evaluate w x v).ctl = s.ctl ∧ (s.evaluate w x v).sqs = s.sqs ∧ (s.evaluate w x v).cqs = s.cqs ∧
    (s.evaluate w x v).arb = s.arb ∧ (s.evaluate w x v).lock = s.lock ∧ (s.evaluate w x v).ctxs = s.ctxs ∧
    (s.evaluate w x v).nextChain = s.nextChain ∧ (s.evaluate w x v).adm = s.adm ∧
    (s.evaluate w x v).pool = s.pool ∧ (s.evaluate w x v).irq = s.irq ∧ (s.evaluate w x v).link = s.link ∧
    (∀ h, (s.evaluate w x v).sq h = s.sq h) ∧ (∀ h, (s.evaluate w x v).cq h = s.cq h) ∧
    (∀ h, (s.evaluate w x v).ctx h = s.ctx h) ∧ (∀ h, (s.evaluate w x v).restoreList h = s.restoreList h) :=
  ⟨State.evaluate_view State.pending (fun _ _ => rfl) (fun _ _ => rfl) (fun _ _ => rfl) (fun _ _ => rfl) (fun _ _ => rfl) s w x v,
   State.evaluate_view State.ticks (fun _ _ => rfl) (fun _ _ => rfl) (fun _ _ => rfl) (fun _ _ => rfl) (fun _ _ => rfl) s w x v,
   State.evaluate_view State.ctl (fun _ _ => rfl) (fun _ _ => rfl) (fun _ _ => rfl) (fun _ _ => rfl) (fun _ _ => rfl) s w x v,
   State.evaluate_view State.sqs (fun _ _ => rfl) (fun _ _ => rfl) (fun _ _ => rfl) (fun _ _ => rfl) (fun _ _ => rfl) s w x v,
   State.evaluate_view State.cqs (fun _ _ => rfl) (fun _ _ => rfl) (fun _ _ => rfl) (fun _ _ => rfl) (fun _ _ => rfl) s w x v,
   State.evaluate_view State.arb (fun _ _ => rfl) (fun _ _ => rfl) (fun _ _ => rfl) (fun _ _ => rfl) (fun _ _ => rfl) s w x v,
   State.evaluate_view State.lock (fun _ _ => rfl) (fun _ _ => rfl) (fun _ _ => rfl) (fun _ _ => rfl) (fun _ _ => rfl) s w x v,
   State.evaluate_view State.ctxs (fun _ _ => rfl) (fun _ _ => rfl) (fun _ _ => rfl) (fun _ _ => rfl) (fun _ _ => rfl) s w x v,
   State.evaluate_view State.nextChain (fun _ _ => rfl) (fun _ _ => rfl) (fun _ _ => rfl) (fun _ _ => rfl) (fun _ _ => rfl) s w x v,
   State.evaluate_view State.adm (fun _ _ => rfl) (fun _ _ => rfl) (fun _ _ => rfl) (fun _ _ => rfl) (fun _ _ => rfl) s w x v,
   State.evaluate_view State.pool (fun _ _ => rfl) (fun _ _ => rfl) (fun _ _ => rfl) (fun _ _ => rfl) (fun _ _ => rfl) s w x v,
   State.evaluate_view State.irq (fun _ _ => rfl) (fun _ _ => rfl) (fun _ _ => rfl) (fun _ _ => rfl) (fun _ _ => rfl) s w x v,
   State.evaluate_view State.link (fun _ _ => rfl) (fun _ _ => rfl) (fun _ _ => rfl) (fun _ _ => rfl) (fun _ _ => rfl) s w x v,
   fun h => State.evaluate_view (fun s => s.sq h) (fun _ _ => rfl) (fun _ _ => rfl) (fun _ _ => rfl) (fun _ _ => rfl) (fun _ _ => rfl) s w x v,
   fun h => State.evaluate_view (fun s => s.cq h) (fun _ _ => rfl) (fun _ _ => rfl) (fun _ _ => rfl) (fun _ _ => rfl) (fun _ _ => rfl) s w x v,
   fun h => State.evaluate_view (fun s => s.ctx h) (fun _ _ => rfl) (fun _ _ => rfl) (fun _ _ => rfl) (fun _ _ => rfl) (fun _ _ => rfl) s w x v,
   fun h => State.evaluate_view (fun s => s.restoreList h) (fun _ _ => rfl) (fun _ _ => rfl) (fun _ _ => rfl) (fun _ _ => rfl) (fun _ _ => rfl) s w x v⟩

theorem State.pollOver_view {γ : Type} (view : State → γ) (hsegs : BlindSegs view) (hpresence : BlindPresence view) (hwatches : BlindWatches view) (hjobs : BlindJobs view) (hev : BlindEv view)
    (s : State) (w : WatchId) (a : Attempt) : view (s.pollOver w a) = view s := by
  unfold State.pollOver
  try dsimp only
  (repeat' split) <;> first | simp only [State.setWatch_view view hwatches, State.updWatch_view view hwatches, State.evaluate_view view hsegs hpresence hwatches hjobs hev, hsegs, hpresence, hwatches, hjobs, hev] | rfl
@[simp] theorem State.pollOver_frame (s : State) (w : WatchId) (a : Attempt) :
    (s.pollOver w a).pending = s.pending ∧ (s.pollOver w a).ticks = s.ticks ∧ (s.pollOver w a).ctl = s.ctl ∧
    (s.pollOver w a).sqs = s.sqs ∧ (s.pollOver w a).cqs = s.cqs ∧ (s.pollOver w a).arb = s.arb ∧
    (s.pollOver w a).lock = s.lock ∧ (s.pollOver w a).ctxs = s.ctxs ∧
    (s.pollOver w a).nextChain = s.nextChain ∧ (s.pollOver w a).adm = s.adm ∧
    (s.pollOver w a).pool = s.pool ∧ (s.pollOver w a).irq = s.irq ∧ (s.pollOver w a).link = s.link ∧
    (∀ h, (s.pollOver w a).sq h = s.sq h) ∧ (∀ h, (s.pollOver w a).cq h = s.cq h) ∧
    (∀ h, (s.pollOver w a).ctx h = s.ctx h) ∧ (∀ h, (s.pollOver w a).restoreList h = s.restoreList h) :=
  ⟨State.pollOver_view State.pending (fun _ _ => rfl) (fun _ _ => rfl) (fun _ _ => rfl) (fun _ _ => rfl) (fun _ _ => rfl) s w a,
   State.pollOver_view State.ticks (fun _ _ => rfl) (fun _ _ => rfl) (fun _ _ => rfl) (fun _ _ => rfl) (fun _ _ => rfl) s w a,
   State.pollOver_view State.ctl (fun _ _ => rfl) (fun _ _ => rfl) (fun _ _ => rfl) (fun _ _ => rfl) (fun _ _ => rfl) s w a,
   State.pollOver_view State.sqs (fun _ _ => rfl) (fun _ _ => rfl) (fun _ _ => rfl) (fun _ _ => rfl) (fun _ _ => rfl) s w a,
   State.pollOver_view State.cqs (fun _ _ => rfl) (fun _ _ => rfl) (fun _ _ => rfl) (fun _ _ => rfl) (fun _ _ => rfl) s w a,
   State.pollOver_view State.arb (fun _ _ => rfl) (fun _ _ => rfl) (fun _ _ => rfl) (fun _ _ => rfl) (fun _ _ => rfl) s w a,
   State.pollOver_view State.lock (fun _ _ => rfl) (fun _ _ => rfl) (fun _ _ => rfl) (fun _ _ => rfl) (fun _ _ => rfl) s w a,
   State.pollOver_view State.ctxs (fun _ _ => rfl) (fun _ _ => rfl) (fun _ _ => rfl) (fun _ _ => rfl) (fun _ _ => rfl) s w a,
   State.pollOver_view State.nextChain (fun _ _ => rfl) (fun _ _ => rfl) (fun _ _ => rfl) (fun _ _ => rfl) (fun _ _ => rfl) s w a,
   State.pollOver_view State.adm (fun _ _ => rfl) (fun _ _ => rfl) (fun _ _ => rfl) (fun _ _ => rfl) (fun _ _ => rfl) s w a,
   State.pollOver_view State.pool (fun _ _ => rfl) (fun _ _ => rfl) (fun _ _ => rfl) (fun _ _ => rfl) (fun _ _ => rfl) s w a,
   State.pollOver_view State.irq (fun _ _ => rfl) (fun _ _ => rfl) (fun _ _ => rfl) (fun _ _ => rfl) (fun _ _ => rfl) s w a,
   State.pollOver_view State.link (fun _ _ => rfl) (fun _ _ => rfl) (fun _ _ => rfl) (fun _ _ => rfl) (fun _ _ => rfl) s w a,
   fun h => State.pollOver_view (fun s => s.sq h) (fun _ _ => rfl) (fun _ _ => rfl) (fun _ _ => rfl) (fun _ _ => rfl) (fun _ _ => rfl) s w a,
   fun h => State.pollOver_view (fun s => s.cq h) (fun _ _ => rfl) (fun _ _ => rfl) (fun _ _ => rfl) (fun _ _ => rfl) (fun _ _ => rfl) s w a,
   fun h => State.pollOver_view (fun s => s.ctx h) (fun _ _ => rfl) (fun _ _ => rfl) (fun _ _ => rfl) (fun _ _ => rfl) (fun _ _ => rfl) s w a,
   fun h => State.pollOver_view (fun s => s.restoreList h) (fun _ _ => rfl) (fun _ _ => rfl) (fun _ _ => rfl) (fun _ _ => rfl) (fun _ _ => rfl) s w a⟩

end Sys2Proof.Machine
end

