-- ==== Sys2Proof/Laws/Contexts.lean ====
section
/-! SUPPORT. What each operation leaves alone, once for each: contexts, chains, queue errors, teardown and failure. A view of the state that is blind to the
fields an operation may change sees no change; the frame lemma lists the fields and tables that follow. -/

namespace Sys2Proof.Machine

theorem State.unlist_view {γ : Type} (view : State → γ) (hsqs : BlindSqs view) (hsegs : BlindSegs view)
    (s : State) (c : Ctx) : view (s.unlist c) = view s := by
  unfold State.unlist
  try dsimp only
  (repeat' split) <;> first | simp only [State.updSeg_view view hsegs, State.updSq_view view hsqs, hsqs, hsegs] | rfl
@[simp] theorem State.unlist_frame (s : State) (c : Ctx) :
    (s.unlist c).pending = s.pending ∧ (s.unlist c).ticks = s.ticks ∧ (s.unlist c).ctl = s.ctl ∧
    (s.unlist c).cqs = s.cqs ∧ (s.unlist c).arb = s.arb ∧ (s.unlist c).lock = s.lock ∧
    (s.unlist c).ctxs = s.ctxs ∧ (s.unlist c).nextChain = s.nextChain ∧ (s.unlist c).adm = s.adm ∧
    (s.unlist c).presence = s.presence ∧ (s.unlist c).watches = s.watches ∧ (s.unlist c).pool = s.pool ∧
    (s.unlist c).jobs = s.jobs ∧ (s.unlist c).ev = s.ev ∧ (s.unlist c).irq = s.irq ∧
    (s.unlist c).link = s.link ∧ (∀ h, (s.unlist c).cq h = s.cq h) ∧
    (∀ h, (s.unlist c).watch h = s.watch h) ∧ (∀ h, (s.unlist c).pres h = s.pres h) ∧
    (∀ h, (s.unlist c).ctx h = s.ctx h) ∧ (∀ h, (s.unlist c).job h = s.job h) ∧
    (∀ h, (s.unlist c).restoreList h = s.restoreList h) :=
  ⟨State.unlist_view State.pending (fun _ _ => rfl) (fun _ _ => rfl) s c,
   State.unlist_view State.ticks (fun _ _ => rfl) (fun _ _ => rfl) s c,
   State.unlist_view State.ctl (fun _ _ => rfl) (fun _ _ => rfl) s c,
   State.unlist_view State.cqs (fun _ _ => rfl) (fun _ _ => rfl) s c,
   State.unlist_view State.arb (fun _ _ => rfl) (fun _ _ => rfl) s c,
   State.unlist_view State.lock (fun _ _ => rfl) (fun _ _ => rfl) s c,
   State.unlist_view State.ctxs (fun _ _ => rfl) (fun _ _ => rfl) s c,
   State.unlist_view State.nextChain (fun _ _ => rfl) (fun _ _ => rfl) s c,
   State.unlist_view State.adm (fun _ _ => rfl) (fun _ _ => rfl) s c,
   State.unlist_view State.presence (fun _ _ => rfl) (fun _ _ => rfl) s c,
   State.unlist_view State.watches (fun _ _ => rfl) (fun _ _ => rfl) s c,
   State.unlist_view State.pool (fun _ _ => rfl) (fun _ _ => rfl) s c,
   State.unlist_view State.jobs (fun _ _ => rfl) (fun _ _ => rfl) s c,
   State.unlist_view State.ev (fun _ _ => rfl) (fun _ _ => rfl) s c,
   State.unlist_view State.irq (fun _ _ => rfl) (fun _ _ => rfl) s c,
   State.unlist_view State.link (fun _ _ => rfl) (fun _ _ => rfl) s c,
   fun h => State.unlist_view (fun s => s.cq h) (fun _ _ => rfl) (fun _ _ => rfl) s c,
   fun h => State.unlist_view (fun s => s.watch h) (fun _ _ => rfl) (fun _ _ => rfl) s c,
   fun h => State.unlist_view (fun s => s.pres h) (fun _ _ => rfl) (fun _ _ => rfl) s c,
   fun h => State.unlist_view (fun s => s.ctx h) (fun _ _ => rfl) (fun _ _ => rfl) s c,
   fun h => State.unlist_view (fun s => s.job h) (fun _ _ => rfl) (fun _ _ => rfl) s c,
   fun h => State.unlist_view (fun s => s.restoreList h) (fun _ _ => rfl) (fun _ _ => rfl) s c⟩

theorem State.becomeReady_view {γ : Type} (view : State → γ) (hsqs : BlindSqs view) (hcqs : BlindCqs view) (hctxs : BlindCtxs view) (hsegs : BlindSegs view)
    (s : State) (n : CtxNum) (st : Status) : view (s.becomeReady n st) = view s := by
  unfold State.becomeReady
  try dsimp only
  (repeat' split) <;> first | simp only [State.updCq_view view hcqs, State.updCtx_view view hctxs, State.freeCtx_view view hctxs, State.unlist_view view hsqs hsegs, hsqs, hcqs, hctxs, hsegs] | rfl
@[simp] theorem State.becomeReady_frame (s : State) (n : CtxNum) (st : Status) :
    (s.becomeReady n st).pending = s.pending ∧ (s.becomeReady n st).ticks = s.ticks ∧
    (s.becomeReady n st).ctl = s.ctl ∧ (s.becomeReady n st).arb = s.arb ∧
    (s.becomeReady n st).lock = s.lock ∧ (s.becomeReady n st).nextChain = s.nextChain ∧
    (s.becomeReady n st).adm = s.adm ∧ (s.becomeReady n st).presence = s.presence ∧
    (s.becomeReady n st).watches = s.watches ∧ (s.becomeReady n st).pool = s.pool ∧
    (s.becomeReady n st).jobs = s.jobs ∧ (s.becomeReady n st).ev = s.ev ∧ (s.becomeReady n st).irq = s.irq ∧
    (s.becomeReady n st).link = s.link ∧ (∀ h, (s.becomeReady n st).watch h = s.watch h) ∧
    (∀ h, (s.becomeReady n st).pres h = s.pres h) ∧ (∀ h, (s.becomeReady n st).job h = s.job h) ∧
    (∀ h, (s.becomeReady n st).restoreList h = s.restoreList h) :=
  ⟨State.becomeReady_view State.pending (fun _ _ => rfl) (fun _ _ => rfl) (fun _ _ => rfl) (fun _ _ => rfl) s n st,
   State.becomeReady_view State.ticks (fun _ _ => rfl) (fun _ _ => rfl) (fun _ _ => rfl) (fun _ _ => rfl) s n st,
   State.becomeReady_view State.ctl (fun _ _ => rfl) (fun _ _ => rfl) (fun _ _ => rfl) (fun _ _ => rfl) s n st,
   State.becomeReady_view State.arb (fun _ _ => rfl) (fun _ _ => rfl) (fun _ _ => rfl) (fun _ _ => rfl) s n st,
   State.becomeReady_view State.lock (fun _ _ => rfl) (fun _ _ => rfl) (fun _ _ => rfl) (fun _ _ => rfl) s n st,
   State.becomeReady_view State.nextChain (fun _ _ => rfl) (fun _ _ => rfl) (fun _ _ => rfl) (fun _ _ => rfl) s n st,
   State.becomeReady_view State.adm (fun _ _ => rfl) (fun _ _ => rfl) (fun _ _ => rfl) (fun _ _ => rfl) s n st,
   State.becomeReady_view State.presence (fun _ _ => rfl) (fun _ _ => rfl) (fun _ _ => rfl) (fun _ _ => rfl) s n st,
   State.becomeReady_view State.watches (fun _ _ => rfl) (fun _ _ => rfl) (fun _ _ => rfl) (fun _ _ => rfl) s n st,
   State.becomeReady_view State.pool (fun _ _ => rfl) (fun _ _ => rfl) (fun _ _ => rfl) (fun _ _ => rfl) s n st,
   State.becomeReady_view State.jobs (fun _ _ => rfl) (fun _ _ => rfl) (fun _ _ => rfl) (fun _ _ => rfl) s n st,
   State.becomeReady_view State.ev (fun _ _ => rfl) (fun _ _ => rfl) (fun _ _ => rfl) (fun _ _ => rfl) s n st,
   State.becomeReady_view State.irq (fun _ _ => rfl) (fun _ _ => rfl) (fun _ _ => rfl) (fun _ _ => rfl) s n st,
   State.becomeReady_view State.link (fun _ _ => rfl) (fun _ _ => rfl) (fun _ _ => rfl) (fun _ _ => rfl) s n st,
   fun h => State.becomeReady_view (fun s => s.watch h) (fun _ _ => rfl) (fun _ _ => rfl) (fun _ _ => rfl) (fun _ _ => rfl) s n st,
   fun h => State.becomeReady_view (fun s => s.pres h) (fun _ _ => rfl) (fun _ _ => rfl) (fun _ _ => rfl) (fun _ _ => rfl) s n st,
   fun h => State.becomeReady_view (fun s => s.job h) (fun _ _ => rfl) (fun _ _ => rfl) (fun _ _ => rfl) (fun _ _ => rfl) s n st,
   fun h => State.becomeReady_view (fun s => s.restoreList h) (fun _ _ => rfl) (fun _ _ => rfl) (fun _ _ => rfl) (fun _ _ => rfl) s n st⟩

theorem State.writeBuffer_view {γ : Type} (view : State → γ) (hctxs : BlindCtxs view) (hsegs : BlindSegs view) (hlink : BlindLink view)
    (s : State) (c : Ctx) (st : Status) : view (s.writeBuffer c st) = view s := by
  unfold State.writeBuffer
  try dsimp only
  (repeat' split) <;> first | simp only [State.updSeg_view view hsegs, State.updCtx_view view hctxs, State.issue_view view hlink, hctxs, hsegs, hlink] | rfl
@[simp] theorem State.writeBuffer_frame (s : State) (c : Ctx) (st : Status) :
    (s.writeBuffer c st).pending = s.pending ∧ (s.writeBuffer c st).ticks = s.ticks ∧
    (s.writeBuffer c st).ctl = s.ctl ∧ (s.writeBuffer c st).sqs = s.sqs ∧ (s.writeBuffer c st).cqs = s.cqs ∧
    (s.writeBuffer c st).arb = s.arb ∧ (s.writeBuffer c st).lock = s.lock ∧
    (s.writeBuffer c st).nextChain = s.nextChain ∧ (s.writeBuffer c st).adm = s.adm ∧
    (s.writeBuffer c st).presence = s.presence ∧ (s.writeBuffer c st).watches = s.watches ∧
    (s.writeBuffer c st).pool = s.pool ∧ (s.writeBuffer c st).jobs = s.jobs ∧
    (s.writeBuffer c st).ev = s.ev ∧ (s.writeBuffer c st).irq = s.irq ∧
    (∀ h, (s.writeBuffer c st).sq h = s.sq h) ∧ (∀ h, (s.writeBuffer c st).cq h = s.cq h) ∧
    (∀ h, (s.writeBuffer c st).watch h = s.watch h) ∧ (∀ h, (s.writeBuffer c st).pres h = s.pres h) ∧
    (∀ h, (s.writeBuffer c st).job h = s.job h) ∧
    (∀ h, (s.writeBuffer c st).restoreList h = s.restoreList h) :=
  ⟨State.writeBuffer_view State.pending (fun _ _ => rfl) (fun _ _ => rfl) (fun _ _ => rfl) s c st,
   State.writeBuffer_view State.ticks (fun _ _ => rfl) (fun _ _ => rfl) (fun _ _ => rfl) s c st,
   State.writeBuffer_view State.ctl (fun _ _ => rfl) (fun _ _ => rfl) (fun _ _ => rfl) s c st,
   State.writeBuffer_view State.sqs (fun _ _ => rfl) (fun _ _ => rfl) (fun _ _ => rfl) s c st,
   State.writeBuffer_view State.cqs (fun _ _ => rfl) (fun _ _ => rfl) (fun _ _ => rfl) s c st,
   State.writeBuffer_view State.arb (fun _ _ => rfl) (fun _ _ => rfl) (fun _ _ => rfl) s c st,
   State.writeBuffer_view State.lock (fun _ _ => rfl) (fun _ _ => rfl) (fun _ _ => rfl) s c st,
   State.writeBuffer_view State.nextChain (fun _ _ => rfl) (fun _ _ => rfl) (fun _ _ => rfl) s c st,
   State.writeBuffer_view State.adm (fun _ _ => rfl) (fun _ _ => rfl) (fun _ _ => rfl) s c st,
   State.writeBuffer_view State.presence (fun _ _ => rfl) (fun _ _ => rfl) (fun _ _ => rfl) s c st,
   State.writeBuffer_view State.watches (fun _ _ => rfl) (fun _ _ => rfl) (fun _ _ => rfl) s c st,
   State.writeBuffer_view State.pool (fun _ _ => rfl) (fun _ _ => rfl) (fun _ _ => rfl) s c st,
   State.writeBuffer_view State.jobs (fun _ _ => rfl) (fun _ _ => rfl) (fun _ _ => rfl) s c st,
   State.writeBuffer_view State.ev (fun _ _ => rfl) (fun _ _ => rfl) (fun _ _ => rfl) s c st,
   State.writeBuffer_view State.irq (fun _ _ => rfl) (fun _ _ => rfl) (fun _ _ => rfl) s c st,
   fun h => State.writeBuffer_view (fun s => s.sq h) (fun _ _ => rfl) (fun _ _ => rfl) (fun _ _ => rfl) s c st,
   fun h => State.writeBuffer_view (fun s => s.cq h) (fun _ _ => rfl) (fun _ _ => rfl) (fun _ _ => rfl) s c st,
   fun h => State.writeBuffer_view (fun s => s.watch h) (fun _ _ => rfl) (fun _ _ => rfl) (fun _ _ => rfl) s c st,
   fun h => State.writeBuffer_view (fun s => s.pres h) (fun _ _ => rfl) (fun _ _ => rfl) (fun _ _ => rfl) s c st,
   fun h => State.writeBuffer_view (fun s => s.job h) (fun _ _ => rfl) (fun _ _ => rfl) (fun _ _ => rfl) s c st,
   fun h => State.writeBuffer_view (fun s => s.restoreList h) (fun _ _ => rfl) (fun _ _ => rfl) (fun _ _ => rfl) s c st⟩

theorem State.finish_view {γ : Type} (view : State → γ) (hsqs : BlindSqs view) (hcqs : BlindCqs view) (hctxs : BlindCtxs view) (hsegs : BlindSegs view) (hlink : BlindLink view)
    (s : State) (n : CtxNum) (st : Status) : view (s.finish n st) = view s := by
  unfold State.finish
  try dsimp only
  (repeat' split) <;> first | simp only [State.becomeReady_view view hsqs hcqs hctxs hsegs, State.writeBuffer_view view hctxs hsegs hlink, hsqs, hcqs, hctxs, hsegs, hlink] | rfl
@[simp] theorem State.finish_frame (s : State) (n : CtxNum) (st : Status) :
    (s.finish n st).pending = s.pending ∧ (s.finish n st).ticks = s.ticks ∧ (s.finish n st).ctl = s.ctl ∧
    (s.finish n st).arb = s.arb ∧ (s.finish n st).lock = s.lock ∧ (s.finish n st).nextChain = s.nextChain ∧
    (s.finish n st).adm = s.adm ∧ (s.finish n st).presence = s.presence ∧
    (s.finish n st).watches = s.watches ∧ (s.finish n st).pool = s.pool ∧ (s.finish n st).jobs = s.jobs ∧
    (s.finish n st).ev = s.ev ∧ (s.finish n st).irq = s.irq ∧ (∀ h, (s.finish n st).watch h = s.watch h) ∧
    (∀ h, (s.finish n st).pres h = s.pres h) ∧ (∀ h, (s.finish n st).job h = s.job h) ∧
    (∀ h, (s.finish n st).restoreList h = s.restoreList h) :=
  ⟨State.finish_view State.pending (fun _ _ => rfl) (fun _ _ => rfl) (fun _ _ => rfl) (fun _ _ => rfl) (fun _ _ => rfl) s n st,
   State.finish_view State.ticks (fun _ _ => rfl) (fun _ _ => rfl) (fun _ _ => rfl) (fun _ _ => rfl) (fun _ _ => rfl) s n st,
   State.finish_view State.ctl (fun _ _ => rfl) (fun _ _ => rfl) (fun _ _ => rfl) (fun _ _ => rfl) (fun _ _ => rfl) s n st,
   State.finish_view State.arb (fun _ _ => rfl) (fun _ _ => rfl) (fun _ _ => rfl) (fun _ _ => rfl) (fun _ _ => rfl) s n st,
   State.finish_view State.lock (fun _ _ => rfl) (fun _ _ => rfl) (fun _ _ => rfl) (fun _ _ => rfl) (fun _ _ => rfl) s n st,
   State.finish_view State.nextChain (fun _ _ => rfl) (fun _ _ => rfl) (fun _ _ => rfl) (fun _ _ => rfl) (fun _ _ => rfl) s n st,
   State.finish_view State.adm (fun _ _ => rfl) (fun _ _ => rfl) (fun _ _ => rfl) (fun _ _ => rfl) (fun _ _ => rfl) s n st,
   State.finish_view State.presence (fun _ _ => rfl) (fun _ _ => rfl) (fun _ _ => rfl) (fun _ _ => rfl) (fun _ _ => rfl) s n st,
   State.finish_view State.watches (fun _ _ => rfl) (fun _ _ => rfl) (fun _ _ => rfl) (fun _ _ => rfl) (fun _ _ => rfl) s n st,
   State.finish_view State.pool (fun _ _ => rfl) (fun _ _ => rfl) (fun _ _ => rfl) (fun _ _ => rfl) (fun _ _ => rfl) s n st,
   State.finish_view State.jobs (fun _ _ => rfl) (fun _ _ => rfl) (fun _ _ => rfl) (fun _ _ => rfl) (fun _ _ => rfl) s n st,
   State.finish_view State.ev (fun _ _ => rfl) (fun _ _ => rfl) (fun _ _ => rfl) (fun _ _ => rfl) (fun _ _ => rfl) s n st,
   State.finish_view State.irq (fun _ _ => rfl) (fun _ _ => rfl) (fun _ _ => rfl) (fun _ _ => rfl) (fun _ _ => rfl) s n st,
   fun h => State.finish_view (fun s => s.watch h) (fun _ _ => rfl) (fun _ _ => rfl) (fun _ _ => rfl) (fun _ _ => rfl) (fun _ _ => rfl) s n st,
   fun h => State.finish_view (fun s => s.pres h) (fun _ _ => rfl) (fun _ _ => rfl) (fun _ _ => rfl) (fun _ _ => rfl) (fun _ _ => rfl) s n st,
   fun h => State.finish_view (fun s => s.job h) (fun _ _ => rfl) (fun _ _ => rfl) (fun _ _ => rfl) (fun _ _ => rfl) (fun _ _ => rfl) s n st,
   fun h => State.finish_view (fun s => s.restoreList h) (fun _ _ => rfl) (fun _ _ => rfl) (fun _ _ => rfl) (fun _ _ => rfl) (fun _ _ => rfl) s n st⟩

theorem State.cancel_view {γ : Type} (view : State → γ) (hsqs : BlindSqs view) (hcqs : BlindCqs view) (hctxs : BlindCtxs view) (hsegs : BlindSegs view) (hlink : BlindLink view)
    (s : State) (st : Status) (n : CtxNum) : view (State.cancel st s n) = view s := by
  unfold State.cancel
  try dsimp only
  (repeat' split) <;> first | simp only [State.updSeg_view view hsegs, State.finish_view view hsqs hcqs hctxs hsegs hlink, hsqs, hcqs, hctxs, hsegs, hlink] | rfl
@[simp] theorem State.cancel_frame (s : State) (st : Status) (n : CtxNum) :
    (State.cancel st s n).pending = s.pending ∧ (State.cancel st s n).ticks = s.ticks ∧
    (State.cancel st s n).ctl = s.ctl ∧ (State.cancel st s n).arb = s.arb ∧
    (State.cancel st s n).lock = s.lock ∧ (State.cancel st s n).nextChain = s.nextChain ∧
    (State.cancel st s n).adm = s.adm ∧ (State.cancel st s n).presence = s.presence ∧
    (State.cancel st s n).watches = s.watches ∧ (State.cancel st s n).pool = s.pool ∧
    (State.cancel st s n).jobs = s.jobs ∧ (State.cancel st s n).ev = s.ev ∧
    (State.cancel st s n).irq = s.irq ∧ (∀ h, (State.cancel st s n).watch h = s.watch h) ∧
    (∀ h, (State.cancel st s n).pres h = s.pres h) ∧ (∀ h, (State.cancel st s n).job h = s.job h) ∧
    (∀ h, (State.cancel st s n).restoreList h = s.restoreList h) :=
  ⟨State.cancel_view State.pending (fun _ _ => rfl) (fun _ _ => rfl) (fun _ _ => rfl) (fun _ _ => rfl) (fun _ _ => rfl) s st n,
   State.cancel_view State.ticks (fun _ _ => rfl) (fun _ _ => rfl) (fun _ _ => rfl) (fun _ _ => rfl) (fun _ _ => rfl) s st n,
   State.cancel_view State.ctl (fun _ _ => rfl) (fun _ _ => rfl) (fun _ _ => rfl) (fun _ _ => rfl) (fun _ _ => rfl) s st n,
   State.cancel_view State.arb (fun _ _ => rfl) (fun _ _ => rfl) (fun _ _ => rfl) (fun _ _ => rfl) (fun _ _ => rfl) s st n,
   State.cancel_view State.lock (fun _ _ => rfl) (fun _ _ => rfl) (fun _ _ => rfl) (fun _ _ => rfl) (fun _ _ => rfl) s st n,
   State.cancel_view State.nextChain (fun _ _ => rfl) (fun _ _ => rfl) (fun _ _ => rfl) (fun _ _ => rfl) (fun _ _ => rfl) s st n,
   State.cancel_view State.adm (fun _ _ => rfl) (fun _ _ => rfl) (fun _ _ => rfl) (fun _ _ => rfl) (fun _ _ => rfl) s st n,
   State.cancel_view State.presence (fun _ _ => rfl) (fun _ _ => rfl) (fun _ _ => rfl) (fun _ _ => rfl) (fun _ _ => rfl) s st n,
   State.cancel_view State.watches (fun _ _ => rfl) (fun _ _ => rfl) (fun _ _ => rfl) (fun _ _ => rfl) (fun _ _ => rfl) s st n,
   State.cancel_view State.pool (fun _ _ => rfl) (fun _ _ => rfl) (fun _ _ => rfl) (fun _ _ => rfl) (fun _ _ => rfl) s st n,
   State.cancel_view State.jobs (fun _ _ => rfl) (fun _ _ => rfl) (fun _ _ => rfl) (fun _ _ => rfl) (fun _ _ => rfl) s st n,
   State.cancel_view State.ev (fun _ _ => rfl) (fun _ _ => rfl) (fun _ _ => rfl) (fun _ _ => rfl) (fun _ _ => rfl) s st n,
   State.cancel_view State.irq (fun _ _ => rfl) (fun _ _ => rfl) (fun _ _ => rfl) (fun _ _ => rfl) (fun _ _ => rfl) s st n,
   fun h => State.cancel_view (fun s => s.watch h) (fun _ _ => rfl) (fun _ _ => rfl) (fun _ _ => rfl) (fun _ _ => rfl) (fun _ _ => rfl) s st n,
   fun h => State.cancel_view (fun s => s.pres h) (fun _ _ => rfl) (fun _ _ => rfl) (fun _ _ => rfl) (fun _ _ => rfl) (fun _ _ => rfl) s st n,
   fun h => State.cancel_view (fun s => s.job h) (fun _ _ => rfl) (fun _ _ => rfl) (fun _ _ => rfl) (fun _ _ => rfl) (fun _ _ => rfl) s st n,
   fun h => State.cancel_view (fun s => s.restoreList h) (fun _ _ => rfl) (fun _ _ => rfl) (fun _ _ => rfl) (fun _ _ => rfl) (fun _ _ => rfl) s st n⟩

theorem State.abortChain_view {γ : Type} (view : State → γ) (hsqs : BlindSqs view) (hcqs : BlindCqs view) (hctxs : BlindCtxs view) (hsegs : BlindSegs view) (hlink : BlindLink view)
    (s : State) (id : Nat) : view (s.abortChain id) = view s := by
  unfold State.abortChain
  try dsimp only
  (repeat' split) <;>
    simp (disch := first | (intros; simp only [State.mapSqs_view view hsqs, State.cancel_view view hsqs hcqs hctxs hsegs hlink, hsqs, hcqs, hctxs, hsegs, hlink])) only [foldl_same view, State.mapSqs_view view hsqs, State.cancel_view view hsqs hcqs hctxs hsegs hlink, hsqs, hcqs, hctxs, hsegs, hlink]
@[simp] theorem State.abortChain_frame (s : State) (id : Nat) :
    (s.abortChain id).pending = s.pending ∧ (s.abortChain id).ticks = s.ticks ∧
    (s.abortChain id).ctl = s.ctl ∧ (s.abortChain id).arb = s.arb ∧ (s.abortChain id).lock = s.lock ∧
    (s.abortChain id).nextChain = s.nextChain ∧ (s.abortChain id).adm = s.adm ∧
    (s.abortChain id).presence = s.presence ∧ (s.abortChain id).watches = s.watches ∧
    (s.abortChain id).pool = s.pool ∧ (s.abortChain id).jobs = s.jobs ∧ (s.abortChain id).ev = s.ev ∧
    (s.abortChain id).irq = s.irq ∧ (∀ h, (s.abortChain id).watch h = s.watch h) ∧
    (∀ h, (s.abortChain id).pres h = s.pres h) ∧ (∀ h, (s.abortChain id).job h = s.job h) ∧
    (∀ h, (s.abortChain id).restoreList h = s.restoreList h) :=
  ⟨State.abortChain_view State.pending (fun _ _ => rfl) (fun _ _ => rfl) (fun _ _ => rfl) (fun _ _ => rfl) (fun _ _ => rfl) s id,
   State.abortChain_view State.ticks (fun _ _ => rfl) (fun _ _ => rfl) (fun _ _ => rfl) (fun _ _ => rfl) (fun _ _ => rfl) s id,
   State.abortChain_view State.ctl (fun _ _ => rfl) (fun _ _ => rfl) (fun _ _ => rfl) (fun _ _ => rfl) (fun _ _ => rfl) s id,
   State.abortChain_view State.arb (fun _ _ => rfl) (fun _ _ => rfl) (fun _ _ => rfl) (fun _ _ => rfl) (fun _ _ => rfl) s id,
   State.abortChain_view State.lock (fun _ _ => rfl) (fun _ _ => rfl) (fun _ _ => rfl) (fun _ _ => rfl) (fun _ _ => rfl) s id,
   State.abortChain_view State.nextChain (fun _ _ => rfl) (fun _ _ => rfl) (fun _ _ => rfl) (fun _ _ => rfl) (fun _ _ => rfl) s id,
   State.abortChain_view State.adm (fun _ _ => rfl) (fun _ _ => rfl) (fun _ _ => rfl) (fun _ _ => rfl) (fun _ _ => rfl) s id,
   State.abortChain_view State.presence (fun _ _ => rfl) (fun _ _ => rfl) (fun _ _ => rfl) (fun _ _ => rfl) (fun _ _ => rfl) s id,
   State.abortChain_view State.watches (fun _ _ => rfl) (fun _ _ => rfl) (fun _ _ => rfl) (fun _ _ => rfl) (fun _ _ => rfl) s id,
   State.abortChain_view State.pool (fun _ _ => rfl) (fun _ _ => rfl) (fun _ _ => rfl) (fun _ _ => rfl) (fun _ _ => rfl) s id,
   State.abortChain_view State.jobs (fun _ _ => rfl) (fun _ _ => rfl) (fun _ _ => rfl) (fun _ _ => rfl) (fun _ _ => rfl) s id,
   State.abortChain_view State.ev (fun _ _ => rfl) (fun _ _ => rfl) (fun _ _ => rfl) (fun _ _ => rfl) (fun _ _ => rfl) s id,
   State.abortChain_view State.irq (fun _ _ => rfl) (fun _ _ => rfl) (fun _ _ => rfl) (fun _ _ => rfl) (fun _ _ => rfl) s id,
   fun h => State.abortChain_view (fun s => s.watch h) (fun _ _ => rfl) (fun _ _ => rfl) (fun _ _ => rfl) (fun _ _ => rfl) (fun _ _ => rfl) s id,
   fun h => State.abortChain_view (fun s => s.pres h) (fun _ _ => rfl) (fun _ _ => rfl) (fun _ _ => rfl) (fun _ _ => rfl) (fun _ _ => rfl) s id,
   fun h => State.abortChain_view (fun s => s.job h) (fun _ _ => rfl) (fun _ _ => rfl) (fun _ _ => rfl) (fun _ _ => rfl) (fun _ _ => rfl) s id,
   fun h => State.abortChain_view (fun s => s.restoreList h) (fun _ _ => rfl) (fun _ _ => rfl) (fun _ _ => rfl) (fun _ _ => rfl) (fun _ _ => rfl) s id⟩

theorem State.memberEnded_view {γ : Type} (view : State → γ) (hsqs : BlindSqs view) (hcqs : BlindCqs view) (hctxs : BlindCtxs view) (hsegs : BlindSegs view) (hlink : BlindLink view)
    (s : State) (c : Ctx) (st : Status) : view (s.memberEnded c st) = view s := by
  unfold State.memberEnded
  try dsimp only
  (repeat' split) <;> first | simp only [State.updSeg_view view hsegs, State.abortChain_view view hsqs hcqs hctxs hsegs hlink, hsqs, hcqs, hctxs, hsegs, hlink] | rfl
@[simp] theorem State.memberEnded_frame (s : State) (c : Ctx) (st : Status) :
    (s.memberEnded c st).pending = s.pending ∧ (s.memberEnded c st).ticks = s.ticks ∧
    (s.memberEnded c st).ctl = s.ctl ∧ (s.memberEnded c st).arb = s.arb ∧
    (s.memberEnded c st).lock = s.lock ∧ (s.memberEnded c st).nextChain = s.nextChain ∧
    (s.memberEnded c st).adm = s.adm ∧ (s.memberEnded c st).presence = s.presence ∧
    (s.memberEnded c st).watches = s.watches ∧ (s.memberEnded c st).pool = s.pool ∧
    (s.memberEnded c st).jobs = s.jobs ∧ (s.memberEnded c st).ev = s.ev ∧ (s.memberEnded c st).irq = s.irq ∧
    (∀ h, (s.memberEnded c st).watch h = s.watch h) ∧ (∀ h, (s.memberEnded c st).pres h = s.pres h) ∧
    (∀ h, (s.memberEnded c st).job h = s.job h) ∧
    (∀ h, (s.memberEnded c st).restoreList h = s.restoreList h) :=
  ⟨State.memberEnded_view State.pending (fun _ _ => rfl) (fun _ _ => rfl) (fun _ _ => rfl) (fun _ _ => rfl) (fun _ _ => rfl) s c st,
   State.memberEnded_view State.ticks (fun _ _ => rfl) (fun _ _ => rfl) (fun _ _ => rfl) (fun _ _ => rfl) (fun _ _ => rfl) s c st,
   State.memberEnded_view State.ctl (fun _ _ => rfl) (fun _ _ => rfl) (fun _ _ => rfl) (fun _ _ => rfl) (fun _ _ => rfl) s c st,
   State.memberEnded_view State.arb (fun _ _ => rfl) (fun _ _ => rfl) (fun _ _ => rfl) (fun _ _ => rfl) (fun _ _ => rfl) s c st,
   State.memberEnded_view State.lock (fun _ _ => rfl) (fun _ _ => rfl) (fun _ _ => rfl) (fun _ _ => rfl) (fun _ _ => rfl) s c st,
   State.memberEnded_view State.nextChain (fun _ _ => rfl) (fun _ _ => rfl) (fun _ _ => rfl) (fun _ _ => rfl) (fun _ _ => rfl) s c st,
   State.memberEnded_view State.adm (fun _ _ => rfl) (fun _ _ => rfl) (fun _ _ => rfl) (fun _ _ => rfl) (fun _ _ => rfl) s c st,
   State.memberEnded_view State.presence (fun _ _ => rfl) (fun _ _ => rfl) (fun _ _ => rfl) (fun _ _ => rfl) (fun _ _ => rfl) s c st,
   State.memberEnded_view State.watches (fun _ _ => rfl) (fun _ _ => rfl) (fun _ _ => rfl) (fun _ _ => rfl) (fun _ _ => rfl) s c st,
   State.memberEnded_view State.pool (fun _ _ => rfl) (fun _ _ => rfl) (fun _ _ => rfl) (fun _ _ => rfl) (fun _ _ => rfl) s c st,
   State.memberEnded_view State.jobs (fun _ _ => rfl) (fun _ _ => rfl) (fun _ _ => rfl) (fun _ _ => rfl) (fun _ _ => rfl) s c st,
   State.memberEnded_view State.ev (fun _ _ => rfl) (fun _ _ => rfl) (fun _ _ => rfl) (fun _ _ => rfl) (fun _ _ => rfl) s c st,
   State.memberEnded_view State.irq (fun _ _ => rfl) (fun _ _ => rfl) (fun _ _ => rfl) (fun _ _ => rfl) (fun _ _ => rfl) s c st,
   fun h => State.memberEnded_view (fun s => s.watch h) (fun _ _ => rfl) (fun _ _ => rfl) (fun _ _ => rfl) (fun _ _ => rfl) (fun _ _ => rfl) s c st,
   fun h => State.memberEnded_view (fun s => s.pres h) (fun _ _ => rfl) (fun _ _ => rfl) (fun _ _ => rfl) (fun _ _ => rfl) (fun _ _ => rfl) s c st,
   fun h => State.memberEnded_view (fun s => s.job h) (fun _ _ => rfl) (fun _ _ => rfl) (fun _ _ => rfl) (fun _ _ => rfl) (fun _ _ => rfl) s c st,
   fun h => State.memberEnded_view (fun s => s.restoreList h) (fun _ _ => rfl) (fun _ _ => rfl) (fun _ _ => rfl) (fun _ _ => rfl) (fun _ _ => rfl) s c st⟩

theorem State.endCommand_view {γ : Type} (view : State → γ) (hsqs : BlindSqs view) (hcqs : BlindCqs view) (hctxs : BlindCtxs view) (hsegs : BlindSegs view) (hlink : BlindLink view)
    (s : State) (n : CtxNum) (st : Status) : view (s.endCommand n st) = view s := by
  unfold State.endCommand
  try dsimp only
  (repeat' split) <;> first | simp only [State.updSeg_view view hsegs, State.finish_view view hsqs hcqs hctxs hsegs hlink, State.memberEnded_view view hsqs hcqs hctxs hsegs hlink, hsqs, hcqs, hctxs, hsegs, hlink] | rfl
@[simp] theorem State.endCommand_frame (s : State) (n : CtxNum) (st : Status) :
    (s.endCommand n st).pending = s.pending ∧ (s.endCommand n st).ticks = s.ticks ∧
    (s.endCommand n st).ctl = s.ctl ∧ (s.endCommand n st).arb = s.arb ∧ (s.endCommand n st).lock = s.lock ∧
    (s.endCommand n st).nextChain = s.nextChain ∧ (s.endCommand n st).adm = s.adm ∧
    (s.endCommand n st).presence = s.presence ∧ (s.endCommand n st).watches = s.watches ∧
    (s.endCommand n st).pool = s.pool ∧ (s.endCommand n st).jobs = s.jobs ∧ (s.endCommand n st).ev = s.ev ∧
    (s.endCommand n st).irq = s.irq ∧ (∀ h, (s.endCommand n st).watch h = s.watch h) ∧
    (∀ h, (s.endCommand n st).pres h = s.pres h) ∧ (∀ h, (s.endCommand n st).job h = s.job h) ∧
    (∀ h, (s.endCommand n st).restoreList h = s.restoreList h) :=
  ⟨State.endCommand_view State.pending (fun _ _ => rfl) (fun _ _ => rfl) (fun _ _ => rfl) (fun _ _ => rfl) (fun _ _ => rfl) s n st,
   State.endCommand_view State.ticks (fun _ _ => rfl) (fun _ _ => rfl) (fun _ _ => rfl) (fun _ _ => rfl) (fun _ _ => rfl) s n st,
   State.endCommand_view State.ctl (fun _ _ => rfl) (fun _ _ => rfl) (fun _ _ => rfl) (fun _ _ => rfl) (fun _ _ => rfl) s n st,
   State.endCommand_view State.arb (fun _ _ => rfl) (fun _ _ => rfl) (fun _ _ => rfl) (fun _ _ => rfl) (fun _ _ => rfl) s n st,
   State.endCommand_view State.lock (fun _ _ => rfl) (fun _ _ => rfl) (fun _ _ => rfl) (fun _ _ => rfl) (fun _ _ => rfl) s n st,
   State.endCommand_view State.nextChain (fun _ _ => rfl) (fun _ _ => rfl) (fun _ _ => rfl) (fun _ _ => rfl) (fun _ _ => rfl) s n st,
   State.endCommand_view State.adm (fun _ _ => rfl) (fun _ _ => rfl) (fun _ _ => rfl) (fun _ _ => rfl) (fun _ _ => rfl) s n st,
   State.endCommand_view State.presence (fun _ _ => rfl) (fun _ _ => rfl) (fun _ _ => rfl) (fun _ _ => rfl) (fun _ _ => rfl) s n st,
   State.endCommand_view State.watches (fun _ _ => rfl) (fun _ _ => rfl) (fun _ _ => rfl) (fun _ _ => rfl) (fun _ _ => rfl) s n st,
   State.endCommand_view State.pool (fun _ _ => rfl) (fun _ _ => rfl) (fun _ _ => rfl) (fun _ _ => rfl) (fun _ _ => rfl) s n st,
   State.endCommand_view State.jobs (fun _ _ => rfl) (fun _ _ => rfl) (fun _ _ => rfl) (fun _ _ => rfl) (fun _ _ => rfl) s n st,
   State.endCommand_view State.ev (fun _ _ => rfl) (fun _ _ => rfl) (fun _ _ => rfl) (fun _ _ => rfl) (fun _ _ => rfl) s n st,
   State.endCommand_view State.irq (fun _ _ => rfl) (fun _ _ => rfl) (fun _ _ => rfl) (fun _ _ => rfl) (fun _ _ => rfl) s n st,
   fun h => State.endCommand_view (fun s => s.watch h) (fun _ _ => rfl) (fun _ _ => rfl) (fun _ _ => rfl) (fun _ _ => rfl) (fun _ _ => rfl) s n st,
   fun h => State.endCommand_view (fun s => s.pres h) (fun _ _ => rfl) (fun _ _ => rfl) (fun _ _ => rfl) (fun _ _ => rfl) (fun _ _ => rfl) s n st,
   fun h => State.endCommand_view (fun s => s.job h) (fun _ _ => rfl) (fun _ _ => rfl) (fun _ _ => rfl) (fun _ _ => rfl) (fun _ _ => rfl) s n st,
   fun h => State.endCommand_view (fun s => s.restoreList h) (fun _ _ => rfl) (fun _ _ => rfl) (fun _ _ => rfl) (fun _ _ => rfl) (fun _ _ => rfl) s n st⟩

theorem State.endAborted_view {γ : Type} (view : State → γ) (hsqs : BlindSqs view) (hcqs : BlindCqs view) (hctxs : BlindCtxs view) (hsegs : BlindSegs view) (hlink : BlindLink view)
    (s : State) (n : CtxNum) : view (s.endAborted n) = view s := by
  unfold State.endAborted
  try dsimp only
  (repeat' split) <;> first | simp only [State.cancel_view view hsqs hcqs hctxs hsegs hlink, State.abortChain_view view hsqs hcqs hctxs hsegs hlink, hsqs, hcqs, hctxs, hsegs, hlink] | rfl
@[simp] theorem State.endAborted_frame (s : State) (n : CtxNum) :
    (s.endAborted n).pending = s.pending ∧ (s.endAborted n).ticks = s.ticks ∧ (s.endAborted n).ctl = s.ctl ∧
    (s.endAborted n).arb = s.arb ∧ (s.endAborted n).lock = s.lock ∧
    (s.endAborted n).nextChain = s.nextChain ∧ (s.endAborted n).adm = s.adm ∧
    (s.endAborted n).presence = s.presence ∧ (s.endAborted n).watches = s.watches ∧
    (s.endAborted n).pool = s.pool ∧ (s.endAborted n).jobs = s.jobs ∧ (s.endAborted n).ev = s.ev ∧
    (s.endAborted n).irq = s.irq ∧ (∀ h, (s.endAborted n).watch h = s.watch h) ∧
    (∀ h, (s.endAborted n).pres h = s.pres h) ∧ (∀ h, (s.endAborted n).job h = s.job h) ∧
    (∀ h, (s.endAborted n).restoreList h = s.restoreList h) :=
  ⟨State.endAborted_view State.pending (fun _ _ => rfl) (fun _ _ => rfl) (fun _ _ => rfl) (fun _ _ => rfl) (fun _ _ => rfl) s n,
   State.endAborted_view State.ticks (fun _ _ => rfl) (fun _ _ => rfl) (fun _ _ => rfl) (fun _ _ => rfl) (fun _ _ => rfl) s n,
   State.endAborted_view State.ctl (fun _ _ => rfl) (fun _ _ => rfl) (fun _ _ => rfl) (fun _ _ => rfl) (fun _ _ => rfl) s n,
   State.endAborted_view State.arb (fun _ _ => rfl) (fun _ _ => rfl) (fun _ _ => rfl) (fun _ _ => rfl) (fun _ _ => rfl) s n,
   State.endAborted_view State.lock (fun _ _ => rfl) (fun _ _ => rfl) (fun _ _ => rfl) (fun _ _ => rfl) (fun _ _ => rfl) s n,
   State.endAborted_view State.nextChain (fun _ _ => rfl) (fun _ _ => rfl) (fun _ _ => rfl) (fun _ _ => rfl) (fun _ _ => rfl) s n,
   State.endAborted_view State.adm (fun _ _ => rfl) (fun _ _ => rfl) (fun _ _ => rfl) (fun _ _ => rfl) (fun _ _ => rfl) s n,
   State.endAborted_view State.presence (fun _ _ => rfl) (fun _ _ => rfl) (fun _ _ => rfl) (fun _ _ => rfl) (fun _ _ => rfl) s n,
   State.endAborted_view State.watches (fun _ _ => rfl) (fun _ _ => rfl) (fun _ _ => rfl) (fun _ _ => rfl) (fun _ _ => rfl) s n,
   State.endAborted_view State.pool (fun _ _ => rfl) (fun _ _ => rfl) (fun _ _ => rfl) (fun _ _ => rfl) (fun _ _ => rfl) s n,
   State.endAborted_view State.jobs (fun _ _ => rfl) (fun _ _ => rfl) (fun _ _ => rfl) (fun _ _ => rfl) (fun _ _ => rfl) s n,
   State.endAborted_view State.ev (fun _ _ => rfl) (fun _ _ => rfl) (fun _ _ => rfl) (fun _ _ => rfl) (fun _ _ => rfl) s n,
   State.endAborted_view State.irq (fun _ _ => rfl) (fun _ _ => rfl) (fun _ _ => rfl) (fun _ _ => rfl) (fun _ _ => rfl) s n,
   fun h => State.endAborted_view (fun s => s.watch h) (fun _ _ => rfl) (fun _ _ => rfl) (fun _ _ => rfl) (fun _ _ => rfl) (fun _ _ => rfl) s n,
   fun h => State.endAborted_view (fun s => s.pres h) (fun _ _ => rfl) (fun _ _ => rfl) (fun _ _ => rfl) (fun _ _ => rfl) (fun _ _ => rfl) s n,
   fun h => State.endAborted_view (fun s => s.job h) (fun _ _ => rfl) (fun _ _ => rfl) (fun _ _ => rfl) (fun _ _ => rfl) (fun _ _ => rfl) s n,
   fun h => State.endAborted_view (fun s => s.restoreList h) (fun _ _ => rfl) (fun _ _ => rfl) (fun _ _ => rfl) (fun _ _ => rfl) (fun _ _ => rfl) s n⟩

theorem State.discard_view {γ : Type} (view : State → γ) (hsqs : BlindSqs view) (hctxs : BlindCtxs view) (hsegs : BlindSegs view)
    (s : State) (n : CtxNum) : view (s.discard n) = view s := by
  unfold State.discard
  try dsimp only
  (repeat' split) <;> first | simp only [State.freeCtx_view view hctxs, State.unlist_view view hsqs hsegs, hsqs, hctxs, hsegs] | rfl
@[simp] theorem State.discard_frame (s : State) (n : CtxNum) :
    (s.discard n).pending = s.pending ∧ (s.discard n).ticks = s.ticks ∧ (s.discard n).ctl = s.ctl ∧
    (s.discard n).cqs = s.cqs ∧ (s.discard n).arb = s.arb ∧ (s.discard n).lock = s.lock ∧
    (s.discard n).nextChain = s.nextChain ∧ (s.discard n).adm = s.adm ∧ (s.discard n).presence = s.presence ∧
    (s.discard n).watches = s.watches ∧ (s.discard n).pool = s.pool ∧ (s.discard n).jobs = s.jobs ∧
    (s.discard n).ev = s.ev ∧ (s.discard n).irq = s.irq ∧ (s.discard n).link = s.link ∧
    (∀ h, (s.discard n).cq h = s.cq h) ∧ (∀ h, (s.discard n).watch h = s.watch h) ∧
    (∀ h, (s.discard n).pres h = s.pres h) ∧ (∀ h, (s.discard n).job h = s.job h) ∧
    (∀ h, (s.discard n).restoreList h = s.restoreList h) :=
  ⟨State.discard_view State.pending (fun _ _ => rfl) (fun _ _ => rfl) (fun _ _ => rfl) s n,
   State.discard_view State.ticks (fun _ _ => rfl) (fun _ _ => rfl) (fun _ _ => rfl) s n,
   State.discard_view State.ctl (fun _ _ => rfl) (fun _ _ => rfl) (fun _ _ => rfl) s n,
   State.discard_view State.cqs (fun _ _ => rfl) (fun _ _ => rfl) (fun _ _ => rfl) s n,
   State.discard_view State.arb (fun _ _ => rfl) (fun _ _ => rfl) (fun _ _ => rfl) s n,
   State.discard_view State.lock (fun _ _ => rfl) (fun _ _ => rfl) (fun _ _ => rfl) s n,
   State.discard_view State.nextChain (fun _ _ => rfl) (fun _ _ => rfl) (fun _ _ => rfl) s n,
   State.discard_view State.adm (fun _ _ => rfl) (fun _ _ => rfl) (fun _ _ => rfl) s n,
   State.discard_view State.presence (fun _ _ => rfl) (fun _ _ => rfl) (fun _ _ => rfl) s n,
   State.discard_view State.watches (fun _ _ => rfl) (fun _ _ => rfl) (fun _ _ => rfl) s n,
   State.discard_view State.pool (fun _ _ => rfl) (fun _ _ => rfl) (fun _ _ => rfl) s n,
   State.discard_view State.jobs (fun _ _ => rfl) (fun _ _ => rfl) (fun _ _ => rfl) s n,
   State.discard_view State.ev (fun _ _ => rfl) (fun _ _ => rfl) (fun _ _ => rfl) s n,
   State.discard_view State.irq (fun _ _ => rfl) (fun _ _ => rfl) (fun _ _ => rfl) s n,
   State.discard_view State.link (fun _ _ => rfl) (fun _ _ => rfl) (fun _ _ => rfl) s n,
   fun h => State.discard_view (fun s => s.cq h) (fun _ _ => rfl) (fun _ _ => rfl) (fun _ _ => rfl) s n,
   fun h => State.discard_view (fun s => s.watch h) (fun _ _ => rfl) (fun _ _ => rfl) (fun _ _ => rfl) s n,
   fun h => State.discard_view (fun s => s.pres h) (fun _ _ => rfl) (fun _ _ => rfl) (fun _ _ => rfl) s n,
   fun h => State.discard_view (fun s => s.job h) (fun _ _ => rfl) (fun _ _ => rfl) (fun _ _ => rfl) s n,
   fun h => State.discard_view (fun s => s.restoreList h) (fun _ _ => rfl) (fun _ _ => rfl) (fun _ _ => rfl) s n⟩

theorem State.freeItem_view {γ : Type} (view : State → γ) (hctxs : BlindCtxs view) (hadm : BlindAdm view)
    (s : State) (i : ReadyItem) : view (s.freeItem i) = view s := by
  unfold State.freeItem
  try dsimp only
  (repeat' split) <;> first | simp only [State.freeCtx_view view hctxs, hctxs, hadm] | rfl
@[simp] theorem State.freeItem_frame (s : State) (i : ReadyItem) :
    (s.freeItem i).pending = s.pending ∧ (s.freeItem i).ticks = s.ticks ∧ (s.freeItem i).ctl = s.ctl ∧
    (s.freeItem i).sqs = s.sqs ∧ (s.freeItem i).cqs = s.cqs ∧ (s.freeItem i).arb = s.arb ∧
    (s.freeItem i).lock = s.lock ∧ (s.freeItem i).nextChain = s.nextChain ∧ (s.freeItem i).segs = s.segs ∧
    (s.freeItem i).presence = s.presence ∧ (s.freeItem i).watches = s.watches ∧
    (s.freeItem i).pool = s.pool ∧ (s.freeItem i).jobs = s.jobs ∧ (s.freeItem i).ev = s.ev ∧
    (s.freeItem i).irq = s.irq ∧ (s.freeItem i).link = s.link ∧ (∀ h, (s.freeItem i).seg h = s.seg h) ∧
    (∀ h, (s.freeItem i).sq h = s.sq h) ∧ (∀ h, (s.freeItem i).cq h = s.cq h) ∧
    (∀ h, (s.freeItem i).watch h = s.watch h) ∧ (∀ h, (s.freeItem i).pres h = s.pres h) ∧
    (∀ h, (s.freeItem i).job h = s.job h) ∧ (∀ h, (s.freeItem i).restoreList h = s.restoreList h) :=
  ⟨State.freeItem_view State.pending (fun _ _ => rfl) (fun _ _ => rfl) s i,
   State.freeItem_view State.ticks (fun _ _ => rfl) (fun _ _ => rfl) s i,
   State.freeItem_view State.ctl (fun _ _ => rfl) (fun _ _ => rfl) s i,
   State.freeItem_view State.sqs (fun _ _ => rfl) (fun _ _ => rfl) s i,
   State.freeItem_view State.cqs (fun _ _ => rfl) (fun _ _ => rfl) s i,
   State.freeItem_view State.arb (fun _ _ => rfl) (fun _ _ => rfl) s i,
   State.freeItem_view State.lock (fun _ _ => rfl) (fun _ _ => rfl) s i,
   State.freeItem_view State.nextChain (fun _ _ => rfl) (fun _ _ => rfl) s i,
   State.freeItem_view State.segs (fun _ _ => rfl) (fun _ _ => rfl) s i,
   State.freeItem_view State.presence (fun _ _ => rfl) (fun _ _ => rfl) s i,
   State.freeItem_view State.watches (fun _ _ => rfl) (fun _ _ => rfl) s i,
   State.freeItem_view State.pool (fun _ _ => rfl) (fun _ _ => rfl) s i,
   State.freeItem_view State.jobs (fun _ _ => rfl) (fun _ _ => rfl) s i,
   State.freeItem_view State.ev (fun _ _ => rfl) (fun _ _ => rfl) s i,
   State.freeItem_view State.irq (fun _ _ => rfl) (fun _ _ => rfl) s i,
   State.freeItem_view State.link (fun _ _ => rfl) (fun _ _ => rfl) s i,
   fun h => State.freeItem_view (fun s => s.seg h) (fun _ _ => rfl) (fun _ _ => rfl) s i,
   fun h => State.freeItem_view (fun s => s.sq h) (fun _ _ => rfl) (fun _ _ => rfl) s i,
   fun h => State.freeItem_view (fun s => s.cq h) (fun _ _ => rfl) (fun _ _ => rfl) s i,
   fun h => State.freeItem_view (fun s => s.watch h) (fun _ _ => rfl) (fun _ _ => rfl) s i,
   fun h => State.freeItem_view (fun s => s.pres h) (fun _ _ => rfl) (fun _ _ => rfl) s i,
   fun h => State.freeItem_view (fun s => s.job h) (fun _ _ => rfl) (fun _ _ => rfl) s i,
   fun h => State.freeItem_view (fun s => s.restoreList h) (fun _ _ => rfl) (fun _ _ => rfl) s i⟩

theorem State.adminDone_view {γ : Type} (view : State → γ) (hcqs : BlindCqs view) (hctxs : BlindCtxs view) (hadm : BlindAdm view)
    (s : State) (st : Status) (r : Option Half) : view (s.adminDone st r) = view s := by
  unfold State.adminDone
  try dsimp only
  (repeat' split) <;> first | simp only [State.updCq_view view hcqs, State.freeItem_view view hctxs hadm, hcqs, hctxs, hadm] | rfl
@[simp] theorem State.adminDone_frame (s : State) (st : Status) (r : Option Half) :
    (s.adminDone st r).pending = s.pending ∧ (s.adminDone st r).ticks = s.ticks ∧
    (s.adminDone st r).ctl = s.ctl ∧ (s.adminDone st r).sqs = s.sqs ∧ (s.adminDone st r).arb = s.arb ∧
    (s.adminDone st r).lock = s.lock ∧ (s.adminDone st r).nextChain = s.nextChain ∧
    (s.adminDone st r).segs = s.segs ∧ (s.adminDone st r).presence = s.presence ∧
    (s.adminDone st r).watches = s.watches ∧ (s.adminDone st r).pool = s.pool ∧
    (s.adminDone st r).jobs = s.jobs ∧ (s.adminDone st r).ev = s.ev ∧ (s.adminDone st r).irq = s.irq ∧
    (s.adminDone st r).link = s.link ∧ (∀ h, (s.adminDone st r).seg h = s.seg h) ∧
    (∀ h, (s.adminDone st r).sq h = s.sq h) ∧ (∀ h, (s.adminDone st r).watch h = s.watch h) ∧
    (∀ h, (s.adminDone st r).pres h = s.pres h) ∧ (∀ h, (s.adminDone st r).job h = s.job h) ∧
    (∀ h, (s.adminDone st r).restoreList h = s.restoreList h) :=
  ⟨State.adminDone_view State.pending (fun _ _ => rfl) (fun _ _ => rfl) (fun _ _ => rfl) s st r,
   State.adminDone_view State.ticks (fun _ _ => rfl) (fun _ _ => rfl) (fun _ _ => rfl) s st r,
   State.adminDone_view State.ctl (fun _ _ => rfl) (fun _ _ => rfl) (fun _ _ => rfl) s st r,
   State.adminDone_view State.sqs (fun _ _ => rfl) (fun _ _ => rfl) (fun _ _ => rfl) s st r,
   State.adminDone_view State.arb (fun _ _ => rfl) (fun _ _ => rfl) (fun _ _ => rfl) s st r,
   State.adminDone_view State.lock (fun _ _ => rfl) (fun _ _ => rfl) (fun _ _ => rfl) s st r,
   State.adminDone_view State.nextChain (fun _ _ => rfl) (fun _ _ => rfl) (fun _ _ => rfl) s st r,
   State.adminDone_view State.segs (fun _ _ => rfl) (fun _ _ => rfl) (fun _ _ => rfl) s st r,
   State.adminDone_view State.presence (fun _ _ => rfl) (fun _ _ => rfl) (fun _ _ => rfl) s st r,
   State.adminDone_view State.watches (fun _ _ => rfl) (fun _ _ => rfl) (fun _ _ => rfl) s st r,
   State.adminDone_view State.pool (fun _ _ => rfl) (fun _ _ => rfl) (fun _ _ => rfl) s st r,
   State.adminDone_view State.jobs (fun _ _ => rfl) (fun _ _ => rfl) (fun _ _ => rfl) s st r,
   State.adminDone_view State.ev (fun _ _ => rfl) (fun _ _ => rfl) (fun _ _ => rfl) s st r,
   State.adminDone_view State.irq (fun _ _ => rfl) (fun _ _ => rfl) (fun _ _ => rfl) s st r,
   State.adminDone_view State.link (fun _ _ => rfl) (fun _ _ => rfl) (fun _ _ => rfl) s st r,
   fun h => State.adminDone_view (fun s => s.seg h) (fun _ _ => rfl) (fun _ _ => rfl) (fun _ _ => rfl) s st r,
   fun h => State.adminDone_view (fun s => s.sq h) (fun _ _ => rfl) (fun _ _ => rfl) (fun _ _ => rfl) s st r,
   fun h => State.adminDone_view (fun s => s.watch h) (fun _ _ => rfl) (fun _ _ => rfl) (fun _ _ => rfl) s st r,
   fun h => State.adminDone_view (fun s => s.pres h) (fun _ _ => rfl) (fun _ _ => rfl) (fun _ _ => rfl) s st r,
   fun h => State.adminDone_view (fun s => s.job h) (fun _ _ => rfl) (fun _ _ => rfl) (fun _ _ => rfl) s st r,
   fun h => State.adminDone_view (fun s => s.restoreList h) (fun _ _ => rfl) (fun _ _ => rfl) (fun _ _ => rfl) s st r⟩

theorem State.adminWaits_view {γ : Type} (view : State → γ) (hadm : BlindAdm view)
    (s : State) (p : AdminProgress) : view (s.adminWaits p) = view s := by
  unfold State.adminWaits
  try dsimp only
  (repeat' split) <;> first | simp only [hadm] | rfl
@[simp] theorem State.adminWaits_frame (s : State) (p : AdminProgress) :
    (s.adminWaits p).pending = s.pending ∧ (s.adminWaits p).ticks = s.ticks ∧ (s.adminWaits p).ctl = s.ctl ∧
    (s.adminWaits p).sqs = s.sqs ∧ (s.adminWaits p).cqs = s.cqs ∧ (s.adminWaits p).arb = s.arb ∧
    (s.adminWaits p).lock = s.lock ∧ (s.adminWaits p).ctxs = s.ctxs ∧
    (s.adminWaits p).nextChain = s.nextChain ∧ (s.adminWaits p).segs = s.segs ∧
    (s.adminWaits p).presence = s.presence ∧ (s.adminWaits p).watches = s.watches ∧
    (s.adminWaits p).pool = s.pool ∧ (s.adminWaits p).jobs = s.jobs ∧ (s.adminWaits p).ev = s.ev ∧
    (s.adminWaits p).irq = s.irq ∧ (s.adminWaits p).link = s.link ∧ (∀ h, (s.adminWaits p).seg h = s.seg h) ∧
    (∀ h, (s.adminWaits p).sq h = s.sq h) ∧ (∀ h, (s.adminWaits p).cq h = s.cq h) ∧
    (∀ h, (s.adminWaits p).watch h = s.watch h) ∧ (∀ h, (s.adminWaits p).pres h = s.pres h) ∧
    (∀ h, (s.adminWaits p).ctx h = s.ctx h) ∧ (∀ h, (s.adminWaits p).job h = s.job h) ∧
    (∀ h, (s.adminWaits p).restoreList h = s.restoreList h) :=
  ⟨State.adminWaits_view State.pending (fun _ _ => rfl) s p,
   State.adminWaits_view State.ticks (fun _ _ => rfl) s p,
   State.adminWaits_view State.ctl (fun _ _ => rfl) s p,
   State.adminWaits_view State.sqs (fun _ _ => rfl) s p,
   State.adminWaits_view State.cqs (fun _ _ => rfl) s p,
   State.adminWaits_view State.arb (fun _ _ => rfl) s p,
   State.adminWaits_view State.lock (fun _ _ => rfl) s p,
   State.adminWaits_view State.ctxs (fun _ _ => rfl) s p,
   State.adminWaits_view State.nextChain (fun _ _ => rfl) s p,
   State.adminWaits_view State.segs (fun _ _ => rfl) s p,
   State.adminWaits_view State.presence (fun _ _ => rfl) s p,
   State.adminWaits_view State.watches (fun _ _ => rfl) s p,
   State.adminWaits_view State.pool (fun _ _ => rfl) s p,
   State.adminWaits_view State.jobs (fun _ _ => rfl) s p,
   State.adminWaits_view State.ev (fun _ _ => rfl) s p,
   State.adminWaits_view State.irq (fun _ _ => rfl) s p,
   State.adminWaits_view State.link (fun _ _ => rfl) s p,
   fun h => State.adminWaits_view (fun s => s.seg h) (fun _ _ => rfl) s p,
   fun h => State.adminWaits_view (fun s => s.sq h) (fun _ _ => rfl) s p,
   fun h => State.adminWaits_view (fun s => s.cq h) (fun _ _ => rfl) s p,
   fun h => State.adminWaits_view (fun s => s.watch h) (fun _ _ => rfl) s p,
   fun h => State.adminWaits_view (fun s => s.pres h) (fun _ _ => rfl) s p,
   fun h => State.adminWaits_view (fun s => s.ctx h) (fun _ _ => rfl) s p,
   fun h => State.adminWaits_view (fun s => s.job h) (fun _ _ => rfl) s p,
   fun h => State.adminWaits_view (fun s => s.restoreList h) (fun _ _ => rfl) s p⟩

theorem State.releaseLock_view {γ : Type} (view : State → γ) (hlock : BlindLock view)
    (s : State) (q : SqId) : view (s.releaseLock q) = view s := by
  unfold State.releaseLock
  try dsimp only
  (repeat' split) <;> first | simp only [State.setLock_view view hlock, hlock] | rfl
@[simp] theorem State.releaseLock_frame (s : State) (q : SqId) :
    (s.releaseLock q).pending = s.pending ∧ (s.releaseLock q).ticks = s.ticks ∧
    (s.releaseLock q).ctl = s.ctl ∧ (s.releaseLock q).sqs = s.sqs ∧ (s.releaseLock q).cqs = s.cqs ∧
    (s.releaseLock q).arb = s.arb ∧ (s.releaseLock q).ctxs = s.ctxs ∧
    (s.releaseLock q).nextChain = s.nextChain ∧ (s.releaseLock q).adm = s.adm ∧
    (s.releaseLock q).segs = s.segs ∧ (s.releaseLock q).presence = s.presence ∧
    (s.releaseLock q).watches = s.watches ∧ (s.releaseLock q).pool = s.pool ∧
    (s.releaseLock q).jobs = s.jobs ∧ (s.releaseLock q).ev = s.ev ∧ (s.releaseLock q).irq = s.irq ∧
    (s.releaseLock q).link = s.link ∧ (∀ h, (s.releaseLock q).seg h = s.seg h) ∧
    (∀ h, (s.releaseLock q).sq h = s.sq h) ∧ (∀ h, (s.releaseLock q).cq h = s.cq h) ∧
    (∀ h, (s.releaseLock q).watch h = s.watch h) ∧ (∀ h, (s.releaseLock q).pres h = s.pres h) ∧
    (∀ h, (s.releaseLock q).ctx h = s.ctx h) ∧ (∀ h, (s.releaseLock q).job h = s.job h) ∧
    (∀ h, (s.releaseLock q).restoreList h = s.restoreList h) :=
  ⟨State.releaseLock_view State.pending (fun _ _ => rfl) s q,
   State.releaseLock_view State.ticks (fun _ _ => rfl) s q,
   State.releaseLock_view State.ctl (fun _ _ => rfl) s q,
   State.releaseLock_view State.sqs (fun _ _ => rfl) s q,
   State.releaseLock_view State.cqs (fun _ _ => rfl) s q,
   State.releaseLock_view State.arb (fun _ _ => rfl) s q,
   State.releaseLock_view State.ctxs (fun _ _ => rfl) s q,
   State.releaseLock_view State.nextChain (fun _ _ => rfl) s q,
   State.releaseLock_view State.adm (fun _ _ => rfl) s q,
   State.releaseLock_view State.segs (fun _ _ => rfl) s q,
   State.releaseLock_view State.presence (fun _ _ => rfl) s q,
   State.releaseLock_view State.watches (fun _ _ => rfl) s q,
   State.releaseLock_view State.pool (fun _ _ => rfl) s q,
   State.releaseLock_view State.jobs (fun _ _ => rfl) s q,
   State.releaseLock_view State.ev (fun _ _ => rfl) s q,
   State.releaseLock_view State.irq (fun _ _ => rfl) s q,
   State.releaseLock_view State.link (fun _ _ => rfl) s q,
   fun h => State.releaseLock_view (fun s => s.seg h) (fun _ _ => rfl) s q,
   fun h => State.releaseLock_view (fun s => s.sq h) (fun _ _ => rfl) s q,
   fun h => State.releaseLock_view (fun s => s.cq h) (fun _ _ => rfl) s q,
   fun h => State.releaseLock_view (fun s => s.watch h) (fun _ _ => rfl) s q,
   fun h => State.releaseLock_view (fun s => s.pres h) (fun _ _ => rfl) s q,
   fun h => State.releaseLock_view (fun s => s.ctx h) (fun _ _ => rfl) s q,
   fun h => State.releaseLock_view (fun s => s.job h) (fun _ _ => rfl) s q,
   fun h => State.releaseLock_view (fun s => s.restoreList h) (fun _ _ => rfl) s q⟩

theorem State.sqError_view {γ : Type} (view : State → γ) (hsqs : BlindSqs view) (hcqs : BlindCqs view) (hlock : BlindLock view) (hctxs : BlindCtxs view) (hsegs : BlindSegs view) (hev : BlindEv view) (hlink : BlindLink view)
    (s : State) (c : QueueCause) (q : SqId) : view (State.sqError c s q) = view s := by
  unfold State.sqError
  try dsimp only
  (repeat' split) <;> first | simp only [State.setSq_view view hsqs, State.handEvent_view view hev, State.abortChain_view view hsqs hcqs hctxs hsegs hlink, State.releaseLock_view view hlock, hsqs, hcqs, hlock, hctxs, hsegs, hev, hlink] | rfl
@[simp] theorem State.sqError_frame (s : State) (c : QueueCause) (q : SqId) :
    (State.sqError c s q).pending = s.pending ∧ (State.sqError c s q).ticks = s.ticks ∧
    (State.sqError c s q).ctl = s.ctl ∧ (State.sqError c s q).arb = s.arb ∧
    (State.sqError c s q).nextChain = s.nextChain ∧ (State.sqError c s q).adm = s.adm ∧
    (State.sqError c s q).presence = s.presence ∧ (State.sqError c s q).watches = s.watches ∧
    (State.sqError c s q).pool = s.pool ∧ (State.sqError c s q).jobs = s.jobs ∧
    (State.sqError c s q).irq = s.irq ∧ (∀ h, (State.sqError c s q).watch h = s.watch h) ∧
    (∀ h, (State.sqError c s q).pres h = s.pres h) ∧ (∀ h, (State.sqError c s q).job h = s.job h) ∧
    (∀ h, (State.sqError c s q).restoreList h = s.restoreList h) :=
  ⟨State.sqError_view State.pending (fun _ _ => rfl) (fun _ _ => rfl) (fun _ _ => rfl) (fun _ _ => rfl) (fun _ _ => rfl) (fun _ _ => rfl) (fun _ _ => rfl) s c q,
   State.sqError_view State.ticks (fun _ _ => rfl) (fun _ _ => rfl) (fun _ _ => rfl) (fun _ _ => rfl) (fun _ _ => rfl) (fun _ _ => rfl) (fun _ _ => rfl) s c q,
   State.sqError_view State.ctl (fun _ _ => rfl) (fun _ _ => rfl) (fun _ _ => rfl) (fun _ _ => rfl) (fun _ _ => rfl) (fun _ _ => rfl) (fun _ _ => rfl) s c q,
   State.sqError_view State.arb (fun _ _ => rfl) (fun _ _ => rfl) (fun _ _ => rfl) (fun _ _ => rfl) (fun _ _ => rfl) (fun _ _ => rfl) (fun _ _ => rfl) s c q,
   State.sqError_view State.nextChain (fun _ _ => rfl) (fun _ _ => rfl) (fun _ _ => rfl) (fun _ _ => rfl) (fun _ _ => rfl) (fun _ _ => rfl) (fun _ _ => rfl) s c q,
   State.sqError_view State.adm (fun _ _ => rfl) (fun _ _ => rfl) (fun _ _ => rfl) (fun _ _ => rfl) (fun _ _ => rfl) (fun _ _ => rfl) (fun _ _ => rfl) s c q,
   State.sqError_view State.presence (fun _ _ => rfl) (fun _ _ => rfl) (fun _ _ => rfl) (fun _ _ => rfl) (fun _ _ => rfl) (fun _ _ => rfl) (fun _ _ => rfl) s c q,
   State.sqError_view State.watches (fun _ _ => rfl) (fun _ _ => rfl) (fun _ _ => rfl) (fun _ _ => rfl) (fun _ _ => rfl) (fun _ _ => rfl) (fun _ _ => rfl) s c q,
   State.sqError_view State.pool (fun _ _ => rfl) (fun _ _ => rfl) (fun _ _ => rfl) (fun _ _ => rfl) (fun _ _ => rfl) (fun _ _ => rfl) (fun _ _ => rfl) s c q,
   State.sqError_view State.jobs (fun _ _ => rfl) (fun _ _ => rfl) (fun _ _ => rfl) (fun _ _ => rfl) (fun _ _ => rfl) (fun _ _ => rfl) (fun _ _ => rfl) s c q,
   State.sqError_view State.irq (fun _ _ => rfl) (fun _ _ => rfl) (fun _ _ => rfl) (fun _ _ => rfl) (fun _ _ => rfl) (fun _ _ => rfl) (fun _ _ => rfl) s c q,
   fun h => State.sqError_view (fun s => s.watch h) (fun _ _ => rfl) (fun _ _ => rfl) (fun _ _ => rfl) (fun _ _ => rfl) (fun _ _ => rfl) (fun _ _ => rfl) (fun _ _ => rfl) s c q,
   fun h => State.sqError_view (fun s => s.pres h) (fun _ _ => rfl) (fun _ _ => rfl) (fun _ _ => rfl) (fun _ _ => rfl) (fun _ _ => rfl) (fun _ _ => rfl) (fun _ _ => rfl) s c q,
   fun h => State.sqError_view (fun s => s.job h) (fun _ _ => rfl) (fun _ _ => rfl) (fun _ _ => rfl) (fun _ _ => rfl) (fun _ _ => rfl) (fun _ _ => rfl) (fun _ _ => rfl) s c q,
   fun h => State.sqError_view (fun s => s.restoreList h) (fun _ _ => rfl) (fun _ _ => rfl) (fun _ _ => rfl) (fun _ _ => rfl) (fun _ _ => rfl) (fun _ _ => rfl) (fun _ _ => rfl) s c q⟩

theorem State.cqError_view {γ : Type} (view : State → γ) (hsqs : BlindSqs view) (hcqs : BlindCqs view) (hlock : BlindLock view) (hctxs : BlindCtxs view) (hadm : BlindAdm view) (hsegs : BlindSegs view) (hev : BlindEv view) (hlink : BlindLink view)
    (s : State) (c : CqId) (k : QueueCause) : view (s.cqError c k) = view s := by
  unfold State.cqError
  try dsimp only
  (repeat' split) <;>
    simp (disch := first | (intros; simp only [State.setCq_view view hcqs, State.handEvent_view view hev, State.freeItem_view view hctxs hadm, State.sqError_view view hsqs hcqs hlock hctxs hsegs hev hlink, hsqs, hcqs, hlock, hctxs, hadm, hsegs, hev, hlink])) only [foldl_same view, State.setCq_view view hcqs, State.handEvent_view view hev, State.freeItem_view view hctxs hadm, State.sqError_view view hsqs hcqs hlock hctxs hsegs hev hlink, hsqs, hcqs, hlock, hctxs, hadm, hsegs, hev, hlink]
@[simp] theorem State.cqError_frame (s : State) (c : CqId) (k : QueueCause) :
    (s.cqError c k).pending = s.pending ∧ (s.cqError c k).ticks = s.ticks ∧ (s.cqError c k).ctl = s.ctl ∧
    (s.cqError c k).arb = s.arb ∧ (s.cqError c k).nextChain = s.nextChain ∧
    (s.cqError c k).presence = s.presence ∧ (s.cqError c k).watches = s.watches ∧
    (s.cqError c k).pool = s.pool ∧ (s.cqError c k).jobs = s.jobs ∧ (s.cqError c k).irq = s.irq ∧
    (∀ h, (s.cqError c k).watch h = s.watch h) ∧ (∀ h, (s.cqError c k).pres h = s.pres h) ∧
    (∀ h, (s.cqError c k).job h = s.job h) ∧ (∀ h, (s.cqError c k).restoreList h = s.restoreList h) :=
  ⟨State.cqError_view State.pending (fun _ _ => rfl) (fun _ _ => rfl) (fun _ _ => rfl) (fun _ _ => rfl) (fun _ _ => rfl) (fun _ _ => rfl) (fun _ _ => rfl) (fun _ _ => rfl) s c k,
   State.cqError_view State.ticks (fun _ _ => rfl) (fun _ _ => rfl) (fun _ _ => rfl) (fun _ _ => rfl) (fun _ _ => rfl) (fun _ _ => rfl) (fun _ _ => rfl) (fun _ _ => rfl) s c k,
   State.cqError_view State.ctl (fun _ _ => rfl) (fun _ _ => rfl) (fun _ _ => rfl) (fun _ _ => rfl) (fun _ _ => rfl) (fun _ _ => rfl) (fun _ _ => rfl) (fun _ _ => rfl) s c k,
   State.cqError_view State.arb (fun _ _ => rfl) (fun _ _ => rfl) (fun _ _ => rfl) (fun _ _ => rfl) (fun _ _ => rfl) (fun _ _ => rfl) (fun _ _ => rfl) (fun _ _ => rfl) s c k,
   State.cqError_view State.nextChain (fun _ _ => rfl) (fun _ _ => rfl) (fun _ _ => rfl) (fun _ _ => rfl) (fun _ _ => rfl) (fun _ _ => rfl) (fun _ _ => rfl) (fun _ _ => rfl) s c k,
   State.cqError_view State.presence (fun _ _ => rfl) (fun _ _ => rfl) (fun _ _ => rfl) (fun _ _ => rfl) (fun _ _ => rfl) (fun _ _ => rfl) (fun _ _ => rfl) (fun _ _ => rfl) s c k,
   State.cqError_view State.watches (fun _ _ => rfl) (fun _ _ => rfl) (fun _ _ => rfl) (fun _ _ => rfl) (fun _ _ => rfl) (fun _ _ => rfl) (fun _ _ => rfl) (fun _ _ => rfl) s c k,
   State.cqError_view State.pool (fun _ _ => rfl) (fun _ _ => rfl) (fun _ _ => rfl) (fun _ _ => rfl) (fun _ _ => rfl) (fun _ _ => rfl) (fun _ _ => rfl) (fun _ _ => rfl) s c k,
   State.cqError_view State.jobs (fun _ _ => rfl) (fun _ _ => rfl) (fun _ _ => rfl) (fun _ _ => rfl) (fun _ _ => rfl) (fun _ _ => rfl) (fun _ _ => rfl) (fun _ _ => rfl) s c k,
   State.cqError_view State.irq (fun _ _ => rfl) (fun _ _ => rfl) (fun _ _ => rfl) (fun _ _ => rfl) (fun _ _ => rfl) (fun _ _ => rfl) (fun _ _ => rfl) (fun _ _ => rfl) s c k,
   fun h => State.cqError_view (fun s => s.watch h) (fun _ _ => rfl) (fun _ _ => rfl) (fun _ _ => rfl) (fun _ _ => rfl) (fun _ _ => rfl) (fun _ _ => rfl) (fun _ _ => rfl) (fun _ _ => rfl) s c k,
   fun h => State.cqError_view (fun s => s.pres h) (fun _ _ => rfl) (fun _ _ => rfl) (fun _ _ => rfl) (fun _ _ => rfl) (fun _ _ => rfl) (fun _ _ => rfl) (fun _ _ => rfl) (fun _ _ => rfl) s c k,
   fun h => State.cqError_view (fun s => s.job h) (fun _ _ => rfl) (fun _ _ => rfl) (fun _ _ => rfl) (fun _ _ => rfl) (fun _ _ => rfl) (fun _ _ => rfl) (fun _ _ => rfl) (fun _ _ => rfl) s c k,
   fun h => State.cqError_view (fun s => s.restoreList h) (fun _ _ => rfl) (fun _ _ => rfl) (fun _ _ => rfl) (fun _ _ => rfl) (fun _ _ => rfl) (fun _ _ => rfl) (fun _ _ => rfl) (fun _ _ => rfl) s c k⟩

theorem State.tearDownCtx_view {γ : Type} (view : State → γ) (hsqs : BlindSqs view) (hcqs : BlindCqs view) (hctxs : BlindCtxs view) (hsegs : BlindSegs view) (hlink : BlindLink view)
    (s : State) (st : Status) (n : CtxNum) : view (State.tearDownCtx st s n) = view s := by
  unfold State.tearDownCtx
  try dsimp only
  (repeat' split) <;> first | simp only [State.updCtx_view view hctxs, State.cancel_view view hsqs hcqs hctxs hsegs hlink, hsqs, hcqs, hctxs, hsegs, hlink] | rfl
@[simp] theorem State.tearDownCtx_frame (s : State) (st : Status) (n : CtxNum) :
    (State.tearDownCtx st s n).pending = s.pending ∧ (State.tearDownCtx st s n).ticks = s.ticks ∧
    (State.tearDownCtx st s n).ctl = s.ctl ∧ (State.tearDownCtx st s n).arb = s.arb ∧
    (State.tearDownCtx st s n).lock = s.lock ∧ (State.tearDownCtx st s n).nextChain = s.nextChain ∧
    (State.tearDownCtx st s n).adm = s.adm ∧ (State.tearDownCtx st s n).presence = s.presence ∧
    (State.tearDownCtx st s n).watches = s.watches ∧ (State.tearDownCtx st s n).pool = s.pool ∧
    (State.tearDownCtx st s n).jobs = s.jobs ∧ (State.tearDownCtx st s n).ev = s.ev ∧
    (State.tearDownCtx st s n).irq = s.irq ∧ (∀ h, (State.tearDownCtx st s n).watch h = s.watch h) ∧
    (∀ h, (State.tearDownCtx st s n).pres h = s.pres h) ∧ (∀ h, (State.tearDownCtx st s n).job h = s.job h) ∧
    (∀ h, (State.tearDownCtx st s n).restoreList h = s.restoreList h) :=
  ⟨State.tearDownCtx_view State.pending (fun _ _ => rfl) (fun _ _ => rfl) (fun _ _ => rfl) (fun _ _ => rfl) (fun _ _ => rfl) s st n,
   State.tearDownCtx_view State.ticks (fun _ _ => rfl) (fun _ _ => rfl) (fun _ _ => rfl) (fun _ _ => rfl) (fun _ _ => rfl) s st n,
   State.tearDownCtx_view State.ctl (fun _ _ => rfl) (fun _ _ => rfl) (fun _ _ => rfl) (fun _ _ => rfl) (fun _ _ => rfl) s st n,
   State.tearDownCtx_view State.arb (fun _ _ => rfl) (fun _ _ => rfl) (fun _ _ => rfl) (fun _ _ => rfl) (fun _ _ => rfl) s st n,
   State.tearDownCtx_view State.lock (fun _ _ => rfl) (fun _ _ => rfl) (fun _ _ => rfl) (fun _ _ => rfl) (fun _ _ => rfl) s st n,
   State.tearDownCtx_view State.nextChain (fun _ _ => rfl) (fun _ _ => rfl) (fun _ _ => rfl) (fun _ _ => rfl) (fun _ _ => rfl) s st n,
   State.tearDownCtx_view State.adm (fun _ _ => rfl) (fun _ _ => rfl) (fun _ _ => rfl) (fun _ _ => rfl) (fun _ _ => rfl) s st n,
   State.tearDownCtx_view State.presence (fun _ _ => rfl) (fun _ _ => rfl) (fun _ _ => rfl) (fun _ _ => rfl) (fun _ _ => rfl) s st n,
   State.tearDownCtx_view State.watches (fun _ _ => rfl) (fun _ _ => rfl) (fun _ _ => rfl) (fun _ _ => rfl) (fun _ _ => rfl) s st n,
   State.tearDownCtx_view State.pool (fun _ _ => rfl) (fun _ _ => rfl) (fun _ _ => rfl) (fun _ _ => rfl) (fun _ _ => rfl) s st n,
   State.tearDownCtx_view State.jobs (fun _ _ => rfl) (fun _ _ => rfl) (fun _ _ => rfl) (fun _ _ => rfl) (fun _ _ => rfl) s st n,
   State.tearDownCtx_view State.ev (fun _ _ => rfl) (fun _ _ => rfl) (fun _ _ => rfl) (fun _ _ => rfl) (fun _ _ => rfl) s st n,
   State.tearDownCtx_view State.irq (fun _ _ => rfl) (fun _ _ => rfl) (fun _ _ => rfl) (fun _ _ => rfl) (fun _ _ => rfl) s st n,
   fun h => State.tearDownCtx_view (fun s => s.watch h) (fun _ _ => rfl) (fun _ _ => rfl) (fun _ _ => rfl) (fun _ _ => rfl) (fun _ _ => rfl) s st n,
   fun h => State.tearDownCtx_view (fun s => s.pres h) (fun _ _ => rfl) (fun _ _ => rfl) (fun _ _ => rfl) (fun _ _ => rfl) (fun _ _ => rfl) s st n,
   fun h => State.tearDownCtx_view (fun s => s.job h) (fun _ _ => rfl) (fun _ _ => rfl) (fun _ _ => rfl) (fun _ _ => rfl) (fun _ _ => rfl) s st n,
   fun h => State.tearDownCtx_view (fun s => s.restoreList h) (fun _ _ => rfl) (fun _ _ => rfl) (fun _ _ => rfl) (fun _ _ => rfl) (fun _ _ => rfl) s st n⟩

theorem State.endContexts_view {γ : Type} (view : State → γ) (hsqs : BlindSqs view) (hcqs : BlindCqs view) (hctxs : BlindCtxs view) (hsegs : BlindSegs view) (hlink : BlindLink view)
    (s : State) (g : SegId) (st : Status) : view (s.endContexts g st) = view s := by
  unfold State.endContexts
  try dsimp only
  (repeat' split) <;>
    simp (disch := first | (intros; simp only [State.mapSqs_view view hsqs, State.tearDownCtx_view view hsqs hcqs hctxs hsegs hlink, hsqs, hcqs, hctxs, hsegs, hlink])) only [foldl_same view, State.mapSqs_view view hsqs, State.tearDownCtx_view view hsqs hcqs hctxs hsegs hlink, hsqs, hcqs, hctxs, hsegs, hlink]
@[simp] theorem State.endContexts_frame (s : State) (g : SegId) (st : Status) :
    (s.endContexts g st).pending = s.pending ∧ (s.endContexts g st).ticks = s.ticks ∧
    (s.endContexts g st).ctl = s.ctl ∧ (s.endContexts g st).arb = s.arb ∧
    (s.endContexts g st).lock = s.lock ∧ (s.endContexts g st).nextChain = s.nextChain ∧
    (s.endContexts g st).adm = s.adm ∧ (s.endContexts g st).presence = s.presence ∧
    (s.endContexts g st).watches = s.watches ∧ (s.endContexts g st).pool = s.pool ∧
    (s.endContexts g st).jobs = s.jobs ∧ (s.endContexts g st).ev = s.ev ∧ (s.endContexts g st).irq = s.irq ∧
    (∀ h, (s.endContexts g st).watch h = s.watch h) ∧ (∀ h, (s.endContexts g st).pres h = s.pres h) ∧
    (∀ h, (s.endContexts g st).job h = s.job h) ∧
    (∀ h, (s.endContexts g st).restoreList h = s.restoreList h) :=
  ⟨State.endContexts_view State.pending (fun _ _ => rfl) (fun _ _ => rfl) (fun _ _ => rfl) (fun _ _ => rfl) (fun _ _ => rfl) s g st,
   State.endContexts_view State.ticks (fun _ _ => rfl) (fun _ _ => rfl) (fun _ _ => rfl) (fun _ _ => rfl) (fun _ _ => rfl) s g st,
   State.endContexts_view State.ctl (fun _ _ => rfl) (fun _ _ => rfl) (fun _ _ => rfl) (fun _ _ => rfl) (fun _ _ => rfl) s g st,
   State.endContexts_view State.arb (fun _ _ => rfl) (fun _ _ => rfl) (fun _ _ => rfl) (fun _ _ => rfl) (fun _ _ => rfl) s g st,
   State.endContexts_view State.lock (fun _ _ => rfl) (fun _ _ => rfl) (fun _ _ => rfl) (fun _ _ => rfl) (fun _ _ => rfl) s g st,
   State.endContexts_view State.nextChain (fun _ _ => rfl) (fun _ _ => rfl) (fun _ _ => rfl) (fun _ _ => rfl) (fun _ _ => rfl) s g st,
   State.endContexts_view State.adm (fun _ _ => rfl) (fun _ _ => rfl) (fun _ _ => rfl) (fun _ _ => rfl) (fun _ _ => rfl) s g st,
   State.endContexts_view State.presence (fun _ _ => rfl) (fun _ _ => rfl) (fun _ _ => rfl) (fun _ _ => rfl) (fun _ _ => rfl) s g st,
   State.endContexts_view State.watches (fun _ _ => rfl) (fun _ _ => rfl) (fun _ _ => rfl) (fun _ _ => rfl) (fun _ _ => rfl) s g st,
   State.endContexts_view State.pool (fun _ _ => rfl) (fun _ _ => rfl) (fun _ _ => rfl) (fun _ _ => rfl) (fun _ _ => rfl) s g st,
   State.endContexts_view State.jobs (fun _ _ => rfl) (fun _ _ => rfl) (fun _ _ => rfl) (fun _ _ => rfl) (fun _ _ => rfl) s g st,
   State.endContexts_view State.ev (fun _ _ => rfl) (fun _ _ => rfl) (fun _ _ => rfl) (fun _ _ => rfl) (fun _ _ => rfl) s g st,
   State.endContexts_view State.irq (fun _ _ => rfl) (fun _ _ => rfl) (fun _ _ => rfl) (fun _ _ => rfl) (fun _ _ => rfl) s g st,
   fun h => State.endContexts_view (fun s => s.watch h) (fun _ _ => rfl) (fun _ _ => rfl) (fun _ _ => rfl) (fun _ _ => rfl) (fun _ _ => rfl) s g st,
   fun h => State.endContexts_view (fun s => s.pres h) (fun _ _ => rfl) (fun _ _ => rfl) (fun _ _ => rfl) (fun _ _ => rfl) (fun _ _ => rfl) s g st,
   fun h => State.endContexts_view (fun s => s.job h) (fun _ _ => rfl) (fun _ _ => rfl) (fun _ _ => rfl) (fun _ _ => rfl) (fun _ _ => rfl) s g st,
   fun h => State.endContexts_view (fun s => s.restoreList h) (fun _ _ => rfl) (fun _ _ => rfl) (fun _ _ => rfl) (fun _ _ => rfl) (fun _ _ => rfl) s g st⟩

theorem State.dropResponse_view {γ : Type} (view : State → γ) (hwatches : BlindWatches view)
    (s : State) (r : RespWrite) : view (s.dropResponse r) = view s := by
  unfold State.dropResponse
  try dsimp only
  (repeat' split) <;> first | simp only [State.updWatch_view view hwatches, hwatches] | rfl
@[simp] theorem State.dropResponse_frame (s : State) (r : RespWrite) :
    (s.dropResponse r).pending = s.pending ∧ (s.dropResponse r).ticks = s.ticks ∧
    (s.dropResponse r).ctl = s.ctl ∧ (s.dropResponse r).sqs = s.sqs ∧ (s.dropResponse r).cqs = s.cqs ∧
    (s.dropResponse r).arb = s.arb ∧ (s.dropResponse r).lock = s.lock ∧ (s.dropResponse r).ctxs = s.ctxs ∧
    (s.dropResponse r).nextChain = s.nextChain ∧ (s.dropResponse r).adm = s.adm ∧
    (s.dropResponse r).segs = s.segs ∧ (s.dropResponse r).presence = s.presence ∧
    (s.dropResponse r).pool = s.pool ∧ (s.dropResponse r).jobs = s.jobs ∧ (s.dropResponse r).ev = s.ev ∧
    (s.dropResponse r).irq = s.irq ∧ (s.dropResponse r).link = s.link ∧
    (∀ h, (s.dropResponse r).seg h = s.seg h) ∧ (∀ h, (s.dropResponse r).sq h = s.sq h) ∧
    (∀ h, (s.dropResponse r).cq h = s.cq h) ∧ (∀ h, (s.dropResponse r).pres h = s.pres h) ∧
    (∀ h, (s.dropResponse r).ctx h = s.ctx h) ∧ (∀ h, (s.dropResponse r).job h = s.job h) ∧
    (∀ h, (s.dropResponse r).restoreList h = s.restoreList h) :=
  ⟨State.dropResponse_view State.pending (fun _ _ => rfl) s r,
   State.dropResponse_view State.ticks (fun _ _ => rfl) s r,
   State.dropResponse_view State.ctl (fun _ _ => rfl) s r,
   State.dropResponse_view State.sqs (fun _ _ => rfl) s r,
   State.dropResponse_view State.cqs (fun _ _ => rfl) s r,
   State.dropResponse_view State.arb (fun _ _ => rfl) s r,
   State.dropResponse_view State.lock (fun _ _ => rfl) s r,
   State.dropResponse_view State.ctxs (fun _ _ => rfl) s r,
   State.dropResponse_view State.nextChain (fun _ _ => rfl) s r,
   State.dropResponse_view State.adm (fun _ _ => rfl) s r,
   State.dropResponse_view State.segs (fun _ _ => rfl) s r,
   State.dropResponse_view State.presence (fun _ _ => rfl) s r,
   State.dropResponse_view State.pool (fun _ _ => rfl) s r,
   State.dropResponse_view State.jobs (fun _ _ => rfl) s r,
   State.dropResponse_view State.ev (fun _ _ => rfl) s r,
   State.dropResponse_view State.irq (fun _ _ => rfl) s r,
   State.dropResponse_view State.link (fun _ _ => rfl) s r,
   fun h => State.dropResponse_view (fun s => s.seg h) (fun _ _ => rfl) s r,
   fun h => State.dropResponse_view (fun s => s.sq h) (fun _ _ => rfl) s r,
   fun h => State.dropResponse_view (fun s => s.cq h) (fun _ _ => rfl) s r,
   fun h => State.dropResponse_view (fun s => s.pres h) (fun _ _ => rfl) s r,
   fun h => State.dropResponse_view (fun s => s.ctx h) (fun _ _ => rfl) s r,
   fun h => State.dropResponse_view (fun s => s.job h) (fun _ _ => rfl) s r,
   fun h => State.dropResponse_view (fun s => s.restoreList h) (fun _ _ => rfl) s r⟩

theorem State.dropResponses_view {γ : Type} (view : State → γ) (hsegs : BlindSegs view) (hwatches : BlindWatches view)
    (s : State) (g : SegId) : view (s.dropResponses g) = view s := by
  unfold State.dropResponses
  try dsimp only
  (repeat' split) <;>
    simp (disch := first | (intros; simp only [State.updSeg_view view hsegs, State.dropResponse_view view hwatches, hsegs, hwatches])) only [foldl_same view, State.updSeg_view view hsegs, State.dropResponse_view view hwatches, hsegs, hwatches]
@[simp] theorem State.dropResponses_frame (s : State) (g : SegId) :
    (s.dropResponses g).pending = s.pending ∧ (s.dropResponses g).ticks = s.ticks ∧
    (s.dropResponses g).ctl = s.ctl ∧ (s.dropResponses g).sqs = s.sqs ∧ (s.dropResponses g).cqs = s.cqs ∧
    (s.dropResponses g).arb = s.arb ∧ (s.dropResponses g).lock = s.lock ∧ (s.dropResponses g).ctxs = s.ctxs ∧
    (s.dropResponses g).nextChain = s.nextChain ∧ (s.dropResponses g).adm = s.adm ∧
    (s.dropResponses g).presence = s.presence ∧ (s.dropResponses g).pool = s.pool ∧
    (s.dropResponses g).jobs = s.jobs ∧ (s.dropResponses g).ev = s.ev ∧ (s.dropResponses g).irq = s.irq ∧
    (s.dropResponses g).link = s.link ∧ (∀ h, (s.dropResponses g).sq h = s.sq h) ∧
    (∀ h, (s.dropResponses g).cq h = s.cq h) ∧ (∀ h, (s.dropResponses g).pres h = s.pres h) ∧
    (∀ h, (s.dropResponses g).ctx h = s.ctx h) ∧ (∀ h, (s.dropResponses g).job h = s.job h) ∧
    (∀ h, (s.dropResponses g).restoreList h = s.restoreList h) :=
  ⟨State.dropResponses_view State.pending (fun _ _ => rfl) (fun _ _ => rfl) s g,
   State.dropResponses_view State.ticks (fun _ _ => rfl) (fun _ _ => rfl) s g,
   State.dropResponses_view State.ctl (fun _ _ => rfl) (fun _ _ => rfl) s g,
   State.dropResponses_view State.sqs (fun _ _ => rfl) (fun _ _ => rfl) s g,
   State.dropResponses_view State.cqs (fun _ _ => rfl) (fun _ _ => rfl) s g,
   State.dropResponses_view State.arb (fun _ _ => rfl) (fun _ _ => rfl) s g,
   State.dropResponses_view State.lock (fun _ _ => rfl) (fun _ _ => rfl) s g,
   State.dropResponses_view State.ctxs (fun _ _ => rfl) (fun _ _ => rfl) s g,
   State.dropResponses_view State.nextChain (fun _ _ => rfl) (fun _ _ => rfl) s g,
   State.dropResponses_view State.adm (fun _ _ => rfl) (fun _ _ => rfl) s g,
   State.dropResponses_view State.presence (fun _ _ => rfl) (fun _ _ => rfl) s g,
   State.dropResponses_view State.pool (fun _ _ => rfl) (fun _ _ => rfl) s g,
   State.dropResponses_view State.jobs (fun _ _ => rfl) (fun _ _ => rfl) s g,
   State.dropResponses_view State.ev (fun _ _ => rfl) (fun _ _ => rfl) s g,
   State.dropResponses_view State.irq (fun _ _ => rfl) (fun _ _ => rfl) s g,
   State.dropResponses_view State.link (fun _ _ => rfl) (fun _ _ => rfl) s g,
   fun h => State.dropResponses_view (fun s => s.sq h) (fun _ _ => rfl) (fun _ _ => rfl) s g,
   fun h => State.dropResponses_view (fun s => s.cq h) (fun _ _ => rfl) (fun _ _ => rfl) s g,
   fun h => State.dropResponses_view (fun s => s.pres h) (fun _ _ => rfl) (fun _ _ => rfl) s g,
   fun h => State.dropResponses_view (fun s => s.ctx h) (fun _ _ => rfl) (fun _ _ => rfl) s g,
   fun h => State.dropResponses_view (fun s => s.job h) (fun _ _ => rfl) (fun _ _ => rfl) s g,
   fun h => State.dropResponses_view (fun s => s.restoreList h) (fun _ _ => rfl) (fun _ _ => rfl) s g⟩

theorem State.stopReplayRetries_view {γ : Type} (view : State → γ) (hjobs : BlindJobs view)
    (s : State) (g : SegId) : view (s.stopReplayRetries g) = view s := by
  unfold State.stopReplayRetries
  try dsimp only
  (repeat' split) <;> first | simp only [hjobs] | rfl
@[simp] theorem State.stopReplayRetries_frame (s : State) (g : SegId) :
    (s.stopReplayRetries g).pending = s.pending ∧ (s.stopReplayRetries g).ticks = s.ticks ∧
    (s.stopReplayRetries g).ctl = s.ctl ∧ (s.stopReplayRetries g).sqs = s.sqs ∧
    (s.stopReplayRetries g).cqs = s.cqs ∧ (s.stopReplayRetries g).arb = s.arb ∧
    (s.stopReplayRetries g).lock = s.lock ∧ (s.stopReplayRetries g).ctxs = s.ctxs ∧
    (s.stopReplayRetries g).nextChain = s.nextChain ∧ (s.stopReplayRetries g).adm = s.adm ∧
    (s.stopReplayRetries g).segs = s.segs ∧ (s.stopReplayRetries g).presence = s.presence ∧
    (s.stopReplayRetries g).watches = s.watches ∧ (s.stopReplayRetries g).pool = s.pool ∧
    (s.stopReplayRetries g).ev = s.ev ∧ (s.stopReplayRetries g).irq = s.irq ∧
    (s.stopReplayRetries g).link = s.link ∧ (∀ h, (s.stopReplayRetries g).seg h = s.seg h) ∧
    (∀ h, (s.stopReplayRetries g).sq h = s.sq h) ∧ (∀ h, (s.stopReplayRetries g).cq h = s.cq h) ∧
    (∀ h, (s.stopReplayRetries g).watch h = s.watch h) ∧ (∀ h, (s.stopReplayRetries g).pres h = s.pres h) ∧
    (∀ h, (s.stopReplayRetries g).ctx h = s.ctx h) ∧
    (∀ h, (s.stopReplayRetries g).restoreList h = s.restoreList h) :=
  ⟨State.stopReplayRetries_view State.pending (fun _ _ => rfl) s g,
   State.stopReplayRetries_view State.ticks (fun _ _ => rfl) s g,
   State.stopReplayRetries_view State.ctl (fun _ _ => rfl) s g,
   State.stopReplayRetries_view State.sqs (fun _ _ => rfl) s g,
   State.stopReplayRetries_view State.cqs (fun _ _ => rfl) s g,
   State.stopReplayRetries_view State.arb (fun _ _ => rfl) s g,
   State.stopReplayRetries_view State.lock (fun _ _ => rfl) s g,
   State.stopReplayRetries_view State.ctxs (fun _ _ => rfl) s g,
   State.stopReplayRetries_view State.nextChain (fun _ _ => rfl) s g,
   State.stopReplayRetries_view State.adm (fun _ _ => rfl) s g,
   State.stopReplayRetries_view State.segs (fun _ _ => rfl) s g,
   State.stopReplayRetries_view State.presence (fun _ _ => rfl) s g,
   State.stopReplayRetries_view State.watches (fun _ _ => rfl) s g,
   State.stopReplayRetries_view State.pool (fun _ _ => rfl) s g,
   State.stopReplayRetries_view State.ev (fun _ _ => rfl) s g,
   State.stopReplayRetries_view State.irq (fun _ _ => rfl) s g,
   State.stopReplayRetries_view State.link (fun _ _ => rfl) s g,
   fun h => State.stopReplayRetries_view (fun s => s.seg h) (fun _ _ => rfl) s g,
   fun h => State.stopReplayRetries_view (fun s => s.sq h) (fun _ _ => rfl) s g,
   fun h => State.stopReplayRetries_view (fun s => s.cq h) (fun _ _ => rfl) s g,
   fun h => State.stopReplayRetries_view (fun s => s.watch h) (fun _ _ => rfl) s g,
   fun h => State.stopReplayRetries_view (fun s => s.pres h) (fun _ _ => rfl) s g,
   fun h => State.stopReplayRetries_view (fun s => s.ctx h) (fun _ _ => rfl) s g,
   fun h => State.stopReplayRetries_view (fun s => s.restoreList h) (fun _ _ => rfl) s g⟩

theorem State.enterDraining_view {γ : Type} (view : State → γ) (hsqs : BlindSqs view) (hcqs : BlindCqs view) (hctxs : BlindCtxs view) (hsegs : BlindSegs view) (hwatches : BlindWatches view) (hjobs : BlindJobs view) (hlink : BlindLink view)
    (s : State) (g : SegId) : view (s.enterDraining g) = view s := by
  unfold State.enterDraining
  try dsimp only
  (repeat' split) <;> first | simp only [State.updSeg_view view hsegs, State.haltWatches_view view hsegs hwatches, State.endContexts_view view hsqs hcqs hctxs hsegs hlink, State.dropResponses_view view hsegs hwatches, State.stopReplayRetries_view view hjobs, hsqs, hcqs, hctxs, hsegs, hwatches, hjobs, hlink] | rfl
@[simp] theorem State.enterDraining_frame (s : State) (g : SegId) :
    (s.enterDraining g).pending = s.pending ∧ (s.enterDraining g).ticks = s.ticks ∧
    (s.enterDraining g).ctl = s.ctl ∧ (s.enterDraining g).arb = s.arb ∧ (s.enterDraining g).lock = s.lock ∧
    (s.enterDraining g).nextChain = s.nextChain ∧ (s.enterDraining g).adm = s.adm ∧
    (s.enterDraining g).presence = s.presence ∧ (s.enterDraining g).pool = s.pool ∧
    (s.enterDraining g).ev = s.ev ∧ (s.enterDraining g).irq = s.irq ∧
    (∀ h, (s.enterDraining g).pres h = s.pres h) ∧
    (∀ h, (s.enterDraining g).restoreList h = s.restoreList h) :=
  ⟨State.enterDraining_view State.pending (fun _ _ => rfl) (fun _ _ => rfl) (fun _ _ => rfl) (fun _ _ => rfl) (fun _ _ => rfl) (fun _ _ => rfl) (fun _ _ => rfl) s g,
   State.enterDraining_view State.ticks (fun _ _ => rfl) (fun _ _ => rfl) (fun _ _ => rfl) (fun _ _ => rfl) (fun _ _ => rfl) (fun _ _ => rfl) (fun _ _ => rfl) s g,
   State.enterDraining_view State.ctl (fun _ _ => rfl) (fun _ _ => rfl) (fun _ _ => rfl) (fun _ _ => rfl) (fun _ _ => rfl) (fun _ _ => rfl) (fun _ _ => rfl) s g,
   State.enterDraining_view State.arb (fun _ _ => rfl) (fun _ _ => rfl) (fun _ _ => rfl) (fun _ _ => rfl) (fun _ _ => rfl) (fun _ _ => rfl) (fun _ _ => rfl) s g,
   State.enterDraining_view State.lock (fun _ _ => rfl) (fun _ _ => rfl) (fun _ _ => rfl) (fun _ _ => rfl) (fun _ _ => rfl) (fun _ _ => rfl) (fun _ _ => rfl) s g,
   State.enterDraining_view State.nextChain (fun _ _ => rfl) (fun _ _ => rfl) (fun _ _ => rfl) (fun _ _ => rfl) (fun _ _ => rfl) (fun _ _ => rfl) (fun _ _ => rfl) s g,
   State.enterDraining_view State.adm (fun _ _ => rfl) (fun _ _ => rfl) (fun _ _ => rfl) (fun _ _ => rfl) (fun _ _ => rfl) (fun _ _ => rfl) (fun _ _ => rfl) s g,
   State.enterDraining_view State.presence (fun _ _ => rfl) (fun _ _ => rfl) (fun _ _ => rfl) (fun _ _ => rfl) (fun _ _ => rfl) (fun _ _ => rfl) (fun _ _ => rfl) s g,
   State.enterDraining_view State.pool (fun _ _ => rfl) (fun _ _ => rfl) (fun _ _ => rfl) (fun _ _ => rfl) (fun _ _ => rfl) (fun _ _ => rfl) (fun _ _ => rfl) s g,
   State.enterDraining_view State.ev (fun _ _ => rfl) (fun _ _ => rfl) (fun _ _ => rfl) (fun _ _ => rfl) (fun _ _ => rfl) (fun _ _ => rfl) (fun _ _ => rfl) s g,
   State.enterDraining_view State.irq (fun _ _ => rfl) (fun _ _ => rfl) (fun _ _ => rfl) (fun _ _ => rfl) (fun _ _ => rfl) (fun _ _ => rfl) (fun _ _ => rfl) s g,
   fun h => State.enterDraining_view (fun s => s.pres h) (fun _ _ => rfl) (fun _ _ => rfl) (fun _ _ => rfl) (fun _ _ => rfl) (fun _ _ => rfl) (fun _ _ => rfl) (fun _ _ => rfl) s g,
   fun h => State.enterDraining_view (fun s => s.restoreList h) (fun _ _ => rfl) (fun _ _ => rfl) (fun _ _ => rfl) (fun _ _ => rfl) (fun _ _ => rfl) (fun _ _ => rfl) (fun _ _ => rfl) s g⟩

theorem State.arriveOff_view {γ : Type} (view : State → γ) (hsegs : BlindSegs view) (hpresence : BlindPresence view) (hwatches : BlindWatches view) (hjobs : BlindJobs view) (hev : BlindEv view)
    (s : State) (g : SegId) : view (s.arriveOff g) = view s := by
  unfold State.arriveOff
  try dsimp only
  (repeat' split) <;> first | simp only [State.updSeg_view view hsegs, State.giveUpAll_view view hsegs hpresence hwatches hjobs hev, hsegs, hpresence, hwatches, hjobs, hev] | rfl
@[simp] theorem State.arriveOff_frame (s : State) (g : SegId) :
    (s.arriveOff g).pending = s.pending ∧ (s.arriveOff g).ticks = s.ticks ∧ (s.arriveOff g).ctl = s.ctl ∧
    (s.arriveOff g).sqs = s.sqs ∧ (s.arriveOff g).cqs = s.cqs ∧ (s.arriveOff g).arb = s.arb ∧
    (s.arriveOff g).lock = s.lock ∧ (s.arriveOff g).ctxs = s.ctxs ∧ (s.arriveOff g).nextChain = s.nextChain ∧
    (s.arriveOff g).adm = s.adm ∧ (s.arriveOff g).pool = s.pool ∧ (s.arriveOff g).irq = s.irq ∧
    (s.arriveOff g).link = s.link ∧ (∀ h, (s.arriveOff g).sq h = s.sq h) ∧
    (∀ h, (s.arriveOff g).cq h = s.cq h) ∧ (∀ h, (s.arriveOff g).ctx h = s.ctx h) ∧
    (∀ h, (s.arriveOff g).restoreList h = s.restoreList h) :=
  ⟨State.arriveOff_view State.pending (fun _ _ => rfl) (fun _ _ => rfl) (fun _ _ => rfl) (fun _ _ => rfl) (fun _ _ => rfl) s g,
   State.arriveOff_view State.ticks (fun _ _ => rfl) (fun _ _ => rfl) (fun _ _ => rfl) (fun _ _ => rfl) (fun _ _ => rfl) s g,
   State.arriveOff_view State.ctl (fun _ _ => rfl) (fun _ _ => rfl) (fun _ _ => rfl) (fun _ _ => rfl) (fun _ _ => rfl) s g,
   State.arriveOff_view State.sqs (fun _ _ => rfl) (fun _ _ => rfl) (fun _ _ => rfl) (fun _ _ => rfl) (fun _ _ => rfl) s g,
   State.arriveOff_view State.cqs (fun _ _ => rfl) (fun _ _ => rfl) (fun _ _ => rfl) (fun _ _ => rfl) (fun _ _ => rfl) s g,
   State.arriveOff_view State.arb (fun _ _ => rfl) (fun _ _ => rfl) (fun _ _ => rfl) (fun _ _ => rfl) (fun _ _ => rfl) s g,
   State.arriveOff_view State.lock (fun _ _ => rfl) (fun _ _ => rfl) (fun _ _ => rfl) (fun _ _ => rfl) (fun _ _ => rfl) s g,
   State.arriveOff_view State.ctxs (fun _ _ => rfl) (fun _ _ => rfl) (fun _ _ => rfl) (fun _ _ => rfl) (fun _ _ => rfl) s g,
   State.arriveOff_view State.nextChain (fun _ _ => rfl) (fun _ _ => rfl) (fun _ _ => rfl) (fun _ _ => rfl) (fun _ _ => rfl) s g,
   State.arriveOff_view State.adm (fun _ _ => rfl) (fun _ _ => rfl) (fun _ _ => rfl) (fun _ _ => rfl) (fun _ _ => rfl) s g,
   State.arriveOff_view State.pool (fun _ _ => rfl) (fun _ _ => rfl) (fun _ _ => rfl) (fun _ _ => rfl) (fun _ _ => rfl) s g,
   State.arriveOff_view State.irq (fun _ _ => rfl) (fun _ _ => rfl) (fun _ _ => rfl) (fun _ _ => rfl) (fun _ _ => rfl) s g,
   State.arriveOff_view State.link (fun _ _ => rfl) (fun _ _ => rfl) (fun _ _ => rfl) (fun _ _ => rfl) (fun _ _ => rfl) s g,
   fun h => State.arriveOff_view (fun s => s.sq h) (fun _ _ => rfl) (fun _ _ => rfl) (fun _ _ => rfl) (fun _ _ => rfl) (fun _ _ => rfl) s g,
   fun h => State.arriveOff_view (fun s => s.cq h) (fun _ _ => rfl) (fun _ _ => rfl) (fun _ _ => rfl) (fun _ _ => rfl) (fun _ _ => rfl) s g,
   fun h => State.arriveOff_view (fun s => s.ctx h) (fun _ _ => rfl) (fun _ _ => rfl) (fun _ _ => rfl) (fun _ _ => rfl) (fun _ _ => rfl) s g,
   fun h => State.arriveOff_view (fun s => s.restoreList h) (fun _ _ => rfl) (fun _ _ => rfl) (fun _ _ => rfl) (fun _ _ => rfl) (fun _ _ => rfl) s g⟩

theorem State.drainIfDone_view {γ : Type} (view : State → γ) (hcqs : BlindCqs view) (hctxs : BlindCtxs view) (hadm : BlindAdm view) (hsegs : BlindSegs view) (hpresence : BlindPresence view) (hwatches : BlindWatches view) (hjobs : BlindJobs view) (hev : BlindEv view)
    (s : State) (g : SegId) : view (s.drainIfDone g) = view s := by
  unfold State.drainIfDone
  try dsimp only
  (repeat' split) <;> first | simp only [State.adminDone_view view hcqs hctxs hadm, State.arriveOff_view view hsegs hpresence hwatches hjobs hev, hcqs, hctxs, hadm, hsegs, hpresence, hwatches, hjobs, hev] | rfl
@[simp] theorem State.drainIfDone_frame (s : State) (g : SegId) :
    (s.drainIfDone g).pending = s.pending ∧ (s.drainIfDone g).ticks = s.ticks ∧
    (s.drainIfDone g).ctl = s.ctl ∧ (s.drainIfDone g).sqs = s.sqs ∧ (s.drainIfDone g).arb = s.arb ∧
    (s.drainIfDone g).lock = s.lock ∧ (s.drainIfDone g).nextChain = s.nextChain ∧
    (s.drainIfDone g).pool = s.pool ∧ (s.drainIfDone g).irq = s.irq ∧ (s.drainIfDone g).link = s.link ∧
    (∀ h, (s.drainIfDone g).sq h = s.sq h) ∧ (∀ h, (s.drainIfDone g).restoreList h = s.restoreList h) :=
  ⟨State.drainIfDone_view State.pending (fun _ _ => rfl) (fun _ _ => rfl) (fun _ _ => rfl) (fun _ _ => rfl) (fun _ _ => rfl) (fun _ _ => rfl) (fun _ _ => rfl) (fun _ _ => rfl) s g,
   State.drainIfDone_view State.ticks (fun _ _ => rfl) (fun _ _ => rfl) (fun _ _ => rfl) (fun _ _ => rfl) (fun _ _ => rfl) (fun _ _ => rfl) (fun _ _ => rfl) (fun _ _ => rfl) s g,
   State.drainIfDone_view State.ctl (fun _ _ => rfl) (fun _ _ => rfl) (fun _ _ => rfl) (fun _ _ => rfl) (fun _ _ => rfl) (fun _ _ => rfl) (fun _ _ => rfl) (fun _ _ => rfl) s g,
   State.drainIfDone_view State.sqs (fun _ _ => rfl) (fun _ _ => rfl) (fun _ _ => rfl) (fun _ _ => rfl) (fun _ _ => rfl) (fun _ _ => rfl) (fun _ _ => rfl) (fun _ _ => rfl) s g,
   State.drainIfDone_view State.arb (fun _ _ => rfl) (fun _ _ => rfl) (fun _ _ => rfl) (fun _ _ => rfl) (fun _ _ => rfl) (fun _ _ => rfl) (fun _ _ => rfl) (fun _ _ => rfl) s g,
   State.drainIfDone_view State.lock (fun _ _ => rfl) (fun _ _ => rfl) (fun _ _ => rfl) (fun _ _ => rfl) (fun _ _ => rfl) (fun _ _ => rfl) (fun _ _ => rfl) (fun _ _ => rfl) s g,
   State.drainIfDone_view State.nextChain (fun _ _ => rfl) (fun _ _ => rfl) (fun _ _ => rfl) (fun _ _ => rfl) (fun _ _ => rfl) (fun _ _ => rfl) (fun _ _ => rfl) (fun _ _ => rfl) s g,
   State.drainIfDone_view State.pool (fun _ _ => rfl) (fun _ _ => rfl) (fun _ _ => rfl) (fun _ _ => rfl) (fun _ _ => rfl) (fun _ _ => rfl) (fun _ _ => rfl) (fun _ _ => rfl) s g,
   State.drainIfDone_view State.irq (fun _ _ => rfl) (fun _ _ => rfl) (fun _ _ => rfl) (fun _ _ => rfl) (fun _ _ => rfl) (fun _ _ => rfl) (fun _ _ => rfl) (fun _ _ => rfl) s g,
   State.drainIfDone_view State.link (fun _ _ => rfl) (fun _ _ => rfl) (fun _ _ => rfl) (fun _ _ => rfl) (fun _ _ => rfl) (fun _ _ => rfl) (fun _ _ => rfl) (fun _ _ => rfl) s g,
   fun h => State.drainIfDone_view (fun s => s.sq h) (fun _ _ => rfl) (fun _ _ => rfl) (fun _ _ => rfl) (fun _ _ => rfl) (fun _ _ => rfl) (fun _ _ => rfl) (fun _ _ => rfl) (fun _ _ => rfl) s g,
   fun h => State.drainIfDone_view (fun s => s.restoreList h) (fun _ _ => rfl) (fun _ _ => rfl) (fun _ _ => rfl) (fun _ _ => rfl) (fun _ _ => rfl) (fun _ _ => rfl) (fun _ _ => rfl) (fun _ _ => rfl) s g⟩

theorem State.faultSegment_view {γ : Type} (view : State → γ) (hsqs : BlindSqs view) (hcqs : BlindCqs view) (hctxs : BlindCtxs view) (hsegs : BlindSegs view) (hpresence : BlindPresence view) (hwatches : BlindWatches view) (hjobs : BlindJobs view) (hev : BlindEv view) (hlink : BlindLink view)
    (s : State) (g : SegId) : view (s.faultSegment g) = view s := by
  unfold State.faultSegment
  try dsimp only
  (repeat' split) <;> first | simp only [State.updSeg_view view hsegs, State.handEvent_view view hev, State.haltWatches_view view hsegs hwatches, State.giveUpAll_view view hsegs hpresence hwatches hjobs hev, State.endContexts_view view hsqs hcqs hctxs hsegs hlink, State.dropResponses_view view hsegs hwatches, State.stopReplayRetries_view view hjobs, hsqs, hcqs, hctxs, hsegs, hpresence, hwatches, hjobs, hev, hlink] | rfl
@[simp] theorem State.faultSegment_frame (s : State) (g : SegId) :
    (s.faultSegment g).pending = s.pending ∧ (s.faultSegment g).ticks = s.ticks ∧
    (s.faultSegment g).ctl = s.ctl ∧ (s.faultSegment g).arb = s.arb ∧ (s.faultSegment g).lock = s.lock ∧
    (s.faultSegment g).nextChain = s.nextChain ∧ (s.faultSegment g).adm = s.adm ∧
    (s.faultSegment g).pool = s.pool ∧ (s.faultSegment g).irq = s.irq ∧
    (∀ h, (s.faultSegment g).restoreList h = s.restoreList h) :=
  ⟨State.faultSegment_view State.pending (fun _ _ => rfl) (fun _ _ => rfl) (fun _ _ => rfl) (fun _ _ => rfl) (fun _ _ => rfl) (fun _ _ => rfl) (fun _ _ => rfl) (fun _ _ => rfl) (fun _ _ => rfl) s g,
   State.faultSegment_view State.ticks (fun _ _ => rfl) (fun _ _ => rfl) (fun _ _ => rfl) (fun _ _ => rfl) (fun _ _ => rfl) (fun _ _ => rfl) (fun _ _ => rfl) (fun _ _ => rfl) (fun _ _ => rfl) s g,
   State.faultSegment_view State.ctl (fun _ _ => rfl) (fun _ _ => rfl) (fun _ _ => rfl) (fun _ _ => rfl) (fun _ _ => rfl) (fun _ _ => rfl) (fun _ _ => rfl) (fun _ _ => rfl) (fun _ _ => rfl) s g,
   State.faultSegment_view State.arb (fun _ _ => rfl) (fun _ _ => rfl) (fun _ _ => rfl) (fun _ _ => rfl) (fun _ _ => rfl) (fun _ _ => rfl) (fun _ _ => rfl) (fun _ _ => rfl) (fun _ _ => rfl) s g,
   State.faultSegment_view State.lock (fun _ _ => rfl) (fun _ _ => rfl) (fun _ _ => rfl) (fun _ _ => rfl) (fun _ _ => rfl) (fun _ _ => rfl) (fun _ _ => rfl) (fun _ _ => rfl) (fun _ _ => rfl) s g,
   State.faultSegment_view State.nextChain (fun _ _ => rfl) (fun _ _ => rfl) (fun _ _ => rfl) (fun _ _ => rfl) (fun _ _ => rfl) (fun _ _ => rfl) (fun _ _ => rfl) (fun _ _ => rfl) (fun _ _ => rfl) s g,
   State.faultSegment_view State.adm (fun _ _ => rfl) (fun _ _ => rfl) (fun _ _ => rfl) (fun _ _ => rfl) (fun _ _ => rfl) (fun _ _ => rfl) (fun _ _ => rfl) (fun _ _ => rfl) (fun _ _ => rfl) s g,
   State.faultSegment_view State.pool (fun _ _ => rfl) (fun _ _ => rfl) (fun _ _ => rfl) (fun _ _ => rfl) (fun _ _ => rfl) (fun _ _ => rfl) (fun _ _ => rfl) (fun _ _ => rfl) (fun _ _ => rfl) s g,
   State.faultSegment_view State.irq (fun _ _ => rfl) (fun _ _ => rfl) (fun _ _ => rfl) (fun _ _ => rfl) (fun _ _ => rfl) (fun _ _ => rfl) (fun _ _ => rfl) (fun _ _ => rfl) (fun _ _ => rfl) s g,
   fun h => State.faultSegment_view (fun s => s.restoreList h) (fun _ _ => rfl) (fun _ _ => rfl) (fun _ _ => rfl) (fun _ _ => rfl) (fun _ _ => rfl) (fun _ _ => rfl) (fun _ _ => rfl) (fun _ _ => rfl) (fun _ _ => rfl) s g⟩

theorem State.failSegment_view {γ : Type} (view : State → γ) (hcqs : BlindCqs view) (hctxs : BlindCtxs view) (hadm : BlindAdm view) (hsegs : BlindSegs view) (hpresence : BlindPresence view) (hwatches : BlindWatches view) (hjobs : BlindJobs view) (hev : BlindEv view)
    (s : State) (g : SegId) : view (s.failSegment g) = view s := by
  unfold State.failSegment
  try dsimp only
  (repeat' split) <;> first | simp only [State.updSeg_view view hsegs, State.haltWatches_view view hsegs hwatches, State.dropResponses_view view hsegs hwatches, State.stopReplayRetries_view view hjobs, State.drainIfDone_view view hcqs hctxs hadm hsegs hpresence hwatches hjobs hev, hcqs, hctxs, hadm, hsegs, hpresence, hwatches, hjobs, hev] | rfl
@[simp] theorem State.failSegment_frame (s : State) (g : SegId) :
    (s.failSegment g).pending = s.pending ∧ (s.failSegment g).ticks = s.ticks ∧
    (s.failSegment g).ctl = s.ctl ∧ (s.failSegment g).sqs = s.sqs ∧ (s.failSegment g).arb = s.arb ∧
    (s.failSegment g).lock = s.lock ∧ (s.failSegment g).nextChain = s.nextChain ∧
    (s.failSegment g).pool = s.pool ∧ (s.failSegment g).irq = s.irq ∧ (s.failSegment g).link = s.link ∧
    (∀ h, (s.failSegment g).sq h = s.sq h) ∧ (∀ h, (s.failSegment g).restoreList h = s.restoreList h) :=
  ⟨State.failSegment_view State.pending (fun _ _ => rfl) (fun _ _ => rfl) (fun _ _ => rfl) (fun _ _ => rfl) (fun _ _ => rfl) (fun _ _ => rfl) (fun _ _ => rfl) (fun _ _ => rfl) s g,
   State.failSegment_view State.ticks (fun _ _ => rfl) (fun _ _ => rfl) (fun _ _ => rfl) (fun _ _ => rfl) (fun _ _ => rfl) (fun _ _ => rfl) (fun _ _ => rfl) (fun _ _ => rfl) s g,
   State.failSegment_view State.ctl (fun _ _ => rfl) (fun _ _ => rfl) (fun _ _ => rfl) (fun _ _ => rfl) (fun _ _ => rfl) (fun _ _ => rfl) (fun _ _ => rfl) (fun _ _ => rfl) s g,
   State.failSegment_view State.sqs (fun _ _ => rfl) (fun _ _ => rfl) (fun _ _ => rfl) (fun _ _ => rfl) (fun _ _ => rfl) (fun _ _ => rfl) (fun _ _ => rfl) (fun _ _ => rfl) s g,
   State.failSegment_view State.arb (fun _ _ => rfl) (fun _ _ => rfl) (fun _ _ => rfl) (fun _ _ => rfl) (fun _ _ => rfl) (fun _ _ => rfl) (fun _ _ => rfl) (fun _ _ => rfl) s g,
   State.failSegment_view State.lock (fun _ _ => rfl) (fun _ _ => rfl) (fun _ _ => rfl) (fun _ _ => rfl) (fun _ _ => rfl) (fun _ _ => rfl) (fun _ _ => rfl) (fun _ _ => rfl) s g,
   State.failSegment_view State.nextChain (fun _ _ => rfl) (fun _ _ => rfl) (fun _ _ => rfl) (fun _ _ => rfl) (fun _ _ => rfl) (fun _ _ => rfl) (fun _ _ => rfl) (fun _ _ => rfl) s g,
   State.failSegment_view State.pool (fun _ _ => rfl) (fun _ _ => rfl) (fun _ _ => rfl) (fun _ _ => rfl) (fun _ _ => rfl) (fun _ _ => rfl) (fun _ _ => rfl) (fun _ _ => rfl) s g,
   State.failSegment_view State.irq (fun _ _ => rfl) (fun _ _ => rfl) (fun _ _ => rfl) (fun _ _ => rfl) (fun _ _ => rfl) (fun _ _ => rfl) (fun _ _ => rfl) (fun _ _ => rfl) s g,
   State.failSegment_view State.link (fun _ _ => rfl) (fun _ _ => rfl) (fun _ _ => rfl) (fun _ _ => rfl) (fun _ _ => rfl) (fun _ _ => rfl) (fun _ _ => rfl) (fun _ _ => rfl) s g,
   fun h => State.failSegment_view (fun s => s.sq h) (fun _ _ => rfl) (fun _ _ => rfl) (fun _ _ => rfl) (fun _ _ => rfl) (fun _ _ => rfl) (fun _ _ => rfl) (fun _ _ => rfl) (fun _ _ => rfl) s g,
   fun h => State.failSegment_view (fun s => s.restoreList h) (fun _ _ => rfl) (fun _ _ => rfl) (fun _ _ => rfl) (fun _ _ => rfl) (fun _ _ => rfl) (fun _ _ => rfl) (fun _ _ => rfl) (fun _ _ => rfl) s g⟩

theorem State.stopBlocks_view {γ : Type} (view : State → γ) (hsqs : BlindSqs view) (hcqs : BlindCqs view) (harb : BlindArb view) (hctxs : BlindCtxs view) (hadm : BlindAdm view) (hsegs : BlindSegs view) (hev : BlindEv view)
    (s : State) (l : List CtxNum) : view (s.stopBlocks l) = view s := by
  unfold State.stopBlocks
  try dsimp only
  (repeat' split) <;> first | simp only [State.setRing_view view hev, State.mapSegs_view view hsegs, State.mapSqs_view view hsqs, State.mapCqs_view view hcqs, State.setArb_view view harb, State.setAdm_view view hadm, State.setCtxs_view view hctxs, hsqs, hcqs, harb, hctxs, hadm, hsegs, hev] | rfl
@[simp] theorem State.stopBlocks_frame (s : State) (l : List CtxNum) :
    (s.stopBlocks l).pending = s.pending ∧ (s.stopBlocks l).ticks = s.ticks ∧ (s.stopBlocks l).ctl = s.ctl ∧
    (s.stopBlocks l).lock = s.lock ∧ (s.stopBlocks l).nextChain = s.nextChain ∧
    (s.stopBlocks l).presence = s.presence ∧ (s.stopBlocks l).watches = s.watches ∧
    (s.stopBlocks l).pool = s.pool ∧ (s.stopBlocks l).jobs = s.jobs ∧ (s.stopBlocks l).irq = s.irq ∧
    (s.stopBlocks l).link = s.link ∧ (∀ h, (s.stopBlocks l).watch h = s.watch h) ∧
    (∀ h, (s.stopBlocks l).pres h = s.pres h) ∧ (∀ h, (s.stopBlocks l).job h = s.job h) ∧
    (∀ h, (s.stopBlocks l).restoreList h = s.restoreList h) :=
  ⟨State.stopBlocks_view State.pending (fun _ _ => rfl) (fun _ _ => rfl) (fun _ _ => rfl) (fun _ _ => rfl) (fun _ _ => rfl) (fun _ _ => rfl) (fun _ _ => rfl) s l,
   State.stopBlocks_view State.ticks (fun _ _ => rfl) (fun _ _ => rfl) (fun _ _ => rfl) (fun _ _ => rfl) (fun _ _ => rfl) (fun _ _ => rfl) (fun _ _ => rfl) s l,
   State.stopBlocks_view State.ctl (fun _ _ => rfl) (fun _ _ => rfl) (fun _ _ => rfl) (fun _ _ => rfl) (fun _ _ => rfl) (fun _ _ => rfl) (fun _ _ => rfl) s l,
   State.stopBlocks_view State.lock (fun _ _ => rfl) (fun _ _ => rfl) (fun _ _ => rfl) (fun _ _ => rfl) (fun _ _ => rfl) (fun _ _ => rfl) (fun _ _ => rfl) s l,
   State.stopBlocks_view State.nextChain (fun _ _ => rfl) (fun _ _ => rfl) (fun _ _ => rfl) (fun _ _ => rfl) (fun _ _ => rfl) (fun _ _ => rfl) (fun _ _ => rfl) s l,
   State.stopBlocks_view State.presence (fun _ _ => rfl) (fun _ _ => rfl) (fun _ _ => rfl) (fun _ _ => rfl) (fun _ _ => rfl) (fun _ _ => rfl) (fun _ _ => rfl) s l,
   State.stopBlocks_view State.watches (fun _ _ => rfl) (fun _ _ => rfl) (fun _ _ => rfl) (fun _ _ => rfl) (fun _ _ => rfl) (fun _ _ => rfl) (fun _ _ => rfl) s l,
   State.stopBlocks_view State.pool (fun _ _ => rfl) (fun _ _ => rfl) (fun _ _ => rfl) (fun _ _ => rfl) (fun _ _ => rfl) (fun _ _ => rfl) (fun _ _ => rfl) s l,
   State.stopBlocks_view State.jobs (fun _ _ => rfl) (fun _ _ => rfl) (fun _ _ => rfl) (fun _ _ => rfl) (fun _ _ => rfl) (fun _ _ => rfl) (fun _ _ => rfl) s l,
   State.stopBlocks_view State.irq (fun _ _ => rfl) (fun _ _ => rfl) (fun _ _ => rfl) (fun _ _ => rfl) (fun _ _ => rfl) (fun _ _ => rfl) (fun _ _ => rfl) s l,
   State.stopBlocks_view State.link (fun _ _ => rfl) (fun _ _ => rfl) (fun _ _ => rfl) (fun _ _ => rfl) (fun _ _ => rfl) (fun _ _ => rfl) (fun _ _ => rfl) s l,
   fun h => State.stopBlocks_view (fun s => s.watch h) (fun _ _ => rfl) (fun _ _ => rfl) (fun _ _ => rfl) (fun _ _ => rfl) (fun _ _ => rfl) (fun _ _ => rfl) (fun _ _ => rfl) s l,
   fun h => State.stopBlocks_view (fun s => s.pres h) (fun _ _ => rfl) (fun _ _ => rfl) (fun _ _ => rfl) (fun _ _ => rfl) (fun _ _ => rfl) (fun _ _ => rfl) (fun _ _ => rfl) s l,
   fun h => State.stopBlocks_view (fun s => s.job h) (fun _ _ => rfl) (fun _ _ => rfl) (fun _ _ => rfl) (fun _ _ => rfl) (fun _ _ => rfl) (fun _ _ => rfl) (fun _ _ => rfl) s l,
   fun h => State.stopBlocks_view (fun s => s.restoreList h) (fun _ _ => rfl) (fun _ _ => rfl) (fun _ _ => rfl) (fun _ _ => rfl) (fun _ _ => rfl) (fun _ _ => rfl) (fun _ _ => rfl) s l⟩

theorem State.failEngine_view {γ : Type} (view : State → γ) (hctl : BlindCtl view) (hsqs : BlindSqs view) (hcqs : BlindCqs view) (harb : BlindArb view) (hctxs : BlindCtxs view) (hadm : BlindAdm view) (hsegs : BlindSegs view) (hpresence : BlindPresence view) (hwatches : BlindWatches view) (hjobs : BlindJobs view) (hev : BlindEv view)
    (s : State)  : view s.failEngine = view s := by
  unfold State.failEngine
  try dsimp only
  (repeat' split) <;>
    simp (disch := first | (intros; simp only [State.failSegment_view view hcqs hctxs hadm hsegs hpresence hwatches hjobs hev, State.stopBlocks_view view hsqs hcqs harb hctxs hadm hsegs hev, hctl, hsqs, hcqs, harb, hctxs, hadm, hsegs, hpresence, hwatches, hjobs, hev])) only [foldl_same view, State.failSegment_view view hcqs hctxs hadm hsegs hpresence hwatches hjobs hev, State.stopBlocks_view view hsqs hcqs harb hctxs hadm hsegs hev, hctl, hsqs, hcqs, harb, hctxs, hadm, hsegs, hpresence, hwatches, hjobs, hev]
@[simp] theorem State.failEngine_frame (s : State) :
    s.failEngine.pending = s.pending ∧ s.failEngine.ticks = s.ticks ∧ s.failEngine.lock = s.lock ∧
    s.failEngine.nextChain = s.nextChain ∧ s.failEngine.pool = s.pool ∧ s.failEngine.irq = s.irq ∧
    s.failEngine.link = s.link ∧ (∀ h, s.failEngine.restoreList h = s.restoreList h) :=
  ⟨State.failEngine_view State.pending (fun _ _ => rfl) (fun _ _ => rfl) (fun _ _ => rfl) (fun _ _ => rfl) (fun _ _ => rfl) (fun _ _ => rfl) (fun _ _ => rfl) (fun _ _ => rfl) (fun _ _ => rfl) (fun _ _ => rfl) (fun _ _ => rfl) s,
   State.failEngine_view State.ticks (fun _ _ => rfl) (fun _ _ => rfl) (fun _ _ => rfl) (fun _ _ => rfl) (fun _ _ => rfl) (fun _ _ => rfl) (fun _ _ => rfl) (fun _ _ => rfl) (fun _ _ => rfl) (fun _ _ => rfl) (fun _ _ => rfl) s,
   State.failEngine_view State.lock (fun _ _ => rfl) (fun _ _ => rfl) (fun _ _ => rfl) (fun _ _ => rfl) (fun _ _ => rfl) (fun _ _ => rfl) (fun _ _ => rfl) (fun _ _ => rfl) (fun _ _ => rfl) (fun _ _ => rfl) (fun _ _ => rfl) s,
   State.failEngine_view State.nextChain (fun _ _ => rfl) (fun _ _ => rfl) (fun _ _ => rfl) (fun _ _ => rfl) (fun _ _ => rfl) (fun _ _ => rfl) (fun _ _ => rfl) (fun _ _ => rfl) (fun _ _ => rfl) (fun _ _ => rfl) (fun _ _ => rfl) s,
   State.failEngine_view State.pool (fun _ _ => rfl) (fun _ _ => rfl) (fun _ _ => rfl) (fun _ _ => rfl) (fun _ _ => rfl) (fun _ _ => rfl) (fun _ _ => rfl) (fun _ _ => rfl) (fun _ _ => rfl) (fun _ _ => rfl) (fun _ _ => rfl) s,
   State.failEngine_view State.irq (fun _ _ => rfl) (fun _ _ => rfl) (fun _ _ => rfl) (fun _ _ => rfl) (fun _ _ => rfl) (fun _ _ => rfl) (fun _ _ => rfl) (fun _ _ => rfl) (fun _ _ => rfl) (fun _ _ => rfl) (fun _ _ => rfl) s,
   State.failEngine_view State.link (fun _ _ => rfl) (fun _ _ => rfl) (fun _ _ => rfl) (fun _ _ => rfl) (fun _ _ => rfl) (fun _ _ => rfl) (fun _ _ => rfl) (fun _ _ => rfl) (fun _ _ => rfl) (fun _ _ => rfl) (fun _ _ => rfl) s,
   fun h => State.failEngine_view (fun s => s.restoreList h) (fun _ _ => rfl) (fun _ _ => rfl) (fun _ _ => rfl) (fun _ _ => rfl) (fun _ _ => rfl) (fun _ _ => rfl) (fun _ _ => rfl) (fun _ _ => rfl) (fun _ _ => rfl) (fun _ _ => rfl) (fun _ _ => rfl) s⟩

end Sys2Proof.Machine
end

