-- ==== Sys2Proof/Laws/Flow.lean ====
section
/-! SUPPORT. What each operation leaves alone, once for each: fetching, the segment arbiter, the end of attempts, and what settles by itself. A view of the state that is blind to the
fields an operation may change sees no change; the frame lemma lists the fields and tables that follow. -/

namespace Sys2Proof.Machine

theorem State.issueRead_view {γ : Type} (view : State → γ) (harb : BlindArb view) (hlink : BlindLink view)
    (s : State) (q : SqId) : view (s.issueRead q) = view s := by
  unfold State.issueRead
  try dsimp only
  (repeat' split) <;> first | simp only [State.issue_view view hlink, State.setArb_view view harb, harb, hlink] | rfl
@[simp] theorem State.issueRead_frame (s : State) (q : SqId) :
    (s.issueRead q).pending = s.pending ∧ (s.issueRead q).ticks = s.ticks ∧ (s.issueRead q).ctl = s.ctl ∧
    (s.issueRead q).sqs = s.sqs ∧ (s.issueRead q).cqs = s.cqs ∧ (s.issueRead q).lock = s.lock ∧
    (s.issueRead q).ctxs = s.ctxs ∧ (s.issueRead q).nextChain = s.nextChain ∧ (s.issueRead q).adm = s.adm ∧
    (s.issueRead q).segs = s.segs ∧ (s.issueRead q).presence = s.presence ∧
    (s.issueRead q).watches = s.watches ∧ (s.issueRead q).pool = s.pool ∧ (s.issueRead q).jobs = s.jobs ∧
    (s.issueRead q).ev = s.ev ∧ (s.issueRead q).irq = s.irq ∧ (∀ h, (s.issueRead q).seg h = s.seg h) ∧
    (∀ h, (s.issueRead q).sq h = s.sq h) ∧ (∀ h, (s.issueRead q).cq h = s.cq h) ∧
    (∀ h, (s.issueRead q).watch h = s.watch h) ∧ (∀ h, (s.issueRead q).pres h = s.pres h) ∧
    (∀ h, (s.issueRead q).ctx h = s.ctx h) ∧ (∀ h, (s.issueRead q).job h = s.job h) ∧
    (∀ h, (s.issueRead q).restoreList h = s.restoreList h) :=
  ⟨State.issueRead_view State.pending (fun _ _ => rfl) (fun _ _ => rfl) s q,
   State.issueRead_view State.ticks (fun _ _ => rfl) (fun _ _ => rfl) s q,
   State.issueRead_view State.ctl (fun _ _ => rfl) (fun _ _ => rfl) s q,
   State.issueRead_view State.sqs (fun _ _ => rfl) (fun _ _ => rfl) s q,
   State.issueRead_view State.cqs (fun _ _ => rfl) (fun _ _ => rfl) s q,
   State.issueRead_view State.lock (fun _ _ => rfl) (fun _ _ => rfl) s q,
   State.issueRead_view State.ctxs (fun _ _ => rfl) (fun _ _ => rfl) s q,
   State.issueRead_view State.nextChain (fun _ _ => rfl) (fun _ _ => rfl) s q,
   State.issueRead_view State.adm (fun _ _ => rfl) (fun _ _ => rfl) s q,
   State.issueRead_view State.segs (fun _ _ => rfl) (fun _ _ => rfl) s q,
   State.issueRead_view State.presence (fun _ _ => rfl) (fun _ _ => rfl) s q,
   State.issueRead_view State.watches (fun _ _ => rfl) (fun _ _ => rfl) s q,
   State.issueRead_view State.pool (fun _ _ => rfl) (fun _ _ => rfl) s q,
   State.issueRead_view State.jobs (fun _ _ => rfl) (fun _ _ => rfl) s q,
   State.issueRead_view State.ev (fun _ _ => rfl) (fun _ _ => rfl) s q,
   State.issueRead_view State.irq (fun _ _ => rfl) (fun _ _ => rfl) s q,
   fun h => State.issueRead_view (fun s => s.seg h) (fun _ _ => rfl) (fun _ _ => rfl) s q,
   fun h => State.issueRead_view (fun s => s.sq h) (fun _ _ => rfl) (fun _ _ => rfl) s q,
   fun h => State.issueRead_view (fun s => s.cq h) (fun _ _ => rfl) (fun _ _ => rfl) s q,
   fun h => State.issueRead_view (fun s => s.watch h) (fun _ _ => rfl) (fun _ _ => rfl) s q,
   fun h => State.issueRead_view (fun s => s.pres h) (fun _ _ => rfl) (fun _ _ => rfl) s q,
   fun h => State.issueRead_view (fun s => s.ctx h) (fun _ _ => rfl) (fun _ _ => rfl) s q,
   fun h => State.issueRead_view (fun s => s.job h) (fun _ _ => rfl) (fun _ _ => rfl) s q,
   fun h => State.issueRead_view (fun s => s.restoreList h) (fun _ _ => rfl) (fun _ _ => rfl) s q⟩

theorem State.endTurn_view {γ : Type} (view : State → γ) (harb : BlindArb view)
    (s : State) (q : SqId) : view (s.endTurn q) = view s := by
  unfold State.endTurn
  try dsimp only
  (repeat' split) <;> first | simp only [State.setArb_view view harb, harb] | rfl
@[simp] theorem State.endTurn_frame (s : State) (q : SqId) :
    (s.endTurn q).pending = s.pending ∧ (s.endTurn q).ticks = s.ticks ∧ (s.endTurn q).ctl = s.ctl ∧
    (s.endTurn q).sqs = s.sqs ∧ (s.endTurn q).cqs = s.cqs ∧ (s.endTurn q).lock = s.lock ∧
    (s.endTurn q).ctxs = s.ctxs ∧ (s.endTurn q).nextChain = s.nextChain ∧ (s.endTurn q).adm = s.adm ∧
    (s.endTurn q).segs = s.segs ∧ (s.endTurn q).presence = s.presence ∧ (s.endTurn q).watches = s.watches ∧
    (s.endTurn q).pool = s.pool ∧ (s.endTurn q).jobs = s.jobs ∧ (s.endTurn q).ev = s.ev ∧
    (s.endTurn q).irq = s.irq ∧ (s.endTurn q).link = s.link ∧ (∀ h, (s.endTurn q).seg h = s.seg h) ∧
    (∀ h, (s.endTurn q).sq h = s.sq h) ∧ (∀ h, (s.endTurn q).cq h = s.cq h) ∧
    (∀ h, (s.endTurn q).watch h = s.watch h) ∧ (∀ h, (s.endTurn q).pres h = s.pres h) ∧
    (∀ h, (s.endTurn q).ctx h = s.ctx h) ∧ (∀ h, (s.endTurn q).job h = s.job h) ∧
    (∀ h, (s.endTurn q).restoreList h = s.restoreList h) :=
  ⟨State.endTurn_view State.pending (fun _ _ => rfl) s q,
   State.endTurn_view State.ticks (fun _ _ => rfl) s q,
   State.endTurn_view State.ctl (fun _ _ => rfl) s q,
   State.endTurn_view State.sqs (fun _ _ => rfl) s q,
   State.endTurn_view State.cqs (fun _ _ => rfl) s q,
   State.endTurn_view State.lock (fun _ _ => rfl) s q,
   State.endTurn_view State.ctxs (fun _ _ => rfl) s q,
   State.endTurn_view State.nextChain (fun _ _ => rfl) s q,
   State.endTurn_view State.adm (fun _ _ => rfl) s q,
   State.endTurn_view State.segs (fun _ _ => rfl) s q,
   State.endTurn_view State.presence (fun _ _ => rfl) s q,
   State.endTurn_view State.watches (fun _ _ => rfl) s q,
   State.endTurn_view State.pool (fun _ _ => rfl) s q,
   State.endTurn_view State.jobs (fun _ _ => rfl) s q,
   State.endTurn_view State.ev (fun _ _ => rfl) s q,
   State.endTurn_view State.irq (fun _ _ => rfl) s q,
   State.endTurn_view State.link (fun _ _ => rfl) s q,
   fun h => State.endTurn_view (fun s => s.seg h) (fun _ _ => rfl) s q,
   fun h => State.endTurn_view (fun s => s.sq h) (fun _ _ => rfl) s q,
   fun h => State.endTurn_view (fun s => s.cq h) (fun _ _ => rfl) s q,
   fun h => State.endTurn_view (fun s => s.watch h) (fun _ _ => rfl) s q,
   fun h => State.endTurn_view (fun s => s.pres h) (fun _ _ => rfl) s q,
   fun h => State.endTurn_view (fun s => s.ctx h) (fun _ _ => rfl) s q,
   fun h => State.endTurn_view (fun s => s.job h) (fun _ _ => rfl) s q,
   fun h => State.endTurn_view (fun s => s.restoreList h) (fun _ _ => rfl) s q⟩

theorem State.endTurnIfOver_view {γ : Type} (view : State → γ) (harb : BlindArb view)
    (s : State)  : view s.endTurnIfOver = view s := by
  unfold State.endTurnIfOver
  try dsimp only
  (repeat' split) <;> first | simp only [State.endTurn_view view harb, harb] | rfl
@[simp] theorem State.endTurnIfOver_frame (s : State) :
    s.endTurnIfOver.pending = s.pending ∧ s.endTurnIfOver.ticks = s.ticks ∧ s.endTurnIfOver.ctl = s.ctl ∧
    s.endTurnIfOver.sqs = s.sqs ∧ s.endTurnIfOver.cqs = s.cqs ∧ s.endTurnIfOver.lock = s.lock ∧
    s.endTurnIfOver.ctxs = s.ctxs ∧ s.endTurnIfOver.nextChain = s.nextChain ∧ s.endTurnIfOver.adm = s.adm ∧
    s.endTurnIfOver.segs = s.segs ∧ s.endTurnIfOver.presence = s.presence ∧
    s.endTurnIfOver.watches = s.watches ∧ s.endTurnIfOver.pool = s.pool ∧ s.endTurnIfOver.jobs = s.jobs ∧
    s.endTurnIfOver.ev = s.ev ∧ s.endTurnIfOver.irq = s.irq ∧ s.endTurnIfOver.link = s.link ∧
    (∀ h, s.endTurnIfOver.seg h = s.seg h) ∧ (∀ h, s.endTurnIfOver.sq h = s.sq h) ∧
    (∀ h, s.endTurnIfOver.cq h = s.cq h) ∧ (∀ h, s.endTurnIfOver.watch h = s.watch h) ∧
    (∀ h, s.endTurnIfOver.pres h = s.pres h) ∧ (∀ h, s.endTurnIfOver.ctx h = s.ctx h) ∧
    (∀ h, s.endTurnIfOver.job h = s.job h) ∧ (∀ h, s.endTurnIfOver.restoreList h = s.restoreList h) :=
  ⟨State.endTurnIfOver_view State.pending (fun _ _ => rfl) s,
   State.endTurnIfOver_view State.ticks (fun _ _ => rfl) s,
   State.endTurnIfOver_view State.ctl (fun _ _ => rfl) s,
   State.endTurnIfOver_view State.sqs (fun _ _ => rfl) s,
   State.endTurnIfOver_view State.cqs (fun _ _ => rfl) s,
   State.endTurnIfOver_view State.lock (fun _ _ => rfl) s,
   State.endTurnIfOver_view State.ctxs (fun _ _ => rfl) s,
   State.endTurnIfOver_view State.nextChain (fun _ _ => rfl) s,
   State.endTurnIfOver_view State.adm (fun _ _ => rfl) s,
   State.endTurnIfOver_view State.segs (fun _ _ => rfl) s,
   State.endTurnIfOver_view State.presence (fun _ _ => rfl) s,
   State.endTurnIfOver_view State.watches (fun _ _ => rfl) s,
   State.endTurnIfOver_view State.pool (fun _ _ => rfl) s,
   State.endTurnIfOver_view State.jobs (fun _ _ => rfl) s,
   State.endTurnIfOver_view State.ev (fun _ _ => rfl) s,
   State.endTurnIfOver_view State.irq (fun _ _ => rfl) s,
   State.endTurnIfOver_view State.link (fun _ _ => rfl) s,
   fun h => State.endTurnIfOver_view (fun s => s.seg h) (fun _ _ => rfl) s,
   fun h => State.endTurnIfOver_view (fun s => s.sq h) (fun _ _ => rfl) s,
   fun h => State.endTurnIfOver_view (fun s => s.cq h) (fun _ _ => rfl) s,
   fun h => State.endTurnIfOver_view (fun s => s.watch h) (fun _ _ => rfl) s,
   fun h => State.endTurnIfOver_view (fun s => s.pres h) (fun _ _ => rfl) s,
   fun h => State.endTurnIfOver_view (fun s => s.ctx h) (fun _ _ => rfl) s,
   fun h => State.endTurnIfOver_view (fun s => s.job h) (fun _ _ => rfl) s,
   fun h => State.endTurnIfOver_view (fun s => s.restoreList h) (fun _ _ => rfl) s⟩

theorem State.place_view {γ : Type} (view : State → γ) (hsqs : BlindSqs view) (hctxs : BlindCtxs view) (hsegs : BlindSegs view)
    (s : State) (n : CtxNum) : view (s.place n) = view s := by
  unfold State.place
  try dsimp only
  (repeat' split) <;> first | simp only [State.updSeg_view view hsegs, State.updSq_view view hsqs, State.updCtx_view view hctxs, hsqs, hctxs, hsegs] | rfl
@[simp] theorem State.place_frame (s : State) (n : CtxNum) :
    (s.place n).pending = s.pending ∧ (s.place n).ticks = s.ticks ∧ (s.place n).ctl = s.ctl ∧
    (s.place n).cqs = s.cqs ∧ (s.place n).arb = s.arb ∧ (s.place n).lock = s.lock ∧
    (s.place n).nextChain = s.nextChain ∧ (s.place n).adm = s.adm ∧ (s.place n).presence = s.presence ∧
    (s.place n).watches = s.watches ∧ (s.place n).pool = s.pool ∧ (s.place n).jobs = s.jobs ∧
    (s.place n).ev = s.ev ∧ (s.place n).irq = s.irq ∧ (s.place n).link = s.link ∧
    (∀ h, (s.place n).cq h = s.cq h) ∧ (∀ h, (s.place n).watch h = s.watch h) ∧
    (∀ h, (s.place n).pres h = s.pres h) ∧ (∀ h, (s.place n).job h = s.job h) ∧
    (∀ h, (s.place n).restoreList h = s.restoreList h) :=
  ⟨State.place_view State.pending (fun _ _ => rfl) (fun _ _ => rfl) (fun _ _ => rfl) s n,
   State.place_view State.ticks (fun _ _ => rfl) (fun _ _ => rfl) (fun _ _ => rfl) s n,
   State.place_view State.ctl (fun _ _ => rfl) (fun _ _ => rfl) (fun _ _ => rfl) s n,
   State.place_view State.cqs (fun _ _ => rfl) (fun _ _ => rfl) (fun _ _ => rfl) s n,
   State.place_view State.arb (fun _ _ => rfl) (fun _ _ => rfl) (fun _ _ => rfl) s n,
   State.place_view State.lock (fun _ _ => rfl) (fun _ _ => rfl) (fun _ _ => rfl) s n,
   State.place_view State.nextChain (fun _ _ => rfl) (fun _ _ => rfl) (fun _ _ => rfl) s n,
   State.place_view State.adm (fun _ _ => rfl) (fun _ _ => rfl) (fun _ _ => rfl) s n,
   State.place_view State.presence (fun _ _ => rfl) (fun _ _ => rfl) (fun _ _ => rfl) s n,
   State.place_view State.watches (fun _ _ => rfl) (fun _ _ => rfl) (fun _ _ => rfl) s n,
   State.place_view State.pool (fun _ _ => rfl) (fun _ _ => rfl) (fun _ _ => rfl) s n,
   State.place_view State.jobs (fun _ _ => rfl) (fun _ _ => rfl) (fun _ _ => rfl) s n,
   State.place_view State.ev (fun _ _ => rfl) (fun _ _ => rfl) (fun _ _ => rfl) s n,
   State.place_view State.irq (fun _ _ => rfl) (fun _ _ => rfl) (fun _ _ => rfl) s n,
   State.place_view State.link (fun _ _ => rfl) (fun _ _ => rfl) (fun _ _ => rfl) s n,
   fun h => State.place_view (fun s => s.cq h) (fun _ _ => rfl) (fun _ _ => rfl) (fun _ _ => rfl) s n,
   fun h => State.place_view (fun s => s.watch h) (fun _ _ => rfl) (fun _ _ => rfl) (fun _ _ => rfl) s n,
   fun h => State.place_view (fun s => s.pres h) (fun _ _ => rfl) (fun _ _ => rfl) (fun _ _ => rfl) s n,
   fun h => State.place_view (fun s => s.job h) (fun _ _ => rfl) (fun _ _ => rfl) (fun _ _ => rfl) s n,
   fun h => State.place_view (fun s => s.restoreList h) (fun _ _ => rfl) (fun _ _ => rfl) (fun _ _ => rfl) s n⟩

theorem State.takeLock_view {γ : Type} (view : State → γ) (hsqs : BlindSqs view) (hlock : BlindLock view) (hctxs : BlindCtxs view) (hsegs : BlindSegs view)
    (s : State) (n : CtxNum) : view (s.takeLock n) = view s := by
  unfold State.takeLock
  try dsimp only
  (repeat' split) <;> first | simp only [State.setLock_view view hlock, State.place_view view hsqs hctxs hsegs, hsqs, hlock, hctxs, hsegs] | rfl
@[simp] theorem State.takeLock_frame (s : State) (n : CtxNum) :
    (s.takeLock n).pending = s.pending ∧ (s.takeLock n).ticks = s.ticks ∧ (s.takeLock n).ctl = s.ctl ∧
    (s.takeLock n).cqs = s.cqs ∧ (s.takeLock n).arb = s.arb ∧ (s.takeLock n).nextChain = s.nextChain ∧
    (s.takeLock n).adm = s.adm ∧ (s.takeLock n).presence = s.presence ∧ (s.takeLock n).watches = s.watches ∧
    (s.takeLock n).pool = s.pool ∧ (s.takeLock n).jobs = s.jobs ∧ (s.takeLock n).ev = s.ev ∧
    (s.takeLock n).irq = s.irq ∧ (s.takeLock n).link = s.link ∧ (∀ h, (s.takeLock n).cq h = s.cq h) ∧
    (∀ h, (s.takeLock n).watch h = s.watch h) ∧ (∀ h, (s.takeLock n).pres h = s.pres h) ∧
    (∀ h, (s.takeLock n).job h = s.job h) ∧ (∀ h, (s.takeLock n).restoreList h = s.restoreList h) :=
  ⟨State.takeLock_view State.pending (fun _ _ => rfl) (fun _ _ => rfl) (fun _ _ => rfl) (fun _ _ => rfl) s n,
   State.takeLock_view State.ticks (fun _ _ => rfl) (fun _ _ => rfl) (fun _ _ => rfl) (fun _ _ => rfl) s n,
   State.takeLock_view State.ctl (fun _ _ => rfl) (fun _ _ => rfl) (fun _ _ => rfl) (fun _ _ => rfl) s n,
   State.takeLock_view State.cqs (fun _ _ => rfl) (fun _ _ => rfl) (fun _ _ => rfl) (fun _ _ => rfl) s n,
   State.takeLock_view State.arb (fun _ _ => rfl) (fun _ _ => rfl) (fun _ _ => rfl) (fun _ _ => rfl) s n,
   State.takeLock_view State.nextChain (fun _ _ => rfl) (fun _ _ => rfl) (fun _ _ => rfl) (fun _ _ => rfl) s n,
   State.takeLock_view State.adm (fun _ _ => rfl) (fun _ _ => rfl) (fun _ _ => rfl) (fun _ _ => rfl) s n,
   State.takeLock_view State.presence (fun _ _ => rfl) (fun _ _ => rfl) (fun _ _ => rfl) (fun _ _ => rfl) s n,
   State.takeLock_view State.watches (fun _ _ => rfl) (fun _ _ => rfl) (fun _ _ => rfl) (fun _ _ => rfl) s n,
   State.takeLock_view State.pool (fun _ _ => rfl) (fun _ _ => rfl) (fun _ _ => rfl) (fun _ _ => rfl) s n,
   State.takeLock_view State.jobs (fun _ _ => rfl) (fun _ _ => rfl) (fun _ _ => rfl) (fun _ _ => rfl) s n,
   State.takeLock_view State.ev (fun _ _ => rfl) (fun _ _ => rfl) (fun _ _ => rfl) (fun _ _ => rfl) s n,
   State.takeLock_view State.irq (fun _ _ => rfl) (fun _ _ => rfl) (fun _ _ => rfl) (fun _ _ => rfl) s n,
   State.takeLock_view State.link (fun _ _ => rfl) (fun _ _ => rfl) (fun _ _ => rfl) (fun _ _ => rfl) s n,
   fun h => State.takeLock_view (fun s => s.cq h) (fun _ _ => rfl) (fun _ _ => rfl) (fun _ _ => rfl) (fun _ _ => rfl) s n,
   fun h => State.takeLock_view (fun s => s.watch h) (fun _ _ => rfl) (fun _ _ => rfl) (fun _ _ => rfl) (fun _ _ => rfl) s n,
   fun h => State.takeLock_view (fun s => s.pres h) (fun _ _ => rfl) (fun _ _ => rfl) (fun _ _ => rfl) (fun _ _ => rfl) s n,
   fun h => State.takeLock_view (fun s => s.job h) (fun _ _ => rfl) (fun _ _ => rfl) (fun _ _ => rfl) (fun _ _ => rfl) s n,
   fun h => State.takeLock_view (fun s => s.restoreList h) (fun _ _ => rfl) (fun _ _ => rfl) (fun _ _ => rfl) (fun _ _ => rfl) s n⟩

theorem State.lockChance_view {γ : Type} (view : State → γ) (hsqs : BlindSqs view) (harb : BlindArb view) (hlock : BlindLock view) (hctxs : BlindCtxs view) (hsegs : BlindSegs view)
    (s : State) (q : SqId) : view (s.lockChance q) = view s := by
  unfold State.lockChance
  try dsimp only
  (repeat' split) <;> first | simp only [State.setArb_view view harb, State.takeLock_view view hsqs hlock hctxs hsegs, hsqs, harb, hlock, hctxs, hsegs] | rfl
@[simp] theorem State.lockChance_frame (s : State) (q : SqId) :
    (s.lockChance q).pending = s.pending ∧ (s.lockChance q).ticks = s.ticks ∧ (s.lockChance q).ctl = s.ctl ∧
    (s.lockChance q).cqs = s.cqs ∧ (s.lockChance q).nextChain = s.nextChain ∧ (s.lockChance q).adm = s.adm ∧
    (s.lockChance q).presence = s.presence ∧ (s.lockChance q).watches = s.watches ∧
    (s.lockChance q).pool = s.pool ∧ (s.lockChance q).jobs = s.jobs ∧ (s.lockChance q).ev = s.ev ∧
    (s.lockChance q).irq = s.irq ∧ (s.lockChance q).link = s.link ∧ (∀ h, (s.lockChance q).cq h = s.cq h) ∧
    (∀ h, (s.lockChance q).watch h = s.watch h) ∧ (∀ h, (s.lockChance q).pres h = s.pres h) ∧
    (∀ h, (s.lockChance q).job h = s.job h) ∧ (∀ h, (s.lockChance q).restoreList h = s.restoreList h) :=
  ⟨State.lockChance_view State.pending (fun _ _ => rfl) (fun _ _ => rfl) (fun _ _ => rfl) (fun _ _ => rfl) (fun _ _ => rfl) s q,
   State.lockChance_view State.ticks (fun _ _ => rfl) (fun _ _ => rfl) (fun _ _ => rfl) (fun _ _ => rfl) (fun _ _ => rfl) s q,
   State.lockChance_view State.ctl (fun _ _ => rfl) (fun _ _ => rfl) (fun _ _ => rfl) (fun _ _ => rfl) (fun _ _ => rfl) s q,
   State.lockChance_view State.cqs (fun _ _ => rfl) (fun _ _ => rfl) (fun _ _ => rfl) (fun _ _ => rfl) (fun _ _ => rfl) s q,
   State.lockChance_view State.nextChain (fun _ _ => rfl) (fun _ _ => rfl) (fun _ _ => rfl) (fun _ _ => rfl) (fun _ _ => rfl) s q,
   State.lockChance_view State.adm (fun _ _ => rfl) (fun _ _ => rfl) (fun _ _ => rfl) (fun _ _ => rfl) (fun _ _ => rfl) s q,
   State.lockChance_view State.presence (fun _ _ => rfl) (fun _ _ => rfl) (fun _ _ => rfl) (fun _ _ => rfl) (fun _ _ => rfl) s q,
   State.lockChance_view State.watches (fun _ _ => rfl) (fun _ _ => rfl) (fun _ _ => rfl) (fun _ _ => rfl) (fun _ _ => rfl) s q,
   State.lockChance_view State.pool (fun _ _ => rfl) (fun _ _ => rfl) (fun _ _ => rfl) (fun _ _ => rfl) (fun _ _ => rfl) s q,
   State.lockChance_view State.jobs (fun _ _ => rfl) (fun _ _ => rfl) (fun _ _ => rfl) (fun _ _ => rfl) (fun _ _ => rfl) s q,
   State.lockChance_view State.ev (fun _ _ => rfl) (fun _ _ => rfl) (fun _ _ => rfl) (fun _ _ => rfl) (fun _ _ => rfl) s q,
   State.lockChance_view State.irq (fun _ _ => rfl) (fun _ _ => rfl) (fun _ _ => rfl) (fun _ _ => rfl) (fun _ _ => rfl) s q,
   State.lockChance_view State.link (fun _ _ => rfl) (fun _ _ => rfl) (fun _ _ => rfl) (fun _ _ => rfl) (fun _ _ => rfl) s q,
   fun h => State.lockChance_view (fun s => s.cq h) (fun _ _ => rfl) (fun _ _ => rfl) (fun _ _ => rfl) (fun _ _ => rfl) (fun _ _ => rfl) s q,
   fun h => State.lockChance_view (fun s => s.watch h) (fun _ _ => rfl) (fun _ _ => rfl) (fun _ _ => rfl) (fun _ _ => rfl) (fun _ _ => rfl) s q,
   fun h => State.lockChance_view (fun s => s.pres h) (fun _ _ => rfl) (fun _ _ => rfl) (fun _ _ => rfl) (fun _ _ => rfl) (fun _ _ => rfl) s q,
   fun h => State.lockChance_view (fun s => s.job h) (fun _ _ => rfl) (fun _ _ => rfl) (fun _ _ => rfl) (fun _ _ => rfl) (fun _ _ => rfl) s q,
   fun h => State.lockChance_view (fun s => s.restoreList h) (fun _ _ => rfl) (fun _ _ => rfl) (fun _ _ => rfl) (fun _ _ => rfl) (fun _ _ => rfl) s q⟩

theorem State.offerTurns_view {γ : Type} (view : State → γ) (hsqs : BlindSqs view) (harb : BlindArb view) (hlock : BlindLock view) (hctxs : BlindCtxs view) (hsegs : BlindSegs view) (hlink : BlindLink view)
    (s : State) (l : List SqId) : view (State.offerTurns l s) = view s := by
  induction l generalizing s with
  | nil => rfl
  | cons e l ih =>
    unfold State.offerTurns
    try dsimp only
    (repeat' split) <;> first | simp only [ih, State.issueRead_view view harb hlink, State.endTurn_view view harb, State.lockChance_view view hsqs harb hlock hctxs hsegs, hsqs, harb, hlock, hctxs, hsegs, hlink] | rfl
@[simp] theorem State.offerTurns_frame (s : State) (l : List SqId) :
    (State.offerTurns l s).pending = s.pending ∧ (State.offerTurns l s).ticks = s.ticks ∧
    (State.offerTurns l s).ctl = s.ctl ∧ (State.offerTurns l s).cqs = s.cqs ∧
    (State.offerTurns l s).nextChain = s.nextChain ∧ (State.offerTurns l s).adm = s.adm ∧
    (State.offerTurns l s).presence = s.presence ∧ (State.offerTurns l s).watches = s.watches ∧
    (State.offerTurns l s).pool = s.pool ∧ (State.offerTurns l s).jobs = s.jobs ∧
    (State.offerTurns l s).ev = s.ev ∧ (State.offerTurns l s).irq = s.irq ∧
    (∀ h, (State.offerTurns l s).cq h = s.cq h) ∧ (∀ h, (State.offerTurns l s).watch h = s.watch h) ∧
    (∀ h, (State.offerTurns l s).pres h = s.pres h) ∧ (∀ h, (State.offerTurns l s).job h = s.job h) ∧
    (∀ h, (State.offerTurns l s).restoreList h = s.restoreList h) :=
  ⟨State.offerTurns_view State.pending (fun _ _ => rfl) (fun _ _ => rfl) (fun _ _ => rfl) (fun _ _ => rfl) (fun _ _ => rfl) (fun _ _ => rfl) s l,
   State.offerTurns_view State.ticks (fun _ _ => rfl) (fun _ _ => rfl) (fun _ _ => rfl) (fun _ _ => rfl) (fun _ _ => rfl) (fun _ _ => rfl) s l,
   State.offerTurns_view State.ctl (fun _ _ => rfl) (fun _ _ => rfl) (fun _ _ => rfl) (fun _ _ => rfl) (fun _ _ => rfl) (fun _ _ => rfl) s l,
   State.offerTurns_view State.cqs (fun _ _ => rfl) (fun _ _ => rfl) (fun _ _ => rfl) (fun _ _ => rfl) (fun _ _ => rfl) (fun _ _ => rfl) s l,
   State.offerTurns_view State.nextChain (fun _ _ => rfl) (fun _ _ => rfl) (fun _ _ => rfl) (fun _ _ => rfl) (fun _ _ => rfl) (fun _ _ => rfl) s l,
   State.offerTurns_view State.adm (fun _ _ => rfl) (fun _ _ => rfl) (fun _ _ => rfl) (fun _ _ => rfl) (fun _ _ => rfl) (fun _ _ => rfl) s l,
   State.offerTurns_view State.presence (fun _ _ => rfl) (fun _ _ => rfl) (fun _ _ => rfl) (fun _ _ => rfl) (fun _ _ => rfl) (fun _ _ => rfl) s l,
   State.offerTurns_view State.watches (fun _ _ => rfl) (fun _ _ => rfl) (fun _ _ => rfl) (fun _ _ => rfl) (fun _ _ => rfl) (fun _ _ => rfl) s l,
   State.offerTurns_view State.pool (fun _ _ => rfl) (fun _ _ => rfl) (fun _ _ => rfl) (fun _ _ => rfl) (fun _ _ => rfl) (fun _ _ => rfl) s l,
   State.offerTurns_view State.jobs (fun _ _ => rfl) (fun _ _ => rfl) (fun _ _ => rfl) (fun _ _ => rfl) (fun _ _ => rfl) (fun _ _ => rfl) s l,
   State.offerTurns_view State.ev (fun _ _ => rfl) (fun _ _ => rfl) (fun _ _ => rfl) (fun _ _ => rfl) (fun _ _ => rfl) (fun _ _ => rfl) s l,
   State.offerTurns_view State.irq (fun _ _ => rfl) (fun _ _ => rfl) (fun _ _ => rfl) (fun _ _ => rfl) (fun _ _ => rfl) (fun _ _ => rfl) s l,
   fun h => State.offerTurns_view (fun s => s.cq h) (fun _ _ => rfl) (fun _ _ => rfl) (fun _ _ => rfl) (fun _ _ => rfl) (fun _ _ => rfl) (fun _ _ => rfl) s l,
   fun h => State.offerTurns_view (fun s => s.watch h) (fun _ _ => rfl) (fun _ _ => rfl) (fun _ _ => rfl) (fun _ _ => rfl) (fun _ _ => rfl) (fun _ _ => rfl) s l,
   fun h => State.offerTurns_view (fun s => s.pres h) (fun _ _ => rfl) (fun _ _ => rfl) (fun _ _ => rfl) (fun _ _ => rfl) (fun _ _ => rfl) (fun _ _ => rfl) s l,
   fun h => State.offerTurns_view (fun s => s.job h) (fun _ _ => rfl) (fun _ _ => rfl) (fun _ _ => rfl) (fun _ _ => rfl) (fun _ _ => rfl) (fun _ _ => rfl) s l,
   fun h => State.offerTurns_view (fun s => s.restoreList h) (fun _ _ => rfl) (fun _ _ => rfl) (fun _ _ => rfl) (fun _ _ => rfl) (fun _ _ => rfl) (fun _ _ => rfl) s l⟩

theorem State.ioFetch_view {γ : Type} (view : State → γ) (hsqs : BlindSqs view) (harb : BlindArb view) (hlock : BlindLock view) (hctxs : BlindCtxs view) (hsegs : BlindSegs view) (hlink : BlindLink view)
    (s : State)  : view s.ioFetch = view s := by
  unfold State.ioFetch
  try dsimp only
  (repeat' split) <;> first | simp only [State.issueRead_view view harb hlink, State.endTurnIfOver_view view harb, State.offerTurns_view view hsqs harb hlock hctxs hsegs hlink, hsqs, harb, hlock, hctxs, hsegs, hlink] | rfl
@[simp] theorem State.ioFetch_frame (s : State) :
    s.ioFetch.pending = s.pending ∧ s.ioFetch.ticks = s.ticks ∧ s.ioFetch.ctl = s.ctl ∧
    s.ioFetch.cqs = s.cqs ∧ s.ioFetch.nextChain = s.nextChain ∧ s.ioFetch.adm = s.adm ∧
    s.ioFetch.presence = s.presence ∧ s.ioFetch.watches = s.watches ∧ s.ioFetch.pool = s.pool ∧
    s.ioFetch.jobs = s.jobs ∧ s.ioFetch.ev = s.ev ∧ s.ioFetch.irq = s.irq ∧ (∀ h, s.ioFetch.cq h = s.cq h) ∧
    (∀ h, s.ioFetch.watch h = s.watch h) ∧ (∀ h, s.ioFetch.pres h = s.pres h) ∧
    (∀ h, s.ioFetch.job h = s.job h) ∧ (∀ h, s.ioFetch.restoreList h = s.restoreList h) :=
  ⟨State.ioFetch_view State.pending (fun _ _ => rfl) (fun _ _ => rfl) (fun _ _ => rfl) (fun _ _ => rfl) (fun _ _ => rfl) (fun _ _ => rfl) s,
   State.ioFetch_view State.ticks (fun _ _ => rfl) (fun _ _ => rfl) (fun _ _ => rfl) (fun _ _ => rfl) (fun _ _ => rfl) (fun _ _ => rfl) s,
   State.ioFetch_view State.ctl (fun _ _ => rfl) (fun _ _ => rfl) (fun _ _ => rfl) (fun _ _ => rfl) (fun _ _ => rfl) (fun _ _ => rfl) s,
   State.ioFetch_view State.cqs (fun _ _ => rfl) (fun _ _ => rfl) (fun _ _ => rfl) (fun _ _ => rfl) (fun _ _ => rfl) (fun _ _ => rfl) s,
   State.ioFetch_view State.nextChain (fun _ _ => rfl) (fun _ _ => rfl) (fun _ _ => rfl) (fun _ _ => rfl) (fun _ _ => rfl) (fun _ _ => rfl) s,
   State.ioFetch_view State.adm (fun _ _ => rfl) (fun _ _ => rfl) (fun _ _ => rfl) (fun _ _ => rfl) (fun _ _ => rfl) (fun _ _ => rfl) s,
   State.ioFetch_view State.presence (fun _ _ => rfl) (fun _ _ => rfl) (fun _ _ => rfl) (fun _ _ => rfl) (fun _ _ => rfl) (fun _ _ => rfl) s,
   State.ioFetch_view State.watches (fun _ _ => rfl) (fun _ _ => rfl) (fun _ _ => rfl) (fun _ _ => rfl) (fun _ _ => rfl) (fun _ _ => rfl) s,
   State.ioFetch_view State.pool (fun _ _ => rfl) (fun _ _ => rfl) (fun _ _ => rfl) (fun _ _ => rfl) (fun _ _ => rfl) (fun _ _ => rfl) s,
   State.ioFetch_view State.jobs (fun _ _ => rfl) (fun _ _ => rfl) (fun _ _ => rfl) (fun _ _ => rfl) (fun _ _ => rfl) (fun _ _ => rfl) s,
   State.ioFetch_view State.ev (fun _ _ => rfl) (fun _ _ => rfl) (fun _ _ => rfl) (fun _ _ => rfl) (fun _ _ => rfl) (fun _ _ => rfl) s,
   State.ioFetch_view State.irq (fun _ _ => rfl) (fun _ _ => rfl) (fun _ _ => rfl) (fun _ _ => rfl) (fun _ _ => rfl) (fun _ _ => rfl) s,
   fun h => State.ioFetch_view (fun s => s.cq h) (fun _ _ => rfl) (fun _ _ => rfl) (fun _ _ => rfl) (fun _ _ => rfl) (fun _ _ => rfl) (fun _ _ => rfl) s,
   fun h => State.ioFetch_view (fun s => s.watch h) (fun _ _ => rfl) (fun _ _ => rfl) (fun _ _ => rfl) (fun _ _ => rfl) (fun _ _ => rfl) (fun _ _ => rfl) s,
   fun h => State.ioFetch_view (fun s => s.pres h) (fun _ _ => rfl) (fun _ _ => rfl) (fun _ _ => rfl) (fun _ _ => rfl) (fun _ _ => rfl) (fun _ _ => rfl) s,
   fun h => State.ioFetch_view (fun s => s.job h) (fun _ _ => rfl) (fun _ _ => rfl) (fun _ _ => rfl) (fun _ _ => rfl) (fun _ _ => rfl) (fun _ _ => rfl) s,
   fun h => State.ioFetch_view (fun s => s.restoreList h) (fun _ _ => rfl) (fun _ _ => rfl) (fun _ _ => rfl) (fun _ _ => rfl) (fun _ _ => rfl) (fun _ _ => rfl) s⟩

theorem State.chainStart_view {γ : Type} (view : State → γ) (hsqs : BlindSqs view) (hlock : BlindLock view) (hctxs : BlindCtxs view) (hsegs : BlindSegs view)
    (s : State) (q : SqId) (n : CtxNum) : view (s.chainStart q n) = view s := by
  unfold State.chainStart
  try dsimp only
  (repeat' split) <;> first | simp only [State.updSq_view view hsqs, State.updCtx_view view hctxs, State.takeLock_view view hsqs hlock hctxs hsegs, hsqs, hlock, hctxs, hsegs] | rfl
@[simp] theorem State.chainStart_frame (s : State) (q : SqId) (n : CtxNum) :
    (s.chainStart q n).pending = s.pending ∧ (s.chainStart q n).ticks = s.ticks ∧
    (s.chainStart q n).ctl = s.ctl ∧ (s.chainStart q n).cqs = s.cqs ∧ (s.chainStart q n).arb = s.arb ∧
    (s.chainStart q n).nextChain = s.nextChain ∧ (s.chainStart q n).adm = s.adm ∧
    (s.chainStart q n).presence = s.presence ∧ (s.chainStart q n).watches = s.watches ∧
    (s.chainStart q n).pool = s.pool ∧ (s.chainStart q n).jobs = s.jobs ∧ (s.chainStart q n).ev = s.ev ∧
    (s.chainStart q n).irq = s.irq ∧ (s.chainStart q n).link = s.link ∧
    (∀ h, (s.chainStart q n).cq h = s.cq h) ∧ (∀ h, (s.chainStart q n).watch h = s.watch h) ∧
    (∀ h, (s.chainStart q n).pres h = s.pres h) ∧ (∀ h, (s.chainStart q n).job h = s.job h) ∧
    (∀ h, (s.chainStart q n).restoreList h = s.restoreList h) :=
  ⟨State.chainStart_view State.pending (fun _ _ => rfl) (fun _ _ => rfl) (fun _ _ => rfl) (fun _ _ => rfl) s q n,
   State.chainStart_view State.ticks (fun _ _ => rfl) (fun _ _ => rfl) (fun _ _ => rfl) (fun _ _ => rfl) s q n,
   State.chainStart_view State.ctl (fun _ _ => rfl) (fun _ _ => rfl) (fun _ _ => rfl) (fun _ _ => rfl) s q n,
   State.chainStart_view State.cqs (fun _ _ => rfl) (fun _ _ => rfl) (fun _ _ => rfl) (fun _ _ => rfl) s q n,
   State.chainStart_view State.arb (fun _ _ => rfl) (fun _ _ => rfl) (fun _ _ => rfl) (fun _ _ => rfl) s q n,
   State.chainStart_view State.nextChain (fun _ _ => rfl) (fun _ _ => rfl) (fun _ _ => rfl) (fun _ _ => rfl) s q n,
   State.chainStart_view State.adm (fun _ _ => rfl) (fun _ _ => rfl) (fun _ _ => rfl) (fun _ _ => rfl) s q n,
   State.chainStart_view State.presence (fun _ _ => rfl) (fun _ _ => rfl) (fun _ _ => rfl) (fun _ _ => rfl) s q n,
   State.chainStart_view State.watches (fun _ _ => rfl) (fun _ _ => rfl) (fun _ _ => rfl) (fun _ _ => rfl) s q n,
   State.chainStart_view State.pool (fun _ _ => rfl) (fun _ _ => rfl) (fun _ _ => rfl) (fun _ _ => rfl) s q n,
   State.chainStart_view State.jobs (fun _ _ => rfl) (fun _ _ => rfl) (fun _ _ => rfl) (fun _ _ => rfl) s q n,
   State.chainStart_view State.ev (fun _ _ => rfl) (fun _ _ => rfl) (fun _ _ => rfl) (fun _ _ => rfl) s q n,
   State.chainStart_view State.irq (fun _ _ => rfl) (fun _ _ => rfl) (fun _ _ => rfl) (fun _ _ => rfl) s q n,
   State.chainStart_view State.link (fun _ _ => rfl) (fun _ _ => rfl) (fun _ _ => rfl) (fun _ _ => rfl) s q n,
   fun h => State.chainStart_view (fun s => s.cq h) (fun _ _ => rfl) (fun _ _ => rfl) (fun _ _ => rfl) (fun _ _ => rfl) s q n,
   fun h => State.chainStart_view (fun s => s.watch h) (fun _ _ => rfl) (fun _ _ => rfl) (fun _ _ => rfl) (fun _ _ => rfl) s q n,
   fun h => State.chainStart_view (fun s => s.pres h) (fun _ _ => rfl) (fun _ _ => rfl) (fun _ _ => rfl) (fun _ _ => rfl) s q n,
   fun h => State.chainStart_view (fun s => s.job h) (fun _ _ => rfl) (fun _ _ => rfl) (fun _ _ => rfl) (fun _ _ => rfl) s q n,
   fun h => State.chainStart_view (fun s => s.restoreList h) (fun _ _ => rfl) (fun _ _ => rfl) (fun _ _ => rfl) (fun _ _ => rfl) s q n⟩

theorem State.placeByKind_view {γ : Type} (view : State → γ) (hsqs : BlindSqs view) (hlock : BlindLock view) (hctxs : BlindCtxs view) (hsegs : BlindSegs view)
    (s : State) (q : SqId) (n : CtxNum) (r : Record) (m : Option ChainMember) : view (s.placeByKind q n r m) = view s := by
  unfold State.placeByKind
  try dsimp only
  (repeat' split) <;> first | simp only [State.place_view view hsqs hctxs hsegs, State.chainStart_view view hsqs hlock hctxs hsegs, hsqs, hlock, hctxs, hsegs] | rfl
@[simp] theorem State.placeByKind_frame (s : State) (q : SqId) (n : CtxNum) (r : Record) (m : Option ChainMember) :
    (s.placeByKind q n r m).pending = s.pending ∧ (s.placeByKind q n r m).ticks = s.ticks ∧
    (s.placeByKind q n r m).ctl = s.ctl ∧ (s.placeByKind q n r m).cqs = s.cqs ∧
    (s.placeByKind q n r m).arb = s.arb ∧ (s.placeByKind q n r m).nextChain = s.nextChain ∧
    (s.placeByKind q n r m).adm = s.adm ∧ (s.placeByKind q n r m).presence = s.presence ∧
    (s.placeByKind q n r m).watches = s.watches ∧ (s.placeByKind q n r m).pool = s.pool ∧
    (s.placeByKind q n r m).jobs = s.jobs ∧ (s.placeByKind q n r m).ev = s.ev ∧
    (s.placeByKind q n r m).irq = s.irq ∧ (s.placeByKind q n r m).link = s.link ∧
    (∀ h, (s.placeByKind q n r m).cq h = s.cq h) ∧ (∀ h, (s.placeByKind q n r m).watch h = s.watch h) ∧
    (∀ h, (s.placeByKind q n r m).pres h = s.pres h) ∧ (∀ h, (s.placeByKind q n r m).job h = s.job h) ∧
    (∀ h, (s.placeByKind q n r m).restoreList h = s.restoreList h) :=
  ⟨State.placeByKind_view State.pending (fun _ _ => rfl) (fun _ _ => rfl) (fun _ _ => rfl) (fun _ _ => rfl) s q n r m,
   State.placeByKind_view State.ticks (fun _ _ => rfl) (fun _ _ => rfl) (fun _ _ => rfl) (fun _ _ => rfl) s q n r m,
   State.placeByKind_view State.ctl (fun _ _ => rfl) (fun _ _ => rfl) (fun _ _ => rfl) (fun _ _ => rfl) s q n r m,
   State.placeByKind_view State.cqs (fun _ _ => rfl) (fun _ _ => rfl) (fun _ _ => rfl) (fun _ _ => rfl) s q n r m,
   State.placeByKind_view State.arb (fun _ _ => rfl) (fun _ _ => rfl) (fun _ _ => rfl) (fun _ _ => rfl) s q n r m,
   State.placeByKind_view State.nextChain (fun _ _ => rfl) (fun _ _ => rfl) (fun _ _ => rfl) (fun _ _ => rfl) s q n r m,
   State.placeByKind_view State.adm (fun _ _ => rfl) (fun _ _ => rfl) (fun _ _ => rfl) (fun _ _ => rfl) s q n r m,
   State.placeByKind_view State.presence (fun _ _ => rfl) (fun _ _ => rfl) (fun _ _ => rfl) (fun _ _ => rfl) s q n r m,
   State.placeByKind_view State.watches (fun _ _ => rfl) (fun _ _ => rfl) (fun _ _ => rfl) (fun _ _ => rfl) s q n r m,
   State.placeByKind_view State.pool (fun _ _ => rfl) (fun _ _ => rfl) (fun _ _ => rfl) (fun _ _ => rfl) s q n r m,
   State.placeByKind_view State.jobs (fun _ _ => rfl) (fun _ _ => rfl) (fun _ _ => rfl) (fun _ _ => rfl) s q n r m,
   State.placeByKind_view State.ev (fun _ _ => rfl) (fun _ _ => rfl) (fun _ _ => rfl) (fun _ _ => rfl) s q n r m,
   State.placeByKind_view State.irq (fun _ _ => rfl) (fun _ _ => rfl) (fun _ _ => rfl) (fun _ _ => rfl) s q n r m,
   State.placeByKind_view State.link (fun _ _ => rfl) (fun _ _ => rfl) (fun _ _ => rfl) (fun _ _ => rfl) s q n r m,
   fun h => State.placeByKind_view (fun s => s.cq h) (fun _ _ => rfl) (fun _ _ => rfl) (fun _ _ => rfl) (fun _ _ => rfl) s q n r m,
   fun h => State.placeByKind_view (fun s => s.watch h) (fun _ _ => rfl) (fun _ _ => rfl) (fun _ _ => rfl) (fun _ _ => rfl) s q n r m,
   fun h => State.placeByKind_view (fun s => s.pres h) (fun _ _ => rfl) (fun _ _ => rfl) (fun _ _ => rfl) (fun _ _ => rfl) s q n r m,
   fun h => State.placeByKind_view (fun s => s.job h) (fun _ _ => rfl) (fun _ _ => rfl) (fun _ _ => rfl) (fun _ _ => rfl) s q n r m,
   fun h => State.placeByKind_view (fun s => s.restoreList h) (fun _ _ => rfl) (fun _ _ => rfl) (fun _ _ => rfl) (fun _ _ => rfl) s q n r m⟩

theorem State.settleEntry_view {γ : Type} (view : State → γ) (hsqs : BlindSqs view) (hcqs : BlindCqs view) (hlock : BlindLock view) (hctxs : BlindCtxs view) (hsegs : BlindSegs view) (hlink : BlindLink view)
    (s : State) (q : SqId) (n : CtxNum) (r : Record) (m : Option ChainMember) (f : Byte) (b : Bool) : view (s.settleEntry q n r m f b) = view s := by
  unfold State.settleEntry
  try dsimp only
  (repeat' split) <;> first | simp only [State.becomeReady_view view hsqs hcqs hctxs hsegs, State.abortChain_view view hsqs hcqs hctxs hsegs hlink, State.placeByKind_view view hsqs hlock hctxs hsegs, hsqs, hcqs, hlock, hctxs, hsegs, hlink] | rfl
@[simp] theorem State.settleEntry_frame (s : State) (q : SqId) (n : CtxNum) (r : Record) (m : Option ChainMember) (f : Byte) (b : Bool) :
    (s.settleEntry q n r m f b).pending = s.pending ∧ (s.settleEntry q n r m f b).ticks = s.ticks ∧
    (s.settleEntry q n r m f b).ctl = s.ctl ∧ (s.settleEntry q n r m f b).arb = s.arb ∧
    (s.settleEntry q n r m f b).nextChain = s.nextChain ∧ (s.settleEntry q n r m f b).adm = s.adm ∧
    (s.settleEntry q n r m f b).presence = s.presence ∧ (s.settleEntry q n r m f b).watches = s.watches ∧
    (s.settleEntry q n r m f b).pool = s.pool ∧ (s.settleEntry q n r m f b).jobs = s.jobs ∧
    (s.settleEntry q n r m f b).ev = s.ev ∧ (s.settleEntry q n r m f b).irq = s.irq ∧
    (∀ h, (s.settleEntry q n r m f b).watch h = s.watch h) ∧
    (∀ h, (s.settleEntry q n r m f b).pres h = s.pres h) ∧
    (∀ h, (s.settleEntry q n r m f b).job h = s.job h) ∧
    (∀ h, (s.settleEntry q n r m f b).restoreList h = s.restoreList h) :=
  ⟨State.settleEntry_view State.pending (fun _ _ => rfl) (fun _ _ => rfl) (fun _ _ => rfl) (fun _ _ => rfl) (fun _ _ => rfl) (fun _ _ => rfl) s q n r m f b,
   State.settleEntry_view State.ticks (fun _ _ => rfl) (fun _ _ => rfl) (fun _ _ => rfl) (fun _ _ => rfl) (fun _ _ => rfl) (fun _ _ => rfl) s q n r m f b,
   State.settleEntry_view State.ctl (fun _ _ => rfl) (fun _ _ => rfl) (fun _ _ => rfl) (fun _ _ => rfl) (fun _ _ => rfl) (fun _ _ => rfl) s q n r m f b,
   State.settleEntry_view State.arb (fun _ _ => rfl) (fun _ _ => rfl) (fun _ _ => rfl) (fun _ _ => rfl) (fun _ _ => rfl) (fun _ _ => rfl) s q n r m f b,
   State.settleEntry_view State.nextChain (fun _ _ => rfl) (fun _ _ => rfl) (fun _ _ => rfl) (fun _ _ => rfl) (fun _ _ => rfl) (fun _ _ => rfl) s q n r m f b,
   State.settleEntry_view State.adm (fun _ _ => rfl) (fun _ _ => rfl) (fun _ _ => rfl) (fun _ _ => rfl) (fun _ _ => rfl) (fun _ _ => rfl) s q n r m f b,
   State.settleEntry_view State.presence (fun _ _ => rfl) (fun _ _ => rfl) (fun _ _ => rfl) (fun _ _ => rfl) (fun _ _ => rfl) (fun _ _ => rfl) s q n r m f b,
   State.settleEntry_view State.watches (fun _ _ => rfl) (fun _ _ => rfl) (fun _ _ => rfl) (fun _ _ => rfl) (fun _ _ => rfl) (fun _ _ => rfl) s q n r m f b,
   State.settleEntry_view State.pool (fun _ _ => rfl) (fun _ _ => rfl) (fun _ _ => rfl) (fun _ _ => rfl) (fun _ _ => rfl) (fun _ _ => rfl) s q n r m f b,
   State.settleEntry_view State.jobs (fun _ _ => rfl) (fun _ _ => rfl) (fun _ _ => rfl) (fun _ _ => rfl) (fun _ _ => rfl) (fun _ _ => rfl) s q n r m f b,
   State.settleEntry_view State.ev (fun _ _ => rfl) (fun _ _ => rfl) (fun _ _ => rfl) (fun _ _ => rfl) (fun _ _ => rfl) (fun _ _ => rfl) s q n r m f b,
   State.settleEntry_view State.irq (fun _ _ => rfl) (fun _ _ => rfl) (fun _ _ => rfl) (fun _ _ => rfl) (fun _ _ => rfl) (fun _ _ => rfl) s q n r m f b,
   fun h => State.settleEntry_view (fun s => s.watch h) (fun _ _ => rfl) (fun _ _ => rfl) (fun _ _ => rfl) (fun _ _ => rfl) (fun _ _ => rfl) (fun _ _ => rfl) s q n r m f b,
   fun h => State.settleEntry_view (fun s => s.pres h) (fun _ _ => rfl) (fun _ _ => rfl) (fun _ _ => rfl) (fun _ _ => rfl) (fun _ _ => rfl) (fun _ _ => rfl) s q n r m f b,
   fun h => State.settleEntry_view (fun s => s.job h) (fun _ _ => rfl) (fun _ _ => rfl) (fun _ _ => rfl) (fun _ _ => rfl) (fun _ _ => rfl) (fun _ _ => rfl) s q n r m f b,
   fun h => State.settleEntry_view (fun s => s.restoreList h) (fun _ _ => rfl) (fun _ _ => rfl) (fun _ _ => rfl) (fun _ _ => rfl) (fun _ _ => rfl) (fun _ _ => rfl) s q n r m f b⟩

theorem State.takeEntry_view {γ : Type} (view : State → γ) (hsqs : BlindSqs view) (hcqs : BlindCqs view) (harb : BlindArb view) (hlock : BlindLock view) (hctxs : BlindCtxs view) (hnextChain : BlindNextChain view) (hsegs : BlindSegs view) (hlink : BlindLink view)
    (s : State) (q : SqId) (n : CtxNum) (r : Record) : view (s.takeEntry q n r) = view s := by
  unfold State.takeEntry
  try dsimp only
  (repeat' split) <;> first | simp only [State.setSq_view view hsqs, State.setArb_view view harb, State.setLock_view view hlock, State.setCtxs_view view hctxs, State.settleEntry_view view hsqs hcqs hlock hctxs hsegs hlink, hsqs, hcqs, harb, hlock, hctxs, hnextChain, hsegs, hlink] | rfl
@[simp] theorem State.takeEntry_frame (s : State) (q : SqId) (n : CtxNum) (r : Record) :
    (s.takeEntry q n r).pending = s.pending ∧ (s.takeEntry q n r).ticks = s.ticks ∧
    (s.takeEntry q n r).ctl = s.ctl ∧ (s.takeEntry q n r).adm = s.adm ∧
    (s.takeEntry q n r).presence = s.presence ∧ (s.takeEntry q n r).watches = s.watches ∧
    (s.takeEntry q n r).pool = s.pool ∧ (s.takeEntry q n r).jobs = s.jobs ∧ (s.takeEntry q n r).ev = s.ev ∧
    (s.takeEntry q n r).irq = s.irq ∧ (∀ h, (s.takeEntry q n r).watch h = s.watch h) ∧
    (∀ h, (s.takeEntry q n r).pres h = s.pres h) ∧ (∀ h, (s.takeEntry q n r).job h = s.job h) ∧
    (∀ h, (s.takeEntry q n r).restoreList h = s.restoreList h) :=
  ⟨State.takeEntry_view State.pending (fun _ _ => rfl) (fun _ _ => rfl) (fun _ _ => rfl) (fun _ _ => rfl) (fun _ _ => rfl) (fun _ _ => rfl) (fun _ _ => rfl) (fun _ _ => rfl) s q n r,
   State.takeEntry_view State.ticks (fun _ _ => rfl) (fun _ _ => rfl) (fun _ _ => rfl) (fun _ _ => rfl) (fun _ _ => rfl) (fun _ _ => rfl) (fun _ _ => rfl) (fun _ _ => rfl) s q n r,
   State.takeEntry_view State.ctl (fun _ _ => rfl) (fun _ _ => rfl) (fun _ _ => rfl) (fun _ _ => rfl) (fun _ _ => rfl) (fun _ _ => rfl) (fun _ _ => rfl) (fun _ _ => rfl) s q n r,
   State.takeEntry_view State.adm (fun _ _ => rfl) (fun _ _ => rfl) (fun _ _ => rfl) (fun _ _ => rfl) (fun _ _ => rfl) (fun _ _ => rfl) (fun _ _ => rfl) (fun _ _ => rfl) s q n r,
   State.takeEntry_view State.presence (fun _ _ => rfl) (fun _ _ => rfl) (fun _ _ => rfl) (fun _ _ => rfl) (fun _ _ => rfl) (fun _ _ => rfl) (fun _ _ => rfl) (fun _ _ => rfl) s q n r,
   State.takeEntry_view State.watches (fun _ _ => rfl) (fun _ _ => rfl) (fun _ _ => rfl) (fun _ _ => rfl) (fun _ _ => rfl) (fun _ _ => rfl) (fun _ _ => rfl) (fun _ _ => rfl) s q n r,
   State.takeEntry_view State.pool (fun _ _ => rfl) (fun _ _ => rfl) (fun _ _ => rfl) (fun _ _ => rfl) (fun _ _ => rfl) (fun _ _ => rfl) (fun _ _ => rfl) (fun _ _ => rfl) s q n r,
   State.takeEntry_view State.jobs (fun _ _ => rfl) (fun _ _ => rfl) (fun _ _ => rfl) (fun _ _ => rfl) (fun _ _ => rfl) (fun _ _ => rfl) (fun _ _ => rfl) (fun _ _ => rfl) s q n r,
   State.takeEntry_view State.ev (fun _ _ => rfl) (fun _ _ => rfl) (fun _ _ => rfl) (fun _ _ => rfl) (fun _ _ => rfl) (fun _ _ => rfl) (fun _ _ => rfl) (fun _ _ => rfl) s q n r,
   State.takeEntry_view State.irq (fun _ _ => rfl) (fun _ _ => rfl) (fun _ _ => rfl) (fun _ _ => rfl) (fun _ _ => rfl) (fun _ _ => rfl) (fun _ _ => rfl) (fun _ _ => rfl) s q n r,
   fun h => State.takeEntry_view (fun s => s.watch h) (fun _ _ => rfl) (fun _ _ => rfl) (fun _ _ => rfl) (fun _ _ => rfl) (fun _ _ => rfl) (fun _ _ => rfl) (fun _ _ => rfl) (fun _ _ => rfl) s q n r,
   fun h => State.takeEntry_view (fun s => s.pres h) (fun _ _ => rfl) (fun _ _ => rfl) (fun _ _ => rfl) (fun _ _ => rfl) (fun _ _ => rfl) (fun _ _ => rfl) (fun _ _ => rfl) (fun _ _ => rfl) s q n r,
   fun h => State.takeEntry_view (fun s => s.job h) (fun _ _ => rfl) (fun _ _ => rfl) (fun _ _ => rfl) (fun _ _ => rfl) (fun _ _ => rfl) (fun _ _ => rfl) (fun _ _ => rfl) (fun _ _ => rfl) s q n r,
   fun h => State.takeEntry_view (fun s => s.restoreList h) (fun _ _ => rfl) (fun _ _ => rfl) (fun _ _ => rfl) (fun _ _ => rfl) (fun _ _ => rfl) (fun _ _ => rfl) (fun _ _ => rfl) (fun _ _ => rfl) s q n r⟩

theorem State.discardRead_view {γ : Type} (view : State → γ) (harb : BlindArb view) (hlink : BlindLink view)
    (s : State) (t : Nat) : view (s.discardRead t) = view s := by
  unfold State.discardRead
  try dsimp only
  (repeat' split) <;> first | simp only [State.retire_view view hlink, State.setArb_view view harb, harb, hlink] | rfl
@[simp] theorem State.discardRead_frame (s : State) (t : Nat) :
    (s.discardRead t).pending = s.pending ∧ (s.discardRead t).ticks = s.ticks ∧
    (s.discardRead t).ctl = s.ctl ∧ (s.discardRead t).sqs = s.sqs ∧ (s.discardRead t).cqs = s.cqs ∧
    (s.discardRead t).lock = s.lock ∧ (s.discardRead t).ctxs = s.ctxs ∧
    (s.discardRead t).nextChain = s.nextChain ∧ (s.discardRead t).adm = s.adm ∧
    (s.discardRead t).segs = s.segs ∧ (s.discardRead t).presence = s.presence ∧
    (s.discardRead t).watches = s.watches ∧ (s.discardRead t).pool = s.pool ∧
    (s.discardRead t).jobs = s.jobs ∧ (s.discardRead t).ev = s.ev ∧ (s.discardRead t).irq = s.irq ∧
    (∀ h, (s.discardRead t).seg h = s.seg h) ∧ (∀ h, (s.discardRead t).sq h = s.sq h) ∧
    (∀ h, (s.discardRead t).cq h = s.cq h) ∧ (∀ h, (s.discardRead t).watch h = s.watch h) ∧
    (∀ h, (s.discardRead t).pres h = s.pres h) ∧ (∀ h, (s.discardRead t).ctx h = s.ctx h) ∧
    (∀ h, (s.discardRead t).job h = s.job h) ∧ (∀ h, (s.discardRead t).restoreList h = s.restoreList h) :=
  ⟨State.discardRead_view State.pending (fun _ _ => rfl) (fun _ _ => rfl) s t,
   State.discardRead_view State.ticks (fun _ _ => rfl) (fun _ _ => rfl) s t,
   State.discardRead_view State.ctl (fun _ _ => rfl) (fun _ _ => rfl) s t,
   State.discardRead_view State.sqs (fun _ _ => rfl) (fun _ _ => rfl) s t,
   State.discardRead_view State.cqs (fun _ _ => rfl) (fun _ _ => rfl) s t,
   State.discardRead_view State.lock (fun _ _ => rfl) (fun _ _ => rfl) s t,
   State.discardRead_view State.ctxs (fun _ _ => rfl) (fun _ _ => rfl) s t,
   State.discardRead_view State.nextChain (fun _ _ => rfl) (fun _ _ => rfl) s t,
   State.discardRead_view State.adm (fun _ _ => rfl) (fun _ _ => rfl) s t,
   State.discardRead_view State.segs (fun _ _ => rfl) (fun _ _ => rfl) s t,
   State.discardRead_view State.presence (fun _ _ => rfl) (fun _ _ => rfl) s t,
   State.discardRead_view State.watches (fun _ _ => rfl) (fun _ _ => rfl) s t,
   State.discardRead_view State.pool (fun _ _ => rfl) (fun _ _ => rfl) s t,
   State.discardRead_view State.jobs (fun _ _ => rfl) (fun _ _ => rfl) s t,
   State.discardRead_view State.ev (fun _ _ => rfl) (fun _ _ => rfl) s t,
   State.discardRead_view State.irq (fun _ _ => rfl) (fun _ _ => rfl) s t,
   fun h => State.discardRead_view (fun s => s.seg h) (fun _ _ => rfl) (fun _ _ => rfl) s t,
   fun h => State.discardRead_view (fun s => s.sq h) (fun _ _ => rfl) (fun _ _ => rfl) s t,
   fun h => State.discardRead_view (fun s => s.cq h) (fun _ _ => rfl) (fun _ _ => rfl) s t,
   fun h => State.discardRead_view (fun s => s.watch h) (fun _ _ => rfl) (fun _ _ => rfl) s t,
   fun h => State.discardRead_view (fun s => s.pres h) (fun _ _ => rfl) (fun _ _ => rfl) s t,
   fun h => State.discardRead_view (fun s => s.ctx h) (fun _ _ => rfl) (fun _ _ => rfl) s t,
   fun h => State.discardRead_view (fun s => s.job h) (fun _ _ => rfl) (fun _ _ => rfl) s t,
   fun h => State.discardRead_view (fun s => s.restoreList h) (fun _ _ => rfl) (fun _ _ => rfl) s t⟩

theorem State.ioEntry_view {γ : Type} (view : State → γ) (hsqs : BlindSqs view) (hcqs : BlindCqs view) (harb : BlindArb view) (hlock : BlindLock view) (hctxs : BlindCtxs view) (hnextChain : BlindNextChain view) (hsegs : BlindSegs view) (hlink : BlindLink view)
    (s : State) (o : Byte) (t : Nat) (b : Body) : view (s.ioEntry o t b) = view s := by
  unfold State.ioEntry
  try dsimp only
  (repeat' split) <;> first | simp only [State.retire_view view hlink, State.takeEntry_view view hsqs hcqs harb hlock hctxs hnextChain hsegs hlink, State.discardRead_view view harb hlink, hsqs, hcqs, harb, hlock, hctxs, hnextChain, hsegs, hlink] | rfl
@[simp] theorem State.ioEntry_frame (s : State) (o : Byte) (t : Nat) (b : Body) :
    (s.ioEntry o t b).pending = s.pending ∧ (s.ioEntry o t b).ticks = s.ticks ∧
    (s.ioEntry o t b).ctl = s.ctl ∧ (s.ioEntry o t b).adm = s.adm ∧ (s.ioEntry o t b).presence = s.presence ∧
    (s.ioEntry o t b).watches = s.watches ∧ (s.ioEntry o t b).pool = s.pool ∧
    (s.ioEntry o t b).jobs = s.jobs ∧ (s.ioEntry o t b).ev = s.ev ∧ (s.ioEntry o t b).irq = s.irq ∧
    (∀ h, (s.ioEntry o t b).watch h = s.watch h) ∧ (∀ h, (s.ioEntry o t b).pres h = s.pres h) ∧
    (∀ h, (s.ioEntry o t b).job h = s.job h) ∧ (∀ h, (s.ioEntry o t b).restoreList h = s.restoreList h) :=
  ⟨State.ioEntry_view State.pending (fun _ _ => rfl) (fun _ _ => rfl) (fun _ _ => rfl) (fun _ _ => rfl) (fun _ _ => rfl) (fun _ _ => rfl) (fun _ _ => rfl) (fun _ _ => rfl) s o t b,
   State.ioEntry_view State.ticks (fun _ _ => rfl) (fun _ _ => rfl) (fun _ _ => rfl) (fun _ _ => rfl) (fun _ _ => rfl) (fun _ _ => rfl) (fun _ _ => rfl) (fun _ _ => rfl) s o t b,
   State.ioEntry_view State.ctl (fun _ _ => rfl) (fun _ _ => rfl) (fun _ _ => rfl) (fun _ _ => rfl) (fun _ _ => rfl) (fun _ _ => rfl) (fun _ _ => rfl) (fun _ _ => rfl) s o t b,
   State.ioEntry_view State.adm (fun _ _ => rfl) (fun _ _ => rfl) (fun _ _ => rfl) (fun _ _ => rfl) (fun _ _ => rfl) (fun _ _ => rfl) (fun _ _ => rfl) (fun _ _ => rfl) s o t b,
   State.ioEntry_view State.presence (fun _ _ => rfl) (fun _ _ => rfl) (fun _ _ => rfl) (fun _ _ => rfl) (fun _ _ => rfl) (fun _ _ => rfl) (fun _ _ => rfl) (fun _ _ => rfl) s o t b,
   State.ioEntry_view State.watches (fun _ _ => rfl) (fun _ _ => rfl) (fun _ _ => rfl) (fun _ _ => rfl) (fun _ _ => rfl) (fun _ _ => rfl) (fun _ _ => rfl) (fun _ _ => rfl) s o t b,
   State.ioEntry_view State.pool (fun _ _ => rfl) (fun _ _ => rfl) (fun _ _ => rfl) (fun _ _ => rfl) (fun _ _ => rfl) (fun _ _ => rfl) (fun _ _ => rfl) (fun _ _ => rfl) s o t b,
   State.ioEntry_view State.jobs (fun _ _ => rfl) (fun _ _ => rfl) (fun _ _ => rfl) (fun _ _ => rfl) (fun _ _ => rfl) (fun _ _ => rfl) (fun _ _ => rfl) (fun _ _ => rfl) s o t b,
   State.ioEntry_view State.ev (fun _ _ => rfl) (fun _ _ => rfl) (fun _ _ => rfl) (fun _ _ => rfl) (fun _ _ => rfl) (fun _ _ => rfl) (fun _ _ => rfl) (fun _ _ => rfl) s o t b,
   State.ioEntry_view State.irq (fun _ _ => rfl) (fun _ _ => rfl) (fun _ _ => rfl) (fun _ _ => rfl) (fun _ _ => rfl) (fun _ _ => rfl) (fun _ _ => rfl) (fun _ _ => rfl) s o t b,
   fun h => State.ioEntry_view (fun s => s.watch h) (fun _ _ => rfl) (fun _ _ => rfl) (fun _ _ => rfl) (fun _ _ => rfl) (fun _ _ => rfl) (fun _ _ => rfl) (fun _ _ => rfl) (fun _ _ => rfl) s o t b,
   fun h => State.ioEntry_view (fun s => s.pres h) (fun _ _ => rfl) (fun _ _ => rfl) (fun _ _ => rfl) (fun _ _ => rfl) (fun _ _ => rfl) (fun _ _ => rfl) (fun _ _ => rfl) (fun _ _ => rfl) s o t b,
   fun h => State.ioEntry_view (fun s => s.job h) (fun _ _ => rfl) (fun _ _ => rfl) (fun _ _ => rfl) (fun _ _ => rfl) (fun _ _ => rfl) (fun _ _ => rfl) (fun _ _ => rfl) (fun _ _ => rfl) s o t b,
   fun h => State.ioEntry_view (fun s => s.restoreList h) (fun _ _ => rfl) (fun _ _ => rfl) (fun _ _ => rfl) (fun _ _ => rfl) (fun _ _ => rfl) (fun _ _ => rfl) (fun _ _ => rfl) (fun _ _ => rfl) s o t b⟩

theorem State.adminFetch_view {γ : Type} (view : State → γ) (hadm : BlindAdm view) (hlink : BlindLink view)
    (s : State)  : view s.adminFetch = view s := by
  unfold State.adminFetch
  try dsimp only
  (repeat' split) <;> first | simp only [State.issue_view view hlink, State.setAdm_view view hadm, hadm, hlink] | rfl
@[simp] theorem State.adminFetch_frame (s : State) :
    s.adminFetch.pending = s.pending ∧ s.adminFetch.ticks = s.ticks ∧ s.adminFetch.ctl = s.ctl ∧
    s.adminFetch.sqs = s.sqs ∧ s.adminFetch.cqs = s.cqs ∧ s.adminFetch.arb = s.arb ∧
    s.adminFetch.lock = s.lock ∧ s.adminFetch.ctxs = s.ctxs ∧ s.adminFetch.nextChain = s.nextChain ∧
    s.adminFetch.segs = s.segs ∧ s.adminFetch.presence = s.presence ∧ s.adminFetch.watches = s.watches ∧
    s.adminFetch.pool = s.pool ∧ s.adminFetch.jobs = s.jobs ∧ s.adminFetch.ev = s.ev ∧
    s.adminFetch.irq = s.irq ∧ (∀ h, s.adminFetch.seg h = s.seg h) ∧ (∀ h, s.adminFetch.sq h = s.sq h) ∧
    (∀ h, s.adminFetch.cq h = s.cq h) ∧ (∀ h, s.adminFetch.watch h = s.watch h) ∧
    (∀ h, s.adminFetch.pres h = s.pres h) ∧ (∀ h, s.adminFetch.ctx h = s.ctx h) ∧
    (∀ h, s.adminFetch.job h = s.job h) ∧ (∀ h, s.adminFetch.restoreList h = s.restoreList h) :=
  ⟨State.adminFetch_view State.pending (fun _ _ => rfl) (fun _ _ => rfl) s,
   State.adminFetch_view State.ticks (fun _ _ => rfl) (fun _ _ => rfl) s,
   State.adminFetch_view State.ctl (fun _ _ => rfl) (fun _ _ => rfl) s,
   State.adminFetch_view State.sqs (fun _ _ => rfl) (fun _ _ => rfl) s,
   State.adminFetch_view State.cqs (fun _ _ => rfl) (fun _ _ => rfl) s,
   State.adminFetch_view State.arb (fun _ _ => rfl) (fun _ _ => rfl) s,
   State.adminFetch_view State.lock (fun _ _ => rfl) (fun _ _ => rfl) s,
   State.adminFetch_view State.ctxs (fun _ _ => rfl) (fun _ _ => rfl) s,
   State.adminFetch_view State.nextChain (fun _ _ => rfl) (fun _ _ => rfl) s,
   State.adminFetch_view State.segs (fun _ _ => rfl) (fun _ _ => rfl) s,
   State.adminFetch_view State.presence (fun _ _ => rfl) (fun _ _ => rfl) s,
   State.adminFetch_view State.watches (fun _ _ => rfl) (fun _ _ => rfl) s,
   State.adminFetch_view State.pool (fun _ _ => rfl) (fun _ _ => rfl) s,
   State.adminFetch_view State.jobs (fun _ _ => rfl) (fun _ _ => rfl) s,
   State.adminFetch_view State.ev (fun _ _ => rfl) (fun _ _ => rfl) s,
   State.adminFetch_view State.irq (fun _ _ => rfl) (fun _ _ => rfl) s,
   fun h => State.adminFetch_view (fun s => s.seg h) (fun _ _ => rfl) (fun _ _ => rfl) s,
   fun h => State.adminFetch_view (fun s => s.sq h) (fun _ _ => rfl) (fun _ _ => rfl) s,
   fun h => State.adminFetch_view (fun s => s.cq h) (fun _ _ => rfl) (fun _ _ => rfl) s,
   fun h => State.adminFetch_view (fun s => s.watch h) (fun _ _ => rfl) (fun _ _ => rfl) s,
   fun h => State.adminFetch_view (fun s => s.pres h) (fun _ _ => rfl) (fun _ _ => rfl) s,
   fun h => State.adminFetch_view (fun s => s.ctx h) (fun _ _ => rfl) (fun _ _ => rfl) s,
   fun h => State.adminFetch_view (fun s => s.job h) (fun _ _ => rfl) (fun _ _ => rfl) s,
   fun h => State.adminFetch_view (fun s => s.restoreList h) (fun _ _ => rfl) (fun _ _ => rfl) s⟩

theorem State.adminEnter_view {γ : Type} (view : State → γ) (hsqs : BlindSqs view) (hadm : BlindAdm view)
    (s : State) (r : Record) : view (s.adminEnter r) = view s := by
  unfold State.adminEnter
  try dsimp only
  (repeat' split) <;> first | simp only [State.setSq_view view hsqs, State.setAdm_view view hadm, hsqs, hadm] | rfl
@[simp] theorem State.adminEnter_frame (s : State) (r : Record) :
    (s.adminEnter r).pending = s.pending ∧ (s.adminEnter r).ticks = s.ticks ∧ (s.adminEnter r).ctl = s.ctl ∧
    (s.adminEnter r).cqs = s.cqs ∧ (s.adminEnter r).arb = s.arb ∧ (s.adminEnter r).lock = s.lock ∧
    (s.adminEnter r).ctxs = s.ctxs ∧ (s.adminEnter r).nextChain = s.nextChain ∧
    (s.adminEnter r).segs = s.segs ∧ (s.adminEnter r).presence = s.presence ∧
    (s.adminEnter r).watches = s.watches ∧ (s.adminEnter r).pool = s.pool ∧ (s.adminEnter r).jobs = s.jobs ∧
    (s.adminEnter r).ev = s.ev ∧ (s.adminEnter r).irq = s.irq ∧ (s.adminEnter r).link = s.link ∧
    (∀ h, (s.adminEnter r).seg h = s.seg h) ∧ (∀ h, (s.adminEnter r).cq h = s.cq h) ∧
    (∀ h, (s.adminEnter r).watch h = s.watch h) ∧ (∀ h, (s.adminEnter r).pres h = s.pres h) ∧
    (∀ h, (s.adminEnter r).ctx h = s.ctx h) ∧ (∀ h, (s.adminEnter r).job h = s.job h) ∧
    (∀ h, (s.adminEnter r).restoreList h = s.restoreList h) :=
  ⟨State.adminEnter_view State.pending (fun _ _ => rfl) (fun _ _ => rfl) s r,
   State.adminEnter_view State.ticks (fun _ _ => rfl) (fun _ _ => rfl) s r,
   State.adminEnter_view State.ctl (fun _ _ => rfl) (fun _ _ => rfl) s r,
   State.adminEnter_view State.cqs (fun _ _ => rfl) (fun _ _ => rfl) s r,
   State.adminEnter_view State.arb (fun _ _ => rfl) (fun _ _ => rfl) s r,
   State.adminEnter_view State.lock (fun _ _ => rfl) (fun _ _ => rfl) s r,
   State.adminEnter_view State.ctxs (fun _ _ => rfl) (fun _ _ => rfl) s r,
   State.adminEnter_view State.nextChain (fun _ _ => rfl) (fun _ _ => rfl) s r,
   State.adminEnter_view State.segs (fun _ _ => rfl) (fun _ _ => rfl) s r,
   State.adminEnter_view State.presence (fun _ _ => rfl) (fun _ _ => rfl) s r,
   State.adminEnter_view State.watches (fun _ _ => rfl) (fun _ _ => rfl) s r,
   State.adminEnter_view State.pool (fun _ _ => rfl) (fun _ _ => rfl) s r,
   State.adminEnter_view State.jobs (fun _ _ => rfl) (fun _ _ => rfl) s r,
   State.adminEnter_view State.ev (fun _ _ => rfl) (fun _ _ => rfl) s r,
   State.adminEnter_view State.irq (fun _ _ => rfl) (fun _ _ => rfl) s r,
   State.adminEnter_view State.link (fun _ _ => rfl) (fun _ _ => rfl) s r,
   fun h => State.adminEnter_view (fun s => s.seg h) (fun _ _ => rfl) (fun _ _ => rfl) s r,
   fun h => State.adminEnter_view (fun s => s.cq h) (fun _ _ => rfl) (fun _ _ => rfl) s r,
   fun h => State.adminEnter_view (fun s => s.watch h) (fun _ _ => rfl) (fun _ _ => rfl) s r,
   fun h => State.adminEnter_view (fun s => s.pres h) (fun _ _ => rfl) (fun _ _ => rfl) s r,
   fun h => State.adminEnter_view (fun s => s.ctx h) (fun _ _ => rfl) (fun _ _ => rfl) s r,
   fun h => State.adminEnter_view (fun s => s.job h) (fun _ _ => rfl) (fun _ _ => rfl) s r,
   fun h => State.adminEnter_view (fun s => s.restoreList h) (fun _ _ => rfl) (fun _ _ => rfl) s r⟩

theorem State.startFrame_view {γ : Type} (view : State → γ) (hsegs : BlindSegs view)
    (s : State) (g : SegId) (k : FrameKind) (t : Option Tgt) (i : Byte) (d : Half) (o : WireOwner) : view (s.startFrame g k t i d o) = view s := by
  unfold State.startFrame
  try dsimp only
  (repeat' split) <;> first | simp only [State.updSeg_view view hsegs, hsegs] | rfl
@[simp] theorem State.startFrame_frame (s : State) (g : SegId) (k : FrameKind) (t : Option Tgt) (i : Byte) (d : Half) (o : WireOwner) :
    (s.startFrame g k t i d o).pending = s.pending ∧ (s.startFrame g k t i d o).ticks = s.ticks ∧
    (s.startFrame g k t i d o).ctl = s.ctl ∧ (s.startFrame g k t i d o).sqs = s.sqs ∧
    (s.startFrame g k t i d o).cqs = s.cqs ∧ (s.startFrame g k t i d o).arb = s.arb ∧
    (s.startFrame g k t i d o).lock = s.lock ∧ (s.startFrame g k t i d o).ctxs = s.ctxs ∧
    (s.startFrame g k t i d o).nextChain = s.nextChain ∧ (s.startFrame g k t i d o).adm = s.adm ∧
    (s.startFrame g k t i d o).presence = s.presence ∧ (s.startFrame g k t i d o).watches = s.watches ∧
    (s.startFrame g k t i d o).pool = s.pool ∧ (s.startFrame g k t i d o).jobs = s.jobs ∧
    (s.startFrame g k t i d o).ev = s.ev ∧ (s.startFrame g k t i d o).irq = s.irq ∧
    (s.startFrame g k t i d o).link = s.link ∧ (∀ h, (s.startFrame g k t i d o).sq h = s.sq h) ∧
    (∀ h, (s.startFrame g k t i d o).cq h = s.cq h) ∧ (∀ h, (s.startFrame g k t i d o).watch h = s.watch h) ∧
    (∀ h, (s.startFrame g k t i d o).pres h = s.pres h) ∧ (∀ h, (s.startFrame g k t i d o).ctx h = s.ctx h) ∧
    (∀ h, (s.startFrame g k t i d o).job h = s.job h) ∧
    (∀ h, (s.startFrame g k t i d o).restoreList h = s.restoreList h) :=
  ⟨State.startFrame_view State.pending (fun _ _ => rfl) s g k t i d o,
   State.startFrame_view State.ticks (fun _ _ => rfl) s g k t i d o,
   State.startFrame_view State.ctl (fun _ _ => rfl) s g k t i d o,
   State.startFrame_view State.sqs (fun _ _ => rfl) s g k t i d o,
   State.startFrame_view State.cqs (fun _ _ => rfl) s g k t i d o,
   State.startFrame_view State.arb (fun _ _ => rfl) s g k t i d o,
   State.startFrame_view State.lock (fun _ _ => rfl) s g k t i d o,
   State.startFrame_view State.ctxs (fun _ _ => rfl) s g k t i d o,
   State.startFrame_view State.nextChain (fun _ _ => rfl) s g k t i d o,
   State.startFrame_view State.adm (fun _ _ => rfl) s g k t i d o,
   State.startFrame_view State.presence (fun _ _ => rfl) s g k t i d o,
   State.startFrame_view State.watches (fun _ _ => rfl) s g k t i d o,
   State.startFrame_view State.pool (fun _ _ => rfl) s g k t i d o,
   State.startFrame_view State.jobs (fun _ _ => rfl) s g k t i d o,
   State.startFrame_view State.ev (fun _ _ => rfl) s g k t i d o,
   State.startFrame_view State.irq (fun _ _ => rfl) s g k t i d o,
   State.startFrame_view State.link (fun _ _ => rfl) s g k t i d o,
   fun h => State.startFrame_view (fun s => s.sq h) (fun _ _ => rfl) s g k t i d o,
   fun h => State.startFrame_view (fun s => s.cq h) (fun _ _ => rfl) s g k t i d o,
   fun h => State.startFrame_view (fun s => s.watch h) (fun _ _ => rfl) s g k t i d o,
   fun h => State.startFrame_view (fun s => s.pres h) (fun _ _ => rfl) s g k t i d o,
   fun h => State.startFrame_view (fun s => s.ctx h) (fun _ _ => rfl) s g k t i d o,
   fun h => State.startFrame_view (fun s => s.job h) (fun _ _ => rfl) s g k t i d o,
   fun h => State.startFrame_view (fun s => s.restoreList h) (fun _ _ => rfl) s g k t i d o⟩

theorem State.startHost_view {γ : Type} (view : State → γ) (hctxs : BlindCtxs view) (hsegs : BlindSegs view)
    (s : State) (g : SegId) (c : Ctx) : view (s.startHost g c) = view s := by
  unfold State.startHost
  try dsimp only
  (repeat' split) <;> first | simp only [State.updSeg_view view hsegs, State.updCtx_view view hctxs, State.startFrame_view view hsegs, hctxs, hsegs] | rfl
@[simp] theorem State.startHost_frame (s : State) (g : SegId) (c : Ctx) :
    (s.startHost g c).pending = s.pending ∧ (s.startHost g c).ticks = s.ticks ∧
    (s.startHost g c).ctl = s.ctl ∧ (s.startHost g c).sqs = s.sqs ∧ (s.startHost g c).cqs = s.cqs ∧
    (s.startHost g c).arb = s.arb ∧ (s.startHost g c).lock = s.lock ∧
    (s.startHost g c).nextChain = s.nextChain ∧ (s.startHost g c).adm = s.adm ∧
    (s.startHost g c).presence = s.presence ∧ (s.startHost g c).watches = s.watches ∧
    (s.startHost g c).pool = s.pool ∧ (s.startHost g c).jobs = s.jobs ∧ (s.startHost g c).ev = s.ev ∧
    (s.startHost g c).irq = s.irq ∧ (s.startHost g c).link = s.link ∧
    (∀ h, (s.startHost g c).sq h = s.sq h) ∧ (∀ h, (s.startHost g c).cq h = s.cq h) ∧
    (∀ h, (s.startHost g c).watch h = s.watch h) ∧ (∀ h, (s.startHost g c).pres h = s.pres h) ∧
    (∀ h, (s.startHost g c).job h = s.job h) ∧ (∀ h, (s.startHost g c).restoreList h = s.restoreList h) :=
  ⟨State.startHost_view State.pending (fun _ _ => rfl) (fun _ _ => rfl) s g c,
   State.startHost_view State.ticks (fun _ _ => rfl) (fun _ _ => rfl) s g c,
   State.startHost_view State.ctl (fun _ _ => rfl) (fun _ _ => rfl) s g c,
   State.startHost_view State.sqs (fun _ _ => rfl) (fun _ _ => rfl) s g c,
   State.startHost_view State.cqs (fun _ _ => rfl) (fun _ _ => rfl) s g c,
   State.startHost_view State.arb (fun _ _ => rfl) (fun _ _ => rfl) s g c,
   State.startHost_view State.lock (fun _ _ => rfl) (fun _ _ => rfl) s g c,
   State.startHost_view State.nextChain (fun _ _ => rfl) (fun _ _ => rfl) s g c,
   State.startHost_view State.adm (fun _ _ => rfl) (fun _ _ => rfl) s g c,
   State.startHost_view State.presence (fun _ _ => rfl) (fun _ _ => rfl) s g c,
   State.startHost_view State.watches (fun _ _ => rfl) (fun _ _ => rfl) s g c,
   State.startHost_view State.pool (fun _ _ => rfl) (fun _ _ => rfl) s g c,
   State.startHost_view State.jobs (fun _ _ => rfl) (fun _ _ => rfl) s g c,
   State.startHost_view State.ev (fun _ _ => rfl) (fun _ _ => rfl) s g c,
   State.startHost_view State.irq (fun _ _ => rfl) (fun _ _ => rfl) s g c,
   State.startHost_view State.link (fun _ _ => rfl) (fun _ _ => rfl) s g c,
   fun h => State.startHost_view (fun s => s.sq h) (fun _ _ => rfl) (fun _ _ => rfl) s g c,
   fun h => State.startHost_view (fun s => s.cq h) (fun _ _ => rfl) (fun _ _ => rfl) s g c,
   fun h => State.startHost_view (fun s => s.watch h) (fun _ _ => rfl) (fun _ _ => rfl) s g c,
   fun h => State.startHost_view (fun s => s.pres h) (fun _ _ => rfl) (fun _ _ => rfl) s g c,
   fun h => State.startHost_view (fun s => s.job h) (fun _ _ => rfl) (fun _ _ => rfl) s g c,
   fun h => State.startHost_view (fun s => s.restoreList h) (fun _ _ => rfl) (fun _ _ => rfl) s g c⟩

theorem State.chooseHost_view {γ : Type} (view : State → γ) (hctxs : BlindCtxs view) (hsegs : BlindSegs view)
    (s : State) (g : SegId) (c : Ctx) : view (s.chooseHost g c) = view s := by
  unfold State.chooseHost
  try dsimp only
  (repeat' split) <;> first | simp only [State.updSeg_view view hsegs, State.startHost_view view hctxs hsegs, hctxs, hsegs] | rfl
@[simp] theorem State.chooseHost_frame (s : State) (g : SegId) (c : Ctx) :
    (s.chooseHost g c).pending = s.pending ∧ (s.chooseHost g c).ticks = s.ticks ∧
    (s.chooseHost g c).ctl = s.ctl ∧ (s.chooseHost g c).sqs = s.sqs ∧ (s.chooseHost g c).cqs = s.cqs ∧
    (s.chooseHost g c).arb = s.arb ∧ (s.chooseHost g c).lock = s.lock ∧
    (s.chooseHost g c).nextChain = s.nextChain ∧ (s.chooseHost g c).adm = s.adm ∧
    (s.chooseHost g c).presence = s.presence ∧ (s.chooseHost g c).watches = s.watches ∧
    (s.chooseHost g c).pool = s.pool ∧ (s.chooseHost g c).jobs = s.jobs ∧ (s.chooseHost g c).ev = s.ev ∧
    (s.chooseHost g c).irq = s.irq ∧ (s.chooseHost g c).link = s.link ∧
    (∀ h, (s.chooseHost g c).sq h = s.sq h) ∧ (∀ h, (s.chooseHost g c).cq h = s.cq h) ∧
    (∀ h, (s.chooseHost g c).watch h = s.watch h) ∧ (∀ h, (s.chooseHost g c).pres h = s.pres h) ∧
    (∀ h, (s.chooseHost g c).job h = s.job h) ∧ (∀ h, (s.chooseHost g c).restoreList h = s.restoreList h) :=
  ⟨State.chooseHost_view State.pending (fun _ _ => rfl) (fun _ _ => rfl) s g c,
   State.chooseHost_view State.ticks (fun _ _ => rfl) (fun _ _ => rfl) s g c,
   State.chooseHost_view State.ctl (fun _ _ => rfl) (fun _ _ => rfl) s g c,
   State.chooseHost_view State.sqs (fun _ _ => rfl) (fun _ _ => rfl) s g c,
   State.chooseHost_view State.cqs (fun _ _ => rfl) (fun _ _ => rfl) s g c,
   State.chooseHost_view State.arb (fun _ _ => rfl) (fun _ _ => rfl) s g c,
   State.chooseHost_view State.lock (fun _ _ => rfl) (fun _ _ => rfl) s g c,
   State.chooseHost_view State.nextChain (fun _ _ => rfl) (fun _ _ => rfl) s g c,
   State.chooseHost_view State.adm (fun _ _ => rfl) (fun _ _ => rfl) s g c,
   State.chooseHost_view State.presence (fun _ _ => rfl) (fun _ _ => rfl) s g c,
   State.chooseHost_view State.watches (fun _ _ => rfl) (fun _ _ => rfl) s g c,
   State.chooseHost_view State.pool (fun _ _ => rfl) (fun _ _ => rfl) s g c,
   State.chooseHost_view State.jobs (fun _ _ => rfl) (fun _ _ => rfl) s g c,
   State.chooseHost_view State.ev (fun _ _ => rfl) (fun _ _ => rfl) s g c,
   State.chooseHost_view State.irq (fun _ _ => rfl) (fun _ _ => rfl) s g c,
   State.chooseHost_view State.link (fun _ _ => rfl) (fun _ _ => rfl) s g c,
   fun h => State.chooseHost_view (fun s => s.sq h) (fun _ _ => rfl) (fun _ _ => rfl) s g c,
   fun h => State.chooseHost_view (fun s => s.cq h) (fun _ _ => rfl) (fun _ _ => rfl) s g c,
   fun h => State.chooseHost_view (fun s => s.watch h) (fun _ _ => rfl) (fun _ _ => rfl) s g c,
   fun h => State.chooseHost_view (fun s => s.pres h) (fun _ _ => rfl) (fun _ _ => rfl) s g c,
   fun h => State.chooseHost_view (fun s => s.job h) (fun _ _ => rfl) (fun _ _ => rfl) s g c,
   fun h => State.chooseHost_view (fun s => s.restoreList h) (fun _ _ => rfl) (fun _ _ => rfl) s g c⟩

theorem State.choosePoll_view {γ : Type} (view : State → γ) (hsegs : BlindSegs view) (hwatches : BlindWatches view)
    (s : State) (g : SegId) (d : DuePoll) : view (s.choosePoll g d) = view s := by
  unfold State.choosePoll
  try dsimp only
  (repeat' split) <;> first | simp only [State.updSeg_view view hsegs, State.setWatch_view view hwatches, State.startFrame_view view hsegs, hsegs, hwatches] | rfl
@[simp] theorem State.choosePoll_frame (s : State) (g : SegId) (d : DuePoll) :
    (s.choosePoll g d).pending = s.pending ∧ (s.choosePoll g d).ticks = s.ticks ∧
    (s.choosePoll g d).ctl = s.ctl ∧ (s.choosePoll g d).sqs = s.sqs ∧ (s.choosePoll g d).cqs = s.cqs ∧
    (s.choosePoll g d).arb = s.arb ∧ (s.choosePoll g d).lock = s.lock ∧ (s.choosePoll g d).ctxs = s.ctxs ∧
    (s.choosePoll g d).nextChain = s.nextChain ∧ (s.choosePoll g d).adm = s.adm ∧
    (s.choosePoll g d).presence = s.presence ∧ (s.choosePoll g d).pool = s.pool ∧
    (s.choosePoll g d).jobs = s.jobs ∧ (s.choosePoll g d).ev = s.ev ∧ (s.choosePoll g d).irq = s.irq ∧
    (s.choosePoll g d).link = s.link ∧ (∀ h, (s.choosePoll g d).sq h = s.sq h) ∧
    (∀ h, (s.choosePoll g d).cq h = s.cq h) ∧ (∀ h, (s.choosePoll g d).pres h = s.pres h) ∧
    (∀ h, (s.choosePoll g d).ctx h = s.ctx h) ∧ (∀ h, (s.choosePoll g d).job h = s.job h) ∧
    (∀ h, (s.choosePoll g d).restoreList h = s.restoreList h) :=
  ⟨State.choosePoll_view State.pending (fun _ _ => rfl) (fun _ _ => rfl) s g d,
   State.choosePoll_view State.ticks (fun _ _ => rfl) (fun _ _ => rfl) s g d,
   State.choosePoll_view State.ctl (fun _ _ => rfl) (fun _ _ => rfl) s g d,
   State.choosePoll_view State.sqs (fun _ _ => rfl) (fun _ _ => rfl) s g d,
   State.choosePoll_view State.cqs (fun _ _ => rfl) (fun _ _ => rfl) s g d,
   State.choosePoll_view State.arb (fun _ _ => rfl) (fun _ _ => rfl) s g d,
   State.choosePoll_view State.lock (fun _ _ => rfl) (fun _ _ => rfl) s g d,
   State.choosePoll_view State.ctxs (fun _ _ => rfl) (fun _ _ => rfl) s g d,
   State.choosePoll_view State.nextChain (fun _ _ => rfl) (fun _ _ => rfl) s g d,
   State.choosePoll_view State.adm (fun _ _ => rfl) (fun _ _ => rfl) s g d,
   State.choosePoll_view State.presence (fun _ _ => rfl) (fun _ _ => rfl) s g d,
   State.choosePoll_view State.pool (fun _ _ => rfl) (fun _ _ => rfl) s g d,
   State.choosePoll_view State.jobs (fun _ _ => rfl) (fun _ _ => rfl) s g d,
   State.choosePoll_view State.ev (fun _ _ => rfl) (fun _ _ => rfl) s g d,
   State.choosePoll_view State.irq (fun _ _ => rfl) (fun _ _ => rfl) s g d,
   State.choosePoll_view State.link (fun _ _ => rfl) (fun _ _ => rfl) s g d,
   fun h => State.choosePoll_view (fun s => s.sq h) (fun _ _ => rfl) (fun _ _ => rfl) s g d,
   fun h => State.choosePoll_view (fun s => s.cq h) (fun _ _ => rfl) (fun _ _ => rfl) s g d,
   fun h => State.choosePoll_view (fun s => s.pres h) (fun _ _ => rfl) (fun _ _ => rfl) s g d,
   fun h => State.choosePoll_view (fun s => s.ctx h) (fun _ _ => rfl) (fun _ _ => rfl) s g d,
   fun h => State.choosePoll_view (fun s => s.job h) (fun _ _ => rfl) (fun _ _ => rfl) s g d,
   fun h => State.choosePoll_view (fun s => s.restoreList h) (fun _ _ => rfl) (fun _ _ => rfl) s g d⟩

theorem State.chooseWrite_view {γ : Type} (view : State → γ) (hsegs : BlindSegs view) (hjobs : BlindJobs view)
    (s : State) (g : SegId) (e : IwEntry) : view (s.chooseWrite g e) = view s := by
  unfold State.chooseWrite
  try dsimp only
  (repeat' split) <;> first | simp only [State.updSeg_view view hsegs, State.updJob_view view hjobs, State.startFrame_view view hsegs, hsegs, hjobs] | rfl
@[simp] theorem State.chooseWrite_frame (s : State) (g : SegId) (e : IwEntry) :
    (s.chooseWrite g e).pending = s.pending ∧ (s.chooseWrite g e).ticks = s.ticks ∧
    (s.chooseWrite g e).ctl = s.ctl ∧ (s.chooseWrite g e).sqs = s.sqs ∧ (s.chooseWrite g e).cqs = s.cqs ∧
    (s.chooseWrite g e).arb = s.arb ∧ (s.chooseWrite g e).lock = s.lock ∧ (s.chooseWrite g e).ctxs = s.ctxs ∧
    (s.chooseWrite g e).nextChain = s.nextChain ∧ (s.chooseWrite g e).adm = s.adm ∧
    (s.chooseWrite g e).presence = s.presence ∧ (s.chooseWrite g e).watches = s.watches ∧
    (s.chooseWrite g e).pool = s.pool ∧ (s.chooseWrite g e).ev = s.ev ∧ (s.chooseWrite g e).irq = s.irq ∧
    (s.chooseWrite g e).link = s.link ∧ (∀ h, (s.chooseWrite g e).sq h = s.sq h) ∧
    (∀ h, (s.chooseWrite g e).cq h = s.cq h) ∧ (∀ h, (s.chooseWrite g e).watch h = s.watch h) ∧
    (∀ h, (s.chooseWrite g e).pres h = s.pres h) ∧ (∀ h, (s.chooseWrite g e).ctx h = s.ctx h) ∧
    (∀ h, (s.chooseWrite g e).restoreList h = s.restoreList h) :=
  ⟨State.chooseWrite_view State.pending (fun _ _ => rfl) (fun _ _ => rfl) s g e,
   State.chooseWrite_view State.ticks (fun _ _ => rfl) (fun _ _ => rfl) s g e,
   State.chooseWrite_view State.ctl (fun _ _ => rfl) (fun _ _ => rfl) s g e,
   State.chooseWrite_view State.sqs (fun _ _ => rfl) (fun _ _ => rfl) s g e,
   State.chooseWrite_view State.cqs (fun _ _ => rfl) (fun _ _ => rfl) s g e,
   State.chooseWrite_view State.arb (fun _ _ => rfl) (fun _ _ => rfl) s g e,
   State.chooseWrite_view State.lock (fun _ _ => rfl) (fun _ _ => rfl) s g e,
   State.chooseWrite_view State.ctxs (fun _ _ => rfl) (fun _ _ => rfl) s g e,
   State.chooseWrite_view State.nextChain (fun _ _ => rfl) (fun _ _ => rfl) s g e,
   State.chooseWrite_view State.adm (fun _ _ => rfl) (fun _ _ => rfl) s g e,
   State.chooseWrite_view State.presence (fun _ _ => rfl) (fun _ _ => rfl) s g e,
   State.chooseWrite_view State.watches (fun _ _ => rfl) (fun _ _ => rfl) s g e,
   State.chooseWrite_view State.pool (fun _ _ => rfl) (fun _ _ => rfl) s g e,
   State.chooseWrite_view State.ev (fun _ _ => rfl) (fun _ _ => rfl) s g e,
   State.chooseWrite_view State.irq (fun _ _ => rfl) (fun _ _ => rfl) s g e,
   State.chooseWrite_view State.link (fun _ _ => rfl) (fun _ _ => rfl) s g e,
   fun h => State.chooseWrite_view (fun s => s.sq h) (fun _ _ => rfl) (fun _ _ => rfl) s g e,
   fun h => State.chooseWrite_view (fun s => s.cq h) (fun _ _ => rfl) (fun _ _ => rfl) s g e,
   fun h => State.chooseWrite_view (fun s => s.watch h) (fun _ _ => rfl) (fun _ _ => rfl) s g e,
   fun h => State.chooseWrite_view (fun s => s.pres h) (fun _ _ => rfl) (fun _ _ => rfl) s g e,
   fun h => State.chooseWrite_view (fun s => s.ctx h) (fun _ _ => rfl) (fun _ _ => rfl) s g e,
   fun h => State.chooseWrite_view (fun s => s.restoreList h) (fun _ _ => rfl) (fun _ _ => rfl) s g e⟩

theorem State.yieldIfHeld_view {γ : Type} (view : State → γ) (hctxs : BlindCtxs view) (hsegs : BlindSegs view)
    (s : State) (g : SegId) : view (s.yieldIfHeld g) = view s := by
  unfold State.yieldIfHeld
  try dsimp only
  (repeat' split) <;> first | simp only [State.updSeg_view view hsegs, State.updCtx_view view hctxs, hctxs, hsegs] | rfl
@[simp] theorem State.yieldIfHeld_frame (s : State) (g : SegId) :
    (s.yieldIfHeld g).pending = s.pending ∧ (s.yieldIfHeld g).ticks = s.ticks ∧
    (s.yieldIfHeld g).ctl = s.ctl ∧ (s.yieldIfHeld g).sqs = s.sqs ∧ (s.yieldIfHeld g).cqs = s.cqs ∧
    (s.yieldIfHeld g).arb = s.arb ∧ (s.yieldIfHeld g).lock = s.lock ∧
    (s.yieldIfHeld g).nextChain = s.nextChain ∧ (s.yieldIfHeld g).adm = s.adm ∧
    (s.yieldIfHeld g).presence = s.presence ∧ (s.yieldIfHeld g).watches = s.watches ∧
    (s.yieldIfHeld g).pool = s.pool ∧ (s.yieldIfHeld g).jobs = s.jobs ∧ (s.yieldIfHeld g).ev = s.ev ∧
    (s.yieldIfHeld g).irq = s.irq ∧ (s.yieldIfHeld g).link = s.link ∧
    (∀ h, (s.yieldIfHeld g).sq h = s.sq h) ∧ (∀ h, (s.yieldIfHeld g).cq h = s.cq h) ∧
    (∀ h, (s.yieldIfHeld g).watch h = s.watch h) ∧ (∀ h, (s.yieldIfHeld g).pres h = s.pres h) ∧
    (∀ h, (s.yieldIfHeld g).job h = s.job h) ∧ (∀ h, (s.yieldIfHeld g).restoreList h = s.restoreList h) :=
  ⟨State.yieldIfHeld_view State.pending (fun _ _ => rfl) (fun _ _ => rfl) s g,
   State.yieldIfHeld_view State.ticks (fun _ _ => rfl) (fun _ _ => rfl) s g,
   State.yieldIfHeld_view State.ctl (fun _ _ => rfl) (fun _ _ => rfl) s g,
   State.yieldIfHeld_view State.sqs (fun _ _ => rfl) (fun _ _ => rfl) s g,
   State.yieldIfHeld_view State.cqs (fun _ _ => rfl) (fun _ _ => rfl) s g,
   State.yieldIfHeld_view State.arb (fun _ _ => rfl) (fun _ _ => rfl) s g,
   State.yieldIfHeld_view State.lock (fun _ _ => rfl) (fun _ _ => rfl) s g,
   State.yieldIfHeld_view State.nextChain (fun _ _ => rfl) (fun _ _ => rfl) s g,
   State.yieldIfHeld_view State.adm (fun _ _ => rfl) (fun _ _ => rfl) s g,
   State.yieldIfHeld_view State.presence (fun _ _ => rfl) (fun _ _ => rfl) s g,
   State.yieldIfHeld_view State.watches (fun _ _ => rfl) (fun _ _ => rfl) s g,
   State.yieldIfHeld_view State.pool (fun _ _ => rfl) (fun _ _ => rfl) s g,
   State.yieldIfHeld_view State.jobs (fun _ _ => rfl) (fun _ _ => rfl) s g,
   State.yieldIfHeld_view State.ev (fun _ _ => rfl) (fun _ _ => rfl) s g,
   State.yieldIfHeld_view State.irq (fun _ _ => rfl) (fun _ _ => rfl) s g,
   State.yieldIfHeld_view State.link (fun _ _ => rfl) (fun _ _ => rfl) s g,
   fun h => State.yieldIfHeld_view (fun s => s.sq h) (fun _ _ => rfl) (fun _ _ => rfl) s g,
   fun h => State.yieldIfHeld_view (fun s => s.cq h) (fun _ _ => rfl) (fun _ _ => rfl) s g,
   fun h => State.yieldIfHeld_view (fun s => s.watch h) (fun _ _ => rfl) (fun _ _ => rfl) s g,
   fun h => State.yieldIfHeld_view (fun s => s.pres h) (fun _ _ => rfl) (fun _ _ => rfl) s g,
   fun h => State.yieldIfHeld_view (fun s => s.job h) (fun _ _ => rfl) (fun _ _ => rfl) s g,
   fun h => State.yieldIfHeld_view (fun s => s.restoreList h) (fun _ _ => rfl) (fun _ _ => rfl) s g⟩

theorem State.holderFrame_view {γ : Type} (view : State → γ) (hctxs : BlindCtxs view) (hsegs : BlindSegs view)
    (s : State) (g : SegId) : view (s.holderFrame g) = view s := by
  unfold State.holderFrame
  try dsimp only
  (repeat' split) <;> first | simp only [State.startHost_view view hctxs hsegs, hctxs, hsegs] | rfl
@[simp] theorem State.holderFrame_frame (s : State) (g : SegId) :
    (s.holderFrame g).pending = s.pending ∧ (s.holderFrame g).ticks = s.ticks ∧
    (s.holderFrame g).ctl = s.ctl ∧ (s.holderFrame g).sqs = s.sqs ∧ (s.holderFrame g).cqs = s.cqs ∧
    (s.holderFrame g).arb = s.arb ∧ (s.holderFrame g).lock = s.lock ∧
    (s.holderFrame g).nextChain = s.nextChain ∧ (s.holderFrame g).adm = s.adm ∧
    (s.holderFrame g).presence = s.presence ∧ (s.holderFrame g).watches = s.watches ∧
    (s.holderFrame g).pool = s.pool ∧ (s.holderFrame g).jobs = s.jobs ∧ (s.holderFrame g).ev = s.ev ∧
    (s.holderFrame g).irq = s.irq ∧ (s.holderFrame g).link = s.link ∧
    (∀ h, (s.holderFrame g).sq h = s.sq h) ∧ (∀ h, (s.holderFrame g).cq h = s.cq h) ∧
    (∀ h, (s.holderFrame g).watch h = s.watch h) ∧ (∀ h, (s.holderFrame g).pres h = s.pres h) ∧
    (∀ h, (s.holderFrame g).job h = s.job h) ∧ (∀ h, (s.holderFrame g).restoreList h = s.restoreList h) :=
  ⟨State.holderFrame_view State.pending (fun _ _ => rfl) (fun _ _ => rfl) s g,
   State.holderFrame_view State.ticks (fun _ _ => rfl) (fun _ _ => rfl) s g,
   State.holderFrame_view State.ctl (fun _ _ => rfl) (fun _ _ => rfl) s g,
   State.holderFrame_view State.sqs (fun _ _ => rfl) (fun _ _ => rfl) s g,
   State.holderFrame_view State.cqs (fun _ _ => rfl) (fun _ _ => rfl) s g,
   State.holderFrame_view State.arb (fun _ _ => rfl) (fun _ _ => rfl) s g,
   State.holderFrame_view State.lock (fun _ _ => rfl) (fun _ _ => rfl) s g,
   State.holderFrame_view State.nextChain (fun _ _ => rfl) (fun _ _ => rfl) s g,
   State.holderFrame_view State.adm (fun _ _ => rfl) (fun _ _ => rfl) s g,
   State.holderFrame_view State.presence (fun _ _ => rfl) (fun _ _ => rfl) s g,
   State.holderFrame_view State.watches (fun _ _ => rfl) (fun _ _ => rfl) s g,
   State.holderFrame_view State.pool (fun _ _ => rfl) (fun _ _ => rfl) s g,
   State.holderFrame_view State.jobs (fun _ _ => rfl) (fun _ _ => rfl) s g,
   State.holderFrame_view State.ev (fun _ _ => rfl) (fun _ _ => rfl) s g,
   State.holderFrame_view State.irq (fun _ _ => rfl) (fun _ _ => rfl) s g,
   State.holderFrame_view State.link (fun _ _ => rfl) (fun _ _ => rfl) s g,
   fun h => State.holderFrame_view (fun s => s.sq h) (fun _ _ => rfl) (fun _ _ => rfl) s g,
   fun h => State.holderFrame_view (fun s => s.cq h) (fun _ _ => rfl) (fun _ _ => rfl) s g,
   fun h => State.holderFrame_view (fun s => s.watch h) (fun _ _ => rfl) (fun _ _ => rfl) s g,
   fun h => State.holderFrame_view (fun s => s.pres h) (fun _ _ => rfl) (fun _ _ => rfl) s g,
   fun h => State.holderFrame_view (fun s => s.job h) (fun _ _ => rfl) (fun _ _ => rfl) s g,
   fun h => State.holderFrame_view (fun s => s.restoreList h) (fun _ _ => rfl) (fun _ _ => rfl) s g⟩

theorem State.pollOrHost_view {γ : Type} (view : State → γ) (hctxs : BlindCtxs view) (hsegs : BlindSegs view) (hwatches : BlindWatches view)
    (s : State) (g : SegId) : view (s.pollOrHost g) = view s := by
  unfold State.pollOrHost
  try dsimp only
  (repeat' split) <;> first | simp only [State.chooseHost_view view hctxs hsegs, State.choosePoll_view view hsegs hwatches, hctxs, hsegs, hwatches] | rfl
@[simp] theorem State.pollOrHost_frame (s : State) (g : SegId) :
    (s.pollOrHost g).pending = s.pending ∧ (s.pollOrHost g).ticks = s.ticks ∧ (s.pollOrHost g).ctl = s.ctl ∧
    (s.pollOrHost g).sqs = s.sqs ∧ (s.pollOrHost g).cqs = s.cqs ∧ (s.pollOrHost g).arb = s.arb ∧
    (s.pollOrHost g).lock = s.lock ∧ (s.pollOrHost g).nextChain = s.nextChain ∧
    (s.pollOrHost g).adm = s.adm ∧ (s.pollOrHost g).presence = s.presence ∧ (s.pollOrHost g).pool = s.pool ∧
    (s.pollOrHost g).jobs = s.jobs ∧ (s.pollOrHost g).ev = s.ev ∧ (s.pollOrHost g).irq = s.irq ∧
    (s.pollOrHost g).link = s.link ∧ (∀ h, (s.pollOrHost g).sq h = s.sq h) ∧
    (∀ h, (s.pollOrHost g).cq h = s.cq h) ∧ (∀ h, (s.pollOrHost g).pres h = s.pres h) ∧
    (∀ h, (s.pollOrHost g).job h = s.job h) ∧ (∀ h, (s.pollOrHost g).restoreList h = s.restoreList h) :=
  ⟨State.pollOrHost_view State.pending (fun _ _ => rfl) (fun _ _ => rfl) (fun _ _ => rfl) s g,
   State.pollOrHost_view State.ticks (fun _ _ => rfl) (fun _ _ => rfl) (fun _ _ => rfl) s g,
   State.pollOrHost_view State.ctl (fun _ _ => rfl) (fun _ _ => rfl) (fun _ _ => rfl) s g,
   State.pollOrHost_view State.sqs (fun _ _ => rfl) (fun _ _ => rfl) (fun _ _ => rfl) s g,
   State.pollOrHost_view State.cqs (fun _ _ => rfl) (fun _ _ => rfl) (fun _ _ => rfl) s g,
   State.pollOrHost_view State.arb (fun _ _ => rfl) (fun _ _ => rfl) (fun _ _ => rfl) s g,
   State.pollOrHost_view State.lock (fun _ _ => rfl) (fun _ _ => rfl) (fun _ _ => rfl) s g,
   State.pollOrHost_view State.nextChain (fun _ _ => rfl) (fun _ _ => rfl) (fun _ _ => rfl) s g,
   State.pollOrHost_view State.adm (fun _ _ => rfl) (fun _ _ => rfl) (fun _ _ => rfl) s g,
   State.pollOrHost_view State.presence (fun _ _ => rfl) (fun _ _ => rfl) (fun _ _ => rfl) s g,
   State.pollOrHost_view State.pool (fun _ _ => rfl) (fun _ _ => rfl) (fun _ _ => rfl) s g,
   State.pollOrHost_view State.jobs (fun _ _ => rfl) (fun _ _ => rfl) (fun _ _ => rfl) s g,
   State.pollOrHost_view State.ev (fun _ _ => rfl) (fun _ _ => rfl) (fun _ _ => rfl) s g,
   State.pollOrHost_view State.irq (fun _ _ => rfl) (fun _ _ => rfl) (fun _ _ => rfl) s g,
   State.pollOrHost_view State.link (fun _ _ => rfl) (fun _ _ => rfl) (fun _ _ => rfl) s g,
   fun h => State.pollOrHost_view (fun s => s.sq h) (fun _ _ => rfl) (fun _ _ => rfl) (fun _ _ => rfl) s g,
   fun h => State.pollOrHost_view (fun s => s.cq h) (fun _ _ => rfl) (fun _ _ => rfl) (fun _ _ => rfl) s g,
   fun h => State.pollOrHost_view (fun s => s.pres h) (fun _ _ => rfl) (fun _ _ => rfl) (fun _ _ => rfl) s g,
   fun h => State.pollOrHost_view (fun s => s.job h) (fun _ _ => rfl) (fun _ _ => rfl) (fun _ _ => rfl) s g,
   fun h => State.pollOrHost_view (fun s => s.restoreList h) (fun _ _ => rfl) (fun _ _ => rfl) (fun _ _ => rfl) s g⟩

theorem State.openBoundary_view {γ : Type} (view : State → γ) (hctxs : BlindCtxs view) (hsegs : BlindSegs view) (hwatches : BlindWatches view) (hjobs : BlindJobs view)
    (s : State) (g : SegId) : view (s.openBoundary g) = view s := by
  unfold State.openBoundary
  try dsimp only
  (repeat' split) <;> first | simp only [State.chooseWrite_view view hsegs hjobs, State.pollOrHost_view view hctxs hsegs hwatches, hctxs, hsegs, hwatches, hjobs] | rfl
@[simp] theorem State.openBoundary_frame (s : State) (g : SegId) :
    (s.openBoundary g).pending = s.pending ∧ (s.openBoundary g).ticks = s.ticks ∧
    (s.openBoundary g).ctl = s.ctl ∧ (s.openBoundary g).sqs = s.sqs ∧ (s.openBoundary g).cqs = s.cqs ∧
    (s.openBoundary g).arb = s.arb ∧ (s.openBoundary g).lock = s.lock ∧
    (s.openBoundary g).nextChain = s.nextChain ∧ (s.openBoundary g).adm = s.adm ∧
    (s.openBoundary g).presence = s.presence ∧ (s.openBoundary g).pool = s.pool ∧
    (s.openBoundary g).ev = s.ev ∧ (s.openBoundary g).irq = s.irq ∧ (s.openBoundary g).link = s.link ∧
    (∀ h, (s.openBoundary g).sq h = s.sq h) ∧ (∀ h, (s.openBoundary g).cq h = s.cq h) ∧
    (∀ h, (s.openBoundary g).pres h = s.pres h) ∧ (∀ h, (s.openBoundary g).restoreList h = s.restoreList h) :=
  ⟨State.openBoundary_view State.pending (fun _ _ => rfl) (fun _ _ => rfl) (fun _ _ => rfl) (fun _ _ => rfl) s g,
   State.openBoundary_view State.ticks (fun _ _ => rfl) (fun _ _ => rfl) (fun _ _ => rfl) (fun _ _ => rfl) s g,
   State.openBoundary_view State.ctl (fun _ _ => rfl) (fun _ _ => rfl) (fun _ _ => rfl) (fun _ _ => rfl) s g,
   State.openBoundary_view State.sqs (fun _ _ => rfl) (fun _ _ => rfl) (fun _ _ => rfl) (fun _ _ => rfl) s g,
   State.openBoundary_view State.cqs (fun _ _ => rfl) (fun _ _ => rfl) (fun _ _ => rfl) (fun _ _ => rfl) s g,
   State.openBoundary_view State.arb (fun _ _ => rfl) (fun _ _ => rfl) (fun _ _ => rfl) (fun _ _ => rfl) s g,
   State.openBoundary_view State.lock (fun _ _ => rfl) (fun _ _ => rfl) (fun _ _ => rfl) (fun _ _ => rfl) s g,
   State.openBoundary_view State.nextChain (fun _ _ => rfl) (fun _ _ => rfl) (fun _ _ => rfl) (fun _ _ => rfl) s g,
   State.openBoundary_view State.adm (fun _ _ => rfl) (fun _ _ => rfl) (fun _ _ => rfl) (fun _ _ => rfl) s g,
   State.openBoundary_view State.presence (fun _ _ => rfl) (fun _ _ => rfl) (fun _ _ => rfl) (fun _ _ => rfl) s g,
   State.openBoundary_view State.pool (fun _ _ => rfl) (fun _ _ => rfl) (fun _ _ => rfl) (fun _ _ => rfl) s g,
   State.openBoundary_view State.ev (fun _ _ => rfl) (fun _ _ => rfl) (fun _ _ => rfl) (fun _ _ => rfl) s g,
   State.openBoundary_view State.irq (fun _ _ => rfl) (fun _ _ => rfl) (fun _ _ => rfl) (fun _ _ => rfl) s g,
   State.openBoundary_view State.link (fun _ _ => rfl) (fun _ _ => rfl) (fun _ _ => rfl) (fun _ _ => rfl) s g,
   fun h => State.openBoundary_view (fun s => s.sq h) (fun _ _ => rfl) (fun _ _ => rfl) (fun _ _ => rfl) (fun _ _ => rfl) s g,
   fun h => State.openBoundary_view (fun s => s.cq h) (fun _ _ => rfl) (fun _ _ => rfl) (fun _ _ => rfl) (fun _ _ => rfl) s g,
   fun h => State.openBoundary_view (fun s => s.pres h) (fun _ _ => rfl) (fun _ _ => rfl) (fun _ _ => rfl) (fun _ _ => rfl) s g,
   fun h => State.openBoundary_view (fun s => s.restoreList h) (fun _ _ => rfl) (fun _ _ => rfl) (fun _ _ => rfl) (fun _ _ => rfl) s g⟩

theorem State.boundary_view {γ : Type} (view : State → γ) (hctxs : BlindCtxs view) (hsegs : BlindSegs view) (hwatches : BlindWatches view) (hjobs : BlindJobs view)
    (s : State) (g : SegId) : view (s.boundary g) = view s := by
  unfold State.boundary
  try dsimp only
  (repeat' split) <;> first | simp only [State.yieldIfHeld_view view hctxs hsegs, State.holderFrame_view view hctxs hsegs, State.openBoundary_view view hctxs hsegs hwatches hjobs, hctxs, hsegs, hwatches, hjobs] | rfl
@[simp] theorem State.boundary_frame (s : State) (g : SegId) :
    (s.boundary g).pending = s.pending ∧ (s.boundary g).ticks = s.ticks ∧ (s.boundary g).ctl = s.ctl ∧
    (s.boundary g).sqs = s.sqs ∧ (s.boundary g).cqs = s.cqs ∧ (s.boundary g).arb = s.arb ∧
    (s.boundary g).lock = s.lock ∧ (s.boundary g).nextChain = s.nextChain ∧ (s.boundary g).adm = s.adm ∧
    (s.boundary g).presence = s.presence ∧ (s.boundary g).pool = s.pool ∧ (s.boundary g).ev = s.ev ∧
    (s.boundary g).irq = s.irq ∧ (s.boundary g).link = s.link ∧ (∀ h, (s.boundary g).sq h = s.sq h) ∧
    (∀ h, (s.boundary g).cq h = s.cq h) ∧ (∀ h, (s.boundary g).pres h = s.pres h) ∧
    (∀ h, (s.boundary g).restoreList h = s.restoreList h) :=
  ⟨State.boundary_view State.pending (fun _ _ => rfl) (fun _ _ => rfl) (fun _ _ => rfl) (fun _ _ => rfl) s g,
   State.boundary_view State.ticks (fun _ _ => rfl) (fun _ _ => rfl) (fun _ _ => rfl) (fun _ _ => rfl) s g,
   State.boundary_view State.ctl (fun _ _ => rfl) (fun _ _ => rfl) (fun _ _ => rfl) (fun _ _ => rfl) s g,
   State.boundary_view State.sqs (fun _ _ => rfl) (fun _ _ => rfl) (fun _ _ => rfl) (fun _ _ => rfl) s g,
   State.boundary_view State.cqs (fun _ _ => rfl) (fun _ _ => rfl) (fun _ _ => rfl) (fun _ _ => rfl) s g,
   State.boundary_view State.arb (fun _ _ => rfl) (fun _ _ => rfl) (fun _ _ => rfl) (fun _ _ => rfl) s g,
   State.boundary_view State.lock (fun _ _ => rfl) (fun _ _ => rfl) (fun _ _ => rfl) (fun _ _ => rfl) s g,
   State.boundary_view State.nextChain (fun _ _ => rfl) (fun _ _ => rfl) (fun _ _ => rfl) (fun _ _ => rfl) s g,
   State.boundary_view State.adm (fun _ _ => rfl) (fun _ _ => rfl) (fun _ _ => rfl) (fun _ _ => rfl) s g,
   State.boundary_view State.presence (fun _ _ => rfl) (fun _ _ => rfl) (fun _ _ => rfl) (fun _ _ => rfl) s g,
   State.boundary_view State.pool (fun _ _ => rfl) (fun _ _ => rfl) (fun _ _ => rfl) (fun _ _ => rfl) s g,
   State.boundary_view State.ev (fun _ _ => rfl) (fun _ _ => rfl) (fun _ _ => rfl) (fun _ _ => rfl) s g,
   State.boundary_view State.irq (fun _ _ => rfl) (fun _ _ => rfl) (fun _ _ => rfl) (fun _ _ => rfl) s g,
   State.boundary_view State.link (fun _ _ => rfl) (fun _ _ => rfl) (fun _ _ => rfl) (fun _ _ => rfl) s g,
   fun h => State.boundary_view (fun s => s.sq h) (fun _ _ => rfl) (fun _ _ => rfl) (fun _ _ => rfl) (fun _ _ => rfl) s g,
   fun h => State.boundary_view (fun s => s.cq h) (fun _ _ => rfl) (fun _ _ => rfl) (fun _ _ => rfl) (fun _ _ => rfl) s g,
   fun h => State.boundary_view (fun s => s.pres h) (fun _ _ => rfl) (fun _ _ => rfl) (fun _ _ => rfl) (fun _ _ => rfl) s g,
   fun h => State.boundary_view (fun s => s.restoreList h) (fun _ _ => rfl) (fun _ _ => rfl) (fun _ _ => rfl) (fun _ _ => rfl) s g⟩

theorem State.keepHandOff_view {γ : Type} (view : State → γ) (hpool : BlindPool view)
    (s : State) (c : Ctx) (f : FrameKind) (a : Attempt) : view (s.keepHandOff c f a) = view s := by
  unfold State.keepHandOff
  try dsimp only
  (repeat' split) <;> first | simp only [State.record_view view hpool, hpool] | rfl
@[simp] theorem State.keepHandOff_frame (s : State) (c : Ctx) (f : FrameKind) (a : Attempt) :
    (s.keepHandOff c f a).pending = s.pending ∧ (s.keepHandOff c f a).ticks = s.ticks ∧
    (s.keepHandOff c f a).ctl = s.ctl ∧ (s.keepHandOff c f a).sqs = s.sqs ∧
    (s.keepHandOff c f a).cqs = s.cqs ∧ (s.keepHandOff c f a).arb = s.arb ∧
    (s.keepHandOff c f a).lock = s.lock ∧ (s.keepHandOff c f a).ctxs = s.ctxs ∧
    (s.keepHandOff c f a).nextChain = s.nextChain ∧ (s.keepHandOff c f a).adm = s.adm ∧
    (s.keepHandOff c f a).segs = s.segs ∧ (s.keepHandOff c f a).presence = s.presence ∧
    (s.keepHandOff c f a).watches = s.watches ∧ (s.keepHandOff c f a).jobs = s.jobs ∧
    (s.keepHandOff c f a).ev = s.ev ∧ (s.keepHandOff c f a).irq = s.irq ∧
    (s.keepHandOff c f a).link = s.link ∧ (∀ h, (s.keepHandOff c f a).seg h = s.seg h) ∧
    (∀ h, (s.keepHandOff c f a).sq h = s.sq h) ∧ (∀ h, (s.keepHandOff c f a).cq h = s.cq h) ∧
    (∀ h, (s.keepHandOff c f a).watch h = s.watch h) ∧ (∀ h, (s.keepHandOff c f a).pres h = s.pres h) ∧
    (∀ h, (s.keepHandOff c f a).ctx h = s.ctx h) ∧ (∀ h, (s.keepHandOff c f a).job h = s.job h) :=
  ⟨State.keepHandOff_view State.pending (fun _ _ => rfl) s c f a,
   State.keepHandOff_view State.ticks (fun _ _ => rfl) s c f a,
   State.keepHandOff_view State.ctl (fun _ _ => rfl) s c f a,
   State.keepHandOff_view State.sqs (fun _ _ => rfl) s c f a,
   State.keepHandOff_view State.cqs (fun _ _ => rfl) s c f a,
   State.keepHandOff_view State.arb (fun _ _ => rfl) s c f a,
   State.keepHandOff_view State.lock (fun _ _ => rfl) s c f a,
   State.keepHandOff_view State.ctxs (fun _ _ => rfl) s c f a,
   State.keepHandOff_view State.nextChain (fun _ _ => rfl) s c f a,
   State.keepHandOff_view State.adm (fun _ _ => rfl) s c f a,
   State.keepHandOff_view State.segs (fun _ _ => rfl) s c f a,
   State.keepHandOff_view State.presence (fun _ _ => rfl) s c f a,
   State.keepHandOff_view State.watches (fun _ _ => rfl) s c f a,
   State.keepHandOff_view State.jobs (fun _ _ => rfl) s c f a,
   State.keepHandOff_view State.ev (fun _ _ => rfl) s c f a,
   State.keepHandOff_view State.irq (fun _ _ => rfl) s c f a,
   State.keepHandOff_view State.link (fun _ _ => rfl) s c f a,
   fun h => State.keepHandOff_view (fun s => s.seg h) (fun _ _ => rfl) s c f a,
   fun h => State.keepHandOff_view (fun s => s.sq h) (fun _ _ => rfl) s c f a,
   fun h => State.keepHandOff_view (fun s => s.cq h) (fun _ _ => rfl) s c f a,
   fun h => State.keepHandOff_view (fun s => s.watch h) (fun _ _ => rfl) s c f a,
   fun h => State.keepHandOff_view (fun s => s.pres h) (fun _ _ => rfl) s c f a,
   fun h => State.keepHandOff_view (fun s => s.ctx h) (fun _ _ => rfl) s c f a,
   fun h => State.keepHandOff_view (fun s => s.job h) (fun _ _ => rfl) s c f a⟩

theorem State.goOn_view {γ : Type} (view : State → γ) (hctxs : BlindCtxs view)
    (s : State) (c : Ctx) (v : Verdict) : view (s.goOn c v) = view s := by
  unfold State.goOn
  try dsimp only
  (repeat' split) <;> first | simp only [State.updCtx_view view hctxs, hctxs] | rfl
@[simp] theorem State.goOn_frame (s : State) (c : Ctx) (v : Verdict) :
    (s.goOn c v).pending = s.pending ∧ (s.goOn c v).ticks = s.ticks ∧ (s.goOn c v).ctl = s.ctl ∧
    (s.goOn c v).sqs = s.sqs ∧ (s.goOn c v).cqs = s.cqs ∧ (s.goOn c v).arb = s.arb ∧
    (s.goOn c v).lock = s.lock ∧ (s.goOn c v).nextChain = s.nextChain ∧ (s.goOn c v).adm = s.adm ∧
    (s.goOn c v).segs = s.segs ∧ (s.goOn c v).presence = s.presence ∧ (s.goOn c v).watches = s.watches ∧
    (s.goOn c v).pool = s.pool ∧ (s.goOn c v).jobs = s.jobs ∧ (s.goOn c v).ev = s.ev ∧
    (s.goOn c v).irq = s.irq ∧ (s.goOn c v).link = s.link ∧ (∀ h, (s.goOn c v).seg h = s.seg h) ∧
    (∀ h, (s.goOn c v).sq h = s.sq h) ∧ (∀ h, (s.goOn c v).cq h = s.cq h) ∧
    (∀ h, (s.goOn c v).watch h = s.watch h) ∧ (∀ h, (s.goOn c v).pres h = s.pres h) ∧
    (∀ h, (s.goOn c v).job h = s.job h) ∧ (∀ h, (s.goOn c v).restoreList h = s.restoreList h) :=
  ⟨State.goOn_view State.pending (fun _ _ => rfl) s c v,
   State.goOn_view State.ticks (fun _ _ => rfl) s c v,
   State.goOn_view State.ctl (fun _ _ => rfl) s c v,
   State.goOn_view State.sqs (fun _ _ => rfl) s c v,
   State.goOn_view State.cqs (fun _ _ => rfl) s c v,
   State.goOn_view State.arb (fun _ _ => rfl) s c v,
   State.goOn_view State.lock (fun _ _ => rfl) s c v,
   State.goOn_view State.nextChain (fun _ _ => rfl) s c v,
   State.goOn_view State.adm (fun _ _ => rfl) s c v,
   State.goOn_view State.segs (fun _ _ => rfl) s c v,
   State.goOn_view State.presence (fun _ _ => rfl) s c v,
   State.goOn_view State.watches (fun _ _ => rfl) s c v,
   State.goOn_view State.pool (fun _ _ => rfl) s c v,
   State.goOn_view State.jobs (fun _ _ => rfl) s c v,
   State.goOn_view State.ev (fun _ _ => rfl) s c v,
   State.goOn_view State.irq (fun _ _ => rfl) s c v,
   State.goOn_view State.link (fun _ _ => rfl) s c v,
   fun h => State.goOn_view (fun s => s.seg h) (fun _ _ => rfl) s c v,
   fun h => State.goOn_view (fun s => s.sq h) (fun _ _ => rfl) s c v,
   fun h => State.goOn_view (fun s => s.cq h) (fun _ _ => rfl) s c v,
   fun h => State.goOn_view (fun s => s.watch h) (fun _ _ => rfl) s c v,
   fun h => State.goOn_view (fun s => s.pres h) (fun _ _ => rfl) s c v,
   fun h => State.goOn_view (fun s => s.job h) (fun _ _ => rfl) s c v,
   fun h => State.goOn_view (fun s => s.restoreList h) (fun _ _ => rfl) s c v⟩

theorem State.judge_view {γ : Type} (view : State → γ) (hsqs : BlindSqs view) (hcqs : BlindCqs view) (hctxs : BlindCtxs view) (hsegs : BlindSegs view) (hlink : BlindLink view)
    (s : State) (c : Ctx) (v : Verdict) : view (s.judge c v) = view s := by
  unfold State.judge
  try dsimp only
  (repeat' split) <;> first | simp only [State.cancel_view view hsqs hcqs hctxs hsegs hlink, State.endCommand_view view hsqs hcqs hctxs hsegs hlink, State.endAborted_view view hsqs hcqs hctxs hsegs hlink, State.goOn_view view hctxs, hsqs, hcqs, hctxs, hsegs, hlink] | rfl
@[simp] theorem State.judge_frame (s : State) (c : Ctx) (v : Verdict) :
    (s.judge c v).pending = s.pending ∧ (s.judge c v).ticks = s.ticks ∧ (s.judge c v).ctl = s.ctl ∧
    (s.judge c v).arb = s.arb ∧ (s.judge c v).lock = s.lock ∧ (s.judge c v).nextChain = s.nextChain ∧
    (s.judge c v).adm = s.adm ∧ (s.judge c v).presence = s.presence ∧ (s.judge c v).watches = s.watches ∧
    (s.judge c v).pool = s.pool ∧ (s.judge c v).jobs = s.jobs ∧ (s.judge c v).ev = s.ev ∧
    (s.judge c v).irq = s.irq ∧ (∀ h, (s.judge c v).watch h = s.watch h) ∧
    (∀ h, (s.judge c v).pres h = s.pres h) ∧ (∀ h, (s.judge c v).job h = s.job h) ∧
    (∀ h, (s.judge c v).restoreList h = s.restoreList h) :=
  ⟨State.judge_view State.pending (fun _ _ => rfl) (fun _ _ => rfl) (fun _ _ => rfl) (fun _ _ => rfl) (fun _ _ => rfl) s c v,
   State.judge_view State.ticks (fun _ _ => rfl) (fun _ _ => rfl) (fun _ _ => rfl) (fun _ _ => rfl) (fun _ _ => rfl) s c v,
   State.judge_view State.ctl (fun _ _ => rfl) (fun _ _ => rfl) (fun _ _ => rfl) (fun _ _ => rfl) (fun _ _ => rfl) s c v,
   State.judge_view State.arb (fun _ _ => rfl) (fun _ _ => rfl) (fun _ _ => rfl) (fun _ _ => rfl) (fun _ _ => rfl) s c v,
   State.judge_view State.lock (fun _ _ => rfl) (fun _ _ => rfl) (fun _ _ => rfl) (fun _ _ => rfl) (fun _ _ => rfl) s c v,
   State.judge_view State.nextChain (fun _ _ => rfl) (fun _ _ => rfl) (fun _ _ => rfl) (fun _ _ => rfl) (fun _ _ => rfl) s c v,
   State.judge_view State.adm (fun _ _ => rfl) (fun _ _ => rfl) (fun _ _ => rfl) (fun _ _ => rfl) (fun _ _ => rfl) s c v,
   State.judge_view State.presence (fun _ _ => rfl) (fun _ _ => rfl) (fun _ _ => rfl) (fun _ _ => rfl) (fun _ _ => rfl) s c v,
   State.judge_view State.watches (fun _ _ => rfl) (fun _ _ => rfl) (fun _ _ => rfl) (fun _ _ => rfl) (fun _ _ => rfl) s c v,
   State.judge_view State.pool (fun _ _ => rfl) (fun _ _ => rfl) (fun _ _ => rfl) (fun _ _ => rfl) (fun _ _ => rfl) s c v,
   State.judge_view State.jobs (fun _ _ => rfl) (fun _ _ => rfl) (fun _ _ => rfl) (fun _ _ => rfl) (fun _ _ => rfl) s c v,
   State.judge_view State.ev (fun _ _ => rfl) (fun _ _ => rfl) (fun _ _ => rfl) (fun _ _ => rfl) (fun _ _ => rfl) s c v,
   State.judge_view State.irq (fun _ _ => rfl) (fun _ _ => rfl) (fun _ _ => rfl) (fun _ _ => rfl) (fun _ _ => rfl) s c v,
   fun h => State.judge_view (fun s => s.watch h) (fun _ _ => rfl) (fun _ _ => rfl) (fun _ _ => rfl) (fun _ _ => rfl) (fun _ _ => rfl) s c v,
   fun h => State.judge_view (fun s => s.pres h) (fun _ _ => rfl) (fun _ _ => rfl) (fun _ _ => rfl) (fun _ _ => rfl) (fun _ _ => rfl) s c v,
   fun h => State.judge_view (fun s => s.job h) (fun _ _ => rfl) (fun _ _ => rfl) (fun _ _ => rfl) (fun _ _ => rfl) (fun _ _ => rfl) s c v,
   fun h => State.judge_view (fun s => s.restoreList h) (fun _ _ => rfl) (fun _ _ => rfl) (fun _ _ => rfl) (fun _ _ => rfl) (fun _ _ => rfl) s c v⟩

theorem State.hostAttempt_view {γ : Type} (view : State → γ) (hsqs : BlindSqs view) (hcqs : BlindCqs view) (hctxs : BlindCtxs view) (hsegs : BlindSegs view) (hpool : BlindPool view) (hlink : BlindLink view)
    (s : State) (g : SegId) (n : CtxNum) (f : FrameKind) (a : Attempt) : view (s.hostAttempt g n f a) = view s := by
  unfold State.hostAttempt
  try dsimp only
  (repeat' split) <;> first | simp only [State.updCtx_view view hctxs, State.discard_view view hsqs hctxs hsegs, State.keepHandOff_view view hpool, State.judge_view view hsqs hcqs hctxs hsegs hlink, hsqs, hcqs, hctxs, hsegs, hpool, hlink] | rfl
@[simp] theorem State.hostAttempt_frame (s : State) (g : SegId) (n : CtxNum) (f : FrameKind) (a : Attempt) :
    (s.hostAttempt g n f a).pending = s.pending ∧ (s.hostAttempt g n f a).ticks = s.ticks ∧
    (s.hostAttempt g n f a).ctl = s.ctl ∧ (s.hostAttempt g n f a).arb = s.arb ∧
    (s.hostAttempt g n f a).lock = s.lock ∧ (s.hostAttempt g n f a).nextChain = s.nextChain ∧
    (s.hostAttempt g n f a).adm = s.adm ∧ (s.hostAttempt g n f a).presence = s.presence ∧
    (s.hostAttempt g n f a).watches = s.watches ∧ (s.hostAttempt g n f a).jobs = s.jobs ∧
    (s.hostAttempt g n f a).ev = s.ev ∧ (s.hostAttempt g n f a).irq = s.irq ∧
    (∀ h, (s.hostAttempt g n f a).watch h = s.watch h) ∧ (∀ h, (s.hostAttempt g n f a).pres h = s.pres h) ∧
    (∀ h, (s.hostAttempt g n f a).job h = s.job h) :=
  ⟨State.hostAttempt_view State.pending (fun _ _ => rfl) (fun _ _ => rfl) (fun _ _ => rfl) (fun _ _ => rfl) (fun _ _ => rfl) (fun _ _ => rfl) s g n f a,
   State.hostAttempt_view State.ticks (fun _ _ => rfl) (fun _ _ => rfl) (fun _ _ => rfl) (fun _ _ => rfl) (fun _ _ => rfl) (fun _ _ => rfl) s g n f a,
   State.hostAttempt_view State.ctl (fun _ _ => rfl) (fun _ _ => rfl) (fun _ _ => rfl) (fun _ _ => rfl) (fun _ _ => rfl) (fun _ _ => rfl) s g n f a,
   State.hostAttempt_view State.arb (fun _ _ => rfl) (fun _ _ => rfl) (fun _ _ => rfl) (fun _ _ => rfl) (fun _ _ => rfl) (fun _ _ => rfl) s g n f a,
   State.hostAttempt_view State.lock (fun _ _ => rfl) (fun _ _ => rfl) (fun _ _ => rfl) (fun _ _ => rfl) (fun _ _ => rfl) (fun _ _ => rfl) s g n f a,
   State.hostAttempt_view State.nextChain (fun _ _ => rfl) (fun _ _ => rfl) (fun _ _ => rfl) (fun _ _ => rfl) (fun _ _ => rfl) (fun _ _ => rfl) s g n f a,
   State.hostAttempt_view State.adm (fun _ _ => rfl) (fun _ _ => rfl) (fun _ _ => rfl) (fun _ _ => rfl) (fun _ _ => rfl) (fun _ _ => rfl) s g n f a,
   State.hostAttempt_view State.presence (fun _ _ => rfl) (fun _ _ => rfl) (fun _ _ => rfl) (fun _ _ => rfl) (fun _ _ => rfl) (fun _ _ => rfl) s g n f a,
   State.hostAttempt_view State.watches (fun _ _ => rfl) (fun _ _ => rfl) (fun _ _ => rfl) (fun _ _ => rfl) (fun _ _ => rfl) (fun _ _ => rfl) s g n f a,
   State.hostAttempt_view State.jobs (fun _ _ => rfl) (fun _ _ => rfl) (fun _ _ => rfl) (fun _ _ => rfl) (fun _ _ => rfl) (fun _ _ => rfl) s g n f a,
   State.hostAttempt_view State.ev (fun _ _ => rfl) (fun _ _ => rfl) (fun _ _ => rfl) (fun _ _ => rfl) (fun _ _ => rfl) (fun _ _ => rfl) s g n f a,
   State.hostAttempt_view State.irq (fun _ _ => rfl) (fun _ _ => rfl) (fun _ _ => rfl) (fun _ _ => rfl) (fun _ _ => rfl) (fun _ _ => rfl) s g n f a,
   fun h => State.hostAttempt_view (fun s => s.watch h) (fun _ _ => rfl) (fun _ _ => rfl) (fun _ _ => rfl) (fun _ _ => rfl) (fun _ _ => rfl) (fun _ _ => rfl) s g n f a,
   fun h => State.hostAttempt_view (fun s => s.pres h) (fun _ _ => rfl) (fun _ _ => rfl) (fun _ _ => rfl) (fun _ _ => rfl) (fun _ _ => rfl) (fun _ _ => rfl) s g n f a,
   fun h => State.hostAttempt_view (fun s => s.job h) (fun _ _ => rfl) (fun _ _ => rfl) (fun _ _ => rfl) (fun _ _ => rfl) (fun _ _ => rfl) (fun _ _ => rfl) s g n f a⟩

theorem State.removeDone_view {γ : Type} (view : State → γ) (hcqs : BlindCqs view) (hctxs : BlindCtxs view) (hadm : BlindAdm view) (hwatches : BlindWatches view)
    (s : State) (w : WatchId) : view (s.removeDone w) = view s := by
  unfold State.removeDone
  try dsimp only
  (repeat' split) <;> first | simp only [State.setWatch_view view hwatches, State.adminDone_view view hcqs hctxs hadm, hcqs, hctxs, hadm, hwatches] | rfl
@[simp] theorem State.removeDone_frame (s : State) (w : WatchId) :
    (s.removeDone w).pending = s.pending ∧ (s.removeDone w).ticks = s.ticks ∧ (s.removeDone w).ctl = s.ctl ∧
    (s.removeDone w).sqs = s.sqs ∧ (s.removeDone w).arb = s.arb ∧ (s.removeDone w).lock = s.lock ∧
    (s.removeDone w).nextChain = s.nextChain ∧ (s.removeDone w).segs = s.segs ∧
    (s.removeDone w).presence = s.presence ∧ (s.removeDone w).pool = s.pool ∧
    (s.removeDone w).jobs = s.jobs ∧ (s.removeDone w).ev = s.ev ∧ (s.removeDone w).irq = s.irq ∧
    (s.removeDone w).link = s.link ∧ (∀ h, (s.removeDone w).seg h = s.seg h) ∧
    (∀ h, (s.removeDone w).sq h = s.sq h) ∧ (∀ h, (s.removeDone w).pres h = s.pres h) ∧
    (∀ h, (s.removeDone w).job h = s.job h) ∧ (∀ h, (s.removeDone w).restoreList h = s.restoreList h) :=
  ⟨State.removeDone_view State.pending (fun _ _ => rfl) (fun _ _ => rfl) (fun _ _ => rfl) (fun _ _ => rfl) s w,
   State.removeDone_view State.ticks (fun _ _ => rfl) (fun _ _ => rfl) (fun _ _ => rfl) (fun _ _ => rfl) s w,
   State.removeDone_view State.ctl (fun _ _ => rfl) (fun _ _ => rfl) (fun _ _ => rfl) (fun _ _ => rfl) s w,
   State.removeDone_view State.sqs (fun _ _ => rfl) (fun _ _ => rfl) (fun _ _ => rfl) (fun _ _ => rfl) s w,
   State.removeDone_view State.arb (fun _ _ => rfl) (fun _ _ => rfl) (fun _ _ => rfl) (fun _ _ => rfl) s w,
   State.removeDone_view State.lock (fun _ _ => rfl) (fun _ _ => rfl) (fun _ _ => rfl) (fun _ _ => rfl) s w,
   State.removeDone_view State.nextChain (fun _ _ => rfl) (fun _ _ => rfl) (fun _ _ => rfl) (fun _ _ => rfl) s w,
   State.removeDone_view State.segs (fun _ _ => rfl) (fun _ _ => rfl) (fun _ _ => rfl) (fun _ _ => rfl) s w,
   State.removeDone_view State.presence (fun _ _ => rfl) (fun _ _ => rfl) (fun _ _ => rfl) (fun _ _ => rfl) s w,
   State.removeDone_view State.pool (fun _ _ => rfl) (fun _ _ => rfl) (fun _ _ => rfl) (fun _ _ => rfl) s w,
   State.removeDone_view State.jobs (fun _ _ => rfl) (fun _ _ => rfl) (fun _ _ => rfl) (fun _ _ => rfl) s w,
   State.removeDone_view State.ev (fun _ _ => rfl) (fun _ _ => rfl) (fun _ _ => rfl) (fun _ _ => rfl) s w,
   State.removeDone_view State.irq (fun _ _ => rfl) (fun _ _ => rfl) (fun _ _ => rfl) (fun _ _ => rfl) s w,
   State.removeDone_view State.link (fun _ _ => rfl) (fun _ _ => rfl) (fun _ _ => rfl) (fun _ _ => rfl) s w,
   fun h => State.removeDone_view (fun s => s.seg h) (fun _ _ => rfl) (fun _ _ => rfl) (fun _ _ => rfl) (fun _ _ => rfl) s w,
   fun h => State.removeDone_view (fun s => s.sq h) (fun _ _ => rfl) (fun _ _ => rfl) (fun _ _ => rfl) (fun _ _ => rfl) s w,
   fun h => State.removeDone_view (fun s => s.pres h) (fun _ _ => rfl) (fun _ _ => rfl) (fun _ _ => rfl) (fun _ _ => rfl) s w,
   fun h => State.removeDone_view (fun s => s.job h) (fun _ _ => rfl) (fun _ _ => rfl) (fun _ _ => rfl) (fun _ _ => rfl) s w,
   fun h => State.removeDone_view (fun s => s.restoreList h) (fun _ _ => rfl) (fun _ _ => rfl) (fun _ _ => rfl) (fun _ _ => rfl) s w⟩

theorem State.pollAttempt_view {γ : Type} (view : State → γ) (hcqs : BlindCqs view) (hctxs : BlindCtxs view) (hadm : BlindAdm view) (hsegs : BlindSegs view) (hpresence : BlindPresence view) (hwatches : BlindWatches view) (hjobs : BlindJobs view) (hev : BlindEv view)
    (s : State) (g : SegId) (w : WatchId) (a : Attempt) : view (s.pollAttempt g w a) = view s := by
  unfold State.pollAttempt
  try dsimp only
  (repeat' split) <;> first | simp only [State.setWatch_view view hwatches, State.pollOver_view view hsegs hpresence hwatches hjobs hev, State.removeDone_view view hcqs hctxs hadm hwatches, hcqs, hctxs, hadm, hsegs, hpresence, hwatches, hjobs, hev] | rfl
@[simp] theorem State.pollAttempt_frame (s : State) (g : SegId) (w : WatchId) (a : Attempt) :
    (s.pollAttempt g w a).pending = s.pending ∧ (s.pollAttempt g w a).ticks = s.ticks ∧
    (s.pollAttempt g w a).ctl = s.ctl ∧ (s.pollAttempt g w a).sqs = s.sqs ∧
    (s.pollAttempt g w a).arb = s.arb ∧ (s.pollAttempt g w a).lock = s.lock ∧
    (s.pollAttempt g w a).nextChain = s.nextChain ∧ (s.pollAttempt g w a).pool = s.pool ∧
    (s.pollAttempt g w a).irq = s.irq ∧ (s.pollAttempt g w a).link = s.link ∧
    (∀ h, (s.pollAttempt g w a).sq h = s.sq h) ∧
    (∀ h, (s.pollAttempt g w a).restoreList h = s.restoreList h) :=
  ⟨State.pollAttempt_view State.pending (fun _ _ => rfl) (fun _ _ => rfl) (fun _ _ => rfl) (fun _ _ => rfl) (fun _ _ => rfl) (fun _ _ => rfl) (fun _ _ => rfl) (fun _ _ => rfl) s g w a,
   State.pollAttempt_view State.ticks (fun _ _ => rfl) (fun _ _ => rfl) (fun _ _ => rfl) (fun _ _ => rfl) (fun _ _ => rfl) (fun _ _ => rfl) (fun _ _ => rfl) (fun _ _ => rfl) s g w a,
   State.pollAttempt_view State.ctl (fun _ _ => rfl) (fun _ _ => rfl) (fun _ _ => rfl) (fun _ _ => rfl) (fun _ _ => rfl) (fun _ _ => rfl) (fun _ _ => rfl) (fun _ _ => rfl) s g w a,
   State.pollAttempt_view State.sqs (fun _ _ => rfl) (fun _ _ => rfl) (fun _ _ => rfl) (fun _ _ => rfl) (fun _ _ => rfl) (fun _ _ => rfl) (fun _ _ => rfl) (fun _ _ => rfl) s g w a,
   State.pollAttempt_view State.arb (fun _ _ => rfl) (fun _ _ => rfl) (fun _ _ => rfl) (fun _ _ => rfl) (fun _ _ => rfl) (fun _ _ => rfl) (fun _ _ => rfl) (fun _ _ => rfl) s g w a,
   State.pollAttempt_view State.lock (fun _ _ => rfl) (fun _ _ => rfl) (fun _ _ => rfl) (fun _ _ => rfl) (fun _ _ => rfl) (fun _ _ => rfl) (fun _ _ => rfl) (fun _ _ => rfl) s g w a,
   State.pollAttempt_view State.nextChain (fun _ _ => rfl) (fun _ _ => rfl) (fun _ _ => rfl) (fun _ _ => rfl) (fun _ _ => rfl) (fun _ _ => rfl) (fun _ _ => rfl) (fun _ _ => rfl) s g w a,
   State.pollAttempt_view State.pool (fun _ _ => rfl) (fun _ _ => rfl) (fun _ _ => rfl) (fun _ _ => rfl) (fun _ _ => rfl) (fun _ _ => rfl) (fun _ _ => rfl) (fun _ _ => rfl) s g w a,
   State.pollAttempt_view State.irq (fun _ _ => rfl) (fun _ _ => rfl) (fun _ _ => rfl) (fun _ _ => rfl) (fun _ _ => rfl) (fun _ _ => rfl) (fun _ _ => rfl) (fun _ _ => rfl) s g w a,
   State.pollAttempt_view State.link (fun _ _ => rfl) (fun _ _ => rfl) (fun _ _ => rfl) (fun _ _ => rfl) (fun _ _ => rfl) (fun _ _ => rfl) (fun _ _ => rfl) (fun _ _ => rfl) s g w a,
   fun h => State.pollAttempt_view (fun s => s.sq h) (fun _ _ => rfl) (fun _ _ => rfl) (fun _ _ => rfl) (fun _ _ => rfl) (fun _ _ => rfl) (fun _ _ => rfl) (fun _ _ => rfl) (fun _ _ => rfl) s g w a,
   fun h => State.pollAttempt_view (fun s => s.restoreList h) (fun _ _ => rfl) (fun _ _ => rfl) (fun _ _ => rfl) (fun _ _ => rfl) (fun _ _ => rfl) (fun _ _ => rfl) (fun _ _ => rfl) (fun _ _ => rfl) s g w a⟩

theorem State.responseAttempt_view {γ : Type} (view : State → γ) (hsegs : BlindSegs view) (hwatches : BlindWatches view)
    (s : State) (g : SegId) (r : RespWrite) (o : Bool) (a : Attempt) : view (s.responseAttempt g r o a) = view s := by
  unfold State.responseAttempt
  try dsimp only
  (repeat' split) <;> first | simp only [State.updSeg_view view hsegs, State.updWatch_view view hwatches, hsegs, hwatches] | rfl
@[simp] theorem State.responseAttempt_frame (s : State) (g : SegId) (r : RespWrite) (o : Bool) (a : Attempt) :
    (s.responseAttempt g r o a).pending = s.pending ∧ (s.responseAttempt g r o a).ticks = s.ticks ∧
    (s.responseAttempt g r o a).ctl = s.ctl ∧ (s.responseAttempt g r o a).sqs = s.sqs ∧
    (s.responseAttempt g r o a).cqs = s.cqs ∧ (s.responseAttempt g r o a).arb = s.arb ∧
    (s.responseAttempt g r o a).lock = s.lock ∧ (s.responseAttempt g r o a).ctxs = s.ctxs ∧
    (s.responseAttempt g r o a).nextChain = s.nextChain ∧ (s.responseAttempt g r o a).adm = s.adm ∧
    (s.responseAttempt g r o a).presence = s.presence ∧ (s.responseAttempt g r o a).pool = s.pool ∧
    (s.responseAttempt g r o a).jobs = s.jobs ∧ (s.responseAttempt g r o a).ev = s.ev ∧
    (s.responseAttempt g r o a).irq = s.irq ∧ (s.responseAttempt g r o a).link = s.link ∧
    (∀ h, (s.responseAttempt g r o a).sq h = s.sq h) ∧ (∀ h, (s.responseAttempt g r o a).cq h = s.cq h) ∧
    (∀ h, (s.responseAttempt g r o a).pres h = s.pres h) ∧
    (∀ h, (s.responseAttempt g r o a).ctx h = s.ctx h) ∧ (∀ h, (s.responseAttempt g r o a).job h = s.job h) ∧
    (∀ h, (s.responseAttempt g r o a).restoreList h = s.restoreList h) :=
  ⟨State.responseAttempt_view State.pending (fun _ _ => rfl) (fun _ _ => rfl) s g r o a,
   State.responseAttempt_view State.ticks (fun _ _ => rfl) (fun _ _ => rfl) s g r o a,
   State.responseAttempt_view State.ctl (fun _ _ => rfl) (fun _ _ => rfl) s g r o a,
   State.responseAttempt_view State.sqs (fun _ _ => rfl) (fun _ _ => rfl) s g r o a,
   State.responseAttempt_view State.cqs (fun _ _ => rfl) (fun _ _ => rfl) s g r o a,
   State.responseAttempt_view State.arb (fun _ _ => rfl) (fun _ _ => rfl) s g r o a,
   State.responseAttempt_view State.lock (fun _ _ => rfl) (fun _ _ => rfl) s g r o a,
   State.responseAttempt_view State.ctxs (fun _ _ => rfl) (fun _ _ => rfl) s g r o a,
   State.responseAttempt_view State.nextChain (fun _ _ => rfl) (fun _ _ => rfl) s g r o a,
   State.responseAttempt_view State.adm (fun _ _ => rfl) (fun _ _ => rfl) s g r o a,
   State.responseAttempt_view State.presence (fun _ _ => rfl) (fun _ _ => rfl) s g r o a,
   State.responseAttempt_view State.pool (fun _ _ => rfl) (fun _ _ => rfl) s g r o a,
   State.responseAttempt_view State.jobs (fun _ _ => rfl) (fun _ _ => rfl) s g r o a,
   State.responseAttempt_view State.ev (fun _ _ => rfl) (fun _ _ => rfl) s g r o a,
   State.responseAttempt_view State.irq (fun _ _ => rfl) (fun _ _ => rfl) s g r o a,
   State.responseAttempt_view State.link (fun _ _ => rfl) (fun _ _ => rfl) s g r o a,
   fun h => State.responseAttempt_view (fun s => s.sq h) (fun _ _ => rfl) (fun _ _ => rfl) s g r o a,
   fun h => State.responseAttempt_view (fun s => s.cq h) (fun _ _ => rfl) (fun _ _ => rfl) s g r o a,
   fun h => State.responseAttempt_view (fun s => s.pres h) (fun _ _ => rfl) (fun _ _ => rfl) s g r o a,
   fun h => State.responseAttempt_view (fun s => s.ctx h) (fun _ _ => rfl) (fun _ _ => rfl) s g r o a,
   fun h => State.responseAttempt_view (fun s => s.job h) (fun _ _ => rfl) (fun _ _ => rfl) s g r o a,
   fun h => State.responseAttempt_view (fun s => s.restoreList h) (fun _ _ => rfl) (fun _ _ => rfl) s g r o a⟩

theorem State.replayAttempt_view {γ : Type} (view : State → γ) (hsegs : BlindSegs view) (hpresence : BlindPresence view) (hjobs : BlindJobs view) (hev : BlindEv view)
    (s : State) (g : SegId) (t : Tgt) (a : Attempt) : view (s.replayAttempt g t a) = view s := by
  unfold State.replayAttempt
  try dsimp only
  (repeat' split) <;> first | simp only [State.updJob_view view hjobs, State.replayOutcome_view view hsegs hpresence hjobs hev, hsegs, hpresence, hjobs, hev] | rfl
@[simp] theorem State.replayAttempt_frame (s : State) (g : SegId) (t : Tgt) (a : Attempt) :
    (s.replayAttempt g t a).pending = s.pending ∧ (s.replayAttempt g t a).ticks = s.ticks ∧
    (s.replayAttempt g t a).ctl = s.ctl ∧ (s.replayAttempt g t a).sqs = s.sqs ∧
    (s.replayAttempt g t a).cqs = s.cqs ∧ (s.replayAttempt g t a).arb = s.arb ∧
    (s.replayAttempt g t a).lock = s.lock ∧ (s.replayAttempt g t a).ctxs = s.ctxs ∧
    (s.replayAttempt g t a).nextChain = s.nextChain ∧ (s.replayAttempt g t a).adm = s.adm ∧
    (s.replayAttempt g t a).watches = s.watches ∧ (s.replayAttempt g t a).pool = s.pool ∧
    (s.replayAttempt g t a).irq = s.irq ∧ (s.replayAttempt g t a).link = s.link ∧
    (∀ h, (s.replayAttempt g t a).sq h = s.sq h) ∧ (∀ h, (s.replayAttempt g t a).cq h = s.cq h) ∧
    (∀ h, (s.replayAttempt g t a).watch h = s.watch h) ∧ (∀ h, (s.replayAttempt g t a).ctx h = s.ctx h) ∧
    (∀ h, (s.replayAttempt g t a).restoreList h = s.restoreList h) :=
  ⟨State.replayAttempt_view State.pending (fun _ _ => rfl) (fun _ _ => rfl) (fun _ _ => rfl) (fun _ _ => rfl) s g t a,
   State.replayAttempt_view State.ticks (fun _ _ => rfl) (fun _ _ => rfl) (fun _ _ => rfl) (fun _ _ => rfl) s g t a,
   State.replayAttempt_view State.ctl (fun _ _ => rfl) (fun _ _ => rfl) (fun _ _ => rfl) (fun _ _ => rfl) s g t a,
   State.replayAttempt_view State.sqs (fun _ _ => rfl) (fun _ _ => rfl) (fun _ _ => rfl) (fun _ _ => rfl) s g t a,
   State.replayAttempt_view State.cqs (fun _ _ => rfl) (fun _ _ => rfl) (fun _ _ => rfl) (fun _ _ => rfl) s g t a,
   State.replayAttempt_view State.arb (fun _ _ => rfl) (fun _ _ => rfl) (fun _ _ => rfl) (fun _ _ => rfl) s g t a,
   State.replayAttempt_view State.lock (fun _ _ => rfl) (fun _ _ => rfl) (fun _ _ => rfl) (fun _ _ => rfl) s g t a,
   State.replayAttempt_view State.ctxs (fun _ _ => rfl) (fun _ _ => rfl) (fun _ _ => rfl) (fun _ _ => rfl) s g t a,
   State.replayAttempt_view State.nextChain (fun _ _ => rfl) (fun _ _ => rfl) (fun _ _ => rfl) (fun _ _ => rfl) s g t a,
   State.replayAttempt_view State.adm (fun _ _ => rfl) (fun _ _ => rfl) (fun _ _ => rfl) (fun _ _ => rfl) s g t a,
   State.replayAttempt_view State.watches (fun _ _ => rfl) (fun _ _ => rfl) (fun _ _ => rfl) (fun _ _ => rfl) s g t a,
   State.replayAttempt_view State.pool (fun _ _ => rfl) (fun _ _ => rfl) (fun _ _ => rfl) (fun _ _ => rfl) s g t a,
   State.replayAttempt_view State.irq (fun _ _ => rfl) (fun _ _ => rfl) (fun _ _ => rfl) (fun _ _ => rfl) s g t a,
   State.replayAttempt_view State.link (fun _ _ => rfl) (fun _ _ => rfl) (fun _ _ => rfl) (fun _ _ => rfl) s g t a,
   fun h => State.replayAttempt_view (fun s => s.sq h) (fun _ _ => rfl) (fun _ _ => rfl) (fun _ _ => rfl) (fun _ _ => rfl) s g t a,
   fun h => State.replayAttempt_view (fun s => s.cq h) (fun _ _ => rfl) (fun _ _ => rfl) (fun _ _ => rfl) (fun _ _ => rfl) s g t a,
   fun h => State.replayAttempt_view (fun s => s.watch h) (fun _ _ => rfl) (fun _ _ => rfl) (fun _ _ => rfl) (fun _ _ => rfl) s g t a,
   fun h => State.replayAttempt_view (fun s => s.ctx h) (fun _ _ => rfl) (fun _ _ => rfl) (fun _ _ => rfl) (fun _ _ => rfl) s g t a,
   fun h => State.replayAttempt_view (fun s => s.restoreList h) (fun _ _ => rfl) (fun _ _ => rfl) (fun _ _ => rfl) (fun _ _ => rfl) s g t a⟩

theorem State.toOwner_view {γ : Type} (view : State → γ) (hsqs : BlindSqs view) (hcqs : BlindCqs view) (hctxs : BlindCtxs view) (hadm : BlindAdm view) (hsegs : BlindSegs view) (hpresence : BlindPresence view) (hwatches : BlindWatches view) (hpool : BlindPool view) (hjobs : BlindJobs view) (hev : BlindEv view) (hlink : BlindLink view)
    (s : State) (g : SegId) (w : Wire) (a : Attempt) : view (s.toOwner g w a) = view s := by
  unfold State.toOwner
  try dsimp only
  (repeat' split) <;> first | simp only [State.hostAttempt_view view hsqs hcqs hctxs hsegs hpool hlink, State.pollAttempt_view view hcqs hctxs hadm hsegs hpresence hwatches hjobs hev, State.responseAttempt_view view hsegs hwatches, State.replayAttempt_view view hsegs hpresence hjobs hev, hsqs, hcqs, hctxs, hadm, hsegs, hpresence, hwatches, hpool, hjobs, hev, hlink] | rfl
@[simp] theorem State.toOwner_frame (s : State) (g : SegId) (w : Wire) (a : Attempt) :
    (s.toOwner g w a).pending = s.pending ∧ (s.toOwner g w a).ticks = s.ticks ∧
    (s.toOwner g w a).ctl = s.ctl ∧ (s.toOwner g w a).arb = s.arb ∧ (s.toOwner g w a).lock = s.lock ∧
    (s.toOwner g w a).nextChain = s.nextChain ∧ (s.toOwner g w a).irq = s.irq :=
  ⟨State.toOwner_view State.pending (fun _ _ => rfl) (fun _ _ => rfl) (fun _ _ => rfl) (fun _ _ => rfl) (fun _ _ => rfl) (fun _ _ => rfl) (fun _ _ => rfl) (fun _ _ => rfl) (fun _ _ => rfl) (fun _ _ => rfl) (fun _ _ => rfl) s g w a,
   State.toOwner_view State.ticks (fun _ _ => rfl) (fun _ _ => rfl) (fun _ _ => rfl) (fun _ _ => rfl) (fun _ _ => rfl) (fun _ _ => rfl) (fun _ _ => rfl) (fun _ _ => rfl) (fun _ _ => rfl) (fun _ _ => rfl) (fun _ _ => rfl) s g w a,
   State.toOwner_view State.ctl (fun _ _ => rfl) (fun _ _ => rfl) (fun _ _ => rfl) (fun _ _ => rfl) (fun _ _ => rfl) (fun _ _ => rfl) (fun _ _ => rfl) (fun _ _ => rfl) (fun _ _ => rfl) (fun _ _ => rfl) (fun _ _ => rfl) s g w a,
   State.toOwner_view State.arb (fun _ _ => rfl) (fun _ _ => rfl) (fun _ _ => rfl) (fun _ _ => rfl) (fun _ _ => rfl) (fun _ _ => rfl) (fun _ _ => rfl) (fun _ _ => rfl) (fun _ _ => rfl) (fun _ _ => rfl) (fun _ _ => rfl) s g w a,
   State.toOwner_view State.lock (fun _ _ => rfl) (fun _ _ => rfl) (fun _ _ => rfl) (fun _ _ => rfl) (fun _ _ => rfl) (fun _ _ => rfl) (fun _ _ => rfl) (fun _ _ => rfl) (fun _ _ => rfl) (fun _ _ => rfl) (fun _ _ => rfl) s g w a,
   State.toOwner_view State.nextChain (fun _ _ => rfl) (fun _ _ => rfl) (fun _ _ => rfl) (fun _ _ => rfl) (fun _ _ => rfl) (fun _ _ => rfl) (fun _ _ => rfl) (fun _ _ => rfl) (fun _ _ => rfl) (fun _ _ => rfl) (fun _ _ => rfl) s g w a,
   State.toOwner_view State.irq (fun _ _ => rfl) (fun _ _ => rfl) (fun _ _ => rfl) (fun _ _ => rfl) (fun _ _ => rfl) (fun _ _ => rfl) (fun _ _ => rfl) (fun _ _ => rfl) (fun _ _ => rfl) (fun _ _ => rfl) (fun _ _ => rfl) s g w a⟩

theorem State.clearWire_view {γ : Type} (view : State → γ) (hsegs : BlindSegs view)
    (s : State) (g : SegId) : view (s.clearWire g) = view s := by
  unfold State.clearWire
  try dsimp only
  (repeat' split) <;> first | simp only [State.updSeg_view view hsegs, hsegs] | rfl
@[simp] theorem State.clearWire_frame (s : State) (g : SegId) :
    (s.clearWire g).pending = s.pending ∧ (s.clearWire g).ticks = s.ticks ∧ (s.clearWire g).ctl = s.ctl ∧
    (s.clearWire g).sqs = s.sqs ∧ (s.clearWire g).cqs = s.cqs ∧ (s.clearWire g).arb = s.arb ∧
    (s.clearWire g).lock = s.lock ∧ (s.clearWire g).ctxs = s.ctxs ∧ (s.clearWire g).nextChain = s.nextChain ∧
    (s.clearWire g).adm = s.adm ∧ (s.clearWire g).presence = s.presence ∧
    (s.clearWire g).watches = s.watches ∧ (s.clearWire g).pool = s.pool ∧ (s.clearWire g).jobs = s.jobs ∧
    (s.clearWire g).ev = s.ev ∧ (s.clearWire g).irq = s.irq ∧ (s.clearWire g).link = s.link ∧
    (∀ h, (s.clearWire g).sq h = s.sq h) ∧ (∀ h, (s.clearWire g).cq h = s.cq h) ∧
    (∀ h, (s.clearWire g).watch h = s.watch h) ∧ (∀ h, (s.clearWire g).pres h = s.pres h) ∧
    (∀ h, (s.clearWire g).ctx h = s.ctx h) ∧ (∀ h, (s.clearWire g).job h = s.job h) ∧
    (∀ h, (s.clearWire g).restoreList h = s.restoreList h) :=
  ⟨State.clearWire_view State.pending (fun _ _ => rfl) s g,
   State.clearWire_view State.ticks (fun _ _ => rfl) s g,
   State.clearWire_view State.ctl (fun _ _ => rfl) s g,
   State.clearWire_view State.sqs (fun _ _ => rfl) s g,
   State.clearWire_view State.cqs (fun _ _ => rfl) s g,
   State.clearWire_view State.arb (fun _ _ => rfl) s g,
   State.clearWire_view State.lock (fun _ _ => rfl) s g,
   State.clearWire_view State.ctxs (fun _ _ => rfl) s g,
   State.clearWire_view State.nextChain (fun _ _ => rfl) s g,
   State.clearWire_view State.adm (fun _ _ => rfl) s g,
   State.clearWire_view State.presence (fun _ _ => rfl) s g,
   State.clearWire_view State.watches (fun _ _ => rfl) s g,
   State.clearWire_view State.pool (fun _ _ => rfl) s g,
   State.clearWire_view State.jobs (fun _ _ => rfl) s g,
   State.clearWire_view State.ev (fun _ _ => rfl) s g,
   State.clearWire_view State.irq (fun _ _ => rfl) s g,
   State.clearWire_view State.link (fun _ _ => rfl) s g,
   fun h => State.clearWire_view (fun s => s.sq h) (fun _ _ => rfl) s g,
   fun h => State.clearWire_view (fun s => s.cq h) (fun _ _ => rfl) s g,
   fun h => State.clearWire_view (fun s => s.watch h) (fun _ _ => rfl) s g,
   fun h => State.clearWire_view (fun s => s.pres h) (fun _ _ => rfl) s g,
   fun h => State.clearWire_view (fun s => s.ctx h) (fun _ _ => rfl) s g,
   fun h => State.clearWire_view (fun s => s.job h) (fun _ _ => rfl) s g,
   fun h => State.clearWire_view (fun s => s.restoreList h) (fun _ _ => rfl) s g⟩

theorem State.attemptEnd_view {γ : Type} (view : State → γ) (hsqs : BlindSqs view) (hcqs : BlindCqs view) (hctxs : BlindCtxs view) (hadm : BlindAdm view) (hsegs : BlindSegs view) (hpresence : BlindPresence view) (hwatches : BlindWatches view) (hpool : BlindPool view) (hjobs : BlindJobs view) (hev : BlindEv view) (hlink : BlindLink view)
    (s : State) (g : SegId) (n : BitVec 2) (d : Half) (p : Bool) : view (s.attemptEnd g n d p) = view s := by
  unfold State.attemptEnd
  try dsimp only
  (repeat' split) <;> first | simp only [State.report_view view hsegs hpresence hwatches hjobs hev, State.drainIfDone_view view hcqs hctxs hadm hsegs hpresence hwatches hjobs hev, State.toOwner_view view hsqs hcqs hctxs hadm hsegs hpresence hwatches hpool hjobs hev hlink, State.clearWire_view view hsegs, hsqs, hcqs, hctxs, hadm, hsegs, hpresence, hwatches, hpool, hjobs, hev, hlink] | rfl
@[simp] theorem State.attemptEnd_frame (s : State) (g : SegId) (n : BitVec 2) (d : Half) (p : Bool) :
    (s.attemptEnd g n d p).pending = s.pending ∧ (s.attemptEnd g n d p).ticks = s.ticks ∧
    (s.attemptEnd g n d p).ctl = s.ctl ∧ (s.attemptEnd g n d p).arb = s.arb ∧
    (s.attemptEnd g n d p).lock = s.lock ∧ (s.attemptEnd g n d p).nextChain = s.nextChain ∧
    (s.attemptEnd g n d p).irq = s.irq :=
  ⟨State.attemptEnd_view State.pending (fun _ _ => rfl) (fun _ _ => rfl) (fun _ _ => rfl) (fun _ _ => rfl) (fun _ _ => rfl) (fun _ _ => rfl) (fun _ _ => rfl) (fun _ _ => rfl) (fun _ _ => rfl) (fun _ _ => rfl) (fun _ _ => rfl) s g n d p,
   State.attemptEnd_view State.ticks (fun _ _ => rfl) (fun _ _ => rfl) (fun _ _ => rfl) (fun _ _ => rfl) (fun _ _ => rfl) (fun _ _ => rfl) (fun _ _ => rfl) (fun _ _ => rfl) (fun _ _ => rfl) (fun _ _ => rfl) (fun _ _ => rfl) s g n d p,
   State.attemptEnd_view State.ctl (fun _ _ => rfl) (fun _ _ => rfl) (fun _ _ => rfl) (fun _ _ => rfl) (fun _ _ => rfl) (fun _ _ => rfl) (fun _ _ => rfl) (fun _ _ => rfl) (fun _ _ => rfl) (fun _ _ => rfl) (fun _ _ => rfl) s g n d p,
   State.attemptEnd_view State.arb (fun _ _ => rfl) (fun _ _ => rfl) (fun _ _ => rfl) (fun _ _ => rfl) (fun _ _ => rfl) (fun _ _ => rfl) (fun _ _ => rfl) (fun _ _ => rfl) (fun _ _ => rfl) (fun _ _ => rfl) (fun _ _ => rfl) s g n d p,
   State.attemptEnd_view State.lock (fun _ _ => rfl) (fun _ _ => rfl) (fun _ _ => rfl) (fun _ _ => rfl) (fun _ _ => rfl) (fun _ _ => rfl) (fun _ _ => rfl) (fun _ _ => rfl) (fun _ _ => rfl) (fun _ _ => rfl) (fun _ _ => rfl) s g n d p,
   State.attemptEnd_view State.nextChain (fun _ _ => rfl) (fun _ _ => rfl) (fun _ _ => rfl) (fun _ _ => rfl) (fun _ _ => rfl) (fun _ _ => rfl) (fun _ _ => rfl) (fun _ _ => rfl) (fun _ _ => rfl) (fun _ _ => rfl) (fun _ _ => rfl) s g n d p,
   State.attemptEnd_view State.irq (fun _ _ => rfl) (fun _ _ => rfl) (fun _ _ => rfl) (fun _ _ => rfl) (fun _ _ => rfl) (fun _ _ => rfl) (fun _ _ => rfl) (fun _ _ => rfl) (fun _ _ => rfl) (fun _ _ => rfl) (fun _ _ => rfl) s g n d p⟩

theorem State.broadcastEnd_view {γ : Type} (view : State → γ) (hsqs : BlindSqs view) (hcqs : BlindCqs view) (hctxs : BlindCtxs view) (hadm : BlindAdm view) (hsegs : BlindSegs view) (hpresence : BlindPresence view) (hwatches : BlindWatches view) (hjobs : BlindJobs view) (hev : BlindEv view) (hlink : BlindLink view)
    (s : State) (g : SegId) : view (s.broadcastEnd g) = view s := by
  unfold State.broadcastEnd
  try dsimp only
  (repeat' split) <;> first | simp only [State.endCommand_view view hsqs hcqs hctxs hsegs hlink, State.discard_view view hsqs hctxs hsegs, State.drainIfDone_view view hcqs hctxs hadm hsegs hpresence hwatches hjobs hev, State.clearWire_view view hsegs, hsqs, hcqs, hctxs, hadm, hsegs, hpresence, hwatches, hjobs, hev, hlink] | rfl
@[simp] theorem State.broadcastEnd_frame (s : State) (g : SegId) :
    (s.broadcastEnd g).pending = s.pending ∧ (s.broadcastEnd g).ticks = s.ticks ∧
    (s.broadcastEnd g).ctl = s.ctl ∧ (s.broadcastEnd g).arb = s.arb ∧ (s.broadcastEnd g).lock = s.lock ∧
    (s.broadcastEnd g).nextChain = s.nextChain ∧ (s.broadcastEnd g).pool = s.pool ∧
    (s.broadcastEnd g).irq = s.irq ∧ (∀ h, (s.broadcastEnd g).restoreList h = s.restoreList h) :=
  ⟨State.broadcastEnd_view State.pending (fun _ _ => rfl) (fun _ _ => rfl) (fun _ _ => rfl) (fun _ _ => rfl) (fun _ _ => rfl) (fun _ _ => rfl) (fun _ _ => rfl) (fun _ _ => rfl) (fun _ _ => rfl) (fun _ _ => rfl) s g,
   State.broadcastEnd_view State.ticks (fun _ _ => rfl) (fun _ _ => rfl) (fun _ _ => rfl) (fun _ _ => rfl) (fun _ _ => rfl) (fun _ _ => rfl) (fun _ _ => rfl) (fun _ _ => rfl) (fun _ _ => rfl) (fun _ _ => rfl) s g,
   State.broadcastEnd_view State.ctl (fun _ _ => rfl) (fun _ _ => rfl) (fun _ _ => rfl) (fun _ _ => rfl) (fun _ _ => rfl) (fun _ _ => rfl) (fun _ _ => rfl) (fun _ _ => rfl) (fun _ _ => rfl) (fun _ _ => rfl) s g,
   State.broadcastEnd_view State.arb (fun _ _ => rfl) (fun _ _ => rfl) (fun _ _ => rfl) (fun _ _ => rfl) (fun _ _ => rfl) (fun _ _ => rfl) (fun _ _ => rfl) (fun _ _ => rfl) (fun _ _ => rfl) (fun _ _ => rfl) s g,
   State.broadcastEnd_view State.lock (fun _ _ => rfl) (fun _ _ => rfl) (fun _ _ => rfl) (fun _ _ => rfl) (fun _ _ => rfl) (fun _ _ => rfl) (fun _ _ => rfl) (fun _ _ => rfl) (fun _ _ => rfl) (fun _ _ => rfl) s g,
   State.broadcastEnd_view State.nextChain (fun _ _ => rfl) (fun _ _ => rfl) (fun _ _ => rfl) (fun _ _ => rfl) (fun _ _ => rfl) (fun _ _ => rfl) (fun _ _ => rfl) (fun _ _ => rfl) (fun _ _ => rfl) (fun _ _ => rfl) s g,
   State.broadcastEnd_view State.pool (fun _ _ => rfl) (fun _ _ => rfl) (fun _ _ => rfl) (fun _ _ => rfl) (fun _ _ => rfl) (fun _ _ => rfl) (fun _ _ => rfl) (fun _ _ => rfl) (fun _ _ => rfl) (fun _ _ => rfl) s g,
   State.broadcastEnd_view State.irq (fun _ _ => rfl) (fun _ _ => rfl) (fun _ _ => rfl) (fun _ _ => rfl) (fun _ _ => rfl) (fun _ _ => rfl) (fun _ _ => rfl) (fun _ _ => rfl) (fun _ _ => rfl) (fun _ _ => rfl) s g,
   fun h => State.broadcastEnd_view (fun s => s.restoreList h) (fun _ _ => rfl) (fun _ _ => rfl) (fun _ _ => rfl) (fun _ _ => rfl) (fun _ _ => rfl) (fun _ _ => rfl) (fun _ _ => rfl) (fun _ _ => rfl) (fun _ _ => rfl) (fun _ _ => rfl) s g⟩

theorem State.releaseFence_view {γ : Type} (view : State → γ) (hsqs : BlindSqs view) (hcqs : BlindCqs view) (hctxs : BlindCtxs view) (hsegs : BlindSegs view)
    (s : State) (n : CtxNum) : view (s.releaseFence n) = view s := by
  unfold State.releaseFence
  try dsimp only
  (repeat' split) <;> first | simp only [State.becomeReady_view view hsqs hcqs hctxs hsegs, hsqs, hcqs, hctxs, hsegs] | rfl
@[simp] theorem State.releaseFence_frame (s : State) (n : CtxNum) :
    (s.releaseFence n).pending = s.pending ∧ (s.releaseFence n).ticks = s.ticks ∧
    (s.releaseFence n).ctl = s.ctl ∧ (s.releaseFence n).arb = s.arb ∧ (s.releaseFence n).lock = s.lock ∧
    (s.releaseFence n).nextChain = s.nextChain ∧ (s.releaseFence n).adm = s.adm ∧
    (s.releaseFence n).presence = s.presence ∧ (s.releaseFence n).watches = s.watches ∧
    (s.releaseFence n).pool = s.pool ∧ (s.releaseFence n).jobs = s.jobs ∧ (s.releaseFence n).ev = s.ev ∧
    (s.releaseFence n).irq = s.irq ∧ (s.releaseFence n).link = s.link ∧
    (∀ h, (s.releaseFence n).watch h = s.watch h) ∧ (∀ h, (s.releaseFence n).pres h = s.pres h) ∧
    (∀ h, (s.releaseFence n).job h = s.job h) ∧ (∀ h, (s.releaseFence n).restoreList h = s.restoreList h) :=
  ⟨State.releaseFence_view State.pending (fun _ _ => rfl) (fun _ _ => rfl) (fun _ _ => rfl) (fun _ _ => rfl) s n,
   State.releaseFence_view State.ticks (fun _ _ => rfl) (fun _ _ => rfl) (fun _ _ => rfl) (fun _ _ => rfl) s n,
   State.releaseFence_view State.ctl (fun _ _ => rfl) (fun _ _ => rfl) (fun _ _ => rfl) (fun _ _ => rfl) s n,
   State.releaseFence_view State.arb (fun _ _ => rfl) (fun _ _ => rfl) (fun _ _ => rfl) (fun _ _ => rfl) s n,
   State.releaseFence_view State.lock (fun _ _ => rfl) (fun _ _ => rfl) (fun _ _ => rfl) (fun _ _ => rfl) s n,
   State.releaseFence_view State.nextChain (fun _ _ => rfl) (fun _ _ => rfl) (fun _ _ => rfl) (fun _ _ => rfl) s n,
   State.releaseFence_view State.adm (fun _ _ => rfl) (fun _ _ => rfl) (fun _ _ => rfl) (fun _ _ => rfl) s n,
   State.releaseFence_view State.presence (fun _ _ => rfl) (fun _ _ => rfl) (fun _ _ => rfl) (fun _ _ => rfl) s n,
   State.releaseFence_view State.watches (fun _ _ => rfl) (fun _ _ => rfl) (fun _ _ => rfl) (fun _ _ => rfl) s n,
   State.releaseFence_view State.pool (fun _ _ => rfl) (fun _ _ => rfl) (fun _ _ => rfl) (fun _ _ => rfl) s n,
   State.releaseFence_view State.jobs (fun _ _ => rfl) (fun _ _ => rfl) (fun _ _ => rfl) (fun _ _ => rfl) s n,
   State.releaseFence_view State.ev (fun _ _ => rfl) (fun _ _ => rfl) (fun _ _ => rfl) (fun _ _ => rfl) s n,
   State.releaseFence_view State.irq (fun _ _ => rfl) (fun _ _ => rfl) (fun _ _ => rfl) (fun _ _ => rfl) s n,
   State.releaseFence_view State.link (fun _ _ => rfl) (fun _ _ => rfl) (fun _ _ => rfl) (fun _ _ => rfl) s n,
   fun h => State.releaseFence_view (fun s => s.watch h) (fun _ _ => rfl) (fun _ _ => rfl) (fun _ _ => rfl) (fun _ _ => rfl) s n,
   fun h => State.releaseFence_view (fun s => s.pres h) (fun _ _ => rfl) (fun _ _ => rfl) (fun _ _ => rfl) (fun _ _ => rfl) s n,
   fun h => State.releaseFence_view (fun s => s.job h) (fun _ _ => rfl) (fun _ _ => rfl) (fun _ _ => rfl) (fun _ _ => rfl) s n,
   fun h => State.releaseFence_view (fun s => s.restoreList h) (fun _ _ => rfl) (fun _ _ => rfl) (fun _ _ => rfl) (fun _ _ => rfl) s n⟩

theorem State.releaseFences_view {γ : Type} (view : State → γ) (hsqs : BlindSqs view) (hcqs : BlindCqs view) (hctxs : BlindCtxs view) (hsegs : BlindSegs view)
    (s : State)  : view s.releaseFences = view s := by
  unfold State.releaseFences
  try dsimp only
  (repeat' split) <;>
    simp (disch := first | (intros; simp only [State.releaseFence_view view hsqs hcqs hctxs hsegs, hsqs, hcqs, hctxs, hsegs])) only [foldl_same view, State.releaseFence_view view hsqs hcqs hctxs hsegs, hsqs, hcqs, hctxs, hsegs]
@[simp] theorem State.releaseFences_frame (s : State) :
    s.releaseFences.pending = s.pending ∧ s.releaseFences.ticks = s.ticks ∧ s.releaseFences.ctl = s.ctl ∧
    s.releaseFences.arb = s.arb ∧ s.releaseFences.lock = s.lock ∧ s.releaseFences.nextChain = s.nextChain ∧
    s.releaseFences.adm = s.adm ∧ s.releaseFences.presence = s.presence ∧
    s.releaseFences.watches = s.watches ∧ s.releaseFences.pool = s.pool ∧ s.releaseFences.jobs = s.jobs ∧
    s.releaseFences.ev = s.ev ∧ s.releaseFences.irq = s.irq ∧ s.releaseFences.link = s.link ∧
    (∀ h, s.releaseFences.watch h = s.watch h) ∧ (∀ h, s.releaseFences.pres h = s.pres h) ∧
    (∀ h, s.releaseFences.job h = s.job h) ∧ (∀ h, s.releaseFences.restoreList h = s.restoreList h) :=
  ⟨State.releaseFences_view State.pending (fun _ _ => rfl) (fun _ _ => rfl) (fun _ _ => rfl) (fun _ _ => rfl) s,
   State.releaseFences_view State.ticks (fun _ _ => rfl) (fun _ _ => rfl) (fun _ _ => rfl) (fun _ _ => rfl) s,
   State.releaseFences_view State.ctl (fun _ _ => rfl) (fun _ _ => rfl) (fun _ _ => rfl) (fun _ _ => rfl) s,
   State.releaseFences_view State.arb (fun _ _ => rfl) (fun _ _ => rfl) (fun _ _ => rfl) (fun _ _ => rfl) s,
   State.releaseFences_view State.lock (fun _ _ => rfl) (fun _ _ => rfl) (fun _ _ => rfl) (fun _ _ => rfl) s,
   State.releaseFences_view State.nextChain (fun _ _ => rfl) (fun _ _ => rfl) (fun _ _ => rfl) (fun _ _ => rfl) s,
   State.releaseFences_view State.adm (fun _ _ => rfl) (fun _ _ => rfl) (fun _ _ => rfl) (fun _ _ => rfl) s,
   State.releaseFences_view State.presence (fun _ _ => rfl) (fun _ _ => rfl) (fun _ _ => rfl) (fun _ _ => rfl) s,
   State.releaseFences_view State.watches (fun _ _ => rfl) (fun _ _ => rfl) (fun _ _ => rfl) (fun _ _ => rfl) s,
   State.releaseFences_view State.pool (fun _ _ => rfl) (fun _ _ => rfl) (fun _ _ => rfl) (fun _ _ => rfl) s,
   State.releaseFences_view State.jobs (fun _ _ => rfl) (fun _ _ => rfl) (fun _ _ => rfl) (fun _ _ => rfl) s,
   State.releaseFences_view State.ev (fun _ _ => rfl) (fun _ _ => rfl) (fun _ _ => rfl) (fun _ _ => rfl) s,
   State.releaseFences_view State.irq (fun _ _ => rfl) (fun _ _ => rfl) (fun _ _ => rfl) (fun _ _ => rfl) s,
   State.releaseFences_view State.link (fun _ _ => rfl) (fun _ _ => rfl) (fun _ _ => rfl) (fun _ _ => rfl) s,
   fun h => State.releaseFences_view (fun s => s.watch h) (fun _ _ => rfl) (fun _ _ => rfl) (fun _ _ => rfl) (fun _ _ => rfl) s,
   fun h => State.releaseFences_view (fun s => s.pres h) (fun _ _ => rfl) (fun _ _ => rfl) (fun _ _ => rfl) (fun _ _ => rfl) s,
   fun h => State.releaseFences_view (fun s => s.job h) (fun _ _ => rfl) (fun _ _ => rfl) (fun _ _ => rfl) (fun _ _ => rfl) s,
   fun h => State.releaseFences_view (fun s => s.restoreList h) (fun _ _ => rfl) (fun _ _ => rfl) (fun _ _ => rfl) (fun _ _ => rfl) s⟩

theorem State.moveStaged_view {γ : Type} (view : State → γ) (hsqs : BlindSqs view) (hctxs : BlindCtxs view) (hsegs : BlindSegs view)
    (s : State) (n : CtxNum) : view (s.moveStaged n) = view s := by
  unfold State.moveStaged
  try dsimp only
  (repeat' split) <;> first | simp only [State.place_view view hsqs hctxs hsegs, hsqs, hctxs, hsegs] | rfl
@[simp] theorem State.moveStaged_frame (s : State) (n : CtxNum) :
    (s.moveStaged n).pending = s.pending ∧ (s.moveStaged n).ticks = s.ticks ∧ (s.moveStaged n).ctl = s.ctl ∧
    (s.moveStaged n).cqs = s.cqs ∧ (s.moveStaged n).arb = s.arb ∧ (s.moveStaged n).lock = s.lock ∧
    (s.moveStaged n).nextChain = s.nextChain ∧ (s.moveStaged n).adm = s.adm ∧
    (s.moveStaged n).presence = s.presence ∧ (s.moveStaged n).watches = s.watches ∧
    (s.moveStaged n).pool = s.pool ∧ (s.moveStaged n).jobs = s.jobs ∧ (s.moveStaged n).ev = s.ev ∧
    (s.moveStaged n).irq = s.irq ∧ (s.moveStaged n).link = s.link ∧ (∀ h, (s.moveStaged n).cq h = s.cq h) ∧
    (∀ h, (s.moveStaged n).watch h = s.watch h) ∧ (∀ h, (s.moveStaged n).pres h = s.pres h) ∧
    (∀ h, (s.moveStaged n).job h = s.job h) ∧ (∀ h, (s.moveStaged n).restoreList h = s.restoreList h) :=
  ⟨State.moveStaged_view State.pending (fun _ _ => rfl) (fun _ _ => rfl) (fun _ _ => rfl) s n,
   State.moveStaged_view State.ticks (fun _ _ => rfl) (fun _ _ => rfl) (fun _ _ => rfl) s n,
   State.moveStaged_view State.ctl (fun _ _ => rfl) (fun _ _ => rfl) (fun _ _ => rfl) s n,
   State.moveStaged_view State.cqs (fun _ _ => rfl) (fun _ _ => rfl) (fun _ _ => rfl) s n,
   State.moveStaged_view State.arb (fun _ _ => rfl) (fun _ _ => rfl) (fun _ _ => rfl) s n,
   State.moveStaged_view State.lock (fun _ _ => rfl) (fun _ _ => rfl) (fun _ _ => rfl) s n,
   State.moveStaged_view State.nextChain (fun _ _ => rfl) (fun _ _ => rfl) (fun _ _ => rfl) s n,
   State.moveStaged_view State.adm (fun _ _ => rfl) (fun _ _ => rfl) (fun _ _ => rfl) s n,
   State.moveStaged_view State.presence (fun _ _ => rfl) (fun _ _ => rfl) (fun _ _ => rfl) s n,
   State.moveStaged_view State.watches (fun _ _ => rfl) (fun _ _ => rfl) (fun _ _ => rfl) s n,
   State.moveStaged_view State.pool (fun _ _ => rfl) (fun _ _ => rfl) (fun _ _ => rfl) s n,
   State.moveStaged_view State.jobs (fun _ _ => rfl) (fun _ _ => rfl) (fun _ _ => rfl) s n,
   State.moveStaged_view State.ev (fun _ _ => rfl) (fun _ _ => rfl) (fun _ _ => rfl) s n,
   State.moveStaged_view State.irq (fun _ _ => rfl) (fun _ _ => rfl) (fun _ _ => rfl) s n,
   State.moveStaged_view State.link (fun _ _ => rfl) (fun _ _ => rfl) (fun _ _ => rfl) s n,
   fun h => State.moveStaged_view (fun s => s.cq h) (fun _ _ => rfl) (fun _ _ => rfl) (fun _ _ => rfl) s n,
   fun h => State.moveStaged_view (fun s => s.watch h) (fun _ _ => rfl) (fun _ _ => rfl) (fun _ _ => rfl) s n,
   fun h => State.moveStaged_view (fun s => s.pres h) (fun _ _ => rfl) (fun _ _ => rfl) (fun _ _ => rfl) s n,
   fun h => State.moveStaged_view (fun s => s.job h) (fun _ _ => rfl) (fun _ _ => rfl) (fun _ _ => rfl) s n,
   fun h => State.moveStaged_view (fun s => s.restoreList h) (fun _ _ => rfl) (fun _ _ => rfl) (fun _ _ => rfl) s n⟩

theorem State.moveAllStaged_view {γ : Type} (view : State → γ) (hsqs : BlindSqs view) (hctxs : BlindCtxs view) (hsegs : BlindSegs view)
    (s : State)  : view s.moveAllStaged = view s := by
  unfold State.moveAllStaged
  try dsimp only
  (repeat' split) <;>
    simp (disch := first | (intros; simp only [State.moveStaged_view view hsqs hctxs hsegs, hsqs, hctxs, hsegs])) only [foldl_same view, State.moveStaged_view view hsqs hctxs hsegs, hsqs, hctxs, hsegs]
@[simp] theorem State.moveAllStaged_frame (s : State) :
    s.moveAllStaged.pending = s.pending ∧ s.moveAllStaged.ticks = s.ticks ∧ s.moveAllStaged.ctl = s.ctl ∧
    s.moveAllStaged.cqs = s.cqs ∧ s.moveAllStaged.arb = s.arb ∧ s.moveAllStaged.lock = s.lock ∧
    s.moveAllStaged.nextChain = s.nextChain ∧ s.moveAllStaged.adm = s.adm ∧
    s.moveAllStaged.presence = s.presence ∧ s.moveAllStaged.watches = s.watches ∧
    s.moveAllStaged.pool = s.pool ∧ s.moveAllStaged.jobs = s.jobs ∧ s.moveAllStaged.ev = s.ev ∧
    s.moveAllStaged.irq = s.irq ∧ s.moveAllStaged.link = s.link ∧ (∀ h, s.moveAllStaged.cq h = s.cq h) ∧
    (∀ h, s.moveAllStaged.watch h = s.watch h) ∧ (∀ h, s.moveAllStaged.pres h = s.pres h) ∧
    (∀ h, s.moveAllStaged.job h = s.job h) ∧ (∀ h, s.moveAllStaged.restoreList h = s.restoreList h) :=
  ⟨State.moveAllStaged_view State.pending (fun _ _ => rfl) (fun _ _ => rfl) (fun _ _ => rfl) s,
   State.moveAllStaged_view State.ticks (fun _ _ => rfl) (fun _ _ => rfl) (fun _ _ => rfl) s,
   State.moveAllStaged_view State.ctl (fun _ _ => rfl) (fun _ _ => rfl) (fun _ _ => rfl) s,
   State.moveAllStaged_view State.cqs (fun _ _ => rfl) (fun _ _ => rfl) (fun _ _ => rfl) s,
   State.moveAllStaged_view State.arb (fun _ _ => rfl) (fun _ _ => rfl) (fun _ _ => rfl) s,
   State.moveAllStaged_view State.lock (fun _ _ => rfl) (fun _ _ => rfl) (fun _ _ => rfl) s,
   State.moveAllStaged_view State.nextChain (fun _ _ => rfl) (fun _ _ => rfl) (fun _ _ => rfl) s,
   State.moveAllStaged_view State.adm (fun _ _ => rfl) (fun _ _ => rfl) (fun _ _ => rfl) s,
   State.moveAllStaged_view State.presence (fun _ _ => rfl) (fun _ _ => rfl) (fun _ _ => rfl) s,
   State.moveAllStaged_view State.watches (fun _ _ => rfl) (fun _ _ => rfl) (fun _ _ => rfl) s,
   State.moveAllStaged_view State.pool (fun _ _ => rfl) (fun _ _ => rfl) (fun _ _ => rfl) s,
   State.moveAllStaged_view State.jobs (fun _ _ => rfl) (fun _ _ => rfl) (fun _ _ => rfl) s,
   State.moveAllStaged_view State.ev (fun _ _ => rfl) (fun _ _ => rfl) (fun _ _ => rfl) s,
   State.moveAllStaged_view State.irq (fun _ _ => rfl) (fun _ _ => rfl) (fun _ _ => rfl) s,
   State.moveAllStaged_view State.link (fun _ _ => rfl) (fun _ _ => rfl) (fun _ _ => rfl) s,
   fun h => State.moveAllStaged_view (fun s => s.cq h) (fun _ _ => rfl) (fun _ _ => rfl) (fun _ _ => rfl) s,
   fun h => State.moveAllStaged_view (fun s => s.watch h) (fun _ _ => rfl) (fun _ _ => rfl) (fun _ _ => rfl) s,
   fun h => State.moveAllStaged_view (fun s => s.pres h) (fun _ _ => rfl) (fun _ _ => rfl) (fun _ _ => rfl) s,
   fun h => State.moveAllStaged_view (fun s => s.job h) (fun _ _ => rfl) (fun _ _ => rfl) (fun _ _ => rfl) s,
   fun h => State.moveAllStaged_view (fun s => s.restoreList h) (fun _ _ => rfl) (fun _ _ => rfl) (fun _ _ => rfl) s⟩

theorem State.reachMember_view {γ : Type} (view : State → γ) (hctxs : BlindCtxs view) (hsegs : BlindSegs view)
    (s : State) (g : SegId) : view (s.reachMember g) = view s := by
  unfold State.reachMember
  try dsimp only
  (repeat' split) <;> first | simp only [State.updSeg_view view hsegs, State.updCtx_view view hctxs, hctxs, hsegs] | rfl
@[simp] theorem State.reachMember_frame (s : State) (g : SegId) :
    (s.reachMember g).pending = s.pending ∧ (s.reachMember g).ticks = s.ticks ∧
    (s.reachMember g).ctl = s.ctl ∧ (s.reachMember g).sqs = s.sqs ∧ (s.reachMember g).cqs = s.cqs ∧
    (s.reachMember g).arb = s.arb ∧ (s.reachMember g).lock = s.lock ∧
    (s.reachMember g).nextChain = s.nextChain ∧ (s.reachMember g).adm = s.adm ∧
    (s.reachMember g).presence = s.presence ∧ (s.reachMember g).watches = s.watches ∧
    (s.reachMember g).pool = s.pool ∧ (s.reachMember g).jobs = s.jobs ∧ (s.reachMember g).ev = s.ev ∧
    (s.reachMember g).irq = s.irq ∧ (s.reachMember g).link = s.link ∧
    (∀ h, (s.reachMember g).sq h = s.sq h) ∧ (∀ h, (s.reachMember g).cq h = s.cq h) ∧
    (∀ h, (s.reachMember g).watch h = s.watch h) ∧ (∀ h, (s.reachMember g).pres h = s.pres h) ∧
    (∀ h, (s.reachMember g).job h = s.job h) ∧ (∀ h, (s.reachMember g).restoreList h = s.restoreList h) :=
  ⟨State.reachMember_view State.pending (fun _ _ => rfl) (fun _ _ => rfl) s g,
   State.reachMember_view State.ticks (fun _ _ => rfl) (fun _ _ => rfl) s g,
   State.reachMember_view State.ctl (fun _ _ => rfl) (fun _ _ => rfl) s g,
   State.reachMember_view State.sqs (fun _ _ => rfl) (fun _ _ => rfl) s g,
   State.reachMember_view State.cqs (fun _ _ => rfl) (fun _ _ => rfl) s g,
   State.reachMember_view State.arb (fun _ _ => rfl) (fun _ _ => rfl) s g,
   State.reachMember_view State.lock (fun _ _ => rfl) (fun _ _ => rfl) s g,
   State.reachMember_view State.nextChain (fun _ _ => rfl) (fun _ _ => rfl) s g,
   State.reachMember_view State.adm (fun _ _ => rfl) (fun _ _ => rfl) s g,
   State.reachMember_view State.presence (fun _ _ => rfl) (fun _ _ => rfl) s g,
   State.reachMember_view State.watches (fun _ _ => rfl) (fun _ _ => rfl) s g,
   State.reachMember_view State.pool (fun _ _ => rfl) (fun _ _ => rfl) s g,
   State.reachMember_view State.jobs (fun _ _ => rfl) (fun _ _ => rfl) s g,
   State.reachMember_view State.ev (fun _ _ => rfl) (fun _ _ => rfl) s g,
   State.reachMember_view State.irq (fun _ _ => rfl) (fun _ _ => rfl) s g,
   State.reachMember_view State.link (fun _ _ => rfl) (fun _ _ => rfl) s g,
   fun h => State.reachMember_view (fun s => s.sq h) (fun _ _ => rfl) (fun _ _ => rfl) s g,
   fun h => State.reachMember_view (fun s => s.cq h) (fun _ _ => rfl) (fun _ _ => rfl) s g,
   fun h => State.reachMember_view (fun s => s.watch h) (fun _ _ => rfl) (fun _ _ => rfl) s g,
   fun h => State.reachMember_view (fun s => s.pres h) (fun _ _ => rfl) (fun _ _ => rfl) s g,
   fun h => State.reachMember_view (fun s => s.job h) (fun _ _ => rfl) (fun _ _ => rfl) s g,
   fun h => State.reachMember_view (fun s => s.restoreList h) (fun _ _ => rfl) (fun _ _ => rfl) s g⟩

theorem State.reachMembers_view {γ : Type} (view : State → γ) (hctxs : BlindCtxs view) (hsegs : BlindSegs view)
    (s : State)  : view s.reachMembers = view s := by
  unfold State.reachMembers
  try dsimp only
  (repeat' split) <;>
    simp (disch := first | (intros; simp only [State.reachMember_view view hctxs hsegs, hctxs, hsegs])) only [foldl_same view, State.reachMember_view view hctxs hsegs, hctxs, hsegs]
@[simp] theorem State.reachMembers_frame (s : State) :
    s.reachMembers.pending = s.pending ∧ s.reachMembers.ticks = s.ticks ∧ s.reachMembers.ctl = s.ctl ∧
    s.reachMembers.sqs = s.sqs ∧ s.reachMembers.cqs = s.cqs ∧ s.reachMembers.arb = s.arb ∧
    s.reachMembers.lock = s.lock ∧ s.reachMembers.nextChain = s.nextChain ∧ s.reachMembers.adm = s.adm ∧
    s.reachMembers.presence = s.presence ∧ s.reachMembers.watches = s.watches ∧
    s.reachMembers.pool = s.pool ∧ s.reachMembers.jobs = s.jobs ∧ s.reachMembers.ev = s.ev ∧
    s.reachMembers.irq = s.irq ∧ s.reachMembers.link = s.link ∧ (∀ h, s.reachMembers.sq h = s.sq h) ∧
    (∀ h, s.reachMembers.cq h = s.cq h) ∧ (∀ h, s.reachMembers.watch h = s.watch h) ∧
    (∀ h, s.reachMembers.pres h = s.pres h) ∧ (∀ h, s.reachMembers.job h = s.job h) ∧
    (∀ h, s.reachMembers.restoreList h = s.restoreList h) :=
  ⟨State.reachMembers_view State.pending (fun _ _ => rfl) (fun _ _ => rfl) s,
   State.reachMembers_view State.ticks (fun _ _ => rfl) (fun _ _ => rfl) s,
   State.reachMembers_view State.ctl (fun _ _ => rfl) (fun _ _ => rfl) s,
   State.reachMembers_view State.sqs (fun _ _ => rfl) (fun _ _ => rfl) s,
   State.reachMembers_view State.cqs (fun _ _ => rfl) (fun _ _ => rfl) s,
   State.reachMembers_view State.arb (fun _ _ => rfl) (fun _ _ => rfl) s,
   State.reachMembers_view State.lock (fun _ _ => rfl) (fun _ _ => rfl) s,
   State.reachMembers_view State.nextChain (fun _ _ => rfl) (fun _ _ => rfl) s,
   State.reachMembers_view State.adm (fun _ _ => rfl) (fun _ _ => rfl) s,
   State.reachMembers_view State.presence (fun _ _ => rfl) (fun _ _ => rfl) s,
   State.reachMembers_view State.watches (fun _ _ => rfl) (fun _ _ => rfl) s,
   State.reachMembers_view State.pool (fun _ _ => rfl) (fun _ _ => rfl) s,
   State.reachMembers_view State.jobs (fun _ _ => rfl) (fun _ _ => rfl) s,
   State.reachMembers_view State.ev (fun _ _ => rfl) (fun _ _ => rfl) s,
   State.reachMembers_view State.irq (fun _ _ => rfl) (fun _ _ => rfl) s,
   State.reachMembers_view State.link (fun _ _ => rfl) (fun _ _ => rfl) s,
   fun h => State.reachMembers_view (fun s => s.sq h) (fun _ _ => rfl) (fun _ _ => rfl) s,
   fun h => State.reachMembers_view (fun s => s.cq h) (fun _ _ => rfl) (fun _ _ => rfl) s,
   fun h => State.reachMembers_view (fun s => s.watch h) (fun _ _ => rfl) (fun _ _ => rfl) s,
   fun h => State.reachMembers_view (fun s => s.pres h) (fun _ _ => rfl) (fun _ _ => rfl) s,
   fun h => State.reachMembers_view (fun s => s.job h) (fun _ _ => rfl) (fun _ _ => rfl) s,
   fun h => State.reachMembers_view (fun s => s.restoreList h) (fun _ _ => rfl) (fun _ _ => rfl) s⟩

theorem State.deleteIfOver_view {γ : Type} (view : State → γ) (hsqs : BlindSqs view) (hcqs : BlindCqs view) (hctxs : BlindCtxs view) (hadm : BlindAdm view)
    (s : State)  : view s.deleteIfOver = view s := by
  unfold State.deleteIfOver
  try dsimp only
  (repeat' split) <;> first | simp only [State.setSq_view view hsqs, State.adminDone_view view hcqs hctxs hadm, hsqs, hcqs, hctxs, hadm] | rfl
@[simp] theorem State.deleteIfOver_frame (s : State) :
    s.deleteIfOver.pending = s.pending ∧ s.deleteIfOver.ticks = s.ticks ∧ s.deleteIfOver.ctl = s.ctl ∧
    s.deleteIfOver.arb = s.arb ∧ s.deleteIfOver.lock = s.lock ∧ s.deleteIfOver.nextChain = s.nextChain ∧
    s.deleteIfOver.segs = s.segs ∧ s.deleteIfOver.presence = s.presence ∧
    s.deleteIfOver.watches = s.watches ∧ s.deleteIfOver.pool = s.pool ∧ s.deleteIfOver.jobs = s.jobs ∧
    s.deleteIfOver.ev = s.ev ∧ s.deleteIfOver.irq = s.irq ∧ s.deleteIfOver.link = s.link ∧
    (∀ h, s.deleteIfOver.seg h = s.seg h) ∧ (∀ h, s.deleteIfOver.watch h = s.watch h) ∧
    (∀ h, s.deleteIfOver.pres h = s.pres h) ∧ (∀ h, s.deleteIfOver.job h = s.job h) ∧
    (∀ h, s.deleteIfOver.restoreList h = s.restoreList h) :=
  ⟨State.deleteIfOver_view State.pending (fun _ _ => rfl) (fun _ _ => rfl) (fun _ _ => rfl) (fun _ _ => rfl) s,
   State.deleteIfOver_view State.ticks (fun _ _ => rfl) (fun _ _ => rfl) (fun _ _ => rfl) (fun _ _ => rfl) s,
   State.deleteIfOver_view State.ctl (fun _ _ => rfl) (fun _ _ => rfl) (fun _ _ => rfl) (fun _ _ => rfl) s,
   State.deleteIfOver_view State.arb (fun _ _ => rfl) (fun _ _ => rfl) (fun _ _ => rfl) (fun _ _ => rfl) s,
   State.deleteIfOver_view State.lock (fun _ _ => rfl) (fun _ _ => rfl) (fun _ _ => rfl) (fun _ _ => rfl) s,
   State.deleteIfOver_view State.nextChain (fun _ _ => rfl) (fun _ _ => rfl) (fun _ _ => rfl) (fun _ _ => rfl) s,
   State.deleteIfOver_view State.segs (fun _ _ => rfl) (fun _ _ => rfl) (fun _ _ => rfl) (fun _ _ => rfl) s,
   State.deleteIfOver_view State.presence (fun _ _ => rfl) (fun _ _ => rfl) (fun _ _ => rfl) (fun _ _ => rfl) s,
   State.deleteIfOver_view State.watches (fun _ _ => rfl) (fun _ _ => rfl) (fun _ _ => rfl) (fun _ _ => rfl) s,
   State.deleteIfOver_view State.pool (fun _ _ => rfl) (fun _ _ => rfl) (fun _ _ => rfl) (fun _ _ => rfl) s,
   State.deleteIfOver_view State.jobs (fun _ _ => rfl) (fun _ _ => rfl) (fun _ _ => rfl) (fun _ _ => rfl) s,
   State.deleteIfOver_view State.ev (fun _ _ => rfl) (fun _ _ => rfl) (fun _ _ => rfl) (fun _ _ => rfl) s,
   State.deleteIfOver_view State.irq (fun _ _ => rfl) (fun _ _ => rfl) (fun _ _ => rfl) (fun _ _ => rfl) s,
   State.deleteIfOver_view State.link (fun _ _ => rfl) (fun _ _ => rfl) (fun _ _ => rfl) (fun _ _ => rfl) s,
   fun h => State.deleteIfOver_view (fun s => s.seg h) (fun _ _ => rfl) (fun _ _ => rfl) (fun _ _ => rfl) (fun _ _ => rfl) s,
   fun h => State.deleteIfOver_view (fun s => s.watch h) (fun _ _ => rfl) (fun _ _ => rfl) (fun _ _ => rfl) (fun _ _ => rfl) s,
   fun h => State.deleteIfOver_view (fun s => s.pres h) (fun _ _ => rfl) (fun _ _ => rfl) (fun _ _ => rfl) (fun _ _ => rfl) s,
   fun h => State.deleteIfOver_view (fun s => s.job h) (fun _ _ => rfl) (fun _ _ => rfl) (fun _ _ => rfl) (fun _ _ => rfl) s,
   fun h => State.deleteIfOver_view (fun s => s.restoreList h) (fun _ _ => rfl) (fun _ _ => rfl) (fun _ _ => rfl) (fun _ _ => rfl) s⟩

theorem State.post_view {γ : Type} (view : State → γ) (hcqs : BlindCqs view) (hlink : BlindLink view)
    (s : State) (c : CqId) : view (s.post c) = view s := by
  unfold State.post
  try dsimp only
  (repeat' split) <;> first | simp only [State.setCq_view view hcqs, State.issue_view view hlink, hcqs, hlink] | rfl
@[simp] theorem State.post_frame (s : State) (c : CqId) :
    (s.post c).pending = s.pending ∧ (s.post c).ticks = s.ticks ∧ (s.post c).ctl = s.ctl ∧
    (s.post c).sqs = s.sqs ∧ (s.post c).arb = s.arb ∧ (s.post c).lock = s.lock ∧ (s.post c).ctxs = s.ctxs ∧
    (s.post c).nextChain = s.nextChain ∧ (s.post c).adm = s.adm ∧ (s.post c).segs = s.segs ∧
    (s.post c).presence = s.presence ∧ (s.post c).watches = s.watches ∧ (s.post c).pool = s.pool ∧
    (s.post c).jobs = s.jobs ∧ (s.post c).ev = s.ev ∧ (s.post c).irq = s.irq ∧
    (∀ h, (s.post c).seg h = s.seg h) ∧ (∀ h, (s.post c).sq h = s.sq h) ∧
    (∀ h, (s.post c).watch h = s.watch h) ∧ (∀ h, (s.post c).pres h = s.pres h) ∧
    (∀ h, (s.post c).ctx h = s.ctx h) ∧ (∀ h, (s.post c).job h = s.job h) ∧
    (∀ h, (s.post c).restoreList h = s.restoreList h) :=
  ⟨State.post_view State.pending (fun _ _ => rfl) (fun _ _ => rfl) s c,
   State.post_view State.ticks (fun _ _ => rfl) (fun _ _ => rfl) s c,
   State.post_view State.ctl (fun _ _ => rfl) (fun _ _ => rfl) s c,
   State.post_view State.sqs (fun _ _ => rfl) (fun _ _ => rfl) s c,
   State.post_view State.arb (fun _ _ => rfl) (fun _ _ => rfl) s c,
   State.post_view State.lock (fun _ _ => rfl) (fun _ _ => rfl) s c,
   State.post_view State.ctxs (fun _ _ => rfl) (fun _ _ => rfl) s c,
   State.post_view State.nextChain (fun _ _ => rfl) (fun _ _ => rfl) s c,
   State.post_view State.adm (fun _ _ => rfl) (fun _ _ => rfl) s c,
   State.post_view State.segs (fun _ _ => rfl) (fun _ _ => rfl) s c,
   State.post_view State.presence (fun _ _ => rfl) (fun _ _ => rfl) s c,
   State.post_view State.watches (fun _ _ => rfl) (fun _ _ => rfl) s c,
   State.post_view State.pool (fun _ _ => rfl) (fun _ _ => rfl) s c,
   State.post_view State.jobs (fun _ _ => rfl) (fun _ _ => rfl) s c,
   State.post_view State.ev (fun _ _ => rfl) (fun _ _ => rfl) s c,
   State.post_view State.irq (fun _ _ => rfl) (fun _ _ => rfl) s c,
   fun h => State.post_view (fun s => s.seg h) (fun _ _ => rfl) (fun _ _ => rfl) s c,
   fun h => State.post_view (fun s => s.sq h) (fun _ _ => rfl) (fun _ _ => rfl) s c,
   fun h => State.post_view (fun s => s.watch h) (fun _ _ => rfl) (fun _ _ => rfl) s c,
   fun h => State.post_view (fun s => s.pres h) (fun _ _ => rfl) (fun _ _ => rfl) s c,
   fun h => State.post_view (fun s => s.ctx h) (fun _ _ => rfl) (fun _ _ => rfl) s c,
   fun h => State.post_view (fun s => s.job h) (fun _ _ => rfl) (fun _ _ => rfl) s c,
   fun h => State.post_view (fun s => s.restoreList h) (fun _ _ => rfl) (fun _ _ => rfl) s c⟩

theorem State.postAll_view {γ : Type} (view : State → γ) (hcqs : BlindCqs view) (hlink : BlindLink view)
    (s : State)  : view s.postAll = view s := by
  unfold State.postAll
  try dsimp only
  (repeat' split) <;>
    simp (disch := first | (intros; simp only [State.post_view view hcqs hlink, hcqs, hlink])) only [foldl_same view, State.post_view view hcqs hlink, hcqs, hlink]
@[simp] theorem State.postAll_frame (s : State) :
    s.postAll.pending = s.pending ∧ s.postAll.ticks = s.ticks ∧ s.postAll.ctl = s.ctl ∧
    s.postAll.sqs = s.sqs ∧ s.postAll.arb = s.arb ∧ s.postAll.lock = s.lock ∧ s.postAll.ctxs = s.ctxs ∧
    s.postAll.nextChain = s.nextChain ∧ s.postAll.adm = s.adm ∧ s.postAll.segs = s.segs ∧
    s.postAll.presence = s.presence ∧ s.postAll.watches = s.watches ∧ s.postAll.pool = s.pool ∧
    s.postAll.jobs = s.jobs ∧ s.postAll.ev = s.ev ∧ s.postAll.irq = s.irq ∧
    (∀ h, s.postAll.seg h = s.seg h) ∧ (∀ h, s.postAll.sq h = s.sq h) ∧
    (∀ h, s.postAll.watch h = s.watch h) ∧ (∀ h, s.postAll.pres h = s.pres h) ∧
    (∀ h, s.postAll.ctx h = s.ctx h) ∧ (∀ h, s.postAll.job h = s.job h) ∧
    (∀ h, s.postAll.restoreList h = s.restoreList h) :=
  ⟨State.postAll_view State.pending (fun _ _ => rfl) (fun _ _ => rfl) s,
   State.postAll_view State.ticks (fun _ _ => rfl) (fun _ _ => rfl) s,
   State.postAll_view State.ctl (fun _ _ => rfl) (fun _ _ => rfl) s,
   State.postAll_view State.sqs (fun _ _ => rfl) (fun _ _ => rfl) s,
   State.postAll_view State.arb (fun _ _ => rfl) (fun _ _ => rfl) s,
   State.postAll_view State.lock (fun _ _ => rfl) (fun _ _ => rfl) s,
   State.postAll_view State.ctxs (fun _ _ => rfl) (fun _ _ => rfl) s,
   State.postAll_view State.nextChain (fun _ _ => rfl) (fun _ _ => rfl) s,
   State.postAll_view State.adm (fun _ _ => rfl) (fun _ _ => rfl) s,
   State.postAll_view State.segs (fun _ _ => rfl) (fun _ _ => rfl) s,
   State.postAll_view State.presence (fun _ _ => rfl) (fun _ _ => rfl) s,
   State.postAll_view State.watches (fun _ _ => rfl) (fun _ _ => rfl) s,
   State.postAll_view State.pool (fun _ _ => rfl) (fun _ _ => rfl) s,
   State.postAll_view State.jobs (fun _ _ => rfl) (fun _ _ => rfl) s,
   State.postAll_view State.ev (fun _ _ => rfl) (fun _ _ => rfl) s,
   State.postAll_view State.irq (fun _ _ => rfl) (fun _ _ => rfl) s,
   fun h => State.postAll_view (fun s => s.seg h) (fun _ _ => rfl) (fun _ _ => rfl) s,
   fun h => State.postAll_view (fun s => s.sq h) (fun _ _ => rfl) (fun _ _ => rfl) s,
   fun h => State.postAll_view (fun s => s.watch h) (fun _ _ => rfl) (fun _ _ => rfl) s,
   fun h => State.postAll_view (fun s => s.pres h) (fun _ _ => rfl) (fun _ _ => rfl) s,
   fun h => State.postAll_view (fun s => s.ctx h) (fun _ _ => rfl) (fun _ _ => rfl) s,
   fun h => State.postAll_view (fun s => s.job h) (fun _ _ => rfl) (fun _ _ => rfl) s,
   fun h => State.postAll_view (fun s => s.restoreList h) (fun _ _ => rfl) (fun _ _ => rfl) s⟩

theorem State.pauseIfQuiet_view {γ : Type} (view : State → γ) (hctl : BlindCtl view)
    (s : State)  : view s.pauseIfQuiet = view s := by
  unfold State.pauseIfQuiet
  try dsimp only
  (repeat' split) <;> first | simp only [hctl] | rfl
@[simp] theorem State.pauseIfQuiet_frame (s : State) :
    s.pauseIfQuiet.pending = s.pending ∧ s.pauseIfQuiet.ticks = s.ticks ∧ s.pauseIfQuiet.sqs = s.sqs ∧
    s.pauseIfQuiet.cqs = s.cqs ∧ s.pauseIfQuiet.arb = s.arb ∧ s.pauseIfQuiet.lock = s.lock ∧
    s.pauseIfQuiet.ctxs = s.ctxs ∧ s.pauseIfQuiet.nextChain = s.nextChain ∧ s.pauseIfQuiet.adm = s.adm ∧
    s.pauseIfQuiet.segs = s.segs ∧ s.pauseIfQuiet.presence = s.presence ∧
    s.pauseIfQuiet.watches = s.watches ∧ s.pauseIfQuiet.pool = s.pool ∧ s.pauseIfQuiet.jobs = s.jobs ∧
    s.pauseIfQuiet.ev = s.ev ∧ s.pauseIfQuiet.irq = s.irq ∧ s.pauseIfQuiet.link = s.link ∧
    (∀ h, s.pauseIfQuiet.seg h = s.seg h) ∧ (∀ h, s.pauseIfQuiet.sq h = s.sq h) ∧
    (∀ h, s.pauseIfQuiet.cq h = s.cq h) ∧ (∀ h, s.pauseIfQuiet.watch h = s.watch h) ∧
    (∀ h, s.pauseIfQuiet.pres h = s.pres h) ∧ (∀ h, s.pauseIfQuiet.ctx h = s.ctx h) ∧
    (∀ h, s.pauseIfQuiet.job h = s.job h) ∧ (∀ h, s.pauseIfQuiet.restoreList h = s.restoreList h) :=
  ⟨State.pauseIfQuiet_view State.pending (fun _ _ => rfl) s,
   State.pauseIfQuiet_view State.ticks (fun _ _ => rfl) s,
   State.pauseIfQuiet_view State.sqs (fun _ _ => rfl) s,
   State.pauseIfQuiet_view State.cqs (fun _ _ => rfl) s,
   State.pauseIfQuiet_view State.arb (fun _ _ => rfl) s,
   State.pauseIfQuiet_view State.lock (fun _ _ => rfl) s,
   State.pauseIfQuiet_view State.ctxs (fun _ _ => rfl) s,
   State.pauseIfQuiet_view State.nextChain (fun _ _ => rfl) s,
   State.pauseIfQuiet_view State.adm (fun _ _ => rfl) s,
   State.pauseIfQuiet_view State.segs (fun _ _ => rfl) s,
   State.pauseIfQuiet_view State.presence (fun _ _ => rfl) s,
   State.pauseIfQuiet_view State.watches (fun _ _ => rfl) s,
   State.pauseIfQuiet_view State.pool (fun _ _ => rfl) s,
   State.pauseIfQuiet_view State.jobs (fun _ _ => rfl) s,
   State.pauseIfQuiet_view State.ev (fun _ _ => rfl) s,
   State.pauseIfQuiet_view State.irq (fun _ _ => rfl) s,
   State.pauseIfQuiet_view State.link (fun _ _ => rfl) s,
   fun h => State.pauseIfQuiet_view (fun s => s.seg h) (fun _ _ => rfl) s,
   fun h => State.pauseIfQuiet_view (fun s => s.sq h) (fun _ _ => rfl) s,
   fun h => State.pauseIfQuiet_view (fun s => s.cq h) (fun _ _ => rfl) s,
   fun h => State.pauseIfQuiet_view (fun s => s.watch h) (fun _ _ => rfl) s,
   fun h => State.pauseIfQuiet_view (fun s => s.pres h) (fun _ _ => rfl) s,
   fun h => State.pauseIfQuiet_view (fun s => s.ctx h) (fun _ _ => rfl) s,
   fun h => State.pauseIfQuiet_view (fun s => s.job h) (fun _ _ => rfl) s,
   fun h => State.pauseIfQuiet_view (fun s => s.restoreList h) (fun _ _ => rfl) s⟩

theorem State.settle_view {γ : Type} (view : State → γ) (hctl : BlindCtl view) (hsqs : BlindSqs view) (hcqs : BlindCqs view) (harb : BlindArb view) (hlock : BlindLock view) (hctxs : BlindCtxs view) (hadm : BlindAdm view) (hsegs : BlindSegs view) (hev : BlindEv view) (hlink : BlindLink view)
    (s : State)  : view s.settle = view s := by
  unfold State.settle
  try dsimp only
  (repeat' split) <;> first | simp only [State.issueEvent_view view hev hlink, State.ioFetch_view view hsqs harb hlock hctxs hsegs hlink, State.adminFetch_view view hadm hlink, State.releaseFences_view view hsqs hcqs hctxs hsegs, State.moveAllStaged_view view hsqs hctxs hsegs, State.reachMembers_view view hctxs hsegs, State.deleteIfOver_view view hsqs hcqs hctxs hadm, State.postAll_view view hcqs hlink, State.pauseIfQuiet_view view hctl, hctl, hsqs, hcqs, harb, hlock, hctxs, hadm, hsegs, hev, hlink] | rfl
@[simp] theorem State.settle_frame (s : State) :
    s.settle.pending = s.pending ∧ s.settle.ticks = s.ticks ∧ s.settle.nextChain = s.nextChain ∧
    s.settle.presence = s.presence ∧ s.settle.watches = s.watches ∧ s.settle.pool = s.pool ∧
    s.settle.jobs = s.jobs ∧ s.settle.irq = s.irq ∧ (∀ h, s.settle.watch h = s.watch h) ∧
    (∀ h, s.settle.pres h = s.pres h) ∧ (∀ h, s.settle.job h = s.job h) ∧
    (∀ h, s.settle.restoreList h = s.restoreList h) :=
  ⟨State.settle_view State.pending (fun _ _ => rfl) (fun _ _ => rfl) (fun _ _ => rfl) (fun _ _ => rfl) (fun _ _ => rfl) (fun _ _ => rfl) (fun _ _ => rfl) (fun _ _ => rfl) (fun _ _ => rfl) (fun _ _ => rfl) s,
   State.settle_view State.ticks (fun _ _ => rfl) (fun _ _ => rfl) (fun _ _ => rfl) (fun _ _ => rfl) (fun _ _ => rfl) (fun _ _ => rfl) (fun _ _ => rfl) (fun _ _ => rfl) (fun _ _ => rfl) (fun _ _ => rfl) s,
   State.settle_view State.nextChain (fun _ _ => rfl) (fun _ _ => rfl) (fun _ _ => rfl) (fun _ _ => rfl) (fun _ _ => rfl) (fun _ _ => rfl) (fun _ _ => rfl) (fun _ _ => rfl) (fun _ _ => rfl) (fun _ _ => rfl) s,
   State.settle_view State.presence (fun _ _ => rfl) (fun _ _ => rfl) (fun _ _ => rfl) (fun _ _ => rfl) (fun _ _ => rfl) (fun _ _ => rfl) (fun _ _ => rfl) (fun _ _ => rfl) (fun _ _ => rfl) (fun _ _ => rfl) s,
   State.settle_view State.watches (fun _ _ => rfl) (fun _ _ => rfl) (fun _ _ => rfl) (fun _ _ => rfl) (fun _ _ => rfl) (fun _ _ => rfl) (fun _ _ => rfl) (fun _ _ => rfl) (fun _ _ => rfl) (fun _ _ => rfl) s,
   State.settle_view State.pool (fun _ _ => rfl) (fun _ _ => rfl) (fun _ _ => rfl) (fun _ _ => rfl) (fun _ _ => rfl) (fun _ _ => rfl) (fun _ _ => rfl) (fun _ _ => rfl) (fun _ _ => rfl) (fun _ _ => rfl) s,
   State.settle_view State.jobs (fun _ _ => rfl) (fun _ _ => rfl) (fun _ _ => rfl) (fun _ _ => rfl) (fun _ _ => rfl) (fun _ _ => rfl) (fun _ _ => rfl) (fun _ _ => rfl) (fun _ _ => rfl) (fun _ _ => rfl) s,
   State.settle_view State.irq (fun _ _ => rfl) (fun _ _ => rfl) (fun _ _ => rfl) (fun _ _ => rfl) (fun _ _ => rfl) (fun _ _ => rfl) (fun _ _ => rfl) (fun _ _ => rfl) (fun _ _ => rfl) (fun _ _ => rfl) s,
   fun h => State.settle_view (fun s => s.watch h) (fun _ _ => rfl) (fun _ _ => rfl) (fun _ _ => rfl) (fun _ _ => rfl) (fun _ _ => rfl) (fun _ _ => rfl) (fun _ _ => rfl) (fun _ _ => rfl) (fun _ _ => rfl) (fun _ _ => rfl) s,
   fun h => State.settle_view (fun s => s.pres h) (fun _ _ => rfl) (fun _ _ => rfl) (fun _ _ => rfl) (fun _ _ => rfl) (fun _ _ => rfl) (fun _ _ => rfl) (fun _ _ => rfl) (fun _ _ => rfl) (fun _ _ => rfl) (fun _ _ => rfl) s,
   fun h => State.settle_view (fun s => s.job h) (fun _ _ => rfl) (fun _ _ => rfl) (fun _ _ => rfl) (fun _ _ => rfl) (fun _ _ => rfl) (fun _ _ => rfl) (fun _ _ => rfl) (fun _ _ => rfl) (fun _ _ => rfl) (fun _ _ => rfl) s,
   fun h => State.settle_view (fun s => s.restoreList h) (fun _ _ => rfl) (fun _ _ => rfl) (fun _ _ => rfl) (fun _ _ => rfl) (fun _ _ => rfl) (fun _ _ => rfl) (fun _ _ => rfl) (fun _ _ => rfl) (fun _ _ => rfl) (fun _ _ => rfl) s⟩

end Sys2Proof.Machine
end

