-- ==== Sys2Proof/Laws/Settle.lean ====
section
/-! SUPPORT. What settling can do, said once: `settle_standing` (it leaves alone what stands), `settle_keeps` (contexts that
wait for nothing stay, in their lists), `settle_owes` (a completion owed stays owed), and what becomes of the admin context,
the contexts' numbers and the holders. -/

namespace Sys2Proof.Machine

/-! ### Tables under a map -/

theorem tableMap_set {α β : Type} {n : Nat} (f : α → β) (v : Vector α n) (i : Fin n) (x : α)
    (h : f x = f (v.get i)) : tableMap f (v.set i.val x i.isLt) = tableMap f v := by
  apply Vector.ext
  intro j hj
  have key : ∀ w : Vector α n, (tableMap f w)[j] = f w[j] := fun w => get_tableMap f w ⟨j, hj⟩
  rw [key, key, Vector.getElem_set]
  split
  · subst_vars; exact h
  · rfl

theorem tableMap_tableMap {α β γ : Type} {n : Nat} (f : β → γ) (g : α → β) (v : Vector α n) :
    tableMap f (tableMap g v) = tableMap (fun x => f (g x)) v := by
  apply Vector.ext
  intro j hj
  have key : ∀ {δ ε : Type} (k : δ → ε) (w : Vector δ n), (tableMap k w)[j] = k w[j] :=
    fun k w => get_tableMap k w ⟨j, hj⟩
  rw [key, key, key]

/-! ### What stands -/

theorem standing_congr {s t : State} (hp : t.pending = s.pending) (ht : t.ticks = s.ticks)
    (hc : t.ctl.standing = s.ctl.standing) (hq : tableMap Sq.standing t.sqs = tableMap Sq.standing s.sqs)
    (hk : tableMap Cq.standing t.cqs = tableMap Cq.standing s.cqs) (hn : t.nextChain = s.nextChain)
    (hg : tableMap SegCtl.standing t.segs = tableMap SegCtl.standing s.segs) (hpr : t.presence = s.presence)
    (hw : t.watches = s.watches) (hpl : t.pool = s.pool) (hj : t.jobs = s.jobs)
    (he : t.ev.standing = s.ev.standing) (hi : t.irq = s.irq) : t.standing = s.standing := by
  simp only [State.standing, hp, ht, hc, hq, hk, hn, hg, hpr, hw, hpl, hj, he, hi]

@[simp] theorem standing_setArb (s : State) (a : FetchArb) : (s.setArb a).standing = s.standing := rfl
@[simp] theorem standing_setAdm (s : State) (a : Admin) : (s.setAdm a).standing = s.standing := rfl
@[simp] theorem standing_setLock (s : State) (l : Option ChainLock) : (s.setLock l).standing = s.standing := rfl
@[simp] theorem standing_setCtxs (s : State) (l : List Ctx) : (s.setCtxs l).standing = s.standing := rfl
@[simp] theorem standing_updCtx (s : State) (n : CtxNum) (f : Ctx → Ctx) : (s.updCtx n f).standing = s.standing := rfl
@[simp] theorem standing_freeCtx (s : State) (n : CtxNum) : (s.freeCtx n).standing = s.standing := rfl
@[simp] theorem standing_issue (s : State) (a : Access) (p : Addr) (b : List Byte) :
    (s.issue a p b).standing = s.standing := rfl
@[simp] theorem standing_retire (s : State) (t : Nat) : (s.retire t).standing = s.standing := rfl

theorem standing_setSeg (s : State) (g : SegId) (y : SegCtl) (h : y.standing = (s.seg g).standing) :
    (s.setSeg g y).standing = s.standing :=
  standing_congr rfl rfl rfl rfl rfl rfl (tableMap_set _ _ _ _ h) rfl rfl rfl rfl rfl rfl

theorem standing_updSeg (s : State) (g : SegId) (f : SegCtl → SegCtl)
    (h : (f (s.seg g)).standing = (s.seg g).standing) : (s.updSeg g f).standing = s.standing :=
  standing_setSeg s g _ h

theorem standing_setSq (s : State) (q : SqId) (x : Sq) (h : x.standing = (s.sq q).standing) :
    (s.setSq q x).standing = s.standing :=
  standing_congr rfl rfl rfl (tableMap_set _ _ _ _ h) rfl rfl rfl rfl rfl rfl rfl rfl rfl

theorem standing_updSq (s : State) (q : SqId) (f : Sq → Sq) (h : (f (s.sq q)).standing = (s.sq q).standing) :
    (s.updSq q f).standing = s.standing :=
  standing_setSq s q _ h

theorem standing_setCq (s : State) (c : CqId) (x : Cq) (h : x.standing = (s.cq c).standing) :
    (s.setCq c x).standing = s.standing :=
  standing_congr rfl rfl rfl rfl (tableMap_set _ _ _ _ h) rfl rfl rfl rfl rfl rfl rfl rfl

theorem standing_updCq (s : State) (c : CqId) (f : Cq → Cq) (h : (f (s.cq c)).standing = (s.cq c).standing) :
    (s.updCq c f).standing = s.standing :=
  standing_setCq s c _ h

@[simp] theorem SegCtl.standing_unlist (y : SegCtl) (n : CtxNum) : (y.unlist n).standing = y.standing := rfl

@[simp] theorem Sq.standing_staging (x : Sq) (t : Option Staging) :
    ({ x with staging := t } : Sq).standing = x.standing := by
  unfold Sq.standing; split <;> simp_all

@[simp] theorem Sq.standing_unstage (x : Sq) (n : CtxNum) : (x.unstage n).standing = x.standing := by
  unfold Sq.unstage; (repeat' split) <;> simp

theorem foldl_standing {β : Type} (f : State → β → State) (h : ∀ s b, (f s b).standing = s.standing) (l : List β)
    (s : State) : (l.foldl f s).standing = s.standing := foldl_same State.standing f h l s

@[simp] theorem standing_unlist (s : State) (c : Ctx) : (s.unlist c).standing = s.standing := by
  unfold State.unlist
  rw [standing_updSq _ _ _ (by simp), standing_updSeg _ _ _ (by simp)]

@[simp] theorem standing_becomeReady (s : State) (n : CtxNum) (st : Status) :
    (s.becomeReady n st).standing = s.standing := by
  unfold State.becomeReady
  split
  · rfl
  · dsimp only
    split
    · rw [standing_updCq _ _ _ (by rfl)]; simp
    · simp

@[simp] theorem standing_place (s : State) (n : CtxNum) : (s.place n).standing = s.standing := by
  unfold State.place
  split
  · rfl
  · split
    · rw [standing_updSq _ _ _ (by simp), standing_updSeg _ _ _ (by rfl)]; simp
    · rw [standing_updSq _ _ _ (by simp)]; simp

@[simp] theorem standing_takeLock (s : State) (n : CtxNum) : (s.takeLock n).standing = s.standing := by
  unfold State.takeLock
  (repeat' split) <;> simp

@[simp] theorem standing_lockChance (s : State) (q : SqId) : (s.lockChance q).standing = s.standing := by
  unfold State.lockChance
  (repeat' split) <;> simp

@[simp] theorem standing_issueRead (s : State) (q : SqId) : (s.issueRead q).standing = s.standing := rfl

@[simp] theorem standing_endTurn (s : State) (q : SqId) : (s.endTurn q).standing = s.standing := rfl

@[simp] theorem standing_endTurnIfOver (s : State) : s.endTurnIfOver.standing = s.standing := by
  unfold State.endTurnIfOver
  (repeat' split) <;> simp

@[simp] theorem standing_offerTurns (l : List SqId) (s : State) : (State.offerTurns l s).standing = s.standing := by
  induction l generalizing s with
  | nil => rfl
  | cons q l ih =>
    unfold State.offerTurns
    dsimp only
    split
    · simp
    · rw [ih]; split <;> simp

@[simp] theorem standing_ioFetch (s : State) : s.ioFetch.standing = s.standing := by
  unfold State.ioFetch
  dsimp only
  (repeat' split) <;> simp

@[simp] theorem standing_adminFetch (s : State) : s.adminFetch.standing = s.standing := by
  unfold State.adminFetch
  dsimp only
  split <;> simp

@[simp] theorem standing_issueEvent (s : State) : s.issueEvent.standing = s.standing := by
  unfold State.issueEvent
  split
  · rfl
  · rename_i r hr
    split
    · split
      · exact standing_congr rfl rfl rfl rfl rfl rfl rfl rfl rfl rfl rfl (by simp [EventUnit.standing, State.setRing, hr])
          rfl
      · rfl
    · rfl

@[simp] theorem standing_post (s : State) (c : CqId) : (s.post c).standing = s.standing := by
  unfold State.post
  dsimp only
  split
  · rfl
  · split
    · rw [standing_setCq _ _ _ (by rfl)]; simp
    · rfl

@[simp] theorem standing_postAll (s : State) : s.postAll.standing = s.standing := foldl_standing _ standing_post _ _

@[simp] theorem standing_adminDone (s : State) (st : Status) (r : Option Half) :
    (s.adminDone st r).standing = s.standing := by
  unfold State.adminDone
  split
  · rfl
  · split
    · dsimp only
      rw [standing_updCq _ _ _ (by rfl)]; rfl
    · rfl

@[simp] theorem standing_adminWaits (s : State) (p : AdminProgress) : (s.adminWaits p).standing = s.standing := rfl

@[simp] theorem standing_deleteIfOver (s : State) : s.deleteIfOver.standing = s.standing := by
  unfold State.deleteIfOver
  split
  · rename_i q _
    split
    · rename_i h
      rw [standing_adminDone, standing_setSq]
      simp [Sq.standing, h.1, Sq.absent]
    · rfl
  · rfl

@[simp] theorem standing_reachMember (s : State) (g : SegId) : (s.reachMember g).standing = s.standing := by
  unfold State.reachMember
  (repeat' split) <;> first | rfl | exact standing_updSeg _ _ _ rfl

@[simp] theorem standing_reachMembers (s : State) : s.reachMembers.standing = s.standing :=
  foldl_standing _ standing_reachMember _ _

@[simp] theorem standing_moveStaged (s : State) (n : CtxNum) : (s.moveStaged n).standing = s.standing := by
  unfold State.moveStaged
  (repeat' split) <;> simp

@[simp] theorem standing_moveAllStaged (s : State) : s.moveAllStaged.standing = s.standing :=
  foldl_standing _ standing_moveStaged _ _

@[simp] theorem standing_releaseFence (s : State) (n : CtxNum) : (s.releaseFence n).standing = s.standing := by
  unfold State.releaseFence
  (repeat' split) <;> simp

@[simp] theorem standing_releaseFences (s : State) : s.releaseFences.standing = s.standing :=
  foldl_standing _ standing_releaseFence _ _

@[simp] theorem standing_pauseIfQuiet (s : State) : s.pauseIfQuiet.standing = s.standing := by
  unfold State.pauseIfQuiet
  split
  · rename_i h
    exact standing_congr rfl rfl (by simp [Control.standing, h.1]) rfl rfl rfl rfl rfl rfl rfl rfl rfl rfl
  · rfl

/-- Settling leaves alone all that stands. -/
theorem settle_standing (s : State) : s.settle.standing = s.standing := by simp [State.settle]

/-! ### Numbers, calm contexts and their lists -/

/-- From `s` to `t` the contexts' numbers stay distinct, and every calm context stays as it is, in the lists it is in. -/
structure Keeps (s t : State) : Prop where
  distinct : s.distinct → t.distinct
  calm : s.distinct → ∀ c ∈ s.ctxs, c.calm → c ∈ t.ctxs
  listed : s.distinct → ∀ c ∈ s.ctxs, c.calm → ∀ g, c.num ∈ (s.seg g).pendingList → c.num ∈ (t.seg g).pendingList
  offered : s.distinct → ∀ c ∈ s.ctxs, c.calm → ∀ g, c.num ∈ (s.seg g).offered → c.num ∈ (t.seg g).offered

theorem Keeps.refl (s : State) : Keeps s s := ⟨id, fun _ _ h _ => h, fun _ _ _ _ _ h => h, fun _ _ _ _ _ h => h⟩

theorem Keeps.trans {s t u : State} (h : Keeps s t) (k : Keeps t u) : Keeps s u where
  distinct d := k.distinct (h.distinct d)
  calm d c hc hk := k.calm (h.distinct d) c (h.calm d c hc hk) hk
  listed d c hc hk g hg := k.listed (h.distinct d) c (h.calm d c hc hk) hk g (h.listed d c hc hk g hg)
  offered d c hc hk g hg := k.offered (h.distinct d) c (h.calm d c hc hk) hk g (h.offered d c hc hk g hg)

theorem Keeps.of_eq {s t : State} (hc : t.ctxs = s.ctxs) (hg : t.segs = s.segs) : Keeps s t := by
  have hseg : ∀ g, t.seg g = s.seg g := fun g => by simp [State.seg, hg]
  refine ⟨?_, ?_, ?_, ?_⟩
  · simp [State.distinct, hc]
  · intro _ c h _; rwa [hc]
  · intro _ c _ _ g h; rwa [hseg]
  · intro _ c _ _ g h; rwa [hseg]

theorem Keeps.foldl {β : Type} (f : State → β → State) (h : ∀ s b, Keeps s (f s b)) (l : List β) (s : State) :
    Keeps s (l.foldl f s) := by
  induction l generalizing s with
  | nil => exact .refl s
  | cons b l ih => exact (h s b).trans (ih _)

/-- The context found by its number is the only one with it. -/
theorem eq_of_num {s : State} (d : s.distinct) {c e : Ctx} (hc : c ∈ s.ctxs) (he : e ∈ s.ctxs) (h : c.num = e.num) :
    c = e := List.inj_on_of_nodup_map d hc he h

theorem ctx_mem {s : State} {n : CtxNum} {c : Ctx} (h : s.ctx n = some c) : c ∈ s.ctxs ∧ c.num = n := by
  refine ⟨List.mem_of_find?_eq_some h, ?_⟩
  simpa using List.find?_some h

theorem ctx_of_mem {s : State} (d : s.distinct) {c : Ctx} (hc : c ∈ s.ctxs) : s.ctx c.num = some c := by
  cases h : s.ctx c.num with
  | none => exact absurd hc (fun hc => by simpa using (List.find?_eq_none.mp h) c hc)
  | some e =>
    have := ctx_mem h
    rw [eq_of_num d hc this.1 this.2.symm]

/-- Changing one context that is not calm, without changing its number. -/
theorem Keeps.updCtx {s : State} {n : CtxNum} {c : Ctx} (f : Ctx → Ctx) (h : s.ctx n = some c) (hk : ¬ c.calm)
    (hf : ∀ c, (f c).num = c.num) : Keeps s (s.updCtx n f) where
  distinct d := by
    have : (s.updCtx n f).ctxs.map (·.num) = s.ctxs.map (·.num) := by
      simp only [State.updCtx, List.map_map]
      apply List.map_congr_left
      intro a _
      by_cases ha : a.num = n <;> simp [ha, hf]
    simpa [State.distinct, this] using d
  calm d e he hek := by
    have hne : e.num ≠ n := by
      intro hn
      have := ctx_mem h
      exact hk ((eq_of_num d he this.1 (hn.trans this.2.symm)) ▸ hek)
    exact List.mem_map.mpr ⟨e, he, by simp [hne]⟩
  listed _ _ _ _ _ h := h
  offered _ _ _ _ _ h := h

/-- Freeing one context that is not calm. -/
theorem Keeps.freeCtx {s : State} {n : CtxNum} {c : Ctx} (h : s.ctx n = some c) (hk : ¬ c.calm) :
    Keeps s (s.freeCtx n) where
  distinct d := List.Nodup.sublist (List.Sublist.map _ List.filter_sublist) d
  calm d e he hek := by
    have hne : e.num ≠ n := by
      intro hn
      have := ctx_mem h
      exact hk ((eq_of_num d he this.1 (hn.trans this.2.symm)) ▸ hek)
    exact List.mem_filter.mpr ⟨he, by simp [hne]⟩
  listed _ _ _ _ _ h := h
  offered _ _ _ _ _ h := h

/-- Changing one segment so that its lists lose at most the number of one context that is not calm. -/
theorem Keeps.updSeg {s : State} {n : CtxNum} {c : Ctx} (g : SegId) (f : SegCtl → SegCtl) (h : s.ctx n = some c)
    (hk : ¬ c.calm) (hp : ∀ y m, m ∈ y.pendingList → m ≠ n → m ∈ (f y).pendingList)
    (ho : ∀ y m, m ∈ y.offered → m ≠ n → m ∈ (f y).offered) : Keeps s (s.updSeg g f) where
  distinct d := d
  calm _ _ he _ := he
  listed d e he hek k hm := by
    have hne : e.num ≠ n := by
      intro hn
      have := ctx_mem h
      exact hk ((eq_of_num d he this.1 (hn.trans this.2.symm)) ▸ hek)
    rw [State.seg_updSeg]
    split
    · exact hp _ _ hm hne
    · exact hm
  offered d e he hek k hm := by
    have hne : e.num ≠ n := by
      intro hn
      have := ctx_mem h
      exact hk ((eq_of_num d he this.1 (hn.trans this.2.symm)) ▸ hek)
    rw [State.seg_updSeg]
    split
    · exact ho _ _ hm hne
    · exact hm

theorem Keeps.unlist {s : State} {c : Ctx} (h : s.ctx c.num = some c) (hk : ¬ c.calm) : Keeps s (s.unlist c) := by
  have k : Keeps (s.updSeg c.seg (·.unlist c.num)) (s.unlist c) := .of_eq rfl rfl
  refine (Keeps.updSeg c.seg (·.unlist c.num) h hk ?_ ?_).trans k
  · intro y m hm hne; exact List.mem_filter.mpr ⟨hm, by simp [hne]⟩
  · intro y m hm hne; exact List.mem_filter.mpr ⟨hm, by simp [hne]⟩

theorem Keeps.becomeReady {s : State} {n : CtxNum} {c : Ctx} (st : Status) (h : s.ctx n = some c) (hk : ¬ c.calm) :
    Keeps s (s.becomeReady n st) := by
  have hn : c.num = n := (ctx_mem h).2
  subst hn
  have hl := Keeps.unlist h hk
  have hu : (s.unlist c).ctx c.num = some c := by simpa using h
  unfold State.becomeReady
  rw [h]
  dsimp only
  split
  · exact (hl.trans (Keeps.updCtx (·.asReady st) hu hk (fun _ => rfl))).trans (.of_eq rfl rfl)
  · exact hl.trans (Keeps.freeCtx hu hk)

theorem Keeps.place {s : State} {n : CtxNum} {c : Ctx} (h : s.ctx n = some c) (hk : ¬ c.calm) :
    Keeps s (s.place n) := by
  unfold State.place
  rw [h]
  dsimp only
  split
  · have h1 := Keeps.updCtx (fun c => { c with state := .pending }) h hk (fun _ => rfl)
    have h2 : ∀ t : State, Keeps t (t.updSeg c.seg fun y => { y with pendingList := y.pendingList ++ [n] }) := by
      intro t
      refine ⟨id, fun _ _ h _ => h, ?_, ?_⟩
      · intro _ e _ _ g hm
        rw [State.seg_updSeg]; split
        · exact List.mem_append_left _ hm
        · exact hm
      · intro _ e _ _ g hm
        rw [State.seg_updSeg]; split <;> exact hm
    exact (h1.trans (h2 _)).trans (.of_eq rfl rfl)
  · exact (Keeps.updCtx (fun c => { c with state := .staged }) h hk (fun _ => rfl)).trans (.of_eq rfl rfl)

theorem keeps_releaseFence (s : State) (n : CtxNum) : Keeps s (s.releaseFence n) := by
  unfold State.releaseFence
  split
  · exact .refl s
  · rename_i c h
    split
    · rename_i hc
      exact Keeps.becomeReady _ h (fun k => k.1 hc.1)
    · exact .refl s

theorem keeps_moveStaged (s : State) (n : CtxNum) : Keeps s (s.moveStaged n) := by
  unfold State.moveStaged
  split
  · exact .refl s
  · rename_i c h
    split
    · rename_i hc
      refine Keeps.place h (fun k => k.2.1 ?_)
      have := hc.1
      simp only [State.ordinaryStaged, Bool.and_eq_true, beq_iff_eq] at this
      exact this.1
    · exact .refl s

theorem keeps_reachMember (s : State) (g : SegId) : Keeps s (s.reachMember g) := by
  unfold State.reachMember
  split
  · rename_i i _
    split
    · refine ⟨id, fun _ _ h _ => h, ?_, ?_⟩ <;>
      · intro _ e _ _ k hm
        rw [State.seg_updSeg]; split <;> exact hm
    · rename_i c l hl
      split
      · rename_i hp
        have hc : c ∈ s.ctxs.filter fun c => c.inChain i && c.state != .ready := by
          have : c ∈ s.liveMembers i := by rw [hl]; exact List.mem_cons_self
          exact this
        have hcs := List.mem_filter.mp hc
        have hk : ¬ c.calm := by
          intro k
          have hch := k.2.2 hp
          simp [Ctx.inChain, hch] at hcs
        by_cases d : s.distinct
        · exact Keeps.updCtx _ (ctx_of_mem d hcs.1) hk (fun _ => rfl)
        · exact ⟨fun k => absurd k d, fun k => absurd k d, fun k => absurd k d, fun k => absurd k d⟩
      · exact .refl s
  · exact .refl s

theorem keeps_takeLock {s : State} {n : CtxNum} (h : s.isStaged n = true) : Keeps s (s.takeLock n) := by
  unfold State.takeLock
  split
  · exact .refl s
  · rename_i c hc
    split
    · exact .refl s
    · refine (Keeps.of_eq (t := s.setLock _) (by simp) (by simp)).trans (Keeps.place (c := c) (by simpa using hc) ?_)
      simp only [State.isStaged, hc, beq_iff_eq] at h
      exact fun k => k.2.1 h

theorem keeps_lockChance (s : State) (q : SqId) : Keeps s (s.lockChance q) := by
  unfold State.lockChance
  split
  · split
    · rename_i hc
      exact (keeps_takeLock hc.2.2).trans (.of_eq (by simp) (by simp))
    · exact .refl s
  · exact .refl s

theorem keeps_offerTurns (l : List SqId) (s : State) : Keeps s (State.offerTurns l s) := by
  induction l generalizing s with
  | nil => exact .refl s
  | cons q l ih =>
    unfold State.offerTurns
    dsimp only
    refine (keeps_lockChance s q).trans ?_
    split
    · exact .of_eq (by simp) (by simp)
    · refine Keeps.trans ?_ (ih _)
      split
      · exact .of_eq (by simp) (by simp)
      · exact .refl _

theorem keeps_ioFetch (s : State) : Keeps s s.ioFetch := by
  unfold State.ioFetch
  dsimp only
  refine (Keeps.of_eq (t := s.endTurnIfOver) (by simp) (by simp)).trans ?_
  split
  · exact .refl _
  · split
    · exact .of_eq (by simp) (by simp)
    · exact keeps_offerTurns _ _

theorem keeps_deleteIfOver (s : State) : Keeps s s.deleteIfOver := by
  unfold State.deleteIfOver
  split
  · split
    · refine .of_eq ?_ (by simp)
      simp only [State.adminDone]
      (repeat' split) <;> simp [State.freeItem]
    · exact .refl s
  · exact .refl s

/-- Settling keeps the contexts' numbers distinct, and the contexts that wait for nothing where they are. -/
theorem settle_keeps (s : State) : Keeps s s.settle := by
  have h1 : Keeps s s.releaseFences := Keeps.foldl _ keeps_releaseFence _ s
  have h2 : ∀ t : State, Keeps t t.moveAllStaged := fun t => Keeps.foldl _ keeps_moveStaged _ t
  have h3 : ∀ t : State, Keeps t t.reachMembers := fun t => Keeps.foldl _ keeps_reachMember _ t
  have h4 : ∀ t : State, Keeps t ((t.postAll.issueEvent).adminFetch) := fun t => .of_eq (by simp) (by simp)
  have h5 : ∀ t : State, Keeps t t.pauseIfQuiet := fun t => .of_eq (by simp) (by simp)
  exact (((((h1.trans (h2 _)).trans (h3 _)).trans (keeps_deleteIfOver _)).trans (h4 _)).trans
    (keeps_ioFetch _)).trans (h5 _)

/-! ### What follows for single tables -/

theorem standing_seg (s : State) (g : SegId) : s.standing.seg g = (s.seg g).standing := get_tableMap _ _ _
theorem standing_sq (s : State) (q : SqId) : s.standing.sq q = (s.sq q).standing := get_tableMap _ _ _
theorem standing_watch (s : State) (w : WatchId) : s.standing.watch w = s.watch w := rfl
theorem standing_pres (s : State) (x : Tgt) : s.standing.pres x = s.pres x := rfl
theorem standing_job (s : State) (x : Tgt) : s.standing.job x = s.job x := rfl
theorem standing_ev (s : State) : s.standing.ev = s.ev.standing := rfl
theorem standing_ctl (s : State) : s.standing.ctl = s.ctl.standing := rfl
theorem standing_cq (s : State) (c : CqId) : s.standing.cq c = (s.cq c).standing := get_tableMap _ _ _

/-- Settling leaves a segment controller as it is but for its lists of contexts and its holder. -/
theorem settle_seg (s : State) (g : SegId) : (s.settle.seg g).standing = (s.seg g).standing := by
  rw [← standing_seg, settle_standing, standing_seg]

/-- Settling leaves a completion queue as it is but for its ready list and its posting in flight. -/
theorem settle_cq (s : State) (c : CqId) : (s.settle.cq c).standing = (s.cq c).standing := by
  rw [← standing_cq, settle_standing, standing_cq]

/-- Settling leaves a submission queue as it is but for its staging slot, unless it is being deleted. -/
theorem settle_sq (s : State) (q : SqId) : (s.settle.sq q).standing = (s.sq q).standing := by
  rw [← standing_sq, settle_standing, standing_sq]

/-- Settling leaves every watch alone. -/
theorem settle_watch (s : State) (w : WatchId) : s.settle.watch w = s.watch w := by
  rw [← standing_watch, settle_standing, standing_watch]

/-- Settling leaves every presence entry alone. -/
theorem settle_pres (s : State) (x : Tgt) : s.settle.pres x = s.pres x := by
  rw [← standing_pres, settle_standing, standing_pres]

/-- Settling leaves the restore pool, the replay jobs, the Interrupt Unit and the time base alone. -/
theorem settle_fields (s : State) :
    s.settle.pool = s.pool ∧ s.settle.jobs = s.jobs ∧ s.settle.irq = s.irq ∧ s.settle.ticks = s.ticks ∧
      s.settle.pending = s.pending := by
  have h := settle_standing s
  have e : ∀ t : State, t.standing.pool = t.pool ∧ t.standing.jobs = t.jobs ∧ t.standing.irq = t.irq ∧
      t.standing.ticks = t.ticks ∧ t.standing.pending = t.pending := fun _ => ⟨rfl, rfl, rfl, rfl, rfl⟩
  obtain ⟨a1, a2, a3, a4, a5⟩ := e s.settle
  obtain ⟨b1, b2, b3, b4, b5⟩ := e s
  rw [h] at a1 a2 a3 a4 a5
  exact ⟨a1.symm.trans b1, a2.symm.trans b2, a3.symm.trans b3, a4.symm.trans b4, a5.symm.trans b5⟩

/-- Settling leaves the Event Unit as it is but for its write in flight. -/
theorem settle_ev (s : State) : s.settle.ev.standing = s.ev.standing := by
  rw [← standing_ev, settle_standing, standing_ev]

/-- Settling leaves engine control as it is, but that PAUSING may become PAUSED. -/
theorem settle_ctl (s : State) : s.settle.ctl.standing = s.ctl.standing := by
  rw [← standing_ctl, settle_standing, standing_ctl]

/-! ### The admin context -/

theorem deletingQueue_congr {s t : State} (h : t.adm.ctx = s.adm.ctx) : t.deletingQueue = s.deletingQueue := by
  simp [State.deletingQueue, h]

theorem adminFetch_ctx (s : State) : s.adminFetch.adm.ctx = s.adm.ctx := by
  unfold State.adminFetch
  dsimp only
  split
  · rename_i h; simp [h.2.2.2.1]
  · rfl

/-- While no DELETE_SQ is in execution, settling leaves the admin context alone. -/
theorem settle_adm (s : State) (h : s.deletingQueue = none) : s.settle.adm.ctx = s.adm.ctx := by
  have h0 : ((s.releaseFences.moveAllStaged).reachMembers).adm = s.adm := by simp
  have h1 : ((s.releaseFences.moveAllStaged).reachMembers).deleteIfOver.adm = s.adm := by
    unfold State.deleteIfOver
    rw [deletingQueue_congr (congrArg Admin.ctx h0), h]
    exact h0
  unfold State.settle
  rw [(State.pauseIfQuiet_frame _).2.2.2.2.2.2.2.2.1, show ∀ t : State, t.ioFetch.adm = t.adm from fun t => by simp,
    adminFetch_ctx, show ∀ t : State, t.issueEvent.adm = t.adm from fun t => by simp,
    show ∀ t : State, t.postAll.adm = t.adm from fun t => by simp, h1]

/-! ### Completions owed -/

theorem owes_updCq {s : State} {c : CqId} {i : ReadyItem} (k : CqId) (f : Cq → Cq)
    (hf : ∀ x : Cq, x.owes i → (f x).owes i) (h : (s.cq c).owes i) : ((s.updCq k f).cq c).owes i := by
  rw [State.cq_updCq]
  split
  · exact hf _ h
  · exact h

theorem owes_append {x : Cq} {i : ReadyItem} (j : ReadyItem) (h : x.owes i) :
    ({ x with ready := x.ready ++ [j] } : Cq).owes i :=
  h.imp (List.mem_append_left _) id

theorem owes_becomeReady {s : State} {c : CqId} {i : ReadyItem} (n : CtxNum) (st : Status) (h : (s.cq c).owes i) :
    ((s.becomeReady n st).cq c).owes i := by
  unfold State.becomeReady
  split
  · exact h
  · dsimp only
    split
    · exact owes_updCq _ _ (fun _ => owes_append _) (by simpa using h)
    · simpa using h

theorem owes_adminDone {s : State} {c : CqId} {i : ReadyItem} (st : Status) (r : Option Half) (h : (s.cq c).owes i) :
    ((s.adminDone st r).cq c).owes i := by
  unfold State.adminDone
  split
  · exact h
  · split
    · exact owes_updCq _ _ (fun _ => owes_append _) h
    · exact h

theorem owes_post {s : State} {c : CqId} {i : ReadyItem} (k : CqId) (h : (s.cq c).owes i) :
    ((s.post k).cq c).owes i := by
  unfold State.post
  dsimp only
  split
  · exact h
  · rename_i j l hj
    split
    · rename_i hc
      rw [State.cq_setCq]
      split
      · rename_i he
        subst he
        rcases h with h | ⟨p, hp, _⟩
        · rw [hj] at h
          rcases List.mem_cons.mp h with h | h
          · exact .inr ⟨_, rfl, h.symm⟩
          · exact .inl h
        · rw [hc.2.2.2] at hp; exact absurd hp (by simp)
      · exact h
    · exact h

theorem foldl_owes {β : Type} {c : CqId} {i : ReadyItem} (f : State → β → State)
    (hf : ∀ s b, (s.cq c).owes i → ((f s b).cq c).owes i) (l : List β) {s : State} (h : (s.cq c).owes i) :
    ((l.foldl f s).cq c).owes i := by
  induction l generalizing s with
  | nil => exact h
  | cons b l ih => exact ih (hf _ _ h)

theorem owes_of_cqs {s t : State} {c : CqId} {i : ReadyItem} (ht : t.cqs = s.cqs) (h : (s.cq c).owes i) :
    (t.cq c).owes i := by
  simpa [State.cq, ht] using h

/-- A completion owed stays owed while a step settles. -/
theorem settle_owes {s : State} {c : CqId} {i : ReadyItem} (h : (s.cq c).owes i) : (s.settle.cq c).owes i := by
  have h1 : ((s.releaseFences).cq c).owes i := by
    refine foldl_owes _ (fun s n h => ?_) _ h
    unfold State.releaseFence
    (repeat' split) <;> first | exact h | exact owes_becomeReady _ _ h
  have h2 : ((s.releaseFences.moveAllStaged.reachMembers).cq c).owes i := owes_of_cqs (by simp) h1
  have h3 : ∀ t : State, (t.cq c).owes i → ((t.deleteIfOver).cq c).owes i := by
    intro t ht
    unfold State.deleteIfOver
    split
    · split
      · exact owes_adminDone _ _ (by simpa using ht)
      · exact ht
    · exact ht
  have h4 : ∀ t : State, (t.cq c).owes i → ((t.postAll).cq c).owes i :=
    fun t ht => foldl_owes _ (fun _ _ h => owes_post _ h) _ ht
  have h5 : ∀ t : State, t.issueEvent.adminFetch.ioFetch.pauseIfQuiet.cqs = t.cqs := fun t => by simp
  exact owes_of_cqs (h5 _) (h4 _ (h3 _ h2))

/-! ### Holders -/

/-- The holder is not a chain. -/
def Holder.notChain : Option Holder → Prop
  | some (.chain _) => False
  | _ => True

/-- A holder that is not a chain stays while a step settles. -/
theorem settle_holder {s : State} {g : SegId} (h : Holder.notChain (s.seg g).holder) :
    (s.settle.seg g).holder = (s.seg g).holder := by
  have hu : ∀ (t : State) (k : SegId) (f : SegCtl → SegCtl), (∀ y, (f y).holder = y.holder) →
      ((t.updSeg k f).seg g).holder = (t.seg g).holder := by
    intro t k f hf
    rw [State.seg_updSeg]; split <;> simp_all
  have hul : ∀ (t : State) (c : Ctx), ((t.unlist c).seg g).holder = (t.seg g).holder := by
    intro t c
    unfold State.unlist
    simp only [State.updSq_seg]
    exact hu _ _ _ (fun _ => rfl)
  have hbr : ∀ (t : State) (n : CtxNum) (st : Status), ((t.becomeReady n st).seg g).holder = (t.seg g).holder := by
    intro t n st
    unfold State.becomeReady
    split
    · rfl
    · dsimp only
      split <;> simp [hul]
  have hpl : ∀ (t : State) (n : CtxNum), ((t.place n).seg g).holder = (t.seg g).holder := by
    intro t n
    unfold State.place
    split
    · rfl
    · split
      · simp only [State.updSq_seg]
        rw [hu _ _ (fun y => { y with pendingList := y.pendingList ++ [n] }) (fun _ => rfl)]
        rfl
      · rfl
  have hlc : ∀ (t : State) (q : SqId), ((t.lockChance q).seg g).holder = (t.seg g).holder := by
    intro t q
    unfold State.lockChance State.takeLock
    dsimp only
    (repeat' split) <;> simp [hpl]
  have hot : ∀ (l : List SqId) (t : State), ((State.offerTurns l t).seg g).holder = (t.seg g).holder := by
    intro l
    induction l with
    | nil => intro t; rfl
    | cons q l ih =>
      intro t
      unfold State.offerTurns
      dsimp only
      split
      · simp [hlc]
      · rw [ih]; split <;> simp [hlc]
  have hio : ∀ t : State, (t.ioFetch.seg g).holder = (t.seg g).holder := by
    intro t
    unfold State.ioFetch
    dsimp only
    (repeat' split) <;> simp [hot]
  have hfold : ∀ {β : Type} (f : State → β → State) (_ : ∀ t b, ((f t b).seg g).holder = (t.seg g).holder)
      (l : List β) (t : State), ((l.foldl f t).seg g).holder = (t.seg g).holder := by
    intro β f hf l t
    exact foldl_same (fun t : State => (t.seg g).holder) f hf l t
  have h1 : ((s.releaseFences).seg g).holder = (s.seg g).holder := by
    refine hfold _ ?_ _ _
    intro t n
    unfold State.releaseFence
    (repeat' split) <;> simp [hbr]
  have h2 : ∀ t : State, ((t.moveAllStaged).seg g).holder = (t.seg g).holder := by
    intro t
    refine hfold _ ?_ _ _
    intro t n
    unfold State.moveStaged
    (repeat' split) <;> simp [hpl]
  have h3 : ∀ t : State, Holder.notChain (t.seg g).holder → ((t.reachMembers).seg g).holder = (t.seg g).holder := by
    have key : ∀ (l : List SegId) (t : State), Holder.notChain (t.seg g).holder →
        ((l.foldl State.reachMember t).seg g).holder = (t.seg g).holder := by
      intro l
      induction l with
      | nil => intro t _; rfl
      | cons k l ih =>
        intro t ht
        have hk : ((t.reachMember k).seg g).holder = (t.seg g).holder := by
          unfold State.reachMember
          split
          · rename_i id hid
            split
            · rw [State.seg_updSeg]
              split
              · rename_i he; subst he; rw [hid] at ht; exact ht.elim
              · rfl
            · split <;> simp
          · rfl
        rw [List.foldl_cons, ih _ (by rwa [hk]), hk]
    exact key _
  unfold State.settle
  have e := h3 s.releaseFences.moveAllStaged (by rw [h2, h1]; exact h)
  have hp : ∀ t : State, (t.pauseIfQuiet.seg g) = t.seg g := fun t => by simp
  have ha : ∀ t : State, (t.adminFetch.seg g) = t.seg g := fun t => by simp
  have hi : ∀ t : State, (t.issueEvent.seg g) = t.seg g := fun t => by simp
  have hpo : ∀ t : State, (t.postAll.seg g) = t.seg g := fun t => by simp
  have hd : ∀ t : State, (t.deleteIfOver.seg g) = t.seg g := fun t => by simp
  rw [hp, hio, ha, hi, hpo, hd, e, h2, h1]

end Sys2Proof.Machine
end

