-- ==== Sys2Proof/Laws/Ends.lean ====
section
/-! SUPPORT. What the ending of contexts can do, said once: it touches the contexts, the lists and slots they stand in, the
holders, the chains open on queues and the accesses to host memory, and nothing else (`State.core`). -/

namespace Sys2Proof.Machine

/-- A submission queue but for its staging slot and the chain open on it. -/
def Sq.core (x : Sq) : Sq := { x with staging := none, chain := none }

/-- The state but for the contexts, the lists and slots they stand in, the holders, the open chains and the host link. -/
def State.core (s : State) : State :=
  { s with
    sqs := tableMap Sq.core s.sqs
    cqs := tableMap Cq.standing s.cqs
    ctxs := []
    segs := tableMap SegCtl.standing s.segs
    link := { next := 0, outstanding := [] } }

theorem core_congr {s t : State} (hp : t.pending = s.pending) (ht : t.ticks = s.ticks) (hc : t.ctl = s.ctl)
    (hq : tableMap Sq.core t.sqs = tableMap Sq.core s.sqs)
    (hk : tableMap Cq.standing t.cqs = tableMap Cq.standing s.cqs) (ha : t.arb = s.arb) (hl : t.lock = s.lock)
    (hn : t.nextChain = s.nextChain) (hm : t.adm = s.adm)
    (hg : tableMap SegCtl.standing t.segs = tableMap SegCtl.standing s.segs) (hpr : t.presence = s.presence)
    (hw : t.watches = s.watches) (hpl : t.pool = s.pool) (hj : t.jobs = s.jobs) (he : t.ev = s.ev) (hi : t.irq = s.irq) :
    t.core = s.core := by
  simp only [State.core, hp, ht, hc, hq, hk, ha, hl, hn, hm, hg, hpr, hw, hpl, hj, he, hi]

@[simp] theorem core_setCtxs (s : State) (l : List Ctx) : (s.setCtxs l).core = s.core := rfl
@[simp] theorem core_updCtx (s : State) (n : CtxNum) (f : Ctx → Ctx) : (s.updCtx n f).core = s.core := rfl
@[simp] theorem core_freeCtx (s : State) (n : CtxNum) : (s.freeCtx n).core = s.core := rfl
@[simp] theorem core_issue (s : State) (a : Access) (p : Addr) (b : List Byte) : (s.issue a p b).core = s.core := rfl
@[simp] theorem core_retire (s : State) (t : Nat) : (s.retire t).core = s.core := rfl

theorem core_updSeg (s : State) (g : SegId) (f : SegCtl → SegCtl) (h : (f (s.seg g)).standing = (s.seg g).standing) :
    (s.updSeg g f).core = s.core :=
  core_congr rfl rfl rfl rfl rfl rfl rfl rfl rfl (tableMap_set _ _ _ _ h) rfl rfl rfl rfl rfl rfl

theorem core_updSq (s : State) (q : SqId) (f : Sq → Sq) (h : (f (s.sq q)).core = (s.sq q).core) :
    (s.updSq q f).core = s.core :=
  core_congr rfl rfl rfl (tableMap_set _ _ _ _ h) rfl rfl rfl rfl rfl rfl rfl rfl rfl rfl rfl rfl

theorem core_updCq (s : State) (c : CqId) (f : Cq → Cq) (h : (f (s.cq c)).standing = (s.cq c).standing) :
    (s.updCq c f).core = s.core :=
  core_congr rfl rfl rfl rfl (tableMap_set _ _ _ _ h) rfl rfl rfl rfl rfl rfl rfl rfl rfl rfl rfl

theorem core_mapSqs (s : State) (f : Sq → Sq) (h : ∀ x, (f x).core = x.core) : (s.mapSqs f).core = s.core :=
  core_congr rfl rfl rfl (by simp only [State.mapSqs, tableMap_tableMap, h]) rfl rfl rfl rfl rfl rfl rfl rfl rfl rfl rfl
    rfl

@[simp] theorem Sq.core_unstage (x : Sq) (n : CtxNum) : (x.unstage n).core = x.core := by
  unfold Sq.unstage; (repeat' split) <;> rfl

@[simp] theorem Sq.core_failChain (x : Sq) (id : Nat) : (x.failChain id).core = x.core := by
  unfold Sq.failChain; (repeat' split) <;> rfl

@[simp] theorem Sq.core_failChainOn (x : Sq) (g : SegId) : (x.failChainOn g).core = x.core := by
  unfold Sq.failChainOn; (repeat' split) <;> rfl

@[simp] theorem SegCtl.standing_endHoldOf (y : SegCtl) (n : CtxNum) : (y.endHoldOf n).standing = y.standing := by
  unfold SegCtl.endHoldOf; split <;> rfl

@[simp] theorem SegCtl.standing_endHoldOfChain (y : SegCtl) (id : Nat) :
    (y.endHoldOfChain id).standing = y.standing := by
  unfold SegCtl.endHoldOfChain; split <;> rfl

theorem foldl_core {β : Type} (f : State → β → State) (h : ∀ s b, (f s b).core = s.core) (l : List β) (s : State) :
    (l.foldl f s).core = s.core := foldl_same State.core f h l s

@[simp] theorem core_unlist (s : State) (c : Ctx) : (s.unlist c).core = s.core := by
  unfold State.unlist
  rw [core_updSq _ _ _ (by simp), core_updSeg _ _ _ (by simp)]

@[simp] theorem core_becomeReady (s : State) (n : CtxNum) (st : Status) : (s.becomeReady n st).core = s.core := by
  unfold State.becomeReady
  split
  · rfl
  · dsimp only
    split
    · rw [core_updCq _ _ _ rfl]; simp
    · simp

@[simp] theorem core_writeBuffer (s : State) (c : Ctx) (st : Status) : (s.writeBuffer c st).core = s.core := by
  unfold State.writeBuffer
  rw [core_updSeg _ _ _ rfl]; simp

@[simp] theorem core_finish (s : State) (n : CtxNum) (st : Status) : (s.finish n st).core = s.core := by
  unfold State.finish; (repeat' split) <;> simp

@[simp] theorem core_cancel (s : State) (n : CtxNum) (st : Status) : (State.cancel st s n).core = s.core := by
  unfold State.cancel
  split
  · rfl
  · dsimp only
    rw [core_finish]
    split
    · split
      · exact core_updSeg _ _ _ (by simp)
      · rw [core_updSeg _ _ _ (by simp), core_updSeg _ _ _ (by simp)]
    · exact core_updSeg _ _ _ (by simp)

@[simp] theorem core_abortChain (s : State) (id : Nat) : (s.abortChain id).core = s.core := by
  unfold State.abortChain
  rw [core_mapSqs _ _ (by simp), foldl_core _ (fun _ _ => core_cancel _ _ _)]

@[simp] theorem core_memberEnded (s : State) (c : Ctx) (st : Status) : (s.memberEnded c st).core = s.core := by
  unfold State.memberEnded
  split
  · rfl
  · split
    · rfl
    · rw [core_abortChain, core_updSeg _ _ _ (by simp)]

@[simp] theorem core_endCommand (s : State) (n : CtxNum) (st : Status) : (s.endCommand n st).core = s.core := by
  unfold State.endCommand
  split
  · rfl
  · dsimp only
    split
    · rw [core_finish, core_updSeg _ _ _ (by simp)]
    · rw [core_memberEnded, core_finish, core_updSeg _ _ _ (by simp)]

@[simp] theorem core_endAborted (s : State) (n : CtxNum) : (s.endAborted n).core = s.core := by
  unfold State.endAborted
  split
  · rfl
  · dsimp only; split <;> simp

@[simp] theorem core_discard (s : State) (n : CtxNum) : (s.discard n).core = s.core := by
  unfold State.discard; split <;> simp

@[simp] theorem core_tearDownCtx (s : State) (n : CtxNum) (st : Status) : (State.tearDownCtx st s n).core = s.core := by
  unfold State.tearDownCtx; (repeat' split) <;> simp

@[simp] theorem core_endContexts (s : State) (g : SegId) (st : Status) : (s.endContexts g st).core = s.core := by
  unfold State.endContexts
  rw [core_mapSqs _ _ (by simp), foldl_core _ (fun _ _ => core_tearDownCtx _ _ _)]

/-! ### Single tables -/

theorem core_seg (s : State) (g : SegId) : s.core.seg g = (s.seg g).standing := get_tableMap _ _ _
theorem core_sq (s : State) (q : SqId) : s.core.sq q = (s.sq q).core := get_tableMap _ _ _
theorem core_cq (s : State) (c : CqId) : s.core.cq c = (s.cq c).standing := get_tableMap _ _ _

/-- Two states with one core have segment controllers that differ at most in their lists of contexts and holders. -/
theorem seg_of_core {s t : State} (h : t.core = s.core) (g : SegId) : (t.seg g).standing = (s.seg g).standing := by
  rw [← core_seg, h, core_seg]

/-- Two states with one core have submission queues that differ at most in staging slots and open chains. -/
theorem sq_of_core {s t : State} (h : t.core = s.core) (q : SqId) : (t.sq q).core = (s.sq q).core := by
  rw [← core_sq, h, core_sq]

/-- Two states with one core have completion queues that differ at most in ready lists and postings in flight. -/
theorem cq_of_core {s t : State} (h : t.core = s.core) (c : CqId) : (t.cq c).standing = (s.cq c).standing := by
  rw [← core_cq, h, core_cq]

theorem sq_state_of_core {s t : State} (h : t.core = s.core) (q : SqId) : (t.sq q).state = (s.sq q).state := by
  have := congrArg Sq.state (sq_of_core h q)
  exact this
theorem sq_bound_of_core {s t : State} (h : t.core = s.core) (q : SqId) : (t.sq q).bound = (s.sq q).bound := by
  have := congrArg Sq.bound (sq_of_core h q)
  exact this
theorem cq_state_of_core {s t : State} (h : t.core = s.core) (c : CqId) : (t.cq c).state = (s.cq c).state := by
  have := congrArg Cq.state (cq_of_core h c)
  exact this
theorem seg_state_of_core {s t : State} (h : t.core = s.core) (g : SegId) : (t.seg g).state = (s.seg g).state := by
  have := congrArg SegCtl.state (seg_of_core h g)
  exact this

end Sys2Proof.Machine
end

