-- ==== Sys2Proof/Laws/Admin.lean ====
section
/-! SUPPORT. Taking an admin entry and completing its command, said once: an entry that is taken runs its own rule on the
state with the entry in the admin context (`adminEntry_takes`), and a command that completes or waits leaves the rest as it
stands (`adminDone_settles`, `adminWaits_settles`). -/

namespace Sys2Proof.Machine

/-- The state with the admin entry taken: its command in execution, SQ0's head moved (R45, R86). -/
def State.entered (s : State) (tag : Nat) (r : Record) : State := (s.retire tag).adminEnter r

@[simp] theorem entered_standing (s : State) (tag : Nat) (r : Record) :
    (s.entered tag r).standing = (s.headMoved 0).standing := rfl
@[simp] theorem entered_ctx (s : State) (tag : Nat) (r : Record) :
    (s.entered tag r).adm.ctx = some { record := r, progress := .executing, status := none, result := none } := rfl
@[simp] theorem entered_read (s : State) (tag : Nat) (r : Record) : (s.entered tag r).adm.read = none := rfl
@[simp] theorem entered_pending (s : State) (tag : Nat) (r : Record) : (s.entered tag r).pending = s.pending := rfl
@[simp] theorem entered_ticks (s : State) (tag : Nat) (r : Record) : (s.entered tag r).ticks = s.ticks := rfl
@[simp] theorem entered_now (s : State) (tag : Nat) (r : Record) : (s.entered tag r).now = s.now := rfl
@[simp] theorem entered_ctl (s : State) (tag : Nat) (r : Record) : (s.entered tag r).ctl = s.ctl := rfl
@[simp] theorem entered_cqs (s : State) (tag : Nat) (r : Record) : (s.entered tag r).cqs = s.cqs := rfl
@[simp] theorem entered_arb (s : State) (tag : Nat) (r : Record) : (s.entered tag r).arb = s.arb := rfl
@[simp] theorem entered_lock (s : State) (tag : Nat) (r : Record) : (s.entered tag r).lock = s.lock := rfl
@[simp] theorem entered_ctxs (s : State) (tag : Nat) (r : Record) : (s.entered tag r).ctxs = s.ctxs := rfl
@[simp] theorem entered_segs (s : State) (tag : Nat) (r : Record) : (s.entered tag r).segs = s.segs := rfl
@[simp] theorem entered_presence (s : State) (tag : Nat) (r : Record) : (s.entered tag r).presence = s.presence := rfl
@[simp] theorem entered_watches (s : State) (tag : Nat) (r : Record) : (s.entered tag r).watches = s.watches := rfl
@[simp] theorem entered_pool (s : State) (tag : Nat) (r : Record) : (s.entered tag r).pool = s.pool := rfl
@[simp] theorem entered_jobs (s : State) (tag : Nat) (r : Record) : (s.entered tag r).jobs = s.jobs := rfl
@[simp] theorem entered_ev (s : State) (tag : Nat) (r : Record) : (s.entered tag r).ev = s.ev := rfl
@[simp] theorem entered_irq (s : State) (tag : Nat) (r : Record) : (s.entered tag r).irq = s.irq := rfl
@[simp] theorem entered_next (s : State) (tag : Nat) (r : Record) : (s.entered tag r).link.next = s.link.next := rfl
@[simp] theorem entered_cq (s : State) (tag : Nat) (r : Record) (c : CqId) : (s.entered tag r).cq c = s.cq c := rfl
@[simp] theorem entered_seg (s : State) (tag : Nat) (r : Record) (g : SegId) : (s.entered tag r).seg g = s.seg g := rfl
@[simp] theorem entered_watch (s : State) (tag : Nat) (r : Record) (w : WatchId) :
    (s.entered tag r).watch w = s.watch w := rfl
@[simp] theorem entered_pres (s : State) (tag : Nat) (r : Record) (x : Tgt) : (s.entered tag r).pres x = s.pres x := rfl
@[simp] theorem entered_job (s : State) (tag : Nat) (r : Record) (x : Tgt) : (s.entered tag r).job x = s.job x := rfl
@[simp] theorem entered_restoreList (s : State) (tag : Nat) (r : Record) (x : Tgt) :
    (s.entered tag r).restoreList x = s.restoreList x := rfl
@[simp] theorem entered_deletingQueue (s : State) (tag : Nat) (r : Record) :
    (s.entered tag r).deletingQueue = none := rfl

theorem entered_sq (s : State) (tag : Nat) (r : Record) (q : SqId) (h : q ≠ 0) : (s.entered tag r).sq q = s.sq q := by
  show State.sq (State.setSq _ 0 _) q = _
  rw [State.sq_setSq, if_neg (Ne.symm h)]; rfl

theorem entered_sq_state (s : State) (tag : Nat) (r : Record) (q : SqId) :
    ((s.entered tag r).sq q).state = (s.sq q).state := by
  by_cases h : q = 0
  · subst h
    show (State.sq (State.setSq _ 0 _) 0).state = _
    rw [State.sq_setSq, if_pos rfl]; rfl
  · rw [entered_sq _ _ _ _ h]

theorem entered_sq_bound (s : State) (tag : Nat) (r : Record) (q : SqId) :
    ((s.entered tag r).sq q).bound = (s.sq q).bound := by
  by_cases h : q = 0
  · subst h
    show (State.sq (State.setSq _ 0 _) 0).bound = _
    rw [State.sq_setSq, if_pos rfl]; rfl
  · rw [entered_sq _ _ _ _ h]

/-- An admin entry that is taken runs its command's own rule. -/
theorem adminEntry_takes {s : State} {op : Byte} {tag : Nat} {b : Body} (run : Record → State → State)
    (h : s.takesAdmin tag (Record.of op b)) :
    s.adminEntry op tag b run = run (Record.of op b) (s.entered tag (Record.of op b)) := by
  obtain ⟨h1, h2, _, h4, h5⟩ := h
  unfold State.adminEntry
  simp [h1, h2, h4, h5, State.entered]

/-- A command that completes: the admin context and CQ0 say so, and the rest stands. -/
theorem adminDone_settles {u : State} {a : AdminCtx} (st : Status) (res : Option Half) (ha : u.adm.ctx = some a)
    (hc : (u.cq 0).state = .active) :
    (u.adminDone st res).settle.adminCompleted a.record st res ∧
      (u.adminDone st res).settle.standing = u.standing := by
  have hd : (u.adminDone st res).adm.ctx =
      some { record := a.record, progress := .completed, status := some st, result := res } := by
    unfold State.adminDone
    simp only [ha, hc, if_true]
    rfl
  have hq : (u.adminDone st res).deletingQueue = none := by simp [State.deletingQueue, hd]
  refine ⟨⟨?_, ?_⟩, ?_⟩
  · rw [settle_adm _ hq, hd]
  · apply settle_owes
    unfold State.adminDone
    simp only [ha, hc, if_true]
    rw [State.cq_updCq, if_pos rfl]
    exact .inl (List.mem_append_right _ List.mem_cons_self)
  · rw [settle_standing, standing_adminDone]

/-- A command that waits, but for DELETE_SQ: the admin context says for what, and the rest stands. -/
theorem adminWaits_settles {u : State} {r : Record} {p : AdminProgress} (h : u.adminWaiting r p)
    (hp : ∀ q, p ≠ .deletingSq q) : u.settle.adminWaiting r p ∧ u.settle.standing = u.standing := by
  have hq : u.deletingQueue = none := by
    unfold State.deletingQueue
    rw [show u.adm.ctx = _ from h]
    cases p <;> first | rfl | exact absurd rfl (hp _)
  refine ⟨?_, settle_standing u⟩
  unfold State.adminWaiting
  rw [settle_adm _ hq]
  exact h

/-- A command that completes without any effect of its own. -/
theorem adminOnly_of_done {s : State} {tag : Nat} {r : Record} (st : Status) (hc : (s.cq 0).state = .active) :
    s.adminOnly ((s.entered tag r).adminDone st none).settle r st := by
  obtain ⟨h1, h2⟩ := adminDone_settles st none (entered_ctx s tag r) (by simpa using hc)
  exact ⟨h1, by rw [h2, entered_standing]⟩

end Sys2Proof.Machine
end

