-- ==== Sys2Proof/Laws/Link.lean ====
section
/-! SUPPORT. Accesses to host memory. While a step settles, those outstanding stay, and the tags only rise
(`settle_grows`). Every access outstanding after an operation was outstanding before it or has been issued in it
(`Issues`), and one that fails is no longer outstanding (`issues_failAccess`). -/

namespace Sys2Proof.Machine

/-- From `s` to `t` no access outstanding is forgotten, and the next tag does not fall. -/
structure Grows (s t : State) : Prop where
  outstanding : ∀ d ∈ s.link.outstanding, d ∈ t.link.outstanding
  next : s.link.next ≤ t.link.next

theorem Grows.refl (s : State) : Grows s s := ⟨fun _ h => h, le_rfl⟩

theorem Grows.trans {s t u : State} (h : Grows s t) (k : Grows t u) : Grows s u :=
  ⟨fun d m => k.outstanding d (h.outstanding d m), h.next.trans k.next⟩

theorem Grows.of_eq {s t : State} (h : t.link = s.link) : Grows s t := by
  refine ⟨?_, ?_⟩ <;> simp [h]

theorem Grows.foldl {β : Type} (f : State → β → State) (h : ∀ s b, Grows s (f s b)) (l : List β) (s : State) :
    Grows s (l.foldl f s) := by
  induction l generalizing s with
  | nil => exact .refl s
  | cons b l ih => exact (h s b).trans (ih _)

theorem Grows.issue (s : State) (a : Access) (p : Addr) (b : List Byte) : Grows s (s.issue a p b) :=
  ⟨fun _ h => List.mem_append_left _ h, Nat.le_succ _⟩

theorem grows_post (s : State) (c : CqId) : Grows s (s.post c) := by
  unfold State.post
  dsimp only
  split
  · exact .refl s
  · split
    · exact (Grows.issue s _ _ _).trans (.of_eq rfl)
    · exact .refl s

theorem grows_issueEvent (s : State) : Grows s s.issueEvent := by
  unfold State.issueEvent
  (repeat' split) <;> first | exact .refl s | exact (Grows.issue s _ _ _).trans (.of_eq rfl)

theorem grows_adminFetch (s : State) : Grows s s.adminFetch := by
  unfold State.adminFetch
  dsimp only
  split
  · exact (Grows.issue s _ _ _).trans (.of_eq rfl)
  · exact .refl s

theorem grows_issueRead (s : State) (q : SqId) : Grows s (s.issueRead q) :=
  (Grows.issue s _ _ _).trans (.of_eq rfl)

theorem grows_offerTurns (l : List SqId) (s : State) : Grows s (State.offerTurns l s) := by
  induction l generalizing s with
  | nil => exact .refl s
  | cons q l ih =>
    unfold State.offerTurns
    dsimp only
    refine (Grows.of_eq (t := s.lockChance q) (by simp)).trans ?_
    split
    · exact grows_issueRead _ _
    · refine Grows.trans ?_ (ih _)
      split
      · exact .of_eq (by simp)
      · exact .refl _

theorem grows_ioFetch (s : State) : Grows s s.ioFetch := by
  unfold State.ioFetch
  dsimp only
  refine (Grows.of_eq (t := s.endTurnIfOver) (by simp)).trans ?_
  split
  · exact .refl _
  · split
    · exact grows_issueRead _ _
    · exact grows_offerTurns _ _

/-- While a step settles no access outstanding is forgotten, and the next tag does not fall. -/
theorem settle_grows (s : State) : Grows s s.settle := by
  have h1 : Grows s (s.releaseFences.moveAllStaged.reachMembers).deleteIfOver := .of_eq (by simp)
  have h2 : ∀ t : State, Grows t t.postAll := fun t => Grows.foldl _ grows_post _ t
  have h3 : ∀ t : State, Grows t t.pauseIfQuiet := fun t => .of_eq (by simp)
  exact ((((h1.trans (h2 _)).trans (grows_issueEvent _)).trans (grows_adminFetch _)).trans (grows_ioFetch _)).trans
    (h3 _)

/-! ### What may be outstanding -/

/-- From `s` to `t` no time passes, and every access outstanding was outstanding before or has just been issued. -/
structure Issues (s t : State) : Prop where
  ticks : t.ticks = s.ticks
  outstanding : ∀ d ∈ t.link.outstanding, d ∈ s.link.outstanding ∨ d.issued = s.ticks

theorem Issues.refl (s : State) : Issues s s := ⟨rfl, fun _ h => .inl h⟩

theorem Issues.trans {s t u : State} (h : Issues s t) (k : Issues t u) : Issues s u where
  ticks := k.ticks.trans h.ticks
  outstanding _ m := (k.outstanding _ m).elim (h.outstanding _) fun e => .inr (e.trans h.ticks)

theorem Issues.of_eq {s t : State} (hl : t.link = s.link) (ht : t.ticks = s.ticks) : Issues s t :=
  ⟨ht, fun _ h => .inl (hl ▸ h)⟩

theorem Issues.foldl {β : Type} (f : State → β → State) (h : ∀ s b, Issues s (f s b)) (l : List β) (s : State) :
    Issues s (l.foldl f s) := by
  induction l generalizing s with
  | nil => exact .refl s
  | cons b l ih => exact (h s b).trans (ih _)

theorem Issues.issue (s : State) (a : Access) (p : Addr) (b : List Byte) : Issues s (s.issue a p b) where
  ticks := rfl
  outstanding _ h := by
    rcases List.mem_append.mp h with h | h
    · exact .inl h
    · exact .inr (by simp_all)

theorem Issues.retire (s : State) (tag : Nat) : Issues s (s.retire tag) :=
  ⟨rfl, fun _ h => .inl (List.mem_of_mem_filter h)⟩

theorem issues_finish (s : State) (n : CtxNum) (st : Status) : Issues s (s.finish n st) := by
  unfold State.finish
  split
  · exact .refl s
  · split
    · exact (Issues.issue s _ _ _).trans (.of_eq rfl rfl)
    · exact .of_eq (by simp) (by simp)

theorem issues_cancel (s : State) (st : Status) (n : CtxNum) : Issues s (State.cancel st s n) := by
  unfold State.cancel
  split
  · exact .refl s
  · refine Issues.trans ?_ (issues_finish _ _ _)
    (repeat' split) <;> exact .of_eq (by simp) (by simp)

theorem issues_abortChain (s : State) (id : Nat) : Issues s (s.abortChain id) :=
  (Issues.foldl _ (fun s n => issues_cancel s _ n) _ s).trans (.of_eq rfl rfl)

theorem issues_memberEnded (s : State) (c : Ctx) (st : Status) : Issues s (s.memberEnded c st) := by
  unfold State.memberEnded
  (repeat' split) <;> first | exact .refl s | exact (Issues.of_eq (by simp) (by simp)).trans (issues_abortChain _ _)

theorem issues_endCommand (s : State) (n : CtxNum) (st : Status) : Issues s (s.endCommand n st) := by
  unfold State.endCommand
  split
  · exact .refl s
  · rename_i c _
    have h : Issues s ((s.updSeg c.seg (·.endHoldOf n)).finish n st) :=
      (Issues.of_eq (by simp) (by simp)).trans (issues_finish _ _ _)
    dsimp only
    split
    · exact h
    · exact h.trans (issues_memberEnded _ _ _)

theorem issues_sqError (s : State) (k : QueueCause) (q : SqId) : Issues s (State.sqError k s q) := by
  unfold State.sqError
  dsimp only
  have h : Issues s (((s.setSq q { s.sq q with state := .error }).handEvent
      (.queueError false q.val k)).releaseLock q) := .of_eq (by simp) (by simp)
  (repeat' split) <;> first | exact .refl s | exact h | exact h.trans (issues_abortChain _ _)

theorem issues_cqError (s : State) (c : CqId) (k : QueueCause) : Issues s (s.cqError c k) := by
  have h : Issues s (s.setCq c { s.cq c with state := .error, ready := [] }) := .of_eq rfl rfl
  have free := h.trans (Issues.foldl State.freeItem (fun s i => .of_eq (by simp) (by simp)) (s.cq c).ready _)
  have event : ∀ (u : State) (e : Event), Issues u (u.handEvent e) := fun u e => .of_eq (by simp) (by simp)
  exact (free.trans (event _ _)).trans (Issues.foldl _ (fun s q => issues_sqError s _ q) _ _)

theorem issues_tearDownCtx (s : State) (st : Status) (n : CtxNum) : Issues s (State.tearDownCtx st s n) := by
  unfold State.tearDownCtx
  (repeat' split) <;> first | exact .refl s | exact issues_cancel _ _ _ | exact .of_eq rfl rfl

theorem issues_endContexts (s : State) (g : SegId) (st : Status) : Issues s (s.endContexts g st) :=
  (Issues.foldl _ (fun s n => issues_tearDownCtx s st n) _ s).trans (.of_eq rfl rfl)

/-- The only accesses that the fault of a segment issues are the buffer writes of its contexts. -/
theorem issues_faultSegment (s : State) (g : SegId) : Issues s (s.faultSegment g) := by
  have h : Issues s ((((s.updSeg g fun y => { y with state := .faulted, stuckCount := 0 }).handEvent
      (.segmentFaulted g)).haltWatches g).endContexts g .segmentFault) :=
    (Issues.of_eq (by simp) (by simp)).trans (issues_endContexts _ g _)
  exact h.trans (Issues.of_eq (t := s.faultSegment g) (by simp [State.faultSegment]) (by simp [State.faultSegment]))

/-- Settling issues accesses and ends none. -/
theorem issues_settle (s : State) : Issues s s.settle := by
  have post : ∀ (s : State) (c : CqId), Issues s (s.post c) := by
    intro s c
    unfold State.post
    dsimp only
    (repeat' split) <;> first | exact .refl s | exact (Issues.issue s _ _ _).trans (.of_eq rfl rfl)
  have event : ∀ s : State, Issues s s.issueEvent := by
    intro s
    unfold State.issueEvent
    (repeat' split) <;> first | exact .refl s | exact (Issues.issue s _ _ _).trans (.of_eq rfl rfl)
  have admin : ∀ s : State, Issues s s.adminFetch := by
    intro s
    unfold State.adminFetch
    dsimp only
    split <;> first | exact .refl s | exact (Issues.issue s _ _ _).trans (.of_eq rfl rfl)
  have read : ∀ (s : State) (q : SqId), Issues s (s.issueRead q) :=
    fun s _ => (Issues.issue s _ _ _).trans (.of_eq rfl rfl)
  have turns : ∀ (l : List SqId) (s : State), Issues s (State.offerTurns l s) := by
    intro l
    induction l with
    | nil => exact .refl
    | cons q l ih =>
      intro s
      unfold State.offerTurns
      dsimp only
      refine (Issues.of_eq (t := s.lockChance q) (by simp) (by simp)).trans ?_
      split
      · exact read _ _
      · refine Issues.trans ?_ (ih _)
        split <;> exact .of_eq (by simp) (by simp)
  have io : ∀ s : State, Issues s s.ioFetch := by
    intro s
    unfold State.ioFetch
    dsimp only
    refine (Issues.of_eq (t := s.endTurnIfOver) (by simp) (by simp)).trans ?_
    (repeat' split) <;> first | exact .refl _ | exact read _ _ | exact turns _ _
  have posts : ∀ s : State, Issues s s.postAll := Issues.foldl _ post _
  have pause : ∀ s : State, Issues s s.pauseIfQuiet := fun s => .of_eq (by simp) (by simp)
  have h : Issues s (s.releaseFences.moveAllStaged.reachMembers).deleteIfOver := .of_eq (by simp) (by simp)
  exact ((((h.trans (posts _)).trans (event _)).trans (admin _)).trans (io _)).trans (pause _)

/-! ### Failures -/

/-- An access that fails is no longer outstanding, and what its failure does issues no access but new ones. -/
theorem issues_failAccess (s : State) (a : Access) (tag : Nat) : Issues (s.retire tag) (s.failAccess a tag) := by
  cases a with
  | entryRead q =>
    have read : Issues (s.retire tag) (s.discardRead tag) := .of_eq rfl rfl
    simp only [State.failAccess, State.readFailed]
    split
    · split
      · exact .of_eq (by simp) (by simp)
      · exact .refl _
    · split
      · exact read.trans (issues_sqError _ _ _)
      · exact .refl _
  | completion c =>
    simp only [State.failAccess, State.postingFailed]
    split
    · exact .refl _
    · rename_i i _
      have free : ∀ (u : State) (x : Cq), Issues u ((u.setCq c x).freeItem i) := fun u x => .of_eq (by simp) (by simp)
      split
      · exact .of_eq (by simp) (by simp)
      · split
        · exact (free _ _).trans (issues_cqError _ _ _)
        · exact free _ _
  | buffer n =>
    have ready : ∀ (u : State) (st : Status), Issues u (u.becomeReady n st) := fun u st => .of_eq (by simp) (by simp)
    simp only [State.failAccess, State.bufferWritten]
    (repeat' split) <;>
      first | exact .refl _ | exact ready _ _ | exact (ready _ _).trans (issues_memberEnded _ _ _)
  | result =>
    simp only [State.failAccess, State.resultWritten]
    split
    · exact .of_eq (by simp) (by simp)
    · exact .refl _
  | event =>
    simp only [State.failAccess, State.eventFailed]
    split
    · exact .refl _
    · split
      · exact .of_eq rfl rfl
      · exact .refl _

theorem issues_take (s : State) (e : TimedEvent) : Issues s (s.take e) := by
  cases e with
  | retry r =>
    cases r <;>
      simp only [State.take, State.offerRetry, State.offerHostRetry, State.listPollRetry, State.offerResponse,
        State.offerReplay] <;>
      (repeat' split) <;> first | exact .refl _ | exact .of_eq rfl rfl
  | interval n =>
    simp only [State.take, State.offerPollWait]
    split <;> exact .of_eq rfl rfl
  | deadline n =>
    simp only [State.take, State.passDeadline]
    (repeat' split) <;> first | exact .refl _ | exact issues_endCommand _ _ _ | exact .of_eq rfl rfl
  | due w =>
    simp only [State.take, State.becomeDue]
    (repeat' split) <;> first | exact .refl _ | exact .of_eq rfl rfl
  | limit a tag => exact (Issues.retire s tag).trans (issues_failAccess s a tag)

end Sys2Proof.Machine
end

