-- ==== Sys2Proof/Laws/Clock.lean ====
section
/-! SUPPORT. What passing time leaves alone, and what it can do, said once: samples touch the tick count and the stuck
counts, a stuck segment is torn down, timed events leave the restore pool and the Interrupt Unit alone, and once those that have
come are taken, no access to host memory that is 50 ms old is outstanding (`takeTimed_young`). -/

namespace Sys2Proof.Machine

/-! ### Samples of all lines -/

@[simp] theorem State.sampleLines_ticks (s : State) (low : LineReads) : (s.sampleLines low).ticks = s.ticks + 1 := rfl
@[simp] theorem State.sampleLines_seg (s : State) (low : LineReads) (g : SegId) :
    (s.sampleLines low).seg g = (s.seg g).sample (low g (s.ticks + 1)) := by
  simp [State.seg, State.sampleLines]
theorem State.sampleLines_view {γ : Type} (view : State → γ) (hticks : BlindTicks view) (hsegs : BlindSegs view)
    (s : State) (low : LineReads) : view (s.sampleLines low) = view s :=
  (hsegs { s with ticks := s.ticks + 1 } _).trans (hticks s _)

/-! ### Ticks -/

/-- A segment that is not stuck is left. -/
theorem State.faultIfStuck_unstuck {s : State} {g : SegId} (h : (s.seg g).stuck = false) : s.faultIfStuck g = s := by
  simp [State.faultIfStuck, h]
/-- A stuck segment faults. -/
theorem State.faultIfStuck_stuck {s : State} {g : SegId} (h : (s.seg g).stuck = true) :
    s.faultIfStuck g = s.faultSegment g := by
  simp [State.faultIfStuck, h]
@[simp] theorem State.passTicks_zero (s : State) (low : LineReads) : s.passTicks low 0 = s := rfl
theorem State.passTicks_succ (s : State) (low : LineReads) (n : Nat) :
    s.passTicks low (n + 1) = (s.passTick low).passTicks low n := rfl

section
variable {γ : Type} (view : State → γ) (hctl : BlindCtl view) (hsqs : BlindSqs view) (hcqs : BlindCqs view)
  (harb : BlindArb view) (hlock : BlindLock view) (hctxs : BlindCtxs view) (hadm : BlindAdm view)
  (hsegs : BlindSegs view) (hpresence : BlindPresence view) (hwatches : BlindWatches view) (hjobs : BlindJobs view)
  (hev : BlindEv view) (hlink : BlindLink view) (hticks : BlindTicks view)

include hsqs hcqs hctxs hsegs hpresence hwatches hjobs hev hlink in
theorem State.faultIfStuck_view (s : State) (g : SegId) : view (s.faultIfStuck g) = view s := by
  unfold State.faultIfStuck
  split
  · exact State.faultSegment_view view hsqs hcqs hctxs hsegs hpresence hwatches hjobs hev hlink s g
  · rfl

include hctxs hsegs hwatches hjobs in
theorem State.offerRetry_view (s : State) (r : Requester) : view (s.offerRetry r) = view s := by
  cases r <;>
    simp only [State.offerRetry, State.offerHostRetry, State.listPollRetry, State.offerResponse, State.offerReplay] <;>
    (repeat' split) <;>
    simp only [State.updSeg_view view hsegs, State.updCtx_view view hctxs, State.setWatch_view view hwatches,
      State.updJob_view view hjobs]

include hctxs hsegs in
theorem State.offerPollWait_view (s : State) (n : CtxNum) : view (s.offerPollWait n) = view s := by
  unfold State.offerPollWait
  split <;> simp only [State.updSeg_view view hsegs, State.updCtx_view view hctxs]

include hsqs hcqs hctxs hsegs hlink in
theorem State.passDeadline_view (s : State) (n : CtxNum) : view (s.passDeadline n) = view s := by
  unfold State.passDeadline
  (repeat' split) <;>
    simp only [State.endCommand_view view hsqs hcqs hctxs hsegs hlink, State.updCtx_view view hctxs]

include hsegs hwatches in
theorem State.becomeDue_view (s : State) (w : WatchId) : view (s.becomeDue w) = view s := by
  unfold State.becomeDue
  (repeat' split) <;> simp only [State.updSeg_view view hsegs, State.setWatch_view view hwatches]

include hctl hsqs hcqs harb hlock hctxs hadm hsegs hpresence hwatches hjobs hev hlink in
theorem State.failAccess_view (s : State) (a : Access) (tag : Nat) : view (s.failAccess a tag) = view s := by
  cases a <;>
    simp only [State.failAccess, State.readFailed, State.postingFailed, State.bufferWritten, State.resultWritten,
      State.eventFailed] <;>
    (repeat' split) <;>
    simp only [State.retire_view view hlink, State.removeRing_view view hwatches hev,
      State.adminDone_view view hcqs hctxs hadm, State.becomeReady_view view hsqs hcqs hctxs hsegs,
      State.memberEnded_view view hsqs hcqs hctxs hsegs hlink, State.freeItem_view view hctxs hadm,
      State.setCq_view view hcqs, State.cqError_view view hsqs hcqs hlock hctxs hadm hsegs hev hlink,
      State.discardRead_view view harb hlink, State.sqError_view view hsqs hcqs hlock hctxs hsegs hev hlink,
      State.failEngine_view view hctl hsqs hcqs harb hctxs hadm hsegs hpresence hwatches hjobs hev]

include hctl hsqs hcqs harb hlock hctxs hadm hsegs hpresence hwatches hjobs hev hlink

theorem State.take_view (s : State) (e : TimedEvent) : view (s.take e) = view s := by
  cases e with
  | retry r => exact State.offerRetry_view view hctxs hsegs hwatches hjobs s r
  | interval n => exact State.offerPollWait_view view hctxs hsegs s n
  | deadline n => exact State.passDeadline_view view hsqs hcqs hctxs hsegs hlink s n
  | due w => exact State.becomeDue_view view hsegs hwatches s w
  | limit a tag =>
    exact State.failAccess_view view hctl hsqs hcqs harb hlock hctxs hadm hsegs hpresence hwatches hjobs hev hlink s a tag

theorem State.takeIfCome_view (s : State) (e : TimedEvent) : view (s.takeIfCome e) = view s := by
  unfold State.takeIfCome
  split
  · rw [State.settle_view view hctl hsqs hcqs harb hlock hctxs hadm hsegs hev hlink,
      State.take_view view hctl hsqs hcqs harb hlock hctxs hadm hsegs hpresence hwatches hjobs hev hlink]
  · rfl

theorem State.takeTimed_view (s : State) : view s.takeTimed = view s :=
  foldl_same view State.takeIfCome
    (State.takeIfCome_view view hctl hsqs hcqs harb hlock hctxs hadm hsegs hpresence hwatches hjobs hev hlink) _ s

include hticks

theorem State.passTick_view (s : State) (low : LineReads) : view (s.passTick low) = view s := by
  unfold State.passTick
  rw [State.settle_view view hctl hsqs hcqs harb hlock hctxs hadm hsegs hev hlink,
    foldl_same view State.faultIfStuck
      (State.faultIfStuck_view view hsqs hcqs hctxs hsegs hpresence hwatches hjobs hev hlink),
    State.sampleLines_view view hticks hsegs,
    State.takeTimed_view view hctl hsqs hcqs harb hlock hctxs hadm hsegs hpresence hwatches hjobs hev hlink]

theorem State.passTicks_view (low : LineReads) (n : Nat) (s : State) : view (s.passTicks low n) = view s := by
  induction n generalizing s with
  | zero => rfl
  | succ n ih =>
    exact (ih _).trans
      (State.passTick_view view hctl hsqs hcqs harb hlock hctxs hadm hsegs hpresence hwatches hjobs hev hlink hticks s low)

theorem State.advance_view (s : State) (t : Nat) : view (s.advance t) = view s :=
  State.passTicks_view view hctl hsqs hcqs harb hlock hctxs hadm hsegs hpresence hwatches hjobs hev hlink hticks _ _ s
end

@[simp] theorem State.faultIfStuck_ticks (s : State) (g : SegId) : (s.faultIfStuck g).ticks = s.ticks := by
  apply State.faultIfStuck_view State.ticks <;> exact fun _ _ => rfl
@[simp] theorem State.take_ticks (s : State) (e : TimedEvent) : (s.take e).ticks = s.ticks := by
  apply State.take_view State.ticks <;> exact fun _ _ => rfl
@[simp] theorem State.takeIfCome_ticks (s : State) (e : TimedEvent) : (s.takeIfCome e).ticks = s.ticks := by
  apply State.takeIfCome_view State.ticks <;> exact fun _ _ => rfl
@[simp] theorem State.takeTimed_ticks (s : State) : s.takeTimed.ticks = s.ticks := by
  apply State.takeTimed_view State.ticks <;> exact fun _ _ => rfl
@[simp] theorem State.passTick_ticks (s : State) (low : LineReads) : (s.passTick low).ticks = s.ticks + 1 := by
  unfold State.passTick
  rw [(State.settle_frame _).2.1, foldl_same State.ticks State.faultIfStuck State.faultIfStuck_ticks]
  simp
@[simp] theorem State.passTicks_ticks (low : LineReads) (n : Nat) (s : State) :
    (s.passTicks low n).ticks = s.ticks + n := by
  induction n generalizing s with
  | zero => rfl
  | succ n ih => rw [State.passTicks_succ, ih, State.passTick_ticks]; omega
@[simp] theorem State.advance_ticks (s : State) (t : Nat) : (s.advance t).ticks = max s.ticks t := by
  rw [State.advance, State.passTicks_ticks]; omega

/-- What time leaves alone. -/
@[simp] theorem State.advance_frame (s : State) (t : Nat) :
    (s.advance t).pending = s.pending ∧ (s.advance t).nextChain = s.nextChain ∧ (s.advance t).pool = s.pool ∧
    (s.advance t).irq = s.irq ∧ (∀ x, (s.advance t).restoreList x = s.restoreList x) :=
  ⟨by apply State.advance_view State.pending <;> exact fun _ _ => rfl,
   by apply State.advance_view State.nextChain <;> exact fun _ _ => rfl,
   by apply State.advance_view State.pool <;> exact fun _ _ => rfl,
   by apply State.advance_view State.irq <;> exact fun _ _ => rfl,
   fun x => by apply State.advance_view (fun s => s.restoreList x) <;> exact fun _ _ => rfl⟩

/-! ### What comes -/

/-- The ids listed are those of which there is a watch. -/
theorem State.mem_watchesInUse (s : State) (w : WatchId) : w ∈ s.watchesInUse ↔ (s.watch w).isSome = true := by
  simp only [State.watchesInUse, watchIds, List.mem_map, List.mem_filter, Prod.exists, exists_and_right, exists_eq_right]
  constructor
  · rintro ⟨x, hm, hx⟩
    obtain ⟨i, hi, he⟩ := List.getElem_of_mem hm
    simp only [List.getElem_zip, List.getElem_finRange, Vector.getElem_toList, Prod.mk.injEq] at he
    obtain ⟨rfl, rfl⟩ := he
    exact hx
  · intro h
    refine ⟨s.watch w, ?_, h⟩
    rw [List.mem_iff_getElem]
    exact ⟨w.val, by simp, by simp [State.watch, Vector.get]⟩

/-- Where no timer runs and no access is outstanding, nothing comes. -/
theorem State.hasCome_idle {s : State} (e : TimedEvent)
    (hc : ∀ n c, s.ctx n = some c → c.state ≠ .retryWait ∧ c.state ≠ .pollWait ∧ c.deadline = none)
    (hw : ∀ w, s.watch w = none) (hj : ∀ t, s.job t = none) (hl : s.link.outstanding = []) : s.hasCome e = false := by
  unfold State.hasCome
  suffices h : s.comesAt e = none by simp [h]
  cases e with
  | retry r =>
    cases r with
    | host n =>
      cases h : s.ctx n with
      | none => simp [State.comesAt, State.retryEnd, State.hostRetryEnd, h]
      | some c => simp [State.comesAt, State.retryEnd, State.hostRetryEnd, h, hc n c h]
    | poll w => simp [State.comesAt, State.retryEnd, State.pollRetryEnd, hw]
    | response w => simp [State.comesAt, State.retryEnd, State.respDelay, hw]
    | replay t => simp [State.comesAt, State.retryEnd, State.replayRetryEnd, hj]
  | interval n =>
    cases h : s.ctx n with
    | none => simp [State.comesAt, State.intervalEnd, h]
    | some c => simp [State.comesAt, State.intervalEnd, h, hc n c h]
  | deadline n =>
    cases h : s.ctx n with
    | none => simp [State.comesAt, State.deadlineEnd, h]
    | some c => simp [State.comesAt, State.deadlineEnd, h, hc n c h]
  | due w => simp [State.comesAt, State.dueEnd, hw]
  | limit a tag => simp [State.comesAt, State.limitEnd, hl]

/-! ### No access outlives 50 ms -/

theorem issues_takeIfCome (s : State) (e : TimedEvent) : Issues s (s.takeIfCome e) := by
  unfold State.takeIfCome
  split
  · exact (issues_take s e).trans (issues_settle _)
  · exact .refl s

theorem issues_faultIfStuck (s : State) (g : SegId) : Issues s (s.faultIfStuck g) := by
  unfold State.faultIfStuck
  split
  · exact issues_faultSegment s g
  · exact .refl s

/-- An access that is 50 ms old has come to its limit. -/
theorem hasCome_limit {s : State} {d : Dma} {a : Access} (h : d ∈ s.link.outstanding) (old : d.issued + dmaLimit ≤ s.ticks) :
    s.hasCome (.limit a d.tag) = true := by
  have hm : d.issued ∈ (s.link.outstanding.filter fun x => x.tag == d.tag).map (·.issued) :=
    List.mem_map.mpr ⟨d, List.mem_filter.mpr ⟨h, by simp⟩, rfl⟩
  cases e : ((s.link.outstanding.filter fun x => x.tag == d.tag).map (·.issued)).min? with
  | none => rw [List.min?_eq_none_iff.mp e] at hm; cases hm
  | some m =>
    have := (List.min?_eq_some_iff.mp e).2 _ hm
    simp only [State.hasCome, State.comesAt, State.limitEnd, e, Option.map_some, decide_eq_true_eq]
    omega

/-- An access that has come to its limit is no longer outstanding once that is taken. -/
theorem takeIfCome_limit {s : State} {a : Access} {tag : Nat} {x : Dma}
    (hx : x ∈ (s.takeIfCome (.limit a tag)).link.outstanding) (old : x.issued + dmaLimit ≤ s.ticks) :
    x ∈ s.link.outstanding ∧ x.tag ≠ tag := by
  have pos : 0 < dmaLimit := by decide
  have hs := ((issues_takeIfCome s _).outstanding x hx).resolve_right (by omega)
  refine ⟨hs, fun ht => ?_⟩
  have come : s.hasCome (.limit a tag) = true := ht ▸ hasCome_limit hs old
  simp only [State.takeIfCome, come, if_true, State.take] at hx
  have hr : x ∈ (s.retire tag).link.outstanding ∨ x.issued = (s.retire tag).ticks :=
    ((issues_failAccess s a tag).trans (issues_settle _)).outstanding x hx
  rcases hr with hr | hr
  · exact absurd ht (by simpa using (List.mem_filter.mp hr).2)
  · rw [State.retire_ticks] at hr; omega

/-- Once the timed events that have come are taken, no access that is 50 ms old is outstanding. -/
theorem takeTimed_young {s : State} {d : Dma} (h : d ∈ s.takeTimed.link.outstanding) :
    s.ticks < d.issued + dmaLimit := by
  by_contra young
  have pos : 0 < dmaLimit := by decide
  have old : d.issued + dmaLimit ≤ s.ticks := by omega
  have step : ∀ (l : List TimedEvent) (u : State), u.ticks = s.ticks → d ∈ (l.foldl State.takeIfCome u).link.outstanding →
      d ∈ u.link.outstanding ∧ .limit d.access d.tag ∉ l := by
    intro l
    induction l with
    | nil => intro u _ hd; exact ⟨hd, by simp⟩
    | cons e l ih =>
      intro u hu hd
      have ⟨hm, hl⟩ := ih _ (by simpa using hu) hd
      have back := ((issues_takeIfCome u e).outstanding d hm).resolve_right (by omega)
      refine ⟨back, ?_⟩
      simp only [List.mem_cons, not_or]
      refine ⟨fun he => ?_, hl⟩
      subst he
      exact (takeIfCome_limit hm (hu ▸ old)).2 rfl
  have ⟨hs, hl⟩ := step s.timedEvents s rfl h
  refine hl (List.mem_filter.mpr ⟨?_, hasCome_limit hs old⟩)
  exact List.mem_append_right _ (List.mem_map.mpr ⟨d, hs, rfl⟩)

end Sys2Proof.Machine
end

