-- ==== Sys2Proof/Laws/Pool.lean ====
section
/-! SUPPORT. The restore pool's one form: putting an entry keeps the rising order, adds at most one entry, and leaves every
other entry as it was. -/

namespace Sys2Proof.Machine

/-- An entry's key tells its segment, target and index. -/
theorem PoolEntry.key_eq {a b : PoolEntry} : a.key = b.key ↔ a.tgt = b.tgt ∧ a.index = b.index := by
  constructor
  · intro h
    obtain ⟨⟨⟨ga, hga⟩, ⟨sa, hsa⟩⟩, ia, va⟩ := a
    obtain ⟨⟨⟨gb, hgb⟩, ⟨sb, hsb⟩⟩, ib, vb⟩ := b
    simp only [PoolEntry.key] at h
    have h1 := ia.isLt
    have h2 := ib.isLt
    have e1 : ia.toNat = ib.toNat := by omega
    have e2 : ga = gb := by omega
    have e3 : sa = sb := by omega
    subst e2 e3
    exact ⟨rfl, BitVec.eq_of_toNat_eq e1⟩
  · rintro ⟨h1, h2⟩
    simp [PoolEntry.key, h1, h2]

/-- What a pool holds after an entry is put into it: the entry, and every other entry with another key. -/
theorem mem_poolPut {e d : PoolEntry} {l : List PoolEntry} (h : l.Pairwise fun a b => a.key < b.key) :
    d ∈ poolPut e l ↔ d = e ∨ (d ∈ l ∧ d.key ≠ e.key) := by
  induction l with
  | nil => simp [poolPut]
  | cons x l ih =>
    obtain ⟨hx, hl⟩ := List.pairwise_cons.mp h
    unfold poolPut
    split
    · rename_i hlt
      have : ∀ y ∈ x :: l, y.key ≠ e.key := by
        intro y hy
        rcases List.mem_cons.mp hy with rfl | hy
        · omega
        · have := hx y hy; omega
      constructor
      · intro hd
        rcases List.mem_cons.mp hd with rfl | hd
        · exact .inl rfl
        · exact .inr ⟨hd, this d hd⟩
      · rintro (rfl | ⟨hd, _⟩)
        · exact List.mem_cons_self
        · exact List.mem_cons_of_mem _ hd
    · split
      · rename_i heq
        constructor
        · intro hd
          rcases List.mem_cons.mp hd with rfl | hd
          · exact .inl rfl
          · have := hx d hd
            exact .inr ⟨List.mem_cons_of_mem _ hd, by omega⟩
        · rintro (rfl | ⟨hd, hne⟩)
          · exact List.mem_cons_self
          · rcases List.mem_cons.mp hd with rfl | hd
            · exact absurd heq.symm hne
            · exact List.mem_cons_of_mem _ hd
      · rename_i hne
        rw [List.mem_cons, ih hl, List.mem_cons]
        constructor
        · rintro (rfl | rfl | ⟨hd, hk⟩)
          · exact .inr ⟨.inl rfl, fun k => hne k.symm⟩
          · exact .inl rfl
          · exact .inr ⟨.inr hd, hk⟩
        · rintro (rfl | ⟨rfl | hd, hk⟩)
          · exact .inr (.inl rfl)
          · exact .inl rfl
          · exact .inr (.inr ⟨hd, hk⟩)

/-- Putting an entry keeps the rising order. -/
theorem poolPut_sorted {e : PoolEntry} {l : List PoolEntry} (h : l.Pairwise fun a b => a.key < b.key) :
    (poolPut e l).Pairwise fun a b => a.key < b.key := by
  induction l with
  | nil => simp [poolPut]
  | cons x l ih =>
    obtain ⟨hx, hl⟩ := List.pairwise_cons.mp h
    unfold poolPut
    split
    · rename_i hlt
      refine List.pairwise_cons.mpr ⟨?_, h⟩
      intro y hy
      rcases List.mem_cons.mp hy with rfl | hy
      · exact hlt
      · have := hx y hy; omega
    · split
      · rename_i heq
        refine List.pairwise_cons.mpr ⟨?_, hl⟩
        intro y hy
        have := hx y hy; omega
      · rename_i hlt hne
        refine List.pairwise_cons.mpr ⟨?_, ih hl⟩
        intro y hy
        rcases (mem_poolPut hl).mp hy with rfl | ⟨hy, _⟩
        · omega
        · exact hx y hy

/-- Putting an entry whose key the pool holds replaces it; any other adds one. -/
theorem length_poolPut {e : PoolEntry} {l : List PoolEntry} (h : l.Pairwise fun a b => a.key < b.key) :
    (poolPut e l).length = if ∃ d ∈ l, d.key = e.key then l.length else l.length + 1 := by
  induction l with
  | nil => simp [poolPut]
  | cons x l ih =>
    obtain ⟨hx, hl⟩ := List.pairwise_cons.mp h
    unfold poolPut
    split
    · rename_i hlt
      rw [if_neg]
      · rfl
      · rintro ⟨d, hd, hk⟩
        rcases List.mem_cons.mp hd with rfl | hd
        · omega
        · have := hx d hd; omega
    · split
      · rename_i heq
        rw [if_pos ⟨x, List.mem_cons_self, heq.symm⟩]; rfl
      · rename_i hlt hne
        rw [List.length_cons, ih hl]
        have : (∃ d ∈ x :: l, d.key = e.key) ↔ ∃ d ∈ l, d.key = e.key := by
          constructor
          · rintro ⟨d, hd, hk⟩
            rcases List.mem_cons.mp hd with rfl | hd
            · exact absurd hk.symm hne
            · exact ⟨d, hd, hk⟩
          · rintro ⟨d, hd, hk⟩
            exact ⟨d, List.mem_cons_of_mem _ hd, hk⟩
        simp only [this]
        split <;> simp

end Sys2Proof.Machine
end

