-- ==== Sys2Proof/Tests/Slice0.lean ====
section
/-! SUPPORT. The model's own tests: each check of WellFormed refuses an ill-formed term, the spec's examples and a few
boundary cases run, and every statement with hypotheses has concrete values that meet them. -/

open Sys2Proof Sys2Proof.Machine

namespace Sys2Proof.Tests

set_option Elab.async false

/-! ### Small states -/

/-- Bytes 1 to 31 of an entry: each pair is a byte number and its value. -/
def entry (l : List (Nat × Nat)) : Body := l.foldl (fun b p => b ||| BitVec.ofNat 248 (p.2 * 2 ^ (8 * (p.1 - 1)))) 0

/-- A write of all four bytes. -/
def word (v : Nat) : RegWrite := { enables := 0xF, value := BitVec.ofNat 32 v }

/-- An engine in RUNNING with SQ0, CQ0, SQ1 and CQ1 ACTIVE, segment 0 ACTIVE, an SQ0 entry read with tag 7 and an SQ1 entry
read with tag 9 outstanding. -/
def live : State :=
  let s : State := { State.reset with
    ctl := { State.reset.ctl with engine := .running, enable := true }
    adm := { ctx := none, read := some 7 }
    arb := { rotation := none, turn := some 1, count := 0, read := some { sq := 1, tag := 9 } }
    link := { next := 20, outstanding := [] } }
  let s := (s.setSq 0 { Sq.created 0x1000 16 0 1 with tail := 1 }).setCq 0 (Cq.created 0x2000 16 0)
  let s := (s.setSq 1 { Sq.created 0x3000 16 1 2 with tail := 1 }).setCq 1 (Cq.created 0x4000 16 1)
  s.updSeg 0 SegCtl.activated

/-- A context of SQ `q` with its entry's opcode and bytes. -/
def ctxOf (n : CtxNum) (q : SqId) (op : Byte) (l : List (Nat × Nat)) (st : CtxState) : Ctx :=
  { Ctx.fetched n q (Record.of op (entry l)) none with state := st }

/-- A READ of index 3 at address 5 of segment 0, identifier 77. -/
def readCtx (st : CtxState) : Ctx := ctxOf 2 1 0x01 [(2, 77), (4, 0), (5, 5), (6, 3)] st

/-- A WRITE with KEEP of 00B1h to the same register. -/
def writeCtx (st : CtxState) : Ctx := ctxOf 3 1 0x02 [(1, 2), (4, 0), (5, 5), (6, 3), (8, 0xB1)] st

/-- Address 5 of segment 0. -/
def five : Tgt := { seg := 0, slot := 4 }

/-- The live engine with these contexts. -/
def having (l : List Ctx) : State := live.setCtxs l

/-- The live engine with this frame on segment 0's wire. -/
def wired (w : Wire) (s : State) : State := s.updSeg 0 fun y => { y with wire := some w }

/-- The frame of a host context. -/
def frameFor (c : Ctx) : Wire :=
  frameOf c.frameKind (if c.kind = some .broadcastWrite then none else some c.tgt) c.frameIndex c.frameData (.host c.num)

/-- The live engine with this context's frame on the wire. -/
def sends (c : Ctx) : State := wired (frameFor c) (having [c])

/-- A watch on index 3 at address 5: CHANGE, interval 5, debounce 1, reporting. -/
def watchOn : Watch :=
  { cfg := { tgt := five, index := 3, mask := 0xFFFF, cond := .change, matchValue := none, interval := 5, debounce := 1,
             oneShot := false, report := true, response := none }
    state := .armed, stable := none, candidate := none, run := 0, nextDue := some 3, poll := .none, tries := 0
    retryEnd := none, overrun := false, overrunCount := 0, triggers := 0, lastPoll := none, held := none
    respPending := false, lastResponse := none }

/-- A response write of watch 1 to address 5. -/
def respWrite : RespWrite := { watch := 1, tgt := five, index := 4, data := 9, tries := 1 }

/-- An event ring of 16 slots with no record. -/
def ringOf : Ring :=
  { base := 0x8000, size := 16, vector := 2, head := 0, tail := 0, phase := true, output := [], inFlight := none }

/-- The state at this tick of the time base. -/
def atTick (n : Nat) (s : State) : State := { s with ticks := n }

/-- The state a step answers, or the state before when it answers none. -/
def after (i : Instr) (s : State) : State :=
  match exec i s with
  | .next t => t
  | _ => s

/-- The status and the result value with which the admin command has completed. -/
def adminOutcome (s : State) : Option (Option Status × Option Half) := s.adm.ctx.map fun a => (a.status, a.result)

/-- The states and statuses of the contexts, in fetch order. -/
def outcomes (s : State) : List (CtxState × Option Status) := s.ctxs.map fun c => (c.state, c.status)

/-! ### Well-formedness: each check refuses an ill-formed term -/

theorem test_wf_msi : (Instr.msiConfigChange true 0).wellFormed = false ∧ (Instr.msiConfigChange true 9).wellFormed = false ∧
    (Instr.msiConfigChange true 8).wellFormed = true := by decide
theorem test_wf_enable : (Instr.enable (word 2)).wellFormed = false ∧ (Instr.enable (word 1)).wellFormed = true := by decide
theorem test_wf_enableResume :
    (Instr.enableResume (word 0)).wellFormed = false ∧ (Instr.enableResume (word 1)).wellFormed = true := by decide
theorem test_wf_pause : (Instr.pause (word 1)).wellFormed = false ∧ (Instr.pause (word 0)).wellFormed = true := by decide
theorem test_wf_reset : (Instr.reset (word 1)).wellFormed = false ∧ (Instr.reset (word 2)).wellFormed = true := by decide
theorem test_wf_engineControlWrite :
    (Instr.engineControlWrite (word 2)).wellFormed = false ∧ (Instr.engineControlWrite (word 4)).wellFormed = true := by
  decide
theorem test_wf_registerWriteOther :
    (Instr.registerWriteOther 0x40 (word 0)).wellFormed = false ∧ (Instr.registerWriteOther 0x30 (word 0)).wellFormed = true
      := by decide
theorem test_wf_invalidOpcodeEntry :
    (Instr.invalidOpcodeEntry true 0 0x40 0).wellFormed = false ∧
    (Instr.invalidOpcodeEntry false 0 0x40 0).wellFormed = true := by decide
theorem test_illFormed_refused : exec (.msiConfigChange true 0) State.reset = .refused (.illFormed "MSI_CONFIG_CHANGE") := rfl

/-! ### Formats -/

/-- R4's example: a READ of index 3 at address 5 has five 1s in its covered bits, so its header parity is 1. -/
theorem test_header_read_3_at_5 : frameHeader .read 5 3 = 0b0110001000101000000111#22 := by decide

/-- R1, R3: the start pattern 0110 is sent first; the engine drives HDA low for its first 0 and releases it for its first 1.
Outside frames both lines are high. -/
theorem test_lines :
    let y : SegCtl := { live.seg 0 with wire := some (frameFor (readCtx .active)) }
    y.lines (.frameBit 0 .low) = { hckHigh := false, hda := .low } ∧
    y.lines (.frameBit 1 .high) = { hckHigh := true, hda := .released } ∧
    (live.seg 3).lines .rest = { hckHigh := true, hda := .released } := by decide +kernel

/-- R10's table. -/
theorem test_answer_bits :
    Attempt.ofAnswer .write 0b10 0 false = .hold ∧ Attempt.ofAnswer .write 0b00 0 false = .refuse ∧
    Attempt.ofAnswer .read 0b11 0 false = .silent ∧ Attempt.ofAnswer .read 0b01 1 false = .parityFail := by decide

/-- R77: bits of the data where the mask is 1, bits read where it is 0. -/
theorem test_merged_value : mergedValue (Record.of 0x03 (entry [(8, 0x05), (10, 0x0F)])) 0xABC3 = 0xABC5 := by decide

/-- 11.4: byte 3 is the status, bytes 10 and 11 the SQ head, byte 15 bit 0 the phase. -/
theorem test_completion_record :
    completionBytes 0x1234 3 .targetBusy (some 0xBEEF) 0 4 0x102 true =
      [0x34, 0x12, 3, 0x08, 0xEF, 0xBE, 1, 0, 4, 0, 0x02, 0x01, 0, 0, 0, 1] := by decide

/-! ### Resets, engine control, registers -/

theorem test_powerOnReset : (after .powerOnReset live).ctl.engine = .idle ∧ (after .powerOnReset live).ctxs = [] := by
  decide +kernel
theorem test_hostLinkReset : (after .hostLinkReset live).irq.mask = 0xFF ∧ (after .hostLinkReset live).link.next = 20 := by
  decide +kernel
theorem test_msiConfigChange : (after (.msiConfigChange true 4) live).irq.msiVectors = 4 := by decide +kernel
/-- R42: with bases of 0 and sizes of 0 the check fails. -/
theorem test_enable_fails : (after (.enable (word 1)) State.reset).ctl.cause = .adminConfig := by decide +kernel
theorem test_enable_runs :
    (after (.enable (word 1)) (after (.adminQueueRegisterWrite .sizes 0xF 0x00040004) State.reset)).ctl.engine = .running := by
  decide +kernel
theorem test_enableResume :
    (after (.enableResume (word 1)) { live with ctl := { live.ctl with engine := .pausing } }).ctl.engine = .running := by
  decide +kernel
/-- R185: an entry read is outstanding, so the engine stays in PAUSING. -/
theorem test_pause : (after (.pause (word 0)) live).ctl.engine = .pausing := by decide +kernel
theorem test_reset_keeps_settings :
    ((after (.reset (word 6)) (live.updSeg 1 fun y => { y with settings := { y.settings with divider := 9 } })).seg
      1).settings.divider = 9 := by decide +kernel
theorem test_adminQueueRegisterWrite :
    (after (.adminQueueRegisterWrite .sqBase 0x02 0xAABBCC) State.reset).ctl.adminSqBase = 0xBB00 := by decide +kernel
theorem test_sqTailWrite : ((after (.sqTailWrite 1 (word 5)) live).sq 1).tail = 5 := by decide +kernel
theorem test_sqTailWrite_bad : ((after (.sqTailWrite 1 (word 16)) live).sq 1).state = .error := by decide +kernel
theorem test_cqHeadWrite_bad : ((after (.cqHeadWrite 1 (word 1)) live).sq 1).state = .error := by decide +kernel
/-- R164: records stay unreleased, so the vector is handed over again. -/
theorem test_cqHeadWrite_reraises :
    (after (.cqHeadWrite 1 (word 1)) (live.updCq 1 fun x => { x with tail := 2 })).irq.pending = 2 := by decide +kernel
theorem test_eqHeadWrite_bad : (after (.eqHeadWrite (word 1)) (live.setRing (some ringOf))).ev.ring = none := by
  decide +kernel
theorem test_interruptMaskSetWrite :
    (after (.interruptMaskSetWrite (word 1)) { live with irq := { live.irq with mask := 0 } }).irq.mask = 1 := by
  decide +kernel
/-- R165: vector 5 goes out as message 5 mod 4. -/
theorem test_interruptMaskClearWrite :
    (after (.interruptMaskClearWrite (word 0x20))
      { live with irq := { live.irq with pending := 0x20, msiOn := true, msiVectors := 4 } }).irq.messages = [1] := by
  decide +kernel
theorem test_interruptPendingWrite :
    (after (.interruptPendingWrite (word 3)) { live with irq := { live.irq with pending := 7 } }).irq.pending = 4 := by
  decide +kernel
theorem test_registerWriteOther : exec (.registerWriteOther 0x004 (word 9)) live = .next live := rfl
theorem test_engineControlWrite : (after (.engineControlWrite (word 5)) live).ctl.keepTargets = true := by decide +kernel

/-! ### Admin commands -/

theorem test_createSq :
    ((after (.createSq 7 (entry [(4, 15), (5, 1), (6, 8), (8, 4), (25, 0x10)])) live).sq 15).weight = 8 := by decide +kernel
/-- R53: SQ1 is bound to CQ1. -/
theorem test_deleteCq : adminOutcome (after (.deleteCq 7 (entry [(4, 1)])) live) = some (some .queueInUse, none) := by
  decide +kernel
theorem test_createCq : ((after (.createCq 7 (entry [(4, 7), (7, 3), (9, 4)])) live).cq 7).size = 1024 := by decide +kernel
/-- R175: an entry read for SQ1 is outstanding, so the command waits. -/
theorem test_deleteSq : ((after (.deleteSq 7 (entry [(4, 1)])) live).sq 1).state = .deleting := by decide +kernel
theorem test_segmentSetup_busy :
    adminOutcome (after (.segmentSetup 7 (entry [(4, 0)])) live) = some (some .segmentBusy, none) := by decide +kernel
theorem test_segmentSetup :
    ((after (.segmentSetup 7 (entry [(4, 1), (8, 3), (10, 1), (11, 0), (12, 7), (13, 1)])) live).seg 1).settings =
      { divider := 3, retryDelay := 1, retryLimit := 0, missThreshold := 7, stuckTime := 1 } := by decide +kernel
theorem test_segmentOn : ((after (.segmentOn 7 (entry [(4, 3)])) live).seg 3).state = .active := by decide +kernel
theorem test_segmentOff : ((after (.segmentOff 7 (entry [(4, 0)])) live).seg 0).state = .off := by decide +kernel
theorem test_segmentOff_waits : ((after (.segmentOff 7 (entry [(4, 0)])) (sends (readCtx .active))).seg 0).state = .draining := by
  decide +kernel
theorem test_segmentRecover :
    ((after (.segmentRecover 7 (entry [(4, 0)])) (live.updSeg 0 fun y => { y with state := .faulted })).seg 0).pulseCount = 1
      := by decide +kernel
/-- 11.6: byte 0 is the segment, byte 1 its state, bytes 2 and 3 the divider 249. -/
theorem test_querySegment :
    (after (.querySegment 7 (entry [(4, 0)])) live).link.outstanding.map (fun d => d.bytes.take 4) = [[0, 1, 249, 0]] := by
  decide +kernel
theorem test_queryTarget_address_63 :
    adminOutcome (after (.queryTarget 7 (entry [(4, 0), (5, 63)])) live) = some (some .invalidField, none) := by
  decide +kernel
theorem test_watchAdd :
    ((after (.watchAdd 7 (entry [(5, 5), (7, 127), (8, 1), (12, 9), (14, 1), (15, 8)])) live).watch 127).map (·.nextDue) =
      some (some 9) := by decide +kernel
theorem test_watchRemove_absent : adminOutcome (after (.watchRemove 7 (entry [])) live) = some (some .watchAbsent, none) := by
  decide +kernel
theorem test_watchArm :
    ((after (.watchArm 7 (entry [])) (live.setWatch 0 (some { watchOn with state := .fired }))).watch 0).map (·.state) =
      some .armed := by decide +kernel
theorem test_queryWatch :
    (after (.queryWatch 7 (entry [])) (live.setWatch 0 (some watchOn))).link.outstanding.map (fun d => d.bytes.length) = [40]
      := by decide +kernel
theorem test_restoreAdd :
    adminOutcome (after (.restoreAdd 7 (entry [(5, 62), (6, 255), (8, 1)])) live) = some (some .success, some 383) := by
  decide +kernel
theorem test_restoreDrop :
    adminOutcome (after (.restoreDrop 7 (entry [(5, 5), (7, 1)]))
      { live with pool := [{ tgt := five, index := 1, value := 2 }, { tgt := five, index := 9, value := 2 }] }) =
      some (some .success, some 2) := by decide +kernel
theorem test_configureEvents :
    ((after (.configureEvents 7 (entry [(7, 2), (8, 16), (25, 0x10)])) live).ev.ring).map (·.base) = some 0x1000 := by
  decide +kernel
theorem test_abort_not_found :
    adminOutcome (after (.abort 7 (entry [(4, 1), (8, 77)])) live) = some (some .abortNotFound, none) := by decide +kernel
theorem test_abort_pending :
    outcomes (after (.abort 7 (entry [(4, 1), (8, 77)])) (having [readCtx .pending])) = [(.ready, some .aborted)] := by
  decide +kernel

/-! ### I/O entries -/

theorem test_read_placed :
    ((after (.read 9 (entry [(5, 5), (6, 3)])) live).seg 0).pendingList = [0] := by decide +kernel
theorem test_write_segment_off :
    outcomes (after (.write 9 (entry [(4, 1), (5, 5)])) live) = [(.ready, some .segmentOff)] := by decide +kernel
theorem test_maskedWrite_target_0 :
    outcomes (after (.maskedWrite 9 (entry [(4, 0)])) live) = [(.ready, some .invalidField)] := by decide +kernel
theorem test_broadcastWrite_keep :
    outcomes (after (.broadcastWrite 9 (entry [(1, 2)])) live) = [(.ready, some .invalidField)] := by decide +kernel
/-- R70: first index + count - 1 at most 255. -/
theorem test_readBlock_range :
    outcomes (after (.readBlock 9 (entry [(5, 1), (6, 225), (7, 32)])) live) = [(.ready, some .invalidField)] ∧
    outcomes (after (.readBlock 9 (entry [(5, 1), (6, 224), (7, 32)])) live) = [(.pending, none)] := by decide +kernel
theorem test_waitUntil_match_outside_mask :
    outcomes (after (.waitUntil 9 (entry [(5, 1), (10, 1), (12, 2), (14, 1), (16, 1)])) live) = [(.ready, some .invalidField)]
      := by decide +kernel
theorem test_fence_at_once : outcomes (after (.fence 9 (entry [])) live) = [(.ready, some .success)] := by decide +kernel
theorem test_fence_waits :
    outcomes (after (.fence 9 (entry [])) (having [readCtx .pending])) = [(.pending, none), (.fenceWait, none)] := by
  decide +kernel
theorem test_invalidOpcodeEntry :
    outcomes (after (.invalidOpcodeEntry false 9 0x40 0) live) = [(.ready, some .invalidOpcode)] ∧
    adminOutcome (after (.invalidOpcodeEntry true 7 0x01 0) live) = some (some .invalidOpcode, none) := by decide +kernel
theorem test_entryReadFail :
    ((after (.entryReadFail 1 9) live).sq 1).state = .error ∧ ((after (.entryReadFail 1 9) live).sq 1).head = 0 ∧
    (after (.entryReadFail 0 7) live).ctl.cause = .adminMemory := by decide +kernel
theorem test_discardedEntryRead :
    (after (.discardedEntryRead 1 9) (live.updSq 1 fun x => { x with state := .error })).arb.read = none := by decide +kernel
theorem test_dmaAccessTimeout :
    ((after (.dmaAccessTimeout (.entryRead 1) 9) (atTick 5004
      { live with link := { live.link with
        outstanding := [{ access := .entryRead 1, tag := 9, addr := 0, bytes := [], issued := 4 }] } })).sq 1).state =
      .error := by decide +kernel
/-- R57: time that goes on for a watch due at tick 5010 fails on its way an access of tick 4, at the end of tick 5004, but not
one of tick 30. -/
theorem test_dmaLimit_passes :
    let d : Dma := { access := .entryRead 1, tag := 9, addr := 0, bytes := [], issued := 4 }
    let s := (State.reset.setSq 1 (live.sq 1)).setWatch 0 (some { watchOn with nextDue := some 501 })
    let s : State := { s with arb := live.arb, link := { next := 20, outstanding := [d, { d with tag := 8, issued := 30 }] } }
    let t := after (.watchDue 0) (atTick 5003 s)
    ((atTick 5003 s).passTick fun _ _ => false).link.outstanding.map (·.tag) = [9, 8] ∧
    (t.sq 1).state = .error ∧ t.link.outstanding.map (·.tag) = [8] ∧ t.ticks = 5010 ∧ t.arb.read = none := by decide +kernel
theorem test_frameBoundary :
    ((after (.frameBoundary 0) ((having [readCtx .pending]).updSeg 0 fun y => { y with pendingList := [2] })).seg 0).wire =
      some (frameFor (readCtx .active)) := by decide +kernel
/-- R11: a READ answered ACCEPT completes SUCCESS with its value, and the target is PRESENT. -/
theorem test_frameAttemptEnd :
    (after (.frameAttemptEnd 0 0b01 0x0103 true) (sends (readCtx .active))).ctxs.map (fun c => (c.status, c.value)) =
      [(some .success, some 0x0103)] ∧
    (after (.frameAttemptEnd 0 0b01 0x0103 true) (sends (readCtx .active))).pres five = { state := .present, miss := 0 } := by
  decide +kernel
/-- R76: a WRITE with KEEP answered ACCEPT is recorded. -/
theorem test_frameAttemptEnd_keep :
    (after (.frameAttemptEnd 0 0b01 0 false) (sends (writeCtx .active))).pool = [{ tgt := five, index := 3, value := 0xB1 }]
      := by decide +kernel
theorem test_broadcastFrameEnd :
    outcomes (after (.broadcastFrameEnd 0) (sends (ctxOf 2 1 0x04 [] .active))) = [(.ready, some .success)] := by
  decide +kernel
theorem test_retryDelayEnd :
    ((after (.retryDelayEnd (.host 2)) (atTick 4 (having [{ readCtx .retryWait with retryEnd := some 4 }]))).seg 0).offered = [2] := by
  decide +kernel
theorem test_pollIntervalEnd :
    ((after (.pollIntervalEnd 2) (atTick 40 (having [{ ctxOf 2 1 0x06 [] .pollWait with pollEnd := some 4 }]))).seg 0).offered = [2] := by
  decide +kernel
theorem test_waitUntilDeadline :
    outcomes (after (.waitUntilDeadline 2) (atTick 100 (having [{ ctxOf 2 1 0x06 [] .pollWait with deadline := some 10 }]))) =
      [(.ready, some .conditionTimeout)] := by decide +kernel
theorem test_watchDue :
    ((after (.watchDue 0) (atTick 30 (live.setWatch 0 (some watchOn)))).watch 0).map (fun x => (x.poll, x.nextDue)) =
      some (.listed, some 8) := by decide +kernel
/-- R13, R14: the 2nd low sample in a row brings the count to the stuck time, and the segment faults at that tick, while time
goes on to the 3rd; a high sample in between starts the count again. -/
theorem test_passTicks_fault :
    let s := (having [readCtx .pending]).updSeg 0 fun y => { y with settings := { y.settings with stuckTime := 2 } }
    let t := s.passTicks (fun _ _ => true) 3
    ((t.seg 0).state, t.ticks, outcomes t) = (.faulted, 3, [(.ready, some .segmentFault)]) ∧
    ((s.passTicks (fun _ n => n != 2) 3).seg 0).stuckCount = 1 := by decide +kernel
/-- R13: the stuck time of 200 low samples passes, from a count of 196, in 4 ticks. -/
theorem test_stuckLineDetected_ticks :
    (after (.stuckLineDetected 0) (live.updSeg 0 fun y =>
      { y with stuckCount := 196, settings := { y.settings with stuckTime := 200 } })).ticks = 4 := by decide +kernel
theorem test_stuckLineDetected :
    outcomes (after (.stuckLineDetected 0) ((having [readCtx .pending]).updSeg 0 fun y => { y with stuckCount := 48 })) =
      [(.ready, some .segmentFault)] := by decide +kernel
/-- R19: the 16th pulse ends with HDA low. -/
theorem test_recoveryPulseEnd :
    ((after (.recoveryPulseEnd 0 false) (live.updSeg 0 fun y => { y with state := .recovering, pulseCount := 16 })).seg
      0).state = .faulted := by decide +kernel
theorem test_recoveryIdleEnd :
    ((after (.recoveryIdleEnd 0) (live.updSeg 0 fun y => { y with state := .recovering, recoveryIdle := true })).seg
      0).state = .active := by decide +kernel

/-! ### Outcomes of writes to host memory -/

theorem test_bufferWriteDone :
    outcomes (after (.bufferWriteDone 2 12 false)
      (having [{ ctxOf 2 1 0x05 [] .active with buffer := some 12, status := some .success, staged := [1] }])) =
      [(.ready, some .bufferError)] := by decide +kernel
theorem test_resultWriteDone :
    adminOutcome (after (.resultWriteDone 12 true) (live.setAdm
      { ctx := some { record := 0, progress := .resultWrite 12, status := none, result := none }, read := none })) =
      some (some .success, none) := by decide +kernel
/-- R48: the posting into the last slot inverts the phase. -/
theorem test_completionWriteDone :
    ((after (.completionWriteDone 1 12) ((having [readCtx .ready]).updCq 1 fun x =>
      { x with tail := 15, head := 3, inFlight := some { item := .ctx 2, tag := 12 } })).cq 1).phase = false := by
  decide +kernel
theorem test_completionWriteFail :
    ((after (.completionWriteFail 1 12) ((having [readCtx .ready]).updCq 1 fun x =>
      { x with inFlight := some { item := .ctx 2, tag := 12 } })).cq 1).state = .error := by decide +kernel
theorem test_eventWriteDone :
    (after (.eventWriteDone 12) (live.setRing (some { ringOf with
      output := [.segmentFaulted 0], tail := 1, inFlight := some 12 }))).irq.pending = 4 := by decide +kernel
theorem test_eventWriteFail :
    (after (.eventWriteFail 12) (live.setRing (some { ringOf with inFlight := some 12 }))).ev =
      { ring := none, backlog := [], lost := 1 } := by decide +kernel

/-! ### Witnesses: concrete values that meet the hypotheses of each statement, clause by clause -/

/-- An admin entry of the live engine. -/
abbrev adm (op : Byte) (l : List (Nat × Nat)) : Record := Record.of op (entry l)

theorem witness_StepRunsCommandInFront :
    ({ live with pending := [.pause (word 0), .powerOnReset] } : State).pending = .pause (word 0) :: [.powerOnReset] := rfl
theorem witness_EmptyQueueTicks : live.pending = [] ∧ State.reset.ticks ≤ live.ticks := by decide +kernel
/-- An access that is 50 ms old has come to its limit, a due time has come, and a deadline has not. -/
theorem witness_EmptyQueueTicks_come :
    let d : Dma := { access := .entryRead 1, tag := 9, addr := 0, bytes := [], issued := 4 }
    let s := (having [{ ctxOf 2 1 0x06 [] .pollWait with deadline := some 501 }]).setWatch 0 (some watchOn)
    let s := atTick 5004 { s with link := { next := 20, outstanding := [d] } }
    d ∈ s.link.outstanding ∧ d.issued + 5000 ≤ s.ticks ∧ s.hasCome (.due 0) = true ∧ s.hasCome (.deadline 2) = false ∧
    s.timedEvents = [.due 0, .limit (.entryRead 1) 9] := by decide +kernel
/-- Segment 0 monitors its line, segment 1 is in OFF. -/
theorem witness_EmptyQueueTicks_samples :
    (live.seg 0).state = .active ∧ (live.seg 0).wire = none ∧ (live.seg 0).stuckCount < (live.seg 0).settings.stuckTime ∧
    (live.seg 1).state = .off := by decide +kernel
theorem witness_WellFormedCommandsRun :
    (Instr.pause (word 0)).wellFormed = true ∧ (0 < 1 ∨ 8 < 0) ∧ (9 < 1 ∨ 8 < 9) ∧ offsetOther 0x040 = false ∧
    codeValid true 0x61 = true := by decide
theorem witness_StepsKeepRestorePool :
    ∃ s t : State, s.pool ≠ [] ∧ s.poolInv ∧ step s = .next t :=
  ⟨{ live with pool := [{ tgt := five, index := 1, value := 2 }, { tgt := five, index := 9, value := 2 }] }, _,
    by decide +kernel, by unfold State.poolInv; decide +kernel, rfl⟩
theorem witness_StepsKeepMissAndStuckCounts : ∃ s t : State, s.missInv ∧ step s = .next t := by
  refine ⟨live.setPres five { state := .lost, miss := 7 }, _, ?_, rfl⟩
  have h : ∀ g a, ((live.setPres five { state := .lost, miss := 7 }).pres { seg := g, slot := a }).miss ≤ 7 := by
    decide +kernel
  exact fun x => h x.seg x.slot
theorem witness_StepsKeepMissAndStuckCounts_stuck : ∃ s t : State, (s.seg 0).stuckCount = 49 ∧ s.stuckInv ∧ step s = .next t :=
  ⟨live.updSeg 0 fun y => { y with stuckCount := 49 }, _, by decide +kernel, by unfold State.stuckInv; decide +kernel, rfl⟩
theorem witness_StepsKeepContextsDistinct : ∃ s t : State, s.ctxs ≠ [] ∧ s.distinct ∧ step s = .next t :=
  ⟨having [readCtx .pending, writeCtx .ready], _, by decide +kernel, by unfold State.distinct; decide +kernel, rfl⟩
theorem witness_FramesCarryEvenParity : Attempt.ofAnswer .read 0b01 1 true = .accept 1 := by decide
theorem witness_LinesAreDriven :
    let y := live.seg 0
    let w := frameOf .broadcast none 3 0xB1 (.host 2)
    y.wire = none ∧ y.state = .active ∧ (live.seg 1).wire = none ∧ (live.seg 1).state = .off ∧
    (({ y with wire := some w } : SegCtl).wire = some w ∧ y.state ≠ .recovering ∧ 38 < w.kind.bitTimes true) ∧
    (0 < 22 ∧ 21 < 22) ∧ (22 ≤ 22 ∧ 22 < 38) ∧ 22 ≤ 38 ∧ 39 ≤ 39 := by decide +kernel
theorem witness_RegistersWriteAndRead :
    (31 : Nat) < 32 ∧ (63 : Nat) < 64 ∧ live.ctxs.length ≤ 64 ∧ live.jobs.length ≤ 248 ∧ live.ev.ring = none ∧
    (live.setRing (some ringOf)).ev.ring = some ringOf := by decide +kernel
theorem witness_ResetsTakeEveryBlock :
    ((word 2).enables.getLsbD 0 = true ∧ (word 2).value.getLsbD 1 = true ∧ (word 2).value.getLsbD 2 = false) ∧
    ((word 6).enables.getLsbD 0 = true ∧ (word 6).value.getLsbD 1 = true ∧ (word 6).value.getLsbD 2 = true) := by decide
theorem witness_EnableInIdle :
    (word 1).control true false = true ∧ State.reset.ctl.engine = .idle ∧ ringAllowed 0 4 32 ∧ ringAllowed 0 1024 16 ∧
    ringAllowed 0xFFFFFFFFFFFFFF80 4 32 ∧ ¬ ringAllowed 0xFFFFFFFFFFFFFFC0 4 32 ∧ ¬ ringAllowed 32 4 32 ∧
    ¬ ringAllowed 0 3 32 ∧ ¬ ringAllowed 0 1025 32 := by decide +kernel
/-- The live engine in PAUSING. -/
def pausing : State := { live with ctl := { live.ctl with engine := .pausing } }
theorem witness_PauseAndResume :
    (word 0).control false false = true ∧ live.ctl.engine = .running ∧ (word 1).control true false = true ∧
    ({ live with ctl := { live.ctl with engine := .paused } } : State).ctl.engine = .paused ∧
    pausing.ctl.engine = .pausing ∧ pausing.settle.ctl.engine = .pausing ∧
    (pausing.setAdm { ctx := none, read := none }).settle.ctl.engine = .pausing ∧
    ((pausing.setAdm { ctx := none, read := none }).setArb FetchArb.afterReset).settle.ctl.engine = .paused := by
  decide +kernel
theorem witness_RecordsAreWritten :
    let s := (having [readCtx .ready]).updCq 1 fun x => { x with ready := [.ctx 2] }
    let r := ringOf
    let u := { live with ev := { live.ev with ring := some { r with tail := 1, output := [.segmentFaulted 0] } } }
    s.ctl.engine = .running ∧ (s.cq 1).ready = [.ctx 2] ∧ (s.cq 1).state = .active ∧ (s.cq 1).inFlight = none ∧
    ((s.cq 1).tail + (s.cq 1).size - (s.cq 1).head) % (s.cq 1).size ≠ (s.cq 1).size - 1 ∧ (s.ctx 2).isSome = true ∧
    ((15 + 16 - 0) % 16 = 16 - 1) ∧ u.ctl.engine = .running ∧ r.inFlight = none := by decide +kernel
theorem witness_EntriesAreFetched :
    let idle := (live.setAdm { ctx := none, read := none }).setArb FetchArb.afterReset
    let served := idle.setArb { rotation := some 15, turn := some 1, count := 1, read := none }
    let spent := idle.setArb { rotation := some 15, turn := some 1, count := 2, read := none }
    idle.ctl.engine = .running ∧ (idle.sq 0).state = .active ∧ (1 + 16 - 0) % 16 ≠ 0 ∧ idle.canFetch 1 = true ∧
    live.arb.read ≠ none ∧ served.canFetch 1 = true ∧ served.arb.count < (served.sq 1).weight ∧
    ¬ spent.arb.count < (spent.sq 1).weight ∧ spent.lock = none ∧ idle.arb.turn = none ∧
    (∀ q : SqId, (idle.sq q).staging = none) ∧ (∀ q : SqId, q ≠ 0 → State.reset.canFetch q = false) := by decide +kernel
theorem witness_ConfigurationWrites :
    ((word 1).value.getLsbD 1 = false ∧ live.ctl.engine = .running ∧ (word 1).value.getLsbD 0 = true ∧
      ({ enables := 0, value := 2 } : RegWrite).enables.getLsbD 0 = false ∧ live.ctl.enable = true ∧
      State.reset.ctl.engine = .idle ∧ (word 4).value.getLsbD 0 = false) ∧
    (1 ≤ 1 ∧ 1 ≤ 8) ∧ (1 ≤ 8 ∧ 8 ≤ 8) ∧ live.ctl.engine ≠ .idle ∧
    (0xFFC < 4096 ∧ 0xFFC % 4 = 0 ∧ 0x0A0 ≤ 0xFFC) ∧ (0x030 ≤ 0x03C ∧ 0x03C < 0x040) := by decide +kernel
theorem witness_VectorHandOff :
    ({ live with irq := { live.irq with pending := 0x80 } } : State).irq.pending.getLsbD 7 = true ∧
    live.irq.pending.getLsbD 7 = false := by decide +kernel
theorem witness_SqTailWrites :
    live.ctl.engine ≠ .idle ∧ live.ctl.engine ≠ .failed ∧ (live.sq 1).state = .active ∧
    ((word 15).onto (BitVec.ofNat 32 (live.sq 1).tail)).toNat < (live.sq 1).size ∧
    (live.sq 1).size ≤ ((word 16).onto (BitVec.ofNat 32 (live.sq 1).tail)).toNat ∧ (live.sq 1).chain = none ∧
    (live.sq 2).state ≠ .active := by decide +kernel
theorem witness_CqHeadWrites :
    let s := live.updCq 1 fun x => { x with tail := 2 }
    (s.cq 1).state = .active ∧ ((word 2).onto 0).toNat < (s.cq 1).size ∧
    (2 + (s.cq 1).size - (s.cq 1).head) % (s.cq 1).size ≤ ((s.cq 1).tail + (s.cq 1).size - (s.cq 1).head) % (s.cq 1).size ∧
    (live.cq 2).state ≠ .active ∧ (live.ctl.engine = .running ∧ (live.cq 1).size ≤ ((word 16).onto 0).toNat) ∧
    ¬ (1 + (live.cq 1).size - (live.cq 1).head) % (live.cq 1).size ≤
      ((live.cq 1).tail + (live.cq 1).size - (live.cq 1).head) % (live.cq 1).size := by decide +kernel
theorem witness_EqHeadWrites :
    let r : Ring := { ringOf with tail := 2 }
    (live.setRing (some r)).ev.ring = some r ∧ (2 < r.size ∧ (2 + r.size - r.head) % r.size ≤ r.unreleased) ∧
    ¬ (3 < r.size ∧ (3 + r.size - r.head) % r.size ≤ r.unreleased) ∧ live.ev.ring = none := by decide +kernel
theorem witness_DrainAssignsInOrder :
    (live.setRing (some ringOf)).ev.ring = some ringOf ∧ ringOf.head < ringOf.size ∧ ringOf.tail < ringOf.size ∧
    ringOf.output.length < ringOf.size := by decide +kernel
theorem witness_EventsAreTaken :
    let full : Ring := { ringOf with tail := 15 }
    let s := (live.setRing (some full)).setWatch 0 (some watchOn)
    let backlog := fun n : Nat => s.setBacklog (List.replicate n (.segmentFaulted 0))
    (live.ev.ring = none ∧ ({ live with ctl := { live.ctl with engine := .failed } } : State).ctl.engine = .failed) ∧
    (live.ctl.engine ≠ .failed ∧ (live.setRing (some ringOf)).ev.ring = some ringOf ∧ 0 < ringOf.free) ∧
    (s.ev.ring = some full ∧ full.free = 0 ∧ s.ev.backlog.length < 16 ∧ (backlog 15).ev.backlog.length < 16 ∧
      16 ≤ (backlog 16).ev.backlog.length ∧ s.watch 0 = some watchOn) ∧
    (full.head < full.size ∧ full.tail < full.size ∧
      full.output.length ≤ (full.tail + full.size - full.head) % full.size) := by decide +kernel
theorem witness_QueueCommandChecks :
    live.takesAdmin 7 (adm 0x40 [(4, 16)]) ∧ ¬ (1 ≤ ((adm 0x40 [(4, 16)]).byte 4).toNat ∧ ((adm 0x40 [(4, 16)]).byte 4).toNat ≤ 15) ∧
    (let r := adm 0x40 [(4, 15), (5, 1), (6, 8), (8, 4)];
      live.takesAdmin 7 r ∧ (r.byte 4).toNat = 15 ∧ (live.sq 15).state = .absent ∧
      ringAllowed r.address (r.half 8).toNat 32 ∧ (r.byte 6).toNat = 8 ∧ (r.byte 5).toNat = 1 ∧
      (live.cq 1).state = .active) ∧ (live.sq 1).state ≠ .absent ∧ (live.cq 7).state ≠ .active ∧
    (let r := adm 0x42 [(4, 7), (7, 7), (8, 4)];
      live.takesAdmin 7 r ∧ (r.byte 4).toNat = 7 ∧ (live.cq 7).state = .absent ∧
      ringAllowed r.address (r.half 8).toNat 16 ∧ (r.byte 7).toNat = 7) ∧ (live.cq 1).state ≠ .absent ∧
    (live.takesAdmin 7 (adm 0x43 [(4, 1)]) ∧ ∃ q, (live.sq q).state ≠ .absent ∧ (live.sq q).bound = 1) ∧
    (let s := live.setCq 2 (Cq.created 0 16 2);
      s.takesAdmin 7 (adm 0x43 [(4, 2)]) ∧ (s.cq 2).state ≠ .absent ∧
      ∀ q, (s.sq q).state ≠ .absent → (s.sq q).bound ≠ 2) := by
  unfold State.takesAdmin; decide +kernel
theorem witness_DeleteSqOutcomes :
    (live.takesAdmin 7 (adm 0x41 [(4, 0)]) ∧ live.takesAdmin 7 (adm 0x41 [(4, 15)]) ∧ (live.sq 15).state = .absent) ∧
    (let s := live.setSq 2 (Sq.created 0 16 1 1);
      s.takesAdmin 7 (adm 0x41 [(4, 2)]) ∧ (s.sq 2).state ≠ .absent ∧ (∀ c ∈ s.ctxs, c.sq ≠ 2) ∧
      s.arb.read = some { sq := 1, tag := 9 }) ∧
    (live.takesAdmin 7 (adm 0x41 [(4, 1)]) ∧ (live.sq 1).state ≠ .absent ∧ live.arb.read = some { sq := 1, tag := 9 }) := by
  unfold State.takesAdmin; decide +kernel
/-- The live engine with a context PENDING, one with its frame on the wire and one READY. -/
def mixed : State :=
  wired (frameFor (writeCtx .active)) (having [readCtx .pending, writeCtx .active, ctxOf 4 1 0x01 [(5, 6)] .ready])
theorem witness_DeleteSqOutcomes_contexts :
    mixed.takesAdmin 7 (adm 0x41 [(4, 1)]) ∧ mixed.distinct ∧ (mixed.cq (mixed.sq 1).bound).state = .active ∧
    (readCtx .pending ∈ mixed.ctxs ∧ mixed.notRunning (readCtx .pending)) ∧ mixed.running (writeCtx .active) ∧
    (¬ mixed.notRunning (ctxOf 4 1 0x01 [(5, 6)] .ready) ∧ ¬ mixed.running (ctxOf 4 1 0x01 [(5, 6)] .ready)) ∧
    (ctxOf 5 2 0x01 [] .ready).sq ≠ 1 := by
  unfold State.takesAdmin State.distinct State.notRunning State.running; decide +kernel
/-- DELETE_SQ of SQ1 in execution. -/
def deleting (s : State) : State :=
  (s.updSq 1 fun x => { x with state := .deleting }).setAdm
    { ctx := some { record := 0, progress := .deletingSq 1, status := none, result := none }, read := none }
theorem witness_DeleteSqOutcomes_completes :
    (let s := deleting (((having [readCtx .ready]).updCq 1 fun x =>
        { x with inFlight := some { item := .ctx 2, tag := 12 } }).setArb FetchArb.afterReset);
      s.adminWaiting 0 (.deletingSq 1) ∧ (s.sq 1).state = .deleting ∧ (s.cq 0).state = .active ∧
      (s.cq 1).inFlight = some { item := .ctx 2, tag := 12 } ∧ (∀ c ∈ s.ctxs, c.sq = 1 → c.num = 2) ∧
      s.arb.read = none) ∧
    (let s := deleting live;
      s.adminWaiting 0 (.deletingSq 1) ∧ (s.sq 1).state = .deleting ∧ (s.cq 0).state = .active ∧
      s.arb.read = some { sq := 1, tag := 9 } ∧ ∀ c ∈ s.ctxs, c.sq ≠ 1) := by
  unfold State.adminWaiting; decide +kernel
/-- The oldest context of SQ1 with identifier 77. -/
abbrev finds (s : State) (c : Ctx) : Prop := s.ctxs.find? (fun c => c.sq == 1 && c.record.ident == 77) = some c
theorem witness_AbortOutcomes :
    (live.takesAdmin 7 (adm 0x61 [(4, 16)]) ∧ live.takesAdmin 7 (adm 0x61 [(4, 1), (8, 77)]) ∧ live.distinct ∧
      (adm 0x61 [(4, 1), (8, 77)]).half 8 = 77) ∧
    (finds (having [readCtx .pending]) (readCtx .pending) ∧ (readCtx .pending).chain = none ∧
      live.notRunning (readCtx .pending) ∧ (live.cq (live.sq 1).bound).state = .active) ∧
    live.notRunning (readCtx .staged) ∧ live.notRunning (readCtx .retryWait) ∧ live.notRunning (readCtx .pollWait) ∧
    live.notRunning (readCtx .fenceWait) ∧ live.notRunning (readCtx .active) := by
  unfold State.takesAdmin State.distinct State.notRunning; decide +kernel
theorem witness_AbortOutcomes_running :
    (finds (sends (readCtx .active)) (readCtx .active) ∧ (sends (readCtx .active)).running (readCtx .active) ∧
      (readCtx .active).lastRequest = true) ∧
    (let c := ctxOf 2 1 0x06 [(2, 77), (5, 5)] .active;
      finds (sends c) c ∧ (sends c).running c ∧ c.lastRequest = false) := by
  unfold State.running; decide +kernel
theorem witness_AbortOutcomes_past :
    (finds (having [readCtx .ready]) (readCtx .ready) ∧ ¬ live.notRunning (readCtx .ready) ∧
      ¬ live.running (readCtx .ready)) ∧
    (let c := { ctxOf 2 1 0x05 [(2, 77), (5, 5)] .active with buffer := some 12 };
      finds (having [c]) c ∧ ¬ (having [c]).notRunning c ∧ ¬ (having [c]).running c) := by
  unfold State.notRunning State.running; decide +kernel
theorem witness_AbortOutcomes_member :
    let m := { readCtx .pending with chain := some { id := 6, pos := 1, last := false } }
    let d := { ctxOf 4 1 0x01 [] .pending with chain := some { id := 6, pos := 2, last := true } }
    finds (having [m, d]) m ∧ (having [m, d]).notRunning m ∧ d.num ≠ m.num ∧ d.inChain 6 = true ∧
    d.unreached = true ∧ ({ d with state := .active } : Ctx).unreached = false := by
  unfold State.notRunning; decide +kernel
theorem witness_SegmentSetupAndOn :
    (live.takesAdmin 7 (adm 0x48 [(4, 4)]) ∧
      let r := adm 0x48 [(4, 3), (8, 0xF3), (9, 1), (10, 255), (11, 15), (12, 7), (13, 255)];
      live.takesAdmin 7 r ∧ (r.byte 4).toNat = 3 ∧ (live.seg 3).state = .off ∧ (r.half 8).toNat = 499 ∧
      (r.byte 10).toNat = 255 ∧ (r.byte 11).toNat = 15 ∧ (r.byte 12).toNat = 7 ∧ (r.byte 13).toNat = 255) ∧
    (live.takesAdmin 7 (adm 0x49 [(4, 3)]) ∧ (live.seg 3).state = .off ∧ (live.seg 0).state = .active ∧
      ((live.updSeg 1 fun y => { y with state := .faulted }).seg 1).state = .faulted) := by
  unfold State.takesAdmin; decide +kernel
theorem witness_SegmentOffOutcomes :
    live.takesAdmin 7 (adm 0x4A [(4, 4)]) ∧ live.takesAdmin 7 (adm 0x4A [(4, 3)]) ∧ (live.seg 3).state = .off ∧
    (live.takesAdmin 7 (adm 0x4A []) ∧ (live.seg 0).state = .active ∧ (live.seg 0).wire = none) ∧
    (mixed.takesAdmin 7 (adm 0x4A []) ∧ (mixed.seg 0).state = .active ∧ (mixed.seg 0).wire ≠ none ∧ mixed.distinct ∧
      mixed.notRunning (readCtx .pending) ∧ (readCtx .pending).seg = 0 ∧ mixed.running (writeCtx .active) ∧
      ¬ mixed.notRunning (ctxOf 4 1 0x01 [(5, 6)] .ready) ∧ ¬ mixed.running (ctxOf 4 1 0x01 [(5, 6)] .ready) ∧
      (mixed.cq (mixed.sq 1).bound).state = .active ∧ (ctxOf 4 1 0x01 [(4, 1)] .ready).seg ≠ 0) ∧
    ((live.updSeg 0 fun y => { y with state := .faulted }).seg 0).state = .faulted ∧
    ((live.updSeg 0 fun y => { y with state := .recovering }).seg 0).state = .recovering := by
  unfold State.takesAdmin State.distinct State.notRunning State.running; decide +kernel
/-- A DRAINING segment 0 with this frame on its wire, and the SEGMENT_OFF that waits for it. -/
def drains (w : Wire) (s : State) : State :=
  (s.updSeg 0 fun y => { y with state := .draining, wire := some w }).setAdm
    { ctx := some { record := 0, progress := .drainingSegment 0, status := none, result := none }, read := none }
theorem witness_DrainingSegmentsEnd :
    let f := fun (k : FrameKind) (o : WireOwner) => frameOf k (some five) 3 0 o
    (let s := (drains (f .read (.poll 0)) live).setWatch 0 (some { watchOn with state := .halted, poll := .onWire });
      (s.seg 0).wire = some (f .read (.poll 0)) ∧ (f .read (.poll 0)).tgt = some five ∧ (s.seg 0).state = .draining ∧
      s.watch 0 = some { watchOn with state := .halted, poll := .onWire } ∧ s.adminAt (.removingWatch 0) = false ∧
      s.adminWaiting 0 (.drainingSegment 0) ∧ (s.cq 0).state = .active) ∧
    (let s := (drains (f .write (.response respWrite false)) live).setWatch 1 (some watchOn);
      (s.seg 0).wire = some (f .write (.response respWrite false)) ∧ s.watch respWrite.watch = some watchOn) ∧
    (let s : State := { (drains (f .write (.replay five)) live).setPres five { state := .restoring, miss := 0 } with
        jobs := [{ freshJob five with cursor := some 1 }] };
      (s.seg 0).wire = some (f .write (.replay five)) ∧ (s.job five).isSome = true ∧
      (s.pres five).state = .restoring) ∧
    (let c := { readCtx .active with mark := some .segmentOff, tries := 1 };
      let s := drains (frameFor c) (having [c]);
      s.ctl.engine ≠ .failed ∧ s.sendsFor 0 (frameFor c) c ∧ c.chain = none ∧ c.staged = [] ∧
      c.mark = some .segmentOff ∧ (s.cq (s.sq c.sq).bound).state = .active ∧
      c.tries < 1 + (s.seg 0).settings.retryLimit ∧ c.deadlinePassed = false ∧
      ({ s with ctl := { s.ctl with engine := .failed } } : State).ctl.engine = .failed) := by
  dsimp only [State.sendsFor, State.distinct, State.adminWaiting]
  refine ⟨?_, ?_, ?_, ?_⟩ <;> decide +kernel
theorem witness_DrainingSegmentsEnd_broadcast :
    let c := ctxOf 2 1 0x04 [] .active
    let s := drains (frameFor c) (having [c])
    s.sendsFor 0 (frameFor c) c ∧ c.kind = some .broadcastWrite ∧ (s.seg 0).state = .draining ∧
    (∀ a, (s.pres { seg := 0, slot := a }).state ≠ .restoring) ∧ c.chain = none ∧
    (s.cq (s.sq c.sq).bound).state = .active := by
  dsimp only [State.sendsFor, State.distinct]; decide +kernel
theorem witness_RecoveryRuns :
    let s := (live.updSeg 0 fun y => { y with state := .recovering, pulseCount := 16 }).setAdm
      { ctx := some { record := 0, progress := .recovering 0, status := none, result := none }, read := none }
    (live.takesAdmin 7 (adm 0x4B [(4, 4)]) ∧ live.takesAdmin 7 (adm 0x4B []) ∧ (live.seg 0).state ≠ .faulted ∧
      (live.updSeg 0 fun y => { y with state := .faulted }).takesAdmin 7 (adm 0x4B [])) ∧
    (s.seg 0).state = .recovering ∧ s.adminWaiting 0 (.recovering 0) ∧ (s.cq 0).state = .active ∧
    (s.seg 0).recoveryIdle = false ∧ ¬ (s.seg 0).pulseCount < 16 ∧
    ((s.updSeg 0 fun y => { y with recoveryIdle := true }).seg 0).recoveryIdle = true := by
  unfold State.takesAdmin State.adminWaiting; decide +kernel
theorem witness_QueriesWriteRecords :
    (live.takesAdmin 7 (adm 0x4C [(4, 4)]) ∧ live.takesAdmin 7 (adm 0x4C [(4, 3)])) ∧
    (live.takesAdmin 7 (adm 0x4D [(5, 63)]) ∧ live.takesAdmin 7 (adm 0x4D [(5, 5)]) ∧
      ((adm 0x4D [(5, 5)]).byte 5).toNat = five.address) ∧
    (live.takesAdmin 7 (adm 0x53 [(7, 128)]) ∧ live.takesAdmin 7 (adm 0x53 []) ∧ live.watch 0 = none ∧
      (live.setWatch 0 (some watchOn)).takesAdmin 7 (adm 0x53 []) ∧
      (live.setWatch 0 (some watchOn)).watch 0 = some watchOn) := by
  unfold State.takesAdmin; decide +kernel
theorem witness_WatchAddChecks :
    let r := adm 0x50 [(5, 5), (7, 127), (8, 1), (12, 9), (14, 1), (15, 8)]
    live.takesAdmin 7 (adm 0x50 [(7, 128)]) ∧ live.takesAdmin 7 (adm 0x50 []) ∧ live.watch 127 = none ∧
    watchCfgOf (adm 0x50 []) = none ∧ live.takesAdmin 7 r ∧ (r.byte 7).toNat = 127 ∧ (watchCfgOf r).isSome = true ∧
    ((live.setWatch 127 (some watchOn)).watch 127).isSome = true := by
  unfold State.takesAdmin; decide +kernel
theorem witness_WatchArmAndRemove :
    let s := live.setWatch 0 (some { watchOn with state := .fired })
    let w := live.setWatch 0 (some { watchOn with poll := .onWire })
    (live.takesAdmin 7 (adm 0x52 [(7, 128)]) ∧ live.takesAdmin 7 (adm 0x52 []) ∧ live.watch 0 = none ∧
      s.takesAdmin 7 (adm 0x52 []) ∧ s.watch 0 = some { watchOn with state := .fired } ∧ watchOn.state ≠ .fired) ∧
    (w.takesAdmin 7 (adm 0x51 []) ∧ w.watch 0 = some { watchOn with poll := .onWire } ∧
      s.takesAdmin 7 (adm 0x51 []) ∧ ({ watchOn with state := .fired } : Watch).poll ≠ .onWire) := by
  unfold State.takesAdmin; decide +kernel
/-- A restore pool of 384 entries on a segment: one for each index of address 5 and half of those of address 6. -/
def poolOn (g : SegId) : List PoolEntry :=
  (List.range 384).map fun i =>
    { tgt := { seg := g, slot := if i < 256 then 4 else 5 }, index := BitVec.ofNat 8 i, value := 0 }
/-- The full pool of segment 0. -/
def fullPool : List PoolEntry := poolOn 0
theorem witness_RestoreAddAndDrop :
    let s : State := { live with pool := fullPool }
    let r := adm 0x58 [(5, 5), (6, 3)]
    (live.takesAdmin 7 (adm 0x58 []) ∧ live.takesAdmin 7 r ∧ live.poolInv ∧ live.pool.length < 384) ∧
    (s.takesAdmin 7 r ∧ s.poolInv ∧ (∃ d ∈ s.pool, d.tgt = five ∧ d.index = r.byte 6)) ∧
    (s.takesAdmin 7 (adm 0x58 [(5, 7)]) ∧ ¬ ((∃ d ∈ s.pool, d.tgt = { seg := 0, slot := 6 } ∧ d.index = 0) ∨
      s.pool.length < 384)) ∧
    (live.takesAdmin 7 (adm 0x59 [(5, 5), (7, 2)]) ∧ live.takesAdmin 7 (adm 0x59 [(5, 5), (7, 1)]) ∧
      live.job five = none) ∧
    (let u : State := { s with jobs := [{ freshJob five with cursor := some 3 }] };
      u.takesAdmin 7 (adm 0x59 [(5, 5), (7, 1)]) ∧ u.job five = some { freshJob five with cursor := some 3 }) := by
  unfold State.takesAdmin State.poolInv; decide +kernel
theorem witness_ConfigureEventsOutcomes :
    live.takesAdmin 7 (adm 0x60 []) ∧ live.takesAdmin 7 (adm 0x60 [(8, 15)]) ∧
    (let r := adm 0x60 [(7, 7), (8, 16)];
      live.takesAdmin 7 r ∧ r.address.toNat % 64 = 0 ∧ (r.half 8).toNat = 16 ∧ (r.byte 7).toNat = 7 ∧
      live.ev.ring = none ∧ (live.setRing (some ringOf)).takesAdmin 7 r) := by
  unfold State.takesAdmin; decide +kernel
theorem witness_AdminEntriesRefused :
    (codeValid true 0x3F = false ∧ codeValid true 0x44 = false ∧ live.adm.read = some 7 ∧ (live.sq 0).state = .active ∧
      (live.cq 0).state = .active) ∧ (adm 0x40 [(1, 1)]).chainFlag = true ∧ (adm 0x61 [(1, 2)]).keepFlag = true := by
  decide +kernel
theorem witness_adminRows : (0x40, Instr.createSq) ∈ adminRows ∧ (0x61, Instr.abort) ∈ adminRows :=
  ⟨List.mem_cons_self, by simp [adminRows]⟩
theorem witness_ioRows : (0x01, IoKind.read, Instr.read) ∈ ioRows ∧ (0x07, IoKind.fence, Instr.fence) ∈ ioRows :=
  ⟨List.mem_cons_self, by simp [ioRows]⟩
/-- The pending list of segment 0 with this many places taken. -/
def listed (n : Nat) : State := live.updSeg 0 fun y => { y with pendingList := List.replicate n 63 }
theorem witness_IoEntriesPlaced :
    let r := adm 0x01 [(5, 62), (6, 255)]
    ((listed 31).takesIo 1 9 ∧ (listed 31).distinct ∧ r.chainFlag = false ∧ IoKind.read.fieldsOk r = true ∧
      (r.byte 4).toNat = 0 ∧ ((listed 31).seg 0).state = .active ∧ ((listed 31).seg 0).pendingList.length < 32) ∧
    (((listed 32).setCtxs [readCtx .fenceWait]).ctx 2 = some (readCtx .fenceWait) ∧
      32 ≤ ((listed 32).seg (readCtx .fenceWait).seg).pendingList.length) := by
  unfold State.takesIo State.distinct; decide +kernel
/-- Segment 0 with this many places taken, a READ on its wire that holds the first of them, and a STAGED context. -/
def stagedBehind (n : Nat) : State :=
  (((listed n).setCtxs [readCtx .active, writeCtx .staged]).updSq 1 fun x =>
    { x with staging := some { ctx := 3, waitsLock := false } }).updSeg 0 fun y =>
      { y with pendingList := (2 :: y.pendingList).take 32, wire := some (frameFor (readCtx .active)) }
theorem witness_IoEntriesPlaced_staged :
    ((stagedBehind 30).distinct ∧ (stagedBehind 30).ctxs = [readCtx .active] ++ writeCtx .staged :: [] ∧
      ((stagedBehind 30).sq 1).staging ≠ some { ctx := 3, waitsLock := true } ∧
      ((stagedBehind 30).seg 0).pendingList.length = 31 ∧ (readCtx .active).state ≠ .staged) ∧
    (writeCtx .staged ∈ (stagedBehind 32).moveAllStaged.ctxs ∧
      ((stagedBehind 32).moveAllStaged.sq 1).staging = some { ctx := 3, waitsLock := false }) ∧
    ((stagedBehind 32).hostFrame 0 (frameFor (readCtx .active)) (readCtx .active) ∧ (readCtx .active).mark = none ∧
      (readCtx .active).kind = some .read ∧ Attempt.ofAnswer .read 0b01 0x103 true = .accept 0x103 ∧
      (readCtx .active).num ∈ ((stagedBehind 32).seg 0).pendingList ∧
      ((stagedBehind 32).seg 0).pendingList.length ≤ 32 ∧ (writeCtx .staged).seg = 0 ∧
      (writeCtx .staged).chain = none) := by
  dsimp only [State.hostFrame, State.sendsFor, State.distinct]; decide +kernel
theorem witness_IoEntriesRefused :
    (live.takesIo 1 9 ∧ live.distinct ∧ (live.cq (live.sq 1).bound).state = .active) ∧
    IoKind.read.fieldsOk (adm 0x01 [(5, 63)]) = false ∧ (adm 0x01 [(5, 63)]).chainFlag = false ∧
    (IoKind.read.fieldsOk (adm 0x01 [(4, 3), (5, 5)]) = true ∧ (live.seg 3).state = .off) ∧
    ((live.updSeg 0 fun y => { y with state := .recovering }).seg 0).state = .recovering ∧
    codeValid false 0 = false ∧ codeValid false 8 = false := by
  unfold State.takesIo State.distinct; decide +kernel
theorem witness_FenceEntries :
    (live.takesIo 1 9 ∧ live.distinct ∧ (adm 0x07 []).chainFlag = false ∧ (adm 0x07 []).keepFlag = false ∧
      (live.cq (live.sq 1).bound).state = .active ∧ ∀ c ∈ live.ctxs, c.sq ≠ 1) ∧
    (having [ctxOf 4 1 0x07 [] .fenceWait, readCtx .pending]).distinct ∧
    (ctxOf 4 1 0x07 [] .fenceWait).sq = (readCtx .pending).sq := by
  unfold State.takesIo State.distinct; decide +kernel
/-- SQ1 with a chain open, whose lock it holds; the next member is at this position. -/
def inChain (next : Nat) (failed : Bool) : State :=
  (live.updSq 1 fun x => { x with chain := some { id := 6, next := next, segByte := 0, failed := failed } }).setLock
    (some { sq := 1, chain := 6, fetched := next - 1 })
theorem witness_ChainsAreFetchedAndFail :
    let r := adm 0x01 [(1, 1), (5, 5)]
    (live.arb.read = some { sq := 1, tag := 9 } ∧ (live.sq 1).state = .active ∧ live.distinct ∧
      IoKind.read.fieldsOk r = true ∧ (r.byte 4).toNat = 0 ∧ (live.seg 0).state = .active ∧
      (live.seg 0).pendingList.length < 32 ∧ (live.sq 1).chain = none ∧ r.chainFlag = true ∧ live.lock = none ∧
      live.ctxs.length ≤ 48 ∧ ∀ h, (live.seg h).holder ≠ some (.chain live.nextChain)) ∧
    (((inChain 15 false).sq 1).chain = some { id := 6, next := 15, segByte := 0, failed := false } ∧
      (inChain 15 false).lock = some { sq := 1, chain := 6, fetched := 14 } ∧
      ∀ h, ((inChain 15 false).seg h).holder ≠ some (.chain 6)) ∧
    (((inChain 2 true).sq 1).chain = some { id := 6, next := 2, segByte := 0, failed := true } ∧
      ((inChain 2 true).cq ((inChain 2 true).sq 1).bound).state = .active) ∧
    (let c := { readCtx .pending with chain := some { id := 6, pos := 1, last := false } };
      (having [c]).distinct ∧ c.inChain 6 = true ∧ c.unreached = true ∧ c.staged = [] ∧
      ((having [c]).cq ((having [c]).sq c.sq).bound).state = .active) := by
  unfold State.distinct; decide +kernel
theorem witness_EntryReadsAndTimeouts :
    (live.arb.read = some { sq := 1, tag := 9 } ∧ (live.sq 1).state = .active ∧ (live.sq 1).chain = none) ∧
    (let s := live.updSq 1 fun x => { x with state := .error };
      (s.sq 1).state ≠ .active ∧ 9 < s.link.next ∧ s.arb.read = some { sq := 1, tag := 9 }) ∧
    (let s := live.updSq 0 fun x => { x with state := .error };
      (s.sq 0).state ≠ .active ∧ s.adm.read = some 7) ∧
    (let d : Dma := { access := .entryRead 1, tag := 9, addr := 0, bytes := [], issued := 4 };
      let s : State := { State.reset with ticks := 5003, link := { next := 20, outstanding := [d] } };
      d ∈ (s.passTick fun _ _ => true).link.outstanding ∧
      d ∉ ((s.passTick fun _ _ => true).passTick fun _ _ => true).link.outstanding) := by decide +kernel
theorem witness_AdminMemoryFailures :
    live.adm.read = some 7 ∧
    (let s := live.updCq 0 fun x => { x with inFlight := some { item := .admin, tag := 12 } };
      (s.cq 0).state = .active ∧ (s.cq 0).inFlight = some { item := .admin, tag := 12 }) ∧
    (let s : State := { (sends (readCtx .active)).setWatch 0 (some watchOn) with jobs := [freshJob five] };
      s.adm.read = some 7 ∧ readCtx .active ∈ s.ctxs ∧ s.onWire (readCtx .active) = true ∧
      (s.seg 0).state = .active ∧ (s.seg 0).wire ≠ none ∧ (s.job five).isSome = true ∧ s.watch 0 = some watchOn) ∧
    (let s : State := { live.setPres five { state := .restoring, miss := 0 } with jobs := [freshJob five] };
      s.adm.read = some 7 ∧ (s.seg 0).state = .active ∧ (s.seg 0).wire = none ∧
      (s.pres five).state = .restoring) := by decide +kernel
theorem witness_StartableContexts :
    (having [readCtx .pending]).distinct ∧ readCtx .pending ∈ (having [readCtx .pending]).ctxs := by
  unfold State.distinct; decide +kernel
/-- Segment 0 at a frame boundary with these internal writes and due polls. -/
def boundary (w : List IwEntry) (d : List DuePoll) : State := live.updSeg 0 fun y => { y with writes := w, duePolls := d }
theorem witness_BoundariesServeWritesAndPolls :
    (live.seg 1).state ≠ .active ∧
    ((boundary [.response respWrite] []).atBoundary 0 ∧ ((boundary [] []).pres respWrite.tgt).state ≠ .restoring) ∧
    (let s : State := { boundary [.job five] [] with
        jobs := [freshJob five], pool := [{ tgt := five, index := 1, value := 2 }] };
      s.atBoundary 0 ∧ s.job five = some (freshJob five) ∧ s.restoreAbove five none ≠ []) ∧
    (let s := (boundary [] [{ watch := 0, due := 3, retried := false }]).setWatch 0 (some watchOn);
      s.atBoundary 0 ∧ s.watch 0 = some watchOn ∧ s.hostChoice 0 = none) ∧
    ((boundary [] []).atBoundary 0 ∧ (boundary [] []).hostChoice 0 = none) := by
  unfold State.atBoundary; decide +kernel
theorem witness_BoundariesServeHosts :
    let s := (having [readCtx .pending]).updSeg 0 fun y => { y with pendingList := [2] }
    let c := ctxOf 2 1 0x03 [(5, 5)] .active
    let m := (having [c]).updSeg 0 fun y => { y with holder := some (.maskedWrite 2) }
    (s.atBoundary 0 ∧ s.distinct ∧ s.hostChoice 0 = some (readCtx .pending) ∧ (s.seg 0).writes = [] ∧
      (s.seg 0).duePolls = []) ∧
    (m.distinct ∧ c ∈ m.ctxs ∧ (m.seg 0).holder = some (.maskedWrite c.num) ∧ (m.seg 0).wire = none ∧
      c.kind ≠ some .broadcastWrite ∧ c.buffer = none ∧ (m.pres c.tgt).state ≠ .restoring ∧
      ((m.setPres five { state := .restoring, miss := 0 }).pres c.tgt).state = .restoring) := by
  unfold State.atBoundary State.distinct; decide +kernel
/-- A member of chain 6 that reads address 5. -/
def member (n : CtxNum) (pos : Nat) (st : CtxState) : Ctx :=
  { ctxOf n 1 0x01 [(5, 5), (6, pos)] st with chain := some { id := 6, pos := pos, last := pos == 2 } }
/-- The live engine with these contexts, chain 6 holding segment 0. -/
def held (l : List Ctx) : State := (having l).updSeg 0 fun y => { y with holder := some (.chain 6) }
theorem witness_BoundariesServeHosts_holders :
    let c := { ctxOf 2 1 0x03 [(5, 5)] .retryWait with retryEnd := some 4 }
    let m := (having [c]).updSeg 0 fun y => { y with holder := some (.maskedWrite 2) }
    (m.distinct ∧ c ∈ m.ctxs ∧ (m.seg 0).state = .active ∧ (m.seg 0).wire = none ∧ m.ctl.engine ≠ .failed ∧
      c.buffer = none ∧ c.state = .retryWait ∧ c.retryEnd ≠ none ∧ ({ c with retryEnd := none } : Ctx).retryEnd = none) ∧
    (let s := held [member 2 1 .ready, member 3 2 .active];
      s.distinct ∧ member 3 2 .active ∈ s.ctxs ∧ (s.seg 0).holder = some (.chain 6) ∧
      s.ctxs = [member 2 1 .ready] ++ member 3 2 .active :: [] ∧
      ∀ d ∈ [member 2 1 .ready], d.state ≠ .active ∧ d.state ≠ .retryWait) := by
  unfold State.distinct; decide +kernel
theorem witness_HostAttemptsEnd :
    let c := { readCtx .active with tries := 3 }
    let l := { readCtx .active with tries := 4 }
    let d := { ctxOf 2 1 0x06 [(5, 5)] .active with tries := 1, deadlinePassed := true }
    let m := { readCtx .active with mark := some Status.aborted }
    let k := { readCtx .active with mark := some Status.segmentOff, tries := 1 }
    ((sends c).hostFrame 0 (frameFor c) c ∧ (frameFor c).kind ≠ .broadcast ∧ c.mark = none ∧
      Attempt.ofAnswer (frameFor c).kind 0b10 0 false = .hold ∧ c.tries < 1 + ((sends c).seg 0).settings.retryLimit) ∧
    ((sends l).hostFrame 0 (frameFor l) l ∧ ¬ l.tries < 1 + ((sends l).seg 0).settings.retryLimit) ∧
    ((sends d).hostFrame 0 (frameFor d) d ∧ d.deadlinePassed = true ∧ d.staged = []) ∧
    ((sends m).hostFrame 0 (frameFor m) m ∧ m.kind ≠ some .readBlock ∧ m.record.keepFlag = false) ∧
    ((sends k).hostFrame 0 (frameFor k) k ∧ k.mark = some .segmentOff) := by
  dsimp only [State.hostFrame, State.sendsFor, State.distinct]
  refine ⟨?_, ?_, ?_, ?_, ?_⟩ <;> decide +kernel
theorem witness_HostReadsAccepted :
    let c := readCtx .active
    let u := ctxOf 2 1 0x06 [(5, 5)] .active
    let m := ctxOf 2 1 0x03 [(5, 5)] .active
    let b := { ctxOf 2 1 0x05 [(5, 5), (7, 2)] .active with staged := [1] }
    ((sends c).hostFrame 0 (frameFor c) c ∧ c.mark = none ∧ (frameFor c).kind = .read ∧
      Attempt.ofAnswer .read 0b01 0x103 true = .accept 0x103) ∧
    ((sends u).hostFrame 0 (frameFor u) u ∧ u.kind = some .waitUntil) ∧
    ((sends m).hostFrame 0 (frameFor m) m ∧ (frameFor m).kind = .read ∧ m.kind = some .maskedWrite) ∧
    ((sends b).hostFrame 0 (frameFor b) b ∧ b.kind = some .readBlock ∧ b.staged.length + 1 = (b.record.byte 7).toNat) := by
  dsimp only [State.hostFrame, State.sendsFor, State.distinct]
  refine ⟨?_, ?_, ?_, ?_⟩ <;> decide +kernel
theorem witness_HostWritesAccepted :
    let c := writeCtx .active
    let b := ctxOf 2 1 0x04 [] .active
    ((sends c).hostFrame 0 (frameFor c) c ∧ c.mark = none ∧ (frameFor c).kind = .write ∧ (sends c).poolInv ∧
      c.record.keepFlag = true ∧ (sends c).pool.length < 384) ∧
    (let s : State := { sends c with pool := poolOn 1 };
      s.hostFrame 0 (frameFor c) c ∧ s.poolInv ∧
      ¬ ((∃ e ∈ s.pool, e.tgt = c.tgt ∧ e.index = c.record.byte 6) ∨ s.pool.length < 384)) ∧
    ((sends b).hostFrame 0 (frameFor b) b ∧ b.kind = some .broadcastWrite) := by
  dsimp only [State.hostFrame, State.sendsFor, State.distinct, State.poolInv]
  refine ⟨?_, ?_, ?_⟩ <;> decide +kernel
theorem witness_ChainsRunInOrder :
    let s := ((having [member 2 1 .pending, member 3 2 .pending]).updSeg 0 fun y => { y with pendingList := [2, 3] })
    (s.atBoundary 0 ∧ s.distinct ∧ s.hostChoice 0 = some (member 2 1 .pending) ∧
      (member 2 1 .pending).chain = some { id := 6, pos := 1, last := false } ∧ (s.seg 0).writes = [] ∧
      (s.seg 0).duePolls = []) ∧
    (let c := member 2 1 .active;
      let t := wired (frameFor c) (held [c, member 3 2 .pending]);
      t.sendsFor 0 (frameFor c) c ∧ c.chain = some { id := 6, pos := 1, last := false } ∧
      (t.seg 0).holder = some (.chain 6) ∧ t.ctl.engine ≠ .failed ∧ (t.seg 0).state = .active ∧ c.mark = none ∧
      (t.cq (t.sq c.sq).bound).state = .active ∧ c.kind = some .read ∧ c.staged = [] ∧
      (Attempt.ofAnswer .read 0b01 1 true).status = .success ∧ Attempt.ofAnswer .read 0b00 0 false = .refuse ∧
      (member 3 2 .pending).unreached = true ∧ t.ctxs = [c] ++ member 3 2 .pending :: []) ∧
    (let c := member 3 2 .active;
      ∀ d ∈ (held [member 2 1 .ready, c]).ctxs, d.inChain 6 = true → d.num ≠ c.num → d.state = .ready) ∧
    (let c := { ctxOf 2 1 0x04 [] .active with chain := some { id := 6, pos := 1, last := true } };
      (wired (frameFor c) (held [c])).sendsFor 0 (frameFor c) c ∧ c.kind = some .broadcastWrite) ∧
    (let c := { ctxOf 2 1 0x05 [(5, 5)] .active with
        chain := some { id := 6, pos := 1, last := true }, buffer := some 12, status := some .success, staged := [1] };
      (held [c]).distinct ∧ c ∈ (held [c]).ctxs ∧ c.state = .active ∧ c.buffer = some 12 ∧ c.seg = 0 ∧
      ((held [c]).seg 0).holder = some (.chain 6) ∧ ((held [c]).cq ((held [c]).sq c.sq).bound).state = .active ∧
      Status.success.isSuccess = true) := by
  dsimp only [State.atBoundary, State.sendsFor, State.distinct]
  refine ⟨?_, ?_, ?_, ?_, ?_⟩ <;> decide +kernel
theorem witness_InternalAttemptsEnd :
    let f := fun (k : FrameKind) (o : WireOwner) => frameOf k (some five) 3 0 o
    let p := (wired (f .read (.poll 0)) live).setWatch 0 (some { watchOn with poll := .onWire, tries := 4 })
    let q := p.setAdm { ctx := some { record := 0, progress := .removingWatch 0, status := none, result := none }, read := none }
    let j := { freshJob five with cursor := some 1, inFlight := some { index := 1, value := 2, tries := 4 } }
    let r : State := (({ wired (f .write (.replay five)) live with jobs := [j] } : State).setPres five
      { state := .restoring, miss := 2 })
    ((p.seg 0).wire = some (f .read (.poll 0)) ∧ (p.seg 0).state = .active ∧ p.adminAt (.removingWatch 0) = false ∧
      p.watch 0 = some { watchOn with poll := .onWire, tries := 4 }) ∧
    (q.adminWaiting 0 (.removingWatch 0) ∧ (q.cq 0).state = .active) ∧
    ((wired (f .write (.response respWrite false)) live).seg 0).wire = some (f .write (.response respWrite false)) ∧
    ((wired (f .write (.response respWrite true)) live).seg 0).wire = some (f .write (.response respWrite true)) ∧
    (r.job five = some j ∧ (r.pres five).state = .restoring ∧ r.restoreAbove five j.cursor = [] ∧
      j.inFlight = some { index := 1, value := 2, tries := 4 } ∧
      (r.seg 0).settings.missThreshold ≤ min ((r.pres five).miss + 1) 7 ∧
      ¬ (r.seg 0).settings.missThreshold ≤ min (1 + 1) 7) ∧
    (Attempt.ofAnswer .read 0b10 0 false = .hold ∧ Attempt.ofAnswer .write 0b11 0 false = .silent ∧
      3 < 1 + (p.seg 0).settings.retryLimit ∧ ¬ 4 < 1 + (p.seg 0).settings.retryLimit ∧
      ({ watchOn with state := .fired } : Watch).state ≠ .armed) := by
  unfold State.adminWaiting; decide +kernel
theorem witness_TimersFire :
    let c := { readCtx .retryWait with retryEnd := some 4 }
    let d := { ctxOf 2 1 0x06 [] .pollWait with pollEnd := some 4, deadline := some 10 }
    let w := live.setWatch 1 (some { watchOn with poll := .retryWait, retryEnd := some 4 })
    let r := w.updSeg 0 fun y => { y with respDelays := [{ write := respWrite, retryEnd := 4 }] }
    let j : State := { live with jobs := [{ freshJob five with retryEnd := some 4 }] }
    ((having [c]).distinct ∧ c ∈ (having [c]).ctxs ∧ (having [c]).holdsSegment c = false ∧ (having [c]).ctx 2 = some c) ∧
    w.watch 1 = some { watchOn with poll := .retryWait, retryEnd := some 4 } ∧
    (r.seg watchOn.cfg.tgt.seg).respDelays = [] ++ { write := respWrite, retryEnd := 4 } :: [] ∧
    j.job five = some { freshJob five with retryEnd := some 4 } ∧
    ((having [d]).distinct ∧ d ∈ (having [d]).ctxs ∧ d.chain = none ∧ d.staged = [] ∧ (having [d]).ctx 2 = some d ∧
      ((having [d]).cq ((having [d]).sq d.sq).bound).state = .active) ∧
    (let s := live.setWatch 0 (some watchOn);
      s.watch 0 = some watchOn ∧ watchOn.state = .armed ∧ watchOn.nextDue = some 3 ∧ watchOn.poll = .none) ∧
    (4 ≤ (atTick 4 live).ticks ∧ 10 * 4 ≤ (atTick 40 live).ticks ∧ 10 * 10 ≤ (atTick 100 live).ticks ∧
      10 * 3 ≤ (atTick 30 live).ticks ∧ live.ticks < 4) := by
  unfold State.distinct; decide +kernel
/-- A poll's retry that comes on time, and a context's retry that a deadline stops on the way. -/
theorem witness_TimersFire_early :
    let s := State.reset.setWatch 1 (some { watchOn with poll := .retryWait, retryEnd := some 4 })
    let u := atTick 9 (State.reset.setCtxs [{ readCtx .retryWait with retryEnd := some 12, deadline := some 1 }])
    s.hasCome (.retry (.poll 1)) = false ∧ (s.advance 4).hasCome (.retry (.poll 1)) = true ∧
    u.hasCome (.retry (.host 2)) = false ∧ (u.advance 12).hasCome (.retry (.host 2)) = false := by decide +kernel
theorem witness_StuckLineFaults :
    (live.seg 1).state ≠ .active ∧ (live.seg 0).state = .active ∧ (live.seg 0).wire = none ∧ live.jobs = [] ∧
    (∀ k, k ≠ 0 → (live.seg k).state ≠ .active) ∧ 0 < (live.seg 0).settings.stuckTime - (live.seg 0).stuckCount ∧
    (let s := having [readCtx .pending, writeCtx .ready];
      s.distinct ∧ (readCtx .pending).seg = 0 ∧ s.notRunning (readCtx .pending) ∧ ¬ s.notRunning (writeCtx .ready) ∧
      (ctxOf 4 1 0x01 [(4, 1)] .ready).seg ≠ 0 ∧ (s.cq (s.sq 1).bound).state = .active) ∧
    (live.seg 0).settings.stuckTime ≤ 255 := by
  unfold State.distinct State.notRunning; decide +kernel
/-- In that state no timed event ever comes. -/
theorem witness_StuckLineFaults_idle (n : Nat) (e : TimedEvent) :
    (atTick n (having [readCtx .pending, writeCtx .ready])).hasCome e = false := by
  refine State.hasCome_idle e (fun m c h => ?_) ?_ (fun _ => rfl) rfl
  · have : c ∈ [readCtx .pending, writeCtx .ready] := List.mem_of_find?_eq_some h
    rcases List.mem_pair.mp this with rfl | rfl <;> decide
  · show ∀ w, live.watch w = none
    decide +kernel
theorem witness_PresenceReports :
    (live.pres five).state = .unknown ∧
    (let s := live.setPres five { state := .restoring, miss := 2 };
      (s.pres five).state = .restoring ∧ (s.seg 0).settings.missThreshold ≤ min ((s.pres five).miss + 1) 7) ∧
    ({ live with jobs := [freshJob five] } : State).job five = some (freshJob five) ∧
    (let s : State := { live.setPres five { state := .lost, miss := 7 } with pool := fullPool };
      (s.pres five).state = .lost ∧ (s.restoreList five).length ≠ 0) := by decide +kernel
theorem witness_SamplesAreEvaluated : watchOn.run ≤ watchOn.cfg.debounce ∧ watchOn.stable ≠ some 5 := by decide +kernel
theorem witness_FiringWatchActs :
    let s := (live.setWatch 0 (some watchOn)).setRing (some ringOf)
    let x := { watchOn with cfg := { watchOn.cfg with cond := .reinit, matchValue := some 3 } }
    (s.watch 0 = some watchOn ∧ watchOn.cfg.cond ≠ .reinit ∧ watchOn.cfg.report = true ∧ s.ev.ring = some ringOf ∧
      0 < ringOf.free) ∧
    (let t : State := { (s.setWatch 0 (some x)).setPres five { state := .present, miss := 0 } with pool := fullPool };
      t.watch 0 = some x ∧ x.cfg.cond = .reinit ∧ (t.pres x.cfg.tgt).state = .present ∧ t.restoreList five ≠ [] ∧
      ((t.setPres five { state := .restoring, miss := 0 }).pres x.cfg.tgt).state = .restoring) := by decide +kernel
theorem witness_CompletionWriteOutcomes :
    let s := (having [readCtx .ready]).updCq 1 fun x => { x with inFlight := some { item := .ctx 2, tag := 12 } }
    (s.cq 1).inFlight = some { item := .ctx 2, tag := 12 } ∧ (s.cq 1).state = .active ∧
    ((s.updCq 1 fun x => { x with state := .error }).cq 1).state ≠ .active := by decide +kernel
theorem witness_MemoryWriteOutcomes :
    let c := { ctxOf 2 1 0x05 [] .active with buffer := some 12, status := some .success, staged := [1] }
    let s := live.setAdm { ctx := some { record := 0, progress := .resultWrite 12, status := none, result := none }, read := none }
    ((having [c]).distinct ∧ c ∈ (having [c]).ctxs ∧ c.chain = none ∧
      ((having [c]).cq ((having [c]).sq c.sq).bound).state = .active) ∧
    (s.adminWaiting 0 (.resultWrite 12) ∧ (s.cq 0).state = .active) ∧
    ((live.setRing (some { ringOf with inFlight := some 12 })).ev.ring = some { ringOf with inFlight := some 12 }) ∧
    ((∀ c ∈ live.ctxs, c.buffer ≠ some 12) ∧ live.adminAt (.resultWrite 12) = false ∧ (live.cq 1).inFlight = none ∧
      live.ev.ring = none) := by
  unfold State.distinct State.adminWaiting; decide +kernel
theorem witness_CommandsLeaveContexts :
    ∃ t, (having [readCtx .pending]).distinct ∧ (word 1).value.getLsbD 1 = false ∧
      exec (.watchAdd 7 (entry [(7, 1)])) (having [readCtx .pending]) = .next t :=
  ⟨_, by unfold State.distinct; decide +kernel, by decide, rfl⟩
theorem witness_CommandsLeaveContexts_orphan :
    let s := (wired (frameOf .write (some five) 4 9 (.response respWrite false)) live).setWatch 1 (some watchOn)
    ((after (.watchRemove 7 (entry [(7, 1)])) s).seg 0).wire =
      some (frameOf .write (some five) 4 9 (.response respWrite true)) := by decide +kernel

end Sys2Proof.Tests
end

section
/-! PROOFS. Parity of frames (R4) and the decoding of the answer bits (R10). The idea of both: `oddOnes` is the parity of
the count `onesBelow`, so a field with one bit after it has an even count exactly when that bit is the field's `oddOnes`. -/

namespace Sys2Proof.Machine

/-! ### Counting ones -/

theorem foldl_xor_eq_odd_length (f : Nat → Bool) (l : List Nat) (b : Bool) :
    l.foldl (fun odd i => odd ^^ f i) b = (b ^^ decide ((l.filter f).length % 2 = 1)) := by
  induction l generalizing b with
  | nil => simp
  | cons i l ih =>
    rw [List.foldl_cons, ih, Bool.xor_assoc]
    congr 1
    cases hi : f i with
    | false => simp [hi]
    | true =>
      have flips (n : Nat) : decide ((n + 1) % 2 = 1) = !decide (n % 2 = 1) := by
        rw [← decide_not, decide_eq_decide]; omega
      simp [hi, flips]

theorem oddOnes_eq_decide_onesBelow {w : Nat} (x : BitVec w) : oddOnes x = decide (onesBelow w x % 2 = 1) :=
  (foldl_xor_eq_odd_length x.getLsbD (List.range w) false).trans (Bool.false_xor _)

theorem onesBelow_append_of_le {v w n : Nat} (hi : BitVec v) (lo : BitVec w) (h : n ≤ w) :
    onesBelow n (hi ++ lo) = onesBelow n lo := by
  refine congrArg List.length (List.filter_congr fun i hi => ?_)
  rw [BitVec.getLsbD_append, if_pos ((List.mem_range.1 hi).trans_le h)]

theorem onesBelow_succ_append_ofBool {w : Nat} (n : Nat) (x : BitVec w) (p : Bool) :
    onesBelow (n + 1) (x ++ BitVec.ofBool p) = onesBelow n x + p.toNat := by
  have first : (x ++ BitVec.ofBool p).getLsbD 0 = p := BitVec.getLsbD_concat_zero
  have later : (x ++ BitVec.ofBool p).getLsbD ∘ Nat.succ = x.getLsbD := funext fun _ => BitVec.getLsbD_concat_succ
  unfold onesBelow
  rw [List.range_succ_eq_map, List.filter_cons, List.filter_map, first, later]
  cases p <;> simp

/-- R4: covered bits and a parity bit after them hold an even number of 1s exactly when the bit is their parity. -/
theorem onesBelow_append_even_iff {w : Nat} (x : BitVec w) (p : Bool) :
    onesBelow (w + 1) (x ++ BitVec.ofBool p) % 2 = 0 ↔ oddOnes x = p := by
  rw [onesBelow_succ_append_ofBool, oddOnes_eq_decide_onesBelow]
  cases p with
  | false => simp
  | true => simp; omega

/-! ### Headers and payloads -/

/-- The 17 bits that the header parity covers stand just above it. -/
theorem extractLsb'_frameHeader (kind : FrameKind) (address : Nat) (index : Byte) {start len : Nat}
    (h : start + len ≤ 17) :
    (frameHeader kind address index).extractLsb' (start + 1) len =
      (kind.code ++ BitVec.ofNat 6 address ++ index).extractLsb' start len :=
  (BitVec.extractLsb'_append_eq_of_le (Nat.le_add_left 1 start)).trans (BitVec.extractLsb'_append_eq_of_add_le h)

theorem frameHeader_start (kind : FrameKind) (address : Nat) (index : Byte) :
    (frameHeader kind address index).extractLsb' 18 4 = 0b0110#4 :=
  (BitVec.extractLsb'_append_eq_of_le (by decide)).trans BitVec.extractLsb'_append_eq_left

theorem frameHeader_kind (kind : FrameKind) (address : Nat) (index : Byte) :
    (frameHeader kind address index).extractLsb' 15 3 = kind.code := by
  rw [extractLsb'_frameHeader kind address index (start := 14) (by decide),
    BitVec.extractLsb'_append_eq_of_le (by decide)]
  exact BitVec.extractLsb'_append_eq_left

theorem frameHeader_address (kind : FrameKind) (address : Nat) (index : Byte) :
    (frameHeader kind address index).extractLsb' 9 6 = BitVec.ofNat 6 address := by
  rw [extractLsb'_frameHeader kind address index (start := 8) (by decide),
    BitVec.extractLsb'_append_eq_of_le (by decide)]
  exact BitVec.extractLsb'_append_eq_right

theorem frameHeader_index (kind : FrameKind) (address : Nat) (index : Byte) :
    (frameHeader kind address index).extractLsb' 1 8 = index :=
  (extractLsb'_frameHeader kind address index (start := 0) (by decide)).trans BitVec.extractLsb'_append_eq_right

/-- The start pattern is not covered: the parity is that of the 17 bits below it. -/
theorem frameHeader_even (kind : FrameKind) (address : Nat) (index : Byte) :
    onesBelow 18 (frameHeader kind address index) % 2 = 0 := by
  have covered (fields : BitVec 17) (p : Bool) :
      onesBelow 18 ((0b0110 : BitVec 4) ++ fields ++ BitVec.ofBool p) = onesBelow 18 (fields ++ BitVec.ofBool p) := by
    rw [onesBelow_succ_append_ofBool, onesBelow_succ_append_ofBool, onesBelow_append_of_le _ _ le_rfl]
  exact (congrArg (· % 2) (covered _ _)).trans ((onesBelow_append_even_iff _ _).2 rfl)

theorem framePayload_data (d : Half) : (framePayload d).extractLsb' 1 16 = d := BitVec.extractLsb'_append_eq_left

theorem framePayload_even (d : Half) : onesBelow 17 (framePayload d) % 2 = 0 := (onesBelow_append_even_iff d _).2 rfl

/-- What a frame's start puts on the wire of its segment, as `frameOf` says it. -/
theorem startFrame_wire (s : State) (g : SegId) (kind : FrameKind) (tgt : Option Tgt) (index : Byte) (d : Half)
    (o : WireOwner) : ((s.startFrame g kind tgt index d o).seg g).wire = some (frameOf kind tgt index d o) := by
  unfold State.startFrame
  rw [State.seg_updSeg, if_pos rfl]
  cases tgt <;> rfl

/-! ### Answers -/

theorem ofAnswer_write_accept (d : Half) (p : Bool) : Attempt.ofAnswer .write 0b01 d p = .accept d := rfl

/-- The data of an answered READ is judged by even parity (R4, R10). -/
theorem ofAnswer_read_accept (d : Half) (p : Bool) :
    Attempt.ofAnswer .read 0b01 d p =
      if onesBelow 17 (d ++ BitVec.ofBool p : BitVec 17) % 2 = 0 then .accept d else .parityFail := by
  have decoded : Attempt.ofAnswer .read 0b01 d p = if oddOnes d = p then .accept d else .parityFail := by
    simp [Attempt.ofAnswer]
  exact decoded.trans (if_congr (onesBelow_append_even_iff d p).symm rfl rfl)

theorem ofAnswer_hold (kind : FrameKind) (d : Half) (p : Bool) : Attempt.ofAnswer kind 0b10 d p = .hold := rfl

theorem ofAnswer_refuse (kind : FrameKind) (d : Half) (p : Bool) : Attempt.ofAnswer kind 0b00 d p = .refuse := rfl

theorem ofAnswer_silent (kind : FrameKind) (d : Half) (p : Bool) : Attempt.ofAnswer kind 0b11 d p = .silent := rfl

theorem ofAnswer_read_eq_accept_iff (d : Half) (p : Bool) :
    Attempt.ofAnswer .read 0b01 d p = .accept d ↔ onesBelow 17 (d ++ BitVec.ofBool p : BitVec 17) % 2 = 0 := by
  rw [ofAnswer_read_accept]
  split
  next even => simp [even]
  next odd => simp [odd]

/-! ### The statements -/

/-- Settles O8: each parity bit is `oddOnes` of the bits it covers, and the wire carries the header and payload so made. -/
theorem framesCarryEvenParity : Obligations.FramesCarryEvenParity :=
  ⟨fun kind address index =>
    ⟨frameHeader_start kind address index, frameHeader_kind kind address index, frameHeader_address kind address index,
      frameHeader_index kind address index, frameHeader_even kind address index⟩,
   fun d => ⟨framePayload_data d, framePayload_even d⟩,
   fun s g kind tgt index d o => ⟨_, startFrame_wire s g kind tgt index d o, rfl, rfl, rfl, rfl, rfl, rfl⟩,
   ofAnswer_read_eq_accept_iff⟩

/-- Settles O10, by the decoding of each of the four answers; a report is by definition as R23 says. -/
theorem answerBitsDecode : Obligations.AnswerBitsDecode :=
  ⟨ofAnswer_write_accept, ofAnswer_read_accept,
   fun kind d p => ⟨ofAnswer_hold kind d p, ofAnswer_refuse kind d p, ofAnswer_silent kind d p⟩,
   fun _ _ _ _ => rfl⟩

end Sys2Proof.Machine
end

section
/-! PROOFS. When a context of a pending list may start (R98): what each of the five tests of `State.startable` says. Two
of them look only at what stands before the context in a list, which `List.takeWhile` cuts off at its number; the numbers
of contexts being distinct, what is cut off is what stands before the context itself. -/

namespace Sys2Proof.Machine

/-! ### What stands before a member of a list -/

/-- What is cut off at `a` stands before the first `a`; it is the whole list when `a` is not in it. -/
theorem forall_mem_takeWhile_ne_iff {α : Type} [DecidableEq α] (k : List α) (a : α) (p : α → Prop) :
    (∀ x ∈ k.takeWhile (· ≠ a), p x) ↔
      (∀ l m, k = l ++ a :: m → a ∉ l → ∀ x ∈ l, p x) ∧ (a ∉ k → ∀ x ∈ k, p x) := by
  have cut {l : List α} (h : a ∉ l) (m : List α) : (l ++ m).takeWhile (· ≠ a) = l ++ m.takeWhile (· ≠ a) :=
    List.takeWhile_append_of_pos fun x hx => decide_eq_true (ne_of_mem_of_not_mem hx h)
  by_cases ha : a ∈ k
  · obtain ⟨u, v, rfl, hu⟩ := List.eq_append_cons_of_mem ha
    constructor
    · intro h
      refine ⟨fun l m split hl => ?_, fun out => absurd ha out⟩
      rw [split, cut hl] at h
      simpa using h
    · rintro ⟨h, -⟩
      rw [cut hu]
      simpa using h u v rfl hu
  · have all : k.takeWhile (· ≠ a) = k := by simpa using cut ha []
    rw [all]
    refine ⟨fun h => ⟨fun l m split => ?_, fun _ => h⟩, fun ⟨_, whole⟩ => whole ha⟩
    exact absurd (split ▸ List.mem_append_right l List.mem_cons_self) ha

/-- The contexts fetched before `c`: those that stand before it in the order of the contexts (R63). -/
theorem takeWhile_num_ne_of_split {s : State} (distinct : s.distinct) {c : Ctx} {l m : List Ctx}
    (split : s.ctxs = l ++ c :: m) : s.ctxs.takeWhile (fun d => d.num ≠ c.num) = l := by
  have others : ∀ d ∈ l, d.num ≠ c.num := by
    rw [State.distinct, split, List.map_append, List.nodup_append] at distinct
    obtain ⟨-, -, apart⟩ := distinct
    exact fun d hd => apart _ (List.mem_map_of_mem hd) _ (by simp)
  rw [split, List.takeWhile_append_of_pos fun d hd => decide_eq_true (others d hd)]
  simp

/-- The test that two conditions of R98 make: of the contexts fetched before `c`, those with `p` lack `q`. -/
theorem all_takeWhile_num_ne_iff {s : State} (distinct : s.distinct) {c : Ctx} (hc : c ∈ s.ctxs) (p q : Ctx → Bool) :
    ((s.ctxs.takeWhile fun d => d.num ≠ c.num).all fun d => !(p d && q d)) = true ↔
      ∀ l m, s.ctxs = l ++ c :: m → ∀ d ∈ l, p d = true → q d = false := by
  simp only [List.all_eq_true, Bool.not_eq_true', Bool.and_eq_false_imp]
  constructor
  · intro h l m split
    rwa [takeWhile_num_ne_of_split distinct split] at h
  · intro h
    obtain ⟨l, m, split⟩ := List.append_of_mem hc
    rw [takeWhile_num_ne_of_split distinct split]
    exact h l m split

/-! ### The five conditions -/

/-- R98 condition 1. The second part is about a context outside its segment's pending list. -/
theorem State.firstOfQueue_iff {s : State} (distinct : s.distinct) (c : Ctx) :
    s.firstOfQueue c = true ↔
      (∀ l m, (s.seg c.seg).pendingList = l ++ c.num :: m → c.num ∉ l →
        ∀ d ∈ s.ctxs, d.num ∈ l → d.sq = c.sq → d.state ≠ .pending) ∧
      (c.num ∉ (s.seg c.seg).pendingList →
        ∀ d ∈ s.ctxs, d.num ∈ (s.seg c.seg).pendingList → d.sq = c.sq → d.state ≠ .pending) := by
  have byNumber (k : List CtxNum) :
      (∀ n ∈ k, ∀ d, s.ctx n = some d → d.sq = c.sq → d.state ≠ .pending) ↔
        ∀ d ∈ s.ctxs, d.num ∈ k → d.sq = c.sq → d.state ≠ .pending := by
    constructor
    · exact fun h d hd hk => h d.num hk d (ctx_of_mem distinct hd)
    · intro h n hn d hd
      obtain ⟨mem, rfl⟩ := ctx_mem hd
      exact h d mem hn
  simp only [← byNumber]
  rw [← forall_mem_takeWhile_ne_iff, State.firstOfQueue, List.all_eq_true]
  refine forall₂_congr fun n _ => ?_
  cases s.ctx n with
  | none => simp
  | some d => simp [← imp_iff_not_or]

/-- R98 condition 2. -/
theorem State.noFenceBefore_iff {s : State} (distinct : s.distinct) {c : Ctx} (hc : c ∈ s.ctxs) :
    s.noFenceBefore c = true ↔ ∀ l m, s.ctxs = l ++ c :: m → ∀ d ∈ l, d.sq = c.sq → d.state ≠ .fenceWait := by
  rw [State.noFenceBefore, all_takeWhile_num_ne_iff distinct hc]
  simp

theorem State.isRestoring_eq_false_iff (s : State) (x : Tgt) :
    s.isRestoring x = false ↔ (s.pres x).state ≠ .restoring := by simp [State.isRestoring]

theorem mem_targetsOf_iff (g : SegId) (x : Tgt) : x ∈ targetsOf g ↔ x.seg = g := by
  obtain ⟨h, a⟩ := x
  simp [targetsOf, eq_comm]

theorem State.anyRestoring_eq_false_iff (s : State) (g : SegId) :
    s.anyRestoring g = false ↔ ∀ x : Tgt, x.seg = g → (s.pres x).state ≠ .restoring := by
  simp only [State.anyRestoring, List.any_eq_false, mem_targetsOf_iff, Bool.not_eq_true, isRestoring_eq_false_iff]

/-- R98 conditions 3 and 4. -/
theorem State.heldByRestoring_eq_false_iff (s : State) (c : Ctx) :
    s.heldByRestoring c = false ↔
      (c.kind ≠ some .broadcastWrite → (s.pres c.tgt).state ≠ .restoring) ∧
      (c.kind = some .broadcastWrite → ∀ x : Tgt, x.seg = c.seg → (s.pres x).state ≠ .restoring) := by
  rw [State.heldByRestoring]
  split
  next broadcast => simp [broadcast, anyRestoring_eq_false_iff]
  next other => simp [other, isRestoring_eq_false_iff]

/-- R98 condition 5: the chain is no longer the one open on its queue, and the context is its first member not yet run. -/
theorem State.chainReady_iff {s : State} (distinct : s.distinct) {c : Ctx} (hc : c ∈ s.ctxs) :
    s.chainReady c = true ↔
      ∀ m, c.chain = some m →
        (∀ o, (s.sq c.sq).chain = some o → o.id ≠ m.id) ∧
        ∀ l k, s.ctxs = l ++ c :: k → ∀ d ∈ l, d.inChain m.id = true → d.unreached = false := by
  rw [State.chainReady]
  cases c.chain with
  | none => simp
  | some m =>
    rw [Bool.and_eq_true, all_takeWhile_num_ne_iff distinct hc]
    cases (s.sq c.sq).chain with
    | none => simp
    | some o => simp

/-! ### The statement -/

/-- Settles O45: `State.startable` is the conjunction of its tests, each of which says its condition of R98. -/
theorem startableContexts : Obligations.StartableContexts := by
  intro s c distinct hc
  rw [State.startable]
  simp only [Bool.and_eq_true, beq_iff_eq, Bool.not_eq_true', State.firstOfQueue_iff distinct,
    State.noFenceBefore_iff distinct hc, State.heldByRestoring_eq_false_iff, State.chainReady_iff distinct hc, and_assoc]

end Sys2Proof.Machine
end

section
/-! PROOFS. An ACCEPTed sample of a watch (R120 to R122): what the watch is after it, when its stable value changes, and
when that change meets the watch's condition. `State.evaluate` chooses between its three outcomes by these two tests. -/

namespace Sys2Proof.Machine

/-! ### The sample -/

/-- R120. While the run is at most the debounce, the model's cut at the debounce says what R120 says: a run that has
reached the debounce stays there. -/
theorem Watch.takeSample_of_run_le {x : Watch} (bounded : x.run ≤ x.cfg.debounce) (v : Half) :
    x.takeSample v = { x with
      candidate := some (v &&& x.cfg.mask)
      run := if x.candidate = some (v &&& x.cfg.mask) then (if x.run = x.cfg.debounce then x.run else x.run + 1)
        else 1 } := by
  rw [Watch.takeSample]
  split
  next equal =>
    have run : min (x.run + 1) x.cfg.debounce = if x.run = x.cfg.debounce then x.run else x.run + 1 := by
      split <;> omega
    rw [run, equal]
  next different => rfl

theorem Watch.settles_iff {x : Watch} {n : Half} (candidate : x.candidate = some n) :
    x.settles = true ↔ x.run = x.cfg.debounce ∧ x.stable ≠ some n := by
  simp [Watch.settles, candidate]

/-! ### The condition -/

/-- R122's table: the condition is met by a change of the stable value from `p` to `n`. -/
def WatchCfg.Met (c : WatchCfg) (p : Option Half) (n : Half) : Prop :=
  match c.cond with
  | .change => p ≠ none
  | .rise => p = some 0 ∧ n ≠ 0
  | .fall => (∃ q, p = some q ∧ q ≠ 0) ∧ n = 0
  | .matches => c.matchValue = some n ∧ p ≠ some n
  | .leave => ∃ q, p = some q ∧ c.matchValue = some q ∧ n ≠ q
  | .reinit => c.matchValue = some n ∧ p ≠ some n

/-- The change is to a match value that the watch did not hold before, as MATCH and REINIT ask. -/
theorem becomes_match_iff (m p : Option Half) (n : Half) :
    (m == some n && p != m) = true ↔ m = some n ∧ p ≠ some n := by
  rw [Bool.and_eq_true, beq_iff_eq, bne_iff_ne]
  exact and_congr_right fun h => h ▸ Iff.rfl

theorem WatchCfg.fires_iff (c : WatchCfg) (p : Option Half) (n : Half) : c.fires p n = true ↔ c.Met p n := by
  unfold WatchCfg.fires WatchCfg.Met
  generalize c.cond = cond
  match cond with
  | .change => exact Option.isSome_iff_ne_none
  | .rise => simp
  | .fall => cases p <;> simp
  | .matches => exact becomes_match_iff c.matchValue p n
  | .reinit => exact becomes_match_iff c.matchValue p n
  | .leave =>
    cases p with
    | none => simp
    | some q =>
      have left : c.matchValue = some q ∧ c.matchValue ≠ some n ↔ c.matchValue = some q ∧ n ≠ q :=
        and_congr_right fun h => by rw [h, ne_eq, Option.some.injEq, eq_comm]
      simpa [eq_comm (a := some q)] using left

/-! ### The evaluation -/

theorem State.evaluate_of_not_settles (s : State) (w : WatchId) {x : Watch} {v : Half}
    (h : ¬ (x.takeSample v).settles = true) :
    s.evaluate w x v = s.setWatch w (some (x.takeSample v)) := if_neg h

theorem State.evaluate_of_settles (s : State) (w : WatchId) {x : Watch} {v : Half}
    (h : (x.takeSample v).settles = true) :
    s.evaluate w x v =
      let u := s.setWatch w (some { x.takeSample v with stable := some (v &&& x.cfg.mask) })
      if x.cfg.fires x.stable (v &&& x.cfg.mask) then u.fire w x.cfg x.stable (v &&& x.cfg.mask) else u := if_pos h

/-! ### The statement -/

/-- Settles O56: the sample makes the watch that R120 says, and the two tests of the evaluation are those of R121 and
R122. -/
theorem samplesAreEvaluated : Obligations.SamplesAreEvaluated := by
  intro s w x v bounded n y met
  have sample : x.takeSample v = y := Watch.takeSample_of_run_le bounded v
  have settles : (x.takeSample v).settles = true ↔ y.run = x.cfg.debounce ∧ x.stable ≠ some n := by
    rw [sample]
    exact Watch.settles_iff rfl
  have fires : x.cfg.fires x.stable n = true ↔ met := x.cfg.fires_iff x.stable n
  refine ⟨fun kept => ?_, fun run changed unmet => ?_, fun run changed isMet => ?_⟩
  · rw [State.evaluate_of_not_settles s w (mt settles.1 kept), sample]
  · rw [State.evaluate_of_settles s w (settles.2 ⟨run, changed⟩), sample]
    exact if_neg (mt fires.1 unmet)
  · rw [State.evaluate_of_settles s w (settles.2 ⟨run, changed⟩), sample]
    exact if_pos (fires.2 isMet)

end Sys2Proof.Machine
end

section
/-! PROOFS. A hand-off of a vector (R161, R165): the flag that it sets and the message that it sends. -/

namespace Sys2Proof.Machine

/-! ### The flag of one vector -/

theorem getLsbD_vectorBit (v u : VecId) : (vectorBit v).getLsbD u = decide (u = v) := by
  rw [vectorBit, BitVec.getLsbD_ofNat, Nat.testBit_two_pow, decide_eq_true u.isLt, Bool.true_and, decide_eq_decide,
    Fin.val_inj, eq_comm]

/-! ### The hand-off -/

theorem IntUnit.handOff_of_pending {u : IntUnit} {v : VecId} (flag : u.pending.getLsbD v = true) :
    u.handOff v = u := if_pos flag

/-- Setting the flag leaves the mask and the enable alone, so the message depends on them as they were before. -/
theorem IntUnit.handOff_of_not_pending {u : IntUnit} {v : VecId} (flag : u.pending.getLsbD v = false) :
    u.handOff v =
      { u with
        pending := u.pending ||| vectorBit v
        messages := u.messages ++
          if u.mask.getLsbD v = false ∧ u.msiOn = true then [v.val % u.msiVectors] else [] } := by
  rw [IntUnit.handOff, if_neg (Bool.eq_false_iff.1 flag)]
  cases u.mask.getLsbD v with
  | true => simp
  | false =>
    cases u.msiOn with
    | true => simp [IntUnit.send]
    | false => simp [IntUnit.send]

/-! ### The statement -/

/-- Settles O18, by the flag before the hand-off: the Interrupt Unit is all that a hand-off can change. -/
theorem vectorHandOff : Obligations.VectorHandOff := by
  intro s v
  constructor
  · intro flag
    rw [State.handVector, IntUnit.handOff_of_pending flag]
  · intro flag
    rw [State.handVector, IntUnit.handOff_of_not_pending flag]
    refine ⟨fun u => ?_, rfl, rfl⟩
    rw [BitVec.getLsbD_or, getLsbD_vectorBit, Bool.or_comm]

end Sys2Proof.Machine
end

section
/-! PROOFS. Invariants of every step, once for all of them: `State.Kept P` lists the operations that the commands are made
of and says that each keeps `P`; `State.Kept.exec` and `State.Kept.step` then say that every command and every step keeps
it. Passing time needs no entry of its own beyond one tick's samples and what a timed event does. -/

namespace Sys2Proof.Machine

set_option Elab.async false -- one thread elaborates: the checker's memory is limited

/-- Every operation that a command is made of keeps `P`. -/
structure State.Kept (P : State → Prop) : Prop where
  queue {s : State} (l : List Instr) : P s → P { s with pending := l }
  settle {s : State} : P s → P s.settle
  control {s : State} (c : Control) : P s → P { s with ctl := c }
  interrupts {s : State} (u : IntUnit) : P s → P { s with irq := u }
  powerOn (l : List Instr) : P { State.reset with pending := l }
  engineReset {s : State} (keep : Bool) : P s → P (s.engineReset keep)
  enableIdle {s : State} : P s → P s.enableIdle
  beginPause {s : State} : P s → P s.beginPause
  resume {s : State} : P s → P s.resume
  writeTail {s : State} (q : SqId) (w : RegWrite) : P s → P (s.writeTail q w)
  writeHead {s : State} (c : CqId) (w : RegWrite) : P s → P (s.writeHead c w)
  writeEventHead {s : State} (w : RegWrite) : P s → P (s.writeEventHead w)
  retire {s : State} (tag : Nat) : P s → P (s.retire tag)
  setAdm {s : State} (a : Admin) : P s → P (s.setAdm a)
  adminEnter {s : State} (r : Record) : P s → P (s.adminEnter r)
  adminDone {s : State} (st : Status) (v : Option Half) : P s → P (s.adminDone st v)
  createSq {s : State} (r : Record) : P s → P (runCreateSq r s)
  deleteSq {s : State} (r : Record) : P s → P (runDeleteSq r s)
  createCq {s : State} (r : Record) : P s → P (runCreateCq r s)
  deleteCq {s : State} (r : Record) : P s → P (runDeleteCq r s)
  segmentSetup {s : State} (r : Record) : P s → P (runSegmentSetup r s)
  segmentOn {s : State} (r : Record) : P s → P (runSegmentOn r s)
  segmentOff {s : State} (r : Record) : P s → P (runSegmentOff r s)
  segmentRecover {s : State} (r : Record) : P s → P (runSegmentRecover r s)
  writeResult {s : State} (r : Record) (l : List Byte) : P s → P (s.writeResult r l)
  watchAdd {s : State} (r : Record) : P s → P (runWatchAdd r s)
  watchRemove {s : State} (r : Record) : P s → P (runWatchRemove r s)
  watchArm {s : State} (r : Record) : P s → P (runWatchArm r s)
  restoreAdd {s : State} (r : Record) : P s → P (runRestoreAdd r s)
  restoreDrop {s : State} (r : Record) : P s → P (runRestoreDrop r s)
  configureEvents {s : State} (r : Record) : P s → P (runConfigureEvents r s)
  abort {s : State} (r : Record) : P s → P (runAbort r s)
  ioEntry {s : State} (op : Byte) (tag : Nat) (b : Body) : P s → P (s.ioEntry op tag b)
  readFailed {s : State} (q : SqId) (tag : Nat) : P s → P (s.readFailed q tag)
  readDiscarded {s : State} (q : SqId) (tag : Nat) : P s → P (s.readDiscarded q tag)
  postingDone {s : State} (c : CqId) (tag : Nat) : P s → P (s.postingDone c tag)
  postingFailed {s : State} (c : CqId) (tag : Nat) : P s → P (s.postingFailed c tag)
  bufferWritten {s : State} (n : CtxNum) (tag : Nat) (ok : Bool) : P s → P (s.bufferWritten n tag ok)
  eventWritten {s : State} (tag : Nat) : P s → P (s.eventWritten tag)
  eventFailed {s : State} (tag : Nat) : P s → P (s.eventFailed tag)
  offerRetry {s : State} (r : Requester) : P s → P (s.offerRetry r)
  offerPollWait {s : State} (n : CtxNum) : P s → P (s.offerPollWait n)
  passDeadline {s : State} (n : CtxNum) : P s → P (s.passDeadline n)
  becomeDue {s : State} (w : WatchId) : P s → P (s.becomeDue w)
  faultIfStuck {s : State} (g : SegId) : P s → P (s.faultIfStuck g)
  sampled {s : State} (low : LineReads) : P s → P (segIds.foldl State.faultIfStuck (s.sampleLines low))
  boundary {s : State} (g : SegId) : P s → P (s.boundary g)
  attemptEnd {s : State} (g : SegId) (a : BitVec 2) (d : Half) (p : Bool) : P s → P (s.attemptEnd g a d p)
  broadcastEnd {s : State} (g : SegId) : P s → P (s.broadcastEnd g)
  pulseEnd {s : State} (g : SegId) (high : Bool) : P s → P (s.pulseEnd g high)
  recoveryEnd {s : State} (g : SegId) : P s → P (s.recoveryEnd g)

/-- What each operation of a fold keeps, the fold keeps. -/
theorem foldl_keeps {β : Type} {P : State → Prop} {f : State → β → State} (h : ∀ s b, P s → P (f s b)) (l : List β)
    {s : State} (hs : P s) : P (l.foldl f s) := by
  induction l generalizing s with
  | nil => exact hs
  | cons b l ih => exact ih (h s b hs)

/-- A command that answers with its own effect, settled, answers nothing else. -/
theorem next_of_done {u t : State} (h : done u = .next t) : t = u.settle := (Host.Outcome.next.inj h).symm

namespace State.Kept

variable {P : State → Prop} (k : State.Kept P) {s t : State}
include k

/-! ### Passing time -/

theorem resultWritten (tag : Nat) (ok : Bool) (hs : P s) : P (s.resultWritten tag ok) := by
  rw [State.resultWritten]
  split
  · exact k.adminDone _ _ (k.retire _ hs)
  · exact k.retire _ hs

theorem failAccess (a : Access) (tag : Nat) (hs : P s) : P (s.failAccess a tag) := by
  cases a with
  | entryRead q => exact k.readFailed q tag hs
  | completion c => exact k.postingFailed c tag hs
  | buffer n => exact k.bufferWritten n tag false hs
  | result => exact k.resultWritten tag false hs
  | event => exact k.eventFailed tag hs

theorem take (e : TimedEvent) (hs : P s) : P (s.take e) := by
  cases e with
  | retry r => exact k.offerRetry r hs
  | interval n => exact k.offerPollWait n hs
  | deadline n => exact k.passDeadline n hs
  | due w => exact k.becomeDue w hs
  | limit a tag => exact k.failAccess a tag hs

theorem takeIfCome (e : TimedEvent) (hs : P s) : P (s.takeIfCome e) := by
  rw [State.takeIfCome]
  split
  · exact k.settle (k.take e hs)
  · exact hs

theorem passTick (low : LineReads) (hs : P s) : P (s.passTick low) :=
  k.settle (k.sampled low (foldl_keeps (fun _ e => k.takeIfCome e) _ hs))

theorem passTicks (low : LineReads) (n : Nat) (hs : P s) : P (s.passTicks low n) := by
  induction n generalizing s with
  | zero => exact hs
  | succ n ih => exact ih (k.passTick low hs)

theorem advance (tick : Nat) (hs : P s) : P (s.advance tick) := k.passTicks _ _ hs

theorem await (e : TimedEvent) (hs : P s) : P (s.await e) := by
  rw [State.await]
  split
  next => exact hs
  next tick _ =>
    split
    · exact k.take e (k.advance tick hs)
    · exact k.advance tick hs

theorem timedOut (a : Access) (tag : Nat) (hs : P s) : P (s.timedOut a tag) := by
  rw [State.timedOut]
  split
  next tick _ => exact k.failAccess a tag (k.advance tick hs)
  next => exact k.failAccess a tag hs

theorem stuckLine (g : SegId) (hs : P s) : P (s.stuckLine g) := by
  rw [State.stuckLine]
  split
  · exact k.faultIfStuck g (k.passTicks _ _ hs)
  · exact hs

theorem tick (hs : P s) : P s.tick := k.queue _ (k.passTick _ hs)

/-! ### Commands -/

theorem writeControl (w : RegWrite) (hs : P s) : P (s.writeControl w) := by
  rw [State.writeControl]
  dsimp only
  split
  · exact k.engineReset _ hs
  · have held := k.control { s.ctl with
        enable := (w.onto s.ctl.controlWord).getLsbD 0
        keepTargets := (w.onto s.ctl.controlWord).getLsbD 2 } hs
    split
    · exact k.settle (k.enableIdle held)
    · exact k.settle (k.beginPause held)
    · exact k.settle (k.resume held)
    · exact k.settle (k.resume held)
    · exact held

theorem adminEntry {run : Record → State → State} (rule : ∀ {s : State} r, P s → P (run r s)) (op : Byte) (tag : Nat)
    (b : Body) (hs : P s) : P (s.adminEntry op tag b run) := by
  rw [State.adminEntry]
  have entered := k.adminEnter (Record.of op b) (k.retire tag hs)
  split
  · exact k.retire tag hs
  · split
    · exact k.setAdm _ (k.retire tag hs)
    · dsimp only
      split
      · exact k.adminDone _ _ entered
      · exact rule _ entered

theorem adminInvalid (op : Byte) (tag : Nat) (b : Body) (hs : P s) : P (s.adminInvalid op tag b) := by
  rw [State.adminInvalid]
  split
  · exact k.retire tag hs
  · split
    · exact k.setAdm _ (k.retire tag hs)
    · exact k.adminDone _ _ (k.adminEnter _ (k.retire tag hs))

theorem querySegment (r : Record) (hs : P s) : P (runQuerySegment r s) := by
  rw [runQuerySegment]
  split
  · exact k.adminDone _ _ hs
  · exact k.writeResult _ _ hs

theorem queryTarget (r : Record) (hs : P s) : P (runQueryTarget r s) := by
  rw [runQueryTarget]
  split
  · exact k.adminDone _ _ hs
  · exact k.writeResult _ _ hs

theorem queryWatch (r : Record) (hs : P s) : P (runQueryWatch r s) := by
  rw [runQueryWatch]
  split
  · exact k.adminDone _ _ hs
  · split
    · exact k.adminDone _ _ hs
    · exact k.writeResult _ _ hs

/-- A command that answers with its own effect, settled, keeps `P` when its effect does. -/
theorem of_done {u : State} (h : done u = .next t) (hu : P u) : P t := next_of_done h ▸ k.settle hu

/-- An admin command keeps `P` when its own rule does. -/
theorem of_admin {run : Record → State → State} (rule : ∀ {s : State} r, P s → P (run r s)) {op : Byte} {tag : Nat}
    {b : Body} (h : done (s.adminEntry op tag b run) = .next t) (hs : P s) : P t :=
  k.of_done h (k.adminEntry rule op tag b hs)

theorem exec {i : Instr} (hs : P s) (h : exec i s = .next t) : P t := by
  cases i with
  | powerOnReset => cases h; exact k.powerOn _
  | hostLinkReset => cases h; exact k.interrupts _ (k.engineReset false hs)
  | msiConfigChange on n =>
    have h : execMsiConfigChange on n s = .next t := h
    rw [execMsiConfigChange] at h
    split at h
    · cases h; exact k.interrupts _ hs
    · cases h
  | enable w => cases h; exact k.writeControl w hs
  | enableResume w => cases h; exact k.writeControl w hs
  | pause w => cases h; exact k.writeControl w hs
  | reset w => cases h; exact k.writeControl w hs
  | engineControlWrite w => cases h; exact k.writeControl w hs
  | adminQueueRegisterWrite reg en v =>
    have h : execAdminQueueRegisterWrite reg en v s = .next t := h
    unfold execAdminQueueRegisterWrite at h
    split at h
    · cases reg with
      | sqBase => cases h; exact k.control _ hs
      | cqBase => cases h; exact k.control _ hs
      | sizes => cases h; exact k.control _ hs
    · cases h; exact hs
  | sqTailWrite q w => exact k.of_done h (k.writeTail q w hs)
  | cqHeadWrite c w => exact k.of_done h (k.writeHead c w hs)
  | eqHeadWrite w => exact k.of_done h (k.writeEventHead w hs)
  | interruptMaskSetWrite w => cases h; exact k.interrupts _ hs
  | interruptMaskClearWrite w => cases h; exact k.interrupts _ hs
  | interruptPendingWrite w => cases h; exact k.interrupts _ hs
  | registerWriteOther offset w =>
    have h : execRegisterWriteOther offset w s = .next t := h
    rw [execRegisterWriteOther] at h
    split at h
    · cases h; exact hs
    · cases h
  | createSq tag b => exact k.of_admin k.createSq h hs
  | deleteSq tag b => exact k.of_admin k.deleteSq h hs
  | createCq tag b => exact k.of_admin k.createCq h hs
  | deleteCq tag b => exact k.of_admin k.deleteCq h hs
  | segmentSetup tag b => exact k.of_admin k.segmentSetup h hs
  | segmentOn tag b => exact k.of_admin k.segmentOn h hs
  | segmentOff tag b => exact k.of_admin k.segmentOff h hs
  | segmentRecover tag b => exact k.of_admin k.segmentRecover h hs
  | querySegment tag b => exact k.of_admin k.querySegment h hs
  | queryTarget tag b => exact k.of_admin k.queryTarget h hs
  | watchAdd tag b => exact k.of_admin k.watchAdd h hs
  | watchRemove tag b => exact k.of_admin k.watchRemove h hs
  | watchArm tag b => exact k.of_admin k.watchArm h hs
  | queryWatch tag b => exact k.of_admin k.queryWatch h hs
  | restoreAdd tag b => exact k.of_admin k.restoreAdd h hs
  | restoreDrop tag b => exact k.of_admin k.restoreDrop h hs
  | configureEvents tag b => exact k.of_admin k.configureEvents h hs
  | abort tag b => exact k.of_admin k.abort h hs
  | read tag b => exact k.of_done h (k.ioEntry _ tag b hs)
  | write tag b => exact k.of_done h (k.ioEntry _ tag b hs)
  | maskedWrite tag b => exact k.of_done h (k.ioEntry _ tag b hs)
  | broadcastWrite tag b => exact k.of_done h (k.ioEntry _ tag b hs)
  | readBlock tag b => exact k.of_done h (k.ioEntry _ tag b hs)
  | waitUntil tag b => exact k.of_done h (k.ioEntry _ tag b hs)
  | fence tag b => exact k.of_done h (k.ioEntry _ tag b hs)
  | invalidOpcodeEntry admin tag op b =>
    have h : execInvalidOpcodeEntry admin tag op b s = .next t := h
    rw [execInvalidOpcodeEntry] at h
    split at h
    · cases h
    · split at h
      · exact k.of_done h (k.adminInvalid op tag b hs)
      · exact k.of_done h (k.ioEntry op tag b hs)
  | entryReadFail q tag => exact k.of_done h (k.readFailed q tag hs)
  | discardedEntryRead q tag => exact k.of_done h (k.readDiscarded q tag hs)
  | dmaAccessTimeout a tag => exact k.of_done h (k.timedOut a tag hs)
  | frameBoundary g => exact k.of_done h (k.boundary g hs)
  | frameAttemptEnd g a d p => exact k.of_done h (k.attemptEnd g a d p hs)
  | broadcastFrameEnd g => exact k.of_done h (k.broadcastEnd g hs)
  | retryDelayEnd r => exact k.of_done h (k.await (.retry r) hs)
  | pollIntervalEnd n => exact k.of_done h (k.await (.interval n) hs)
  | waitUntilDeadline n => exact k.of_done h (k.await (.deadline n) hs)
  | watchDue w => exact k.of_done h (k.await (.due w) hs)
  | stuckLineDetected g => exact k.of_done h (k.stuckLine g hs)
  | recoveryPulseEnd g high => exact k.of_done h (k.pulseEnd g high hs)
  | recoveryIdleEnd g => exact k.of_done h (k.recoveryEnd g hs)
  | bufferWriteDone n tag ok => exact k.of_done h (k.bufferWritten n tag ok hs)
  | resultWriteDone tag ok => exact k.of_done h (k.resultWritten tag ok hs)
  | completionWriteDone c tag => exact k.of_done h (k.postingDone c tag hs)
  | completionWriteFail c tag => exact k.of_done h (k.postingFailed c tag hs)
  | eventWriteDone tag => exact k.of_done h (k.eventWritten tag hs)
  | eventWriteFail tag => exact k.of_done h (k.eventFailed tag hs)

theorem step (hs : P s) (h : step s = .next t) : P t := by
  rw [Machine.step] at h
  split at h
  · exact Host.Outcome.next.inj h ▸ k.tick hs
  · exact k.exec (k.queue _ hs) h

end State.Kept

end Sys2Proof.Machine
end

section
/-! PROOFS. Every step keeps the restore pool's one form (R133, R134). Only three operations put entries into the pool or
take them out: RESTORE_ADD and the KEEP hand-off put one when the list holds its index or the pool has room, and
RESTORE_DROP takes some out. Every other operation leaves the pool alone, and most leave the Presence Table alone too. -/

namespace Sys2Proof.Machine

set_option Elab.async false -- one thread elaborates: the checker's memory is limited

/-! ### What leaves the restore pool and the Presence Table alone -/

theorem State.enableIdle_targets (s : State) : s.enableIdle.pool = s.pool ∧ s.enableIdle.presence = s.presence := by
  unfold State.enableIdle
  dsimp only
  split <;> simp

theorem State.beginPause_targets (s : State) :
    s.beginPause.pool = s.pool ∧ s.beginPause.presence = s.presence := by
  simp [State.beginPause]

theorem State.resume_targets (s : State) : s.resume.pool = s.pool ∧ s.resume.presence = s.presence := by
  simp [State.resume, foldl_same State.pool, foldl_same State.presence]

theorem State.writeTail_targets (s : State) (q : SqId) (w : RegWrite) :
    (s.writeTail q w).pool = s.pool ∧ (s.writeTail q w).presence = s.presence := by
  unfold State.writeTail
  dsimp only
  (repeat' split) <;> simp

theorem State.writeHead_targets (s : State) (c : CqId) (w : RegWrite) :
    (s.writeHead c w).pool = s.pool ∧ (s.writeHead c w).presence = s.presence := by
  unfold State.writeHead State.reRaise
  dsimp only
  (repeat' split) <;> simp

theorem State.writeEventHead_targets (s : State) (w : RegWrite) :
    (s.writeEventHead w).pool = s.pool ∧ (s.writeEventHead w).presence = s.presence := by
  unfold State.writeEventHead State.reRaise
  dsimp only
  (repeat' split) <;> simp

theorem runCreateSq_targets (r : Record) (s : State) :
    (runCreateSq r s).pool = s.pool ∧ (runCreateSq r s).presence = s.presence := by
  unfold runCreateSq
  dsimp only
  (repeat' split) <;> simp

theorem runCreateCq_targets (r : Record) (s : State) :
    (runCreateCq r s).pool = s.pool ∧ (runCreateCq r s).presence = s.presence := by
  unfold runCreateCq
  dsimp only
  (repeat' split) <;> simp

theorem runDeleteCq_targets (r : Record) (s : State) :
    (runDeleteCq r s).pool = s.pool ∧ (runDeleteCq r s).presence = s.presence := by
  unfold runDeleteCq
  (repeat' split) <;> simp

theorem State.startDelete_targets (s : State) (q : SqId) :
    (s.startDelete q).pool = s.pool ∧ (s.startDelete q).presence = s.presence := by
  simp [State.startDelete, State.deleteCtx, foldl_same State.pool, foldl_same State.presence]

theorem runDeleteSq_targets (r : Record) (s : State) :
    (runDeleteSq r s).pool = s.pool ∧ (runDeleteSq r s).presence = s.presence := by
  unfold runDeleteSq
  (repeat' split) <;> simp [State.startDelete_targets]

theorem State.abortCtx_targets (s : State) (c : Ctx) :
    (s.abortCtx c).1.pool = s.pool ∧ (s.abortCtx c).1.presence = s.presence := by
  unfold State.abortCtx
  (repeat' split) <;> simp

theorem runAbort_targets (r : Record) (s : State) :
    (runAbort r s).pool = s.pool ∧ (runAbort r s).presence = s.presence := by
  unfold runAbort
  (repeat' split) <;> simp [State.abortCtx_targets]

theorem runSegmentSetup_targets (r : Record) (s : State) :
    (runSegmentSetup r s).pool = s.pool ∧ (runSegmentSetup r s).presence = s.presence := by
  unfold runSegmentSetup
  (repeat' split) <;> simp

theorem runSegmentOn_targets (r : Record) (s : State) :
    (runSegmentOn r s).pool = s.pool ∧ (runSegmentOn r s).presence = s.presence := by
  unfold runSegmentOn
  (repeat' split) <;> simp

theorem runSegmentOff_pool (r : Record) (s : State) : (runSegmentOff r s).pool = s.pool := by
  unfold runSegmentOff
  (repeat' split) <;> simp

theorem runSegmentRecover_targets (r : Record) (s : State) :
    (runSegmentRecover r s).pool = s.pool ∧ (runSegmentRecover r s).presence = s.presence := by
  unfold runSegmentRecover
  (repeat' split) <;> simp

theorem State.writeResult_targets (s : State) (r : Record) (l : List Byte) :
    (s.writeResult r l).pool = s.pool ∧ (s.writeResult r l).presence = s.presence := by
  unfold State.writeResult
  split <;> simp

theorem runWatchAdd_targets (r : Record) (s : State) :
    (runWatchAdd r s).pool = s.pool ∧ (runWatchAdd r s).presence = s.presence := by
  unfold runWatchAdd
  dsimp only
  (repeat' split) <;> simp

theorem runWatchRemove_targets (r : Record) (s : State) :
    (runWatchRemove r s).pool = s.pool ∧ (runWatchRemove r s).presence = s.presence := by
  unfold runWatchRemove
  dsimp only
  (repeat' split) <;> simp

theorem runWatchArm_targets (r : Record) (s : State) :
    (runWatchArm r s).pool = s.pool ∧ (runWatchArm r s).presence = s.presence := by
  unfold runWatchArm
  dsimp only
  (repeat' split) <;> simp

theorem runConfigureEvents_targets (r : Record) (s : State) :
    (runConfigureEvents r s).pool = s.pool ∧ (runConfigureEvents r s).presence = s.presence := by
  unfold runConfigureEvents
  dsimp only
  (repeat' split) <;> simp

theorem State.readFailed_pool (s : State) (q : SqId) (tag : Nat) : (s.readFailed q tag).pool = s.pool := by
  unfold State.readFailed
  (repeat' split) <;> simp

theorem State.readDiscarded_targets (s : State) (q : SqId) (tag : Nat) :
    (s.readDiscarded q tag).pool = s.pool ∧ (s.readDiscarded q tag).presence = s.presence := by
  unfold State.readDiscarded
  (repeat' split) <;> simp

theorem State.postingDone_targets (s : State) (c : CqId) (tag : Nat) :
    (s.postingDone c tag).pool = s.pool ∧ (s.postingDone c tag).presence = s.presence := by
  unfold State.postingDone
  dsimp only
  (repeat' split) <;> simp

theorem State.postingFailed_pool (s : State) (c : CqId) (tag : Nat) : (s.postingFailed c tag).pool = s.pool := by
  unfold State.postingFailed
  dsimp only
  (repeat' split) <;> simp

theorem State.bufferWritten_targets (s : State) (n : CtxNum) (tag : Nat) (ok : Bool) :
    (s.bufferWritten n tag ok).pool = s.pool ∧ (s.bufferWritten n tag ok).presence = s.presence := by
  unfold State.bufferWritten
  dsimp only
  (repeat' split) <;> simp

theorem State.eventWritten_targets (s : State) (tag : Nat) :
    (s.eventWritten tag).pool = s.pool ∧ (s.eventWritten tag).presence = s.presence := by
  unfold State.eventWritten
  dsimp only
  (repeat' split) <;> simp

theorem State.eventFailed_targets (s : State) (tag : Nat) :
    (s.eventFailed tag).pool = s.pool ∧ (s.eventFailed tag).presence = s.presence := by
  unfold State.eventFailed
  dsimp only
  (repeat' split) <;> simp

theorem State.offerRetry_targets (s : State) (r : Requester) :
    (s.offerRetry r).pool = s.pool ∧ (s.offerRetry r).presence = s.presence :=
  ⟨State.offerRetry_view State.pool (fun _ _ => rfl) (fun _ _ => rfl) (fun _ _ => rfl) (fun _ _ => rfl) s r,
   State.offerRetry_view State.presence (fun _ _ => rfl) (fun _ _ => rfl) (fun _ _ => rfl) (fun _ _ => rfl) s r⟩

theorem State.offerPollWait_targets (s : State) (n : CtxNum) :
    (s.offerPollWait n).pool = s.pool ∧ (s.offerPollWait n).presence = s.presence := by
  unfold State.offerPollWait
  split <;> simp

theorem State.passDeadline_targets (s : State) (n : CtxNum) :
    (s.passDeadline n).pool = s.pool ∧ (s.passDeadline n).presence = s.presence := by
  unfold State.passDeadline
  (repeat' split) <;> simp

theorem State.becomeDue_targets (s : State) (w : WatchId) :
    (s.becomeDue w).pool = s.pool ∧ (s.becomeDue w).presence = s.presence := by
  unfold State.becomeDue
  (repeat' split) <;> simp

theorem State.faultIfStuck_pool (s : State) (g : SegId) : (s.faultIfStuck g).pool = s.pool := by
  unfold State.faultIfStuck
  split <;> simp

theorem State.pulseEnd_targets (s : State) (g : SegId) (high : Bool) :
    (s.pulseEnd g high).pool = s.pool ∧ (s.pulseEnd g high).presence = s.presence := by
  unfold State.pulseEnd State.recoverDone
  dsimp only
  (repeat' split) <;> simp

theorem State.recoveryEnd_targets (s : State) (g : SegId) :
    (s.recoveryEnd g).pool = s.pool ∧ (s.recoveryEnd g).presence = s.presence := by
  unfold State.recoveryEnd State.recoverDone
  dsimp only
  (repeat' split) <;> simp

/-! ### Putting entries in and taking them out -/

theorem poolInv_congr {s t : State} (h : t.pool = s.pool) (hs : s.poolInv) : t.poolInv := by
  unfold State.poolInv at *
  rwa [h]

/-- A value is recorded only where it replaces one or finds room, so the pool stays within its size. -/
theorem poolInv_record {s : State} {t : Tgt} {i : Byte} (hs : s.poolInv) (h : s.canRecord t i = true) (v : Half) :
    (s.record t i v).poolInv := by
  obtain ⟨sorted, bound⟩ := hs
  refine ⟨poolPut_sorted sorted, ?_⟩
  show (poolPut _ s.pool).length ≤ poolSize
  rw [length_poolPut sorted]
  split
  next => exact bound
  next fresh =>
    have room : s.pool.length < poolSize := by
      simp only [State.canRecord, Bool.or_eq_true, List.any_eq_true, decide_eq_true_eq] at h
      refine h.resolve_left fun ⟨d, hd, hi⟩ => fresh ?_
      obtain ⟨mem, ht⟩ := List.mem_filter.1 hd
      exact ⟨d, mem, PoolEntry.key_eq.2 ⟨beq_iff_eq.1 ht, beq_iff_eq.1 hi⟩⟩
    exact room

theorem poolInv_keepHandOff {s : State} (hs : s.poolInv) (c : Ctx) (frame : FrameKind) (a : Attempt) :
    (s.keepHandOff c frame a).poolInv := by
  rw [State.keepHandOff]
  split
  next h => exact poolInv_record hs h.2.2.2 _
  next => exact hs

/-- The pool after a host attempt is the pool after its KEEP hand-off. -/
theorem poolInv_hostAttempt {s : State} (hs : s.poolInv) (g : SegId) (n : CtxNum) (frame : FrameKind) (a : Attempt) :
    (s.hostAttempt g n frame a).poolInv := by
  rw [State.hostAttempt]
  split
  next => exact hs
  next c _ =>
    have kept := poolInv_keepHandOff hs c frame a
    dsimp only
    split
    · exact poolInv_congr (by simp) kept
    · exact poolInv_congr (by simp) kept

theorem poolInv_toOwner {s : State} (hs : s.poolInv) (g : SegId) (w : Wire) (a : Attempt) : (s.toOwner g w a).poolInv := by
  rw [State.toOwner]
  split
  · exact poolInv_hostAttempt hs g _ w.kind a
  · exact poolInv_congr (by simp) hs
  · exact poolInv_congr (by simp) hs
  · exact poolInv_congr (by simp) hs

theorem poolInv_attemptEnd {s : State} (hs : s.poolInv) (g : SegId) (x : BitVec 2) (d : Half) (p : Bool) :
    (s.attemptEnd g x d p).poolInv := by
  rw [State.attemptEnd]
  split
  next => exact hs
  next w _ =>
    split
    next => exact hs
    next t _ =>
      have reported : ((s.clearWire g).report t w.owner.source (Attempt.ofAnswer w.kind x d p)).poolInv :=
        poolInv_congr (by simp) hs
      exact poolInv_congr (by simp) (poolInv_toOwner reported g w (Attempt.ofAnswer w.kind x d p))

theorem poolInv_restoreAdd {s : State} (hs : s.poolInv) (r : Record) : (runRestoreAdd r s).poolInv := by
  rw [runRestoreAdd]
  split
  next => exact poolInv_congr (by simp) hs
  next t _ =>
    split
    next h => exact poolInv_congr (by simp) (poolInv_record hs h (r.half 8))
    next => exact poolInv_congr (by simp) hs

theorem poolInv_restoreDrop {s : State} (hs : s.poolInv) (r : Record) : (runRestoreDrop r s).poolInv := by
  rw [runRestoreDrop]
  split
  next t all _ _ =>
    have dropped : ({ s with pool := s.pool.filter fun e => !dropSelects t all (r.byte 6) e } : State).poolInv :=
      ⟨hs.1.filter _, (List.length_filter_le _ _).trans hs.2⟩
    exact poolInv_congr (by simp) dropped
  next => exact poolInv_congr (by simp) hs

theorem poolInv_reset : State.reset.poolInv := ⟨List.Pairwise.nil, Nat.zero_le _⟩

/-! ### The statement -/

theorem poolInv_kept : State.Kept State.poolInv where
  queue _ h := h
  settle h := poolInv_congr (by simp) h
  control _ h := h
  interrupts _ h := h
  powerOn _ := poolInv_reset
  engineReset keep h := by
    cases keep with
    | false => exact poolInv_reset
    | true => exact h
  enableIdle h := poolInv_congr (State.enableIdle_targets _).1 h
  beginPause h := poolInv_congr (State.beginPause_targets _).1 h
  resume h := poolInv_congr (State.resume_targets _).1 h
  writeTail q w h := poolInv_congr (State.writeTail_targets _ q w).1 h
  writeHead c w h := poolInv_congr (State.writeHead_targets _ c w).1 h
  writeEventHead w h := poolInv_congr (State.writeEventHead_targets _ w).1 h
  retire _ h := h
  setAdm _ h := h
  adminEnter _ h := poolInv_congr (by simp) h
  adminDone _ _ h := poolInv_congr (by simp) h
  createSq r h := poolInv_congr (runCreateSq_targets r _).1 h
  deleteSq r h := poolInv_congr (runDeleteSq_targets r _).1 h
  createCq r h := poolInv_congr (runCreateCq_targets r _).1 h
  deleteCq r h := poolInv_congr (runDeleteCq_targets r _).1 h
  segmentSetup r h := poolInv_congr (runSegmentSetup_targets r _).1 h
  segmentOn r h := poolInv_congr (runSegmentOn_targets r _).1 h
  segmentOff r h := poolInv_congr (runSegmentOff_pool r _) h
  segmentRecover r h := poolInv_congr (runSegmentRecover_targets r _).1 h
  writeResult r l h := poolInv_congr (State.writeResult_targets _ r l).1 h
  watchAdd r h := poolInv_congr (runWatchAdd_targets r _).1 h
  watchRemove r h := poolInv_congr (runWatchRemove_targets r _).1 h
  watchArm r h := poolInv_congr (runWatchArm_targets r _).1 h
  restoreAdd r h := poolInv_restoreAdd h r
  restoreDrop r h := poolInv_restoreDrop h r
  configureEvents r h := poolInv_congr (runConfigureEvents_targets r _).1 h
  abort r h := poolInv_congr (runAbort_targets r _).1 h
  ioEntry _ _ _ h := poolInv_congr (by simp) h
  readFailed q tag h := poolInv_congr (State.readFailed_pool _ q tag) h
  readDiscarded q tag h := poolInv_congr (State.readDiscarded_targets _ q tag).1 h
  postingDone c tag h := poolInv_congr (State.postingDone_targets _ c tag).1 h
  postingFailed c tag h := poolInv_congr (State.postingFailed_pool _ c tag) h
  bufferWritten n tag ok h := poolInv_congr (State.bufferWritten_targets _ n tag ok).1 h
  eventWritten tag h := poolInv_congr (State.eventWritten_targets _ tag).1 h
  eventFailed tag h := poolInv_congr (State.eventFailed_targets _ tag).1 h
  offerRetry r h := poolInv_congr (State.offerRetry_targets _ r).1 h
  offerPollWait n h := poolInv_congr (State.offerPollWait_targets _ n).1 h
  passDeadline n h := poolInv_congr (State.passDeadline_targets _ n).1 h
  becomeDue w h := poolInv_congr (State.becomeDue_targets _ w).1 h
  faultIfStuck g h := poolInv_congr (State.faultIfStuck_pool _ g) h
  sampled low h := poolInv_congr (foldl_same State.pool State.faultIfStuck State.faultIfStuck_pool _ _) h
  boundary _ h := poolInv_congr (by simp) h
  attemptEnd g x d p h := poolInv_attemptEnd h g x d p
  broadcastEnd _ h := poolInv_congr (by simp) h
  pulseEnd g high h := poolInv_congr (State.pulseEnd_targets _ g high).1 h
  recoveryEnd g h := poolInv_congr (State.recoveryEnd_targets _ g).1 h

/-- Settles O4: each operation of `State.Kept` keeps the pool's form. -/
theorem stepsKeepRestorePool : Obligations.StepsKeepRestorePool := fun _ _ hs h => poolInv_kept.step hs h

end Sys2Proof.Machine
end

section
/-! PROOFS. Every step keeps the numbers of the contexts out of FREE distinct (R63). Every operation but the taking of an
entry leaves contexts where they stand, or changes or frees some of them, so that the numbers afterwards are a sublist of
the numbers before (`Shrinks`); an entry takes a number that no context carries. -/

namespace Sys2Proof.Machine

set_option Elab.async false -- one thread elaborates: the checker's memory is limited

/-- The contexts of `t` carry numbers of contexts of `s`, in the order of `s`. -/
def Shrinks (s t : State) : Prop := (t.ctxs.map (·.num)).Sublist (s.ctxs.map (·.num))

theorem Shrinks.refl (s : State) : Shrinks s s := List.Sublist.refl _

theorem Shrinks.trans {s t u : State} (h : Shrinks s t) (k : Shrinks t u) : Shrinks s u := List.Sublist.trans k h

theorem Shrinks.of_eq {s t : State} (h : t.ctxs = s.ctxs) : Shrinks s t := by
  rw [Shrinks, h]

theorem Shrinks.distinct {s t : State} (h : Shrinks s t) (hs : s.distinct) : t.distinct := hs.sublist h

theorem Shrinks.foldl {β : Type} {f : State → β → State} (h : ∀ s b, Shrinks s (f s b)) (l : List β) (s : State) :
    Shrinks s (l.foldl f s) := by
  induction l generalizing s with
  | nil => exact .refl s
  | cons b l ih => exact (h s b).trans (ih _)

/-! ### Changing and freeing contexts -/

theorem shrinks_updCtx (s : State) (n : CtxNum) {f : Ctx → Ctx} (hf : ∀ c, (f c).num = c.num) :
    Shrinks s (s.updCtx n f) := by
  have same : (s.updCtx n f).ctxs.map (·.num) = s.ctxs.map (·.num) := by
    rw [State.updCtx, List.map_map]
    refine List.map_congr_left fun c _ => ?_
    dsimp only [Function.comp]
    split
    · exact hf c
    · rfl
  rw [Shrinks, same]

theorem Shrinks.of_updCtx {s t : State} (n : CtxNum) {f : Ctx → Ctx} (h : t.ctxs = (s.updCtx n f).ctxs)
    (hf : ∀ c, (f c).num = c.num) : Shrinks s t := (shrinks_updCtx s n hf).trans (.of_eq h)

theorem shrinks_filter (s : State) (p : Ctx → Bool) : Shrinks s (s.setCtxs (s.ctxs.filter p)) :=
  (List.filter_sublist).map _

theorem shrinks_freeCtx (s : State) (n : CtxNum) : Shrinks s (s.freeCtx n) := (List.filter_sublist).map _

theorem shrinks_becomeReady (s : State) (n : CtxNum) (st : Status) : Shrinks s (s.becomeReady n st) := by
  rw [State.becomeReady]
  split
  next => exact .refl s
  next c _ =>
    have unlisted : Shrinks s (s.unlist c) := .of_eq (by simp)
    dsimp only
    split
    · exact unlisted.trans (.of_updCtx n (f := (·.asReady st)) rfl fun _ => rfl)
    · exact unlisted.trans (shrinks_freeCtx _ n)

theorem shrinks_writeBuffer (s : State) (c : Ctx) (st : Status) : Shrinks s (s.writeBuffer c st) := by
  have issued : Shrinks s (s.issue (.buffer c.num) c.record.address c.stagedBytes) := .of_eq (by simp)
  exact issued.trans (.of_updCtx c.num (f := (·.asWriting st s.link.next)) rfl fun _ => rfl)

theorem shrinks_finish (s : State) (n : CtxNum) (st : Status) : Shrinks s (s.finish n st) := by
  rw [State.finish]
  split
  next => exact .refl s
  next c _ =>
    split
    · exact shrinks_writeBuffer s c st
    · exact shrinks_becomeReady s n st

theorem shrinks_cancel (st : Status) (s : State) (n : CtxNum) : Shrinks s (State.cancel st s n) := by
  rw [State.cancel]
  split
  next => exact .refl s
  next c _ =>
    refine Shrinks.trans (.of_eq ?_) (shrinks_finish _ n st)
    (repeat' split) <;> simp

theorem shrinks_abortChain (s : State) (id : Nat) : Shrinks s (s.abortChain id) :=
  (Shrinks.foldl (shrinks_cancel .chainAborted) _ s).trans (.of_eq rfl)

theorem shrinks_memberEnded (s : State) (c : Ctx) (st : Status) : Shrinks s (s.memberEnded c st) := by
  rw [State.memberEnded]
  split
  next => exact .refl s
  next m _ =>
    split
    · exact .refl s
    · exact Shrinks.trans (.of_eq (by simp)) (shrinks_abortChain _ m.id)

theorem shrinks_endCommand (s : State) (n : CtxNum) (st : Status) : Shrinks s (s.endCommand n st) := by
  rw [State.endCommand]
  split
  next => exact .refl s
  next c _ =>
    have finished : Shrinks s ((s.updSeg c.seg (·.endHoldOf n)).finish n st) :=
      Shrinks.trans (.of_eq (by simp)) (shrinks_finish _ n st)
    dsimp only
    split
    · exact finished
    · exact finished.trans (shrinks_memberEnded _ c st)

theorem shrinks_endAborted (s : State) (n : CtxNum) : Shrinks s (s.endAborted n) := by
  rw [State.endAborted]
  split
  next => exact .refl s
  next c _ =>
    dsimp only
    split
    next m _ => exact (shrinks_cancel .aborted s n).trans (shrinks_abortChain _ m.id)
    next => exact shrinks_cancel .aborted s n

theorem shrinks_discard (s : State) (n : CtxNum) : Shrinks s (s.discard n) := by
  rw [State.discard]
  split
  next => exact .refl s
  next c _ => exact Shrinks.trans (.of_eq (by simp)) (shrinks_freeCtx _ n)

/-! ### Completions and queue errors -/

theorem shrinks_freeItem (s : State) (i : ReadyItem) : Shrinks s (s.freeItem i) := by
  cases i with
  | ctx n => exact shrinks_freeCtx s n
  | admin => exact .of_eq rfl

theorem shrinks_adminDone (s : State) (st : Status) (v : Option Half) : Shrinks s (s.adminDone st v) := by
  rw [State.adminDone]
  split
  next => exact .refl s
  next =>
    split
    · exact .of_eq rfl
    · exact shrinks_freeItem s .admin

theorem shrinks_sqError (cause : QueueCause) (s : State) (q : SqId) : Shrinks s (State.sqError cause s q) := by
  rw [State.sqError]
  dsimp only
  split
  · split
    next c _ => exact Shrinks.trans (.of_eq (by simp)) (shrinks_abortChain _ c.id)
    next => exact .of_eq (by simp)
  · exact .refl s

theorem shrinks_cqError (s : State) (c : CqId) (cause : QueueCause) : Shrinks s (s.cqError c cause) := by
  have emptied := Shrinks.foldl shrinks_freeItem (s.cq c).ready (s.setCq c { s.cq c with state := .error, ready := [] })
  refine Shrinks.trans (.of_eq (by simp)) (emptied.trans ?_)
  exact Shrinks.trans (.of_eq (by simp)) (Shrinks.foldl (shrinks_sqError .cqLost) _ _)

/-! ### Teardown and failure -/

theorem shrinks_tearDownCtx (st : Status) (s : State) (n : CtxNum) : Shrinks s (State.tearDownCtx st s n) := by
  rw [State.tearDownCtx]
  split
  next => exact .refl s
  next c _ =>
    split
    · exact .refl s
    · split
      · exact .refl s
      · split
        · exact shrinks_updCtx s n fun _ => rfl
        · exact shrinks_cancel st s n
    · exact shrinks_cancel st s n

theorem shrinks_endContexts (s : State) (g : SegId) (st : Status) : Shrinks s (s.endContexts g st) :=
  (Shrinks.foldl (shrinks_tearDownCtx st) _ s).trans (.of_eq rfl)

theorem shrinks_enterDraining (s : State) (g : SegId) : Shrinks s (s.enterDraining g) := by
  have ended := shrinks_endContexts
    ((s.updSeg g fun y => { y with state := .draining, stuckCount := 0 }).haltWatches g) g .segmentOff
  exact Shrinks.trans (.of_eq (by simp)) (ended.trans (.of_eq (by simp [State.enterDraining])))

theorem shrinks_drainIfDone (s : State) (g : SegId) : Shrinks s (s.drainIfDone g) := by
  rw [State.drainIfDone]
  split
  · dsimp only
    split
    · exact Shrinks.trans (.of_eq (by simp)) (shrinks_adminDone _ _ _)
    · exact .of_eq (by simp)
  · exact .refl s

theorem shrinks_faultSegment (s : State) (g : SegId) : Shrinks s (s.faultSegment g) := by
  have ended := shrinks_endContexts
    (((s.updSeg g fun y => { y with state := .faulted, stuckCount := 0 }).handEvent (.segmentFaulted g)).haltWatches g)
    g .segmentFault
  exact Shrinks.trans (.of_eq (by simp)) (ended.trans (.of_eq (by simp [State.faultSegment])))

theorem shrinks_faultIfStuck (s : State) (g : SegId) : Shrinks s (s.faultIfStuck g) := by
  rw [State.faultIfStuck]
  split
  · exact shrinks_faultSegment s g
  · exact .refl s

theorem shrinks_failSegment (s : State) (g : SegId) : Shrinks s (s.failSegment g) := by
  rw [State.failSegment]
  dsimp only
  split
  · exact Shrinks.trans (.of_eq (by simp)) (shrinks_drainIfDone _ g)
  · exact Shrinks.trans (.of_eq (by simp)) (shrinks_drainIfDone _ g)
  · exact .of_eq (by simp)
  · exact .of_eq (by simp)

theorem shrinks_failEngine (s : State) : Shrinks s s.failEngine := by
  refine Shrinks.trans ?_ (Shrinks.foldl shrinks_failSegment _ _)
  exact Shrinks.trans (.of_eq rfl) ((shrinks_filter _ _).trans (.of_eq rfl))

/-! ### Placing contexts and putting their frames on the wire -/

theorem shrinks_place (s : State) (n : CtxNum) : Shrinks s (s.place n) := by
  rw [State.place]
  split
  next => exact .refl s
  next c _ =>
    split
    · exact .of_updCtx n rfl fun _ => rfl
    · exact .of_updCtx n rfl fun _ => rfl

theorem shrinks_takeLock (s : State) (n : CtxNum) : Shrinks s (s.takeLock n) := by
  rw [State.takeLock]
  split
  next => exact .refl s
  next =>
    split
    · exact .refl s
    · exact Shrinks.trans (.of_eq (by simp)) (shrinks_place _ n)

theorem shrinks_placeByKind (s : State) (q : SqId) (n : CtxNum) (r : Record) (m : Option ChainMember) :
    Shrinks s (s.placeByKind q n r m) := by
  unfold State.placeByKind State.chainStart
  split
  · exact .refl s
  · split
    · split
      · split
        · exact shrinks_takeLock s n
        · exact .of_updCtx n rfl fun _ => rfl
      · exact shrinks_place s n
    · exact shrinks_place s n

theorem shrinks_settleEntry (s : State) (q : SqId) (n : CtxNum) (r : Record) (m : Option ChainMember) (first : Byte)
    (failed : Bool) : Shrinks s (s.settleEntry q n r m first failed) := by
  rw [State.settleEntry]
  split
  · exact shrinks_becomeReady s n _
  · split
    · exact shrinks_placeByKind s q n r m
    · dsimp only
      split
      · exact (shrinks_becomeReady s n _).trans (shrinks_abortChain _ _)
      · exact shrinks_becomeReady s n _

theorem shrinks_startHost (s : State) (g : SegId) (c : Ctx) : Shrinks s (s.startHost g c) :=
  .of_updCtx c.num rfl fun _ => rfl

theorem shrinks_yieldIfHeld (s : State) (g : SegId) : Shrinks s (s.yieldIfHeld g) := by
  rw [State.yieldIfHeld]
  split
  · exact .refl s
  · split
    · exact .of_updCtx _ rfl fun _ => rfl
    · exact .refl s

theorem shrinks_chooseHost (s : State) (g : SegId) (c : Ctx) : Shrinks s (s.chooseHost g c) :=
  Shrinks.trans (.of_eq (by simp)) (shrinks_startHost _ g c)

theorem shrinks_pollOrHost (s : State) (g : SegId) : Shrinks s (s.pollOrHost g) := by
  rw [State.pollOrHost]
  split
  · exact .refl s
  · exact .of_eq (by simp)
  · exact shrinks_chooseHost s g _
  · split
    · exact shrinks_chooseHost s g _
    · exact .of_eq (by simp)

theorem shrinks_boundary (s : State) (g : SegId) : Shrinks s (s.boundary g) := by
  unfold State.boundary State.holderFrame State.openBoundary
  split
  · refine (shrinks_yieldIfHeld s g).trans ?_
    dsimp only
    split
    · split
      · split
        · exact shrinks_startHost _ g _
        · exact .refl _
      · exact .refl _
    · split
      · exact .of_eq (by simp)
      · exact shrinks_pollOrHost _ g
  · exact .refl s

/-! ### Ends of attempts -/

theorem shrinks_goOn (s : State) (c : Ctx) (v : Verdict) : Shrinks s (s.goOn c v) := by
  cases v with
  | retry => exact shrinks_updCtx s c.num fun _ => rfl
  | pollWait => exact shrinks_updCtx s c.num fun _ => rfl
  | further => exact shrinks_updCtx s c.num fun _ => rfl
  | final st => exact shrinks_updCtx s c.num fun _ => rfl

theorem shrinks_judge (s : State) (c : Ctx) (v : Verdict) : Shrinks s (s.judge c v) := by
  unfold State.judge
  split
  · exact shrinks_endAborted s c.num
  · exact shrinks_endCommand s c.num _
  · exact shrinks_cancel _ s c.num
  · exact shrinks_goOn s c _

theorem Ctx.apply_num (c : Ctx) (frame : FrameKind) (a : Attempt) : (c.apply frame a).num = c.num := by
  unfold Ctx.apply Ctx.applyRead
  (repeat' split) <;> rfl

/-- The context that an attempt replaces by its outcome keeps its number. -/
theorem shrinks_replace {s : State} {n : CtxNum} {c : Ctx} (hc : s.ctx n = some c) (d : Ctx) (hd : d.num = c.num) :
    Shrinks s (s.updCtx n fun _ => d) := by
  have num : d.num = n := hd.trans (ctx_mem hc).2
  have same : s.updCtx n (fun _ => d) = s.updCtx n fun c => if c.num = n then d else c := by
    rw [State.updCtx, State.updCtx]
    congr 1
    refine List.map_congr_left fun e _ => ?_
    split <;> rfl
  rw [same]
  refine shrinks_updCtx s n fun e => ?_
  split
  next h => exact num.trans h.symm
  next => rfl

theorem shrinks_hostAttempt (s : State) (g : SegId) (n : CtxNum) (frame : FrameKind) (a : Attempt) :
    Shrinks s (s.hostAttempt g n frame a) := by
  rw [State.hostAttempt]
  split
  next => exact .refl s
  next c hc =>
    refine Shrinks.trans (t := s.keepHandOff c frame a) (.of_eq (by simp)) ?_
    have found : (s.keepHandOff c frame a).ctx n = some c := by simpa using hc
    dsimp only
    split
    · exact shrinks_discard _ n
    · exact (shrinks_replace found _ (c.apply_num frame a)).trans (shrinks_judge _ _ _)

theorem shrinks_removeDone (s : State) (w : WatchId) : Shrinks s (s.removeDone w) :=
  Shrinks.trans (.of_eq (by simp)) (shrinks_adminDone _ _ _)

theorem shrinks_pollAttempt (s : State) (g : SegId) (w : WatchId) (a : Attempt) : Shrinks s (s.pollAttempt g w a) := by
  rw [State.pollAttempt]
  split
  · exact .refl s
  · split
    · exact shrinks_removeDone s w
    · split
      · exact .of_eq (by simp)
      · exact .of_eq (by simp)

theorem shrinks_toOwner (s : State) (g : SegId) (w : Wire) (a : Attempt) : Shrinks s (s.toOwner g w a) := by
  rw [State.toOwner]
  split
  · exact shrinks_hostAttempt s g _ w.kind a
  · exact shrinks_pollAttempt s g _ a
  · exact .of_eq (by simp)
  · exact .of_eq (by simp)

theorem shrinks_attemptEnd (s : State) (g : SegId) (x : BitVec 2) (d : Half) (p : Bool) :
    Shrinks s (s.attemptEnd g x d p) := by
  rw [State.attemptEnd]
  split
  · exact .refl s
  · split
    · exact .refl s
    · exact Shrinks.trans (.of_eq (by simp)) ((shrinks_toOwner _ g _ _).trans (shrinks_drainIfDone _ g))

theorem shrinks_broadcastEnd (s : State) (g : SegId) : Shrinks s (s.broadcastEnd g) := by
  rw [State.broadcastEnd]
  split
  · exact .refl s
  · split
    next n _ _ =>
      refine Shrinks.trans (t := s.clearWire g) (.of_eq (by simp)) (Shrinks.trans ?_ (shrinks_drainIfDone _ g))
      split
      · exact shrinks_discard _ n
      · exact shrinks_endCommand _ n _
    next => exact .refl s

/-! ### Commands -/

theorem shrinks_adminDone_of {s u : State} (h : Shrinks s u) (st : Status) (v : Option Half) :
    Shrinks s (u.adminDone st v) := h.trans (shrinks_adminDone u st v)

theorem shrinks_runCreateSq (r : Record) (s : State) : Shrinks s (runCreateSq r s) := by
  unfold runCreateSq
  dsimp only
  repeat' split
  all_goals exact shrinks_adminDone_of (.of_eq (by simp)) _ _

theorem shrinks_runCreateCq (r : Record) (s : State) : Shrinks s (runCreateCq r s) := by
  unfold runCreateCq
  dsimp only
  repeat' split
  all_goals exact shrinks_adminDone_of (.of_eq (by simp)) _ _

theorem shrinks_runDeleteCq (r : Record) (s : State) : Shrinks s (runDeleteCq r s) := by
  unfold runDeleteCq
  repeat' split
  all_goals exact shrinks_adminDone_of (.of_eq (by simp)) _ _

theorem shrinks_startDelete (s : State) (q : SqId) : Shrinks s (s.startDelete q) := by
  have stopped : Shrinks s ((s.updSq q fun x => { x with state := .deleting }).releaseLock q) := .of_eq (by simp)
  exact stopped.trans ((Shrinks.foldl (shrinks_tearDownCtx .queueDeleted) _ _).trans (.of_eq rfl))

theorem shrinks_runDeleteSq (r : Record) (s : State) : Shrinks s (runDeleteSq r s) := by
  rw [runDeleteSq]
  split
  · exact shrinks_adminDone s _ _
  · split
    · exact shrinks_adminDone s _ _
    · exact shrinks_startDelete s _

theorem shrinks_abortCtx (s : State) (c : Ctx) : Shrinks s (s.abortCtx c).1 := by
  rw [State.abortCtx]
  split
  · exact .refl s
  · split
    · exact .refl s
    · split
      · split
        · exact .refl s
        · exact shrinks_updCtx s c.num fun _ => rfl
      · exact shrinks_endAborted s c.num
  · exact shrinks_endAborted s c.num

theorem shrinks_runAbort (r : Record) (s : State) : Shrinks s (runAbort r s) := by
  rw [runAbort]
  split
  · exact shrinks_adminDone s _ _
  · split
    · exact shrinks_adminDone s _ _
    · exact shrinks_adminDone_of (shrinks_abortCtx s _) _ _

theorem shrinks_runSegmentSetup (r : Record) (s : State) : Shrinks s (runSegmentSetup r s) := by
  unfold runSegmentSetup
  repeat' split
  all_goals exact shrinks_adminDone_of (.of_eq (by simp)) _ _

theorem shrinks_runSegmentOn (r : Record) (s : State) : Shrinks s (runSegmentOn r s) := by
  unfold runSegmentOn
  repeat' split
  all_goals exact shrinks_adminDone_of (.of_eq (by simp)) _ _

theorem shrinks_runSegmentOff (r : Record) (s : State) : Shrinks s (runSegmentOff r s) := by
  rw [runSegmentOff]
  split
  · exact shrinks_adminDone s _ _
  · split
    · exact Shrinks.trans (.of_eq (by simp)) ((shrinks_enterDraining _ _).trans (shrinks_drainIfDone _ _))
    · exact shrinks_adminDone_of (.of_eq (by simp)) _ _
    · exact shrinks_adminDone s _ _
    · exact shrinks_adminDone s _ _

theorem shrinks_runSegmentRecover (r : Record) (s : State) : Shrinks s (runSegmentRecover r s) := by
  rw [runSegmentRecover]
  split
  · exact shrinks_adminDone s _ _
  · split
    · exact .of_eq (by simp)
    · exact shrinks_adminDone s _ _

theorem shrinks_writeResult (s : State) (r : Record) (l : List Byte) : Shrinks s (s.writeResult r l) := by
  rw [State.writeResult]
  split
  · exact .of_eq (by simp)
  · exact shrinks_adminDone s _ _

theorem shrinks_runWatchAdd (r : Record) (s : State) : Shrinks s (runWatchAdd r s) := by
  unfold runWatchAdd
  dsimp only
  repeat' split
  all_goals exact shrinks_adminDone_of (.of_eq (by simp)) _ _

theorem shrinks_runWatchArm (r : Record) (s : State) : Shrinks s (runWatchArm r s) := by
  unfold runWatchArm
  dsimp only
  repeat' split
  all_goals exact shrinks_adminDone_of (.of_eq (by simp)) _ _

theorem shrinks_runWatchRemove (r : Record) (s : State) : Shrinks s (runWatchRemove r s) := by
  rw [runWatchRemove]
  split
  · exact shrinks_adminDone s _ _
  · split
    · exact shrinks_adminDone s _ _
    · dsimp only
      split
      · exact .of_eq (by simp)
      · exact Shrinks.trans (.of_eq (by simp)) (shrinks_removeDone _ _)

theorem shrinks_runRestoreAdd (r : Record) (s : State) : Shrinks s (runRestoreAdd r s) := by
  unfold runRestoreAdd
  repeat' split
  all_goals exact shrinks_adminDone_of (.of_eq (by simp)) _ _

theorem shrinks_runRestoreDrop (r : Record) (s : State) : Shrinks s (runRestoreDrop r s) := by
  unfold runRestoreDrop
  split
  all_goals exact shrinks_adminDone_of (.of_eq (by simp)) _ _

theorem shrinks_runConfigureEvents (r : Record) (s : State) : Shrinks s (runConfigureEvents r s) := by
  unfold runConfigureEvents
  dsimp only
  repeat' split
  all_goals exact shrinks_adminDone_of (.of_eq (by simp)) _ _

theorem shrinks_writeTail (s : State) (q : SqId) (w : RegWrite) : Shrinks s (s.writeTail q w) := by
  unfold State.writeTail
  dsimp only
  split
  · split
    · exact .of_eq (by simp)
    · exact shrinks_sqError _ s q
  · exact .refl s

theorem shrinks_writeHead (s : State) (c : CqId) (w : RegWrite) : Shrinks s (s.writeHead c w) := by
  unfold State.writeHead State.reRaise
  dsimp only
  split
  · split
    · split
      · exact .of_eq (by simp)
      · exact .of_eq (by simp)
    · exact shrinks_cqError s c _
  · exact .refl s

theorem shrinks_writeEventHead (s : State) (w : RegWrite) : Shrinks s (s.writeEventHead w) := by
  unfold State.writeEventHead State.reRaise
  refine .of_eq ?_
  dsimp only
  (repeat' split) <;> simp

theorem shrinks_readFailed (s : State) (q : SqId) (tag : Nat) : Shrinks s (s.readFailed q tag) := by
  unfold State.readFailed
  split
  · split
    · exact Shrinks.trans (.of_eq (by simp)) (shrinks_failEngine _)
    · exact .of_eq (by simp)
  · split
    · exact Shrinks.trans (.of_eq (by simp)) (shrinks_sqError _ _ q)
    · exact .of_eq (by simp)

theorem shrinks_readDiscarded (s : State) (q : SqId) (tag : Nat) : Shrinks s (s.readDiscarded q tag) := by
  unfold State.readDiscarded
  refine .of_eq ?_
  (repeat' split) <;> simp

theorem shrinks_postingDone (s : State) (c : CqId) (tag : Nat) : Shrinks s (s.postingDone c tag) := by
  unfold State.postingDone
  dsimp only
  split
  · exact .of_eq (by simp)
  next i _ =>
    split
    · exact Shrinks.trans (.of_eq rfl) ((shrinks_freeItem ((s.retire tag).setCq c (s.cq c).posted) i).trans (.of_eq rfl))
    · exact Shrinks.trans (.of_eq rfl) (shrinks_freeItem _ i)

theorem shrinks_postingFailed (s : State) (c : CqId) (tag : Nat) : Shrinks s (s.postingFailed c tag) := by
  unfold State.postingFailed
  dsimp only
  split
  · exact .of_eq (by simp)
  next i _ =>
    split
    · exact Shrinks.trans (.of_eq (by simp)) (shrinks_failEngine _)
    · have freed : Shrinks s (((s.retire tag).setCq c { s.cq c with inFlight := none }).freeItem i) :=
        Shrinks.trans (.of_eq (by simp)) (shrinks_freeItem _ i)
      split
      · exact freed.trans (shrinks_cqError _ c _)
      · exact freed

theorem shrinks_bufferWritten (s : State) (n : CtxNum) (tag : Nat) (ok : Bool) :
    Shrinks s (s.bufferWritten n tag ok) := by
  have ready (st : Status) : Shrinks s ((s.retire tag).becomeReady n st) :=
    Shrinks.trans (.of_eq (by simp)) (shrinks_becomeReady _ n st)
  rw [State.bufferWritten]
  split
  · exact .of_eq (by simp)
  · split
    · dsimp only
      split
      · split
        · exact (ready _).trans (shrinks_memberEnded _ _ _)
        · exact ready _
      · split
        · exact (ready _).trans (shrinks_memberEnded _ _ _)
        · exact ready _
    · exact .of_eq (by simp)

theorem shrinks_eventWritten (s : State) (tag : Nat) : Shrinks s (s.eventWritten tag) := by
  unfold State.eventWritten
  refine .of_eq ?_
  dsimp only
  (repeat' split) <;> simp

theorem shrinks_eventFailed (s : State) (tag : Nat) : Shrinks s (s.eventFailed tag) := by
  unfold State.eventFailed
  refine .of_eq ?_
  dsimp only
  (repeat' split) <;> simp

theorem shrinks_offerRetry (s : State) (r : Requester) : Shrinks s (s.offerRetry r) := by
  cases r with
  | host n =>
    show Shrinks s (s.offerHostRetry n)
    unfold State.offerHostRetry
    split
    · exact .refl s
    · dsimp only
      split
      · exact shrinks_updCtx s n fun _ => rfl
      · exact .of_updCtx n rfl fun _ => rfl
  | poll w =>
    show Shrinks s (s.listPollRetry w)
    unfold State.listPollRetry
    split
    · exact .refl s
    · exact .of_eq (by simp)
  | response w =>
    show Shrinks s (s.offerResponse w)
    unfold State.offerResponse
    split
    · exact .of_eq (by simp)
    · exact .refl s
  | replay t => exact .of_eq (by simp [State.offerRetry, State.offerReplay])

theorem shrinks_offerPollWait (s : State) (n : CtxNum) : Shrinks s (s.offerPollWait n) := by
  unfold State.offerPollWait
  split
  · exact .refl s
  · exact .of_updCtx n rfl fun _ => rfl

theorem shrinks_passDeadline (s : State) (n : CtxNum) : Shrinks s (s.passDeadline n) := by
  unfold State.passDeadline
  split
  · exact .refl s
  · split
    · exact shrinks_endCommand s n _
    · exact shrinks_endCommand s n _
    · exact shrinks_updCtx s n fun _ => rfl

theorem shrinks_becomeDue (s : State) (w : WatchId) : Shrinks s (s.becomeDue w) := by
  unfold State.becomeDue
  refine .of_eq ?_
  (repeat' split) <;> simp

theorem shrinks_rearmWatches (s : State) (g : SegId) : Shrinks s (s.rearmWatches g) := .of_eq (by simp)

theorem shrinks_pulseEnd (s : State) (g : SegId) (high : Bool) : Shrinks s (s.pulseEnd g high) := by
  unfold State.pulseEnd State.recoverDone
  dsimp only
  repeat' split
  · exact .of_eq (by simp)
  · exact shrinks_adminDone_of (.of_eq (by simp)) _ _
  · exact .of_eq (by simp)
  · exact .of_eq (by simp)
  · exact .refl s

theorem shrinks_recoveryEnd (s : State) (g : SegId) : Shrinks s (s.recoveryEnd g) := by
  unfold State.recoveryEnd State.recoverDone
  dsimp only
  repeat' split
  · exact shrinks_adminDone_of (.of_eq (by simp)) _ _
  · exact .of_eq (by simp)
  · exact .refl s

/-! ### An entry takes a number that no context carries -/

theorem freshNum_fresh {s : State} {n : CtxNum} (h : s.freshNum = some n) : ∀ c ∈ s.ctxs, c.num ≠ n := by
  have free := List.find?_some h
  simpa using free

theorem distinct_takeEntry {s : State} (hs : s.distinct) {n : CtxNum} (fresh : ∀ c ∈ s.ctxs, c.num ≠ n) (q : SqId)
    (r : Record) : (s.takeEntry q n r).distinct := by
  refine (shrinks_settleEntry _ _ _ _ _ _ _).distinct ?_
  show ((s.ctxs ++ [Ctx.fetched n q r _]).map (·.num)).Nodup
  rw [List.map_append, List.nodup_append]
  refine ⟨hs, by simp, ?_⟩
  simpa [Ctx.fetched] using fresh

theorem distinct_ioEntry {s : State} (hs : s.distinct) (op : Byte) (tag : Nat) (b : Body) :
    (s.ioEntry op tag b).distinct := by
  rw [State.ioEntry]
  split
  · exact hs
  · split
    · exact hs
    · split
      · exact hs
      · split
        next => exact hs
        next n hn => exact distinct_takeEntry (s := s.retire tag) hs (freshNum_fresh hn) _ _

theorem distinct_reset : State.reset.distinct := List.nodup_nil

/-! ### The statement -/

theorem distinct_kept : State.Kept State.distinct where
  queue _ h := h
  settle h := (settle_keeps _).distinct h
  control _ h := h
  interrupts _ h := h
  powerOn _ := distinct_reset
  engineReset _ _ := distinct_reset
  enableIdle h := (Shrinks.of_eq (by unfold State.enableIdle; dsimp only; split <;> simp)).distinct h
  beginPause h := (Shrinks.of_eq (by simp [State.beginPause])).distinct h
  resume h := (Shrinks.trans (.of_eq rfl) (Shrinks.foldl shrinks_rearmWatches _ _)).distinct h
  writeTail q w h := (shrinks_writeTail _ q w).distinct h
  writeHead c w h := (shrinks_writeHead _ c w).distinct h
  writeEventHead w h := (shrinks_writeEventHead _ w).distinct h
  retire _ h := h
  setAdm _ h := h
  adminEnter _ h := h
  adminDone st v h := (shrinks_adminDone _ st v).distinct h
  createSq r h := (shrinks_runCreateSq r _).distinct h
  deleteSq r h := (shrinks_runDeleteSq r _).distinct h
  createCq r h := (shrinks_runCreateCq r _).distinct h
  deleteCq r h := (shrinks_runDeleteCq r _).distinct h
  segmentSetup r h := (shrinks_runSegmentSetup r _).distinct h
  segmentOn r h := (shrinks_runSegmentOn r _).distinct h
  segmentOff r h := (shrinks_runSegmentOff r _).distinct h
  segmentRecover r h := (shrinks_runSegmentRecover r _).distinct h
  writeResult r l h := (shrinks_writeResult _ r l).distinct h
  watchAdd r h := (shrinks_runWatchAdd r _).distinct h
  watchRemove r h := (shrinks_runWatchRemove r _).distinct h
  watchArm r h := (shrinks_runWatchArm r _).distinct h
  restoreAdd r h := (shrinks_runRestoreAdd r _).distinct h
  restoreDrop r h := (shrinks_runRestoreDrop r _).distinct h
  configureEvents r h := (shrinks_runConfigureEvents r _).distinct h
  abort r h := (shrinks_runAbort r _).distinct h
  ioEntry op tag b h := distinct_ioEntry h op tag b
  readFailed q tag h := (shrinks_readFailed _ q tag).distinct h
  readDiscarded q tag h := (shrinks_readDiscarded _ q tag).distinct h
  postingDone c tag h := (shrinks_postingDone _ c tag).distinct h
  postingFailed c tag h := (shrinks_postingFailed _ c tag).distinct h
  bufferWritten n tag ok h := (shrinks_bufferWritten _ n tag ok).distinct h
  eventWritten tag h := (shrinks_eventWritten _ tag).distinct h
  eventFailed tag h := (shrinks_eventFailed _ tag).distinct h
  offerRetry r h := (shrinks_offerRetry _ r).distinct h
  offerPollWait n h := (shrinks_offerPollWait _ n).distinct h
  passDeadline n h := (shrinks_passDeadline _ n).distinct h
  becomeDue w h := (shrinks_becomeDue _ w).distinct h
  faultIfStuck g h := (shrinks_faultIfStuck _ g).distinct h
  sampled _ h := (Shrinks.trans (.of_eq rfl) (Shrinks.foldl shrinks_faultIfStuck _ _)).distinct h
  boundary g h := (shrinks_boundary _ g).distinct h
  attemptEnd g x d p h := (shrinks_attemptEnd _ g x d p).distinct h
  broadcastEnd g h := (shrinks_broadcastEnd _ g).distinct h
  pulseEnd g high h := (shrinks_pulseEnd _ g high).distinct h
  recoveryEnd g h := (shrinks_recoveryEnd _ g).distinct h

/-- There are 64 context numbers. -/
theorem length_ctxs_le_of_distinct {s : State} (hs : s.distinct) : s.ctxs.length ≤ 64 := by
  have bound : (s.ctxs.map (·.num)).length ≤ Fintype.card CtxNum := hs.length_le_card
  simpa using bound

/-- Settles O6: each operation of `State.Kept` keeps the numbers distinct. -/
theorem stepsKeepContextsDistinct : Obligations.StepsKeepContextsDistinct := fun _ _ hs h =>
  have ht := distinct_kept.step hs h
  ⟨ht, length_ctxs_le_of_distinct ht⟩

end Sys2Proof.Machine
end

section
/-! PROOFS. Every step keeps every miss count in 0 to 7 (R22). Only answers and silences set a miss count, to 0 and to one
more but at most 7 (R24, R27); every other change of a presence entry keeps its miss count. -/

namespace Sys2Proof.Machine

set_option Elab.async false -- one thread elaborates: the checker's memory is limited

theorem missInv_congr {s t : State} (h : t.presence = s.presence) (hs : s.missInv) : t.missInv := by
  unfold State.missInv State.pres at *
  rwa [h]

theorem missInv_setPres {s : State} (hs : s.missInv) (t : Tgt) {e : PresEntry} (he : e.miss ≤ 7) :
    (s.setPres t e).missInv := by
  intro u
  rw [State.pres_setPres]
  split
  · exact he
  · exact hs u

/-- A change of a target's presence state alone. -/
theorem missInv_setState {s : State} (hs : s.missInv) (t : Tgt) (st : Presence) :
    (s.setPres t { s.pres t with state := st }).missInv := missInv_setPres hs t (hs t)

theorem missInv_foldl {β : Type} {f : State → β → State} (h : ∀ s b, s.missInv → (f s b).missInv) (l : List β)
    {s : State} (hs : s.missInv) : (l.foldl f s).missInv := foldl_keeps h l hs

/-! ### Replays, answers and silences -/

theorem missInv_replayEnd {s : State} (hs : s.missInv) (t : Tgt) : (s.replayEnd t).missInv := by
  rw [State.replayEnd]
  split
  · exact missInv_setState hs t .present
  · exact hs

theorem missInv_endJobIfOver {s : State} (hs : s.missInv) (t : Tgt) : (s.endJobIfOver t).missInv := by
  rw [State.endJobIfOver]
  split
  · exact hs
  · split
    · have removed : (s.removeJob t).missInv := missInv_congr (by simp) hs
      exact missInv_congr (by simp) (missInv_replayEnd removed t)
    · exact hs

theorem missInv_replayOutcome {s : State} (hs : s.missInv) (t : Tgt) (a : Attempt) : (s.replayOutcome t a).missInv := by
  rw [State.replayOutcome]
  split
  · exact hs
  · exact missInv_endJobIfOver (missInv_congr (by simp) hs) t

theorem missInv_startReplay {s : State} (hs : s.missInv) (t : Tgt) (e : Event) : (s.startReplay t e).missInv :=
  missInv_congr (by simp [State.startReplay]) (missInv_setState hs t .restoring)

theorem missInv_answer {s : State} (hs : s.missInv) (t : Tgt) (src : Source) : (s.answer t src).missInv := by
  have zero (st : Presence) : (s.setPres t { state := st, miss := 0 }).missInv := missInv_setPres hs t (Nat.zero_le 7)
  have found (st : Presence) (e : Event) :
      (((s.setPres t { state := st, miss := 0 }).setPres t { state := .present, miss := 0 }).handEvent e).missInv :=
    missInv_congr (State.handEvent_view State.presence (fun _ _ => rfl) _ e) (missInv_setPres (zero st) t (Nat.zero_le 7))
  rw [State.answer]
  split
  · exact found _ _
  · exact zero _
  · exact zero _
  · split
    · exact missInv_startReplay (zero _) t _
    · exact found _ _

theorem missInv_goLost {s : State} (hs : s.missInv) (t : Tgt) (src : Source) : (s.goLost t src).missInv := by
  rw [State.goLost]
  refine missInv_congr ?_ (missInv_setState hs t .lost)
  split <;> simp

theorem missInv_silence {s : State} (hs : s.missInv) (t : Tgt) (src : Source) : (s.silence t src).missInv := by
  have counted : (s.setPres t { s.pres t with miss := min ((s.pres t).miss + 1) 7 }).missInv :=
    missInv_setPres hs t (Nat.min_le_right _ _)
  rw [State.silence]
  split
  · exact missInv_goLost counted t src
  · exact counted

theorem missInv_report {s : State} (hs : s.missInv) (t : Tgt) (src : Source) (a : Attempt) :
    (s.report t src a).missInv := by
  rw [State.report]
  split
  · exact missInv_silence hs t src
  · exact missInv_answer hs t src

theorem missInv_reinitRequest {s : State} (hs : s.missInv) (t : Tgt) (w : WatchId) : (s.reinitRequest t w).missInv := by
  rw [State.reinitRequest]
  split
  · split
    · exact missInv_startReplay hs t _
    · exact hs
  · exact missInv_congr (by simp) hs
  · exact hs

theorem missInv_giveUp (cause : AbandonCause) (s : State) (t : Tgt) (hs : s.missInv) : (s.giveUp cause t).missInv := by
  rw [State.giveUp]
  split
  · exact missInv_congr (by simp) (missInv_setState hs t .lost)
  · exact hs

theorem missInv_giveUpAll {s : State} (hs : s.missInv) (g : SegId) (cause : AbandonCause) :
    (s.giveUpAll g cause).missInv := missInv_foldl (missInv_giveUp cause) _ hs

/-! ### Teardown and failure -/

theorem missInv_drainIfDone {s : State} (hs : s.missInv) (g : SegId) : (s.drainIfDone g).missInv := by
  have off : (s.arriveOff g).missInv :=
    missInv_congr (by simp [State.arriveOff])
      (missInv_giveUpAll (s := s.updSeg g fun y => { y with state := .off }) (missInv_congr (by simp) hs) g .segmentOff)
  rw [State.drainIfDone]
  split
  · dsimp only
    split
    · exact missInv_congr (by simp) off
    · exact off
  · exact hs

/-- What a fault does to a segment before its RESTORING targets are given up. -/
def State.stripped (s : State) (g : SegId) : State :=
  (((((((s.updSeg g fun y => { y with state := .faulted, stuckCount := 0 }).handEvent (.segmentFaulted g)).haltWatches
    g).endContexts g .segmentFault).dropResponses g).stopReplayRetries g).updSeg g fun y => { y with writes := [] })

theorem State.faultSegment_eq (s : State) (g : SegId) :
    s.faultSegment g = ((s.stripped g).giveUpAll g .segmentFault).updSeg g (·.emptied .faulted) := rfl

theorem missInv_faultSegment {s : State} (hs : s.missInv) (g : SegId) : (s.faultSegment g).missInv := by
  have stripped : (s.stripped g).missInv := missInv_congr (by simp [State.stripped]) hs
  rw [State.faultSegment_eq]
  exact missInv_congr (by simp) (missInv_giveUpAll stripped g .segmentFault)

theorem missInv_faultIfStuck (s : State) (g : SegId) (hs : s.missInv) : (s.faultIfStuck g).missInv := by
  rw [State.faultIfStuck]
  split
  · exact missInv_faultSegment hs g
  · exact hs

theorem missInv_failSegment (s : State) (g : SegId) (hs : s.missInv) : (s.failSegment g).missInv := by
  rw [State.failSegment]
  dsimp only
  split
  · exact missInv_drainIfDone (missInv_congr (by simp) hs) g
  · exact missInv_drainIfDone (missInv_congr (by simp) hs) g
  · exact missInv_congr (by simp) hs
  · exact missInv_congr (by simp) hs

theorem missInv_failEngine {s : State} (hs : s.missInv) : s.failEngine.missInv := by
  rw [State.failEngine]
  exact missInv_foldl missInv_failSegment _ (missInv_congr (by simp) hs)

/-! ### Ends of attempts -/

theorem missInv_fire {s : State} (hs : s.missInv) (w : WatchId) (c : WatchCfg) (p : Option Half) (n : Half) :
    (s.fire w c p n).missInv := by
  have reported : (if c.report then
      (s.updWatch w fun x => { x with triggers := min (x.triggers + 1) 65535 }).handReport w n p
      else s.updWatch w fun x => { x with triggers := min (x.triggers + 1) 65535 }).missInv := by
    refine missInv_congr ?_ hs
    split <;> simp
  have asked {u : State} (hu : u.missInv) : (if c.cond = .reinit then u.reinitRequest c.tgt w else u).missInv := by
    split
    · exact missInv_reinitRequest hu c.tgt w
    · exact hu
  rw [State.fire]
  refine missInv_congr ?_ (asked reported)
  split <;> simp

theorem missInv_evaluate {s : State} (hs : s.missInv) (w : WatchId) (x : Watch) (v : Half) :
    (s.evaluate w x v).missInv := by
  rw [State.evaluate]
  dsimp only
  split
  · split
    · exact missInv_fire (missInv_congr (by simp) hs) w _ _ _
    · exact missInv_congr (by simp) hs
  · exact missInv_congr (by simp) hs

theorem missInv_pollOver {s : State} (hs : s.missInv) (w : WatchId) (a : Attempt) : (s.pollOver w a).missInv := by
  rw [State.pollOver]
  split
  · exact hs
  · dsimp only
    split
    · split
      next v =>
        exact missInv_congr (State.updWatch_presence _ _ _) (missInv_evaluate hs w _ v)
      next => exact missInv_congr (by simp) hs
    · exact missInv_congr (by simp) hs

theorem missInv_pollAttempt {s : State} (hs : s.missInv) (g : SegId) (w : WatchId) (a : Attempt) :
    (s.pollAttempt g w a).missInv := by
  rw [State.pollAttempt]
  split
  · exact hs
  · split
    · exact missInv_congr (by simp) hs
    · split
      · exact missInv_congr (by simp) hs
      · exact missInv_pollOver hs w a

theorem missInv_replayAttempt {s : State} (hs : s.missInv) (g : SegId) (t : Tgt) (a : Attempt) :
    (s.replayAttempt g t a).missInv := by
  rw [State.replayAttempt]
  split
  · exact hs
  next j _ =>
    have either {p : Prop} [Decidable p] (f : Job → Job) :
        (if p then s.updJob t f else s.replayOutcome t a).missInv := by
      split
      · exact missInv_congr (by simp) hs
      · exact missInv_replayOutcome hs t a
    exact either _

theorem missInv_toOwner {s : State} (hs : s.missInv) (g : SegId) (w : Wire) (a : Attempt) : (s.toOwner g w a).missInv := by
  rw [State.toOwner]
  split
  · exact missInv_congr (by simp) hs
  · exact missInv_pollAttempt hs g _ a
  · exact missInv_congr (by simp) hs
  · exact missInv_replayAttempt hs g _ a

theorem missInv_attemptEnd {s : State} (hs : s.missInv) (g : SegId) (x : BitVec 2) (d : Half) (p : Bool) :
    (s.attemptEnd g x d p).missInv := by
  rw [State.attemptEnd]
  split
  · exact hs
  · split
    · exact hs
    · have cleared : (s.clearWire g).missInv := missInv_congr (by simp) hs
      exact missInv_drainIfDone (missInv_toOwner (missInv_report cleared _ _ _) g _ _) g

theorem missInv_broadcastEnd {s : State} (hs : s.missInv) (g : SegId) : (s.broadcastEnd g).missInv := by
  rw [State.broadcastEnd]
  split
  · exact hs
  · split
    · refine missInv_drainIfDone (missInv_congr ?_ hs) g
      split <;> simp
    · exact hs

/-! ### Commands -/

theorem missInv_readFailed {s : State} (hs : s.missInv) (q : SqId) (tag : Nat) : (s.readFailed q tag).missInv := by
  unfold State.readFailed
  split
  · split
    · exact missInv_failEngine hs
    · exact hs
  · split
    · exact missInv_congr (by simp) hs
    · exact hs

theorem missInv_postingFailed {s : State} (hs : s.missInv) (c : CqId) (tag : Nat) : (s.postingFailed c tag).missInv := by
  unfold State.postingFailed
  dsimp only
  split
  · exact hs
  · split
    · exact missInv_failEngine hs
    · refine missInv_congr ?_ hs
      split <;> simp

theorem missInv_segmentOff {s : State} (hs : s.missInv) (r : Record) : (runSegmentOff r s).missInv := by
  rw [runSegmentOff]
  split
  · exact missInv_congr (by simp) hs
  · split
    · exact missInv_drainIfDone (missInv_congr (by simp) hs) _
    · exact missInv_congr (by simp) hs
    · exact missInv_congr (by simp) hs
    · exact missInv_congr (by simp) hs

theorem missInv_restoreDrop {s : State} (hs : s.missInv) (r : Record) : (runRestoreDrop r s).missInv := by
  rw [runRestoreDrop]
  split
  next t all _ _ =>
    refine missInv_congr ?_ (missInv_endJobIfOver
      (s := { s with pool := s.pool.filter fun e => !dropSelects t all (r.byte 6) e }) hs t)
    simp
  next => exact missInv_congr (by simp) hs

theorem runRestoreAdd_presence (r : Record) (s : State) : (runRestoreAdd r s).presence = s.presence := by
  unfold runRestoreAdd
  (repeat' split) <;> simp

theorem missInv_reset : State.reset.missInv := fun t => by
  have zero : (State.reset.pres t).miss = 0 := by
    simp [State.pres, State.reset, Vector.get]
  omega

/-- A reset that keeps the targets keeps their miss counts. -/
theorem missInv_engineReset {s : State} (hs : s.missInv) (keep : Bool) : (s.engineReset keep).missInv := by
  cases keep with
  | false => exact missInv_congr rfl missInv_reset
  | true =>
    intro t
    have kept : ((s.engineReset true).pres t) = (s.pres t).kept := by
      simp [State.pres, State.engineReset]
    rw [kept, PresEntry.kept]
    split
    · exact hs t
    · exact hs t

theorem missInv_kept : State.Kept State.missInv where
  queue _ h := h
  settle h := missInv_congr (by simp) h
  control _ h := h
  interrupts _ h := h
  powerOn _ := missInv_reset
  engineReset keep h := missInv_engineReset h keep
  enableIdle h := missInv_congr (State.enableIdle_targets _).2 h
  beginPause h := missInv_congr (State.beginPause_targets _).2 h
  resume h := missInv_congr (State.resume_targets _).2 h
  writeTail q w h := missInv_congr (State.writeTail_targets _ q w).2 h
  writeHead c w h := missInv_congr (State.writeHead_targets _ c w).2 h
  writeEventHead w h := missInv_congr (State.writeEventHead_targets _ w).2 h
  retire _ h := h
  setAdm _ h := h
  adminEnter _ h := h
  adminDone _ _ h := missInv_congr (by simp) h
  createSq r h := missInv_congr (runCreateSq_targets r _).2 h
  deleteSq r h := missInv_congr (runDeleteSq_targets r _).2 h
  createCq r h := missInv_congr (runCreateCq_targets r _).2 h
  deleteCq r h := missInv_congr (runDeleteCq_targets r _).2 h
  segmentSetup r h := missInv_congr (runSegmentSetup_targets r _).2 h
  segmentOn r h := missInv_congr (runSegmentOn_targets r _).2 h
  segmentOff r h := missInv_segmentOff h r
  segmentRecover r h := missInv_congr (runSegmentRecover_targets r _).2 h
  writeResult r l h := missInv_congr (State.writeResult_targets _ r l).2 h
  watchAdd r h := missInv_congr (runWatchAdd_targets r _).2 h
  watchRemove r h := missInv_congr (runWatchRemove_targets r _).2 h
  watchArm r h := missInv_congr (runWatchArm_targets r _).2 h
  restoreAdd r h := missInv_congr (runRestoreAdd_presence r _) h
  restoreDrop r h := missInv_restoreDrop h r
  configureEvents r h := missInv_congr (runConfigureEvents_targets r _).2 h
  abort r h := missInv_congr (runAbort_targets r _).2 h
  ioEntry _ _ _ h := missInv_congr (by simp) h
  readFailed q tag h := missInv_readFailed h q tag
  readDiscarded q tag h := missInv_congr (State.readDiscarded_targets _ q tag).2 h
  postingDone c tag h := missInv_congr (State.postingDone_targets _ c tag).2 h
  postingFailed c tag h := missInv_postingFailed h c tag
  bufferWritten n tag ok h := missInv_congr (State.bufferWritten_targets _ n tag ok).2 h
  eventWritten tag h := missInv_congr (State.eventWritten_targets _ tag).2 h
  eventFailed tag h := missInv_congr (State.eventFailed_targets _ tag).2 h
  offerRetry r h := missInv_congr (State.offerRetry_targets _ r).2 h
  offerPollWait n h := missInv_congr (State.offerPollWait_targets _ n).2 h
  passDeadline n h := missInv_congr (State.passDeadline_targets _ n).2 h
  becomeDue w h := missInv_congr (State.becomeDue_targets _ w).2 h
  faultIfStuck g h := missInv_faultIfStuck _ g h
  sampled _ h := missInv_foldl missInv_faultIfStuck _ h
  boundary _ h := missInv_congr (by simp) h
  attemptEnd g x d p h := missInv_attemptEnd h g x d p
  broadcastEnd g h := missInv_broadcastEnd h g
  pulseEnd g high h := missInv_congr (State.pulseEnd_targets _ g high).2 h
  recoveryEnd g h := missInv_congr (State.recoveryEnd_targets _ g).2 h

end Sys2Proof.Machine
end

section
/-! PROOFS. Every step leaves every stuck count below its stuck time, and 0 on a segment that is not ACTIVE (R13, R14,
R16). It is a property of each segment controller by itself (`SegCtl.Unstuck`). What settles and what ends contexts leaves
alone what stands of a controller; the other operations change its lists, or set its stuck count to 0. A sample alone can
raise a stuck count to the stuck time, and the segments that it leaves stuck fault at the same tick. -/

namespace Sys2Proof.Machine

set_option Elab.async false -- one thread elaborates: the checker's memory is limited

/-- A segment controller as every step leaves it: its stuck time is at least 1, its stuck count lies below it, and is 0 when
the segment is not ACTIVE. -/
def SegCtl.Unstuck (y : SegCtl) : Prop :=
  1 ≤ y.settings.stuckTime ∧ y.stuckCount < y.settings.stuckTime ∧ (y.state ≠ .active → y.stuckCount = 0)

theorem SegCtl.unstuck_standing (y : SegCtl) : y.standing.Unstuck ↔ y.Unstuck := Iff.rfl

/-- A stuck count of 0 is below every stuck time. -/
theorem SegCtl.Unstuck.zero {y z : SegCtl} (h : y.Unstuck) (settings : z.settings = y.settings)
    (count : z.stuckCount = 0) : z.Unstuck := by
  obtain ⟨time, -, -⟩ := h
  rw [← settings] at time
  exact ⟨time, count ▸ time, fun _ => count⟩

/-- A controller whose state, settings and stuck count are those of another. -/
theorem SegCtl.Unstuck.same {y z : SegCtl} (h : y.Unstuck) (state : z.state = y.state)
    (settings : z.settings = y.settings) (count : z.stuckCount = y.stuckCount) : z.Unstuck := by
  unfold SegCtl.Unstuck at *
  rwa [state, settings, count]

theorem stuckInv_iff (s : State) : s.stuckInv ↔ ∀ g, (s.seg g).Unstuck := Iff.rfl

theorem stuckInv_congr {s t : State} (h : t.segs = s.segs) (hs : s.stuckInv) : t.stuckInv := by
  unfold State.stuckInv State.seg at *
  rwa [h]

theorem stuckInv_of_standing {s t : State} (h : ∀ g, (t.seg g).standing = (s.seg g).standing) (hs : s.stuckInv) :
    t.stuckInv := fun g => by
  rw [← SegCtl.Unstuck, ← SegCtl.unstuck_standing, h g]
  exact hs g

theorem stuckInv_of_core {s t : State} (h : t.core = s.core) (hs : s.stuckInv) : t.stuckInv :=
  stuckInv_of_standing (seg_of_core h) hs

theorem stuckInv_of_stands {s t : State} (h : t.standing = s.standing) (hs : s.stuckInv) : t.stuckInv :=
  stuckInv_of_standing (fun g => by rw [← standing_seg, h, standing_seg]) hs

theorem stuckInv_setSeg {s : State} (hs : s.stuckInv) (g : SegId) {y : SegCtl} (hy : y.Unstuck) :
    (s.setSeg g y).stuckInv := fun h => by
  rw [State.seg_setSeg]
  split
  · exact hy
  · exact hs h

theorem stuckInv_updSeg {s : State} (hs : s.stuckInv) (g : SegId) {f : SegCtl → SegCtl}
    (hf : ∀ y : SegCtl, y.Unstuck → (f y).Unstuck) : (s.updSeg g f).stuckInv := stuckInv_setSeg hs g (hf _ (hs g))

/-- A change of a controller's lists, wire or holder. -/
theorem stuckInv_relist {s : State} (hs : s.stuckInv) (g : SegId) {f : SegCtl → SegCtl}
    (hf : ∀ y, (f y).state = y.state ∧ (f y).settings = y.settings ∧ (f y).stuckCount = y.stuckCount := by
      exact fun _ => ⟨rfl, rfl, rfl⟩) :
    (s.updSeg g f).stuckInv :=
  stuckInv_updSeg hs g fun y h => h.same (hf y).1 (hf y).2.1 (hf y).2.2

/-- A change of state that leaves the stuck count 0, or makes it 0. -/
theorem stuckInv_restate {s : State} (hs : s.stuckInv) (g : SegId) {f : SegCtl → SegCtl}
    (count : (f (s.seg g)).stuckCount = 0) (settings : ∀ y, (f y).settings = y.settings := by exact fun _ => rfl) :
    (s.updSeg g f).stuckInv :=
  stuckInv_setSeg hs g (SegCtl.Unstuck.zero (hs g) (settings _) count)

theorem stuckInv_mapSegs {s : State} (hs : s.stuckInv) {f : SegCtl → SegCtl} (hf : ∀ y : SegCtl, y.Unstuck → (f y).Unstuck) :
    (s.mapSegs f).stuckInv := fun g => by
  rw [State.seg_mapSegs]
  exact hf _ (hs g)

/-! ### Replays, answers and silences -/

theorem stuckInv_createJob {s : State} (hs : s.stuckInv) (t : Tgt) : (s.createJob t).stuckInv :=
  stuckInv_relist (s := { s with jobs := s.jobs ++ [Job.new t] }) hs t.seg

theorem stuckInv_removeJob {s : State} (hs : s.stuckInv) (t : Tgt) : (s.removeJob t).stuckInv :=
  stuckInv_relist (s := { s with jobs := s.jobs.filter fun j => j.tgt ≠ t }) hs t.seg

theorem stuckInv_handEvent {s : State} (hs : s.stuckInv) (e : Event) : (s.handEvent e).stuckInv :=
  stuckInv_congr (by simp) hs

theorem stuckInv_abandonJob {s : State} (hs : s.stuckInv) (t : Tgt) (cause : AbandonCause) :
    (s.abandonJob t cause).stuckInv := by
  rw [State.abandonJob]
  split
  · exact hs
  · exact stuckInv_handEvent (stuckInv_removeJob hs t) _

theorem stuckInv_endJobIfOver {s : State} (hs : s.stuckInv) (t : Tgt) : (s.endJobIfOver t).stuckInv := by
  rw [State.endJobIfOver]
  split
  · exact hs
  · split
    · exact stuckInv_congr (by simp) (stuckInv_removeJob hs t)
    · exact hs

theorem stuckInv_replayOutcome {s : State} (hs : s.stuckInv) (t : Tgt) (a : Attempt) :
    (s.replayOutcome t a).stuckInv := by
  rw [State.replayOutcome]
  split
  · exact hs
  · exact stuckInv_endJobIfOver (stuckInv_relist (stuckInv_congr (State.updJob_segs s t _) hs) t.seg) t

theorem stuckInv_startReplay {s : State} (hs : s.stuckInv) (t : Tgt) (e : Event) : (s.startReplay t e).stuckInv :=
  stuckInv_createJob (stuckInv_congr (by simp) hs) t

theorem stuckInv_setPres {s : State} (hs : s.stuckInv) (t : Tgt) (e : PresEntry) : (s.setPres t e).stuckInv := hs

theorem stuckInv_answer {s : State} (hs : s.stuckInv) (t : Tgt) (src : Source) : (s.answer t src).stuckInv := by
  have zero (st : Presence) : (s.setPres t { state := st, miss := 0 }).stuckInv := stuckInv_setPres hs t _
  rw [State.answer]
  split
  · exact stuckInv_handEvent (stuckInv_setPres (zero _) t _) _
  · exact zero _
  · exact zero _
  · split
    · exact stuckInv_startReplay (zero _) t _
    · exact stuckInv_handEvent (stuckInv_setPres (zero _) t _) _

theorem stuckInv_goLost {s : State} (hs : s.stuckInv) (t : Tgt) (src : Source) : (s.goLost t src).stuckInv := by
  have lost (e : PresEntry) (v : Event) : ((s.setPres t e).handEvent v).stuckInv :=
    stuckInv_handEvent (stuckInv_setPres hs t e) v
  rw [State.goLost]
  split
  · exact stuckInv_congr (State.lossNotice_view State.segs (fun _ _ => rfl) _ t)
      (stuckInv_abandonJob (lost _ _) t .targetLost)
  · exact stuckInv_congr (by simp) hs

theorem stuckInv_report {s : State} (hs : s.stuckInv) (t : Tgt) (src : Source) (a : Attempt) :
    (s.report t src a).stuckInv := by
  rw [State.report]
  split
  · rw [State.silence]
    have counted := stuckInv_setPres hs t { s.pres t with miss := min ((s.pres t).miss + 1) 7 }
    split
    · exact stuckInv_goLost counted t src
    · exact counted
  · exact stuckInv_answer hs t src

theorem stuckInv_reinitRequest {s : State} (hs : s.stuckInv) (t : Tgt) (w : WatchId) :
    (s.reinitRequest t w).stuckInv := by
  rw [State.reinitRequest]
  split
  · split
    · exact stuckInv_startReplay hs t _
    · exact hs
  · exact stuckInv_handEvent hs _
  · exact hs

theorem stuckInv_giveUpAll {s : State} (hs : s.stuckInv) (g : SegId) (cause : AbandonCause) :
    (s.giveUpAll g cause).stuckInv := by
  refine foldl_keeps (fun u t hu => ?_) _ hs
  rw [State.giveUp]
  split
  · exact stuckInv_congr (by simp) (stuckInv_abandonJob (s := u.setPres t { u.pres t with state := .lost }) hu t cause)
  · exact hu

/-! ### Watches -/

theorem stuckInv_haltWatches {s : State} (hs : s.stuckInv) (g : SegId) : (s.haltWatches g).stuckInv :=
  stuckInv_relist (s := s.mapWatches fun x => if x.cfg.tgt.seg = g then x.halt else x) hs g

theorem stuckInv_pauseWatches {s : State} (hs : s.stuckInv) : s.pauseWatches.stuckInv := by
  rw [State.pauseWatches]
  exact foldl_keeps (P := State.stuckInv) (fun _ g hu => stuckInv_relist hu g) segIds
    (s := s.mapWatches Watch.pauseHalt) hs

theorem stuckInv_respond {s : State} (hs : s.stuckInv) (w : WatchId) : (s.respond w).stuckInv := by
  rw [State.respond]
  split
  · exact hs
  · split
    · exact hs
    · split
      · exact hs
      · exact stuckInv_relist (stuckInv_congr (State.setWatch_segs s w _) hs) _

theorem stuckInv_fire {s : State} (hs : s.stuckInv) (w : WatchId) (c : WatchCfg) (p : Option Half) (n : Half) :
    (s.fire w c p n).stuckInv := by
  have reported : (if c.report then
      (s.updWatch w fun x => { x with triggers := min (x.triggers + 1) 65535 }).handReport w n p
      else s.updWatch w fun x => { x with triggers := min (x.triggers + 1) 65535 }).stuckInv := by
    refine stuckInv_congr ?_ hs
    split <;> simp
  have asked {u : State} (hu : u.stuckInv) : (if c.cond = .reinit then u.reinitRequest c.tgt w else u).stuckInv := by
    split
    · exact stuckInv_reinitRequest hu c.tgt w
    · exact hu
  rw [State.fire]
  refine stuckInv_congr ?_ (stuckInv_respond (asked reported) w)
  split <;> simp

theorem stuckInv_evaluate {s : State} (hs : s.stuckInv) (w : WatchId) (x : Watch) (v : Half) :
    (s.evaluate w x v).stuckInv := by
  rw [State.evaluate]
  dsimp only
  split
  · split
    · exact stuckInv_fire (stuckInv_congr (State.setWatch_segs s w _) hs) w _ _ _
    · exact stuckInv_congr (State.setWatch_segs s w _) hs
  · exact stuckInv_congr (State.setWatch_segs s w _) hs

theorem stuckInv_pollOver {s : State} (hs : s.stuckInv) (w : WatchId) (a : Attempt) : (s.pollOver w a).stuckInv := by
  rw [State.pollOver]
  split
  · exact hs
  · dsimp only
    split
    · split
      next v => exact stuckInv_congr (State.updWatch_segs _ _ _) (stuckInv_evaluate hs w _ v)
      next => exact hs
    · exact hs

/-! ### Contexts and queues -/

theorem stuckInv_sqError {s : State} (hs : s.stuckInv) (cause : QueueCause) (q : SqId) :
    (State.sqError cause s q).stuckInv := by
  rw [State.sqError]
  dsimp only
  split
  · have stopped : (((s.setSq q { s.sq q with state := .error }).handEvent (.queueError false q.val cause)).releaseLock
        q).stuckInv := stuckInv_congr (by simp) hs
    split
    · exact stuckInv_of_core (by simp) stopped
    · exact stopped
  · exact hs

theorem stuckInv_cqError {s : State} (hs : s.stuckInv) (c : CqId) (cause : QueueCause) : (s.cqError c cause).stuckInv := by
  have emptied := foldl_keeps (P := State.stuckInv) (f := State.freeItem)
    (fun _ _ hu => stuckInv_congr (by simp) hu) (s.cq c).ready (s := s.setCq c { s.cq c with state := .error, ready := [] }) hs
  exact foldl_keeps (P := State.stuckInv) (fun _ q hu => stuckInv_sqError hu .cqLost q) _ (stuckInv_handEvent emptied _)

theorem stuckInv_placeByKind {s : State} (hs : s.stuckInv) (q : SqId) (n : CtxNum) (r : Record) (m : Option ChainMember) :
    (s.placeByKind q n r m).stuckInv := by
  unfold State.placeByKind State.chainStart
  split
  · exact hs
  · split
    · split
      · split
        · exact stuckInv_of_stands (by simp) hs
        · exact hs
      · exact stuckInv_of_stands (by simp) hs
    · exact stuckInv_of_stands (by simp) hs

theorem stuckInv_settleEntry {s : State} (hs : s.stuckInv) (q : SqId) (n : CtxNum) (r : Record) (m : Option ChainMember)
    (first : Byte) (failed : Bool) : (s.settleEntry q n r m first failed).stuckInv := by
  rw [State.settleEntry]
  split
  · exact stuckInv_of_core (by simp) hs
  · split
    · exact stuckInv_placeByKind hs q n r m
    · dsimp only
      split
      · exact stuckInv_of_core (by simp) hs
      · exact stuckInv_of_core (by simp) hs

theorem stuckInv_ioEntry {s : State} (hs : s.stuckInv) (op : Byte) (tag : Nat) (b : Body) :
    (s.ioEntry op tag b).stuckInv := by
  rw [State.ioEntry]
  split
  · exact hs
  · split
    · exact hs
    · split
      · exact hs
      · split
        · exact hs
        · rw [State.takeEntry]
          refine stuckInv_settleEntry (stuckInv_congr ?_ hs) _ _ _ _ _ _
          simp

/-! ### Teardown, failure and stuck lines -/

theorem stuckInv_dropResponses {s : State} (hs : s.stuckInv) (g : SegId) : (s.dropResponses g).stuckInv := by
  have dropped (l : List RespWrite) : (l.foldl State.dropResponse s).stuckInv :=
    foldl_keeps (P := State.stuckInv) (fun _ _ hu => stuckInv_congr (by simp) hu) l hs
  exact stuckInv_relist (dropped _) g

theorem stuckInv_drainIfDone {s : State} (hs : s.stuckInv) (g : SegId) : (s.drainIfDone g).stuckInv := by
  rw [State.drainIfDone]
  split
  next h =>
    have count : (s.seg g).stuckCount = 0 := (hs g).2.2 (by simp [h.1])
    have off : (s.updSeg g fun y => { y with state := .off }).stuckInv := stuckInv_restate hs g count
    have arrived : (s.arriveOff g).stuckInv := by
      rw [State.arriveOff]
      exact stuckInv_updSeg (stuckInv_giveUpAll off g .segmentOff) g fun _ hy => hy.zero rfl rfl
    dsimp only
    split
    · exact stuckInv_congr (by simp) arrived
    · exact arrived
  next => exact hs

theorem stuckInv_stripped {s : State} (hs : s.stuckInv) (g : SegId) : (s.stripped g).stuckInv := by
  have faulted : (s.updSeg g fun y => { y with state := .faulted, stuckCount := 0 }).stuckInv :=
    stuckInv_updSeg hs g (by exact fun _ hy => hy.zero rfl rfl)
  have ended := stuckInv_of_core (core_endContexts _ g .segmentFault)
    (stuckInv_haltWatches (stuckInv_handEvent faulted (.segmentFaulted g)) g)
  exact stuckInv_relist (stuckInv_congr (State.stopReplayRetries_view State.segs (fun _ _ => rfl) _ g)
    (stuckInv_dropResponses ended g)) g

theorem stuckInv_faultSegment {s : State} (hs : s.stuckInv) (g : SegId) : (s.faultSegment g).stuckInv := by
  rw [State.faultSegment_eq]
  exact stuckInv_updSeg (stuckInv_giveUpAll (stuckInv_stripped hs g) g .segmentFault) g (by exact fun _ hy => hy.zero rfl rfl)

theorem stuckInv_failSegment (s : State) (g : SegId) (hs : s.stuckInv) : (s.failSegment g).stuckInv := by
  have halted := stuckInv_haltWatches hs g
  rw [State.failSegment]
  dsimp only
  split
  · refine stuckInv_drainIfDone ?_ g
    exact stuckInv_congr (State.stopReplayRetries_view State.segs (fun _ _ => rfl) _ g)
      (stuckInv_dropResponses (stuckInv_updSeg halted g (by exact fun _ hy => hy.zero rfl rfl)) g)
  · exact stuckInv_drainIfDone halted g
  · exact halted
  · exact stuckInv_updSeg halted g (by exact fun _ hy => hy.zero rfl rfl)

theorem stuckInv_failEngine {s : State} (hs : s.stuckInv) : s.failEngine.stuckInv := by
  refine foldl_keeps stuckInv_failSegment _ ?_
  exact stuckInv_mapSegs (s := (((_ : State).mapCqs Cq.stop).mapSqs fun x => { x with staging := none })) hs
    fun y hy => hy.same rfl rfl rfl

/-! ### Ends of attempts -/

theorem stuckInv_hostAttempt {s : State} (hs : s.stuckInv) (g : SegId) (n : CtxNum) (frame : FrameKind) (a : Attempt) :
    (s.hostAttempt g n frame a).stuckInv := by
  rw [State.hostAttempt]
  split
  · exact hs
  next c _ =>
    have kept : (s.keepHandOff c frame a).stuckInv := stuckInv_congr (by simp) hs
    dsimp only
    split
    · exact stuckInv_of_core (by simp) kept
    · unfold State.judge State.goOn
      split
      · exact stuckInv_of_core (by simp) kept
      · exact stuckInv_of_core (by simp) kept
      · exact stuckInv_of_core (by simp) kept
      · split
        · exact stuckInv_congr (by simp) kept
        · exact stuckInv_congr (by simp) kept
        · exact stuckInv_congr (by simp) kept

theorem stuckInv_toOwner {s : State} (hs : s.stuckInv) (g : SegId) (w : Wire) (a : Attempt) :
    (s.toOwner g w a).stuckInv := by
  unfold State.toOwner State.pollAttempt State.responseAttempt State.replayAttempt
  split
  · exact stuckInv_hostAttempt hs g _ w.kind a
  next i _ =>
    split
    · exact hs
    · split
      · exact stuckInv_congr (by simp) hs
      · split
        · exact hs
        · exact stuckInv_pollOver hs i a
  · split
    · exact hs
    · split
      · exact stuckInv_relist hs g
      · exact hs
  next t _ =>
    split
    · exact hs
    · have either {p : Prop} [Decidable p] (f : Job → Job) :
          (if p then s.updJob t f else s.replayOutcome t a).stuckInv := by
        split
        · exact hs
        · exact stuckInv_replayOutcome hs t a
      exact either _

theorem stuckInv_clearWire {s : State} (hs : s.stuckInv) (g : SegId) : (s.clearWire g).stuckInv :=
  stuckInv_relist hs g

theorem stuckInv_attemptEnd {s : State} (hs : s.stuckInv) (g : SegId) (x : BitVec 2) (d : Half) (p : Bool) :
    (s.attemptEnd g x d p).stuckInv := by
  rw [State.attemptEnd]
  split
  · exact hs
  · split
    · exact hs
    · exact stuckInv_drainIfDone (stuckInv_toOwner (stuckInv_report (stuckInv_clearWire hs g) _ _ _) g _ _) g

theorem stuckInv_broadcastEnd {s : State} (hs : s.stuckInv) (g : SegId) : (s.broadcastEnd g).stuckInv := by
  rw [State.broadcastEnd]
  split
  · exact hs
  · split
    · refine stuckInv_drainIfDone (stuckInv_of_core ?_ (stuckInv_clearWire hs g)) g
      split <;> simp
    · exact hs

/-! ### Frames -/

theorem stuckInv_startFrame {s : State} (hs : s.stuckInv) (g : SegId) (kind : FrameKind) (tgt : Option Tgt) (index : Byte)
    (data : Half) (owner : WireOwner) : (s.startFrame g kind tgt index data owner).stuckInv :=
  stuckInv_updSeg hs g (by exact fun _ hy => hy.zero rfl rfl)

theorem stuckInv_startHost {s : State} (hs : s.stuckInv) (g : SegId) (c : Ctx) : (s.startHost g c).stuckInv :=
  stuckInv_startFrame (stuckInv_relist (s := s.updCtx c.num (·.started s.now)) hs g) _ _ _ _ _ _

theorem stuckInv_chooseHost {s : State} (hs : s.stuckInv) (g : SegId) (c : Ctx) : (s.chooseHost g c).stuckInv :=
  stuckInv_startHost (stuckInv_relist hs g) g c

theorem stuckInv_choosePoll {s : State} (hs : s.stuckInv) (g : SegId) (d : DuePoll) : (s.choosePoll g d).stuckInv := by
  have chosen : (s.updSeg g fun y => { y with duePolls := y.duePolls.tail, lastServed := .poll }).stuckInv :=
    stuckInv_relist hs g
  rw [State.choosePoll]
  split
  · exact chosen
  · exact stuckInv_startFrame (stuckInv_congr (State.setWatch_segs _ _ _) chosen) _ _ _ _ _ _

theorem stuckInv_chooseWrite {s : State} (hs : s.stuckInv) (g : SegId) (e : IwEntry) : (s.chooseWrite g e).stuckInv := by
  have chosen : (s.updSeg g fun y => { y with writes := y.writes.erase e }).stuckInv :=
    stuckInv_relist hs g
  unfold State.chooseWrite
  split
  · exact stuckInv_startFrame chosen _ _ _ _ _ _
  · dsimp only
    split
    · exact chosen
    · split
      · exact chosen
      · exact stuckInv_startFrame (stuckInv_congr (State.updJob_segs _ _ _) chosen) _ _ _ _ _ _

theorem stuckInv_yieldIfHeld {s : State} (hs : s.stuckInv) (g : SegId) : (s.yieldIfHeld g).stuckInv := by
  rw [State.yieldIfHeld]
  split
  · exact hs
  next c _ =>
    split
    · exact stuckInv_relist (s := s.updCtx c.num (·.yielded)) hs g
    · exact hs

theorem stuckInv_boundary {s : State} (hs : s.stuckInv) (g : SegId) : (s.boundary g).stuckInv := by
  unfold State.boundary State.holderFrame State.openBoundary State.pollOrHost
  split
  · have yielded := stuckInv_yieldIfHeld hs g
    dsimp only
    split
    · split
      · split
        · exact stuckInv_startHost yielded g _
        · exact yielded
      · exact yielded
    · split
      · exact stuckInv_chooseWrite yielded g _
      · split
        · exact yielded
        · exact stuckInv_choosePoll yielded g _
        · exact stuckInv_chooseHost yielded g _
        · split
          · exact stuckInv_chooseHost yielded g _
          · exact stuckInv_choosePoll yielded g _
  · exact hs

/-! ### Commands -/

theorem stuckInv_adminDone {s : State} (hs : s.stuckInv) (st : Status) (v : Option Half) : (s.adminDone st v).stuckInv :=
  stuckInv_congr (by simp) hs

theorem stuckInv_writeTail {s : State} (hs : s.stuckInv) (q : SqId) (w : RegWrite) : (s.writeTail q w).stuckInv := by
  unfold State.writeTail
  dsimp only
  split
  · split
    · exact hs
    · exact stuckInv_sqError hs _ q
  · exact hs

theorem stuckInv_writeHead {s : State} (hs : s.stuckInv) (c : CqId) (w : RegWrite) : (s.writeHead c w).stuckInv := by
  unfold State.writeHead State.reRaise
  dsimp only
  split
  · split
    · split
      · exact hs
      · exact hs
    · exact stuckInv_cqError hs c _
  · exact hs

theorem State.writeEventHead_segs (s : State) (w : RegWrite) : (s.writeEventHead w).segs = s.segs := by
  unfold State.writeEventHead State.reRaise
  dsimp only
  (repeat' split) <;> simp

theorem runCreateSq_segs (r : Record) (s : State) : (runCreateSq r s).segs = s.segs := by
  unfold runCreateSq
  dsimp only
  (repeat' split) <;> simp

theorem runCreateCq_segs (r : Record) (s : State) : (runCreateCq r s).segs = s.segs := by
  unfold runCreateCq
  dsimp only
  (repeat' split) <;> simp

theorem runDeleteCq_segs (r : Record) (s : State) : (runDeleteCq r s).segs = s.segs := by
  unfold runDeleteCq
  (repeat' split) <;> simp

theorem stuckInv_deleteSq {s : State} (hs : s.stuckInv) (r : Record) : (runDeleteSq r s).stuckInv := by
  rw [runDeleteSq]
  split
  · exact stuckInv_adminDone hs _ _
  next q _ =>
    split
    · exact stuckInv_adminDone hs _ _
    · have stopped : ((s.updSq q fun x => { x with state := .deleting }).releaseLock q).stuckInv :=
        stuckInv_congr (by simp) hs
      have ended := foldl_keeps (P := State.stuckInv)
        (fun _ n hu => stuckInv_of_core (core_tearDownCtx _ n .queueDeleted) hu)
        (((s.updSq q fun x => { x with state := .deleting }).releaseLock q).ctxsOf q) stopped
      exact stuckInv_congr (State.adminWaits_view State.segs (fun _ _ => rfl) _ _) ended

theorem stuckInv_abort {s : State} (hs : s.stuckInv) (r : Record) : (runAbort r s).stuckInv := by
  rw [runAbort]
  split
  · exact stuckInv_adminDone hs _ _
  · split
    · exact stuckInv_adminDone hs _ _
    · refine stuckInv_adminDone ?_ _ _
      unfold State.abortCtx
      split
      · exact hs
      · split
        · exact hs
        · split
          · split
            · exact hs
            · exact hs
          · exact stuckInv_of_core (by simp) hs
      · exact stuckInv_of_core (by simp) hs

/-- The settings that pass SEGMENT_SETUP's check have a stuck time of at least 1. -/
theorem stuckInv_segmentSetup {s : State} (hs : s.stuckInv) (r : Record) : (runSegmentSetup r s).stuckInv := by
  rw [runSegmentSetup]
  split
  · exact stuckInv_adminDone hs _ _
  next g _ =>
    split
    · exact stuckInv_adminDone hs _ _
    next off =>
      split
      · exact stuckInv_adminDone hs _ _
      next range =>
        have count : (s.seg g).stuckCount = 0 := (hs g).2.2 (by simp [not_not.1 off])
        have time : 1 ≤ (setupOf r).stuckTime := by
          simp only [Settings.inRange, not_not, Bool.and_eq_true, decide_eq_true_eq] at range
          exact range.1.2
        have set : ({ s.seg g with settings := setupOf r } : SegCtl).Unstuck := ⟨time, count ▸ time, fun _ => count⟩
        exact stuckInv_adminDone (stuckInv_setSeg hs g set) _ _

theorem stuckInv_rearmWatches {s : State} (hs : s.stuckInv) (g : SegId) : (s.rearmWatches g).stuckInv :=
  stuckInv_congr (by simp) hs

theorem stuckInv_segmentOn {s : State} (hs : s.stuckInv) (r : Record) : (runSegmentOn r s).stuckInv := by
  rw [runSegmentOn]
  split
  · exact stuckInv_adminDone hs _ _
  next g _ =>
    split
    · have on : (s.updSeg g SegCtl.activated).stuckInv := stuckInv_updSeg hs g (by exact fun _ hy => hy.zero rfl rfl)
      exact stuckInv_adminDone (stuckInv_rearmWatches on g) _ _
    · exact stuckInv_adminDone hs _ _
    · exact stuckInv_adminDone hs _ _

theorem stuckInv_enterDraining {s : State} (hs : s.stuckInv) (g : SegId) : (s.enterDraining g).stuckInv := by
  have draining : (s.updSeg g fun y => { y with state := .draining, stuckCount := 0 }).stuckInv :=
    stuckInv_updSeg hs g (by exact fun _ hy => hy.zero rfl rfl)
  have ended := stuckInv_of_core (core_endContexts _ g .segmentOff) (stuckInv_haltWatches draining g)
  exact stuckInv_congr (State.stopReplayRetries_view State.segs (fun _ _ => rfl) _ g) (stuckInv_dropResponses ended g)

theorem stuckInv_segmentOff {s : State} (hs : s.stuckInv) (r : Record) : (runSegmentOff r s).stuckInv := by
  rw [runSegmentOff]
  split
  · exact stuckInv_adminDone hs _ _
  next g _ =>
    split
    · have waits : (s.adminWaits (.drainingSegment g)).stuckInv := stuckInv_congr (by simp) hs
      exact stuckInv_drainIfDone (stuckInv_enterDraining waits g) g
    next faulted =>
      have count : (s.seg g).stuckCount = 0 := (hs g).2.2 (by simp [faulted])
      exact stuckInv_adminDone (stuckInv_restate hs g count) _ _
    · exact stuckInv_adminDone hs _ _
    · exact stuckInv_adminDone hs _ _

theorem stuckInv_segmentRecover {s : State} (hs : s.stuckInv) (r : Record) : (runSegmentRecover r s).stuckInv := by
  rw [runSegmentRecover]
  split
  · exact stuckInv_adminDone hs _ _
  next g _ =>
    split
    next faulted =>
      have count : (s.seg g).stuckCount = 0 := (hs g).2.2 (by simp [faulted])
      exact stuckInv_congr (State.adminWaits_view State.segs (fun _ _ => rfl) _ _)
        (stuckInv_restate hs g count)
    next => exact stuckInv_adminDone hs _ _

theorem State.writeResult_segs (s : State) (r : Record) (l : List Byte) : (s.writeResult r l).segs = s.segs := by
  unfold State.writeResult
  split <;> simp

theorem runWatchAdd_segs (r : Record) (s : State) : (runWatchAdd r s).segs = s.segs := by
  unfold runWatchAdd
  dsimp only
  (repeat' split) <;> simp

theorem runWatchArm_segs (r : Record) (s : State) : (runWatchArm r s).segs = s.segs := by
  unfold runWatchArm
  dsimp only
  (repeat' split) <;> simp

theorem stuckInv_watchRemove {s : State} (hs : s.stuckInv) (r : Record) : (runWatchRemove r s).stuckInv := by
  rw [runWatchRemove]
  split
  · exact stuckInv_adminDone hs _ _
  next w _ =>
    split
    · exact stuckInv_adminDone hs _ _
    next x _ =>
      have forgotten : (s.updSeg x.cfg.tgt.seg (·.forgetWatch w)).stuckInv := stuckInv_relist hs _
      dsimp only
      split
      · exact stuckInv_congr (State.adminWaits_view State.segs (fun _ _ => rfl) _ _) forgotten
      · exact stuckInv_congr (by simp) forgotten

theorem runRestoreAdd_segs (r : Record) (s : State) : (runRestoreAdd r s).segs = s.segs := by
  unfold runRestoreAdd
  (repeat' split) <;> simp

theorem stuckInv_restoreDrop {s : State} (hs : s.stuckInv) (r : Record) : (runRestoreDrop r s).stuckInv := by
  rw [runRestoreDrop]
  split
  next t all _ _ =>
    exact stuckInv_adminDone
      (stuckInv_endJobIfOver (s := { s with pool := s.pool.filter fun e => !dropSelects t all (r.byte 6) e }) hs t) _ _
  next => exact stuckInv_adminDone hs _ _

theorem runConfigureEvents_segs (r : Record) (s : State) : (runConfigureEvents r s).segs = s.segs := by
  unfold runConfigureEvents
  dsimp only
  (repeat' split) <;> simp

theorem stuckInv_readFailed {s : State} (hs : s.stuckInv) (q : SqId) (tag : Nat) : (s.readFailed q tag).stuckInv := by
  unfold State.readFailed
  split
  · split
    · exact stuckInv_failEngine (s := s.retire tag) hs
    · exact hs
  · split
    · exact stuckInv_sqError (s := s.discardRead tag) hs _ q
    · exact hs

theorem State.readDiscarded_segs (s : State) (q : SqId) (tag : Nat) : (s.readDiscarded q tag).segs = s.segs := by
  unfold State.readDiscarded
  (repeat' split) <;> simp

theorem State.postingDone_segs (s : State) (c : CqId) (tag : Nat) : (s.postingDone c tag).segs = s.segs := by
  unfold State.postingDone
  dsimp only
  (repeat' split) <;> simp

theorem stuckInv_postingFailed {s : State} (hs : s.stuckInv) (c : CqId) (tag : Nat) :
    (s.postingFailed c tag).stuckInv := by
  unfold State.postingFailed
  dsimp only
  split
  · exact hs
  next i _ =>
    split
    · exact stuckInv_failEngine (s := s.retire tag) hs
    · have freed : (((s.retire tag).setCq c { s.cq c with inFlight := none }).freeItem i).stuckInv :=
        stuckInv_congr (by simp) hs
      split
      · exact stuckInv_cqError freed c _
      · exact freed

theorem stuckInv_bufferWritten {s : State} (hs : s.stuckInv) (n : CtxNum) (tag : Nat) (ok : Bool) :
    (s.bufferWritten n tag ok).stuckInv := by
  have ready (st : Status) : ((s.retire tag).becomeReady n st).stuckInv :=
    stuckInv_of_core (core_becomeReady _ n st) (s := s.retire tag) hs
  have ended (st : Status) (c : Ctx) : (((s.retire tag).becomeReady n st).memberEnded c st).stuckInv :=
    stuckInv_of_core (core_memberEnded _ c st) (ready st)
  rw [State.bufferWritten]
  split
  · exact hs
  · split
    · have either {p : Prop} [Decidable p] (c : Ctx) (st : Status) :
          (if p then ((s.retire tag).becomeReady n st).memberEnded c st else (s.retire tag).becomeReady n st).stuckInv := by
        split
        · exact ended st c
        · exact ready st
      exact either _ _
    · exact hs

theorem State.eventWritten_segs (s : State) (tag : Nat) : (s.eventWritten tag).segs = s.segs := by
  unfold State.eventWritten
  dsimp only
  (repeat' split) <;> simp

theorem State.eventFailed_segs (s : State) (tag : Nat) : (s.eventFailed tag).segs = s.segs := by
  unfold State.eventFailed
  dsimp only
  (repeat' split) <;> simp

theorem stuckInv_offerRetry {s : State} (hs : s.stuckInv) (r : Requester) : (s.offerRetry r).stuckInv := by
  unfold State.offerRetry State.offerHostRetry State.listPollRetry State.offerResponse State.offerReplay
  split
  next n =>
    split
    · exact hs
    · dsimp only
      split
      · exact hs
      · exact stuckInv_relist (s := s.updCtx n _) hs _
  next w =>
    split
    · exact hs
    · exact stuckInv_relist (s := s.setWatch w _) hs _
  · split
    · exact stuckInv_relist hs _
    · exact hs
  next t => exact stuckInv_relist (s := s.updJob t _) hs _

theorem stuckInv_offerPollWait {s : State} (hs : s.stuckInv) (n : CtxNum) : (s.offerPollWait n).stuckInv := by
  unfold State.offerPollWait
  split
  · exact hs
  · exact stuckInv_relist (s := s.updCtx n _) hs _

theorem stuckInv_passDeadline {s : State} (hs : s.stuckInv) (n : CtxNum) : (s.passDeadline n).stuckInv := by
  unfold State.passDeadline
  split
  · exact hs
  · split
    · exact stuckInv_of_core (by simp) hs
    · exact stuckInv_of_core (by simp) hs
    · exact hs

theorem stuckInv_becomeDue {s : State} (hs : s.stuckInv) (w : WatchId) : (s.becomeDue w).stuckInv := by
  unfold State.becomeDue
  split
  · exact hs
  · split
    · exact hs
    · split
      · exact stuckInv_relist (s := s.setWatch w _) hs _
      · exact hs

theorem stuckInv_pulseEnd {s : State} (hs : s.stuckInv) (g : SegId) (high : Bool) : (s.pulseEnd g high).stuckInv := by
  unfold State.pulseEnd State.recoverDone
  dsimp only
  split
  next recovering =>
    have count : (s.seg g).stuckCount = 0 := (hs g).2.2 (by simp [recovering.1])
    split
    · exact stuckInv_setSeg hs g (SegCtl.Unstuck.zero (hs g) rfl count)
    · split
      · have faulted : (s.setSeg g { s.seg g with state := .faulted }).stuckInv :=
          stuckInv_setSeg hs g (SegCtl.Unstuck.zero (hs g) rfl count)
        split
        · exact stuckInv_adminDone faulted _ _
        · exact faulted
      · exact stuckInv_setSeg hs g (SegCtl.Unstuck.zero (hs g) rfl count)
  next => exact hs

theorem stuckInv_recoveryEnd {s : State} (hs : s.stuckInv) (g : SegId) : (s.recoveryEnd g).stuckInv := by
  unfold State.recoveryEnd State.recoverDone
  dsimp only
  split
  · have active : (s.setSeg g (s.seg g).activated).stuckInv := stuckInv_setSeg hs g (SegCtl.Unstuck.zero (hs g) rfl rfl)
    have rearmed := stuckInv_rearmWatches (stuckInv_handEvent active (.segmentRecovered g)) g
    split
    · exact stuckInv_adminDone rearmed _ _
    · exact rearmed
  · exact hs

theorem stuckInv_reset : State.reset.stuckInv := fun g => by
  have reset : State.reset.seg g = SegCtl.afterReset Settings.default := by simp [State.seg, State.reset, Vector.get]
  rw [reset]
  decide

theorem stuckInv_engineReset {s : State} (hs : s.stuckInv) (keep : Bool) : (s.engineReset keep).stuckInv := by
  cases keep with
  | false => exact stuckInv_congr rfl stuckInv_reset
  | true =>
    intro g
    have kept : (s.engineReset true).seg g = SegCtl.afterReset (s.seg g).settings := by
      simp [State.seg, State.engineReset]
    rw [kept]
    exact SegCtl.Unstuck.zero (hs g) rfl rfl

/-! ### What a fault does to segment controllers -/

theorem State.removeJob_seg (s : State) (t : Tgt) (k : SegId) :
    ∃ l, (s.removeJob t).seg k = { s.seg k with writes := l } ∧ (k ≠ t.seg → l = (s.seg k).writes) := by
  by_cases hk : t.seg = k
  · subst hk
    exact ⟨_, State.seg_updSeg_same _ _ _, fun other => absurd rfl other⟩
  · exact ⟨(s.seg k).writes, by rw [State.removeJob, State.seg_updSeg, if_neg hk]; rfl, fun _ => rfl⟩

theorem State.abandonJob_seg (s : State) (t : Tgt) (cause : AbandonCause) (k : SegId) :
    ∃ l, (s.abandonJob t cause).seg k = { s.seg k with writes := l } ∧ (k ≠ t.seg → l = (s.seg k).writes) := by
  rw [State.abandonJob]
  split
  · exact ⟨_, rfl, fun _ => rfl⟩
  · simpa using s.removeJob_seg t k

theorem State.giveUp_seg (cause : AbandonCause) (s : State) (t : Tgt) (k : SegId) :
    ∃ l, (s.giveUp cause t).seg k = { s.seg k with writes := l } ∧ (k ≠ t.seg → l = (s.seg k).writes) := by
  rw [State.giveUp]
  split
  · simpa using State.abandonJob_seg (s.setPres t { s.pres t with state := .lost }) t cause k
  · exact ⟨_, rfl, fun _ => rfl⟩

/-- Giving up the RESTORING targets of a segment takes their jobs out of its internal write list. -/
theorem State.giveUpAll_seg (s : State) (g : SegId) (cause : AbandonCause) (k : SegId) :
    ∃ l, (s.giveUpAll g cause).seg k = { s.seg k with writes := l } ∧ (k ≠ g → l = (s.seg k).writes) := by
  have targets : ∀ t ∈ targetsOf g, t.seg = g := fun t ht => (mem_targetsOf_iff g t).1 ht
  rw [State.giveUpAll]
  generalize targetsOf g = l at targets
  induction l generalizing s with
  | nil => exact ⟨_, rfl, fun _ => rfl⟩
  | cons t l ih =>
    obtain ⟨a, ha, other⟩ := s.giveUp_seg cause t k
    obtain ⟨b, hb, others⟩ := ih (s.giveUp cause t) fun u hu => targets u (List.mem_cons_of_mem t hu)
    refine ⟨b, by rw [List.foldl_cons, hb, ha], fun hk => ?_⟩
    rw [others hk, ha]
    exact other fun same => hk (same.trans (targets t List.mem_cons_self))

theorem State.dropResponse_seg (s : State) (r : RespWrite) (k : SegId) : (s.dropResponse r).seg k = s.seg k := by simp

theorem State.dropResponses_seg_other (s : State) {g k : SegId} (h : g ≠ k) : (s.dropResponses g).seg k = s.seg k := by
  rw [State.dropResponses, State.seg_updSeg, if_neg h]
  exact foldl_same (fun u : State => u.seg k) _ (fun u r => u.dropResponse_seg r k) _ _

theorem State.dropResponses_seg_same (s : State) (g : SegId) :
    ∃ l, (s.dropResponses g).seg g = { s.seg g with respDelays := [], writes := l } := by
  rw [State.dropResponses, State.seg_updSeg_same]
  rw [foldl_same (fun u : State => u.seg g) _ (fun u r => u.dropResponse_seg r g)]
  exact ⟨_, rfl⟩

theorem State.haltWatches_seg_other (s : State) {g k : SegId} (h : g ≠ k) : (s.haltWatches g).seg k = s.seg k := by
  rw [State.haltWatches, State.seg_updSeg, if_neg h, State.mapWatches_seg]

theorem State.haltWatches_seg_same (s : State) (g : SegId) :
    (s.haltWatches g).seg g = { s.seg g with duePolls := [] } := by
  rw [State.haltWatches, State.seg_updSeg_same, State.mapWatches_seg]

theorem State.stopReplayRetries_seg (s : State) (g k : SegId) : (s.stopReplayRetries g).seg k = s.seg k := rfl

/-- A fault leaves alone what stands of the other segments. -/
theorem State.faultSegment_seg_other (s : State) {g k : SegId} (h : g ≠ k) :
    ((s.faultSegment g).seg k).standing = (s.seg k).standing := by
  rw [State.faultSegment_eq, State.seg_updSeg, if_neg h]
  obtain ⟨l, given, other⟩ := (s.stripped g).giveUpAll_seg g .segmentFault k
  rw [given, other (Ne.symm h), State.stripped, State.seg_updSeg, if_neg h, State.stopReplayRetries_seg,
    State.dropResponses_seg_other _ h]
  refine (seg_of_core (core_endContexts _ g .segmentFault) k).trans ?_
  rw [State.haltWatches_seg_other _ h]
  simp [State.seg_updSeg, h]

theorem SegCtl.standing_emptied (y : SegCtl) (st : SegState) : (y.emptied st).standing = y.standing.emptied st := rfl

/-- What stands of a segment after its fault: it is FAULTED, without work of its own, and its settings, its wire and the
class last served are as before. -/
theorem State.faultSegment_seg_same (s : State) (g : SegId) :
    ((s.faultSegment g).seg g).standing = ((s.seg g).emptied .faulted).standing := by
  rw [State.faultSegment_eq, State.seg_updSeg_same]
  obtain ⟨l, given, -⟩ := (s.stripped g).giveUpAll_seg g .segmentFault g
  obtain ⟨k, dropped⟩ := State.dropResponses_seg_same
    ((((s.updSeg g fun y => { y with state := .faulted, stuckCount := 0 }).handEvent (.segmentFaulted g)).haltWatches
      g).endContexts g .segmentFault) g
  rw [given, State.stripped, State.seg_updSeg_same, State.stopReplayRetries_seg, dropped]
  simp only [SegCtl.standing_emptied]
  refine (congrArg (SegCtl.emptied · .faulted) (seg_of_core (core_endContexts _ g .segmentFault) g)).trans ?_
  rw [State.haltWatches_seg_same]
  simp [SegCtl.emptied, SegCtl.standing]

/-! ### Ticks

A sample may leave a segment stuck: what else it leaves is `SegCtl.Sampled`. A fault makes its own segment unstuck and leaves
what stands of the others, so that after the faults of all stuck segments none is left stuck. -/

/-- A segment controller that a sample may leave: as every step leaves it, but that it may be stuck. -/
def SegCtl.Sampled (y : SegCtl) : Prop :=
  1 ≤ y.settings.stuckTime ∧ (y.stuck = false → y.stuckCount < y.settings.stuckTime) ∧
    (y.state ≠ .active → y.stuckCount = 0)

theorem SegCtl.sampled_standing (y : SegCtl) : y.standing.Sampled ↔ y.Sampled := Iff.rfl

theorem SegCtl.stuck_standing (y : SegCtl) : y.standing.stuck = y.stuck := rfl

theorem SegCtl.Sampled.unstuck {y : SegCtl} (h : y.Sampled) (calm : y.stuck = false) : y.Unstuck :=
  ⟨h.1, h.2.1 calm, h.2.2⟩

theorem SegCtl.Unstuck.sample {y : SegCtl} (h : y.Unstuck) (low : Bool) : (y.sample low).Sampled := by
  obtain ⟨time, count, off⟩ := h
  by_cases monitors : y.monitors = true
  · have active : y.state = .active := by
      simp only [SegCtl.monitors, Bool.and_eq_true, beq_iff_eq] at monitors
      exact monitors.1
    refine ⟨by simpa using time, fun calm => ?_, fun other => absurd active (by simpa using other)⟩
    have still : (y.sample low).monitors = true := by simpa [SegCtl.monitors] using monitors
    simpa [SegCtl.stuck, still] using calm
  · rw [SegCtl.sample_unmonitored (Bool.eq_false_iff.2 monitors)]
    exact ⟨time, fun _ => count, off⟩

/-- A fault of a segment that is stuck makes it unstuck. -/
theorem SegCtl.Sampled.emptied {y : SegCtl} (h : y.Sampled) : (y.emptied .faulted).Unstuck := ⟨h.1, h.1, fun _ => rfl⟩

theorem sampled_faultIfStuck {s : State} (hs : ∀ g, (s.seg g).Sampled) (g k : SegId) :
    ((s.faultIfStuck g).seg k).Sampled ∧
      ((s.faultIfStuck g).seg k).stuck = ((s.seg k).stuck && decide (g ≠ k)) := by
  rw [State.faultIfStuck]
  split
  next stuck =>
    by_cases same : g = k
    · subst same
      have emptied := s.faultSegment_seg_same g
      rw [← SegCtl.sampled_standing, ← SegCtl.stuck_standing, emptied]
      obtain ⟨time, count, off⟩ := (hs g).emptied
      exact ⟨⟨time, fun _ => count, off⟩, by simp [SegCtl.stuck, SegCtl.monitors, SegCtl.emptied, SegCtl.standing]⟩
    · rw [← SegCtl.sampled_standing, ← SegCtl.stuck_standing, s.faultSegment_seg_other same]
      exact ⟨hs k, by simp [same, SegCtl.stuck_standing]⟩
  next calm =>
    refine ⟨hs k, ?_⟩
    by_cases same : g = k
    · subst same
      simp [calm]
    · simp [same]

/-- After the faults of the stuck segments of a list, none of these is stuck. -/
theorem sampled_faults {s : State} (hs : ∀ g, (s.seg g).Sampled) (l : List SegId) (k : SegId) :
    ((l.foldl State.faultIfStuck s).seg k).Sampled ∧
      ((l.foldl State.faultIfStuck s).seg k).stuck = ((s.seg k).stuck && decide (k ∉ l)) := by
  induction l generalizing s with
  | nil => exact ⟨hs k, by simp⟩
  | cons g l ih =>
    obtain ⟨sampled, stuck⟩ := ih fun j => (sampled_faultIfStuck hs g j).1
    refine ⟨sampled, ?_⟩
    rw [List.foldl_cons, stuck, (sampled_faultIfStuck hs g k).2]
    by_cases same : g = k
    · simp [same]
    · simp [same, Ne.symm same]

theorem mem_segIds (g : SegId) : g ∈ segIds := by revert g; decide

theorem stuckInv_sampled {s : State} (hs : s.stuckInv) (low : LineReads) :
    (segIds.foldl State.faultIfStuck (s.sampleLines low)).stuckInv := fun g => by
  have sampled (k : SegId) : ((s.sampleLines low).seg k).Sampled := by
    rw [State.sampleLines_seg]
    exact SegCtl.Unstuck.sample (hs k) _
  obtain ⟨left, calm⟩ := sampled_faults sampled segIds g
  exact left.unstuck (by simp [calm, mem_segIds])

theorem stuckInv_faultIfStuck {s : State} (hs : s.stuckInv) (g : SegId) : (s.faultIfStuck g).stuckInv := by
  rw [State.faultIfStuck]
  split
  · exact stuckInv_faultSegment hs g
  · exact hs

/-! ### The statement -/

theorem stuckInv_kept : State.Kept State.stuckInv where
  queue _ h := h
  settle h := stuckInv_of_stands (settle_standing _) h
  control _ h := h
  interrupts _ h := h
  powerOn _ := stuckInv_reset
  engineReset keep h := stuckInv_engineReset h keep
  enableIdle h := stuckInv_congr (by unfold State.enableIdle; dsimp only; split <;> simp) h
  beginPause h := stuckInv_pauseWatches h
  resume h := foldl_keeps (P := State.stuckInv) (fun _ g hu => stuckInv_rearmWatches hu g) segIds h
  writeTail q w h := stuckInv_writeTail h q w
  writeHead c w h := stuckInv_writeHead h c w
  writeEventHead w h := stuckInv_congr (State.writeEventHead_segs _ w) h
  retire _ h := h
  setAdm _ h := h
  adminEnter _ h := h
  adminDone st v h := stuckInv_adminDone h st v
  createSq r h := stuckInv_congr (runCreateSq_segs r _) h
  deleteSq r h := stuckInv_deleteSq h r
  createCq r h := stuckInv_congr (runCreateCq_segs r _) h
  deleteCq r h := stuckInv_congr (runDeleteCq_segs r _) h
  segmentSetup r h := stuckInv_segmentSetup h r
  segmentOn r h := stuckInv_segmentOn h r
  segmentOff r h := stuckInv_segmentOff h r
  segmentRecover r h := stuckInv_segmentRecover h r
  writeResult r l h := stuckInv_congr (State.writeResult_segs _ r l) h
  watchAdd r h := stuckInv_congr (runWatchAdd_segs r _) h
  watchRemove r h := stuckInv_watchRemove h r
  watchArm r h := stuckInv_congr (runWatchArm_segs r _) h
  restoreAdd r h := stuckInv_congr (runRestoreAdd_segs r _) h
  restoreDrop r h := stuckInv_restoreDrop h r
  configureEvents r h := stuckInv_congr (runConfigureEvents_segs r _) h
  abort r h := stuckInv_abort h r
  ioEntry op tag b h := stuckInv_ioEntry h op tag b
  readFailed q tag h := stuckInv_readFailed h q tag
  readDiscarded q tag h := stuckInv_congr (State.readDiscarded_segs _ q tag) h
  postingDone c tag h := stuckInv_congr (State.postingDone_segs _ c tag) h
  postingFailed c tag h := stuckInv_postingFailed h c tag
  bufferWritten n tag ok h := stuckInv_bufferWritten h n tag ok
  eventWritten tag h := stuckInv_congr (State.eventWritten_segs _ tag) h
  eventFailed tag h := stuckInv_congr (State.eventFailed_segs _ tag) h
  offerRetry r h := stuckInv_offerRetry h r
  offerPollWait n h := stuckInv_offerPollWait h n
  passDeadline n h := stuckInv_passDeadline h n
  becomeDue w h := stuckInv_becomeDue h w
  faultIfStuck g h := stuckInv_faultIfStuck h g
  sampled low h := stuckInv_sampled h low
  boundary g h := stuckInv_boundary h g
  attemptEnd g x d p h := stuckInv_attemptEnd h g x d p
  broadcastEnd g h := stuckInv_broadcastEnd h g
  pulseEnd g high h := stuckInv_pulseEnd h g high
  recoveryEnd g h := stuckInv_recoveryEnd h g

/-- Settles O5: each operation of `State.Kept` keeps the miss counts, and leaves no segment stuck. -/
theorem stepsKeepMissAndStuckCounts : Obligations.StepsKeepMissAndStuckCounts :=
  ⟨fun _ _ hs h => missInv_kept.step hs h, fun _ _ hs h => stuckInv_kept.step hs h⟩

end Sys2Proof.Machine
end

section
/-! PROOFS. What every step is: the command at the front of the queue runs, every well-formed command answers a next
state, and the state after reset meets the invariants. -/

namespace Sys2Proof.Machine

set_option Elab.async false -- one thread elaborates: the checker's memory is limited

/-- Settles O1, by the definition of a step. -/
theorem stepRunsCommandInFront : Obligations.StepRunsCommandInFront := by
  intro c rest s front
  rw [step, front]

/-- Settles O7: what a reset leaves meets each invariant. -/
theorem resetMeetsInvariants : Obligations.ResetMeetsInvariants :=
  ⟨poolInv_reset, missInv_reset, stuckInv_reset, distinct_reset⟩

/-! ### Every well-formed command runs -/

theorem exec_adminQueueRegisterWrite_next (reg : AdminReg) (e : BitVec 8) (v : BitVec 64) (s : State) :
    ∃ t, exec (.adminQueueRegisterWrite reg e v) s = .next t := by
  change ∃ t, execAdminQueueRegisterWrite reg e v s = .next t
  unfold execAdminQueueRegisterWrite
  split
  next idle => cases reg <;> exact ⟨_, rfl⟩
  next => exact ⟨s, rfl⟩

theorem exec_invalidOpcodeEntry_next {admin : Bool} {op : Byte} (invalid : codeValid admin op = false) (tag : Nat)
    (b : Body) (s : State) : ∃ t, exec (.invalidOpcodeEntry admin tag op b) s = .next t := by
  change ∃ t, execInvalidOpcodeEntry admin tag op b s = .next t
  rw [execInvalidOpcodeEntry, invalid]
  cases admin with
  | false => exact ⟨_, rfl⟩
  | true => exact ⟨_, rfl⟩

/-- Of the commands whose row checks their operands, a well-formed one passes; every other is total by its form. -/
theorem exec_next_of_wellFormed {c : Instr} (wf : c.wellFormed = true) (s : State) : ∃ t, exec c s = .next t := by
  cases c
  case msiConfigChange on n =>
    have range : 1 ≤ n ∧ n ≤ 8 := by simpa [Instr.wellFormed] using wf
    exact ⟨_, if_pos range⟩
  case registerWriteOther offset w => exact ⟨_, if_pos wf⟩
  case adminQueueRegisterWrite reg e v => exact exec_adminQueueRegisterWrite_next reg e v s
  case invalidOpcodeEntry admin tag op b =>
    exact exec_invalidOpcodeEntry_next (by simpa [Instr.wellFormed] using wf) tag b s
  all_goals exact ⟨_, rfl⟩

/-- Settles O3: well-formed operands pass the checks of their rows, and the others are refused by them. -/
theorem wellFormedCommandsRun : Obligations.WellFormedCommandsRun :=
  ⟨fun _ s wf => exec_next_of_wellFormed wf s,
   fun _ _ _ range => if_neg (by omega),
   fun _ _ _ other => if_neg (by simp [other]),
   fun _ _ _ _ _ valid => if_pos valid⟩

end Sys2Proof.Machine
end

section
/-! PROOFS. The register window: the bytes that a write replaces, what every register reads, and the writes that configure
the engine or act on the interrupt flags (R41, R60, R161 to R165, R180, R181). -/

namespace Sys2Proof.Machine

set_option Elab.async false -- one thread elaborates: the checker's memory is limited

/-! ### Byte lanes -/

theorem getLsbD_lane (b : Bool) {i : Nat} (h : i < 8) : (if b then 0xFF else 0 : BitVec 8).getLsbD i = b := by
  cases b with
  | false => simp
  | true => exact (BitVec.getLsbD_allOnes (v := 8)).trans (decide_eq_true h)

/-- A bit of lanes put one above another: below 8 it is of the lowest. -/
theorem getLsbD_append_lane {n : Nat} (hi : BitVec n) (b : Bool) (i : Nat) :
    (hi ++ (if b then 0xFF else 0 : BitVec 8)).getLsbD i = if i < 8 then b else hi.getLsbD (i - 8) := by
  rw [BitVec.getLsbD_append]
  split
  next low => exact getLsbD_lane b low
  next => rfl

theorem getLsbD_mask (w : RegWrite) {i : Nat} (h : i < 32) : w.mask.getLsbD i = w.enables.getLsbD (i / 8) := by
  unfold RegWrite.mask
  simp only [getLsbD_append_lane]
  obtain lane | lane | lane | lane : i / 8 = 0 ∨ i / 8 = 1 ∨ i / 8 = 2 ∨ i / 8 = 3 := by omega
  all_goals simp (disch := omega) only [lane, if_pos, if_neg, getLsbD_lane]

/-- The bits that a mask selects are taken from the new value. -/
theorem getLsbD_masked {n : Nat} (value old mask : BitVec n) {i : Nat} (h : i < n) :
    ((value &&& mask) ||| (old &&& ~~~mask)).getLsbD i = if mask.getLsbD i then value.getLsbD i else old.getLsbD i := by
  rw [BitVec.getLsbD_or, BitVec.getLsbD_and, BitVec.getLsbD_and, BitVec.getLsbD_not, decide_eq_true h]
  cases mask.getLsbD i <;> simp

/-- R60: the bytes enabled are replaced. -/
theorem getLsbD_onto (w : RegWrite) (old : BitVec 32) {i : Nat} (h : i < 32) :
    (w.onto old).getLsbD i = if w.enables.getLsbD (i / 8) then w.value.getLsbD i else old.getLsbD i := by
  rw [RegWrite.onto, getLsbD_masked _ _ _ h, getLsbD_mask w h]

/-- R60, for an 8-byte register. -/
theorem getLsbD_replaceBytes (en : BitVec 8) (v old : BitVec 64) {i : Nat} (h : i < 64) :
    (replaceBytes en v old).getLsbD i = if en.getLsbD (i / 8) then v.getLsbD i else old.getLsbD i := by
  rw [replaceBytes, getLsbD_masked _ _ _ h]
  refine if_congr (Eq.congr_left ?_) rfl rfl
  simp only [getLsbD_append_lane]
  obtain lane | lane | lane | lane | lane | lane | lane | lane :
    i / 8 = 0 ∨ i / 8 = 1 ∨ i / 8 = 2 ∨ i / 8 = 3 ∨ i / 8 = 4 ∨ i / 8 = 5 ∨ i / 8 = 6 ∨ i / 8 = 7 := by omega
  all_goals simp (disch := omega) only [lane, if_pos, if_neg, getLsbD_lane]

/-! ### What the registers read -/

theorem getLsbD_flag (b : Bool) (k i : Nat) :
    (if b then BitVec.twoPow 32 k else 0).getLsbD i = (b && (decide (i < 32) && decide (k = i))) := by
  cases b with
  | false => simp
  | true =>
    obtain rfl | h := eq_or_ne k i
    · simp [BitVec.getLsbD_twoPow]
    · simp [BitVec.getLsbD_twoPow, h]

theorem getLsbD_controlWord (c : Control) (i : Nat) :
    c.controlWord.getLsbD i = if i = 0 then c.enable else if i = 2 then c.keepTargets else false := by
  have flags : c.controlWord =
      (if c.enable then BitVec.twoPow 32 0 else 0) ||| (if c.keepTargets then BitVec.twoPow 32 2 else 0) := rfl
  rw [flags, BitVec.getLsbD_or, getLsbD_flag, getLsbD_flag]
  obtain rfl | h0 := eq_or_ne i 0
  · simp
  obtain rfl | h2 := eq_or_ne i 2
  · simp
  · simp [h0, h2, h0.symm, h2.symm]

/-- A field of a word built as a sum of fields: the digit that stands at its place. -/
theorem extractLsb'_ofNat {n v start len : Nat} (fits : v < 2 ^ n) :
    (BitVec.ofNat n v).extractLsb' start len = BitVec.ofNat len (v / 2 ^ start % 2 ^ len) := by
  refine BitVec.eq_of_toNat_eq ?_
  rw [BitVec.extractLsb'_toNat, BitVec.toNat_ofNat, BitVec.toNat_ofNat, Nat.mod_eq_of_lt fits, Nat.shiftRight_eq_div_pow,
    Nat.mod_mod]

theorem getLsbD_ofNat_digit {n v i : Nat} (h : i < n) : (BitVec.ofNat n v).getLsbD i = decide (v / 2 ^ i % 2 = 1) := by
  rw [BitVec.getLsbD_ofNat, decide_eq_true h, Bool.true_and, Nat.testBit_eq_decide_div_mod_eq]

theorem EngineState.code_eq (e : EngineState) : BitVec.ofNat 3 e.code = (match e with
    | .idle => 0
    | .running => 1
    | .pausing => 2
    | .paused => 3
    | .failed => 4) := by
  cases e <;> rfl

theorem EngineState.code_le (e : EngineState) : e.code ≤ 4 := by cases e <;> decide

theorem FailCause.code_eq (c : FailCause) : BitVec.ofNat 2 c.code = (match c with
    | .none => 0
    | .adminConfig => 1
    | .adminMemory => 2) := by
  cases c <;> rfl

theorem FailCause.code_le (c : FailCause) : c.code ≤ 2 := by cases c <;> decide

/-- R181: the fields of ENGINE_STATUS, each of which fits its place. -/
theorem State.statusWord_fields (s : State) (ctxs : s.ctxs.length ≤ 64) (jobs : s.jobs.length ≤ 248) :
    s.statusWord.extractLsb' 0 3 = BitVec.ofNat 3 s.ctl.engine.code ∧
    s.statusWord.extractLsb' 4 2 = BitVec.ofNat 2 s.ctl.cause.code ∧
    s.statusWord.getLsbD 7 = s.adm.ctx.isSome ∧ s.statusWord.extractLsb' 8 7 = BitVec.ofNat 7 s.ctxs.length ∧
    s.statusWord.extractLsb' 16 8 = BitVec.ofNat 8 s.jobs.length ∧
    s.statusWord.getLsbD 3 = false ∧ s.statusWord.getLsbD 6 = false ∧ s.statusWord.getLsbD 15 = false ∧
    s.statusWord.extractLsb' 24 8 = 0 := by
  have engine := s.ctl.engine.code_le
  have cause := s.ctl.cause.code_le
  obtain ⟨busy, some, isBusy⟩ : ∃ b : Nat, b ≤ 1 ∧ s.adm.ctx.isSome = decide (b = 1) ∧
      (if s.adm.ctx.isSome then 128 else 0) = 128 * b := by
    cases s.adm.ctx with
    | none => exact ⟨0, by decide, rfl, rfl⟩
    | some a => exact ⟨1, by decide, rfl, rfl⟩
  obtain ⟨isSome, busyBit⟩ := isBusy
  unfold State.statusWord
  rw [busyBit, isSome]
  generalize s.ctl.engine.code = e at *
  generalize s.ctl.cause.code = c at *
  generalize s.ctxs.length = l at *
  generalize s.jobs.length = j at *
  have fits : e + 16 * c + 128 * busy + 256 * l + 65536 * j < 2 ^ 32 := by omega
  simp only [extractLsb'_ofNat fits, getLsbD_ofNat_digit (show 3 < 32 by decide), getLsbD_ofNat_digit (show 6 < 32 by decide),
    getLsbD_ofNat_digit (show 7 < 32 by decide), getLsbD_ofNat_digit (show 15 < 32 by decide), decide_eq_false_iff_not,
    decide_eq_decide]
  refine ⟨congrArg _ ?_, congrArg _ ?_, ?_, congrArg _ ?_, congrArg _ ?_, ?_, ?_, ?_, congrArg (BitVec.ofNat 8) (a₂ := 0) ?_⟩
  all_goals omega

/-- The two words of an 8-byte register. -/
theorem extractLsb'_append_halves (x : BitVec 64) : (x.extractLsb' 32 32 ++ x.extractLsb' 0 32 : BitVec 64) = x :=
  (BitVec.extractLsb'_append_extractLsb'_eq_extractLsb' (by decide)).trans (by simp)

theorem State.readWord_ring (s : State) : s.readWord 0x02C = match s.ev.ring with
    | some r => BitVec.ofNat 32 r.head
    | none => 0 := rfl

theorem State.readWord_sqTail (s : State) (q : SqId) :
    s.readWord (0x040 + 4 * q.val) = BitVec.ofNat 32 (s.sq q).tail := by
  have slot : (⟨(0x040 + 4 * q.val - 0x040) / 4, by omega⟩ : SqId) = q := Fin.ext (by simp)
  rw [State.readWord]
  simp (disch := omega) only [if_neg, dif_pos, slot]

theorem State.readWord_cqHead (s : State) (c : CqId) :
    s.readWord (0x080 + 4 * c.val) = BitVec.ofNat 32 (s.cq c).head := by
  have slot : (⟨(0x080 + 4 * c.val - 0x080) / 4, by omega⟩ : CqId) = c := Fin.ext (by simp)
  rw [State.readWord]
  simp (disch := omega) only [if_neg, dif_neg, dif_pos, slot]

/-- An offset that holds no register reads 0. -/
theorem State.readWord_other (s : State) {k : Nat}
    (other : k = 0x00C ∨ (0x030 ≤ k ∧ k < 0x040) ∨ 0x0A0 ≤ k) : s.readWord k = 0 := by
  rw [State.readWord]
  simp (disch := omega) only [if_neg, dif_neg, ite_self]

/-- Settles O12, by the lanes of the write mask and by the branches of `State.readWord`. -/
theorem registersWriteAndRead : Obligations.RegistersWriteAndRead := by
  refine ⟨fun w old i h => getLsbD_onto w old h, fun en v old i h => getLsbD_replaceBytes en v old h,
    fun s i => getLsbD_controlWord s.ctl i, fun s ctxs jobs => ?_, fun s => ?_⟩
  · obtain ⟨engine, cause, rest⟩ := s.statusWord_fields ctxs jobs
    exact ⟨engine.trans s.ctl.engine.code_eq, cause.trans s.ctl.cause.code_eq, rest⟩
  · refine ⟨rfl, extractLsb'_append_halves _, extractLsb'_append_halves _, rfl, rfl, rfl, fun no => ?_, fun r ring => ?_,
      s.readWord_sqTail, s.readWord_cqHead⟩
    · rw [s.readWord_ring, no]
    · rw [s.readWord_ring, ring]

/-! ### ENGINE_CONTROL -/

/-- A field of ENGINE_CONTROL as a write leaves it (R60, R180; log entry 12): byte 0 is taken when it is enabled. -/
theorem getLsbD_onto_controlWord (w : RegWrite) (c : Control) {i : Nat} (h : i < 8) :
    (w.onto c.controlWord).getLsbD i = if w.enables.getLsbD 0 then w.value.getLsbD i else
      if i = 0 then c.enable else if i = 2 then c.keepTargets else false := by
  rw [getLsbD_onto w _ (by omega), show i / 8 = 0 by omega, getLsbD_controlWord]

/-- What a write that does not reset does to the two fields that are kept. -/
def Control.written (c : Control) (w : RegWrite) : Control :=
  { c with
    enable := if w.enables.getLsbD 0 then w.value.getLsbD 0 else c.enable
    keepTargets := if w.enables.getLsbD 0 then w.value.getLsbD 2 else c.keepTargets }

/-- R180: a write without RESET keeps two fields, and then makes the transition that the state and ENABLE call for. -/
theorem State.writeControl_of_not_reset (s : State) (w : RegWrite)
    (noReset : w.enables.getLsbD 0 = true → w.value.getLsbD 1 = false) :
    s.writeControl w =
      let u : State := { s with ctl := s.ctl.written w }
      match s.ctl.engine, (s.ctl.written w).enable with
      | .idle, true => u.enableIdle.settle
      | .running, false => u.beginPause.settle
      | .pausing, true => u.resume.settle
      | .paused, true => u.resume.settle
      | _, _ => u := by
  have reset : (w.onto s.ctl.controlWord).getLsbD 1 = false := by
    rw [getLsbD_onto_controlWord w s.ctl (by decide)]
    split
    next enabled => exact noReset enabled
    next => rfl
  have enable : (w.onto s.ctl.controlWord).getLsbD 0 = (s.ctl.written w).enable :=
    getLsbD_onto_controlWord w s.ctl (by decide)
  have keep : (w.onto s.ctl.controlWord).getLsbD 2 = (s.ctl.written w).keepTargets :=
    getLsbD_onto_controlWord w s.ctl (by decide)
  unfold State.writeControl
  dsimp only
  rw [if_neg (Bool.eq_false_iff.1 reset), enable, keep]
  rfl

/-- R189: a write of RESET resets the engine, in every state of it. -/
theorem State.writeControl_of_reset (s : State) (w : RegWrite) (byte : w.enables.getLsbD 0 = true)
    (reset : w.value.getLsbD 1 = true) : s.writeControl w = s.engineReset (w.value.getLsbD 2) := by
  have bit (i : Nat) (h : i < 8) : (w.onto s.ctl.controlWord).getLsbD i = w.value.getLsbD i := by
    rw [getLsbD_onto_controlWord w s.ctl h, if_pos byte]
  unfold State.writeControl
  dsimp only
  rw [bit 1 (by decide), bit 2 (by decide), if_pos reset]

theorem control_iff (w : RegWrite) (enable reset : Bool) :
    w.control enable reset = true ↔
      w.enables.getLsbD 0 = true ∧ w.value.getLsbD 0 = enable ∧ w.value.getLsbD 1 = reset := by
  simp [RegWrite.control, and_assoc]

/-- The two kept fields after a write that enables byte 0. -/
theorem Control.written_of_control {w : RegWrite} {enable reset : Bool} (h : w.control enable reset = true) (c : Control) :
    c.written w = { c with enable := enable, keepTargets := w.value.getLsbD 2 } := by
  obtain ⟨byte, value, -⟩ := (control_iff w enable reset).1 h
  rw [Control.written, if_pos byte, if_pos byte, value]

/-- Settles O16: each write goes to the branch of its rule that changes no more. -/
theorem configurationWrites : Obligations.ConfigurationWrites := by
  refine ⟨?_, fun on n s low high => if_pos ⟨low, high⟩, fun r e v s busy => if_neg busy,
    fun e v s idle => ⟨if_pos idle, if_pos idle, if_pos idle⟩, fun k w s window aligned other => ⟨if_pos ?_, fun status => ?_⟩⟩
  · intro w s noReset on none
    refine congrArg Host.Outcome.next ((s.writeControl_of_not_reset w noReset).trans ?_)
    change (s.ctl.engine = .idle ∧ (s.ctl.written w).enable = false) ∨ (s.ctl.engine = .running ∧ (s.ctl.written w).enable = true) ∨
      (s.ctl.engine = .pausing ∧ (s.ctl.written w).enable = false) ∨
      (s.ctl.engine = .paused ∧ (s.ctl.written w).enable = false) ∨ s.ctl.engine = .failed at none
    obtain ⟨engine, enable⟩ | ⟨engine, enable⟩ | ⟨engine, enable⟩ | ⟨engine, enable⟩ | engine := none
    all_goals change _ = ({ s with ctl := s.ctl.written w } : State)
    all_goals simp only [*]
  · simpa [offsetOther, window, aligned, or_assoc] using other
  · exact s.readWord_other (by omega)

/-! ### The interrupt registers -/

/-- The bit of a vector in a value written to an interrupt register (R162, R163; log entry 9). -/
theorem getLsbD_vectorBits (w : RegWrite) (v : VecId) :
    (vectorBits w).getLsbD v = (w.enables.getLsbD 0 && w.value.getLsbD v) := by
  have low : v.val < 8 := v.isLt
  rw [vectorBits, BitVec.getLsbD_extractLsb', decide_eq_true low, Bool.true_and, Nat.zero_add, RegWrite.written,
    BitVec.getLsbD_and, getLsbD_mask w (by omega), Nat.div_eq_of_lt low, Bool.and_comm]

/-- The messages of several vectors, one after another (R165). -/
theorem IntUnit.foldl_send (l : List VecId) (u : IntUnit) :
    l.foldl IntUnit.send u =
      { u with messages := u.messages ++ if u.msiOn then l.map (fun v : VecId => v.val % u.msiVectors) else [] } := by
  induction l generalizing u with
  | nil => simp
  | cons v l ih =>
    rw [List.foldl_cons, ih, IntUnit.send]
    cases h : u.msiOn with
    | false => simp [h]
    | true => simp

/-- R162: the flags that a write to INTERRUPT_MASK_CLEAR leaves, and the messages that it sends. -/
theorem IntUnit.maskClear_eq (u : IntUnit) (bits : BitVec 8) :
    u.maskClear bits = { u with
      mask := u.mask &&& ~~~bits
      messages := u.messages ++ if u.msiOn then
        vecIds.filter (fun v : VecId => (u.mask &&& bits &&& u.pending).getLsbD v)|>.map fun v : VecId => v.val % u.msiVectors
        else [] } :=
  IntUnit.foldl_send _ _

/-- Settles O17: what each write does to the flags, bit by bit, and the messages of a mask clear. -/
theorem interruptRegisterWrites : Obligations.InterruptRegisterWrites := by
  refine fun w s => ⟨⟨_, rfl, rfl, fun v => ?_⟩, ⟨_, rfl, ?_, fun v => ?_, ?_⟩, ⟨_, rfl, rfl, fun v => ?_⟩⟩
  · exact BitVec.getLsbD_or.trans (by rw [getLsbD_vectorBits])
  · rw [IntUnit.maskClear_eq]
  · have low : v.val < 8 := v.isLt
    rw [IntUnit.maskClear_eq, BitVec.getLsbD_and, BitVec.getLsbD_not, getLsbD_vectorBits, decide_eq_true low, Bool.true_and]
  · rw [IntUnit.maskClear_eq]
    have sent : ([0, 1, 2, 3, 4, 5, 6, 7].filter fun v : Nat => s.irq.mask.getLsbD v && s.irq.pending.getLsbD v &&
        w.enables.getLsbD 0 && w.value.getLsbD v) =
        (vecIds.filter fun v : VecId => (s.irq.mask &&& vectorBits w &&& s.irq.pending).getLsbD v).map Fin.val := by
      have ids : ([0, 1, 2, 3, 4, 5, 6, 7] : List Nat) = vecIds.map Fin.val := rfl
      rw [ids, List.filter_map]
      refine congrArg _ (List.filter_congr fun v _ => ?_)
      rw [BitVec.getLsbD_and, BitVec.getLsbD_and, getLsbD_vectorBits, Function.comp_apply]
      ac_rfl
    rw [sent, List.map_map]
    rfl
  · have low : v.val < 8 := v.isLt
    exact BitVec.getLsbD_and.trans (by rw [BitVec.getLsbD_not, getLsbD_vectorBits, decide_eq_true low, Bool.true_and])

end Sys2Proof.Machine
end

section
/-! PROOFS. What the engine puts on its lines (R1, R3 to R8, R19), and the records that it writes (R46, R47, R154, R192). -/

namespace Sys2Proof.Machine

set_option Elab.async false -- one thread elaborates: the checker's memory is limited

/-! ### Lines -/

theorem BitHalf.beq_high (half : BitHalf) : (half == .high) = decide (half = .high) := by cases half <;> rfl

theorem HdaDrive.ofBit_eq_low_iff (b : Option Bool) : HdaDrive.ofBit b = .low ↔ b = some false := by
  cases b with
  | none => simp [HdaDrive.ofBit]
  | some b => cases b <;> simp [HdaDrive.ofBit]

/-- R1: in a bit time of a frame, HDA is driven low exactly when the frame on the wire sends a 0. -/
theorem SegCtl.lines_frameBit_hda (y : SegCtl) (k : Nat) (half : BitHalf) :
    (y.lines (.frameBit k half)).hda = .low ↔ ∃ w, y.wire = some w ∧ w.sends k = some false := by
  refine (HdaDrive.ofBit_eq_low_iff _).trans ?_
  cases y.wire with
  | none => simp
  | some w => simp

/-- The moments of a segment with no frame on its wire (R8, R14, R15, R17 to R19). -/
theorem SegCtl.allows_of_no_wire {y : SegCtl} (free : y.wire = none) (m : LineMoment) :
    ((y.state = .off ∨ y.state = .faulted ∨ y.state = .draining → (y.allows m = true ↔ m = .rest)) ∧
    (y.state = .active → (y.allows m = true ↔ m = .rest ∨ ∃ h, m = .idleBit h)) ∧
    (y.state = .recovering → (y.allows m = true ↔
      ∃ h, m = (if y.recoveryIdle then LineMoment.idleBit h else .pulse h)))) := by
  refine ⟨fun atRest => ?_, fun active => ?_, fun recovering => ?_⟩
  · obtain state | state | state := atRest
    all_goals cases m <;> simp [SegCtl.allows, free, state]
  · cases m <;> simp [SegCtl.allows, free, active]
  · cases idle : y.recoveryIdle
    all_goals cases m <;> simp [SegCtl.allows, free, recovering, idle]

/-- The moments of a segment with a frame on its wire (R3 to R7). -/
theorem SegCtl.allows_of_wire {y : SegCtl} {w : Wire} (busy : y.wire = some w) (state : y.state ≠ .recovering)
    (m : LineMoment) : y.allows m = true ↔ ∃ k h, k < w.kind.bitTimes true ∧ m = .frameBit k h := by
  cases m <;> simp [SegCtl.allows, busy, state]

theorem Wire.sends_header (w : Wire) {k : Nat} (h : k < 22) : w.sends k = some (w.header.getLsbD (21 - k)) := by
  rw [Wire.sends, if_pos h, BitVec.getMsbD_eq_getLsbD, decide_eq_true h, Bool.true_and, show 22 - 1 - k = 21 - k by omega]

/-- The 16 data bits and the parity bit after them, in the order in which they are sent (R4, R5, R7). -/
theorem framePayload_getMsbD (d : Half) {i : Nat} (h : i < 17) :
    (framePayload d).getMsbD i = if i < 16 then d.getLsbD (15 - i) else decide (onesBelow 16 d % 2 = 1) := by
  rw [BitVec.getMsbD_eq_getLsbD, decide_eq_true h, Bool.true_and]
  split
  next data =>
    rw [show 17 - 1 - i = 15 - i + 1 by omega]
    exact BitVec.getLsbD_concat_succ
  next parity =>
    rw [show 17 - 1 - i = 0 by omega, ← oddOnes_eq_decide_onesBelow]
    exact BitVec.getLsbD_concat_zero

/-- After the header the engine sends the data of a WRITE or a BROADCAST, and nothing in a READ (R5 to R7). -/
theorem frameOf_sends_after_header (kind : FrameKind) (x : Option Tgt) (i : Byte) (d : Half) (o : WireOwner) {k : Nat}
    (h : 22 ≤ k) : (frameOf kind x i d o).sends k = if kind = .read ∨ 39 ≤ k then none
      else if k < 38 then some (d.getLsbD (37 - k)) else some (decide (onesBelow 16 d % 2 = 1)) := by
  rw [Wire.sends, if_neg (by omega)]
  by_cases read : kind = .read
  · simp [frameOf, read]
  by_cases past : 39 ≤ k
  · simp [frameOf, read, past]
  · simp only [frameOf, read, past, if_false, or_self, show k < 39 by omega, if_true,
      framePayload_getMsbD d (show k - 22 < 17 by omega), show 15 - (k - 22) = 37 - k by omega,
      show k - 22 < 16 ↔ k < 38 by omega]
    split <;> rfl

theorem FrameKind.samples_iff (accepted : Bool) (k : Nat) :
    (FrameKind.samples .read accepted k = true ↔ k = 24 ∨ k = 25 ∨ accepted = true ∧ 26 ≤ k ∧ k ≤ 42) ∧
    (FrameKind.samples .write accepted k = true ↔ k = 41 ∨ k = 42) ∧ FrameKind.samples .broadcast accepted k = false := by
  simp [FrameKind.samples, or_assoc, and_assoc]

/-- Settles O9, by the moments of the lines and by the bits of the frame. -/
theorem linesAreDriven : Obligations.LinesAreDriven :=
  ⟨fun y half k => ⟨rfl, by rw [← half.beq_high]; rfl, by rw [← half.beq_high]; rfl, half.beq_high,
    y.lines_frameBit_hda k half⟩,
   fun _ m free => SegCtl.allows_of_no_wire free m,
   fun _ _ m busy state => SegCtl.allows_of_wire busy state m,
   fun kind x i d o => ⟨fun _ h => Wire.sends_header _ h, fun _ h => frameOf_sends_after_header kind x i d o h⟩,
   FrameKind.samples_iff⟩

/-! ### Records -/

theorem flagBit_zero (p : Bool) : flagBit 0 p = if p then 1 else 0 := by cases p <;> rfl

theorem Event.bytes_form (e : Event) (p : Bool) :
    (e.bytes p).length = 16 ∧ (e.bytes p)[15]? = some (if p then 1 else 0) := by
  rw [← flagBit_zero]
  cases e <;> exact ⟨rfl, rfl⟩

/-- Whether the engine posts (R47, R188). -/
theorem EngineState.posts_iff (e : EngineState) :
    e.posts = true ↔ e = .running ∨ e = .pausing ∨ e = .paused := by
  cases e <;> decide

theorem Cq.full_iff (x : Cq) : x.full = true ↔ (x.tail + x.size - x.head) % x.size = x.size - 1 := by
  simp [Cq.full, Cq.unreleased, slotsBetween]

/-- The conditions of R47 for a posting. -/
def State.mayPost (s : State) (k : CqId) : Prop :=
  (s.ctl.engine = .running ∨ s.ctl.engine = .pausing ∨ s.ctl.engine = .paused) ∧ (s.cq k).state = .active ∧
    ((s.cq k).tail + (s.cq k).size - (s.cq k).head) % (s.cq k).size ≠ (s.cq k).size - 1 ∧ (s.cq k).inFlight = none

theorem State.mayPost_iff (s : State) (k : CqId) :
    s.ctl.engine.posts ∧ (s.cq k).state = .active ∧ ¬ (s.cq k).full ∧ (s.cq k).inFlight = none ↔ s.mayPost k := by
  rw [EngineState.posts_iff, Cq.full_iff, State.mayPost]

theorem State.post_of_ready {s : State} {k : CqId} {i : ReadyItem} {rest : List ReadyItem}
    (ready : (s.cq k).ready = i :: rest) (may : s.mayPost k) :
    s.post k = (s.issue (.completion k) (slotAddr (s.cq k).base 16 (s.cq k).tail) (s.recordOf i (s.cq k).phase)).setCq k
      { s.cq k with ready := rest, inFlight := some { item := i, tag := s.link.next } } := by
  unfold State.post
  simp only [ready]
  exact if_pos ((s.mayPost_iff k).2 may)

theorem State.post_of_not_may {s : State} {k : CqId} {i : ReadyItem} {rest : List ReadyItem}
    (ready : (s.cq k).ready = i :: rest) (may : ¬ s.mayPost k) : s.post k = s := by
  unfold State.post
  simp only [ready]
  exact if_neg (mt (s.mayPost_iff k).1 may)

/-- R154: the write of the first record of the output list. -/
theorem State.issueEvent_of_output {s : State} {r : Ring} {e : Event} {rest : List Event} (ring : s.ev.ring = some r)
    (output : r.output = e :: rest) (free : r.inFlight = none)
    (posts : s.ctl.engine = .running ∨ s.ctl.engine = .pausing ∨ s.ctl.engine = .paused) :
    s.issueEvent = (s.issue .event (slotAddr r.base 16 r.firstOut) (e.bytes r.phase)).setRing
      (some { r with inFlight := some s.link.next }) := by
  unfold State.issueEvent
  simp only [ring, output, free]
  exact if_pos ((EngineState.posts_iff _).2 posts)

/-- Settles O11: the records by their layouts, and the two writes by the conditions of their rules. -/
theorem recordsAreWritten : Obligations.RecordsAreWritten := by
  refine ⟨fun i q st v b a h p => ⟨rfl, rfl, congrArg some (flagBit_zero p)⟩, Event.bytes_form, fun _ _ => rfl,
    fun _ _ _ _ _ => rfl, fun _ _ _ => rfl, ?_, fun s r e rest ring output free posts => ?_⟩
  · intro s k i rest ready
    refine ⟨fun may => ⟨s.recordOf i (s.cq k).phase, ?_, ?_, fun n c item here => ?_, fun a item here => ?_⟩, fun may => ?_⟩
    · rw [State.post_of_ready ready may, State.cq_setCq_same]
    · rw [State.post_of_ready ready may]
      rfl
    · simp only [State.recordOf, item, here, Ctx.blockCount]
    · simp only [State.recordOf, item, here]
    · exact State.post_of_not_may ready may
  · rw [State.issueEvent_of_output ring output free posts]
    exact ⟨rfl, rfl⟩

end Sys2Proof.Machine
end

section
/-! PROOFS. Resets and engine control (R42, R182 to R190): what each transition of ENGINE_CONTROL leaves of every block. -/

namespace Sys2Proof.Machine

set_option Elab.async false -- one thread elaborates: the checker's memory is limited

/-! ### Tables -/

theorem vector_ext_get {α : Type} {n : Nat} {v w : Vector α n} (h : ∀ i : Fin n, v.get i = w.get i) : v = w :=
  Vector.ext fun i hi => h ⟨i, hi⟩

theorem State.segs_ext {s t : State} (h : ∀ g, s.seg g = t.seg g) : s.segs = t.segs := vector_ext_get h

theorem State.sqs_ext {s t : State} (h : ∀ q, s.sq q = t.sq q) : s.sqs = t.sqs := vector_ext_get h

theorem State.cqs_ext {s t : State} (h : ∀ c, s.cq c = t.cq c) : s.cqs = t.cqs := vector_ext_get h

theorem State.watches_ext {s t : State} (h : ∀ w, s.watch w = t.watch w) : s.watches = t.watches := vector_ext_get h

theorem State.presence_ext {s t : State} (h : ∀ x, s.pres x = t.pres x) : s.presence = t.presence :=
  vector_ext_get fun g => vector_ext_get fun a => h ⟨g, a⟩

/-- Settling stands still, so a command stands as the state of its own effect. -/
theorem done_standing (u : State) : ∃ t, done u = .next t ∧ t.standing = u.standing := ⟨_, rfl, settle_standing u⟩

/-! ### Resets -/

theorem get_replicate {α : Type} {n : Nat} (x : α) (i : Fin n) : (Vector.replicate n x).get i = x := by
  simp [Vector.get]

theorem State.reset_pres (x : Tgt) : State.reset.pres x = { state := .unknown, miss := 0 } := by
  rw [State.pres, State.reset, get_replicate, get_replicate]

theorem targetsReset_reset : State.reset.targetsReset :=
  ⟨fun g => congrArg SegCtl.settings (get_replicate _ g), State.reset_pres, rfl⟩

/-- R189: what an engine reset makes of every block, whether or not it keeps the targets. -/
theorem blocksReset_engineReset (s : State) (keep : Bool) : (s.engineReset keep).blocksReset := by
  have seg (g : SegId) : ∃ x, (s.engineReset keep).seg g = SegCtl.afterReset x := by
    cases keep with
    | false => exact ⟨_, get_replicate _ g⟩
    | true => exact ⟨_, get_tableMap _ _ g⟩
  refine ⟨rfl, get_replicate _, get_replicate _, rfl, rfl, rfl, rfl, fun g => ?_, get_replicate _, rfl, rfl, rfl, rfl⟩
  obtain ⟨x, hx⟩ := seg g
  rw [hx]
  rfl

theorem targetsReset_engineReset (s : State) : (s.engineReset false).targetsReset := targetsReset_reset

/-- What an engine reset that keeps the targets leaves of them (R37, R149). -/
theorem engineReset_keeps_targets (s : State) :
    (∀ g, ((s.engineReset true).seg g).settings = (s.seg g).settings) ∧ (s.engineReset true).pool = s.pool ∧
    (∀ x, ((s.engineReset true).pres x).miss = (s.pres x).miss ∧
      ((s.engineReset true).pres x).state = if (s.pres x).state = .restoring then .lost else (s.pres x).state) := by
  have kept (x : Tgt) : (s.engineReset true).pres x = (s.pres x).kept := by
    rw [State.pres]
    exact (congrArg (Vector.get · x.slot) (get_tableMap _ _ x.seg)).trans (get_tableMap _ _ x.slot)
  have seg (g : SegId) : (s.engineReset true).seg g = SegCtl.afterReset (s.seg g).settings := get_tableMap _ _ g
  refine ⟨fun g => by rw [seg g]; rfl, rfl, fun x => ?_⟩
  rw [kept, PresEntry.kept]
  split
  next => exact ⟨rfl, rfl⟩
  next => exact ⟨rfl, rfl⟩

/-- Settles O13: the three resets are `State.reset` or `State.engineReset` with the inputs that each keeps. -/
theorem resetsTakeEveryBlock : Obligations.ResetsTakeEveryBlock := by
  have powerOn : State.reset.blocksReset := blocksReset_engineReset State.reset false
  refine ⟨fun s => ⟨⟨_, rfl, powerOn, targetsReset_reset, rfl, rfl, rfl⟩,
    ⟨_, rfl, blocksReset_engineReset s false, targetsReset_engineReset s, rfl, rfl, rfl, rfl, rfl⟩⟩, fun w s byte reset => ?_⟩
  refine ⟨s.engineReset (w.value.getLsbD 2), congrArg Host.Outcome.next (s.writeControl_of_reset w byte reset),
    blocksReset_engineReset s _, rfl, rfl, rfl, rfl, fun keep => ?_, fun keep => ?_⟩
  · rw [keep]
    exact targetsReset_engineReset s
  · rw [keep]
    exact engineReset_keeps_targets s

/-! ### ENABLE in IDLE -/

theorem ringOk_iff (base : Addr) (size record : Nat) : ringOk base size record = true ↔ ringAllowed base size record := by
  simp [ringOk, fitsBelowTop, and_assoc]

/-- A write to ENGINE_CONTROL with byte 0 enabled and RESET 0. -/
theorem State.writeControl_of_control {w : RegWrite} {enable : Bool} (h : w.control enable false = true) (s : State) :
    s.writeControl w =
      have u : State := { s with ctl := { s.ctl with enable := enable, keepTargets := w.value.getLsbD 2 } }
      match (generalizing := false) s.ctl.engine, enable with
      | .idle, true => u.enableIdle.settle
      | .running, false => u.beginPause.settle
      | .pausing, true => u.resume.settle
      | .paused, true => u.resume.settle
      | _, _ => u := by
  obtain ⟨-, -, reset⟩ := (control_iff w enable false).1 h
  rw [s.writeControl_of_not_reset w fun _ => reset, Control.written_of_control h] <;> rfl

/-- Settles O14, by the check of the admin queue registers (R42). -/
theorem enableInIdle : Obligations.EnableInIdle := by
  intro w s control idle c n m
  have run : exec (.enable w) s = .next (({ s with ctl := c } : State).enableIdle.settle) := by
    refine congrArg Host.Outcome.next ((s.writeControl_of_control control).trans ?_)
    rw [idle]
  have check : ({ s with ctl := c } : State).ctl.adminOk = true ↔
      ringAllowed s.ctl.adminSqBase n 32 ∧ ringAllowed s.ctl.adminCqBase m 16 := by
    rw [Control.adminOk, Bool.and_eq_true, ringOk_iff, ringOk_iff]
    rfl
  refine ⟨fun allowed => ⟨_, run, ?_⟩, fun refused => ⟨_, run, ?_⟩⟩
  · rw [settle_standing, State.enableIdle, if_pos (check.2 allowed)]
    rfl
  · rw [settle_standing, State.enableIdle, if_neg (mt check.1 refused)]

/-! ### Pausing and resuming -/

/-- An update of every segment in turn. -/
theorem State.foldl_updSeg (s : State) (f : SegCtl → SegCtl) :
    segIds.foldl (fun u g => u.updSeg g f) s = s.mapSegs f := by
  have table : (segIds.foldl (fun u g => u.updSeg g f) s).segs = (s.mapSegs f).segs := by
    refine State.segs_ext fun g => ?_
    fin_cases g <;> simp [segIds, State.seg_updSeg]
  exact congrArg (fun v => ({ s with segs := v } : State)) table

theorem Watch.pauseHalt_eq (x : Watch) : x.pauseHalt =
    if x.state = .armed then
      if x.poll = .onWire ∨ x.poll = .retryWait then { x with nextDue := none, overrun := false }
      else { x with state := .halted, nextDue := none, overrun := false, poll := .none, tries := 0 }
    else x := by
  unfold Watch.pauseHalt
  split
  next armed => cases poll : x.poll <;> simp
  next => rfl

theorem Watch.rearm_cfg (x : Watch) (now : Nat) : (x.rearm now).cfg = x.cfg := by
  unfold Watch.rearm
  split
  next => rfl
  next => rfl

theorem State.foldl_rearmWatches_eq (l : List SegId) (s : State) :
    l.foldl State.rearmWatches s = { s with watches := (l.foldl State.rearmWatches s).watches } :=
  foldl_same (fun u => ({ u with watches := (l.foldl State.rearmWatches s).watches } : State)) State.rearmWatches
    (fun u g => u.rearmWatches_view (fun u => ({ u with watches := (l.foldl State.rearmWatches s).watches } : State))
      (fun _ _ => rfl) g) l s

/-- R131, for a watch whose segment is among `l`. -/
theorem State.foldl_rearmWatches_watch (l : List SegId) (nodup : l.Nodup) (s : State) (w : WatchId)
    (running : s.ctl.engine = .running) :
    (l.foldl State.rearmWatches s).watch w = (s.watch w).map fun x =>
      if x.cfg.tgt.seg ∈ l ∧ (s.seg x.cfg.tgt.seg).state = .active then x.rearm s.now else x := by
  induction l generalizing s with
  | nil => simp
  | cons g l ih =>
    obtain ⟨out, nodup⟩ := List.nodup_cons.1 nodup
    rw [List.foldl_cons, ih nodup _ (by simpa using running)]
    have first : (s.rearmWatches g).watch w = (s.watch w).map fun x =>
        if x.cfg.tgt.seg = g ∧ (s.seg x.cfg.tgt.seg).state = .active then x.rearm s.now else x := by
      unfold State.rearmWatches
      split
      next active =>
        rw [State.watch_mapWatches]
        refine Option.map_congr fun x _ => ?_
        by_cases here : x.cfg.tgt.seg = g
        · simp [here, active]
        · simp [here]
      next inactive =>
        refine Option.map_id'.symm.trans (Option.map_congr fun x _ => ?_)
        rw [if_neg]
        rintro ⟨rfl, active⟩
        exact inactive ⟨active, running⟩
    rw [first, Option.map_map]
    refine Option.map_congr fun x _ => ?_
    have cfg (b : Prop) [Decidable b] : (if b then x.rearm s.now else x).cfg = x.cfg := by
      split
      next => exact x.rearm_cfg s.now
      next => rfl
    have now : (s.rearmWatches g).now = s.now := by simp [State.now]
    simp only [Function.comp_apply, cfg, State.rearmWatches_frame, now, List.mem_cons]
    by_cases here : x.cfg.tgt.seg = g
    · simp [here, out]
    · simp [here]

/-- R185: the model's test says the six conditions of a quiet engine. -/
theorem State.quiet_iff (s : State) : s.quiet = true ↔ s.isQuiet := by
  unfold State.quiet State.isQuiet
  simp only [Bool.and_eq_true, List.isEmpty_iff, Option.isNone_iff_eq_none, and_assoc]
  refine and_congr_right fun _ => and_congr_right fun _ => and_congr_right fun _ => and_congr_right fun _ =>
    and_congr ?_ (and_congr_left fun _ => ?_)
  · rw [List.all_eq_true]
    refine forall_congr' fun w => ?_
    have mem : w ∈ watchIds := List.mem_finRange w
    cases s.watch w <;> simp [mem]
  · simp [mem_segIds, and_assoc]

/-- No settled state is quiet in PAUSING: the last part of settling is the passage to PAUSED. -/
theorem settle_not_quiet {s : State} (pausing : s.settle.ctl.engine = .pausing) : ¬ s.settle.isQuiet := by
  rw [← State.quiet_iff]
  unfold State.settle State.pauseIfQuiet at *
  generalize (((((((s.releaseFences.moveAllStaged).reachMembers).deleteIfOver).postAll).issueEvent).adminFetch).ioFetch) = u at *
  split at pausing
  next => cases pausing
  next not =>
    rw [if_neg not]
    exact fun quiet => not ⟨pausing, quiet⟩

/-- Settles O15, by the transitions of ENGINE_CONTROL and by `Watch.pauseHalt_eq` and `Watch.rearm`, watch by watch. -/
theorem pauseAndResume : Obligations.PauseAndResume := by
  refine ⟨fun w s control running => ?_, fun w s control paused => ?_, fun s pausing => ⟨fun quiet => ?_, fun busy => ?_⟩,
    fun s => settle_not_quiet⟩
  · let u : State := { s with ctl := { s.ctl with enable := false, keepTargets := w.value.getLsbD 2 } }
    have run : exec (.pause w) s = .next u.beginPause.settle := by
      refine congrArg Host.Outcome.next ((s.writeControl_of_control control).trans ?_)
      rw [running]
    refine ⟨_, run, (settle_standing _).trans ?_⟩
    rw [State.beginPause, State.pauseWatches, State.foldl_updSeg]
    have halts : Watch.pauseHalt = fun x : Watch => if x.state = .armed then
        if x.poll = .onWire ∨ x.poll = .retryWait then { x with nextDue := none, overrun := false }
        else { x with state := .halted, nextDue := none, overrun := false, poll := .none, tries := 0 }
      else x := funext Watch.pauseHalt_eq
    rw [halts]
    rfl
  · let u : State := { s with ctl := { s.ctl with enable := true, keepTargets := w.value.getLsbD 2 } }
    have run : exec (.enableResume w) s = .next u.resume.settle := by
      refine congrArg Host.Outcome.next ((s.writeControl_of_control control).trans ?_)
      obtain pausing | paused := paused
      · rw [pausing]
      · rw [paused]
    refine ⟨_, run, (settle_standing _).trans ?_⟩
    let v : State := { u with ctl := { u.ctl with engine := .running } }
    have watches : (segIds.foldl State.rearmWatches v).watches = tableMap (Option.map fun x =>
        if x.state = .halted ∧ (s.seg x.cfg.tgt.seg).state = .active then
          { x with state := .armed, stable := none, candidate := none, run := 0,
                   nextDue := some (s.ticks / 10 + x.cfg.interval), overrun := false, poll := .none }
        else x) s.watches := by
      refine vector_ext_get fun i => (State.foldl_rearmWatches_watch segIds (by decide) v i rfl).trans ?_
      rw [get_tableMap]
      refine Option.map_congr fun x _ => ?_
      simp only [mem_segIds, true_and, Watch.rearm]
      by_cases halted : x.state = .halted
      · simp only [halted, true_and, if_true]
        rfl
      · simp only [halted, false_and, if_false, ite_self]
    refine congrArg State.standing ((State.foldl_rearmWatches_eq segIds v).trans ?_)
    exact congrArg (fun x => ({ v with watches := x } : State)) watches
  · rw [State.pauseIfQuiet, if_pos ⟨pausing, (State.quiet_iff s).2 quiet⟩]
  · rw [State.pauseIfQuiet, if_neg fun h => busy ((State.quiet_iff s).1 h.2)]

end Sys2Proof.Machine
end

section
/-! PROOFS. The Event Unit (R150 to R157): how an event, a watch report and a write to EQ_HEAD act on the ring, and in
which order a drain takes what is held. A drain is a row of steps, each of which takes a record from the front of the held
records or finds the ring full; `Drained` says so of each step, and chains. -/

namespace Sys2Proof.Machine

set_option Elab.async false -- one thread elaborates: the checker's memory is limited

/-! ### Slots -/

/-- An index that has wrapped around a ring at most once. -/
theorem mod_of_lt_two_mul {a n : Nat} (h : a < 2 * n) : a % n = if a < n then a else a - n := by
  split
  next low => exact Nat.mod_eq_of_lt low
  next high => rw [Nat.mod_eq_sub_mod (by omega), Nat.mod_eq_of_lt (by omega)]

/-- The indexes of a ring name slots, and its output list leaves a slot free (R150). -/
def Ring.Sound (r : Ring) : Prop := r.head < r.size ∧ r.tail < r.size ∧ r.output.length < r.size

/-- The ring with records assigned the slots at its tail, one after another (R152). -/
def Ring.assigned (r : Ring) (l : List Event) : Ring :=
  { r with output := r.output ++ l, tail := (r.tail + l.length) % r.size }

theorem Ring.assign_eq (r : Ring) (e : Event) : r.assign e = r.assigned [e] := rfl

theorem Ring.assigned_nil {r : Ring} (h : r.Sound) : r.assigned [] = r := by
  obtain ⟨-, tail, -⟩ := h
  simp [Ring.assigned, Nat.mod_eq_of_lt tail]

theorem Ring.assigned_append (r : Ring) (l m : List Event) : (r.assigned l).assigned m = r.assigned (l ++ m) := by
  simp [Ring.assigned, List.append_assoc, Nat.add_assoc]

theorem Ring.length_lt_of_free {r : Ring} (h : 0 < r.free) : r.output.length + r.free < r.size := by
  unfold Ring.free at *
  omega

theorem Ring.firstOut_assigned {r : Ring} (sound : r.Sound) {l : List Event} (fits : r.output.length + l.length < r.size) :
    (r.assigned l).firstOut = r.firstOut := by
  obtain ⟨-, tail, output⟩ := sound
  simp only [Ring.firstOut, Ring.assigned, List.length_append]
  rw [mod_of_lt_two_mul (a := r.tail + l.length) (by omega)]
  split
  all_goals rw [mod_of_lt_two_mul (n := r.size) (by omega), mod_of_lt_two_mul (n := r.size) (by omega)]
  all_goals split <;> split <;> omega

theorem Ring.assigned_of_le {r : Ring} (sound : r.Sound) {l : List Event} (fits : l.length ≤ r.free) :
    (r.assigned l).Sound ∧ (r.assigned l).free = r.free - l.length := by
  obtain empty | some := Nat.eq_zero_or_pos l.length
  · rw [List.length_eq_zero_iff.1 empty, Ring.assigned_nil sound]
    exact ⟨sound, rfl⟩
  · have room := Ring.length_lt_of_free (some.trans_le fits)
    have first := Ring.firstOut_assigned sound (l := l) (by omega)
    obtain ⟨head, tail, -⟩ := sound
    refine ⟨⟨head, Nat.mod_lt _ (by omega), ?_⟩, ?_⟩
    · simp only [Ring.assigned, List.length_append]
      omega
    · unfold Ring.free Ring.unreleased
      rw [first]
      simp only [Ring.assigned, List.length_append]
      omega

/-- R150: the free space is what the tail has left before the head, less one slot. -/
theorem Ring.free_eq {r : Ring} (head : r.head < r.size) (tail : r.tail < r.size)
    (output : r.output.length ≤ (r.tail + r.size - r.head) % r.size) :
    r.free = r.size - 1 - (r.tail + r.size - r.head) % r.size := by
  unfold Ring.free Ring.unreleased Ring.firstOut slotsBetween
  rw [mod_of_lt_two_mul (a := r.tail + r.size - r.head) (by omega)] at *
  rw [mod_of_lt_two_mul (a := r.tail + r.size - r.output.length) (by split at output <;> omega)]
  rw [mod_of_lt_two_mul (by split at output <;> split <;> omega)]
  split at output <;> split <;> split <;> omega

/-! ### Held records -/

/-- The held report of a watch, as a record (R156). -/
def State.heldReport (s : State) (w : WatchId) : Option Event :=
  (s.watch w).bind fun x => x.held.map fun h => .watchTriggered w x.stable h.previous h.count

theorem heldRecords_eq (s : State) :
    heldRecords s = (if 0 < s.ev.lost then [.eventsLost s.ev.lost] else []) ++ s.ev.backlog ++
      watchIds.filterMap s.heldReport := by
  unfold heldRecords
  refine congrArg _ (List.filterMap_congr fun w _ => ?_)
  rw [State.heldReport]
  cases s.watch w <;> rfl

/-- From `s` to `t` records have been taken from the front of those held and assigned slots, as many as there was space
for. -/
def Drained (s t : State) : Prop :=
  ∀ r, s.ev.ring = some r → r.Sound →
    ∃ l, l.length ≤ r.free ∧ t.ev.ring = some (r.assigned l) ∧ heldRecords s = l ++ heldRecords t

theorem Drained.refl (s : State) : Drained s s :=
  fun r ring sound => ⟨[], Nat.zero_le _, by rw [Ring.assigned_nil sound, ring], rfl⟩

theorem Drained.trans {s t u : State} (h : Drained s t) (k : Drained t u) : Drained s u := by
  intro r ring sound
  obtain ⟨l, lFits, tRing, sHeld⟩ := h r ring sound
  obtain ⟨sound', free⟩ := Ring.assigned_of_le sound lFits
  obtain ⟨m, mFits, uRing, tHeld⟩ := k _ tRing sound'
  refine ⟨l ++ m, ?_, by rw [uRing, Ring.assigned_append], by rw [sHeld, tHeld, List.append_assoc]⟩
  rw [List.length_append]
  omega

/-- One record, the first of those held, has taken the slot at the tail. -/
theorem Drained.one {s t : State} {r : Ring} {e : Event} (ring : s.ev.ring = some r) (free : 0 < r.free)
    (assigned : t.ev.ring = some (r.assign e)) (held : heldRecords s = e :: heldRecords t) : Drained s t := by
  intro q qRing _
  obtain rfl : r = q := Option.some.inj (ring.symm.trans qRing)
  exact ⟨[e], free, assigned, held⟩

/-- The ring has no space left, or there is none. -/
def State.ringFull (s : State) : Prop := ∀ r, s.ev.ring = some r → r.free = 0

/-! ### The steps of a drain -/

theorem drainLost_of_full {s : State} (full : s.ringFull) : s.drainLost = s := by
  unfold State.drainLost
  cases ring : s.ev.ring with
  | none => rfl
  | some r => exact if_neg fun h => by have := full r ring; omega

theorem drainBacklog_of_full {s : State} (full : s.ringFull) (l : List Event) : State.drainBacklog l s = s := by
  cases l with
  | nil => rfl
  | cons e l =>
    rw [State.drainBacklog]
    cases ring : s.ev.ring with
    | none => rfl
    | some r => exact if_neg (by have := full r ring; omega)

theorem drainHeld_of_full {s : State} (full : s.ringFull) (w : WatchId) : s.drainHeld w = s := by
  unfold State.drainHeld
  split
  next r x ring _ =>
    split
    next => exact if_neg (by have := full r ring; omega)
    next => rfl
  next => rfl

theorem drainHeld_of_none {s : State} {w : WatchId} (none : s.heldReport w = none) : s.drainHeld w = s := by
  unfold State.drainHeld
  split
  next r x _ watch =>
    have held : x.held = Option.none := by simpa [State.heldReport, watch] using none
    rw [held]
  next => rfl

/-- Step 1 takes the record of the lost count. -/
theorem drainLost_drained (s : State) : Drained s s.drainLost := by
  unfold State.drainLost
  cases ring : s.ev.ring with
  | none => exact Drained.refl s
  | some r =>
    dsimp only
    split
    next takes =>
      obtain ⟨lost, free⟩ := takes
      refine Drained.one ring free rfl ?_
      rw [heldRecords_eq, heldRecords_eq, if_pos lost]
      rfl
    next => exact Drained.refl s

theorem drainLost_after (s : State) : s.drainLost.ev.lost = 0 ∨ s.drainLost.ringFull := by
  unfold State.drainLost
  cases ring : s.ev.ring with
  | none => exact .inr fun r h => by rw [ring] at h; cases h
  | some r =>
    dsimp only
    split
    next => exact .inl rfl
    next keeps =>
      by_cases lost : 0 < s.ev.lost
      · exact .inr fun q h => by
          rw [ring] at h
          cases h
          omega
      · exact .inl (by omega)

/-- Step 2 takes the backlog from its front, while free space remains. -/
theorem drainBacklog_drained (l : List Event) {s : State} (lost : s.ev.lost = 0) (backlog : s.ev.backlog = l) :
    Drained s (State.drainBacklog l s) ∧ (State.drainBacklog l s).ev.lost = 0 ∧
      ((State.drainBacklog l s).ev.backlog = [] ∨ (State.drainBacklog l s).ringFull) := by
  induction l generalizing s with
  | nil => exact ⟨Drained.refl s, lost, .inl backlog⟩
  | cons e l ih =>
    rw [State.drainBacklog]
    cases ring : s.ev.ring with
    | none => exact ⟨Drained.refl s, lost, .inr fun r h => by rw [ring] at h; cases h⟩
    | some r =>
      dsimp only
      split
      next free =>
        obtain ⟨drained, rest⟩ := ih (s := (s.setRing (some (r.assign e))).setBacklog l) lost rfl
        refine ⟨(Drained.one ring free rfl ?_).trans drained, rest⟩
        rw [heldRecords_eq, heldRecords_eq, backlog]
        simp [lost]
        rfl
      next full =>
        exact ⟨Drained.refl s, lost, .inr fun q h => by
          rw [ring] at h
          cases h
          omega⟩

/-- Step 3, for one watch: its report is the first of those held when the watches before it hold none. -/
theorem drainHeld_drained {s : State} {l m : List WatchId} {w : WatchId} (ids : watchIds = l ++ w :: m)
    (lost : s.ev.lost = 0) (backlog : s.ev.backlog = []) (before : ∀ v ∈ l, s.heldReport v = none) :
    Drained s (s.drainHeld w) ∧ (s.drainHeld w).ev.lost = 0 ∧ (s.drainHeld w).ev.backlog = [] ∧
      ((∀ v ∈ l ++ [w], (s.drainHeld w).heldReport v = none) ∨ (s.drainHeld w).ringFull) := by
  cases report : s.heldReport w with
  | none =>
    rw [drainHeld_of_none report]
    refine ⟨Drained.refl s, lost, backlog, .inl fun v hv => ?_⟩
    obtain hv | rfl := by simpa using hv
    · exact before v hv
    · exact report
  | some e =>
    by_cases full : s.ringFull
    · rw [drainHeld_of_full full]
      exact ⟨Drained.refl s, lost, backlog, .inr full⟩
    obtain ⟨r, ring, free⟩ : ∃ r, s.ev.ring = some r ∧ 0 < r.free := by
      simpa [State.ringFull, Nat.pos_iff_ne_zero] using full
    obtain ⟨x, watch, h, held, rfl⟩ : ∃ x, s.watch w = some x ∧ ∃ h, x.held = some h ∧
        Event.watchTriggered w x.stable h.previous h.count = e := by
      simpa only [State.heldReport, Option.bind_eq_some_iff, Option.map_eq_some_iff] using report
    let u := (s.setRing (some (r.assign (.watchTriggered w x.stable h.previous h.count)))).updWatch w
      fun x => { x with held := none }
    have taken : s.drainHeld w = u := by
      unfold State.drainHeld
      simp only [ring, watch, held]
      exact if_pos free
    have reports (v : WatchId) : u.heldReport v = if w = v then none else s.heldReport v := by
      simp only [u, State.heldReport, State.watch_updWatch, State.setRing_watch]
      split
      next here => cases here; simp [watch]
      next => rfl
    have nodup : (l ++ w :: m).Nodup := ids ▸ List.nodup_finRange 128
    have apart : w ∉ l ∧ w ∉ m := by
      rw [List.nodup_append, List.nodup_cons] at nodup
      obtain ⟨-, ⟨later, -⟩, distinct⟩ := nodup
      exact ⟨fun mem => distinct w mem w List.mem_cons_self rfl, later⟩
    have later : m.filterMap u.heldReport = m.filterMap s.heldReport :=
      List.filterMap_congr fun v hv => by rw [reports, if_neg (ne_of_mem_of_not_mem hv apart.2).symm]
    have sooner (f : WatchId → Option Event) (none : ∀ v ∈ l, f v = none) : l.filterMap f = [] :=
      List.filterMap_eq_nil_iff.2 none
    have uNone (v : WatchId) (hv : v ∈ l) : u.heldReport v = none := by rw [reports, before v hv, ite_self]
    rw [taken]
    refine ⟨Drained.one ring free rfl ?_, lost, backlog, .inl fun v hv => ?_⟩
    · have uw : u.heldReport w = none := by rw [reports, if_pos rfl]
      have uLost : u.ev.lost = 0 := lost
      have uBacklog : u.ev.backlog = [] := backlog
      rw [heldRecords_eq, heldRecords_eq, ids, List.filterMap_append, List.filterMap_append, sooner _ before,
        sooner _ uNone, List.filterMap_cons_some report, List.filterMap_cons_none uw, later, lost, uLost, backlog, uBacklog]
      rfl
    · obtain hv | rfl := by simpa using hv
      · exact uNone v hv
      · rw [reports, if_pos rfl]

theorem drainHelds_of_full {s : State} (full : s.ringFull) (l : List WatchId) : l.foldl State.drainHeld s = s := by
  induction l with
  | nil => rfl
  | cons w l ih => rw [List.foldl_cons, drainHeld_of_full full, ih]

/-- Step 3, for the watches that come after those of `l`. -/
theorem drainHelds_drained (m : List WatchId) {s : State} {l : List WatchId} (ids : watchIds = l ++ m)
    (lost : s.ev.lost = 0) (backlog : s.ev.backlog = []) (before : ∀ v ∈ l, s.heldReport v = none) :
    Drained s (m.foldl State.drainHeld s) ∧
      (heldRecords (m.foldl State.drainHeld s) = [] ∨ (m.foldl State.drainHeld s).ringFull) := by
  induction m generalizing s l with
  | nil =>
    refine ⟨Drained.refl s, .inl ?_⟩
    rw [List.append_nil] at ids
    rw [List.foldl_nil, heldRecords_eq, lost, backlog, ids, List.filterMap_eq_nil_iff.2 before]
    rfl
  | cons w m ih =>
    rw [List.foldl_cons]
    obtain ⟨first, lost', backlog', before' | full⟩ := drainHeld_drained ids lost backlog before
    · obtain ⟨rest, ends⟩ := ih (l := l ++ [w]) (by simp [ids]) lost' backlog' before'
      exact ⟨first.trans rest, ends⟩
    · rw [drainHelds_of_full full]
      exact ⟨first, .inr full⟩

/-- R156: a drain takes from the front of the held records, until none is left or the ring is full. -/
theorem drain_drained (s : State) : Drained s s.drain ∧ (heldRecords s.drain = [] ∨ s.drain.ringFull) := by
  have first := drainLost_drained s
  unfold State.drain
  obtain lost | full := drainLost_after s
  · obtain ⟨second, lost', backlog | full⟩ := drainBacklog_drained _ lost rfl
    · obtain ⟨third, ends⟩ := drainHelds_drained watchIds (l := []) rfl lost' backlog (by simp)
      exact ⟨(first.trans second).trans third, ends⟩
    · dsimp only
      rw [drainHelds_of_full full]
      exact ⟨first.trans second, .inr full⟩
  · dsimp only
    rw [drainBacklog_of_full full, drainHelds_of_full full]
    exact ⟨first, .inr full⟩

/-- Settles O22: what a drain has taken is a front part of the held records, and no space is left unless all are taken. -/
theorem drainAssignsInOrder : Obligations.DrainAssignsInOrder := by
  intro s r ring head tail output
  have sound : r.Sound := ⟨head, tail, output⟩
  obtain ⟨drained, ends⟩ := drain_drained s
  obtain ⟨l, fits, assigned, held⟩ := drained r ring sound
  have front : l = (heldRecords s).take r.free ∧ heldRecords s.drain = (heldRecords s).drop r.free := by
    obtain none | full := ends
    · rw [held, none, List.append_nil, List.take_of_length_le fits, List.drop_eq_nil_of_le fits]
      exact ⟨rfl, rfl⟩
    · have free := full _ assigned
      rw [(Ring.assigned_of_le sound fits).2] at free
      have length : l.length = r.free := by omega
      rw [held, ← length, List.take_left, List.drop_left]
      exact ⟨rfl, rfl⟩
  exact ⟨l, front.1, assigned, front.2⟩

/-! ### Taking events -/

theorem State.handEvent_discarded {s : State} (e : Event) (h : s.ctl.engine = .failed ∨ s.ev.ring = none) :
    s.handEvent e = s := by
  unfold State.handEvent
  split
  next => rfl
  next running =>
    obtain failed | none := h
    · exact absurd failed running
    · rw [none]

/-- R152: what becomes of an event with a ring to take it. -/
theorem State.handEvent_of_ring {s : State} {r : Ring} (e : Event) (running : s.ctl.engine ≠ .failed)
    (ring : s.ev.ring = some r) : s.handEvent e =
      if 0 < r.free then s.setRing (some (r.assign e))
      else if s.ev.backlog.length < 16 then s.setBacklog (s.ev.backlog ++ [e])
      else s.setLost (min (s.ev.lost + 1) 65535) := by
  unfold State.handEvent
  rw [if_neg running, ring]

theorem State.handReport_discarded {s : State} (w : WatchId) (n : Half) (p : Option Half)
    (h : s.ctl.engine = .failed ∨ s.ev.ring = none) : s.handReport w n p = s := by
  unfold State.handReport
  split
  next => rfl
  next running =>
    obtain failed | none := h
    · exact absurd failed running
    · rw [none]

/-- R153: what becomes of a watch report with a ring to take it. -/
theorem State.handReport_of_ring {s : State} {r : Ring} (w : WatchId) (n : Half) (p : Option Half)
    (running : s.ctl.engine ≠ .failed) (ring : s.ev.ring = some r) : s.handReport w n p =
      if 0 < r.free then s.setRing (some (r.assign (.watchTriggered w (some n) p 1)))
      else s.updWatch w fun x => { x with held := some (heldAfter x.held p) } := by
  unfold State.handReport
  rw [if_neg running, ring]

theorem heldAfter_eq (held : Option HeldReport) (p : Option Half) : heldAfter held p = match held with
    | some h => { h with count := min (h.count + 1) 65535 }
    | none => { previous := p, count := 1 } := by
  cases held <;> rfl

/-- Settles O23, by the branches of the two hand-offs and by `Ring.free_eq`. -/
theorem eventsAreTaken : Obligations.EventsAreTaken := by
  refine ⟨fun s e => ⟨State.handEvent_discarded e, fun r running ring => ?_⟩,
    fun s w n p => ⟨State.handReport_discarded w n p, fun r running ring => ?_⟩, fun r => Ring.free_eq⟩
  · rw [State.handEvent_of_ring e running ring]
    exact ⟨fun free => if_pos free, fun full few => (if_neg (by omega)).trans (if_pos few),
      fun full many => (if_neg (by omega)).trans (if_neg (by omega))⟩
  · rw [State.handReport_of_ring w n p running ring]
    refine ⟨fun free => if_pos free, fun full => (if_neg (by omega)).trans ?_⟩
    simp only [heldAfter_eq]
    rfl

end Sys2Proof.Machine
end

section
/-! PROOFS. The frame of every admin command (R85 to R89): the entry is taken, the command's own rule runs on
`State.entered`, and the command completes or waits. With it, the bytes that name queues, segments, targets, watches and
vectors, and how the part of the state that stands follows an update (`…_standing`). -/

namespace Sys2Proof.Machine

set_option Elab.async false -- one thread elaborates: the checker's memory is limited

/-! ### What stands, after an update -/

theorem tableMap_set_eq {α β : Type} {n : Nat} (f : α → β) (v : Vector α n) (i : Fin n) (x : α) :
    tableMap f (v.set i.val x i.isLt) = (tableMap f v).set i.val (f x) i.isLt := by
  refine vector_ext_get fun j => ?_
  rw [get_tableMap, get_set, get_set, get_tableMap]
  split
  next => rfl
  next => rfl

theorem setSeg_standing (s : State) (g : SegId) (y : SegCtl) :
    (s.setSeg g y).standing = s.standing.setSeg g y.standing :=
  congrArg (fun v => ({ s.standing with segs := v } : State)) (tableMap_set_eq SegCtl.standing s.segs g y)

theorem setSq_standing (s : State) (q : SqId) (x : Sq) : (s.setSq q x).standing = s.standing.setSq q x.standing :=
  congrArg (fun v => ({ s.standing with sqs := v } : State)) (tableMap_set_eq Sq.standing s.sqs q x)

theorem setCq_standing (s : State) (c : CqId) (x : Cq) : (s.setCq c x).standing = s.standing.setCq c x.standing :=
  congrArg (fun v => ({ s.standing with cqs := v } : State)) (tableMap_set_eq Cq.standing s.cqs c x)

theorem setWatch_standing (s : State) (w : WatchId) (x : Option Watch) :
    (s.setWatch w x).standing = s.standing.setWatch w x := rfl

theorem setPres_standing (s : State) (x : Tgt) (e : PresEntry) : (s.setPres x e).standing = s.standing.setPres x e := rfl

theorem handVector_standing (s : State) (v : VecId) : (s.handVector v).standing = s.standing.handVector v := rfl

theorem Control.standing_engine_iff (c : Control) : c.standing.engine = .failed ↔ c.engine = .failed := by
  unfold Control.standing
  dsimp only
  split
  next paused => simp [paused]
  next => rfl

theorem standing_ring (s : State) : s.standing.ev.ring = s.ev.ring.map fun r => { r with inFlight := none } := rfl

theorem handEvent_standing (s : State) (e : Event) : (s.handEvent e).standing = s.standing.handEvent e := by
  by_cases failed : s.ctl.engine = .failed
  · rw [State.handEvent_discarded e (.inl failed),
      State.handEvent_discarded e (.inl ((Control.standing_engine_iff s.ctl).2 failed))]
  cases ring : s.ev.ring with
  | none => rw [State.handEvent_discarded e (.inr ring), State.handEvent_discarded e (.inr (by rw [standing_ring, ring]; rfl))]
  | some r =>
    have some : s.standing.ev.ring = some { r with inFlight := Option.none } := by rw [standing_ring, ring]; rfl
    rw [State.handEvent_of_ring e failed ring,
      State.handEvent_of_ring e (mt (Control.standing_engine_iff s.ctl).1 failed) some]
    have free : ({ r with inFlight := Option.none } : Ring).free = r.free := rfl
    have backlog : s.standing.ev.backlog = s.ev.backlog := rfl
    have lost : s.standing.ev.lost = s.ev.lost := rfl
    rw [free, backlog, lost, apply_ite State.standing, apply_ite State.standing]
    rfl

/-! ### Bytes that name things -/

theorem ioSqOfByte_none {b : Byte} (h : ¬ (1 ≤ b.toNat ∧ b.toNat ≤ 15)) : ioSqOfByte b = none := dif_neg h

theorem ioSqOfByte_some {b : Byte} {q : SqId} (io : q ≠ 0) (h : b.toNat = q.val) : ioSqOfByte b = some q := by
  have pos : q.val ≠ 0 := fun zero => io (Fin.ext zero)
  exact (dif_pos ⟨by omega, by omega⟩).trans (congrArg some (Fin.ext h))

theorem ioCqOfByte_none {b : Byte} (h : ¬ (1 ≤ b.toNat ∧ b.toNat ≤ 7)) : ioCqOfByte b = none := dif_neg h

theorem ioCqOfByte_some {b : Byte} {c : CqId} (io : c ≠ 0) (h : b.toNat = c.val) : ioCqOfByte b = some c := by
  have pos : c.val ≠ 0 := fun zero => io (Fin.ext zero)
  exact (dif_pos ⟨by omega, by omega⟩).trans (congrArg some (Fin.ext h))

theorem vecOfByte_none {b : Byte} (h : 8 ≤ b.toNat) : vecOfByte b = none := dif_neg (by omega)

theorem vecOfByte_some {b : Byte} {v : VecId} (h : b.toNat = v.val) : vecOfByte b = some v :=
  (dif_pos (by omega)).trans (congrArg some (Fin.ext h))

theorem segOfByte_none {b : Byte} (h : 4 ≤ b.toNat) : segOfByte b = none := dif_neg (by omega)

theorem segOfByte_some {b : Byte} {g : SegId} (h : b.toNat = g.val) : segOfByte b = some g :=
  (dif_pos (by omega)).trans (congrArg some (Fin.ext h))

theorem watchOfByte_none {b : Byte} (h : 128 ≤ b.toNat) : watchOfByte b = none := dif_neg (by omega)

theorem watchOfByte_some {b : Byte} {w : WatchId} (h : b.toNat = w.val) : watchOfByte b = some w :=
  (dif_pos (by omega)).trans (congrArg some (Fin.ext h))

theorem slotOfByte_none {b : Byte} (h : b.toNat = 0 ∨ 63 ≤ b.toNat) : slotOfByte b = none := dif_neg (by omega)

theorem slotOfByte_some {b : Byte} {a : Fin 62} (h : b.toNat = a.val + 1) : slotOfByte b = some a := by
  have low : a.val < 62 := a.isLt
  exact (dif_pos (by omega)).trans (congrArg some (Fin.ext (by simp [h])))

theorem tgtOfBytes_none {b c : Byte} (h : 4 ≤ b.toNat ∨ c.toNat = 0 ∨ 63 ≤ c.toNat) : tgtOfBytes b c = none := by
  unfold tgtOfBytes
  obtain segment | slot := h
  · rw [segOfByte_none segment]
  · rw [slotOfByte_none slot]
    cases segOfByte b <;> rfl

theorem tgtOfBytes_some {b c : Byte} {x : Tgt} (segment : b.toNat = x.seg.val) (address : c.toNat = x.address) :
    tgtOfBytes b c = some x := by
  unfold tgtOfBytes
  rw [segOfByte_some segment, slotOfByte_some (a := x.slot) address]

theorem boolOfCode_eq (b : Byte) :
    boolOfCode b = if b.toNat = 0 then some false else if b.toNat = 1 then some true else none := by
  unfold boolOfCode
  split
  next zero => rw [if_pos zero]
  next one => rw [one]; rfl
  next h0 h1 => rw [if_neg h0, if_neg h1]

/-! ### An admin entry that is taken -/

/-- A taken entry runs its command's own rule. -/
theorem done_adminEntry {s : State} {op : Byte} {tag : Nat} {b : Body} (run : Record → State → State)
    (takes : s.takesAdmin tag (Record.of op b)) :
    done (s.adminEntry op tag b run) =
      .next (run (Record.of op b) (s.entered tag (Record.of op b))).settle :=
  congrArg done (adminEntry_takes run takes)

theorem State.takesAdmin.cq {s : State} {tag : Nat} {r : Record} (takes : s.takesAdmin tag r) :
    (s.cq 0).state = .active := by
  obtain ⟨-, -, cq, -⟩ := takes
  exact cq

/-- A command that completes after an update `u` of the state that it entered. -/
theorem adminDone_completed {s u : State} {tag : Nat} {r : Record} (takes : s.takesAdmin tag r) (st : Status)
    (res : Option Half) (adm : u.adm.ctx = (s.entered tag r).adm.ctx) (cq : (u.cq 0).state = (s.cq 0).state) :
    (u.adminDone st res).settle.adminCompleted r st res ∧ (u.adminDone st res).settle.standing = u.standing :=
  adminDone_settles st res (adm.trans (entered_ctx s tag r)) (cq.trans takes.cq)

/-- A command that is refused, or that has nothing to do. -/
theorem adminDone_only {s : State} {tag : Nat} {r : Record} (takes : s.takesAdmin tag r) (st : Status) :
    s.adminOnly ((s.entered tag r).adminDone st none).settle r st :=
  adminOnly_of_done st takes.cq

/-! ### Refused entries -/

/-- Settles O36: the opcode is checked, and then the flags, before any rule runs. -/
theorem adminEntriesRefused : Obligations.AdminEntriesRefused := by
  have flagged {op : Byte} {tag : Nat} {b : Body} {s : State} (run : Record → State → State) (read : s.adm.read = some tag)
      (sq : (s.sq 0).state = .active) (cq : (s.cq 0).state = .active)
      (flag : (Record.of op b).chainFlag = true ∨ (Record.of op b).keepFlag = true) :
      ∃ t, done (s.adminEntry op tag b run) = .next t ∧ s.adminOnly t (Record.of op b) .invalidField := by
    have refused : s.adminEntry op tag b run = (s.entered tag (Record.of op b)).adminDone .invalidField none := by
      unfold State.adminEntry
      rw [if_neg (not_not.2 read), if_neg (not_not.2 sq)]
      exact if_pos (by simpa using flag)
    exact ⟨_, congrArg done refused, adminOnly_of_done _ cq⟩
  refine ⟨fun tag op b s invalid read sq cq => ?_, fun op c row tag b s read sq cq flag => ?_⟩
  · have refused : s.adminInvalid op tag b = (s.entered tag (Record.of op b)).adminDone .invalidOpcode none := by
      unfold State.adminInvalid
      rw [if_neg (not_not.2 read), if_neg (not_not.2 sq)]
      rfl
    refine ⟨_, (if_neg (by simp [invalid])).trans (congrArg done refused), adminOnly_of_done _ cq⟩
  · simp only [adminRows, List.mem_cons, Prod.mk.injEq, List.not_mem_nil, or_false] at row
    obtain ⟨rfl, rfl⟩ | ⟨rfl, rfl⟩ | ⟨rfl, rfl⟩ | ⟨rfl, rfl⟩ | ⟨rfl, rfl⟩ | ⟨rfl, rfl⟩ | ⟨rfl, rfl⟩ | ⟨rfl, rfl⟩ |
      ⟨rfl, rfl⟩ | ⟨rfl, rfl⟩ | ⟨rfl, rfl⟩ | ⟨rfl, rfl⟩ | ⟨rfl, rfl⟩ | ⟨rfl, rfl⟩ | ⟨rfl, rfl⟩ | ⟨rfl, rfl⟩ | ⟨rfl, rfl⟩ |
      ⟨rfl, rfl⟩ := row
    all_goals exact flagged _ read sq cq flag

end Sys2Proof.Machine
end

section
/-! PROOFS. CREATE_SQ, CREATE_CQ and DELETE_CQ (R51 to R53): their checks, in order, and the queue that one which passes
makes or removes. -/

namespace Sys2Proof.Machine

set_option Elab.async false -- one thread elaborates: the checker's memory is limited

/-- A queue command that completes after one update of the queue tables, given by what stands. -/
theorem queueDone_completed {s u v : State} {tag : Nat} {r : Record} (takes : s.takesAdmin tag r)
    (adm : u.adm.ctx = (s.entered tag r).adm.ctx) (cq : (u.cq 0).state = (s.cq 0).state) (stands : u.standing = v.standing) :
    (u.adminDone .success none).settle.adminCompleted r .success none ∧
      (u.adminDone .success none).settle.standing = v.standing := by
  obtain ⟨completed, standing⟩ := adminDone_completed takes .success none adm cq
  exact ⟨completed, standing.trans stands⟩

theorem entered_setSq_standing (s : State) (tag : Nat) (r : Record) (q : SqId) (x : Sq) :
    ((s.entered tag r).setSq q x).standing = ((s.headMoved 0).setSq q x).standing := by
  rw [setSq_standing, setSq_standing, entered_standing]

theorem entered_setCq_standing (s : State) (tag : Nat) (r : Record) (c : CqId) (x : Cq) :
    ((s.entered tag r).setCq c x).standing = ((s.headMoved 0).setCq c x).standing := by
  rw [setCq_standing, setCq_standing, entered_standing]

/-- CQ0 is not one of the queues that commands make or remove. -/
theorem entered_setCq_zero (s : State) (tag : Nat) (r : Record) {c : CqId} (io : c ≠ 0) (x : Cq) :
    (((s.entered tag r).setCq c x).cq 0).state = (s.cq 0).state := by
  rw [State.cq_setCq, if_neg io, entered_cq]

/-! ### CREATE_SQ -/

theorem runCreateSq_exists {r : Record} {q : SqId} {s : State} (id : ioSqOfByte (r.byte 4) = some q)
    (present : (s.sq q).state ≠ .absent) : runCreateSq r s = s.adminDone .queueExists none := by
  rw [runCreateSq, id]
  exact if_pos present

theorem runCreateSq_fields {r : Record} {q : SqId} {s : State} (id : ioSqOfByte (r.byte 4) = some q)
    (absent : (s.sq q).state = .absent)
    (bad : ¬ (ringAllowed r.address (r.half 8).toNat 32 ∧ 1 ≤ (r.byte 6).toNat ∧ (r.byte 6).toNat ≤ 8 ∧
      1 ≤ (r.byte 5).toNat ∧ (r.byte 5).toNat ≤ 7)) : runCreateSq r s = s.adminDone .invalidField none := by
  rw [runCreateSq, id]
  refine (if_neg (not_not.2 absent)).trans ?_
  by_cases bound : 1 ≤ (r.byte 5).toNat ∧ (r.byte 5).toNat ≤ 7
  · rw [ioCqOfByte_some (c := ⟨(r.byte 5).toNat, by omega⟩) (by rw [ne_eq, Fin.ext_iff]; simp; omega) rfl]
    exact if_pos fun good => bad ⟨(ringOk_iff _ _ _).1 good.1, good.2.1, good.2.2, bound⟩
  · rw [ioCqOfByte_none bound]

theorem runCreateSq_bound {r : Record} {q : SqId} {c : CqId} {s : State} (id : ioSqOfByte (r.byte 4) = some q)
    (absent : (s.sq q).state = .absent) (bound : ioCqOfByte (r.byte 5) = some c)
    (good : ringAllowed r.address (r.half 8).toNat 32 ∧ 1 ≤ (r.byte 6).toNat ∧ (r.byte 6).toNat ≤ 8) :
    runCreateSq r s = if (s.cq c).state ≠ .active then s.adminDone .queueAbsent none
      else (s.setSq q (Sq.created r.address (r.half 8).toNat c (r.byte 6).toNat)).adminDone .success none := by
  rw [runCreateSq, id]
  refine (if_neg (not_not.2 absent)).trans ?_
  rw [bound]
  exact if_neg (not_not.2 ⟨(ringOk_iff _ _ _).2 good.1, good.2⟩)

theorem createSq_outcome {s : State} {tag : Nat} {r : Record} (takes : s.takesAdmin tag r) {q : SqId} (io : q ≠ 0)
    (id : (r.byte 4).toNat = q.val) {t : State} (ht : t = (runCreateSq r (s.entered tag r)).settle) :
    if (s.sq q).state ≠ .absent then s.adminOnly t r .queueExists
    else if ¬ (ringAllowed r.address (r.half 8).toNat 32 ∧ 1 ≤ (r.byte 6).toNat ∧ (r.byte 6).toNat ≤ 8 ∧
        1 ≤ (r.byte 5).toNat ∧ (r.byte 5).toNat ≤ 7) then s.adminOnly t r .invalidField
    else ∀ c : CqId, (r.byte 5).toNat = c.val →
      if (s.cq c).state ≠ .active then s.adminOnly t r .queueAbsent
      else t.adminCompleted r .success none ∧
        t.standing = ((s.headMoved 0).setSq q
          { state := .active, base := r.address, size := (r.half 8).toNat, tail := 0, head := 0, bound := c,
            weight := (r.byte 6).toNat, staging := none, chain := none }).standing := by
  have queue := ioSqOfByte_some io id
  have state := entered_sq_state s tag r q
  split
  next present =>
    rw [ht, runCreateSq_exists queue (state ▸ present)]
    exact adminDone_only takes _
  next absent =>
    have absent := state.trans (not_not.1 absent)
    split
    next bad =>
      rw [ht, runCreateSq_fields queue absent bad]
      exact adminDone_only takes _
    next good =>
      intro c hc
      obtain ⟨ring, low, high, boundLow, -⟩ := not_not.1 good
      have bound := ioCqOfByte_some (b := r.byte 5) (c := c) (by rw [ne_eq, Fin.ext_iff]; simp; omega) hc
      rw [ht, runCreateSq_bound queue absent bound ⟨ring, low, high⟩, entered_cq]
      split
      next inactive => exact adminDone_only takes _
      next active => exact queueDone_completed takes rfl rfl (entered_setSq_standing s tag r q _)

/-! ### CREATE_CQ -/

theorem runCreateCq_exists {r : Record} {c : CqId} {s : State} (id : ioCqOfByte (r.byte 4) = some c)
    (present : (s.cq c).state ≠ .absent) : runCreateCq r s = s.adminDone .queueExists none := by
  rw [runCreateCq, id]
  exact if_pos present

theorem runCreateCq_fields {r : Record} {c : CqId} {s : State} (id : ioCqOfByte (r.byte 4) = some c)
    (absent : (s.cq c).state = .absent) (bad : ¬ (ringAllowed r.address (r.half 8).toNat 16 ∧ (r.byte 7).toNat ≤ 7)) :
    runCreateCq r s = s.adminDone .invalidField none := by
  rw [runCreateCq, id]
  refine (if_neg (not_not.2 absent)).trans ?_
  by_cases vector : (r.byte 7).toNat ≤ 7
  · rw [vecOfByte_some (v := ⟨(r.byte 7).toNat, by omega⟩) rfl]
    exact if_pos fun good => bad ⟨(ringOk_iff _ _ _).1 good, vector⟩
  · rw [vecOfByte_none (by omega)]

theorem runCreateCq_created {r : Record} {c : CqId} {v : VecId} {s : State} (id : ioCqOfByte (r.byte 4) = some c)
    (absent : (s.cq c).state = .absent) (vector : vecOfByte (r.byte 7) = some v)
    (good : ringAllowed r.address (r.half 8).toNat 16) :
    runCreateCq r s = (s.setCq c (Cq.created r.address (r.half 8).toNat v)).adminDone .success none := by
  rw [runCreateCq, id]
  refine (if_neg (not_not.2 absent)).trans ?_
  rw [vector]
  exact if_neg (not_not.2 ((ringOk_iff _ _ _).2 good))

theorem createCq_outcome {s : State} {tag : Nat} {r : Record} (takes : s.takesAdmin tag r) {c : CqId} (io : c ≠ 0)
    (id : (r.byte 4).toNat = c.val) {t : State} (ht : t = (runCreateCq r (s.entered tag r)).settle) :
    if (s.cq c).state ≠ .absent then s.adminOnly t r .queueExists
    else if ¬ (ringAllowed r.address (r.half 8).toNat 16 ∧ (r.byte 7).toNat ≤ 7) then s.adminOnly t r .invalidField
    else ∀ v : VecId, (r.byte 7).toNat = v.val →
      t.adminCompleted r .success none ∧
        t.standing = ((s.headMoved 0).setCq c
          { state := .active, base := r.address, size := (r.half 8).toNat, tail := 0, head := 0, phase := true,
            vector := v, ready := [], inFlight := none }).standing := by
  have queue := ioCqOfByte_some io id
  have state := congrArg Cq.state (entered_cq s tag r c)
  split
  next present =>
    rw [ht, runCreateCq_exists queue (state ▸ present)]
    exact adminDone_only takes _
  next absent =>
    have absent := state.trans (not_not.1 absent)
    split
    next bad =>
      rw [ht, runCreateCq_fields queue absent bad]
      exact adminDone_only takes _
    next good =>
      intro v hv
      rw [ht, runCreateCq_created queue absent (vecOfByte_some hv) (not_not.1 good).1]
      exact queueDone_completed takes rfl (entered_setCq_zero s tag r io _) (entered_setCq_standing s tag r c _)

/-! ### DELETE_CQ -/

theorem mem_sqIds (q : SqId) : q ∈ sqIds := by fin_cases q <;> decide

theorem State.cqInUse_iff (s : State) (c : CqId) :
    s.cqInUse c = true ↔ ∃ q, (s.sq q).state ≠ .absent ∧ (s.sq q).bound = c := by
  simp [State.cqInUse, mem_sqIds]

theorem runDeleteCq_eq {r : Record} {c : CqId} (id : ioCqOfByte (r.byte 4) = some c) (s : State) :
    runDeleteCq r s = if (s.cq c).state = .absent then s.adminDone .queueAbsent none
      else if s.cqInUse c then s.adminDone .queueInUse none else (s.setCq c Cq.absent).adminDone .success none := by
  rw [runDeleteCq, id]

theorem deleteCq_outcome {s : State} {tag : Nat} {r : Record} (takes : s.takesAdmin tag r) {c : CqId} (io : c ≠ 0)
    (id : (r.byte 4).toNat = c.val) {t : State} (ht : t = (runDeleteCq r (s.entered tag r)).settle) :
    ((s.cq c).state = .absent → s.adminOnly t r .queueAbsent) ∧
    ((s.cq c).state ≠ .absent → (∃ q, (s.sq q).state ≠ .absent ∧ (s.sq q).bound = c) → s.adminOnly t r .queueInUse) ∧
    ((s.cq c).state ≠ .absent → (∀ q, (s.sq q).state ≠ .absent → (s.sq q).bound ≠ c) →
      t.adminCompleted r .success none ∧ t.standing = ((s.headMoved 0).setCq c Cq.absent).standing) := by
  have inUse : (s.entered tag r).cqInUse c = true ↔ ∃ q, (s.sq q).state ≠ .absent ∧ (s.sq q).bound = c := by
    rw [State.cqInUse_iff]
    exact exists_congr fun q => by rw [entered_sq_state, entered_sq_bound]
  rw [ht, runDeleteCq_eq (ioCqOfByte_some io id), entered_cq]
  refine ⟨fun absent => ?_, fun present bound => ?_, fun present free => ?_⟩
  · rw [if_pos absent]
    exact adminDone_only takes _
  · rw [if_neg present, if_pos (inUse.2 bound)]
    exact adminDone_only takes _
  · rw [if_neg present, if_neg fun used => ?_]
    · exact queueDone_completed takes rfl (entered_setCq_zero s tag r io _) (entered_setCq_standing s tag r c _)
    · obtain ⟨q, some, bound⟩ := inUse.1 used
      exact free q some bound

/-- Settles O24: each rule's checks in their order, by the branches of the command. -/
theorem queueCommandChecks : Obligations.QueueCommandChecks := by
  refine ⟨fun tag b s takes => ⟨_, done_adminEntry runCreateSq takes, fun bad => ?_, fun q io id =>
      createSq_outcome takes io id rfl⟩,
    fun tag b s takes => ⟨_, done_adminEntry runCreateCq takes, fun bad => ?_, fun c io id =>
      createCq_outcome takes io id rfl⟩,
    fun tag b s takes => ⟨_, done_adminEntry runDeleteCq takes, fun bad => ?_, fun c io id =>
      deleteCq_outcome takes io id rfl⟩⟩
  · rw [runCreateSq, ioSqOfByte_none bad]
    exact adminDone_only takes _
  · rw [runCreateCq, ioCqOfByte_none bad]
    exact adminDone_only takes _
  · rw [runDeleteCq, ioCqOfByte_none bad]
    exact adminDone_only takes _

end Sys2Proof.Machine
end

section
/-! PROOFS. The segment commands that finish no context: SEGMENT_SETUP, SEGMENT_ON, SEGMENT_RECOVER with its pulses, and the
queries (R16, R17, R19, R20, R34, R89, R115, R131). -/

namespace Sys2Proof.Machine

set_option Elab.async false -- one thread elaborates: the checker's memory is limited

/-! ### Settings and SEGMENT_ON -/

theorem entered_updSeg_standing (s : State) (tag : Nat) (r : Record) (g : SegId) (f : SegCtl → SegCtl) :
    ((s.entered tag r).updSeg g f).standing = ((s.headMoved 0).setSeg g (f (s.seg g))).standing := by
  rw [State.updSeg, setSeg_standing, setSeg_standing, entered_standing, entered_seg]

theorem setupOf_inRange_iff (r : Record) : (setupOf r).inRange = true ↔
    3 ≤ (r.half 8).toNat ∧ (r.half 8).toNat ≤ 499 ∧ 1 ≤ (r.byte 10).toNat ∧ (r.byte 11).toNat ≤ 15 ∧
      1 ≤ (r.byte 12).toNat ∧ (r.byte 12).toNat ≤ 7 ∧ 1 ≤ (r.byte 13).toNat := by
  have byte (b : Byte) : b.toNat ≤ 255 := Nat.le_of_lt_succ b.isLt
  simp only [Settings.inRange, Bool.and_eq_true, decide_eq_true_eq, and_assoc]
  simp only [setupOf, byte, true_and, and_true]

/-- A watch that SEGMENT_ON or a recovery that is over re-arms (R131): HALTED, on the segment, with the engine RUNNING. -/
def Watch.rearmedOn (x : Watch) (engine : EngineState) (now : Nat) (g : SegId) : Watch :=
  if engine = .running ∧ x.state = .halted ∧ x.cfg.tgt.seg = g then
    { x with state := .armed, stable := none, candidate := none, run := 0, nextDue := some (now + x.cfg.interval),
             overrun := false, poll := .none }
  else x

theorem State.rearmWatches_of_active {s : State} {g : SegId} (active : (s.seg g).state = .active) :
    s.rearmWatches g = { s with watches := tableMap (Option.map (·.rearmedOn s.ctl.engine s.now g)) s.watches } := by
  have watches : (s.rearmWatches g).watches = tableMap (Option.map (·.rearmedOn s.ctl.engine s.now g)) s.watches := by
    refine vector_ext_get fun w => ?_
    rw [get_tableMap]
    change (s.rearmWatches g).watch w = (s.watch w).map _
    unfold State.rearmWatches
    by_cases running : s.ctl.engine = .running
    · rw [if_pos ⟨active, running⟩, State.watch_mapWatches]
      refine Option.map_congr fun x _ => ?_
      by_cases here : x.cfg.tgt.seg = g
      · simp only [here, running, if_true, Watch.rearm, Watch.rearmedOn, true_and, and_true]
      · simp only [here, if_false, Watch.rearmedOn, and_false]
    · rw [if_neg fun h => running h.2]
      refine Option.map_id'.symm.trans (Option.map_congr fun x _ => ?_)
      simp only [running, Watch.rearmedOn, false_and, if_false]
  refine (s.rearmWatches_view (fun u => ({ u with watches := (s.rearmWatches g).watches } : State)) (fun _ _ => rfl) g).trans ?_
  rw [watches]

theorem runSegmentOn_off {r : Record} {g : SegId} {s : State} (id : segOfByte (r.byte 4) = some g)
    (off : (s.seg g).state = .off) :
    runSegmentOn r s = ((s.updSeg g SegCtl.activated).rearmWatches g).adminDone .success none := by
  simp only [runSegmentOn, id, off]

theorem runSegmentOn_active {r : Record} {g : SegId} {s : State} (id : segOfByte (r.byte 4) = some g)
    (active : (s.seg g).state = .active) : runSegmentOn r s = s.adminDone .success none := by
  simp only [runSegmentOn, id, active]

theorem runSegmentOn_busy {r : Record} {g : SegId} {s : State} (id : segOfByte (r.byte 4) = some g)
    (busy : (s.seg g).state = .draining ∨ (s.seg g).state = .faulted ∨ (s.seg g).state = .recovering) :
    runSegmentOn r s = s.adminDone .segmentBusy none := by
  obtain state | state | state := busy
  all_goals simp only [runSegmentOn, id, state]

theorem runSegmentSetup_eq {r : Record} {g : SegId} (id : segOfByte (r.byte 4) = some g) (s : State) :
    runSegmentSetup r s = if (s.seg g).state ≠ .off then s.adminDone .segmentBusy none
      else if ¬ (setupOf r).inRange then s.adminDone .invalidField none
      else (s.updSeg g fun y => { y with settings := setupOf r }).adminDone .success none := by
  rw [runSegmentSetup, id]

/-- Settles O27: the branches of the two commands, and what `SegCtl.activated` and the re-arming leave. -/
theorem segmentSetupAndOn : Obligations.SegmentSetupAndOn := by
  refine ⟨fun tag b s takes => ⟨_, done_adminEntry runSegmentSetup takes, fun bad => ?_, fun g id => ?_⟩,
    fun tag b s takes => ⟨_, done_adminEntry runSegmentOn takes, fun bad => ?_, fun g id =>
      ⟨fun active => ?_, fun busy => ?_, fun off => ?_⟩⟩⟩
  · rw [runSegmentSetup, segOfByte_none bad]
    exact adminDone_only takes _
  · rw [runSegmentSetup_eq (segOfByte_some id), entered_seg]
    split
    next busy => exact adminDone_only takes _
    next off =>
      split
      next bad =>
        rw [if_pos (mt (setupOf_inRange_iff _).1 bad)]
        exact adminDone_only takes _
      next good =>
        rw [if_neg (not_not.2 ((setupOf_inRange_iff _).2 (not_not.1 good)))]
        obtain ⟨completed, stands⟩ := adminDone_completed takes (u := ((s.entered tag (Record.of 0x48 b)).updSeg g
          fun y => { y with settings := setupOf (Record.of 0x48 b) })) .success none rfl rfl
        exact ⟨completed, stands.trans (entered_updSeg_standing s tag _ g _)⟩
  · rw [runSegmentOn, segOfByte_none bad]
    exact adminDone_only takes _
  · rw [runSegmentOn_active (segOfByte_some id) (by rw [entered_seg, active])]
    exact adminDone_only takes _
  · rw [runSegmentOn_busy (segOfByte_some id) (by rwa [entered_seg])]
    exact adminDone_only takes _
  · rw [runSegmentOn_off (segOfByte_some id) (by rw [entered_seg, off]),
      State.rearmWatches_of_active (by rw [State.seg_updSeg_same]; rfl)]
    obtain ⟨completed, stands⟩ := adminDone_completed takes (u := ({
      (s.entered tag (Record.of 0x49 b)).updSeg g SegCtl.activated with
      watches := tableMap (Option.map (·.rearmedOn s.ctl.engine s.now g)) s.watches } : State)) .success none rfl rfl
    refine ⟨completed, stands.trans ?_⟩
    exact congrArg (fun u => ({ u with
      watches := tableMap (Option.map (·.rearmedOn s.ctl.engine s.now g)) s.watches } : State))
      (entered_updSeg_standing s tag _ g SegCtl.activated)

/-! ### Recovery -/

theorem runSegmentRecover_eq {r : Record} {g : SegId} (id : segOfByte (r.byte 4) = some g) (s : State) :
    runSegmentRecover r s = if (s.seg g).state = .faulted then
        (s.updSeg g fun y => { y with state := .recovering, pulseCount := 1, recoveryIdle := false }).adminWaits
          (.recovering g)
      else s.adminDone .segmentBusy none := by
  rw [runSegmentRecover, id]

/-- A command that goes on after an update `u` of the state that it entered. -/
theorem adminWaits_waiting {s u : State} {tag : Nat} {r : Record} {p : AdminProgress}
    (adm : u.adm.ctx = (s.entered tag r).adm.ctx) (other : ∀ q, p ≠ .deletingSq q) :
    (u.adminWaits p).settle.adminWaiting r p ∧ (u.adminWaits p).settle.standing = u.standing := by
  have waits : (u.adminWaits p).adminWaiting r p := by
    unfold State.adminWaiting State.adminWaits
    rw [adm, entered_ctx]
    rfl
  obtain ⟨waiting, stands⟩ := adminWaits_settles waits other
  exact ⟨waiting, stands.trans (standing_adminWaits u p)⟩

theorem State.adminAt_of_waiting {s : State} {r : Record} {p : AdminProgress} (waits : s.adminWaiting r p) :
    s.adminAt p = true := by
  unfold State.adminAt
  rw [waits]
  exact beq_self_eq_true p

/-- The command that a recovery belongs to completes, after an update `u` that leaves the admin context and CQ0. -/
theorem recoverDone_completed {s u : State} {r : Record} {g : SegId} (waits : s.adminWaiting r (.recovering g))
    (cq : (s.cq 0).state = .active) (st : Status) (adm : u.adm = s.adm) (cqs : u.cqs = s.cqs) :
    (u.recoverDone g st).settle.adminCompleted r st none ∧ (u.recoverDone g st).settle.standing = u.standing := by
  have waits : u.adminWaiting r (.recovering g) := (congrArg Admin.ctx adm).trans waits
  have active : (u.cq 0).state = .active := (congrArg (fun v : Vector Cq 8 => (v.get 0).state) cqs).trans cq
  rw [State.recoverDone, if_pos (State.adminAt_of_waiting waits)]
  exact adminDone_settles st none waits active

theorem State.pulseEnd_of_pulsing {s : State} {g : SegId} (state : (s.seg g).state = .recovering)
    (pulsing : (s.seg g).recoveryIdle = false) (high : Bool) : s.pulseEnd g high =
      if high then s.setSeg g { s.seg g with recoveryIdle := true }
      else if 16 ≤ (s.seg g).pulseCount then (s.setSeg g { s.seg g with state := .faulted }).recoverDone g .recoveryFailed
      else s.setSeg g { s.seg g with pulseCount := (s.seg g).pulseCount + 1 } :=
  if_pos ⟨state, by simp [pulsing]⟩

theorem State.recoveryEnd_of_idle {s : State} {g : SegId} (state : (s.seg g).state = .recovering)
    (idle : (s.seg g).recoveryIdle = true) : s.recoveryEnd g =
      (((s.setSeg g (s.seg g).activated).handEvent (.segmentRecovered g)).rearmWatches g).recoverDone g .success :=
  if_pos ⟨state, idle⟩

/-- Settles O30: SEGMENT_RECOVER's own rule, and the branches taken as a pulse or the idle bit times are over. -/
theorem recoveryRuns : Obligations.RecoveryRuns := by
  refine ⟨fun tag b s takes => ⟨_, done_adminEntry runSegmentRecover takes, fun bad => ?_, fun g id => ?_⟩,
    fun g s r state waits cq => ⟨fun pulsing => ⟨⟨_, rfl, ?_⟩, ⟨_, rfl, ?_⟩⟩, fun idle => ⟨_, rfl, ?_⟩⟩⟩
  · rw [runSegmentRecover, segOfByte_none bad]
    exact adminDone_only takes _
  · rw [runSegmentRecover_eq (segOfByte_some id), entered_seg, ite_not]
    split
    next faulted =>
      obtain ⟨waiting, stands⟩ := adminWaits_waiting (s := s) (tag := tag) (r := Record.of 0x4B b)
        (u := (s.entered tag (Record.of 0x4B b)).updSeg g
          fun y => { y with state := .recovering, pulseCount := 1, recoveryIdle := false }) (p := .recovering g) rfl
        (fun _ h => nomatch h)
      exact ⟨waiting, stands.trans (entered_updSeg_standing s tag _ g _)⟩
    next other => exact adminDone_only takes _
  · rw [settle_standing, State.pulseEnd_of_pulsing state pulsing, if_pos rfl]
  · rw [State.pulseEnd_of_pulsing state pulsing, if_neg Bool.false_ne_true]
    split
    next few => rw [if_neg (by omega), settle_standing]
    next many =>
      rw [if_pos (by omega)]
      obtain ⟨completed, stands⟩ := recoverDone_completed (u := s.setSeg g { s.seg g with state := .faulted }) waits cq
        .recoveryFailed rfl rfl
      exact ⟨stands, completed⟩
  · rw [State.recoveryEnd_of_idle state idle]
    let u := (s.setSeg g (s.seg g).activated).handEvent (.segmentRecovered g)
    have active : (u.seg g).state = .active := by simp [u, SegCtl.activated]
    rw [State.rearmWatches_of_active active]
    obtain ⟨completed, stands⟩ := recoverDone_completed (g := g)
      (u := ({ u with watches := tableMap (Option.map (·.rearmedOn u.ctl.engine u.now g)) u.watches } : State)) waits cq
      .success (by simp [u]) (by simp [u])
    refine ⟨completed, stands.trans ?_⟩
    have ctl : u.ctl = s.ctl := by simp [u]
    have now : u.now = s.now := by simp [u, State.now]
    have watches : u.watches = s.watches := by simp [u]
    have table : tableMap (Option.map (·.rearmedOn u.ctl.engine u.now g)) u.watches
        = tableMap (Option.map (·.rearmedOn s.ctl.engine s.now g)) s.watches := by rw [ctl, now, watches]
    rw [table]
    rfl

/-! ### Queries -/

/-- R89: the record is written to the command's buffer, or the command completes without it. -/
theorem writeResult_outcome {s : State} {tag : Nat} {r : Record} (takes : s.takesAdmin tag r) (l : List Byte) :
    s.writesRecord ((s.entered tag r).writeResult r l).settle r l := by
  have fits : fitsBelowTop r.address l.length = true ↔ r.address.toNat + l.length ≤ 2 ^ 64 := decide_eq_true_iff
  unfold State.writesRecord State.writeResult
  split
  next room =>
    rw [if_pos (fits.2 room), entered_next]
    let u := (s.entered tag r).issue .result r.address l
    obtain ⟨waiting, stands⟩ := adminWaits_waiting (s := s) (tag := tag) (r := r) (u := u)
      (p := .resultWrite s.link.next) rfl (fun _ h => nomatch h)
    refine ⟨waiting, stands.trans ((standing_issue _ _ _ _).trans (entered_standing s tag r)), ?_⟩
    refine ⟨⟨.result, s.link.next, r.address, l, s.ticks⟩, (settle_grows _).outstanding _ ?_, rfl, rfl, rfl, rfl⟩
    exact List.mem_append_right _ (List.mem_singleton.2 rfl)
  next past =>
    rw [if_neg (mt fits.1 past)]
    exact adminDone_only takes _

/-- Settles O31: each query writes the record of the state that its entry found. -/
theorem queriesWriteRecords : Obligations.QueriesWriteRecords := by
  refine ⟨fun tag b s takes => ⟨_, done_adminEntry runQuerySegment takes, fun bad => ?_, fun g id => ?_⟩,
    fun tag b s takes => ⟨_, done_adminEntry runQueryTarget takes, fun bad => ?_, fun x segment address => ?_⟩,
    fun tag b s takes => ⟨_, done_adminEntry runQueryWatch takes, fun bad => ?_, fun w id => ⟨fun absent => ?_,
      fun x watch => ?_⟩⟩⟩
  · rw [runQuerySegment, segOfByte_none bad]
    exact adminDone_only takes _
  · rw [runQuerySegment, segOfByte_some id]
    exact writeResult_outcome takes _
  · rw [runQueryTarget, tgtOfBytes_none bad]
    exact adminDone_only takes _
  · rw [runQueryTarget, tgtOfBytes_some segment address]
    exact writeResult_outcome takes _
  · rw [runQueryWatch, watchOfByte_none bad]
    exact adminDone_only takes _
  · simp only [runQueryWatch, watchOfByte_some id, entered_watch, absent]
    exact adminDone_only takes _
  · simp only [runQueryWatch, watchOfByte_some id, entered_watch, watch]
    exact writeResult_outcome takes _

end Sys2Proof.Machine
end

section
/-! PROOFS. The event ring under the host's hand: writes to EQ_HEAD, and CONFIGURE_EVENTS (R151, R155 to R157, R164). -/

namespace Sys2Proof.Machine

set_option Elab.async false -- one thread elaborates: the checker's memory is limited

/-! ### A drain, on the part of the state that stands -/

theorem standing_ring_none {s : State} (h : s.ev.ring = none) : s.standing.ev.ring = none := by
  rw [standing_ring, h]
  rfl

theorem standing_ring_some {s : State} {r : Ring} (h : s.ev.ring = some r) :
    s.standing.ev.ring = some { r with inFlight := none } := by
  rw [standing_ring, h]
  rfl

theorem drainLost_standing (s : State) : s.drainLost.standing = s.standing.drainLost := by
  unfold State.drainLost
  cases ring : s.ev.ring with
  | none => rw [standing_ring_none ring]
  | some r =>
    rw [standing_ring_some ring]
    change (if 0 < s.ev.lost ∧ 0 < r.free then _ else _ : State).standing = if 0 < s.ev.lost ∧ 0 < r.free then _ else _
    split
    next => rfl
    next => rfl

theorem drainBacklog_standing (l : List Event) (s : State) :
    (State.drainBacklog l s).standing = State.drainBacklog l s.standing := by
  induction l generalizing s with
  | nil => rfl
  | cons e l ih =>
    rw [State.drainBacklog, State.drainBacklog]
    cases ring : s.ev.ring with
    | none => rw [standing_ring_none ring]
    | some r =>
      rw [standing_ring_some ring]
      change (if 0 < r.free then _ else _ : State).standing = if 0 < r.free then _ else _
      split
      next => exact ih _
      next => rfl

theorem drainHeld_standing (s : State) (w : WatchId) : (s.drainHeld w).standing = s.standing.drainHeld w := by
  unfold State.drainHeld
  change _ = (match s.standing.ev.ring, s.watch w with | some _, some _ => _ | _, _ => _)
  cases ring : s.ev.ring with
  | none => rw [standing_ring_none ring]
  | some r =>
    rw [standing_ring_some ring]
    cases watch : s.watch w with
    | none => rfl
    | some x =>
      cases held : x.held with
      | none => simp only [held]
      | some h =>
        simp only [held]
        change (if 0 < r.free then _ else _ : State).standing = if 0 < r.free then _ else _
        split
        next => rfl
        next => rfl

theorem drain_standing (s : State) : s.drain.standing = s.standing.drain := by
  have fold (l : List WatchId) (u : State) : (l.foldl State.drainHeld u).standing = l.foldl State.drainHeld u.standing := by
    induction l generalizing u with
    | nil => rfl
    | cons w l ih => rw [List.foldl_cons, List.foldl_cons, ih, drainHeld_standing]
  have backlog : s.drainLost.standing.ev.backlog = s.drainLost.ev.backlog := rfl
  unfold State.drain
  rw [fold, drainBacklog_standing, ← backlog, drainLost_standing]

/-! ### EQ_HEAD -/

theorem takesIndexes_iff (e : EngineState) : e.takesIndexes = true ↔ e ≠ .idle ∧ e ≠ .failed := by
  cases e <;> decide

theorem writeEventHead_taken {s : State} {w : RegWrite} {r : Ring} (idle : s.ctl.engine ≠ .idle)
    (failed : s.ctl.engine ≠ .failed) (ring : s.ev.ring = some r) : s.writeEventHead w =
      if indexAfter w r.head < r.size ∧ slotsBetween r.size r.head (indexAfter w r.head) ≤ r.unreleased then
        (s.setRing (some { r with head := indexAfter w r.head })).drain.reRaise r.vector
          ({ r with head := indexAfter w r.head } : Ring).unreleased
      else s.removeRing := by
  unfold State.writeEventHead
  rw [if_pos ((takesIndexes_iff _).2 ⟨idle, failed⟩), ring]

theorem writeEventHead_ignored {s : State} {w : RegWrite}
    (h : s.ctl.engine = .idle ∨ s.ctl.engine = .failed ∨ s.ev.ring = none) : s.writeEventHead w = s := by
  unfold State.writeEventHead
  obtain idle | failed | ring := h
  · rw [if_neg fun takes => ((takesIndexes_iff _).1 takes).1 idle]
  · rw [if_neg fun takes => ((takesIndexes_iff _).1 takes).2 failed]
  · rw [ring, ite_self]

/-- Settles O21: the three cases of a write to EQ_HEAD are the branches of its rule. -/
theorem eqHeadWrites : Obligations.EqHeadWrites := by
  refine fun w s => ⟨fun r idle failed ring => ⟨fun taken => ⟨_, rfl, ?_⟩, fun bad => ⟨_, rfl, ?_⟩⟩,
    fun ignored => ⟨_, rfl, ?_⟩⟩
  · have rule := (writeEventHead_taken idle failed ring).trans (if_pos taken)
    exact (settle_standing _).trans (congrArg State.standing rule)
  · have rule := (writeEventHead_taken idle failed ring).trans (if_neg bad)
    exact (settle_standing _).trans (congrArg State.standing rule)
  · rw [settle_standing, writeEventHead_ignored ignored]

/-! ### CONFIGURE_EVENTS -/

theorem eventRingOk_iff (base : Addr) (size : Nat) : eventRingOk base size = true ↔
    base.toNat % 64 = 0 ∧ 16 ≤ size ∧ size ≤ 1024 ∧ base.toNat + size * 16 ≤ 2 ^ 64 := by
  simp only [eventRingOk, fitsBelowTop, Bool.and_eq_true, decide_eq_true_eq, beq_iff_eq, and_assoc]

/-- A drain finds nothing in an Event Unit that holds nothing. -/
theorem drain_of_empty {s : State} (lost : s.ev.lost = 0) (backlog : s.ev.backlog = [])
    (held : ∀ w, s.heldReport w = none) : s.drain = s := by
  have first : s.drainLost = s := by
    unfold State.drainLost
    cases s.ev.ring with
    | none => rfl
    | some r => exact if_neg fun h => absurd h.1 (by omega)
  have fold (l : List WatchId) : l.foldl State.drainHeld s = s := by
    induction l with
    | nil => rfl
    | cons w l ih => rw [List.foldl_cons, drainHeld_of_none (held w), ih]
  unfold State.drain
  dsimp only
  rw [first, backlog]
  exact fold watchIds

/-- The state with a new event ring, or none, and nothing held (R151). -/
def State.newRing (s : State) (r : Option Ring) : State :=
  { s.discardHeld with ev := { ring := r, backlog := [], lost := 0 } }

theorem drain_newRing (s : State) (r : Option Ring) : (s.newRing r).drain = s.newRing r := by
  refine drain_of_empty rfl rfl fun w => ?_
  have watch : (s.newRing r).watch w = (s.watch w).map fun x => { x with held := none } := State.watch_mapWatches s _ w
  unfold State.heldReport
  rw [watch]
  cases s.watch w with
  | none => rfl
  | some x => rfl

theorem runConfigureEvents_zero {r : Record} (zero : (r.half 8).toNat = 0) (s : State) :
    runConfigureEvents r s = (s.newRing none).adminDone .success none := if_pos zero

theorem runConfigureEvents_bad {r : Record} (some : (r.half 8).toNat ≠ 0)
    (bad : ¬ (eventRingOk r.address (r.half 8).toNat = true ∧ (r.byte 7).toNat ≤ 7)) (s : State) :
    runConfigureEvents r s = s.adminDone .invalidField none := by
  refine (if_neg some).trans ?_
  by_cases vector : (r.byte 7).toNat ≤ 7
  · rw [vecOfByte_some (v := ⟨(r.byte 7).toNat, by omega⟩) rfl]
    exact if_pos fun good => bad ⟨good, vector⟩
  · rw [vecOfByte_none (by omega)]

theorem runConfigureEvents_good {r : Record} {v : VecId} (some : (r.half 8).toNat ≠ 0)
    (good : eventRingOk r.address (r.half 8).toNat = true) (vector : (r.byte 7).toNat = v.val) (s : State) :
    runConfigureEvents r s = ((if s.ev.ring = none
      then (s.setRing (Ring.created r.address (r.half 8).toNat v)).drain
      else s.newRing (Ring.created r.address (r.half 8).toNat v)).adminDone .success none) := by
  refine (if_neg some).trans ?_
  rw [vecOfByte_some vector]
  refine (if_neg (not_not.2 good)).trans (congrArg (State.adminDone · .success none) ?_)
  cases ring : s.ev.ring with
  | none => rw [if_pos rfl]
  | some old =>
    rw [if_neg (by simp)]
    exact drain_newRing s _

theorem newRing_standing (s : State) (r : Option Ring) :
    (s.newRing r).standing = s.standing.newRing (r.map fun x => { x with inFlight := none }) := rfl

theorem entered_newRing_standing (s : State) (tag : Nat) (r : Record) (x : Option Ring) :
    ((s.entered tag r).newRing x).standing = ((s.headMoved 0).newRing x).standing := by
  rw [newRing_standing, entered_standing, ← newRing_standing]

theorem setRing_standing (s : State) (r : Option Ring) :
    (s.setRing r).standing = s.standing.setRing (r.map fun x => { x with inFlight := none }) := rfl

/-- Settles O35: the branches of the command; a drain commutes with what stands, and finds nothing in a new ring. -/
theorem configureEventsOutcomes : Obligations.ConfigureEventsOutcomes := by
  refine fun tag b s takes => ⟨_, done_adminEntry runConfigureEvents takes, fun zero => ?_, fun size bad => ?_,
    fun v good vector => ?_⟩
  · rw [runConfigureEvents_zero zero]
    exact queueDone_completed takes (v := (s.headMoved 0).newRing none) rfl rfl (entered_newRing_standing s tag _ none)
  · rw [runConfigureEvents_bad size fun ok => bad ?_]
    · exact adminDone_only takes _
    · obtain ⟨aligned, low, high, fits⟩ := (eventRingOk_iff _ _).1 ok.1
      exact ⟨aligned, low, high, fits, ok.2⟩
  · obtain ⟨aligned, low, high, fits, -⟩ := good
    have ok := (eventRingOk_iff _ _).2 ⟨aligned, low, high, fits⟩
    rw [runConfigureEvents_good (by omega) ok vector, entered_ev]
    split
    next absent =>
      obtain ⟨completed, stands⟩ := adminDone_completed takes .success none
        (u := ((s.entered tag (Record.of 0x60 b)).setRing
          (Ring.created (Record.of 0x60 b).address ((Record.of 0x60 b).half 8).toNat v)).drain) (by simp) (by simp)
      refine ⟨completed, fun ring => absurd absent ring, fun _ => stands.trans ?_⟩
      rw [drain_standing, drain_standing, setRing_standing, setRing_standing, entered_standing]
      rfl
    next present =>
      obtain ⟨completed, stands⟩ := adminDone_completed takes .success none
        (u := (s.entered tag (Record.of 0x60 b)).newRing
          (Ring.created (Record.of 0x60 b).address ((Record.of 0x60 b).half 8).toNat v)) rfl rfl
      exact ⟨completed, fun _ => stands.trans (entered_newRing_standing s tag _ _), fun ring => absurd ring present⟩

end Sys2Proof.Machine
end

section
/-! PROOFS. WATCH_ADD, WATCH_ARM and WATCH_REMOVE (R112 to R114). -/

namespace Sys2Proof.Machine

set_option Elab.async false -- one thread elaborates: the checker's memory is limited

/-! ### The configuration that an entry gives -/

theorem tgtOfBytes_eq_some {b c : Byte} {x : Tgt} :
    tgtOfBytes b c = some x ↔ b.toNat = x.seg.val ∧ c.toNat = x.address := by
  refine ⟨fun named => ?_, fun h => tgtOfBytes_some h.1 h.2⟩
  by_cases bad : 4 ≤ b.toNat ∨ c.toNat = 0 ∨ 63 ≤ c.toNat
  · rw [tgtOfBytes_none bad] at named
    cases named
  · have segment : b.toNat < 4 := by omega
    have slot : c.toNat - 1 < 62 := by omega
    have address : c.toNat = c.toNat - 1 + 1 := by omega
    rw [tgtOfBytes_some (x := ⟨⟨b.toNat, segment⟩, ⟨c.toNat - 1, slot⟩⟩) rfl address] at named
    obtain rfl := Option.some.inj named
    exact ⟨rfl, address⟩

theorem boolOfCode_eq_some {b : Byte} {v : Bool} : boolOfCode b = some v ↔ b.toNat = if v then 1 else 0 := by
  rw [boolOfCode_eq]
  cases v with
  | true => by_cases zero : b.toNat = 0 <;> simp [zero]
  | false => by_cases zero : b.toNat = 0 <;> simp [zero]

theorem Cond.code_of_ofCode {b : Byte} {c : Cond} (h : Cond.ofCode b = some c) : c.code = b := by
  unfold Cond.ofCode at h
  split at h
  case h_7 => cases h
  all_goals
    rename_i code
    obtain rfl := Option.some.inj h
    exact BitVec.eq_of_toNat_eq code.symm

theorem Cond.ofCode_code (c : Cond) : Cond.ofCode c.code = some c := by cases c <;> rfl

theorem Cond.code_range (c : Cond) : 1 ≤ c.code.toNat ∧ c.code.toNat ≤ 6 := by cases c <;> decide

theorem Cond.usesMatch_iff (c : Cond) : c.usesMatch = true ↔ 4 ≤ c.code.toNat := by cases c <;> decide

theorem Cond.exists_code {b : Byte} (low : 1 ≤ b.toNat) (high : b.toNat ≤ 6) : ∃ c : Cond, Cond.ofCode b = some c := by
  have code : b.toNat = 1 ∨ b.toNat = 2 ∨ b.toNat = 3 ∨ b.toNat = 4 ∨ b.toNat = 5 ∨ b.toNat = 6 := by omega
  have named : ∃ c : Cond, c.code.toNat = b.toNat := by
    obtain h | h | h | h | h | h := code
    exacts [⟨.change, h.symm⟩, ⟨.rise, h.symm⟩, ⟨.fall, h.symm⟩, ⟨.matches, h.symm⟩, ⟨.leave, h.symm⟩, ⟨.reinit, h.symm⟩]
  obtain ⟨c, h⟩ := named
  exact ⟨c, BitVec.eq_of_toNat_eq h ▸ c.ofCode_code⟩

/-- A response write as the bytes of the entry give it (11.3). -/
def RespCfg.givenBy (p : RespCfg) (r : Record) : Prop :=
  p.slot.val + 1 = (r.byte 19).toNat ∧ p.index = r.byte 20 ∧ p.data = r.half 22

theorem responseOf_eq_some {r : Record} {p : Option RespCfg} : responseOf r = some p ↔
    ((r.byte 18).toNat = 0 ∧ p = none) ∨ ((r.byte 18).toNat = 1 ∧ ∃ q, p = some q ∧ q.givenBy r) := by
  unfold responseOf
  rw [boolOfCode_eq]
  by_cases zero : (r.byte 18).toNat = 0
  · simp [zero, eq_comm]
  by_cases one : (r.byte 18).toNat = 1
  · simp only [one, Nat.one_ne_zero, if_false, if_true, false_and, false_or, true_and]
    constructor
    · by_cases slot : 1 ≤ (r.byte 19).toNat ∧ (r.byte 19).toNat ≤ 62
      · have address : (r.byte 19).toNat = (r.byte 19).toNat - 1 + 1 := by omega
        rw [slotOfByte_some (a := ⟨(r.byte 19).toNat - 1, by omega⟩) address]
        rintro ⟨rfl⟩
        exact ⟨_, rfl, address.symm, rfl, rfl⟩
      · rw [slotOfByte_none (by omega)]
        intro h
        cases h
    · rintro ⟨⟨slot, index, data⟩, rfl, hSlot, rfl, rfl⟩
      rw [slotOfByte_some (a := slot) hSlot.symm]
  · simp [zero, one]

theorem matchOf_eq_some {r : Record} {c : Cond} {m : Option Half} : matchOf r c = some m ↔
    (c.usesMatch = true → r.half 10 &&& ~~~(r.half 8) = 0) ∧ m = if c.usesMatch then some (r.half 10) else none := by
  unfold matchOf
  by_cases uses : c.usesMatch = true
  · by_cases fits : r.half 10 &&& ~~~(r.half 8) = 0
    · simp only [uses, fits, if_true, true_implies, true_and, Option.some.injEq, eq_comm]
    · simp only [uses, fits, if_true, if_false, true_implies, false_and, reduceCtorEq]
  · simp only [uses, Bool.false_eq_true, if_false, false_implies, true_and, Option.some.injEq, eq_comm]

/-- What step 3 of R112 asks of an entry whose configuration is `c`. -/
theorem watchCfgOf_eq_some {r : Record} {c : WatchCfg} : watchCfgOf r = some c ↔
    tgtOfBytes (r.byte 4) (r.byte 5) = some c.tgt ∧ Cond.ofCode (r.byte 14) = some c.cond ∧
    boolOfCode (r.byte 16) = some c.oneShot ∧ boolOfCode (r.byte 17) = some c.report ∧
    responseOf r = some c.response ∧ matchOf r c.cond = some c.matchValue ∧
    (r.half 8 ≠ 0 ∧ 1 ≤ (r.half 12).toNat ∧ 1 ≤ (r.byte 15).toNat ∧ (r.byte 15).toNat ≤ 8) ∧
    c.index = r.byte 6 ∧ c.mask = r.half 8 ∧ c.interval = (r.half 12).toNat ∧ c.debounce = (r.byte 15).toNat := by
  simp only [watchCfgOf, bind, Option.bind_eq_some_iff, Option.ite_none_right_eq_some, Option.some.injEq]
  constructor
  · rintro ⟨x, hx, k, hk, o, ho, n, hn, p, hp, m, hm, ranges, rfl⟩
    exact ⟨hx, hk, ho, hn, hp, hm, ranges, rfl, rfl, rfl, rfl⟩
  · rintro ⟨hx, hk, ho, hn, hp, hm, ranges, index, mask, interval, debounce⟩
    refine ⟨_, hx, _, hk, _, ho, _, hn, _, hp, _, hm, ranges, ?_⟩
    rw [← index, ← mask, ← interval, ← debounce]

theorem exists_boolOfCode {b : Byte} : (∃ v, boolOfCode b = some v) ↔ b.toNat ≤ 1 := by
  rw [boolOfCode_eq]
  by_cases zero : b.toNat = 0
  · simp [zero]
  by_cases one : b.toNat = 1
  · simp [one]
  · simp only [zero, one, if_false, reduceCtorEq, exists_false, false_iff]
    omega

theorem exists_responseOf {r : Record} : (∃ p, responseOf r = some p) ↔
    (r.byte 18).toNat ≤ 1 ∧ ((r.byte 18).toNat = 1 → 1 ≤ (r.byte 19).toNat ∧ (r.byte 19).toNat ≤ 62) := by
  constructor
  · rintro ⟨p, given⟩
    obtain ⟨zero, -⟩ | ⟨one, q, -, slot, -⟩ := responseOf_eq_some.1 given
    · exact ⟨by omega, fun one => by omega⟩
    · have low := q.slot.isLt
      exact ⟨by omega, fun _ => by omega⟩
  · rintro ⟨code, slot⟩
    by_cases one : (r.byte 18).toNat = 1
    · obtain ⟨low, high⟩ := slot one
      refine ⟨some ⟨⟨(r.byte 19).toNat - 1, by omega⟩, r.byte 20, r.half 22⟩, responseOf_eq_some.2 (.inr ⟨one, _, rfl, ?_⟩)⟩
      exact ⟨Nat.sub_add_cancel low, rfl, rfl⟩
    · exact ⟨none, responseOf_eq_some.2 (.inl ⟨by omega, rfl⟩)⟩

theorem isSome_watchCfgOf (r : Record) : (watchCfgOf r).isSome = true ↔
    (r.byte 4).toNat ≤ 3 ∧ 1 ≤ (r.byte 5).toNat ∧ (r.byte 5).toNat ≤ 62 ∧ r.half 8 ≠ 0 ∧
    1 ≤ (r.byte 14).toNat ∧ (r.byte 14).toNat ≤ 6 ∧ (r.byte 16).toNat ≤ 1 ∧ (r.byte 17).toNat ≤ 1 ∧
    (r.byte 18).toNat ≤ 1 ∧ (4 ≤ (r.byte 14).toNat → r.half 10 &&& ~~~(r.half 8) = 0) ∧ 1 ≤ (r.half 12).toNat ∧
    1 ≤ (r.byte 15).toNat ∧ (r.byte 15).toNat ≤ 8 ∧
    ((r.byte 18).toNat = 1 → 1 ≤ (r.byte 19).toNat ∧ (r.byte 19).toNat ≤ 62) := by
  rw [Option.isSome_iff_exists]
  constructor
  · rintro ⟨c, given⟩
    obtain ⟨tgt, cond, oneShot, report, response, value, ⟨mask, interval, low, high⟩, -⟩ := watchCfgOf_eq_some.1 given
    obtain ⟨segment, address⟩ := tgtOfBytes_eq_some.1 tgt
    have code := Cond.code_of_ofCode cond
    obtain ⟨codeLow, codeHigh⟩ := c.cond.code_range
    obtain ⟨presence, slot⟩ := exists_responseOf.1 ⟨_, response⟩
    obtain ⟨fits, -⟩ := matchOf_eq_some.1 value
    rw [Cond.usesMatch_iff] at fits
    rw [code] at codeLow codeHigh fits
    have g := c.tgt.seg.isLt
    have a := c.tgt.slot.isLt
    unfold Tgt.address at address
    exact ⟨by omega, by omega, by omega, mask, codeLow, codeHigh, exists_boolOfCode.1 ⟨_, oneShot⟩,
      exists_boolOfCode.1 ⟨_, report⟩, presence, fits, interval, low, high, slot⟩
  · rintro ⟨segment, addressLow, addressHigh, mask, codeLow, codeHigh, oneShot, report, presence, fits, interval, low,
      high, slot⟩
    obtain ⟨k, cond⟩ := Cond.exists_code codeLow codeHigh
    obtain ⟨o, oneShot⟩ := exists_boolOfCode.2 oneShot
    obtain ⟨n, report⟩ := exists_boolOfCode.2 report
    obtain ⟨p, response⟩ := exists_responseOf.2 ⟨presence, slot⟩
    have tgt : tgtOfBytes (r.byte 4) (r.byte 5) =
        some ⟨⟨(r.byte 4).toNat, by omega⟩, ⟨(r.byte 5).toNat - 1, by omega⟩⟩ :=
      tgtOfBytes_some rfl (Nat.sub_add_cancel addressLow).symm
    have value : matchOf r k = some (if k.usesMatch then some (r.half 10) else none) :=
      matchOf_eq_some.2 ⟨fun uses => fits (Cond.code_of_ofCode cond ▸ k.usesMatch_iff.1 uses), rfl⟩
    exact ⟨{ tgt := _, index := r.byte 6, mask := r.half 8, cond := k, matchValue := _,
             interval := (r.half 12).toNat, debounce := (r.byte 15).toNat, oneShot := o, report := n, response := p },
      watchCfgOf_eq_some.2 ⟨tgt, cond, oneShot, report, response, value, ⟨mask, interval, low, high⟩, rfl, rfl, rfl, rfl⟩⟩

theorem watchCfgOf_fields {r : Record} {c : WatchCfg} (given : watchCfgOf r = some c) :
    c.tgt.seg.val = (r.byte 4).toNat ∧ c.tgt.address = (r.byte 5).toNat ∧ c.index = r.byte 6 ∧ c.mask = r.half 8 ∧
    c.interval = (r.half 12).toNat ∧ c.cond.code = r.byte 14 ∧ c.debounce = (r.byte 15).toNat ∧
    (c.oneShot = true ↔ (r.byte 16).toNat = 1) ∧ (c.report = true ↔ (r.byte 17).toNat = 1) ∧
    (c.matchValue = if 4 ≤ (r.byte 14).toNat then some (r.half 10) else none) ∧
    (c.response = none ↔ (r.byte 18).toNat = 0) ∧
    ∀ p, c.response = some p → p.slot.val + 1 = (r.byte 19).toNat ∧ p.index = r.byte 20 ∧ p.data = r.half 22 := by
  obtain ⟨tgt, cond, oneShot, report, response, value, -, index, mask, interval, debounce⟩ := watchCfgOf_eq_some.1 given
  obtain ⟨segment, address⟩ := tgtOfBytes_eq_some.1 tgt
  have code := Cond.code_of_ofCode cond
  have flag {b : Byte} {v : Bool} (h : boolOfCode b = some v) : v = true ↔ b.toNat = 1 := by
    rw [boolOfCode_eq_some.1 h]
    cases v <;> decide
  refine ⟨segment.symm, address.symm, index, mask, interval, code, debounce, flag oneShot, flag report, ?_, ?_, ?_⟩
  · obtain ⟨-, value⟩ := matchOf_eq_some.1 value
    rw [value, ← code]
    exact if_congr c.cond.usesMatch_iff rfl rfl
  · obtain ⟨zero, absent⟩ | ⟨one, q, present, -⟩ := responseOf_eq_some.1 response
    · simp [zero, absent]
    · simp [one, present]
  · intro p hp
    obtain ⟨-, absent⟩ | ⟨-, q, present, givenBy⟩ := responseOf_eq_some.1 response
    · rw [absent] at hp
      cases hp
    · obtain rfl := Option.some.inj (present.symm.trans hp)
      exact givenBy

/-! ### WATCH_ADD and WATCH_ARM -/

theorem entered_setWatch_standing (s : State) (tag : Nat) (r : Record) (w : WatchId) (x : Option Watch) :
    ((s.entered tag r).setWatch w x).standing = ((s.headMoved 0).setWatch w x).standing := by
  rw [setWatch_standing, setWatch_standing, entered_standing]

theorem State.watchesRun_iff (s : State) (g : SegId) :
    s.watchesRun g = true ↔ (s.seg g).state = .active ∧ s.ctl.engine = .running := by
  simp [State.watchesRun]

theorem runWatchAdd_exists {r : Record} {w : WatchId} {s : State} (id : watchOfByte (r.byte 7) = some w)
    (used : (s.watch w).isSome = true) : runWatchAdd r s = s.adminDone .watchExists none := by
  rw [runWatchAdd, id]
  exact if_pos used

theorem runWatchAdd_bad {r : Record} {w : WatchId} {s : State} (id : watchOfByte (r.byte 7) = some w)
    (unused : s.watch w = none) (bad : watchCfgOf r = none) : runWatchAdd r s = s.adminDone .invalidField none := by
  rw [runWatchAdd, id]
  refine (if_neg (by simp [unused])).trans ?_
  rw [bad]

theorem runWatchAdd_added {r : Record} {w : WatchId} {c : WatchCfg} {s : State} (id : watchOfByte (r.byte 7) = some w)
    (unused : s.watch w = none) (good : watchCfgOf r = some c) : runWatchAdd r s =
      (s.setWatch w (some { Watch.new c with
        state := if (s.seg c.tgt.seg).state = .active ∧ s.ctl.engine = .running then .armed else .halted
        nextDue := if (s.seg c.tgt.seg).state = .active ∧ s.ctl.engine = .running
          then some (s.now + c.interval) else none })).adminDone .success none := by
  rw [runWatchAdd, id]
  refine (if_neg (by simp [unused])).trans ?_
  rw [good]
  refine congrArg (fun x => (s.setWatch w (some x)).adminDone .success none) ?_
  by_cases run : (s.seg c.tgt.seg).state = .active ∧ s.ctl.engine = .running
  · simp only [(s.watchesRun_iff _).2 run, if_true, if_pos run]
  · simp only [mt (s.watchesRun_iff _).1 run, if_neg run]
    rfl

theorem runWatchArm_fired {r : Record} {w : WatchId} {x : Watch} {s : State} (id : watchOfByte (r.byte 7) = some w)
    (watch : s.watch w = some x) (fired : x.state = .fired) : runWatchArm r s =
      (s.setWatch w (some (if (s.seg x.cfg.tgt.seg).state = .active ∧ s.ctl.engine = .running
        then { x with state := .armed, nextDue := some (s.now + x.cfg.interval) }
        else { x with state := .halted }))).adminDone .success none := by
  simp only [runWatchArm, id, watch, fired, if_true]
  refine congrArg (fun x => (s.setWatch w (some x)).adminDone .success none) ?_
  exact if_congr (s.watchesRun_iff _) rfl rfl

theorem runWatchArm_other {r : Record} {w : WatchId} {x : Watch} {s : State} (id : watchOfByte (r.byte 7) = some w)
    (watch : s.watch w = some x) (other : x.state ≠ .fired) : runWatchArm r s = s.adminDone .success none := by
  simp only [runWatchArm, id, watch, other, if_false]

/-- Settles O32: the checks are branches of the rule, and the configuration is its bytes, field by field. -/
theorem watchAddChecks : Obligations.WatchAddChecks := by
  refine ⟨isSome_watchCfgOf, fun r c => watchCfgOf_fields,
    fun tag b s takes => ⟨_, done_adminEntry runWatchAdd takes, fun bad => ?_, fun w id =>
      ⟨fun used => ?_, fun unused bad => ?_, fun c unused good => ?_⟩⟩⟩
  · rw [runWatchAdd, watchOfByte_none bad]
    exact adminDone_only takes _
  · rw [runWatchAdd_exists (watchOfByte_some id) (by rwa [entered_watch])]
    exact adminDone_only takes _
  · rw [runWatchAdd_bad (watchOfByte_some id) (by rwa [entered_watch]) bad]
    exact adminDone_only takes _
  · rw [runWatchAdd_added (watchOfByte_some id) (by rwa [entered_watch]) good, entered_seg]
    exact queueDone_completed takes rfl rfl (entered_setWatch_standing s tag _ w _)

/-! ### WATCH_REMOVE -/

/-- A watch that WATCH_REMOVE has withdrawn, while its poll is on the wire (R114). -/
def Watch.withdrawn (x : Watch) : Watch :=
  { x with nextDue := none, poll := if x.poll == .onWire then .onWire else .none, retryEnd := none, respPending := false,
           held := none }

theorem runWatchRemove_eq {r : Record} {w : WatchId} {x : Watch} {s : State} (id : watchOfByte (r.byte 7) = some w)
    (watch : s.watch w = some x) : runWatchRemove r s =
      if x.poll = .onWire then ((s.updSeg x.cfg.tgt.seg (·.forgetWatch w)).setWatch w x.withdrawn).adminWaits (.removingWatch w)
      else (((s.updSeg x.cfg.tgt.seg (·.forgetWatch w)).setWatch w x.withdrawn).setWatch w none).adminDone .success none := by
  simp only [runWatchRemove, id, watch]
  exact if_congr beq_iff_eq rfl rfl

/-- A watch is withdrawn from its segment, and no other watch and no other segment is touched (R114). -/
def State.withdraws (s t : State) (w : WatchId) (g : SegId) : Prop :=
  (∀ d, d ∈ (t.seg g).duePolls ↔ d ∈ (s.seg g).duePolls ∧ d.watch ≠ w) ∧
  (∀ e, e ∈ (t.seg g).writes ↔ e ∈ (s.seg g).writes ∧ ∀ p, e = .response p → p.watch ≠ w) ∧
  (∀ d, d ∈ (t.seg g).respDelays ↔ d ∈ (s.seg g).respDelays ∧ d.write.watch ≠ w) ∧
  (t.seg g).wire = (s.seg g).wire.map (·.orphaned w) ∧
  (∀ v, v ≠ w → t.watch v = s.watch v) ∧ ∀ h, h ≠ g → (t.seg h).standing = (s.seg h).standing

theorem withdraws_of_standing {s t u : State} {w : WatchId} {g : SegId} (stands : t.standing = u.standing)
    (segs : u.segs = (s.updSeg g (·.forgetWatch w)).segs) (watches : ∀ v, v ≠ w → u.watch v = s.watch v) :
    s.withdraws t w g := by
  have seg (h : SegId) : (t.seg h).standing = ((s.updSeg g (·.forgetWatch w)).seg h).standing := by
    rw [← standing_seg, stands, standing_seg]
    exact congrArg (fun v : Vector SegCtl 4 => (v.get h).standing) segs
  have here : (t.seg g).standing = ((s.seg g).forgetWatch w).standing := by rw [seg, State.seg_updSeg_same]
  have duePolls : (t.seg g).duePolls = ((s.seg g).forgetWatch w).duePolls := (congrArg SegCtl.duePolls here :)
  have writes : (t.seg g).writes = ((s.seg g).forgetWatch w).writes := (congrArg SegCtl.writes here :)
  have delays : (t.seg g).respDelays = ((s.seg g).forgetWatch w).respDelays := (congrArg SegCtl.respDelays here :)
  have wire : (t.seg g).wire = ((s.seg g).forgetWatch w).wire := (congrArg SegCtl.wire here :)
  refine ⟨fun d => ?_, fun e => ?_, fun d => ?_, wire, fun v other => ?_, fun h other => ?_⟩
  · simp [duePolls, SegCtl.forgetWatch]
  · rw [writes, SegCtl.forgetWatch, List.mem_filter]
    refine and_congr_right fun _ => ?_
    cases e with
    | response p => simp
    | job x => simp
  · simp [delays, SegCtl.forgetWatch]
  · rw [← standing_watch, stands, standing_watch, watches v other]
  · rw [seg, State.seg_updSeg, if_neg (Ne.symm other)]

/-- Settles O33: WATCH_ARM by its branches; what WATCH_REMOVE withdraws, then whether it completes or waits. -/
theorem watchArmAndRemove : Obligations.WatchArmAndRemove := by
  refine ⟨fun tag b s takes => ⟨_, done_adminEntry runWatchArm takes, fun bad => ?_, fun w id =>
      ⟨fun absent => ?_, fun x watch => ?_⟩⟩,
    fun tag b s takes => ⟨_, done_adminEntry runWatchRemove takes, fun bad => ?_, fun w id =>
      ⟨fun absent => ?_, fun x watch => ?_⟩⟩⟩
  · rw [runWatchArm, watchOfByte_none bad]
    exact adminDone_only takes _
  · simp only [runWatchArm, watchOfByte_some id, entered_watch, absent]
    exact adminDone_only takes _
  · have watch := (entered_watch s tag (Record.of 0x52 b) w).trans watch
    split
    next other =>
      rw [runWatchArm_other (watchOfByte_some id) watch other]
      exact adminDone_only takes _
    next fired =>
      rw [runWatchArm_fired (watchOfByte_some id) watch (not_not.1 fired), entered_seg]
      exact queueDone_completed takes rfl rfl (entered_setWatch_standing s tag _ w _)
  · rw [runWatchRemove, watchOfByte_none bad]
    exact adminDone_only takes _
  · simp only [runWatchRemove, watchOfByte_some id, entered_watch, absent]
    exact adminDone_only takes _
  · rw [runWatchRemove_eq (watchOfByte_some id) ((entered_watch s tag (Record.of 0x51 b) w).trans watch)]
    have others (u : State) (y z : Option Watch) (v : WatchId) (other : v ≠ w) :
        ((u.setWatch w y).setWatch w z).watch v = u.watch v := by
      rw [State.watch_setWatch, if_neg (Ne.symm other), State.watch_setWatch, if_neg (Ne.symm other)]
    let u := (s.entered tag (Record.of 0x51 b)).updSeg x.cfg.tgt.seg (·.forgetWatch w)
    have segs : u.segs = (s.updSeg x.cfg.tgt.seg (·.forgetWatch w)).segs := rfl
    split
    next onWire =>
      obtain ⟨waiting, stands⟩ := adminWaits_waiting (s := s) (tag := tag) (r := Record.of 0x51 b)
        (u := u.setWatch w x.withdrawn) (p := .removingWatch w) rfl (fun _ h => nomatch h)
      obtain ⟨polls, writes, delays, wire, watches, others⟩ := withdraws_of_standing stands segs fun v other => by
        rw [State.watch_setWatch, if_neg (Ne.symm other)]
        rfl
      refine ⟨polls, writes, delays, wire, watches, others, fun off => absurd onWire off, fun _ => ⟨waiting, ?_⟩⟩
      rw [← standing_watch, stands, standing_watch, State.watch_setWatch_same, Watch.withdrawn, onWire]
      rfl
    next offWire =>
      obtain ⟨completed, stands⟩ := adminDone_completed takes .success none
        (u := (u.setWatch w x.withdrawn).setWatch w none) rfl rfl
      obtain ⟨polls, writes, delays, wire, watches, others⟩ :=
        withdraws_of_standing stands segs (others u x.withdrawn none)
      refine ⟨polls, writes, delays, wire, watches, others, fun _ => ⟨completed, ?_⟩, fun on => absurd on offWire⟩
      rw [← standing_watch, stands, standing_watch, State.watch_setWatch_same]

end Sys2Proof.Machine
end

section
/-! PROOFS. RESTORE_ADD and RESTORE_DROP (R133 to R137, R143, R144). -/

namespace Sys2Proof.Machine

set_option Elab.async false -- one thread elaborates: the checker's memory is limited

/-! ### RESTORE_ADD -/

theorem mem_restoreList (s : State) (x : Tgt) (e : PoolEntry) : e ∈ s.restoreList x ↔ e ∈ s.pool ∧ e.tgt = x := by
  simp [State.restoreList]

theorem canRecord_iff (s : State) (x : Tgt) (i : Byte) :
    s.canRecord x i = true ↔ (∃ d ∈ s.pool, d.tgt = x ∧ d.index = i) ∨ s.pool.length < 384 := by
  simp only [State.canRecord, Bool.or_eq_true, List.any_eq_true, mem_restoreList, beq_iff_eq, decide_eq_true_eq, and_assoc]
  rfl

theorem mem_record {s : State} (inv : s.poolInv) (e d : PoolEntry) :
    d ∈ (s.record e.tgt e.index e.value).pool ↔ d = e ∨ (d ∈ s.pool ∧ ¬ (d.tgt = e.tgt ∧ d.index = e.index)) := by
  obtain ⟨sorted, -⟩ := inv
  exact (mem_poolPut sorted).trans (by rw [ne_eq, PoolEntry.key_eq])

theorem length_record {s : State} (inv : s.poolInv) (e : PoolEntry) :
    ((∃ d ∈ s.pool, d.tgt = e.tgt ∧ d.index = e.index) →
      (s.record e.tgt e.index e.value).pool.length = s.pool.length) ∧
    (¬ (∃ d ∈ s.pool, d.tgt = e.tgt ∧ d.index = e.index) →
      (s.record e.tgt e.index e.value).pool.length = s.pool.length + 1) := by
  obtain ⟨sorted, -⟩ := inv
  have length := length_poolPut (e := e) sorted
  simp only [PoolEntry.key_eq] at length
  exact ⟨fun held => length.trans (if_pos held), fun new => length.trans (if_neg new)⟩

theorem settle_adminDone_pool (s : State) (st : Status) (v : Option Half) : (s.adminDone st v).settle.pool = s.pool := by
  obtain ⟨pool, -⟩ := settle_fields (s.adminDone st v)
  exact pool.trans (by simp)

theorem restoreAdd_recorded {s : State} {tag : Nat} {r : Record} (takes : s.takesAdmin tag r) (inv : s.poolInv)
    (e : PoolEntry) {t : State}
    (ht : t = (((s.entered tag r).record e.tgt e.index e.value).adminDone .success
      (some (BitVec.ofNat 16 (384 - ((s.entered tag r).record e.tgt e.index e.value).pool.length)))).settle) :
    t.adminCompleted r .success (some (BitVec.ofNat 16 (384 - t.pool.length))) ∧
    (∀ d, d ∈ t.pool ↔ d = e ∨ (d ∈ s.pool ∧ ¬ (d.tgt = e.tgt ∧ d.index = e.index))) ∧
    ((∃ d ∈ s.pool, d.tgt = e.tgt ∧ d.index = e.index) → t.pool.length = s.pool.length) ∧
    (¬ (∃ d ∈ s.pool, d.tgt = e.tgt ∧ d.index = e.index) → t.pool.length = s.pool.length + 1) ∧
    t.standing = ({ s.headMoved 0 with pool := t.pool } : State).standing := by
  let u := (s.entered tag r).record e.tgt e.index e.value
  have pool : t.pool = (s.record e.tgt e.index e.value).pool := ht ▸ settle_adminDone_pool u _ _
  obtain ⟨completed, stands⟩ := adminDone_completed takes (u := u) .success
    (some (BitVec.ofNat 16 (384 - u.pool.length))) rfl rfl
  obtain ⟨held, new⟩ := length_record inv e
  rw [pool]
  refine ⟨ht ▸ completed, fun d => mem_record inv e d, held, new, ht ▸ stands.trans ?_⟩
  exact congrArg (fun u : State => ({ u with pool := (s.record e.tgt e.index e.value).pool } : State))
    (entered_standing s tag r)

/-! ### RESTORE_DROP -/

/-- The entries that RESTORE_DROP frees, as the statement says it (R137). -/
theorem dropSelects_eq {x : Tgt} {all : Bool} {i k : Byte} (code : k.toNat = if all then 1 else 0) :
    dropSelects x all i = fun e => decide (e.tgt = x ∧ (k.toNat = 1 ∨ e.index = i)) := by
  funext e
  have whole : k.toNat = 1 ↔ all = true := by
    rw [code]
    cases all <;> decide
  rw [Bool.eq_iff_iff]
  simp [dropSelects, whole]

theorem runRestoreDrop_bad {r : Record} (bad : tgtOfBytes (r.byte 4) (r.byte 5) = none ∨ 2 ≤ (r.byte 7).toNat) (s : State) :
    runRestoreDrop r s = s.adminDone .invalidField none := by
  unfold runRestoreDrop
  obtain target | selector := bad
  · rw [target]
  · rw [boolOfCode_eq, if_neg (by omega), if_neg (by omega)]
    cases tgtOfBytes (r.byte 4) (r.byte 5) <;> rfl

/-- The state with the selected entries of a target freed (R137). -/
def State.freed (s : State) (p : PoolEntry → Bool) : State := { s with pool := s.pool.filter (fun e => !p e) }

theorem runRestoreDrop_eq {r : Record} {x : Tgt} (target : tgtOfBytes (r.byte 4) (r.byte 5) = some x)
    (selector : (r.byte 7).toNat ≤ 1) (s : State) : runRestoreDrop r s =
      ((s.freed fun e => decide (e.tgt = x ∧ ((r.byte 7).toNat = 1 ∨ e.index = r.byte 6))).endJobIfOver x).adminDone .success
        (some (BitVec.ofNat 16
          (s.pool.countP fun e => decide (e.tgt = x ∧ ((r.byte 7).toNat = 1 ∨ e.index = r.byte 6))))) := by
  obtain ⟨all, code⟩ := exists_boolOfCode.2 selector
  rw [runRestoreDrop, target, code]
  dsimp only
  rw [dropSelects_eq (boolOfCode_eq_some.1 code)]
  rfl

theorem endJobIfOver_none {s : State} {x : Tgt} (none : s.job x = none) : s.endJobIfOver x = s := by
  rw [State.endJobIfOver, none]

theorem job_tgt {s : State} {x : Tgt} {j : Job} (job : s.job x = some j) : j.tgt = x := by
  simpa using List.find?_some job

theorem endJobIfOver_over {s : State} {x : Tgt} {j : Job} (job : s.job x = some j) (idle : j.inFlight = none)
    (nothing : ∀ e ∈ s.pool, e.tgt = x → ∃ k, j.cursor = some k ∧ e.index.toNat ≤ k.toNat) : s.endJobIfOver x =
      ((s.removeJob x).replayEnd x).handEvent (.restoreDone x j.written j.failed j.firstFailed none 0) := by
  have above : s.restoreAbove j.tgt j.cursor = [] := by
    refine List.filter_eq_nil_iff.2 fun e he => ?_
    rw [job_tgt job, mem_restoreList] at he
    obtain ⟨k, cursor, le⟩ := nothing e he.1 he.2
    rw [cursor]
    simpa using le
  rw [State.endJobIfOver, job]
  exact if_pos (by simp [State.jobOver, above, idle])

theorem replayEnd_pres (s : State) (x : Tgt) : (s.replayEnd x).pres x =
    if (s.pres x).state = .restoring then { s.pres x with state := .present } else s.pres x := by
  unfold State.replayEnd State.isRestoring
  by_cases restoring : (s.pres x).state = .restoring
  · rw [if_pos (by simpa using restoring), if_pos restoring, State.pres_setPres_same]
  · rw [if_neg (by simpa using restoring), if_neg restoring]

/-- What the Event Unit makes of an event is a matter of the engine state and of the Event Unit alone. -/
theorem handEvent_ev_congr {s t : State} (ctl : t.ctl = s.ctl) (ev : t.ev = s.ev) (e : Event) :
    (t.handEvent e).ev = (s.handEvent e).ev := by
  by_cases failed : s.ctl.engine = .failed
  · rw [State.handEvent_discarded e (.inl failed), State.handEvent_discarded e (.inl (ctl ▸ failed)), ev]
  cases ring : s.ev.ring with
  | none => rw [State.handEvent_discarded e (.inr ring), State.handEvent_discarded e (.inr (ev ▸ ring)), ev]
  | some r =>
    rw [State.handEvent_of_ring e failed ring, State.handEvent_of_ring e (ctl ▸ failed) (ev ▸ ring), ev]
    rw [apply_ite State.ev, apply_ite State.ev, apply_ite State.ev, apply_ite State.ev]
    simp only [State.setRing, State.setBacklog, State.setLost, ev]

theorem restoreDrop_ends {s t u : State} {x : Tgt} {j : Job} (stands : t.standing = (u.endJobIfOver x).standing)
    (jobs : u.jobs = s.jobs) (presence : u.presence = s.presence) (ctl : u.ctl = s.ctl) (ev : u.ev = s.ev)
    (job : s.job x = some j) (idle : j.inFlight = none)
    (nothing : ∀ e ∈ u.pool, e.tgt = x → ∃ k, j.cursor = some k ∧ e.index.toNat ≤ k.toNat) :
    t.jobs = s.jobs.filter (fun k => k.tgt ≠ x) ∧
    t.pres x = (if (s.pres x).state = .restoring then { s.pres x with state := .present } else s.pres x) ∧
    t.ev.standing = (s.handEvent (.restoreDone x j.written j.failed j.firstFailed none 0)).ev.standing := by
  have job : u.job x = some j := by rw [State.job, jobs]; exact job
  rw [endJobIfOver_over job idle nothing] at stands
  refine ⟨(congrArg State.jobs stands).trans ?_, (congrArg (State.pres · x) stands).trans ?_,
    (congrArg State.ev stands).trans ?_⟩
  · change (((u.removeJob x).replayEnd x).handEvent _).jobs = _
    simp [State.removeJob, jobs]
  · change (((u.removeJob x).replayEnd x).handEvent _).pres x = _
    have same : (u.removeJob x).pres x = s.pres x := congrArg (fun v : Vector (Vector PresEntry 62) 4 => (v.get x.seg).get x.slot) presence
    simp only [State.handEvent_frame, replayEnd_pres, same]
  · rw [standing_ev]
    exact congrArg EventUnit.standing (handEvent_ev_congr (by simp [ctl]) (by simp [ev]) _)

/-- Settles O34: the pool's order and length after a recording; what a drop frees, and the job that it leaves nothing. -/
theorem restoreAddAndDrop : Obligations.RestoreAddAndDrop := by
  refine ⟨fun tag b s takes inv => ⟨_, done_adminEntry runRestoreAdd takes, fun bad => ?_, fun x segment address =>
      ⟨fun fits => ?_, fun full => ?_⟩⟩,
    fun tag b s takes => ⟨_, done_adminEntry runRestoreDrop takes, fun bad => ?_, fun x segment address selector => ?_⟩⟩
  · rw [runRestoreAdd, tgtOfBytes_none bad]
    exact adminDone_only takes _
  · rw [runRestoreAdd, tgtOfBytes_some segment address]
    refine restoreAdd_recorded takes inv ⟨x, (Record.of 0x58 b).byte 6, (Record.of 0x58 b).half 8⟩
      (congrArg State.settle (if_pos ((canRecord_iff _ _ _).2 ?_)))
    exact fits
  · rw [runRestoreAdd, tgtOfBytes_some segment address]
    have full : ¬ (s.entered tag (Record.of 0x58 b)).canRecord x ((Record.of 0x58 b).byte 6) = true :=
      mt (canRecord_iff _ _ _).1 full
    dsimp only
    rw [if_neg full]
    exact adminDone_only takes _
  · rw [runRestoreDrop_bad (by
      obtain segment | zero | high | selector := bad
      · exact .inl (tgtOfBytes_none (.inl segment))
      · exact .inl (tgtOfBytes_none (.inr (.inl zero)))
      · exact .inl (tgtOfBytes_none (.inr (.inr high)))
      · exact .inr selector)]
    exact adminDone_only takes _
  · rw [runRestoreDrop_eq (tgtOfBytes_some segment address) selector]
    intro drops
    let u := (s.entered tag (Record.of 0x59 b)).freed drops
    obtain ⟨completed, stands⟩ := adminDone_completed takes (u := u.endJobIfOver x) .success
      (some (BitVec.ofNat 16 (s.pool.countP drops))) (by simp [u, State.freed]) (by simp only [State.endJobIfOver_frame]; rfl)
    refine ⟨completed, ?_, fun none => stands.trans ?_, fun j job idle nothing => ?_⟩
    · rw [settle_adminDone_pool]
      simp [State.freed, drops]
    · rw [endJobIfOver_none (s := u) none]
      exact congrArg (fun v : State => ({ v with pool := s.pool.filter fun e => !drops e } : State))
        (entered_standing s tag _)
    · refine restoreDrop_ends stands rfl rfl rfl rfl job idle fun e he tgt => ?_
      obtain ⟨mem, kept⟩ := List.mem_filter.1 he
      exact nothing e mem tgt (by simpa using kept)

end Sys2Proof.Machine
end

section
/-! PROOFS. Two facts about what follows by itself (`State.settle`) and about the ends of contexts: no context is taken, and
a completion queue that is not ACTIVE stays as it is (R46, R47, R50). -/

namespace Sys2Proof.Machine

set_option Elab.async false -- one thread elaborates: the checker's memory is limited

/-! ### No context is taken -/

theorem shrinks_releaseFence (s : State) (n : CtxNum) : Shrinks s (s.releaseFence n) := by
  rw [State.releaseFence]
  split
  next => exact .refl s
  next =>
    split
    · exact shrinks_becomeReady s n .success
    · exact .refl s

theorem shrinks_moveStaged (s : State) (n : CtxNum) : Shrinks s (s.moveStaged n) := by
  rw [State.moveStaged]
  split
  next => exact .refl s
  next =>
    split
    · exact shrinks_place s n
    · exact .refl s

theorem shrinks_reachMember (s : State) (g : SegId) : Shrinks s (s.reachMember g) := by
  rw [State.reachMember]
  split
  · split
    · exact .of_eq (by simp)
    · split
      · exact shrinks_updCtx s _ fun _ => rfl
      · exact .refl s
  · exact .refl s

theorem shrinks_deleteIfOver (s : State) : Shrinks s s.deleteIfOver := by
  rw [State.deleteIfOver]
  split
  · split
    · exact Shrinks.trans (.of_eq (by simp)) (shrinks_adminDone _ _ _)
    · exact .refl s
  · exact .refl s

theorem shrinks_lockChance (s : State) (q : SqId) : Shrinks s (s.lockChance q) := by
  unfold State.lockChance
  split
  next n _ =>
    split
    · exact (shrinks_takeLock s n).trans (.of_eq (by simp))
    · exact .refl s
  next => exact .refl s

theorem shrinks_offerTurns (l : List SqId) (s : State) : Shrinks s (State.offerTurns l s) := by
  induction l generalizing s with
  | nil => exact .refl s
  | cons q l ih =>
    rw [State.offerTurns]
    refine (shrinks_lockChance s q).trans ?_
    split
    · exact .of_eq (by simp)
    · refine Shrinks.trans ?_ (ih _)
      split
      · exact .of_eq (by simp)
      · exact .refl _

theorem shrinks_ioFetch (s : State) : Shrinks s s.ioFetch := by
  rw [State.ioFetch]
  refine Shrinks.trans (u := _) (t := s.endTurnIfOver) (.of_eq (by simp)) ?_
  split
  · exact .refl _
  · split
    · exact .of_eq (by simp)
    · exact shrinks_offerTurns _ _

theorem settle_shrinks (s : State) : Shrinks s s.settle := by
  have fences : Shrinks s s.releaseFences := Shrinks.foldl shrinks_releaseFence _ s
  have staged (u : State) : Shrinks u u.moveAllStaged := Shrinks.foldl shrinks_moveStaged _ u
  have members (u : State) : Shrinks u u.reachMembers := Shrinks.foldl shrinks_reachMember _ u
  have writes (u : State) : Shrinks u u.postAll.issueEvent.adminFetch := .of_eq (by simp)
  have paused (u : State) : Shrinks u u.pauseIfQuiet := .of_eq (by simp)
  unfold State.settle
  exact (((((fences.trans (staged _)).trans (members _)).trans (shrinks_deleteIfOver _)).trans (writes _)).trans
    (shrinks_ioFetch _)).trans (paused _)

/-- A context number that is not out of FREE is not taken by what shrinks the context list. -/
theorem Shrinks.not_mem {s t : State} (h : Shrinks s t) {n : CtxNum} (free : ∀ c ∈ s.ctxs, c.num ≠ n) :
    ∀ c ∈ t.ctxs, c.num ≠ n := by
  intro c hc num
  obtain ⟨d, hd, same⟩ := List.mem_map.1 (h.subset (List.mem_map.2 ⟨c, hc, num⟩))
  exact free d hd same

theorem freeCtx_not_mem (s : State) (n : CtxNum) : ∀ c ∈ (s.freeCtx n).ctxs, c.num ≠ n := by
  intro c hc
  simpa using (List.mem_filter.1 hc).2

/-! ### Completion queues that are not ACTIVE -/

theorem foldl_closed {β : Type} {c : CqId} {f : State → β → State}
    (h : ∀ s b, (s.cq c).state ≠ .active → (f s b).cq c = s.cq c) (l : List β) {s : State} (closed : (s.cq c).state ≠ .active) :
    (l.foldl f s).cq c = s.cq c := by
  induction l generalizing s with
  | nil => rfl
  | cons b l ih =>
    have one := h s b closed
    rw [List.foldl_cons, ih (one ▸ closed), one]

section

variable {s : State} {c : CqId}

theorem closed_of_same {u : State} (same : u.cq c = s.cq c) (closed : (s.cq c).state ≠ .active) :
    (u.cq c).state ≠ .active := by rwa [same]

theorem cq_becomeReady_closed (n : CtxNum) (st : Status) (closed : (s.cq c).state ≠ .active) :
    (s.becomeReady n st).cq c = s.cq c := by
  rw [State.becomeReady]
  split
  next => rfl
  next d _ =>
    dsimp only
    split
    next active =>
      have other : ((s.unlist d).sq d.sq).bound ≠ c := fun same => closed (by simpa [same] using active)
      rw [State.cq_updCq, if_neg other]
      simp
    next => simp

theorem cq_finish_closed (n : CtxNum) (st : Status) (closed : (s.cq c).state ≠ .active) :
    (s.finish n st).cq c = s.cq c := by
  rw [State.finish]
  split
  next => rfl
  next =>
    split
    · simp
    · exact cq_becomeReady_closed n st closed

theorem cq_cancel_closed (st : Status) (n : CtxNum) (closed : (s.cq c).state ≠ .active) :
    (State.cancel st s n).cq c = s.cq c := by
  rw [State.cancel]
  split
  next => rfl
  next d _ =>
    dsimp only
    rw [cq_finish_closed n st]
    all_goals split
    all_goals first | (split <;> simp [closed]) | simp [closed]

theorem cq_abortChain_closed (id : Nat) (closed : (s.cq c).state ≠ .active) : (s.abortChain id).cq c = s.cq c := by
  rw [State.abortChain]
  rw [State.mapSqs_cq]
  exact foldl_closed (fun _ n => cq_cancel_closed .chainAborted n) _ closed

theorem cq_adminDone_closed (st : Status) (v : Option Half) (closed : (s.cq c).state ≠ .active) :
    (s.adminDone st v).cq c = s.cq c := by
  rw [State.adminDone]
  split
  next => rfl
  next =>
    split
    next active =>
      have other : (0 : CqId) ≠ c := fun same => closed (same ▸ active)
      dsimp only
      rw [State.cq_updCq, if_neg other]
      rfl
    next => rfl

theorem cq_post_closed (k : CqId) (closed : (s.cq c).state ≠ .active) : (s.post k).cq c = s.cq c := by
  rw [State.post]
  split
  next => rfl
  next =>
    split
    next may =>
      obtain ⟨-, active, -⟩ := may
      have other : k ≠ c := fun same => closed (same ▸ active)
      rw [State.cq_setCq, if_neg other]
      rfl
    next => rfl

theorem cq_releaseFences_closed (closed : (s.cq c).state ≠ .active) : s.releaseFences.cq c = s.cq c := by
  refine foldl_closed (fun u n h => ?_) _ closed
  rw [State.releaseFence]
  split
  next => rfl
  next =>
    split
    · exact cq_becomeReady_closed n .success h
    · rfl

theorem cq_deleteIfOver_closed (closed : (s.cq c).state ≠ .active) : s.deleteIfOver.cq c = s.cq c := by
  rw [State.deleteIfOver]
  split
  · split
    · exact cq_adminDone_closed _ _ closed
    · rfl
  · rfl

theorem cq_postAll_closed (closed : (s.cq c).state ≠ .active) : s.postAll.cq c = s.cq c :=
  foldl_closed (fun _ k => cq_post_closed k) _ closed

theorem cq_settle_closed (closed : (s.cq c).state ≠ .active) : s.settle.cq c = s.cq c := by
  have fences := cq_releaseFences_closed closed
  have members (u : State) : u.moveAllStaged.reachMembers.cq c = u.cq c := by simp
  have moved := (members s.releaseFences).trans fences
  have deleted := (cq_deleteIfOver_closed (closed_of_same moved closed)).trans moved
  have posted := (cq_postAll_closed (closed_of_same deleted closed)).trans deleted
  have last (u : State) : u.issueEvent.adminFetch.ioFetch.pauseIfQuiet.cq c = u.cq c := by simp
  exact (last _).trans posted

end

end Sys2Proof.Machine
end

section
/-! PROOFS. Queue errors and the index writes that cause them (R44, R49, R54 to R56, R96, R164), and the outcomes of
completion writes (R47, R48, R59). -/

namespace Sys2Proof.Machine

set_option Elab.async false -- one thread elaborates: the checker's memory is limited

/-! ### A submission queue goes to ERROR -/

theorem sqError_of_not_active {s : State} {q : SqId} (cause : QueueCause) (h : (s.sq q).state ≠ .active) :
    s.sqError cause q = s := if_neg h

/-- The queue's own part of a queue error: ERROR, QUEUE_ERROR handed over, the lock released. -/
def State.sqFailed (s : State) (cause : QueueCause) (q : SqId) : State :=
  ((s.setSq q { s.sq q with state := .error }).handEvent (.queueError false q.val cause)).releaseLock q

theorem sqError_of_chain {s : State} {q : SqId} (cause : QueueCause) (active : (s.sq q).state = .active) :
    s.sqError cause q = s.sqFailed cause q ∨ ∃ id, s.sqError cause q = (s.sqFailed cause q).abortChain id := by
  unfold State.sqError State.sqFailed
  dsimp only
  rw [if_pos active]
  cases (s.sq q).chain with
  | none => exact .inl rfl
  | some c => exact .inr ⟨c.id, rfl⟩

theorem sqError_of_no_chain {s : State} {q : SqId} (cause : QueueCause) (active : (s.sq q).state = .active)
    (none : (s.sq q).chain = none) : s.sqError cause q = s.sqFailed cause q := by
  unfold State.sqError State.sqFailed
  dsimp only
  rw [if_pos active, none]

theorem sqError_core {s : State} {q : SqId} (cause : QueueCause) (active : (s.sq q).state = .active) :
    (s.sqError cause q).core = (s.sqFailed cause q).core := by
  obtain same | ⟨id, same⟩ := sqError_of_chain cause active
  · rw [same]
  · rw [same, core_abortChain]

theorem releaseLock_released (s : State) (q : SqId) : ∀ l, (s.releaseLock q).lock = some l → l.sq ≠ q := by
  intro l
  unfold State.releaseLock
  split
  next h held =>
    split
    next => exact fun h => nomatch h
    next other =>
      intro same
      obtain rfl := Option.some.inj (held.symm.trans same)
      exact other
  next free => exact fun held => nomatch free.symm.trans held

theorem releaseLock_standing (s : State) (q : SqId) : (s.releaseLock q).standing = s.standing := by
  unfold State.releaseLock
  split
  · split <;> rfl
  · rfl

theorem sqFailed_sq (s : State) (cause : QueueCause) (q k : SqId) :
    (s.sqFailed cause q).sq k = if q = k then { s.sq q with state := .error } else s.sq k := by
  unfold State.sqFailed
  rw [← State.sq_setSq]
  simp

theorem sqFailed_standing (s : State) (cause : QueueCause) (q : SqId) : (s.sqFailed cause q).standing =
    ((s.setSq q { s.sq q with state := .error }).handEvent (.queueError false q.val cause)).standing :=
  releaseLock_standing _ q

theorem sqError_sq_state (s : State) (cause : QueueCause) (q k : SqId) : ((s.sqError cause q).sq k).state =
    if q = k ∧ (s.sq q).state = .active then .error else (s.sq k).state := by
  by_cases active : (s.sq q).state = .active
  · rw [sq_state_of_core (sqError_core cause active), sqFailed_sq]
    by_cases same : q = k
    · rw [if_pos same, if_pos ⟨same, active⟩]
    · rw [if_neg same, if_neg fun h => same h.1]
  · rw [sqError_of_not_active cause active, if_neg fun h => active h.2]

theorem sqError_ev {s : State} {q : SqId} (cause : QueueCause) (active : (s.sq q).state = .active) :
    (s.sqError cause q).ev = (s.handEvent (.queueError false q.val cause)).ev := by
  have core := congrArg State.ev (sqError_core cause active)
  have ev : (s.sqFailed cause q).ev =
      ((s.setSq q { s.sq q with state := .error }).handEvent (.queueError false q.val cause)).ev := by
    simp [State.sqFailed]
  exact core.trans (ev.trans (handEvent_ev_congr (s := s) (t := s.setSq q _) rfl rfl _))

theorem sqError_lock {s : State} {q : SqId} (cause : QueueCause) (active : (s.sq q).state = .active) :
    ∀ l, (s.sqError cause q).lock = some l → l.sq ≠ q := by
  have core : (s.sqError cause q).lock = (s.sqFailed cause q).lock := (congrArg State.lock (sqError_core cause active) :)
  rw [core]
  exact releaseLock_released _ q

theorem sqError_ctl (s : State) (cause : QueueCause) (q : SqId) : (s.sqError cause q).ctl = s.ctl := by simp

theorem sqError_cq_standing (s : State) (cause : QueueCause) (q : SqId) (k : CqId) :
    ((s.sqError cause q).cq k).standing = (s.cq k).standing := by
  by_cases active : (s.sq q).state = .active
  · rw [cq_of_core (sqError_core cause active)]
    simp [State.sqFailed]
  · rw [sqError_of_not_active cause active]

theorem cq_sqError_closed {s : State} {c : CqId} (cause : QueueCause) (q : SqId) (closed : (s.cq c).state ≠ .active) :
    (s.sqError cause q).cq c = s.cq c := by
  by_cases active : (s.sq q).state = .active
  · have same : (s.sqFailed cause q).cq c = s.cq c := by simp [State.sqFailed]
    obtain failed | ⟨id, failed⟩ := sqError_of_chain cause active
    · rw [failed, same]
    · rw [failed, cq_abortChain_closed id (closed_of_same same closed), same]
  · rw [sqError_of_not_active cause active]

/-! ### Several submission queues go to ERROR -/

theorem sqErrors_sq_state (cause : QueueCause) {l : List SqId} {s : State} (active : ∀ q ∈ l, (s.sq q).state = .active)
    (distinct : l.Nodup) (k : SqId) :
    ((l.foldl (State.sqError cause) s).sq k).state = if k ∈ l then .error else (s.sq k).state := by
  induction l generalizing s with
  | nil => rfl
  | cons q l ih =>
    obtain ⟨new, distinct⟩ := List.nodup_cons.1 distinct
    have first := active q List.mem_cons_self
    have state (k : SqId) : ((s.sqError cause q).sq k).state = if q = k then .error else (s.sq k).state := by
      rw [sqError_sq_state]
      exact if_congr (and_iff_left first) rfl rfl
    rw [List.foldl_cons, ih (fun p hp => ?_) distinct, state]
    · by_cases same : q = k
      · subst same
        simp [new]
      · simp [same, Ne.symm same]
    · have other : q ≠ p := fun same => new (same ▸ hp)
      rw [state, if_neg other]
      exact active p (List.mem_cons_of_mem q hp)

theorem sqErrors_ev (cause : QueueCause) {l : List SqId} {s u : State} (ctl : u.ctl = s.ctl) (ev : u.ev = s.ev)
    (active : ∀ q ∈ l, (u.sq q).state = .active) (distinct : l.Nodup) :
    (l.foldl (State.sqError cause) u).ev = (l.foldl (fun v q => v.handEvent (.queueError false q.val cause)) s).ev := by
  induction l generalizing s u with
  | nil => exact ev
  | cons q l ih =>
    obtain ⟨new, distinct⟩ := List.nodup_cons.1 distinct
    have first := active q List.mem_cons_self
    rw [List.foldl_cons, List.foldl_cons]
    refine ih ?_ ?_ (fun p hp => ?_) distinct
    · simp [ctl]
    · rw [sqError_ev cause first, handEvent_ev_congr ctl ev]
    · have other : q ≠ p := fun same => new (same ▸ hp)
      rw [sqError_sq_state, if_neg fun h => other h.1]
      exact active p (List.mem_cons_of_mem q hp)

/-! ### A completion queue goes to ERROR -/

/-- The queue's own part of a completion queue's error: ERROR, the ready list emptied, QUEUE_ERROR handed over. -/
def State.cqFailed (s : State) (c : CqId) (cause : QueueCause) : State :=
  ((s.cq c).ready.foldl State.freeItem (s.setCq c { s.cq c with state := .error, ready := [] })).handEvent
    (.queueError true c.val cause)

theorem cqError_eq (s : State) (c : CqId) (cause : QueueCause) : s.cqError c cause =
    ((s.cqFailed c cause).boundActive c).foldl (State.sqError .cqLost) (s.cqFailed c cause) := rfl

theorem cqFailed_cq (s : State) (c : CqId) (cause : QueueCause) (k : CqId) :
    (s.cqFailed c cause).cq k = if c = k then { s.cq c with state := .error, ready := [] } else s.cq k := by
  unfold State.cqFailed
  rw [← State.cq_setCq]
  simp [foldl_same (fun u : State => u.cq k)]

theorem cqFailed_sqs (s : State) (c : CqId) (cause : QueueCause) : (s.cqFailed c cause).sqs = s.sqs := by
  simp [State.cqFailed, foldl_same State.sqs]

theorem cqFailed_ctl (s : State) (c : CqId) (cause : QueueCause) : (s.cqFailed c cause).ctl = s.ctl := by
  simp [State.cqFailed, foldl_same State.ctl]

theorem cqFailed_ev (s : State) (c : CqId) (cause : QueueCause) :
    (s.cqFailed c cause).ev = (s.handEvent (.queueError true c.val cause)).ev :=
  handEvent_ev_congr (by simp [foldl_same State.ctl]) (by simp [foldl_same State.ev]) _

theorem boundActive_congr {s t : State} (h : t.sqs = s.sqs) (c : CqId) : t.boundActive c = s.boundActive c := by
  unfold State.boundActive State.sq
  rw [h]

theorem mem_boundActive (s : State) (c : CqId) (q : SqId) :
    q ∈ s.boundActive c ↔ (s.sq q).state = .active ∧ (s.sq q).bound = c := by
  simp [State.boundActive, mem_sqIds]

theorem boundActive_nodup (s : State) (c : CqId) : (s.boundActive c).Nodup := (List.nodup_finRange 16).filter _

theorem Sq.standing_state (x : Sq) : x.standing.state = if x.state = .deleting then .absent else x.state := by
  unfold Sq.standing
  split <;> rfl

/-- What the error of a completion queue leaves, once the step has settled. -/
theorem cqError_settled (s : State) (c : CqId) (cause : QueueCause) :
    ((s.cqError c cause).settle.cq c) = { s.cq c with state := .error, ready := [] } ∧
    (∀ k, k ≠ c → ((s.cqError c cause).settle.cq k).standing = (s.cq k).standing) ∧
    (∀ q, ((s.cqError c cause).settle.sq q).standing.state =
      if (s.sq q).state = .active ∧ (s.sq q).bound = c then .error else (s.sq q).standing.state) ∧
    (s.cqError c cause).settle.ev.standing =
      ((s.boundActive c).foldl (fun u q => u.handEvent (.queueError false q.val .cqLost))
        (s.handEvent (.queueError true c.val cause))).ev.standing := by
  have queues := boundActive_congr (cqFailed_sqs s c cause) c
  have active : ∀ q ∈ s.boundActive c, ((s.cqFailed c cause).sq q).state = .active := fun q hq => by
    unfold State.sq
    rw [cqFailed_sqs]
    exact ((mem_boundActive s c q).1 hq).1
  have own : (s.cqFailed c cause).cq c = { s.cq c with state := .error, ready := [] } := by
    rw [cqFailed_cq, if_pos rfl]
  have closed : ((s.cqFailed c cause).cq c).state ≠ .active := by
    rw [own]
    exact fun h => nomatch h
  have kept : (s.cqError c cause).cq c = { s.cq c with state := .error, ready := [] } := by
    rw [cqError_eq, foldl_closed (fun _ q => cq_sqError_closed .cqLost q) _ closed, own]
  refine ⟨?_, fun k other => ?_, fun q => ?_, ?_⟩
  · rw [cq_settle_closed, kept]
    rw [kept]
    exact fun h => nomatch h
  · rw [settle_cq, cqError_eq, foldl_same (fun u : State => (u.cq k).standing) _ fun u q => sqError_cq_standing u _ q k,
      cqFailed_cq, if_neg (Ne.symm other)]
  · rw [settle_sq, Sq.standing_state, cqError_eq, queues, sqErrors_sq_state _ active (boundActive_nodup s c)]
    have sq : (s.cqFailed c cause).sq q = s.sq q := congrArg (fun v : Vector Sq 16 => v.get q) (cqFailed_sqs s c cause)
    by_cases lost : (s.sq q).state = .active ∧ (s.sq q).bound = c
    · rw [if_pos ((mem_boundActive s c q).2 lost), if_pos lost]
      rfl
    · rw [if_neg (mt (mem_boundActive s c q).1 lost), if_neg lost, sq, Sq.standing_state]
  · rw [settle_ev, cqError_eq, queues]
    exact congrArg EventUnit.standing (sqErrors_ev .cqLost (by rw [cqFailed_ctl]; simp) (cqFailed_ev s c cause) active
      (boundActive_nodup s c))

/-! ### Index writes -/

/-- Settles O19: the branches of a tail write, and what the error of a queue does. -/
theorem sqTailWrites : Obligations.SqTailWrites := by
  refine ⟨fun q w s => ⟨fun idle failed active => ⟨fun low => ⟨_, rfl, ?_⟩, fun high none => ⟨_, rfl, ?_⟩⟩,
    fun ignored => ⟨_, rfl, ?_⟩⟩, fun s q cause active => ⟨?_, sqError_lock cause active⟩,
    fun s q cause inactive => sqError_of_not_active cause inactive⟩
  · have taken : s.writeTail q w = s.setSq q { s.sq q with tail := indexAfter w (s.sq q).tail } := by
      unfold State.writeTail
      dsimp only
      rw [if_pos ⟨(takesIndexes_iff _).2 ⟨idle, failed⟩, active⟩]
      exact if_pos low
    rw [settle_standing, taken]
    rfl
  · have bad : s.writeTail q w = s.sqError .badIndex q := by
      unfold State.writeTail
      dsimp only
      rw [if_pos ⟨(takesIndexes_iff _).2 ⟨idle, failed⟩, active⟩]
      exact if_neg (Nat.not_lt.2 high)
    rw [settle_standing, bad, sqError_of_no_chain _ active none, sqFailed_standing]
  · have same : s.writeTail q w = s := by
      refine if_neg fun takes => ?_
      obtain ⟨idle, failed⟩ := (takesIndexes_iff _).1 takes.1
      obtain h | h | h := ignored
      exacts [idle h, failed h, h takes.2]
    rw [settle_standing, same]
  · rw [sqError_sq_state, if_pos ⟨rfl, active⟩]

/-- Settles O20: the branches of a head write, and what the error of a completion queue does. -/
theorem cqHeadWrites : Obligations.CqHeadWrites := by
  refine fun c w s => ⟨fun idle failed active taken => ⟨_, rfl, ?_⟩, fun ignored => ⟨_, rfl, ?_⟩,
    fun idle failed active bad => ⟨(s.cqError c .badIndex).settle, congrArg done ?_, ?_⟩⟩
  · have rule : s.writeHead c w =
        (s.setCq c { s.cq c with head := indexAfter w (s.cq c).head }).reRaise (s.cq c).vector
          ({ s.cq c with head := indexAfter w (s.cq c).head } : Cq).unreleased := by
      unfold State.writeHead
      dsimp only
      rw [if_pos ⟨(takesIndexes_iff _).2 ⟨idle, failed⟩, active⟩]
      exact if_pos taken
    rw [settle_standing, rule]
    rfl
  · have same : s.writeHead c w = s := by
      refine if_neg fun takes => ?_
      obtain ⟨idle, failed⟩ := (takesIndexes_iff _).1 takes.1
      obtain h | h | h := ignored
      exacts [idle h, failed h, h takes.2]
    rw [settle_standing, same]
  · unfold State.writeHead
    dsimp only
    rw [if_pos ⟨(takesIndexes_iff _).2 ⟨idle, failed⟩, active⟩]
    exact if_neg bad
  · obtain ⟨own, others, queues, events⟩ := cqError_settled s c .badIndex
    exact ⟨congrArg Cq.standing own, congrArg Cq.ready own, others, queues, events⟩

end Sys2Proof.Machine
end

section
/-! PROOFS. The ends of contexts, said once (R50, R65, R80, R166 to R172): which contexts one leaves alone (`Spares`), what
stays once a context has ended (`Onward`), and what one makes of its own context (`State.readyWith`,
`State.cancelledAs`). -/

namespace Sys2Proof.Machine

set_option Elab.async false -- one thread elaborates: the checker's memory is limited

/-! ### Contexts that are left alone -/

/-- Context `d` is left as it is, in the lists in which it stands. -/
def Spares (d : Ctx) (s t : State) : Prop :=
  d ∈ s.ctxs → d ∈ t.ctxs ∧ ∀ g, (d.num ∈ (s.seg g).pendingList → d.num ∈ (t.seg g).pendingList) ∧
    (d.num ∈ (s.seg g).offered → d.num ∈ (t.seg g).offered)

theorem Spares.refl (d : Ctx) (s : State) : Spares d s s := fun h => ⟨h, fun _ => ⟨id, id⟩⟩

theorem Spares.trans {d : Ctx} {s t u : State} (h : Spares d s t) (k : Spares d t u) : Spares d s u := by
  intro hd
  obtain ⟨ht, first⟩ := h hd
  obtain ⟨hu, second⟩ := k ht
  refine ⟨hu, fun g => ?_⟩
  obtain ⟨listed, offered⟩ := first g
  obtain ⟨listed', offered'⟩ := second g
  exact ⟨listed' ∘ listed, offered' ∘ offered⟩

theorem Spares.of_eq {d : Ctx} {s t : State} (ctxs : t.ctxs = s.ctxs)
    (segs : ∀ g, (t.seg g).pendingList = (s.seg g).pendingList ∧ (t.seg g).offered = (s.seg g).offered) :
    Spares d s t := by
  intro hd
  refine ⟨by rwa [ctxs], fun g => ?_⟩
  obtain ⟨listed, offered⟩ := segs g
  exact ⟨by rw [listed]; exact id, by rw [offered]; exact id⟩

theorem Spares.of_segs {d : Ctx} {s t : State} (ctxs : t.ctxs = s.ctxs) (segs : t.segs = s.segs) : Spares d s t :=
  .of_eq ctxs fun g => by
    unfold State.seg
    rw [segs]
    exact ⟨rfl, rfl⟩

theorem Spares.foldl {β : Type} {d : Ctx} {f : State → β → State} {l : List β} (h : ∀ s, ∀ b ∈ l, Spares d s (f s b))
    (s : State) : Spares d s (l.foldl f s) := by
  induction l generalizing s with
  | nil => exact .refl d s
  | cons b l ih =>
    exact (h s b List.mem_cons_self).trans (ih (fun s b hb => h s b (List.mem_cons_of_mem _ hb)) _)

/-- What keeps calm contexts spares each of them. -/
theorem Spares.of_keeps {d : Ctx} {s t : State} (keeps : Keeps s t) (distinct : s.distinct) (calm : d.calm) :
    Spares d s t := fun hd =>
  ⟨keeps.calm distinct d hd calm, fun g => ⟨keeps.listed distinct d hd calm g, keeps.offered distinct d hd calm g⟩⟩

section

variable {d : Ctx} {n : CtxNum} (s : State) (other : d.num ≠ n)
include other

theorem spares_updCtx (f : Ctx → Ctx) : Spares d s (s.updCtx n f) := fun hd =>
  ⟨List.mem_map.2 ⟨d, hd, if_neg other⟩, fun _ => ⟨id, id⟩⟩

theorem spares_freeCtx : Spares d s (s.freeCtx n) := fun hd =>
  ⟨List.mem_filter.2 ⟨hd, by simp [other]⟩, fun _ => ⟨id, id⟩⟩

theorem spares_updSeg (g : SegId) {f : SegCtl → SegCtl}
    (listed : ∀ y m, m ∈ y.pendingList → m ≠ n → m ∈ (f y).pendingList)
    (offered : ∀ y m, m ∈ y.offered → m ≠ n → m ∈ (f y).offered) : Spares d s (s.updSeg g f) := by
  refine fun hd => ⟨hd, fun h => ?_⟩
  rw [State.seg_updSeg]
  split
  · exact ⟨(listed _ _ · other), (offered _ _ · other)⟩
  · exact ⟨id, id⟩

theorem spares_unlist {c : Ctx} (num : c.num = n) : Spares d s (s.unlist c) := by
  subst num
  have seg : Spares d s (s.updSeg c.seg (·.unlist c.num)) :=
    spares_updSeg s other c.seg (fun y m h hm => List.mem_filter.2 ⟨h, by simpa using hm⟩)
      (fun y m h hm => List.mem_filter.2 ⟨h, by simpa using hm⟩)
  exact seg.trans (.of_segs rfl rfl)

theorem spares_becomeReady (st : Status) : Spares d s (s.becomeReady n st) := by
  rw [State.becomeReady]
  split
  next => exact .refl d s
  next c hc =>
    have unlisted := spares_unlist s other (ctx_mem hc).2
    dsimp only
    split
    · exact (unlisted.trans (spares_updCtx _ other _)).trans (.of_segs rfl rfl)
    · exact unlisted.trans (spares_freeCtx _ other)

theorem spares_writeBuffer {c : Ctx} (num : c.num = n) (st : Status) : Spares d s (s.writeBuffer c st) := by
  subst num
  have issued : Spares d s (s.issue (.buffer c.num) c.record.address c.stagedBytes) := .of_segs rfl rfl
  refine (issued.trans (spares_updCtx _ other _)).trans (spares_updSeg _ other c.seg (fun _ _ h _ => h) fun y m h hm => ?_)
  exact List.mem_filter.2 ⟨h, by simpa using hm⟩

theorem spares_finish (st : Status) : Spares d s (s.finish n st) := by
  rw [State.finish]
  split
  next => exact .refl d s
  next c hc =>
    split
    · exact spares_writeBuffer s other (ctx_mem hc).2 st
    · exact spares_becomeReady s other st

end

theorem SegCtl.endHoldOf_lists (y : SegCtl) (n : CtxNum) :
    (y.endHoldOf n).pendingList = y.pendingList ∧ (y.endHoldOf n).offered = y.offered := by
  unfold SegCtl.endHoldOf
  split <;> exact ⟨rfl, rfl⟩

theorem SegCtl.endHoldOfChain_lists (y : SegCtl) (id : Nat) :
    (y.endHoldOfChain id).pendingList = y.pendingList ∧ (y.endHoldOfChain id).offered = y.offered := by
  unfold SegCtl.endHoldOfChain
  split <;> exact ⟨rfl, rfl⟩

/-- An update of a controller that leaves its lists of contexts spares every context. -/
theorem spares_relisted (d : Ctx) (s : State) (g : SegId) {f : SegCtl → SegCtl}
    (h : ∀ y, (f y).pendingList = y.pendingList ∧ (f y).offered = y.offered) : Spares d s (s.updSeg g f) := by
  refine .of_eq rfl fun k => ?_
  rw [State.seg_updSeg]
  split
  · exact h _
  · exact ⟨rfl, rfl⟩

/-- A cancellation ends a hold, and then its context's frames. -/
theorem cancel_eq {s : State} {n : CtxNum} {c : Ctx} (st : Status) (hc : s.ctx n = some c) :
    ∃ f : SegCtl → SegCtl, (∀ y, (f y).pendingList = y.pendingList ∧ (f y).offered = y.offered) ∧
      (∀ y, (f y).standing = y.standing) ∧ State.cancel st s n = (s.updSeg c.seg f).finish n st := by
  have twice (f h : SegCtl → SegCtl) : (s.updSeg c.seg f).updSeg c.seg h = s.updSeg c.seg (h ∘ f) :=
    congrArg (fun v => ({ s with segs := v } : State)) (vector_ext_get fun k => by
      change ((s.updSeg c.seg f).updSeg c.seg h).seg k = (s.updSeg c.seg (h ∘ f)).seg k
      rw [State.seg_updSeg, State.seg_updSeg, State.seg_updSeg]
      split <;> rfl)
  cases chain : c.chain with
  | none =>
    refine ⟨_, (SegCtl.endHoldOf_lists · n), (SegCtl.standing_endHoldOf · n), ?_⟩
    simp only [State.cancel, hc, chain]
  | some m =>
    by_cases unreached : c.unreached = true
    · refine ⟨_, (SegCtl.endHoldOf_lists · n), (SegCtl.standing_endHoldOf · n), ?_⟩
      simp only [State.cancel, hc, chain, unreached, if_true]
    · refine ⟨(·.endHoldOfChain m.id) ∘ (·.endHoldOf n), fun y => ?_, fun y => ?_, ?_⟩
      · obtain ⟨listed, offered⟩ := SegCtl.endHoldOf_lists y n
        obtain ⟨listed', offered'⟩ := SegCtl.endHoldOfChain_lists (y.endHoldOf n) m.id
        exact ⟨listed'.trans listed, offered'.trans offered⟩
      · exact (SegCtl.standing_endHoldOfChain _ _).trans (SegCtl.standing_endHoldOf _ _)
      · simp only [State.cancel, hc, chain, unreached]
        rw [← twice]
        rfl

theorem spares_cancel {d : Ctx} {n : CtxNum} (s : State) (other : d.num ≠ n) (st : Status) :
    Spares d s (State.cancel st s n) := by
  cases hc : s.ctx n with
  | none => rw [State.cancel, hc]; exact .refl d s
  | some c =>
    obtain ⟨f, lists, -, cancelled⟩ := cancel_eq st hc
    rw [cancelled]
    exact (spares_relisted d s c.seg lists).trans (spares_finish _ other st)

theorem spares_tearDownCtx {d : Ctx} {n : CtxNum} (s : State) (other : d.num ≠ n) (st : Status) :
    Spares d s (State.tearDownCtx st s n) := by
  rw [State.tearDownCtx]
  split
  next => exact .refl d s
  next c _ =>
    split
    · exact .refl d s
    · split
      · exact .refl d s
      · split
        · exact spares_updCtx s other _
        · exact spares_cancel s other st
    · exact spares_cancel s other st

/-! ### What stays once a context has ended -/

/-- The context is READY, or its buffer write is outstanding: no cancellation acts on it (R166). -/
def Ctx.ended (c : Ctx) : Prop := c.state = .ready ∨ (c.state = .active ∧ c.buffer ≠ none)

theorem Ctx.ended.calm {c : Ctx} (h : c.ended) : c.calm := by
  obtain ready | ⟨active, -⟩ := h
  · exact ⟨by simp [ready], by simp [ready], by simp [ready]⟩
  · exact ⟨by simp [active], by simp [active], by simp [active]⟩

/-- From `s` to `t` what has ended stays: the contexts, the completions owed, the accesses outstanding. -/
structure Onward (s t : State) : Prop where
  distinct : s.distinct → t.distinct
  stays : s.distinct → ∀ d ∈ s.ctxs, d.ended → d ∈ t.ctxs
  owes : ∀ c i, (s.cq c).owes i → (t.cq c).owes i
  outstanding : ∀ m ∈ s.link.outstanding, m ∈ t.link.outstanding

theorem Onward.refl (s : State) : Onward s s := ⟨id, fun _ _ h _ => h, fun _ _ => id, fun _ => id⟩

theorem Onward.trans {s t u : State} (h : Onward s t) (k : Onward t u) : Onward s u where
  distinct := k.distinct ∘ h.distinct
  stays distinct d hd hk := k.stays (h.distinct distinct) d (h.stays distinct d hd hk) hk
  owes c i := k.owes c i ∘ h.owes c i
  outstanding m := k.outstanding m ∘ h.outstanding m

theorem Onward.of_eq {s t : State} (ctxs : t.ctxs = s.ctxs) (cqs : t.cqs = s.cqs) (link : t.link = s.link) : Onward s t where
  distinct h := by rwa [State.distinct, ctxs]
  stays _ d h _ := by rwa [ctxs]
  owes _ _ := owes_of_cqs cqs
  outstanding m h := by rwa [link]

theorem Onward.foldl {β : Type} {f : State → β → State} (h : ∀ s b, Onward s (f s b)) (l : List β) (s : State) :
    Onward s (l.foldl f s) := by
  induction l generalizing s with
  | nil => exact .refl s
  | cons b l ih => exact (h s b).trans (ih _)

theorem onward_settle (s : State) : Onward s s.settle where
  distinct := (settle_keeps s).distinct
  stays distinct d hd hk := (settle_keeps s).calm distinct d hd hk.calm
  owes _ _ := settle_owes
  outstanding := (settle_grows s).outstanding

/-- An operation on one context that has not ended. -/
theorem Onward.of_one {s t : State} {n : CtxNum} (shrinks : Shrinks s t) (spares : ∀ d, d.num ≠ n → Spares d s t)
    (live : ∀ c, s.ctx n = some c → ¬ c.ended) (owes : ∀ c i, (s.cq c).owes i → (t.cq c).owes i)
    (outstanding : ∀ m ∈ s.link.outstanding, m ∈ t.link.outstanding) : Onward s t where
  distinct := shrinks.distinct
  stays distinct d hd hk := by
    have other : d.num ≠ n := fun same => live d (same ▸ ctx_of_mem distinct hd) hk
    exact (spares d other hd).1
  owes := owes
  outstanding := outstanding

theorem owes_finish {s : State} {c : CqId} {i : ReadyItem} (n : CtxNum) (st : Status) (h : (s.cq c).owes i) :
    ((s.finish n st).cq c).owes i := by
  rw [State.finish]
  split
  next => exact h
  next =>
    split
    · exact owes_of_cqs (by simp) h
    · exact owes_becomeReady n st h

theorem outstanding_finish (s : State) (n : CtxNum) (st : Status) :
    ∀ m ∈ s.link.outstanding, m ∈ (s.finish n st).link.outstanding := by
  intro m hm
  rw [State.finish]
  split
  next => exact hm
  next =>
    split
    · exact List.mem_append_left _ hm
    · simpa using hm

theorem onward_finish {s : State} {n : CtxNum} (st : Status) (live : ∀ c, s.ctx n = some c → ¬ c.ended) :
    Onward s (s.finish n st) :=
  .of_one (shrinks_finish s n st) (fun _ other => spares_finish s other st) live (fun _ _ => owes_finish n st)
    (outstanding_finish s n st)

theorem onward_cancel {s : State} {n : CtxNum} (st : Status) (live : ∀ c, s.ctx n = some c → ¬ c.ended) :
    Onward s (State.cancel st s n) := by
  cases hc : s.ctx n with
  | none => rw [State.cancel, hc]; exact .refl s
  | some c =>
    obtain ⟨f, -, -, cancelled⟩ := cancel_eq st hc
    rw [cancelled]
    have held : Onward s (s.updSeg c.seg f) := .of_eq rfl rfl rfl
    exact held.trans (onward_finish st (s := s.updSeg c.seg f) live)

theorem onward_tearDownCtx (st : Status) (s : State) (n : CtxNum) : Onward s (State.tearDownCtx st s n) := by
  rw [State.tearDownCtx]
  split
  next => exact .refl s
  next c hc =>
    have live (h : ¬ c.ended) : ∀ d, s.ctx n = some d → ¬ d.ended := fun d hd => by
      obtain rfl := Option.some.inj (hc.symm.trans hd)
      exact h
    split
    next => exact .refl s
    next active =>
      split
      next => exact .refl s
      next buffer =>
        have free : ¬ c.ended := by
          rintro (ready | ⟨-, waits⟩)
          · exact absurd (active.symm.trans ready) (by decide)
          · exact buffer (Option.isSome_iff_ne_none.2 waits)
        split
        · refine .of_one (n := n) (shrinks_updCtx s n fun _ => rfl) (fun d other => spares_updCtx s other _) (live free) ?_ ?_
          · exact fun _ _ => id
          · exact fun _ => id
        · exact onward_cancel st (live free)
    next h1 h2 =>
      refine onward_cancel st (live ?_)
      rintro (ready | ⟨active, -⟩)
      · exact h1 ready
      · exact h2 active

theorem onward_adminDone (s : State) (st : Status) (v : Option Half) : Onward s (s.adminDone st v) where
  distinct := (shrinks_adminDone s st v).distinct
  stays _ d hd _ := by
    have ctxs : (s.adminDone st v).ctxs = s.ctxs := by
      unfold State.adminDone
      (repeat' split) <;> rfl
    rwa [ctxs]
  owes _ _ := owes_adminDone st v
  outstanding m hm := by simpa using hm

/-! ### What becomes of the context that ends -/

theorem readyWith_onward {s t : State} {b : CqId} {c : Ctx} {st : Status} (onward : Onward s t) (distinct : s.distinct)
    (h : s.readyWith b c st) : t.readyWith b c st := by
  obtain ⟨⟨d, hd, ends⟩, owes⟩ := h
  obtain ⟨-, -, -, -, ready, -⟩ := id ends
  exact ⟨⟨d, onward.stays distinct d hd (.inl ready), ends⟩, onward.owes _ _ owes⟩

theorem cancelledAs_onward {s t : State} {b : CqId} {c : Ctx} {st : Status} (onward : Onward s t) (distinct : s.distinct)
    (h : s.cancelledAs b c st) : t.cancelledAs b c st := by
  unfold State.cancelledAs at *
  split
  next block =>
    rw [if_pos block] at h
    obtain ⟨d, hd, m, hm, num, active, status, staged, buffer, access⟩ := h
    refine ⟨d, onward.stays distinct d hd (.inr ⟨active, by simp [buffer]⟩), m, onward.outstanding m hm, ?_⟩
    exact ⟨num, active, status, staged, buffer, access⟩
  next block =>
    rw [if_neg block] at h
    exact readyWith_onward onward distinct h

theorem mem_updCtx {s : State} {c : Ctx} (hc : c ∈ s.ctxs) (f : Ctx → Ctx) : f c ∈ (s.updCtx c.num f).ctxs :=
  List.mem_map.2 ⟨c, hc, if_pos rfl⟩

theorem becomeReady_readyWith {s : State} {c : Ctx} (distinct : s.distinct) (hc : c ∈ s.ctxs)
    (active : (s.cq (s.sq c.sq).bound).state = .active) (st : Status) :
    (s.becomeReady c.num st).readyWith (s.sq c.sq).bound c st := by
  have bound : ((s.unlist c).sq c.sq).bound = (s.sq c.sq).bound := by
    have stands : ((s.unlist c).sq c.sq).core = (s.sq c.sq).core := sq_of_core (core_unlist s c) c.sq
    exact (congrArg Sq.bound stands :)
  have ready : s.becomeReady c.num st = ((s.unlist c).updCtx c.num (·.asReady st)).updCq (s.sq c.sq).bound
      fun x => { x with ready := x.ready ++ [.ctx c.num] } := by
    rw [State.becomeReady, ctx_of_mem distinct hc]
    dsimp only
    rw [bound, if_pos (by simpa using active)]
  rw [ready]
  refine ⟨⟨c.asReady st, mem_updCtx (s := s.unlist c) hc _, rfl, rfl, rfl, rfl, rfl, rfl, rfl, rfl, rfl⟩, .inl ?_⟩
  rw [State.cq_updCq_same]
  exact List.mem_append_right _ (List.mem_singleton.2 rfl)

theorem Ctx.needsBuffer_iff (c : Ctx) : c.needsBuffer = true ↔ c.kind = some .readBlock ∧ c.staged ≠ [] := by
  simp [Ctx.needsBuffer, Ctx.blockCount, List.length_pos_iff]

theorem finish_of_ctx {s : State} {n : CtxNum} {c : Ctx} (hc : s.ctx n = some c) (st : Status) :
    s.finish n st = if c.needsBuffer then s.writeBuffer c st else s.becomeReady n st := by
  rw [State.finish, hc]

theorem finish_cancelledAs {s : State} {c : Ctx} (distinct : s.distinct) (hc : c ∈ s.ctxs)
    (active : (s.cq (s.sq c.sq).bound).state = .active) (st : Status) :
    (s.finish c.num st).cancelledAs (s.sq c.sq).bound c st := by
  rw [finish_of_ctx (ctx_of_mem distinct hc), State.cancelledAs]
  split
  next block =>
    rw [if_pos ((Ctx.needsBuffer_iff c).2 block)]
    refine ⟨c.asWriting st s.link.next, mem_updCtx (s := s.issue _ _ _) hc _,
      ⟨.buffer c.num, s.link.next, c.record.address, c.stagedBytes, s.ticks⟩, ?_, rfl, rfl, rfl, rfl, rfl, rfl, rfl, rfl⟩
    exact List.mem_append_right _ (List.mem_singleton.2 rfl)
  next block =>
    rw [if_neg (mt (Ctx.needsBuffer_iff c).1 block)]
    exact becomeReady_readyWith distinct hc active st

theorem cancel_cancelledAs {s : State} {c : Ctx} (distinct : s.distinct) (hc : c ∈ s.ctxs)
    (active : (s.cq (s.sq c.sq).bound).state = .active) (st : Status) :
    (State.cancel st s c.num).cancelledAs (s.sq c.sq).bound c st := by
  obtain ⟨f, -, -, cancelled⟩ := cancel_eq st (ctx_of_mem distinct hc)
  rw [cancelled]
  exact finish_cancelledAs (s := s.updSeg c.seg f) distinct hc active st

/-- With no block data read, a cancelled context is READY. -/
theorem State.cancelledAs.ready {t : State} {b : CqId} {c : Ctx} {st : Status} (h : t.cancelledAs b c st)
    (none : c.staged = []) : t.readyWith b c st := by
  rw [State.cancelledAs, if_neg fun block => block.2 none] at h
  exact h

/-! ### Other contexts, once a step has settled -/

/-- What spares every other context, and then settles. -/
theorem keepsOthers_of_spares {s u : State} {n : CtxNum} (distinct : u.distinct)
    (spares : ∀ d, d.num ≠ n → d.calm → Spares d s u) : s.keepsOthers u.settle n := by
  intro d hd other calm
  exact ((spares d other calm).trans (.of_keeps (settle_keeps u) distinct calm)) hd

end Sys2Proof.Machine
end

section
/-! PROOFS. Outcomes of accesses to host memory: completion, buffer, result and event writes, and entry reads (R47, R48, R55,
R57 to R59, R80, R89, R154, R157, R174). -/

namespace Sys2Proof.Machine

set_option Elab.async false -- one thread elaborates: the checker's memory is limited

/-! ### Completion writes -/

theorem postingOf_inFlight {x : Cq} {i : ReadyItem} {tag : Nat} (h : x.inFlight = some { item := i, tag := tag }) :
    x.postingOf tag = some i := by
  rw [Cq.postingOf, h]
  exact if_pos rfl

theorem freeItem_standing (s : State) (i : ReadyItem) : (s.freeItem i).standing = s.standing := by cases i <;> rfl

/-- A context whose completion is posted or discarded is FREE, and stays so while the step settles. -/
theorem freeItem_free {s u : State} {i : ReadyItem} (shrinks : Shrinks (s.freeItem i) u) :
    ∀ n, i = .ctx n → ∀ d ∈ u.settle.ctxs, d.num ≠ n := by
  rintro n rfl
  exact (shrinks.trans (settle_shrinks u)).not_mem (freeCtx_not_mem s n)

theorem postingDone_active {s : State} {k : CqId} {tag : Nat} {i : ReadyItem}
    (posting : (s.cq k).inFlight = some { item := i, tag := tag }) (active : (s.cq k).state = .active) :
    s.postingDone k tag = (((s.retire tag).setCq k (s.cq k).posted).freeItem i).handVector (s.cq k).vector := by
  unfold State.postingDone
  dsimp only
  rw [postingOf_inFlight posting]
  exact if_pos active

theorem postingDone_closed {s : State} {k : CqId} {tag : Nat} {i : ReadyItem}
    (posting : (s.cq k).inFlight = some { item := i, tag := tag }) (closed : (s.cq k).state ≠ .active) :
    s.postingDone k tag = ((s.retire tag).setCq k { s.cq k with inFlight := none }).freeItem i := by
  unfold State.postingDone
  dsimp only
  rw [postingOf_inFlight posting]
  exact if_neg closed

theorem deletingQueue_none {s : State} (h : s.adm.ctx = none) : s.deletingQueue = none := by
  rw [State.deletingQueue, h]

/-- The admin context is empty once its completion is posted or discarded. -/
theorem freeItem_admin {s u : State} {i : ReadyItem} (adm : u.adm = (s.freeItem i).adm) :
    i = .admin → u.settle.adm.ctx = none := by
  rintro rfl
  have empty : u.adm.ctx = none := congrArg Admin.ctx adm
  rw [settle_adm u (deletingQueue_none empty), empty]

theorem postingFailed_io {s : State} {k : CqId} {tag : Nat} {i : ReadyItem}
    (posting : (s.cq k).inFlight = some { item := i, tag := tag }) (io : k ≠ 0) (active : (s.cq k).state = .active) :
    s.postingFailed k tag = (((s.retire tag).setCq k { s.cq k with inFlight := none }).freeItem i).cqError k .memory := by
  unfold State.postingFailed
  dsimp only
  rw [postingOf_inFlight posting]
  refine (if_neg fun h => io h.2).trans (if_pos active)

theorem foldl_handEvent_ev {β : Type} (f : β → Event) (l : List β) {s u : State} (ctl : u.ctl = s.ctl) (ev : u.ev = s.ev) :
    (l.foldl (fun v b => v.handEvent (f b)) u).ev = (l.foldl (fun v b => v.handEvent (f b)) s).ev := by
  induction l generalizing s u with
  | nil => exact ev
  | cons b l ih => exact ih (by simp [ctl]) (handEvent_ev_congr ctl ev _)

/-- Settles O58: a success moves the ring on, a failure is the error of the queue; either frees the context. -/
theorem completionWriteOutcomes : Obligations.CompletionWriteOutcomes := by
  refine ⟨fun k tag i s posting => ?_, fun k tag i s posting io active => ?_⟩
  · refine ⟨_, rfl, ?_⟩
    by_cases active : (s.cq k).state = .active
    · rw [postingDone_active posting active]
      refine ⟨freeItem_free (.of_eq rfl), freeItem_admin rfl, fun _ => ?_, fun closed => absurd active closed⟩
      rw [settle_standing, handVector_standing, handVector_standing, freeItem_standing, setCq_standing, setCq_standing,
        standing_retire]
      rfl
    · rw [postingDone_closed posting active]
      refine ⟨freeItem_free (.refl _), freeItem_admin rfl, fun open' => absurd open' active, fun _ => ?_⟩
      rw [settle_standing, freeItem_standing]
      exact standing_setCq _ k _ rfl
  · let u := ((s.retire tag).setCq k { s.cq k with inFlight := none }).freeItem i
    obtain ⟨own, -, queues, events⟩ := cqError_settled u k .memory
    have cq : u.cq k = { s.cq k with inFlight := none } := by simp [u]
    have sqs : u.sqs = s.sqs := by simp [u]
    have sq (q : SqId) : u.sq q = s.sq q := congrArg (fun v : Vector Sq 16 => v.get q) sqs
    have ctl : u.ctl = s.ctl := by simp [u]
    have ev : u.ev = s.ev := by simp [u]
    rw [cq] at own
    refine ⟨(u.cqError k .memory).settle, congrArg done (postingFailed_io posting io active),
      freeItem_free (shrinks_cqError u k .memory), congrArg Cq.standing own, congrArg Cq.ready own,
      congrArg Cq.inFlight own, fun q => (queues q).trans (by rw [sq]), events.trans ?_⟩
    rw [boundActive_congr sqs]
    exact congrArg EventUnit.standing (foldl_handEvent_ev _ _ (by simp [ctl]) (handEvent_ev_congr ctl ev _))

/-! ### Buffer, result and event writes -/

theorem bufferWritten_ready {s : State} {c : Ctx} {tag : Nat} {st : Status} (distinct : s.distinct) (hc : c ∈ s.ctxs)
    (buffer : c.buffer = some tag) (status : c.status = some st) (none : c.chain = none) (ok : Bool) :
    s.bufferWritten c.num tag ok = (s.retire tag).becomeReady c.num (if ok then st else .bufferError) := by
  unfold State.bufferWritten
  rw [ctx_of_mem distinct hc]
  simp only [buffer, status, none, if_true, Option.getD_some, Bool.false_eq_true, if_false]

/-- A context that becomes READY, and then the step settles. -/
theorem becomeReady_settled {s : State} {c : Ctx} (distinct : s.distinct) (hc : c ∈ s.ctxs)
    (active : (s.cq (s.sq c.sq).bound).state = .active) (st : Status) :
    s.keepsOthers (s.becomeReady c.num st).settle c.num ∧
      (s.becomeReady c.num st).settle.readyWith (s.sq c.sq).bound c st := by
  have still := (shrinks_becomeReady s c.num st).distinct distinct
  exact ⟨keepsOthers_of_spares still fun _ other _ => spares_becomeReady s other st,
    readyWith_onward (onward_settle _) still (becomeReady_readyWith distinct hc active st)⟩

theorem bufferWritten_unwaited {s : State} {tag : Nat} (unwaited : ∀ c ∈ s.ctxs, c.buffer ≠ some tag) (n : CtxNum)
    (ok : Bool) : s.bufferWritten n tag ok = s.retire tag := by
  unfold State.bufferWritten
  cases hc : s.ctx n with
  | none => rfl
  | some c => exact if_neg (unwaited c (ctx_mem hc).1)

theorem resultWritten_waited {s : State} {r : Record} {tag : Nat} (waits : s.adminWaiting r (.resultWrite tag)) (ok : Bool) :
    s.resultWritten tag ok = (s.retire tag).adminDone (if ok then .success else .resultBufferError) none :=
  if_pos (State.adminAt_of_waiting (s := s.retire tag) waits)

theorem eventWritten_waited {s : State} {r : Ring} {tag : Nat} (ring : s.ev.ring = some r) (waits : r.inFlight = some tag) :
    s.eventWritten tag = ((s.retire tag).setRing (some r.posted)).handVector r.vector := by
  unfold State.eventWritten
  have same : (s.retire tag).ev.ring = some r := ring
  dsimp only
  rw [same]
  exact if_pos waits

theorem eventFailed_waited {s : State} {r : Ring} {tag : Nat} (ring : s.ev.ring = some r) (waits : r.inFlight = some tag) :
    s.eventFailed tag = (s.retire tag).removeRing := by
  unfold State.eventFailed
  have same : (s.retire tag).ev.ring = some r := ring
  dsimp only
  rw [same]
  exact if_pos waits

theorem eventWrite_unwaited {s : State} {tag : Nat} (unwaited : ∀ r, s.ev.ring = some r → r.inFlight ≠ some tag) :
    s.eventWritten tag = s.retire tag ∧ s.eventFailed tag = s.retire tag := by
  have same : (s.retire tag).ev.ring = s.ev.ring := rfl
  unfold State.eventWritten State.eventFailed
  dsimp only
  rw [same]
  cases ring : s.ev.ring with
  | none => exact ⟨rfl, rfl⟩
  | some r => exact ⟨if_neg (unwaited r ring), if_neg (unwaited r ring)⟩

theorem posting_unwaited {s : State} {k : CqId} {tag : Nat} (unwaited : ∀ p, (s.cq k).inFlight = some p → p.tag ≠ tag) :
    s.postingDone k tag = s.retire tag ∧ s.postingFailed k tag = s.retire tag := by
  have none : (s.cq k).postingOf tag = none := by
    unfold Cq.postingOf
    split
    next p posting => exact if_neg (unwaited p posting)
    next => rfl
  unfold State.postingDone State.postingFailed
  dsimp only
  rw [none]
  exact ⟨rfl, rfl⟩

/-- Settles O59: each outcome reaches the block that waits for it, and no other. -/
theorem memoryWriteOutcomes : Obligations.MemoryWriteOutcomes := by
  refine ⟨fun c tag ok st s distinct hc buffer status chain state active => ?_,
    fun r tag ok s waits cq => ⟨_, rfl, ?_⟩,
    fun r tag s ring waits => ⟨⟨_, rfl, ?_⟩, ⟨_, rfl, ?_⟩⟩, fun n k tag ok s buffers result postings events i hi => ?_⟩
  · obtain ⟨others, ready⟩ := becomeReady_settled (s := s.retire tag) distinct hc active (if ok then st else .bufferError)
    refine ⟨_, congrArg done (bufferWritten_ready distinct hc buffer status chain ok), ?_, others, ready⟩
    rw [settle_standing, standing_becomeReady, standing_retire]
  · rw [resultWritten_waited waits]
    have waits : (s.retire tag).adminWaiting r (.resultWrite tag) := waits
    obtain ⟨completed, stands⟩ := adminDone_settles (u := s.retire tag) (if ok then .success else .resultBufferError) none
      waits cq
    exact ⟨stands, completed⟩
  · rw [eventWritten_waited ring waits, settle_standing, handVector_standing, handVector_standing, setRing_standing,
      setRing_standing, standing_retire]
    simp [Ring.posted]
  · rw [eventFailed_waited ring waits, settle_standing]
    rfl
  · have retired : (s.retire tag).settle.standing = s.standing := (settle_standing _).trans (standing_retire s tag)
    have write (u : State) (h : u = s.retire tag) : ∃ t, done u = .next t ∧ t.standing = s.standing :=
      ⟨_, rfl, h ▸ retired⟩
    simp only [List.mem_cons, List.not_mem_nil, or_false] at hi
    obtain rfl | rfl | rfl | rfl | rfl | rfl := hi
    · exact write _ (bufferWritten_unwaited buffers n ok)
    · exact write _ (if_neg (Bool.eq_false_iff.1 result))
    · exact write _ (posting_unwaited postings).1
    · exact write _ (posting_unwaited postings).2
    · exact write _ (eventWrite_unwaited events).1
    · exact write _ (eventWrite_unwaited events).2

/-! ### Reads that follow while a step settles -/

theorem lockChance_same (s : State) (q : SqId) :
    (s.lockChance q).arb.read = s.arb.read ∧ (s.lockChance q).link = s.link := by
  unfold State.lockChance
  split
  · split <;> simp
  · exact ⟨rfl, rfl⟩

theorem offerTurns_read (l : List SqId) (s : State) : (State.offerTurns l s).arb.read = s.arb.read ∨
    ∃ q, (State.offerTurns l s).arb.read = some { sq := q, tag := s.link.next } := by
  induction l generalizing s with
  | nil => exact .inl rfl
  | cons q l ih =>
    obtain ⟨read, link⟩ := lockChance_same s q
    rw [State.offerTurns]
    split
    · exact .inr ⟨q, by rw [← link]; rfl⟩
    · refine (ih _).imp (fun same => same.trans ?_) fun ⟨p, issued⟩ => ⟨p, issued.trans ?_⟩
      · split <;> exact read
      · split <;> exact (congrArg (fun k : Link => some ({ sq := p, tag := k.next } : EntryRead)) link :)

theorem endTurnIfOver_same (s : State) : s.endTurnIfOver.arb.read = s.arb.read ∧ s.endTurnIfOver.link = s.link := by
  unfold State.endTurnIfOver
  split
  · exact ⟨rfl, rfl⟩
  · split <;> exact ⟨rfl, rfl⟩

theorem ioFetch_read (s : State) : s.ioFetch.arb.read = s.arb.read ∨
    ∃ q, s.ioFetch.arb.read = some { sq := q, tag := s.link.next } := by
  obtain ⟨read, link⟩ := endTurnIfOver_same s
  rw [State.ioFetch]
  split
  · exact .inl read
  · split
    · exact .inr ⟨_, by rw [← link]; rfl⟩
    · rw [← read, ← link]
      exact offerTurns_read _ _

/-- The fetch arbiter waits for the read it waited for, or for one issued while the step settled. -/
theorem settle_arb_read (s : State) : s.settle.arb.read = s.arb.read ∨
    ∃ q tag, s.settle.arb.read = some { sq := q, tag := tag } ∧ s.link.next ≤ tag := by
  have first : Grows s s.releaseFences.moveAllStaged.reachMembers.deleteIfOver := .of_eq (by simp)
  have posts (u : State) : Grows u u.postAll := Grows.foldl _ grows_post _ u
  have before := ((first.trans (posts _)).trans (grows_issueEvent _)).trans (grows_adminFetch _)
  have arb (u : State) : u.moveAllStaged.reachMembers.deleteIfOver.postAll.issueEvent.adminFetch.arb = u.arb := by simp
  have fences : s.releaseFences.arb = s.arb := by simp
  have same := (arb s.releaseFences).trans fences
  have last (u : State) : u.pauseIfQuiet.arb = u.arb := by simp
  unfold State.settle
  rw [last, ← same]
  exact (ioFetch_read _).imp id fun ⟨q, issued⟩ => ⟨q, _, issued, before.next⟩

theorem Sq.standing_active_iff (x : Sq) : x.standing.state = .active ↔ x.state = .active := by
  rw [Sq.standing_state]
  split
  next deleting => simp [deleting]
  next => rfl

theorem deleteIfOver_read (s : State) : s.deleteIfOver.adm.read = s.adm.read := by
  unfold State.deleteIfOver State.adminDone
  (repeat' split) <;> rfl

/-- With SQ0 not ACTIVE, no read of it is issued while a step settles. -/
theorem settle_adm_read {s : State} (closed : (s.sq 0).state ≠ .active) : s.settle.adm.read = s.adm.read := by
  have first : s.releaseFences.moveAllStaged.reachMembers.adm = s.adm := by simp
  have second (u : State) : u.postAll.issueEvent.adm = u.adm := by simp
  have read : s.releaseFences.moveAllStaged.reachMembers.deleteIfOver.postAll.issueEvent.adm.read = s.adm.read := by
    rw [second, deleteIfOver_read, first]
  have stands : s.releaseFences.moveAllStaged.reachMembers.deleteIfOver.postAll.issueEvent.standing = s.standing := by simp
  have last (u : State) : u.ioFetch.pauseIfQuiet.adm = u.adm := by simp
  unfold State.settle
  rw [last]
  generalize s.releaseFences.moveAllStaged.reachMembers.deleteIfOver.postAll.issueEvent = u at read stands
  have closed : (u.sq 0).state ≠ .active := by
    rwa [ne_eq, ← Sq.standing_active_iff, ← standing_sq, stands, standing_sq, Sq.standing_active_iff]
  have idle : u.adminFetch = u := if_neg fun h => closed h.2.1
  rw [idle, read]

/-! ### Entry reads and timeouts -/

theorem ioEntry_unwaited {s : State} {op : Byte} {tag : Nat} {b : Body} (unwaited : ∀ rd, s.arb.read = some rd → rd.tag ≠ tag) :
    s.ioEntry op tag b = s.retire tag := by
  unfold State.ioEntry
  cases read : s.arb.read with
  | none => rfl
  | some rd => exact if_pos (unwaited rd read)

/-- Settles O43: the branches of the outcomes of entry reads; an access that runs out of time is the failed access at its
limit, and once a tick has passed none is older than 50 ms. -/
theorem entryReadsAndTimeouts : Obligations.EntryReadsAndTimeouts := by
  refine ⟨⟨fun q tag s io read active none => ⟨_, rfl, ?_⟩, fun q tag s closed old read => ⟨_, rfl, ?_⟩,
    fun tag s closed read other => ⟨_, rfl, ?_⟩, fun op k c row tag b s unwaited => ?_⟩,
    fun tag s => ?_, fun low s d hd => ?_⟩
  · have failed : s.readFailed q tag = State.sqError .memory (s.discardRead tag) q :=
      (if_neg io).trans (if_pos read)
    have own := sqError_of_no_chain (s := s.discardRead tag) .memory active none
    rw [settle_standing, failed, own, sqFailed_standing, handEvent_standing, handEvent_standing, setSq_standing,
      setSq_standing]
    rfl
  · have discarded : s.readDiscarded q tag = s.discardRead tag :=
      (if_neg fun h => closed h.1).trans (if_pos read)
    rw [settle_standing, discarded]
    refine ⟨rfl, fun rd waits => ?_⟩
    obtain same | ⟨p, t, issued, new⟩ := settle_arb_read (s.discardRead tag)
    · exact nomatch waits.symm.trans same
    · obtain rfl := Option.some.inj (issued.symm.trans waits)
      exact (Nat.lt_of_lt_of_le old new).ne'
  · have discarded : s.readDiscarded 0 tag = (s.retire tag).setAdm { s.adm with read := none } :=
      (if_neg fun h => closed h.1).trans ((if_neg fun h => other _ h rfl).trans (if_pos ⟨rfl, read⟩))
    rw [settle_standing, discarded]
    exact ⟨rfl, settle_adm_read closed⟩
  · simp only [ioRows, List.mem_cons, Prod.mk.injEq, List.not_mem_nil, or_false] at row
    have unread (op : Byte) : ∃ t, done (s.ioEntry op tag b) = .next t ∧ t.standing = s.standing :=
      ⟨_, rfl, by rw [ioEntry_unwaited unwaited, settle_standing, standing_retire]⟩
    obtain ⟨rfl, -, rfl⟩ | ⟨rfl, -, rfl⟩ | ⟨rfl, -, rfl⟩ | ⟨rfl, -, rfl⟩ | ⟨rfl, -, rfl⟩ | ⟨rfl, -, rfl⟩ | ⟨rfl, -, rfl⟩ := row
    all_goals exact unread _
  · have late : ∀ a : Access, s.timedOut a tag = (match
          ((s.link.outstanding.filter fun d => d.tag == tag).map (·.issued)).min? with
        | some i => s.advance (i + 5000)
        | none => s : State).failAccess a tag := fun a => by
      unfold State.timedOut State.limitEnd
      cases ((s.link.outstanding.filter fun d => d.tag == tag).map (·.issued)).min? <;> rfl
    exact ⟨fun q => ⟨_, rfl, congrArg done (late (.entryRead q)).symm⟩,
      fun c => ⟨_, rfl, congrArg done (late (.completion c)).symm⟩,
      fun n => ⟨_, rfl, congrArg done (late (.buffer n)).symm⟩, ⟨_, rfl, congrArg done (late .result).symm⟩,
      ⟨_, rfl, congrArg done (late .event).symm⟩⟩
  · let u := s.takeTimed.sampleLines low
    have issues : Issues u (s.passTick low) :=
      (Issues.foldl State.faultIfStuck issues_faultIfStuck segIds u).trans (issues_settle _)
    rw [State.passTick_ticks]
    have limit : dmaLimit = 5000 := rfl
    obtain old | new := issues.outstanding d hd
    · have young : s.ticks < d.issued + dmaLimit := takeTimed_young old
      omega
    · have now : u.ticks = s.ticks + 1 := by simp [u]
      omega

end Sys2Proof.Machine
end

section
/-! PROOFS. Fetching (R86, R90 to R92), and the fields of I/O commands (R70). -/

namespace Sys2Proof.Machine

set_option Elab.async false -- one thread elaborates: the checker's memory is limited

/-! ### Fields -/

theorem isSome_segOfByte (b : Byte) : (segOfByte b).isSome = true ↔ b.toNat ≤ 3 := by
  by_cases h : b.toNat ≤ 3
  · simp [segOfByte_some (g := ⟨b.toNat, by omega⟩) rfl, h]
  · simp [segOfByte_none (b := b) (by omega), h]

theorem isSome_slotOfByte (b : Byte) : (slotOfByte b).isSome = true ↔ 1 ≤ b.toNat ∧ b.toNat ≤ 62 := by
  by_cases h : 1 ≤ b.toNat ∧ b.toNat ≤ 62
  · simp [slotOfByte_some (a := ⟨b.toNat - 1, by omega⟩) (Nat.sub_add_cancel h.1).symm, h]
  · simp [slotOfByte_none (b := b) (by omega), h]

/-- Settles O38: each kind's check, conjunct by conjunct. -/
theorem ioFieldRanges : Obligations.IoFieldRanges := by
  intro r place
  have target : (segOfByte (r.byte 4)).isSome = true ∧ (slotOfByte (r.byte 5)).isSome = true ↔ place := by
    rw [isSome_segOfByte, isSome_slotOfByte]
  refine ⟨fun k kind => ?_, ?_, ?_, ?_, ?_⟩
  · obtain rfl | rfl | rfl := kind
    all_goals exact Bool.and_eq_true_iff.trans target
  · simp [IoKind.fieldsOk, isSome_segOfByte, and_assoc]
  · simp only [IoKind.fieldsOk, fitsBelowTop, Bool.and_eq_true, decide_eq_true_eq, beq_iff_eq, Bool.not_eq_true', target,
      and_assoc]
  · simp only [IoKind.fieldsOk, Bool.and_eq_true, decide_eq_true_eq, beq_iff_eq, Bool.not_eq_true', target, and_assoc]
  · simp [IoKind.fieldsOk]

/-! ### The fetch arbiter -/

theorem canFetch_iff (s : State) (q : SqId) : s.canFetch q = true ↔
    (s.sq q).state = .active ∧ ((s.sq q).tail + (s.sq q).size - (s.sq q).head) % (s.sq q).size ≠ 0 ∧
    (s.sq q).staging = none ∧ s.ctxs.length < 64 ∧
    ∀ l, s.lock = some l → l.sq ≠ q → s.ctxs.length + (16 - l.fetched) < 64 := by
  have available : s.available q = true ↔ s.ctxs.length < 64 ∧
      ∀ l, s.lock = some l → l.sq ≠ q → s.ctxs.length + (16 - l.fetched) < 64 := by
    unfold State.available State.freeCount
    cases s.lock with
    | none =>
      simp only [decide_eq_true_eq, reduceCtorEq, false_implies, implies_true, and_true]
      omega
    | some l =>
      simp only [Option.some.injEq, forall_eq']
      split
      next same =>
        simp only [decide_eq_true_eq, same, ne_eq, not_true_eq_false, false_implies, and_true]
        omega
      next other =>
        simp only [decide_eq_true_eq, ne_eq, other, not_false_eq_true, true_implies]
        omega
  have unfetched : (s.sq q).unfetched = ((s.sq q).tail + (s.sq q).size - (s.sq q).head) % (s.sq q).size := rfl
  simp only [State.canFetch, Bool.and_eq_true, beq_iff_eq, bne_iff_ne, Option.isNone_iff_eq_none, available, unfetched,
    and_assoc]

theorem holdsLock_iff (s : State) (q : SqId) : s.holdsLock q = true ↔ ∃ l, s.lock = some l ∧ l.sq = q := by
  unfold State.holdsLock
  cases s.lock <;> simp

theorem issueRead_headRead (s : State) (q : SqId) : headRead s (s.issueRead q) q := rfl

theorem endTurnIfOver_of_no_turn {s : State} (turn : s.arb.turn = none) : s.endTurnIfOver = s := by
  rw [State.endTurnIfOver, turn]

theorem endTurnIfOver_of_turn {s : State} {q : SqId} (running : s.ctl.engine = .running) (read : s.arb.read = none)
    (turn : s.arb.turn = some q) : s.endTurnIfOver =
      if s.canFetch q = true ∧ (s.arb.count < (s.sq q).weight ∨ ∃ l, s.lock = some l ∧ l.sq = q) then s else s.endTurn q := by
  rw [State.endTurnIfOver, turn]
  dsimp only
  rw [← ite_not]
  refine if_congr ?_ rfl rfl
  have active (fetch : s.canFetch q = true) : (s.sq q).state = .active := ((canFetch_iff s q).1 fetch).1
  rw [← holdsLock_iff]
  by_cases fetch : s.canFetch q = true
  · simp [running, read, fetch, active fetch, imp_iff_not_or]
  · simp [running, read, fetch]

/-- With no read outstanding and the engine RUNNING, the arbiter goes on. -/
theorem ioFetch_eq {s : State} (running : s.ctl.engine = .running) (read : s.arb.read = none) : s.ioFetch =
    (match s.endTurnIfOver.arb.turn with
      | some q => s.endTurnIfOver.issueRead q
      | none => State.offerTurns (turnOrder s.endTurnIfOver.arb.rotation) s.endTurnIfOver) := by
  obtain ⟨same, -⟩ := endTurnIfOver_same s
  refine if_neg ?_
  rw [same, read]
  simp [running]

theorem ioFetch_of_no_turn {s : State} (running : s.ctl.engine = .running) (read : s.arb.read = none)
    (turn : s.arb.turn = none) : s.ioFetch = State.offerTurns (turnOrder s.arb.rotation) s := by
  rw [ioFetch_eq running read, endTurnIfOver_of_no_turn turn, turn]

theorem lockChance_of_no_start {s : State} {q : SqId} (none : ∀ x, (s.sq q).staging = some x → x.waitsLock = false) :
    s.lockChance q = s := by
  have start : (s.sq q).waitingStart = Option.none := by
    unfold Sq.waitingStart
    split
    next t staged => exact if_neg (by simp [none t staged])
    next => rfl
  rw [State.lockChance, start]

section

variable {s : State} (turn : s.arb.turn = none) (starts : ∀ q x, (s.sq q).staging = some x → x.waitsLock = false)
include turn starts

theorem offerTurns_skip {l : List SqId} (cannot : ∀ p ∈ l, s.canFetch p = false) (m : List SqId) :
    State.offerTurns (l ++ m) s = State.offerTurns m s := by
  induction l with
  | nil => rfl
  | cons p l ih =>
    rw [List.cons_append, State.offerTurns, lockChance_of_no_start (starts p)]
    have first := cannot p List.mem_cons_self
    rw [if_neg (by simp [first]), if_neg (by simp [turn])]
    exact ih fun q hq => cannot q (List.mem_cons_of_mem p hq)

theorem offerTurns_first {l : List SqId} {q : SqId} (cannot : ∀ p ∈ l, s.canFetch p = false) (can : s.canFetch q = true)
    (m : List SqId) : State.offerTurns (l ++ q :: m) s = s.issueRead q := by
  rw [offerTurns_skip turn starts cannot, State.offerTurns, lockChance_of_no_start (starts q)]
  exact if_pos can

theorem offerTurns_none {l : List SqId} (cannot : ∀ p ∈ l, s.canFetch p = false) : State.offerTurns l s = s := by
  have skip := offerTurns_skip turn starts cannot []
  rwa [List.append_nil] at skip

end

/-- The place of a queue in the order of turns after a rotation position (R90, R91). -/
def turnPlace (rotation : Option SqId) (q : SqId) : Nat := (q.val + 14 - (rotation.elim 0 (·.val))) % 15

theorem turnOrder_sorted (rotation : Option SqId) :
    (turnOrder rotation).Pairwise (fun p q => turnPlace rotation p < turnPlace rotation q) := by
  cases rotation with
  | none => decide
  | some r => revert r; decide

theorem mem_turnOrder (rotation : Option SqId) (q : SqId) : q ∈ turnOrder rotation ↔ q ≠ 0 := by
  cases rotation with
  | none => simp [turnOrder, mem_sqIds]
  | some r =>
    simp only [turnOrder, List.mem_append, List.mem_filter, mem_sqIds, decide_eq_true_eq, true_and]
    exact ⟨fun h => h.elim And.left And.left, fun io => (lt_or_ge r q).imp (And.intro io) (And.intro io)⟩

/-- Settles O37: the branches of the two fetchers; a search through the queues finds the first that can fetch. -/
theorem entriesAreFetched : Obligations.EntriesAreFetched := by
  refine ⟨fun s => ⟨fun may => ?_, fun not => if_neg not⟩, canFetch_iff, fun s idle => ?_,
    fun s q running read turn => ⟨fun goesOn => ?_, fun ends => ?_⟩, fun s running read turn starts => ?_⟩
  · have fetched : s.adminFetch = (s.issue (.entryRead 0) (slotAddr (s.sq 0).base 32 (s.sq 0).head) []).setAdm
        { ctx := none, read := some s.link.next } := if_pos may
    rw [fetched]
    exact ⟨rfl, rfl⟩
  · obtain ⟨read, link⟩ := endTurnIfOver_same s
    have ctl : s.endTurnIfOver.ctl = s.ctl := by simp
    have same : s.ioFetch = s.endTurnIfOver := if_pos (by
      rw [ctl, read, Option.isSome_iff_ne_none]
      exact idle)
    rw [same]
    exact ⟨read, link⟩
  · have on : s.ioFetch = s.issueRead q := by
      rw [ioFetch_eq running read, endTurnIfOver_of_turn running read turn, if_pos goesOn, turn]
    rw [on]
    refine ⟨?_, issueRead_headRead s q⟩
    change ({ s.arb with turn := some q, read := some { sq := q, tag := s.link.next } } : FetchArb) = _
    rw [← turn]
  · let u : State := { s with arb := { rotation := some q, turn := none, count := 0, read := none } }
    have ended : s.endTurn q = u := congrArg (fun r => ({ s with
      arb := { rotation := some q, turn := none, count := 0, read := r } } : State)) read
    rw [ioFetch_eq running read, endTurnIfOver_of_turn running read turn, if_neg ends, ended]
    exact (ioFetch_of_no_turn (s := u) running rfl rfl).symm
  · intro place
    have same : place = turnPlace s.arb.rotation := by
      funext q
      change (q.val + 14 - _) % 15 = (q.val + 14 - _) % 15
      cases s.arb.rotation <;> rfl
    have offers := ioFetch_of_no_turn running read turn
    refine ⟨fun q io can first => ?_, fun cannot => ?_⟩
    · obtain ⟨l, m, order⟩ := List.append_of_mem ((mem_turnOrder s.arb.rotation q).2 io)
      have sorted := turnOrder_sorted s.arb.rotation
      rw [order, List.pairwise_append] at sorted
      obtain ⟨-, -, before⟩ := sorted
      have served : s.ioFetch = s.issueRead q := by
        rw [offers, order]
        refine offerTurns_first turn starts (fun p hp => first p ?_ ?_) can m
        · exact (mem_turnOrder s.arb.rotation p).1 (order ▸ List.mem_append_left _ hp)
        · rw [same]
          exact before p hp q List.mem_cons_self
      rw [served]
      exact ⟨rfl, issueRead_headRead s q⟩
    · rw [offers]
      exact offerTurns_none turn starts fun p hp => cannot p ((mem_turnOrder s.arb.rotation p).1 hp)

end Sys2Proof.Machine
end

section
/-! PROOFS. What follows by itself, part by part (`State.settle`): FENCEs, staged contexts, chains, and the rest (R83, R93,
R94, R105). -/

namespace Sys2Proof.Machine

set_option Elab.async false -- one thread elaborates: the checker's memory is limited

/-! ### The parts -/

/-- What follows once FENCEs are released, staged contexts have moved and chains have reached their members. -/
def State.settleLast (s : State) : State :=
  s.deleteIfOver.postAll.issueEvent.adminFetch.ioFetch.pauseIfQuiet

theorem settle_eq (s : State) : s.settle = s.releaseFences.moveAllStaged.reachMembers.settleLast := rfl

theorem keeps_settleLast (s : State) : Keeps s s.settleLast := by
  have writes (u : State) : Keeps u u.postAll.issueEvent.adminFetch := .of_eq (by simp) (by simp)
  have paused (u : State) : Keeps u u.pauseIfQuiet := .of_eq (by simp) (by simp)
  exact (((keeps_deleteIfOver s).trans (writes _)).trans (keeps_ioFetch _)).trans (paused _)

theorem keeps_moveAllStaged (s : State) : Keeps s s.moveAllStaged := Keeps.foldl _ keeps_moveStaged _ s

theorem keeps_reachMembers (s : State) : Keeps s s.reachMembers := Keeps.foldl _ keeps_reachMember _ s

theorem keeps_releaseFences (s : State) : Keeps s s.releaseFences := Keeps.foldl _ keeps_releaseFence _ s

theorem onward_settleLast (s : State) : Onward s s.settleLast where
  distinct := (keeps_settleLast s).distinct
  stays distinct d hd hk := (keeps_settleLast s).calm distinct d hd hk.calm
  owes c i h := by
    have deleted : (s.deleteIfOver.cq c).owes i := by
      unfold State.deleteIfOver
      split
      · split
        · exact owes_adminDone _ _ (by simpa using h)
        · exact h
      · exact h
    have posted : (s.deleteIfOver.postAll.cq c).owes i := foldl_owes _ (fun _ _ h => owes_post _ h) _ deleted
    have last (u : State) : u.issueEvent.adminFetch.ioFetch.pauseIfQuiet.cqs = u.cqs := by simp
    unfold State.settleLast
    exact owes_of_cqs (last _) posted
  outstanding := by
    have deleted : Grows s s.deleteIfOver := .of_eq (by simp)
    have posts (u : State) : Grows u u.postAll := Grows.foldl _ grows_post _ u
    have paused (u : State) : Grows u u.pauseIfQuiet := .of_eq (by simp)
    unfold State.settleLast
    exact (((((deleted.trans (posts _)).trans (grows_issueEvent _)).trans (grows_adminFetch _)).trans
      (grows_ioFetch _)).trans (paused _)).outstanding

/-- What follows after the FENCEs takes nothing from what has ended. -/
theorem onward_members (s : State) : Onward s s.moveAllStaged.reachMembers where
  distinct := (keeps_reachMembers _).distinct ∘ (keeps_moveAllStaged s).distinct
  stays distinct d hd hk := ((keeps_moveAllStaged s).trans (keeps_reachMembers _)).calm distinct d hd hk.calm
  owes _ _ := owes_of_cqs (by simp)
  outstanding m hm := by simpa using hm

/-! ### The chain-fetch lock -/

theorem offerTurns_lock {l : ChainLock} (q : List SqId) {s : State} (held : s.lock = some l) :
    (State.offerTurns q s).lock = some l := by
  induction q generalizing s with
  | nil => exact held
  | cons p q ih =>
    have same : s.lockChance p = s := by
      unfold State.lockChance
      split
      · exact if_neg fun h => by simp [State.lockFree, held] at h
      · rfl
    rw [State.offerTurns, same]
    split
    · exact held
    · refine ih ?_
      split <;> exact held

/-- A lock that is held stays as it is while a step settles. -/
theorem settle_lock {s : State} {l : ChainLock} (held : s.lock = some l) : s.settle.lock = some l := by
  have before (u : State) : u.moveAllStaged.reachMembers.deleteIfOver.postAll.issueEvent.adminFetch.lock = u.lock := by simp
  have fences : s.releaseFences.lock = s.lock := by simp
  have last (u : State) : u.pauseIfQuiet.lock = u.lock := by simp
  have same := (before s.releaseFences).trans (fences.trans held)
  rw [settle_eq, State.settleLast, last]
  generalize s.releaseFences.moveAllStaged.reachMembers.deleteIfOver.postAll.issueEvent.adminFetch = u at same
  have turn : u.endTurnIfOver.lock = some l := by simpa using same
  rw [State.ioFetch]
  split
  · exact turn
  · split
    · exact turn
    · exact offerTurns_lock _ turn

/-! ### Holders, and the members of chains that hold no segment -/

theorem seg_updSeg_holder {s : State} (g h : SegId) {f : SegCtl → SegCtl} (same : ∀ y, (f y).holder = y.holder) :
    ((s.updSeg h f).seg g).holder = (s.seg g).holder := by
  rw [State.seg_updSeg]
  split
  · exact same _
  · rfl

theorem becomeReady_holder (s : State) (n : CtxNum) (st : Status) (g : SegId) :
    ((s.becomeReady n st).seg g).holder = (s.seg g).holder := by
  unfold State.becomeReady
  split
  next => rfl
  next c _ =>
    have unlisted : ((s.unlist c).seg g).holder = (s.seg g).holder := by
      unfold State.unlist
      exact seg_updSeg_holder (s := s) (f := (·.unlist c.num)) g c.seg fun _ => rfl
    dsimp only
    split <;> exact unlisted

theorem place_holder (s : State) (n : CtxNum) (g : SegId) : ((s.place n).seg g).holder = (s.seg g).holder := by
  unfold State.place
  split
  next => rfl
  next c _ =>
    split
    · exact seg_updSeg_holder (s := s.updCtx n fun c => { c with state := .pending }) g c.seg
        (f := fun y => { y with pendingList := y.pendingList ++ [n] }) fun _ => rfl
    · rfl

theorem releaseFences_holder (s : State) (g : SegId) : ((s.releaseFences).seg g).holder = (s.seg g).holder := by
  refine foldl_same (fun u : State => (u.seg g).holder) _ (fun u n => ?_) _ s
  unfold State.releaseFence
  split
  next => rfl
  next =>
    split
    · exact becomeReady_holder u n .success g
    · rfl

theorem moveAllStaged_holder (s : State) (g : SegId) : ((s.moveAllStaged).seg g).holder = (s.seg g).holder := by
  refine foldl_same (fun u : State => (u.seg g).holder) _ (fun u n => ?_) _ s
  unfold State.moveStaged
  split
  next => rfl
  next =>
    split
    · exact place_holder u n g
    · rfl

/-- A context that is not in FENCE_WAIT is left by the release of FENCEs. -/
theorem spares_releaseFences {d : Ctx} {s : State} (distinct : s.distinct) (other : d.state ≠ .fenceWait) :
    Spares d s s.releaseFences := by
  refine fun hd => Spares.foldl (fun u n hn => spares_releaseFence u ?_) s hd
  rintro rfl
  obtain ⟨e, he, num⟩ := List.mem_map.1 hn
  obtain ⟨he, waits⟩ := List.mem_filter.1 he
  exact other (eq_of_num distinct hd he num.symm ▸ by simpa using waits)
where
  spares_releaseFence {d : Ctx} {n : CtxNum} (u : State) (other : d.num ≠ n) : Spares d u (u.releaseFence n) := by
    unfold State.releaseFence
    split
    next => exact .refl d u
    next =>
      split
      · exact spares_becomeReady u other .success
      · exact .refl d u

theorem spares_place {d : Ctx} {n : CtxNum} (s : State) (other : d.num ≠ n) : Spares d s (s.place n) := by
  unfold State.place
  split
  next => exact .refl d s
  next c _ =>
    split
    · have moved := (spares_updCtx s other fun c => { c with state := .pending }).trans
        (spares_updSeg _ other c.seg (f := fun y => { y with pendingList := y.pendingList ++ [n] })
          (fun _ _ h _ => List.mem_append_left _ h) fun _ _ h _ => h)
      exact moved.trans (.of_segs rfl rfl)
    · exact (spares_updCtx s other fun c => { c with state := .staged }).trans (.of_segs rfl rfl)

theorem spares_moveStaged {d : Ctx} {n : CtxNum} (s : State) (other : d.num ≠ n) : Spares d s (s.moveStaged n) := by
  unfold State.moveStaged
  split
  next => exact .refl d s
  next =>
    split
    · exact spares_place s other
    · exact .refl d s

/-- A context that is not STAGED is left by the moves of staged contexts. -/
theorem spares_moveAllStaged {d : Ctx} {s : State} (distinct : s.distinct) (other : d.state ≠ .staged) :
    Spares d s s.moveAllStaged := by
  refine fun hd => Spares.foldl (fun u n hn => spares_moveStaged u ?_) s hd
  rintro rfl
  obtain ⟨e, he, num⟩ := List.mem_map.1 hn
  obtain ⟨he, staged⟩ := List.mem_filter.1 he
  obtain rfl := eq_of_num distinct hd he num.symm
  simp only [State.ordinaryStaged, Bool.and_eq_true, beq_iff_eq] at staged
  exact other staged.1

theorem mem_liveMembers {s : State} {id : Nat} {c : Ctx} :
    c ∈ s.liveMembers id ↔ c ∈ s.ctxs ∧ c.inChain id = true ∧ c.state ≠ .ready := by
  simp [State.liveMembers]

/-- A member of a chain that holds no segment is left when chains reach their members. -/
theorem spares_reachMember {d : Ctx} {s : State} (g : SegId) (distinct : s.distinct)
    (other : ∀ id, (s.seg g).holder = some (.chain id) → d.inChain id = false) : Spares d s (s.reachMember g) := by
  unfold State.reachMember
  split
  next id held =>
    split
    next => exact spares_relisted d s g fun _ => ⟨rfl, rfl⟩
    next c l live =>
      split
      · intro hd
        refine spares_updCtx s (fun same => ?_) _ hd
        obtain ⟨hc, member, -⟩ := mem_liveMembers.1 (live ▸ List.mem_cons_self : c ∈ s.liveMembers id)
        obtain rfl := eq_of_num distinct hd hc same
        exact absurd member (by simp [other id held])
      · exact .refl d s
  next => exact .refl d s

theorem reachMember_holder (s : State) (h g : SegId) :
    ((s.reachMember h).seg g).holder = (s.seg g).holder ∨ ((s.reachMember h).seg g).holder = none := by
  unfold State.reachMember
  split
  · split
    · rw [State.seg_updSeg]
      split
      · exact .inr rfl
      · exact .inl rfl
    · split <;> exact .inl rfl
  · exact .inl rfl

theorem spares_reachMembers {d : Ctx} {s : State} (distinct : s.distinct)
    (other : ∀ g id, (s.seg g).holder = some (.chain id) → d.inChain id = false) : Spares d s s.reachMembers := by
  suffices fold : ∀ (l : List SegId) (u : State), u.distinct →
      (∀ g id, (u.seg g).holder = some (.chain id) → d.inChain id = false) → Spares d u (l.foldl State.reachMember u) from
    fold segIds s distinct other
  intro l
  induction l with
  | nil => exact fun u _ _ => .refl d u
  | cons g l ih =>
    intro u distinct other
    refine (spares_reachMember g distinct (other g)).trans (ih _ ((keeps_reachMember u g).distinct distinct) fun h id => ?_)
    obtain same | none := reachMember_holder u g h
    · rw [same]
      exact other h id
    · rw [none]
      exact fun held => nomatch held

/-- A context that is not STAGED is left by the last parts of settling. -/
theorem spares_settleLast {d : Ctx} {s : State} (distinct : s.distinct) (unstaged : d.state ≠ .staged) :
    Spares d s s.settleLast := by
  have chance (u : State) (q : SqId) (distinct : u.distinct) : Spares d u (u.lockChance q) := by
    unfold State.lockChance
    split
    next n _ =>
      split
      next may =>
        intro hd
        refine Spares.trans (t := u.takeLock n) ?_ (.of_segs (by simp) (by simp)) hd
        unfold State.takeLock
        split
        next => exact .refl d u
        next c hc =>
          split
          next => exact .refl d u
          next m _ =>
            have locked : Spares d u (u.setLock (some { sq := c.sq, chain := m.id, fetched := 1 })) := .of_segs rfl rfl
            refine locked.trans (spares_place _ fun same => ?_)
            obtain ⟨-, -, staged⟩ := may
            obtain ⟨hc', num⟩ := ctx_mem hc
            obtain rfl := eq_of_num distinct hd hc' (same.trans num.symm)
            exact unstaged (by simpa [State.isStaged, hc] using staged)
      next => exact .refl d u
    next => exact .refl d u
  have turns (l : List SqId) : ∀ u : State, u.distinct → Spares d u (State.offerTurns l u) := by
    induction l with
    | nil => exact fun u _ => .refl d u
    | cons q l ih =>
      intro u distinct
      have still := (keeps_lockChance u q).distinct distinct
      rw [State.offerTurns]
      refine (chance u q distinct).trans ?_
      split
      · exact .of_segs (by simp) (by simp)
      · split
        · exact Spares.trans (t := (u.lockChance q).endTurn q) (.of_segs (by simp) (by simp)) (ih _ still)
        · exact ih _ still
  have fetch (u : State) (distinct : u.distinct) : Spares d u u.ioFetch := by
    have ended : Spares d u u.endTurnIfOver := .of_segs (by simp) (by simp)
    have still : u.endTurnIfOver.distinct := by simpa [State.distinct] using distinct
    rw [State.ioFetch]
    refine ended.trans ?_
    split
    · exact .refl d _
    · split
      · exact .of_segs (by simp) (by simp)
      · exact turns _ _ still
  have deleted : Spares d s s.deleteIfOver := by
    have ctxs : s.deleteIfOver.ctxs = s.ctxs := by
      unfold State.deleteIfOver State.adminDone
      (repeat' split) <;> rfl
    exact .of_segs ctxs (by simp)
  have writes (u : State) : Spares d u u.postAll.issueEvent.adminFetch := .of_segs (by simp) (by simp)
  have same (u : State) : u.postAll.issueEvent.adminFetch.ctxs = u.ctxs := by simp
  have still : s.deleteIfOver.postAll.issueEvent.adminFetch.distinct := by
    rw [State.distinct, same]
    exact (keeps_deleteIfOver s).distinct distinct
  have paused (u : State) : Spares d u u.pauseIfQuiet := .of_segs (by simp) (by simp)
  exact ((deleted.trans (writes _)).trans (fetch _ still)).trans (paused _)

/-- A PENDING member of a chain that holds no segment is left while a step settles. -/
theorem spares_settle_member {d : Ctx} {s : State} (distinct : s.distinct) (pending : d.state = .pending)
    (other : ∀ g id, (s.seg g).holder = some (.chain id) → d.inChain id = false) : Spares d s s.settle := by
  have first := (keeps_releaseFences s).distinct distinct
  have second := (keeps_moveAllStaged _).distinct first
  rw [settle_eq]
  refine (((spares_releaseFences distinct (by simp [pending])).trans (spares_moveAllStaged first (by simp [pending]))).trans
    (spares_reachMembers second fun g id held => other g id ?_)).trans
    (spares_settleLast ((keeps_reachMembers _).distinct second) (by simp [pending]))
  rw [← held, moveAllStaged_holder, releaseFences_holder]

end Sys2Proof.Machine
end

section
/-! PROOFS. I/O entries as they are fetched: taken, refused, placed (R45, R68 to R73, R93), and FENCEs (R83, R98, R107). -/

namespace Sys2Proof.Machine

set_option Elab.async false -- one thread elaborates: the checker's memory is limited

/-! ### An entry that is taken -/

theorem Record.byte_zero_of (op : Byte) (b : Body) : (Record.of op b).byte 0 = op := by
  unfold Record.of Record.byte
  ext i hi
  have low := (BitVec.getLsbD_append (x := b) (y := op) (i := i)).trans (if_pos hi)
  rw [BitVec.getElem_extractLsb', Nat.mul_zero, Nat.zero_add, ← BitVec.getLsbD_eq_getElem]
  exact low

/-- A row of the I/O commands reads its entry, of its kind. -/
theorem ioRow_reads {op : Byte} {k : IoKind} {c : Nat → Body → Instr} (row : (op, k, c) ∈ ioRows) :
    IoKind.ofCode op = some k ∧ ∀ tag b s, exec (c tag b) s = done (s.ioEntry op tag b) := by
  simp only [ioRows, List.mem_cons, Prod.mk.injEq, List.not_mem_nil, or_false] at row
  obtain ⟨rfl, rfl, rfl⟩ | ⟨rfl, rfl, rfl⟩ | ⟨rfl, rfl, rfl⟩ | ⟨rfl, rfl, rfl⟩ | ⟨rfl, rfl, rfl⟩ | ⟨rfl, rfl, rfl⟩ |
    ⟨rfl, rfl, rfl⟩ := row
  all_goals exact ⟨rfl, fun _ _ _ => rfl⟩

/-- The state once the entry has its context, before it is validated and placed (R45, R68, R71). -/
def State.taken (s : State) (q : SqId) (n : CtxNum) (r : Record) : State :=
  let x := s.sq q
  let mem := chainOf x.chain r s.nextChain
  let s := (s.setArb { s.arb with
    count := if s.arb.turn = some q then s.arb.count + 1 else s.arb.count, read := none }).setLock (lockAfter s.lock mem.1)
  let s : State := { s.setCtxs (s.ctxs ++ [Ctx.fetched n q r mem.1]) with nextChain := s.nextChain + 1 }
  s.setSq q { x with head := nextSlot x.size x.head, chain := mem.2.1 }

theorem takeEntry_eq (s : State) (q : SqId) (n : CtxNum) (r : Record) : s.takeEntry q n r =
    (s.taken q n r).settleEntry q n r (chainOf (s.sq q).chain r s.nextChain).1 (firstSegByte (s.sq q).chain r)
      (chainOf (s.sq q).chain r s.nextChain).2.2 := rfl

section

variable {s : State} {q : SqId} {n : CtxNum} {r : Record}

theorem ioEntry_taken {op : Byte} {tag : Nat} {b : Body} (read : s.arb.read = some { sq := q, tag := tag })
    (active : (s.sq q).state = .active) (fresh : s.freshNum = some n) :
    s.ioEntry op tag b = (s.retire tag).takeEntry q n (Record.of op b) := by
  unfold State.ioEntry
  rw [read]
  dsimp only
  rw [if_neg (not_not.2 rfl), if_neg (not_not.2 active), fresh]

theorem taken_ctxs : (s.taken q n r).ctxs = s.ctxs ++ [Ctx.fetched n q r (chainOf (s.sq q).chain r s.nextChain).1] := rfl

theorem taken_sq (k : SqId) : (s.taken q n r).sq k = if q = k then
    { s.sq q with head := nextSlot (s.sq q).size (s.sq q).head, chain := (chainOf (s.sq q).chain r s.nextChain).2.1 }
    else s.sq k := State.sq_setSq _ q k _

theorem taken_bound (k : SqId) : ((s.taken q n r).sq k).bound = (s.sq k).bound := by
  rw [taken_sq]
  split
  next same => rw [same]
  next => rfl

theorem taken_distinct (distinct : s.distinct) (fresh : ∀ c ∈ s.ctxs, c.num ≠ n) : (s.taken q n r).distinct := by
  show ((s.ctxs ++ [Ctx.fetched n q r _]).map (·.num)).Nodup
  rw [List.map_append, List.nodup_append]
  exact ⟨distinct, by simp, by simpa [Ctx.fetched] using fresh⟩

theorem mem_taken : Ctx.fetched n q r (chainOf (s.sq q).chain r s.nextChain).1 ∈ (s.taken q n r).ctxs :=
  List.mem_append_right _ (List.mem_singleton.2 rfl)

theorem taken_spares (d : Ctx) : Spares d s (s.taken q n r) := fun hd =>
  ⟨List.mem_append_left _ hd, fun _ => ⟨id, id⟩⟩

theorem taken_standing : (s.taken q n r).standing = ((s.entryTaken q).updSq q fun x =>
    { x with chain := (chainOf (s.sq q).chain r s.nextChain).2.1 }).standing := by
  refine standing_congr rfl rfl rfl (congrArg (tableMap Sq.standing) (vector_ext_get fun k => ?_)) rfl rfl rfl rfl rfl rfl
    rfl rfl rfl
  change (s.taken q n r).sq k = ((s.headMoved q).updSq q fun x => { x with chain := _ }).sq k
  rw [taken_sq, State.sq_updSq]
  unfold State.headMoved
  rw [State.sq_updSq]
  split
  next same => rw [same]
  next => rfl

/-- With no chain open, and no CHAIN flag, the entry stands outside chains. -/
theorem chainOf_outside {chain : Option OpenChain} (none : chain = Option.none) (flag : r.chainFlag = false) (fresh : Nat) :
    chainOf chain r fresh = (Option.none, Option.none, false) := by
  rw [none, chainOf, flag]
  rfl

theorem taken_standing_outside (none : (s.sq q).chain = Option.none) (flag : r.chainFlag = false) :
    (s.taken q n r).standing = (s.entryTaken q).standing := by
  rw [taken_standing, chainOf_outside none flag]
  refine standing_updSq _ q _ (congrArg Sq.standing ?_)
  have same : ((s.entryTaken q).sq q).chain = Option.none := by
    change ((s.headMoved q).sq q).chain = _
    rw [State.headMoved, State.sq_updSq_same]
    exact none
  rw [← same]

end

/-! ### Validation -/

theorem settleEntry_refused {s : State} {q : SqId} {n : CtxNum} {r : Record} {first : Byte} {st : Status}
    (refused : s.validate r none first = some st) : s.settleEntry q n r none first false = s.becomeReady n st := by
  unfold State.settleEntry
  rw [if_neg Bool.false_ne_true, refused]

theorem settleEntry_valid {s : State} {q : SqId} {n : CtxNum} {r : Record} {m : Option ChainMember} {first : Byte}
    (valid : s.validate r m first = none) : s.settleEntry q n r m first false = s.placeByKind q n r m := by
  unfold State.settleEntry
  rw [if_neg Bool.false_ne_true, valid]

theorem validate_opcode {s : State} {r : Record} {m : Option ChainMember} {first : Byte}
    (code : IoKind.ofCode (r.byte 0) = none) : s.validate r m first = some .invalidOpcode := by
  rw [State.validate, code]

theorem validate_fields {s : State} {r : Record} {m : Option ChainMember} {first : Byte} {k : IoKind}
    (code : IoKind.ofCode (r.byte 0) = some k) (fields : k.fieldsOk r = false) :
    s.validate r m first = some .invalidField := by
  rw [State.validate, code]
  exact if_pos (by simp [fields])

theorem validate_fence {s : State} {r : Record} {first : Byte} (code : IoKind.ofCode (r.byte 0) = some .fence)
    (keep : r.keepFlag = false) : s.validate r none first = none := by
  rw [State.validate, code]
  simp [IoKind.fieldsOk, keep, chainShapeOk]

/-- What the state of its segment makes of an entry (R69 check 4). -/
def SegState.refusal : SegState → Option Status
  | .active => none
  | .off => some .segmentOff
  | .draining => some .segmentOff
  | .faulted => some .segmentFault
  | .recovering => some .segmentFault

theorem validate_segment {s : State} {r : Record} {m : Option ChainMember} {first : Byte} {k : IoKind} {g : SegId}
    (code : IoKind.ofCode (r.byte 0) = some k) (fields : k.fieldsOk r = true) (shape : chainShapeOk k r m first = true)
    (fence : k ≠ .fence) (id : (r.byte 4).toNat = g.val) : s.validate r m first = (s.seg g).state.refusal := by
  rw [State.validate, code]
  dsimp only
  rw [if_neg (by simp [fields]), if_neg (by simp [shape]), if_neg fence, segOfByte_some id]
  dsimp only
  cases (s.seg g).state <;> rfl

/-! ### Entries that are READY at once -/

/-- An entry that becomes READY as it is taken, once the step has settled. -/
theorem takenReady_settled {s : State} {q : SqId} {n : CtxNum} {r : Record} (distinct : s.distinct)
    (fresh : ∀ c ∈ s.ctxs, c.num ≠ n) (active : (s.cq (s.sq q).bound).state = .active) (st : Status) :
    ((s.taken q n r).becomeReady n st).settle.readyWith (s.sq q).bound
      (Ctx.fetched n q r (chainOf (s.sq q).chain r s.nextChain).1) st ∧
    s.keepsOthers ((s.taken q n r).becomeReady n st).settle n ∧
    ((s.taken q n r).becomeReady n st).settle.standing = (s.taken q n r).standing := by
  have still := taken_distinct (q := q) (r := r) distinct fresh
  have bound := taken_bound (s := s) (q := q) (n := n) (r := r) q
  have open' : ((s.taken q n r).cq ((s.taken q n r).sq q).bound).state = .active := by
    rw [bound]
    exact active
  obtain ⟨-, ready⟩ := becomeReady_settled still mem_taken open' st
  have after := (shrinks_becomeReady (s.taken q n r) n st).distinct still
  refine ⟨bound ▸ ready, keepsOthers_of_spares after fun d other _ =>
    (taken_spares d).trans (spares_becomeReady _ other st), ?_⟩
  rw [settle_standing, standing_becomeReady]

theorem freshNum_of_takesIo {s : State} {q : SqId} {tag : Nat} (takes : s.takesIo q tag) : ∃ n, s.freshNum = some n := by
  obtain ⟨-, -, fresh, -⟩ := takes
  exact Option.isSome_iff_exists.1 fresh

/-- An entry outside chains that its validation refuses (R69, R72). -/
theorem entry_refused {s : State} {q : SqId} {tag : Nat} {op : Byte} {b : Body} {n : CtxNum} {st : Status}
    (takes : s.takesIo q tag) (distinct : s.distinct) (flag : (Record.of op b).chainFlag = false)
    (active : (s.cq (s.sq q).bound).state = .active) (fresh : s.freshNum = some n)
    (refused : ∀ first, ((s.retire tag).taken q n (Record.of op b)).validate (Record.of op b) none first = some st) :
    s.entryEnds (s.ioEntry op tag b).settle q (Ctx.fetched · q (Record.of op b) none) st := by
  obtain ⟨read, queue, -, none⟩ := takes
  have new := freshNum_fresh fresh
  have outside := chainOf_outside (r := Record.of op b) (chain := ((s.retire tag).sq q).chain) none flag (s.retire tag).nextChain
  have outcome : s.ioEntry op tag b = ((s.retire tag).taken q n (Record.of op b)).becomeReady n st := by
    rw [ioEntry_taken read queue fresh, takeEntry_eq, outside]
    exact settleEntry_refused (refused _)
  obtain ⟨ready, others, stands⟩ := takenReady_settled (s := s.retire tag) (q := q) (r := Record.of op b) distinct new active st
  rw [outside] at ready
  rw [outcome]
  refine ⟨n, new, ready, others, stands.trans ?_⟩
  rw [taken_standing_outside (s := s.retire tag) none flag]
  rfl

/-- Settles O40: each check that fails ends the entry; the order is that of `State.validate`. -/
theorem ioEntriesRefused : Obligations.IoEntriesRefused := by
  refine ⟨fun op k c row tag b s q takes distinct flag active => ?_, fun tag op b s q invalid takes distinct flag active => ?_⟩
  · obtain ⟨kind, reads⟩ := ioRow_reads row
    obtain ⟨n, fresh⟩ := freshNum_of_takesIo takes
    have code : IoKind.ofCode ((Record.of op b).byte 0) = some k := by rw [Record.byte_zero_of, kind]
    refine ⟨_, reads tag b s, fun bad => ?_, fun g fence fields id => ⟨fun state => ?_, fun state => ?_⟩⟩
    · exact entry_refused takes distinct flag active fresh fun _ => validate_fields code bad
    · refine entry_refused takes distinct flag active fresh fun _ => ?_
      rw [validate_segment code fields rfl fence id]
      change (s.seg g).state.refusal = _
      obtain state | state := state <;> rw [state] <;> rfl
    · refine entry_refused takes distinct flag active fresh fun _ => ?_
      rw [validate_segment code fields rfl fence id]
      change (s.seg g).state.refusal = _
      obtain state | state := state <;> rw [state] <;> rfl
  · obtain ⟨n, fresh⟩ := freshNum_of_takesIo takes
    have code : IoKind.ofCode ((Record.of op b).byte 0) = none := by
      rw [Record.byte_zero_of]
      simpa [codeValid] using invalid
    exact ⟨_, if_neg (by simp [invalid]), entry_refused takes distinct flag active fresh fun _ => validate_opcode code⟩

/-! ### FENCEs -/

/-- Every context was there before, of the same queue and with the same entry. -/
def Kin (s t : State) : Prop :=
  ∀ d ∈ t.ctxs, ∃ e ∈ s.ctxs, e.num = d.num ∧ e.sq = d.sq ∧ e.record = d.record ∧ e.chain = d.chain

theorem Kin.refl (s : State) : Kin s s := fun d hd => ⟨d, hd, rfl, rfl, rfl, rfl⟩

theorem Kin.trans {s t u : State} (h : Kin s t) (k : Kin t u) : Kin s u := by
  intro d hd
  obtain ⟨e, he, num, sq, record, chain⟩ := k d hd
  obtain ⟨f, hf, num', sq', record', chain'⟩ := h e he
  exact ⟨f, hf, num'.trans num, sq'.trans sq, record'.trans record, chain'.trans chain⟩

theorem Kin.of_eq {s t : State} (h : t.ctxs = s.ctxs) : Kin s t := fun d hd => ⟨d, h ▸ hd, rfl, rfl, rfl, rfl⟩

theorem kin_updCtx (s : State) (n : CtxNum) {f : Ctx → Ctx}
    (same : ∀ c, (f c).num = c.num ∧ (f c).sq = c.sq ∧ (f c).record = c.record ∧ (f c).chain = c.chain) :
    Kin s (s.updCtx n f) := by
  intro d hd
  obtain ⟨e, he, rfl⟩ := List.mem_map.1 hd
  split
  · obtain ⟨num, sq, record, chain⟩ := same e
    exact ⟨e, he, num.symm, sq.symm, record.symm, chain.symm⟩
  · exact ⟨e, he, rfl, rfl, rfl, rfl⟩

theorem kin_becomeReady (s : State) (n : CtxNum) (st : Status) : Kin s (s.becomeReady n st) := by
  unfold State.becomeReady
  split
  next => exact .refl s
  next c _ =>
    have unlisted : Kin s (s.unlist c) := .of_eq rfl
    dsimp only
    split
    · exact (unlisted.trans (kin_updCtx _ n (f := (·.asReady st)) fun _ => ⟨rfl, rfl, rfl, rfl⟩)).trans (.of_eq rfl)
    · exact unlisted.trans fun d hd => ⟨d, List.mem_of_mem_filter hd, rfl, rfl, rfl, rfl⟩

theorem kin_releaseFence (s : State) (n : CtxNum) : Kin s (s.releaseFence n) := by
  unfold State.releaseFence
  split
  next => exact .refl s
  next =>
    split
    · exact kin_becomeReady s n .success
    · exact .refl s

theorem Kin.foldl {β : Type} {f : State → β → State} (h : ∀ s b, Kin s (f s b)) (l : List β) (s : State) :
    Kin s (l.foldl f s) := by
  induction l generalizing s with
  | nil => exact .refl s
  | cons b l ih => exact (h s b).trans (ih _)

theorem core_releaseFence (s : State) (n : CtxNum) : (s.releaseFence n).core = s.core := by
  unfold State.releaseFence
  split
  next => rfl
  next => split <;> simp

/-- A FENCE fetched last, of a queue with no other command out of FREE, becomes READY as FENCEs are released (R83). -/
theorem releaseFences_last {s : State} {c : Ctx} {l : List Ctx} (distinct : s.distinct) (ctxs : s.ctxs = l ++ [c])
    (waits : c.state = .fenceWait) (first : ∀ d ∈ l, d.sq ≠ c.sq) (active : (s.cq (s.sq c.sq).bound).state = .active) :
    s.releaseFences.readyWith (s.sq c.sq).bound c .success := by
  have hc : c ∈ s.ctxs := ctxs ▸ List.mem_append_right l (List.mem_singleton.2 rfl)
  have new : c.num ∉ l.map (·.num) := by
    have nodup := distinct
    rw [State.distinct, ctxs, List.map_append, List.nodup_append] at nodup
    exact fun h => nodup.2.2 _ h _ (List.mem_singleton.2 rfl) rfl
  have fences : s.waitingFences = (l.filter fun c => c.state == .fenceWait).map (·.num) ++ [c.num] := by
    simp [State.waitingFences, ctxs, waits]
  unfold State.releaseFences
  rw [fences, List.foldl_append]
  let u := ((l.filter fun c => c.state == .fenceWait).map (·.num)).foldl State.releaseFence s
  have still : u.distinct := (Shrinks.foldl shrinks_releaseFence _ s).distinct distinct
  have kept : c ∈ u.ctxs := by
    refine (Spares.foldl (fun v n hn => spares_releaseFences.spares_releaseFence v ?_) s hc).1
    rintro rfl
    obtain ⟨d, hd, num⟩ := List.mem_map.1 hn
    exact new (List.mem_map.2 ⟨d, List.mem_of_mem_filter hd, num⟩)
  have others : ∀ d ∈ u.ctxs, d.num ≠ c.num → d.sq ≠ c.sq := by
    intro d hd other
    obtain ⟨e, he, num, sq, -⟩ := Kin.foldl kin_releaseFence _ s d hd
    rw [ctxs, List.mem_append, List.mem_singleton] at he
    obtain he | rfl := he
    · exact sq ▸ first e he
    · exact absurd num.symm other
  have core : u.core = s.core := foldl_core _ core_releaseFence _ s
  have bound : (u.sq c.sq).bound = (s.sq c.sq).bound := sq_bound_of_core core c.sq
  have released : u.releaseFence c.num = u.becomeReady c.num .success := by
    rw [State.releaseFence, ctx_of_mem still kept]
    refine if_pos ⟨waits, List.all_eq_true.2 fun d hd => ?_⟩
    have other : d.num ≠ c.num := by simpa using List.mem_takeWhile_imp hd
    simpa using others d ((List.takeWhile_prefix _).subset hd) other
  change (u.releaseFence c.num).readyWith _ _ _
  have open' : (u.cq (u.sq c.sq).bound).state = .active := by
    have same : (u.cq (s.sq c.sq).bound).state = (s.cq (s.sq c.sq).bound).state :=
      (congrArg Cq.state (cq_of_core core (s.sq c.sq).bound) :)
    rw [bound, same, active]
  rw [released, ← bound]
  exact becomeReady_readyWith still kept open' .success

/-- In a list with no two contexts of one number, those before a context are those taken while the number is another. -/
theorem takeWhile_before {l m : List Ctx} {c : Ctx} (distinct : ((l ++ c :: m).map (·.num)).Nodup) :
    (l ++ c :: m).takeWhile (fun d => d.num ≠ c.num) = l := by
  rw [List.map_append, List.nodup_append] at distinct
  obtain ⟨-, -, apart⟩ := distinct
  have before : ∀ d ∈ l, decide (d.num ≠ c.num) = true := fun d hd => by
    simpa using apart d.num (List.mem_map.2 ⟨d, hd, rfl⟩) c.num List.mem_cons_self
  rw [List.takeWhile_append_of_pos before, List.takeWhile_cons_of_neg (by simp), List.append_nil]

/-- A FENCE that is taken with no other command of its queue out of FREE, once the step has settled. -/
theorem takenFence_settled {s : State} {q : SqId} {n : CtxNum} {r : Record} (distinct : s.distinct)
    (fresh : ∀ c ∈ s.ctxs, c.num ≠ n) (active : (s.cq (s.sq q).bound).state = .active) (alone : ∀ c ∈ s.ctxs, c.sq ≠ q) :
    (s.taken q n r).settle.readyWith (s.sq q).bound
      (Ctx.fetched n q r (chainOf (s.sq q).chain r s.nextChain).1) .success ∧
    s.keepsOthers (s.taken q n r).settle n ∧ (s.taken q n r).settle.standing = (s.taken q n r).standing := by
  have still := taken_distinct (q := q) (r := r) distinct fresh
  have bound := taken_bound (s := s) (q := q) (n := n) (r := r) q
  have ctxs := taken_ctxs (s := s) (q := q) (n := n) (r := r)
  have cqs : (s.taken q n r).cqs = s.cqs := rfl
  have spares (d : Ctx) := taken_spares (s := s) (q := q) (n := n) (r := r) d
  generalize s.taken q n r = u at still bound ctxs cqs spares ⊢
  have open' : (u.cq (u.sq q).bound).state = .active := by
    rw [bound, State.cq, cqs]
    exact active
  have ready := releaseFences_last still ctxs rfl alone open'
  have after := (keeps_releaseFences u).distinct still
  refine ⟨?_, keepsOthers_of_spares still fun d _ _ => spares d, settle_standing u⟩
  rw [← bound, settle_eq]
  exact readyWith_onward ((onward_members _).trans (onward_settleLast _)) after ready

/-- Settles O41: a FENCE is released when nothing of its queue stands before it, and holds what stands after it. -/
theorem fenceEntries : Obligations.FenceEntries := by
  refine ⟨fun tag b s q takes distinct flag keep active alone => ?_, fun s l m c d distinct ctxs hd same => ?_,
    fun s l m c d distinct ctxs hd same waits => ?_⟩
  · obtain ⟨n, fresh⟩ := freshNum_of_takesIo takes
    obtain ⟨read, queue, -, none⟩ := takes
    have new := freshNum_fresh fresh
    have outside := chainOf_outside (r := Record.of 0x07 b) (chain := ((s.retire tag).sq q).chain) none flag
      (s.retire tag).nextChain
    have code : IoKind.ofCode ((Record.of 0x07 b).byte 0) = some .fence := by rw [Record.byte_zero_of]; rfl
    have outcome : s.ioEntry 0x07 tag b = (s.retire tag).taken q n (Record.of 0x07 b) := by
      rw [ioEntry_taken read queue fresh, takeEntry_eq, outside]
      refine (settleEntry_valid (validate_fence code keep)).trans ?_
      exact if_pos code
    obtain ⟨ready, others, stands⟩ := takenFence_settled (s := s.retire tag) (q := q) (r := Record.of 0x07 b) distinct new
      active alone
    rw [outside] at ready
    rw [taken_standing_outside (s := s.retire tag) none flag] at stands
    exact ⟨_, congrArg done outcome, n, new, ready, others, stands⟩
  · have hc : c ∈ s.ctxs := ctxs ▸ List.mem_append_right l List.mem_cons_self
    have before : s.ctxs.takeWhile (fun d => d.num ≠ c.num) = l := by
      rw [ctxs]
      exact takeWhile_before (ctxs ▸ distinct)
    rw [State.releaseFence, ctx_of_mem distinct hc]
    refine if_neg fun free => ?_
    have all := free.2
    rw [before] at all
    simpa [same] using List.all_eq_true.1 all d hd
  · have before : s.ctxs.takeWhile (fun d => d.num ≠ c.num) = l := by
      rw [ctxs]
      exact takeWhile_before (ctxs ▸ distinct)
    have blocked : s.noFenceBefore c = false := by
      rw [State.noFenceBefore, before, List.all_eq_false]
      exact ⟨d, hd, by simp [same, waits]⟩
    simp [State.startable, blocked]

end Sys2Proof.Machine
end

section
/-! PROOFS. How contexts are placed: in pending lists, in staging slots, as members of chains, and how chains fail (R71 to
R73, R93 to R95, R106). -/

namespace Sys2Proof.Machine

set_option Elab.async false -- one thread elaborates: the checker's memory is limited

/-! ### Placing -/

/-- A context stands PENDING at the tail of its segment's list, and in no staging slot (R73). -/
def State.placed (s : State) (c : Ctx) : State :=
  ((s.updCtx c.num fun c => { c with state := .pending }).updSeg c.seg
    fun y => { y with pendingList := y.pendingList ++ [c.num] }).updSq c.sq (·.unstage c.num)

theorem place_room {s : State} {c : Ctx} (hc : s.ctx c.num = some c) (room : (s.seg c.seg).pendingList.length < 32) :
    s.place c.num = s.placed c := by
  rw [State.place, hc]
  exact if_pos room

theorem place_full {s : State} {c : Ctx} (hc : s.ctx c.num = some c) (full : 32 ≤ (s.seg c.seg).pendingList.length) :
    s.place c.num = (s.updCtx c.num fun c => { c with state := .staged }).updSq c.sq
      fun x => { x with staging := some { ctx := c.num, waitsLock := false } } := by
  rw [State.place, hc]
  exact if_neg (Nat.not_lt.2 full)

theorem ctx_updCtx {s : State} {c : Ctx} (hc : s.ctx c.num = some c) {f : Ctx → Ctx} (num : ∀ c, (f c).num = c.num) :
    (s.updCtx c.num f).ctx c.num = some (f c) := by
  unfold State.ctx State.updCtx at *
  rw [List.find?_map]
  have same : ((fun d : Ctx => d.num == c.num) ∘ fun d => if d.num = c.num then f d else d) = fun d => d.num == c.num := by
    funext d
    simp only [Function.comp_apply]
    split <;> simp [num]
  rw [same, hc]
  simp

theorem placed_pendingList (s : State) (c : Ctx) (g : SegId) : ((s.placed c).seg g).pendingList =
    if c.seg = g then (s.seg g).pendingList ++ [c.num] else (s.seg g).pendingList := by
  have updated := State.seg_updSeg (s.updCtx c.num fun c => { c with state := .pending }) c.seg g
    fun y => { y with pendingList := y.pendingList ++ [c.num] }
  refine (congrArg SegCtl.pendingList updated).trans ?_
  split
  next same => subst same; rfl
  next => rfl

theorem Sq.unstage_staging (x : Sq) (n : CtxNum) : ((x.unstage n).staging = x.staging ∧ ∀ y, x.staging = some y → y.ctx ≠ n) ∨
    ((x.unstage n).staging = none ∧ ∃ y, x.staging = some y ∧ y.ctx = n) := by
  unfold Sq.unstage
  split
  next y staged =>
    split
    next same => exact .inr ⟨rfl, y, staged, same⟩
    next other => exact .inl ⟨rfl, fun z hz => by rwa [← Option.some.inj (staged.symm.trans hz)]⟩
  next none => exact .inl ⟨rfl, fun z hz => nomatch none.symm.trans hz⟩

theorem placed_sq (s : State) (c : Ctx) (q : SqId) :
    (s.placed c).sq q = if c.sq = q then (s.sq q).unstage c.num else s.sq q := by
  unfold State.placed
  rw [State.sq_updSq]
  split
  next same => subst same; rfl
  next => rfl

/-- A context placed with room, once the step has settled. -/
theorem placed_settled {s : State} {c : Ctx} (distinct : s.distinct) (hc : c ∈ s.ctxs)
    (free : ∀ g id, (s.seg g).holder = some (.chain id) → c.inChain id = false) :
    { c with state := .pending } ∈ (s.placed c).settle.ctxs ∧ c.num ∈ ((s.placed c).settle.seg c.seg).pendingList ∧
      (s.placed c).settle.standing = s.standing := by
  have still : (s.placed c).distinct := (shrinks_updCtx s c.num (f := fun c => { c with state := .pending })
    fun _ => rfl).distinct distinct
  have stands : { c with state := .pending } ∈ (s.placed c).ctxs := mem_updCtx hc fun c => { c with state := .pending }
  have holders (g : SegId) : ((s.placed c).seg g).holder = (s.seg g).holder :=
    seg_updSeg_holder (s := s.updCtx c.num _) (f := fun y => { y with pendingList := y.pendingList ++ [c.num] }) g c.seg
      fun _ => rfl
  obtain ⟨after, listed⟩ := spares_settle_member (d := { c with state := .pending }) still rfl (fun g id held => free g id (holders g ▸ held)) stands
  refine ⟨after, (listed c.seg).1 ?_, ?_⟩
  · rw [placed_pendingList, if_pos rfl]
    exact List.mem_append_right _ (List.mem_singleton.2 rfl)
  · rw [settle_standing]
    have kept : ∀ x : Sq, (x.unstage c.num).standing = x.standing := fun x => by simp
    have segs := standing_updSeg ((s.updCtx c.num fun c => { c with state := .pending })) c.seg
      (f := fun y => { y with pendingList := y.pendingList ++ [c.num] }) rfl
    exact (standing_updSq (f := (·.unstage c.num)) _ c.sq (kept _)).trans (segs.trans (by simp))

theorem placed_spares {s : State} {c d : Ctx} (other : d.num ≠ c.num) : Spares d s (s.placed c) := by
  have moved := (spares_updCtx s other fun c => { c with state := .pending }).trans
    (spares_updSeg _ other c.seg (f := fun y => { y with pendingList := y.pendingList ++ [c.num] })
      (fun _ _ h _ => List.mem_append_left _ h) fun _ _ h _ => h)
  exact moved.trans (.of_segs rfl rfl)

/-! ### Staged contexts -/

/-- Staging slots empty or stay, and pending lists grow at their tails. -/
def Filling (s t : State) : Prop :=
  (∀ q, (t.sq q).staging = (s.sq q).staging ∨ (t.sq q).staging = none) ∧
    ∀ g, (s.seg g).pendingList <+: (t.seg g).pendingList

theorem Filling.refl (s : State) : Filling s s := ⟨fun _ => .inl rfl, fun _ => List.prefix_rfl⟩

theorem Filling.trans {s t u : State} (h : Filling s t) (k : Filling t u) : Filling s u := by
  refine ⟨fun q => ?_, fun g => (h.2 g).trans (k.2 g)⟩
  obtain same | none := k.1 q
  · rw [same]
    exact h.1 q
  · exact .inr none

theorem Filling.foldl {β : Type} {f : State → β → State} (h : ∀ s b, Filling s (f s b)) (l : List β) (s : State) :
    Filling s (l.foldl f s) := by
  induction l generalizing s with
  | nil => exact .refl s
  | cons b l ih => exact (h s b).trans (ih _)

theorem Filling.waits {s t : State} (h : Filling s t) {q : SqId} {x : Staging} (none : (s.sq q).staging ≠ some x) :
    (t.sq q).staging ≠ some x := by
  obtain same | empty := h.1 q
  · rwa [same]
  · simp [empty]

theorem filling_placed (s : State) (c : Ctx) : Filling s (s.placed c) := by
  refine ⟨fun q => ?_, fun g => ?_⟩
  · rw [placed_sq]
    split
    · obtain ⟨same, -⟩ | ⟨none, -⟩ := Sq.unstage_staging (s.sq q) c.num
      · exact .inl same
      · exact .inr none
    · exact .inl rfl
  · rw [placed_pendingList]
    split
    · exact List.prefix_append _ _
    · exact List.prefix_rfl

theorem waitingStart_iff {x : Sq} {n : CtxNum} :
    x.waitingStart = some n ↔ x.staging = some { ctx := n, waitsLock := true } := by
  unfold Sq.waitingStart
  split
  next y staged =>
    rw [staged]
    obtain ⟨m, waits⟩ := y
    cases waits <;> simp
  next none => simp [none]

theorem ordinaryStaged_iff {s : State} {c : Ctx} : s.ordinaryStaged c = true ↔
    c.state = .staged ∧ (s.sq c.sq).staging ≠ some { ctx := c.num, waitsLock := true } := by
  simp [State.ordinaryStaged, waitingStart_iff]

/-- A move either is not made, or places an ordinary staged context where there is room. -/
theorem moveStaged_cases (s : State) (n : CtxNum) : (s.moveStaged n = s ∧ ∀ c, s.ctx n = some c →
      s.ordinaryStaged c = true → 32 ≤ (s.seg c.seg).pendingList.length) ∨
    ∃ c, s.ctx n = some c ∧ s.ordinaryStaged c = true ∧ (s.seg c.seg).pendingList.length < 32 ∧
      s.moveStaged n = s.placed c := by
  unfold State.moveStaged
  split
  next none => exact .inl ⟨rfl, fun c hc => nomatch none.symm.trans hc⟩
  next c hc =>
    obtain ⟨-, rfl⟩ := ctx_mem hc
    split
    next may => exact .inr ⟨c, hc, may.1, may.2, place_room hc may.2⟩
    next stays =>
      refine .inl ⟨rfl, fun d hd ordinary => ?_⟩
      obtain rfl := Option.some.inj (hc.symm.trans hd)
      exact Nat.not_lt.1 fun room => stays ⟨ordinary, room⟩

theorem filling_moveStaged (s : State) (n : CtxNum) : Filling s (s.moveStaged n) := by
  obtain ⟨same, -⟩ | ⟨c, -, -, -, moved⟩ := moveStaged_cases s n
  · rw [same]
    exact .refl s
  · rw [moved]
    exact filling_placed s c

/-- The contexts that compete for places, in fetch order (R93). -/
theorem moveAllStaged_eq (s : State) : s.moveAllStaged =
    ((((s.ctxs.filter (·.state == .staged)).filter fun c => (s.sq c.sq).waitingStart != some c.num).map
      (·.num)).foldl State.moveStaged s) := by
  rw [State.moveAllStaged, List.filter_filter]
  refine congrArg (fun l : List Ctx => (l.map (·.num)).foldl State.moveStaged s) (List.filter_congr fun c _ => ?_)
  rw [State.ordinaryStaged, Bool.and_comm]

/-- Moves of contexts of other segments leave a pending list. -/
theorem moveStaged_other {s : State} {n : CtxNum} {g : SegId} (other : ∀ c, s.ctx n = some c → c.seg ≠ g) :
    ((s.moveStaged n).seg g).pendingList = (s.seg g).pendingList := by
  obtain ⟨same, -⟩ | ⟨c, hc, -, -, moved⟩ := moveStaged_cases s n
  · rw [same]
  · rw [moved, placed_pendingList, if_neg (other c hc)]

theorem kin_place (s : State) (n : CtxNum) : Kin s (s.place n) := by
  unfold State.place
  split
  next => exact .refl s
  next c _ =>
    split
    · exact (kin_updCtx s n (f := fun c => { c with state := .pending }) fun _ => ⟨rfl, rfl, rfl, rfl⟩).trans (.of_eq rfl)
    · exact (kin_updCtx s n (f := fun c => { c with state := .staged }) fun _ => ⟨rfl, rfl, rfl, rfl⟩).trans (.of_eq rfl)

theorem kin_moveStaged (s : State) (n : CtxNum) : Kin s (s.moveStaged n) := by
  unfold State.moveStaged
  split
  next => exact .refl s
  next =>
    split
    · exact kin_place s n
    · exact .refl s

theorem Kin.seg_eq {s t : State} (h : Kin s t) {c : Ctx} {n : CtxNum} (listed : t.ctx n = some c) (distinct : s.distinct) :
    ∃ d, s.ctx n = some d ∧ d.seg = c.seg := by
  obtain ⟨hc, rfl⟩ := ctx_mem listed
  obtain ⟨d, hd, num, -, record, -⟩ := h c hc
  refine ⟨d, ?_, ?_⟩
  · rw [← num]
    exact ctx_of_mem distinct hd
  · simp only [Ctx.seg, record]

theorem foldl_moveStaged_other {g : SegId} (l : List CtxNum) {s : State} (distinct : s.distinct)
    (other : ∀ n ∈ l, ∀ c, s.ctx n = some c → c.seg ≠ g) :
    ((l.foldl State.moveStaged s).seg g).pendingList = (s.seg g).pendingList := by
  induction l generalizing s with
  | nil => rfl
  | cons n l ih =>
    refine (ih ((keeps_moveStaged s n).distinct distinct) fun m hm c hc => ?_).trans
      (moveStaged_other (other n List.mem_cons_self))
    obtain ⟨d, hd, seg⟩ := Kin.seg_eq (kin_moveStaged s n) hc distinct
    exact seg ▸ other m (List.mem_cons_of_mem _ hm) d hd

/-- The staged context fetched first of those that compete for a place in a list with room moves into it (R93). -/
theorem moveAllStaged_moves {s : State} {c : Ctx} {l m : List Ctx} (distinct : s.distinct)
    (queued : s.ctxs.filter (·.state == .staged) = l ++ c :: m)
    (waits : (s.sq c.sq).staging ≠ some { ctx := c.num, waitsLock := true })
    (room : (s.seg c.seg).pendingList.length < 32)
    (first : ∀ d ∈ l, d.seg = c.seg → (s.sq d.sq).staging = some { ctx := d.num, waitsLock := true }) :
    { c with state := .pending } ∈ s.moveAllStaged.ctxs ∧
      (∃ n, (s.moveAllStaged.seg c.seg).pendingList = (s.seg c.seg).pendingList ++ c.num :: n) ∧
      ∀ x, (s.moveAllStaged.sq c.sq).staging = some x → x.ctx ≠ c.num := by
  have nodup : ((l ++ c :: m).map (·.num)).Nodup :=
    queued ▸ distinct.sublist (List.filter_sublist.map (fun c : Ctx => c.num))
  have inCtxs : ∀ d ∈ l ++ c :: m, d ∈ s.ctxs ∧ d.state = .staged := fun d hd => by
    obtain ⟨hd, staged⟩ := List.mem_filter.1 (queued.symm ▸ hd)
    exact ⟨hd, beq_iff_eq.1 staged⟩
  obtain ⟨hc, staged⟩ := inCtxs c (List.mem_append_right _ List.mem_cons_self)
  let competes : Ctx → Bool := fun c => (s.sq c.sq).waitingStart != some c.num
  have mine : competes c = true := by simpa [competes, waitingStart_iff] using waits
  rw [moveAllStaged_eq, queued, List.filter_append, List.filter_cons_of_pos mine, List.map_append, List.foldl_append,
    List.map_cons, List.foldl_cons]
  rw [List.map_append, List.map_cons, List.nodup_append, List.nodup_cons] at nodup
  obtain ⟨-, ⟨after, -⟩, before⟩ := nodup
  let u := ((l.filter competes).map (·.num)).foldl State.moveStaged s
  have still : u.distinct := (Keeps.foldl _ keeps_moveStaged _ s).distinct distinct
  have filled : Filling s u := Filling.foldl filling_moveStaged _ s
  have here : c ∈ u.ctxs := by
    refine (Spares.foldl (fun v n hn => spares_moveStaged v ?_) s hc).1
    rintro rfl
    obtain ⟨d, hd, num⟩ := List.mem_map.1 hn
    exact before d.num (List.mem_map.2 ⟨d, List.mem_of_mem_filter hd, rfl⟩) c.num List.mem_cons_self num
  have list : (u.seg c.seg).pendingList = (s.seg c.seg).pendingList := by
    refine foldl_moveStaged_other _ distinct fun n hn d hd seg => ?_
    obtain ⟨e, he, rfl⟩ := List.mem_map.1 hn
    obtain ⟨he, ordinary⟩ := List.mem_filter.1 he
    obtain rfl := Option.some.inj ((ctx_of_mem distinct (inCtxs e (List.mem_append_left _ he)).1).symm.trans hd)
    simp [competes, waitingStart_iff, first e he seg] at ordinary
  have hu := ctx_of_mem still here
  have moved : u.moveStaged c.num = u.placed c := by
    obtain ⟨-, full⟩ | ⟨d, hd, -, -, moved⟩ := moveStaged_cases u c.num
    · have := full c hu (ordinaryStaged_iff.2 ⟨staged, Filling.waits filled waits⟩)
      rw [list] at this
      omega
    · rwa [← Option.some.inj (hu.symm.trans hd)] at moved
  change _ ∈ (((m.filter competes).map (·.num)).foldl State.moveStaged (u.moveStaged c.num)).ctxs ∧
    (∃ n, ((((m.filter competes).map (·.num)).foldl State.moveStaged (u.moveStaged c.num)).seg c.seg).pendingList = _) ∧
    ∀ x, ((((m.filter competes).map (·.num)).foldl State.moveStaged (u.moveStaged c.num)).sq c.sq).staging = some x → _
  rw [moved]
  have rest : Filling (u.placed c) (((m.filter competes).map (·.num)).foldl State.moveStaged (u.placed c)) :=
    Filling.foldl filling_moveStaged _ _
  refine ⟨?_, ?_, fun x hx => ?_⟩
  · refine (Spares.foldl (d := { c with state := .pending }) (fun v n hn => spares_moveStaged v ?_) (u.placed c)
      (mem_updCtx here fun c => { c with state := .pending })).1
    rintro rfl
    obtain ⟨d, hd, num⟩ := List.mem_map.1 hn
    exact after (List.mem_map.2 ⟨d, List.mem_of_mem_filter hd, num⟩)
  · obtain ⟨n, grown⟩ := rest.2 c.seg
    rw [placed_pendingList, if_pos rfl, list] at grown
    exact ⟨n, by rw [← grown, List.append_assoc, List.singleton_append]⟩
  · have slot : ((u.placed c).sq c.sq).staging = some x := by
      obtain same | none := rest.1 c.sq
      · rwa [same] at hx
      · exact nomatch none.symm.trans hx
    rw [placed_sq, if_pos rfl] at slot
    obtain ⟨same, other⟩ | ⟨none, -⟩ := Sq.unstage_staging (u.sq c.sq) c.num
    · exact other x (same.symm.trans slot)
    · exact nomatch none.symm.trans slot

/-- A context that a move leaves STAGED was there before, and it was not moved. -/
theorem mem_moveStaged {s : State} {n : CtxNum} {c : Ctx} (hc : c ∈ (s.moveStaged n).ctxs) (staged : c.state = .staged) :
    c ∈ s.ctxs ∧ (c.num = n → s.moveStaged n = s) := by
  obtain ⟨same, -⟩ | ⟨d, hd, -, -, moved⟩ := moveStaged_cases s n
  · exact ⟨same ▸ hc, fun _ => same⟩
  · obtain ⟨-, rfl⟩ := ctx_mem hd
    rw [moved] at hc
    obtain ⟨e, he, ec⟩ := List.mem_map.1 hc
    split at ec
    · subst ec
      exact nomatch staged
    next other =>
      subst ec
      exact ⟨he, fun same => absurd same other⟩

theorem mem_foldl_moveStaged {l : List CtxNum} {s : State} {c : Ctx} (hc : c ∈ (l.foldl State.moveStaged s).ctxs)
    (staged : c.state = .staged) : c ∈ s.ctxs := by
  induction l generalizing s with
  | nil => exact hc
  | cons n l ih => exact (mem_moveStaged (ih hc) staged).1

/-- A waiting chain start stays in its slot while other contexts move. -/
theorem moveStaged_slot {s : State} {n : CtxNum} {q : SqId} {x : Staging} (slot : (s.sq q).staging = some x)
    (other : x.ctx ≠ n) : ((s.moveStaged n).sq q).staging = some x := by
  obtain ⟨same, -⟩ | ⟨d, hd, -, -, moved⟩ := moveStaged_cases s n
  · rw [same, slot]
  · obtain ⟨-, rfl⟩ := ctx_mem hd
    rw [moved, placed_sq]
    split
    · obtain ⟨same, -⟩ | ⟨-, y, hy, num⟩ := Sq.unstage_staging (s.sq q) d.num
      · rw [same, slot]
      · exact absurd (Option.some.inj (slot.symm.trans hy) ▸ num) other
    · exact slot

theorem foldl_moveStaged_slot {l : List CtxNum} {s : State} {q : SqId} {x : Staging} (slot : (s.sq q).staging = some x)
    (other : x.ctx ∉ l) : ((l.foldl State.moveStaged s).sq q).staging = some x := by
  induction l generalizing s with
  | nil => exact slot
  | cons n l ih =>
    rw [List.mem_cons, not_or] at other
    exact ih (moveStaged_slot slot other.1) other.2

/-- A context that is still STAGED, and waits for no lock, has a full list (R93). -/
theorem moveAllStaged_full {s : State} {c : Ctx} (distinct : s.distinct) (hc : c ∈ s.moveAllStaged.ctxs)
    (staged : c.state = .staged)
    (waits : (s.moveAllStaged.sq c.sq).staging ≠ some { ctx := c.num, waitsLock := true }) :
    32 ≤ (s.moveAllStaged.seg c.seg).pendingList.length := by
  have start : c ∈ s.ctxs := mem_foldl_moveStaged hc staged
  have free : (s.sq c.sq).staging ≠ some { ctx := c.num, waitsLock := true } := by
    refine fun slot => waits (foldl_moveStaged_slot slot fun h => ?_)
    obtain ⟨d, hd, num⟩ := List.mem_map.1 h
    obtain ⟨hd, ordinary⟩ := List.mem_filter.1 hd
    obtain rfl := eq_of_num distinct start hd num.symm
    exact (ordinaryStaged_iff.1 ordinary).2 slot
  have competes : c.num ∈ (s.ctxs.filter s.ordinaryStaged).map (·.num) :=
    List.mem_map.2 ⟨c, List.mem_filter.2 ⟨start, ordinaryStaged_iff.2 ⟨staged, free⟩⟩, rfl⟩
  obtain ⟨before, after, split⟩ := List.append_of_mem competes
  unfold State.moveAllStaged at *
  rw [split, List.foldl_append, List.foldl_cons] at hc ⊢
  have still : (before.foldl State.moveStaged s).distinct := (Keeps.foldl _ keeps_moveStaged _ s).distinct distinct
  have filled : Filling s (before.foldl State.moveStaged s) := Filling.foldl filling_moveStaged _ s
  generalize before.foldl State.moveStaged s = u at hc still filled ⊢
  obtain ⟨here, unmoved⟩ := mem_moveStaged (mem_foldl_moveStaged hc staged) staged
  rw [unmoved rfl]
  have rest : Filling u (after.foldl State.moveStaged u) := Filling.foldl filling_moveStaged _ _
  refine le_trans ?_ (rest.2 c.seg).length_le
  obtain ⟨-, full⟩ | ⟨d, hd, -, -, moved⟩ := moveStaged_cases u c.num
  · exact full c (ctx_of_mem still here) (ordinaryStaged_iff.2 ⟨staged, Filling.waits filled free⟩)
  · obtain ⟨hd, num⟩ := ctx_mem hd
    have pending := mem_updCtx hd fun c => { c with state := .pending }
    have same : (u.placed d).ctxs = u.ctxs := congrArg State.ctxs (moved.symm.trans (unmoved rfl))
    have here' : { d with state := .pending } ∈ u.ctxs := by rwa [← same]
    have twice := eq_of_num still here' here num
    exact nomatch staged.symm.trans (congrArg Ctx.state twice).symm

/-! ### Members of chains, as they are fetched -/

theorem freshNum_of_room {s : State} (room : s.ctxs.length < 64) : ∃ n, s.freshNum = some n := by
  refine Option.isSome_iff_exists.1 (Option.isSome_iff_ne_none.2 fun none => ?_)
  have taken : List.finRange 64 ⊆ s.ctxs.map (·.num) := fun n hn => by
    obtain ⟨c, hc, num⟩ := List.all_eq_false.1 (Bool.eq_false_iff.2 (List.find?_eq_none.1 none n hn))
    exact List.mem_map.2 ⟨c, hc, by simpa using num⟩
  have many := (List.subperm_of_subset (List.nodup_finRange 64) taken).length_le
  rw [List.length_finRange, List.length_map] at many
  omega

/-- The entry that opens a chain. -/
theorem chainOf_start {chain : Option OpenChain} {r : Record} (none : chain = Option.none) (flag : r.chainFlag = true)
    (fresh : Nat) : chainOf chain r fresh = (some { id := fresh, pos := 1, last := false },
      some { id := fresh, next := 2, segByte := r.byte 4, failed := false }, false) := by
  rw [none]
  exact if_pos flag

/-- An entry of an open chain, before position 16. -/
theorem chainOf_member {chain : Option OpenChain} {o : OpenChain} {r : Record} (opened : chain = some o) (before : o.next < 16)
    (fresh : Nat) : chainOf chain r fresh = (some { id := o.id, pos := o.next, last := !r.chainFlag },
      if r.chainFlag then some { o with next := o.next + 1 } else none, o.failed) := by
  rw [opened]
  cases flag : r.chainFlag with
  | true => exact if_pos ⟨flag, by omega⟩
  | false => exact if_neg fun h => by simp [flag] at h

theorem chainShapeOk_member {k : IoKind} {r : Record} {m : ChainMember} {first : Byte} (wait : k ≠ .waitUntil)
    (fence : k ≠ .fence) (seg : r.byte 4 = first) (pos : m.pos < 16) : chainShapeOk k r (some m) first = true := by
  simp [chainShapeOk, wait, fence, seg, show m.pos ≠ 16 by omega]

theorem Ctx.fetched_seg {n : CtxNum} {q : SqId} {r : Record} {m : Option ChainMember} {g : SegId}
    (id : (r.byte 4).toNat = g.val) : (Ctx.fetched n q r m).seg = g := by
  refine Fin.ext ?_
  change (r.byte 4).toNat % 4 = g.val
  omega

/-- An entry that is placed with room, once the step has settled. -/
theorem takenPlaced_settled {s v : State} {q : SqId} {n : CtxNum} {r : Record} {g : SegId} (distinct : s.distinct)
    (fresh : ∀ c ∈ s.ctxs, c.num ≠ n) (ctxs : v.ctxs = (s.taken q n r).ctxs) (segs : v.segs = s.segs)
    (id : (r.byte 4).toNat = g.val) (room : (s.seg g).pendingList.length < 32)
    (free : ∀ h id, (s.seg h).holder = some (.chain id) →
      (Ctx.fetched n q r (chainOf (s.sq q).chain r s.nextChain).1).inChain id = false) :
    s.entryPlaced (v.place n).settle q g (Ctx.fetched · q r (chainOf (s.sq q).chain r s.nextChain).1) ∧
      (v.place n).settle.standing = v.standing := by
  have still : v.distinct := by
    rw [State.distinct, ctxs]
    exact taken_distinct distinct fresh
  have hc : Ctx.fetched n q r (chainOf (s.sq q).chain r s.nextChain).1 ∈ v.ctxs := ctxs ▸ mem_taken
  have same (h : SegId) : v.seg h = s.seg h := by rw [State.seg, segs, State.seg]
  have seg : (Ctx.fetched n q r (chainOf (s.sq q).chain r s.nextChain).1).seg = g := Ctx.fetched_seg id
  have room' : (v.seg (Ctx.fetched n q r (chainOf (s.sq q).chain r s.nextChain).1).seg).pendingList.length < 32 := by
    rwa [seg, same]
  have placed : v.place n = v.placed (Ctx.fetched n q r (chainOf (s.sq q).chain r s.nextChain).1) :=
    place_room (ctx_of_mem still hc) room'
  have after : (v.place n).distinct := (shrinks_place v n).distinct still
  obtain ⟨stands, listed, rest⟩ := placed_settled still hc fun h id held => free h id (by rwa [← same])
  rw [seg] at listed
  have spares (d : Ctx) : Spares d s v := (taken_spares d).trans (.of_eq ctxs fun h => by rw [same]; exact ⟨rfl, rfl⟩)
  refine ⟨⟨n, fresh, by rwa [placed], by rwa [placed], keepsOthers_of_spares after fun d other _ =>
    (spares d).trans (spares_place v other)⟩, by rwa [placed]⟩

section

variable {s : State} {q : SqId} {tag : Nat} {op : Byte} {b : Body} {n : CtxNum} {k : IoKind} {g : SegId}

/-- An entry of an open chain is taken as its next member (R71). -/
theorem memberEntry_taken {o : OpenChain} (read : s.arb.read = some { sq := q, tag := tag })
    (active : (s.sq q).state = .active) (fresh : s.freshNum = some n) (opened : (s.sq q).chain = some o)
    (before : o.next < 16) : s.ioEntry op tag b =
      ((s.retire tag).taken q n (Record.of op b)).settleEntry q n (Record.of op b)
        (some { id := o.id, pos := o.next, last := !(Record.of op b).chainFlag }) o.segByte o.failed := by
  have member := chainOf_member (r := Record.of op b) (chain := ((s.retire tag).sq q).chain) opened before
    (s.retire tag).nextChain
  have first : firstSegByte ((s.retire tag).sq q).chain (Record.of op b) = o.segByte := by
    change firstSegByte (s.sq q).chain _ = _
    rw [opened]
    rfl
  rw [ioEntry_taken read active fresh, takeEntry_eq, member, first]

/-- The shape of a member is allowed, and its segment ACTIVE: the entry is placed (R69, R71, R73). -/
theorem settleEntry_member {s : State} {r : Record} {m : ChainMember} (kind : IoKind.ofCode (r.byte 0) = some k)
    (fence : k ≠ .fence) (wait : k ≠ .waitUntil) (fields : k.fieldsOk r = true) (id : (r.byte 4).toNat = g.val)
    (segment : (s.seg g).state = .active) (before : m.pos < 16) :
    s.settleEntry q n r (some m) (r.byte 4) false = if m.pos = 1 then s.chainStart q n else s.place n := by
  have valid : s.validate r (some m) (r.byte 4) = none := by
    rw [validate_segment kind fields (chainShapeOk_member wait fence rfl before) fence id, segment]
    rfl
  rw [settleEntry_valid valid]
  exact if_neg fun h => fence (Option.some.inj (kind.symm.trans h))

theorem inChain_fetched {r : Record} {m : ChainMember} (id : Nat) :
    (Ctx.fetched n q r (some m)).inChain id = (m.id == id) := rfl

/-- The entry that opens a chain takes the free lock and is placed (R94). -/
theorem chainStart_placed (kind : IoKind.ofCode op = some k) (fence : k ≠ .fence) (wait : k ≠ .waitUntil)
    (read : s.arb.read = some { sq := q, tag := tag }) (active : (s.sq q).state = .active) (fresh : s.freshNum = some n)
    (distinct : s.distinct) (fields : k.fieldsOk (Record.of op b) = true)
    (id : ((Record.of op b).byte 4).toNat = g.val) (segment : (s.seg g).state = .active)
    (none : (s.sq q).chain = Option.none) (flag : (Record.of op b).chainFlag = true) (free : s.lock = Option.none)
    (room : s.ctxs.length ≤ 48) :
    s.ioEntry op tag b = (((s.retire tag).taken q n (Record.of op b)).setLock
      (some { sq := q, chain := s.nextChain, fetched := 1 })).place n := by
  have start := chainOf_start (r := Record.of op b) (chain := ((s.retire tag).sq q).chain) none flag (s.retire tag).nextChain
  have first : firstSegByte ((s.retire tag).sq q).chain (Record.of op b) = (Record.of op b).byte 4 := by
    change firstSegByte (s.sq q).chain _ = _
    rw [none]
    rfl
  have code : IoKind.ofCode ((Record.of op b).byte 0) = some k := by rw [Record.byte_zero_of, kind]
  have placed := settleEntry_member (s := (s.retire tag).taken q n (Record.of op b)) (q := q) (n := n)
    (m := { id := s.nextChain, pos := 1, last := false }) code fence wait fields id segment (by decide : 1 < 16)
  rw [ioEntry_taken read active fresh, takeEntry_eq, start, first]
  refine placed.trans ((if_pos rfl).trans ?_)
  have lock : ((s.retire tag).taken q n (Record.of op b)).lock = Option.none := by
    change lockAfter s.lock _ = _
    rw [free]
    rfl
  have count : 15 ≤ ((s.retire tag).taken q n (Record.of op b)).freeCount := by
    rw [State.freeCount, taken_ctxs, List.length_append, List.length_singleton]
    change 15 ≤ 64 - (s.ctxs.length + 1)
    omega
  have ctx : ((s.retire tag).taken q n (Record.of op b)).ctx n =
      some (Ctx.fetched n q (Record.of op b) (some { id := s.nextChain, pos := 1, last := false })) := by
    have mem := mem_taken (s := s.retire tag) (q := q) (n := n) (r := Record.of op b)
    rw [start] at mem
    exact ctx_of_mem (taken_distinct (s := s.retire tag) distinct (freshNum_fresh fresh)) mem
  have may : ((s.retire tag).taken q n (Record.of op b)).lockFree = true := by
    simp [State.lockFree, lock, count]
  rw [State.chainStart, if_pos may, State.takeLock, ctx]
  rfl

end

/-! ### Chains that fail -/

theorem ready_becomeReady {s : State} {k : CqId} {i : ReadyItem} (n : CtxNum) (st : Status) (h : i ∈ (s.cq k).ready) :
    i ∈ ((s.becomeReady n st).cq k).ready := by
  unfold State.becomeReady
  split
  next => exact h
  next c _ =>
    dsimp only
    split
    · rw [State.cq_updCq]
      split
      next same =>
        subst same
        exact List.mem_append_left _ h
      next => exact h
    · exact h

theorem ready_cancel {s : State} {k : CqId} {i : ReadyItem} (n : CtxNum) (st : Status) (h : i ∈ (s.cq k).ready) :
    i ∈ ((State.cancel st s n).cq k).ready := by
  cases hc : s.ctx n with
  | none =>
    rw [State.cancel, hc]
    exact h
  | some c =>
    obtain ⟨f, -, -, cancelled⟩ := cancel_eq st hc
    rw [cancelled, State.finish]
    split
    next => exact h
    next =>
      split
      · exact h
      · exact ready_becomeReady (s := s.updSeg c.seg f) n st h

/-- A context with no block data that is cancelled joins its ready list. -/
theorem cancel_ready {s : State} {c : Ctx} (distinct : s.distinct) (hc : c ∈ s.ctxs) (none : c.staged = [])
    (active : (s.cq (s.sq c.sq).bound).state = .active) (st : Status) :
    .ctx c.num ∈ ((State.cancel st s c.num).cq (s.sq c.sq).bound).ready := by
  obtain ⟨f, -, -, cancelled⟩ := cancel_eq st (ctx_of_mem distinct hc)
  have frames : (s.updSeg c.seg f).ctx c.num = some c := ctx_of_mem distinct hc
  have block : ¬ c.needsBuffer = true := fun h => ((Ctx.needsBuffer_iff c).1 h).2 none
  have bound : (((s.updSeg c.seg f).unlist c).sq c.sq).bound = (s.sq c.sq).bound := by
    rw [State.unlist, State.sq_updSq_same]
    change (((s.sq c.sq).unstage c.num).bound) = _
    unfold Sq.unstage
    (repeat' split) <;> rfl
  rw [cancelled, finish_of_ctx frames, if_neg block, State.becomeReady, frames]
  dsimp only
  rw [bound, if_pos (by simpa using active), State.cq_updCq_same]
  exact List.mem_append_right _ (List.mem_singleton.2 rfl)

/-- Each member that has not run ends CHAIN_ABORTED as its chain fails (R106). -/
theorem abortChain_member {s : State} {c : Ctx} {id : Nat} (distinct : s.distinct) (hc : c ∈ s.ctxs)
    (member : c.inChain id = true) (unreached : c.unreached = true) (none : c.staged = [])
    (active : (s.cq (s.sq c.sq).bound).state = .active) :
    ∃ d ∈ (s.abortChain id).ctxs, d.endsAs c .chainAborted ∧
      .ctx c.num ∈ ((s.abortChain id).cq (s.sq c.sq).bound).ready := by
  have listed : c.num ∈ s.unreachedMembers id :=
    List.mem_map.2 ⟨c, List.mem_filter.2 ⟨hc, by simp [member, unreached]⟩, rfl⟩
  have nodup : (s.unreachedMembers id).Nodup := distinct.sublist (List.filter_sublist.map _)
  obtain ⟨before, after, split⟩ := List.append_of_mem listed
  rw [split, List.nodup_append, List.nodup_cons] at nodup
  obtain ⟨-, ⟨later, -⟩, earlier⟩ := nodup
  have step (u : State) (n : CtxNum) : Shrinks u (State.cancel .chainAborted u n) := shrinks_cancel .chainAborted u n
  have fold : ((s.abortChain id).ctxs = ((s.unreachedMembers id).foldl (State.cancel .chainAborted) s).ctxs) ∧
      ∀ k, (s.abortChain id).cq k = ((s.unreachedMembers id).foldl (State.cancel .chainAborted) s).cq k :=
    ⟨rfl, fun _ => rfl⟩
  rw [fold.1, fold.2, split, List.foldl_append, List.foldl_cons]
  have still : (before.foldl (State.cancel .chainAborted) s).distinct := (Shrinks.foldl step before s).distinct distinct
  have here : c ∈ (before.foldl (State.cancel .chainAborted) s).ctxs :=
    (Spares.foldl (fun u n hn => spares_cancel u (fun same => earlier n hn c.num List.mem_cons_self same.symm) _) s hc).1
  have core : (before.foldl (State.cancel .chainAborted) s).core = s.core :=
    foldl_core _ (fun u n => core_cancel u n .chainAborted) _ s
  generalize before.foldl (State.cancel .chainAborted) s = u at still here core ⊢
  have bound : (u.sq c.sq).bound = (s.sq c.sq).bound := sq_bound_of_core core c.sq
  have open' : (u.cq (u.sq c.sq).bound).state = .active := by
    have same : (u.cq (s.sq c.sq).bound).state = (s.cq (s.sq c.sq).bound).state :=
      (congrArg Cq.state (cq_of_core core (s.sq c.sq).bound) :)
    rw [bound, same, active]
  obtain ⟨⟨d, hd, ends⟩, -⟩ := (cancel_cancelledAs still here open' .chainAborted).ready none
  have ready := cancel_ready still here none open' .chainAborted
  rw [bound] at ready
  have num : d.num = c.num := ends.1
  refine ⟨d, (Spares.foldl (fun v n hn => spares_cancel v ?_ _) _ hd).1, ends, ?_⟩
  · rintro rfl
    exact later (num ▸ hn)
  · have grows : ∀ (l : List CtxNum) (v : State), .ctx c.num ∈ (v.cq (s.sq c.sq).bound).ready →
        .ctx c.num ∈ ((l.foldl (State.cancel .chainAborted) v).cq (s.sq c.sq).bound).ready := fun l => by
      induction l with
      | nil => exact fun _ h => h
      | cons n l ih => exact fun v h => ih _ (ready_cancel n .chainAborted h)
    exact grows after _ ready

theorem abortChain_other {s : State} {c : Ctx} {id : Nat} (distinct : s.distinct)
    (other : ¬ (c.inChain id = true ∧ c.unreached = true)) : Spares c s (s.abortChain id) := by
  intro hc
  refine Spares.foldl (fun u n hn => spares_cancel u (fun same => other ?_) .chainAborted) s hc
  obtain ⟨d, hd, num⟩ := List.mem_map.1 hn
  obtain ⟨hd, member⟩ := List.mem_filter.1 hd
  obtain rfl := eq_of_num distinct hc hd (same.trans num.symm)
  simpa using member

theorem Sq.failChain_failed {x : Sq} {id : Nat} {o : OpenChain} (opened : (x.failChain id).chain = some o)
    (same : o.id = id) : o.failed = true := by
  unfold Sq.failChain at opened
  split at opened
  next c hc =>
    split at opened
    next => exact (Option.some.inj opened) ▸ rfl
    next other => exact absurd (Option.some.inj (hc.symm.trans opened) ▸ same) other
  next none => exact nomatch none.symm.trans opened

/-- Settles O42: an entry of a chain is taken as its position says, and a failure reaches the members that have not run. -/
theorem chainsAreFetchedAndFail : Obligations.ChainsAreFetchedAndFail := by
  refine ⟨fun op k c row fence wait tag b s q g read active distinct fields id segment room =>
    ⟨fun none flag free few unheld => ?_, fun o l opened whole same start before few held chain queue unheld => ?_,
      fun o opened failed before few open' => ?_⟩, fun s id distinct => ⟨fun c hc member unreached none active =>
      abortChain_member distinct hc member unreached none active, fun c hc other => (abortChain_other distinct other hc).1,
      fun q o opened same => ?_⟩⟩
  · obtain ⟨kind, reads⟩ := ioRow_reads row
    obtain ⟨n, fresh⟩ := freshNum_of_room (s := s) (by omega)
    have member := chainOf_start (r := Record.of op b) (chain := ((s.retire tag).sq q).chain) none flag
      (s.retire tag).nextChain
    have outcome := chainStart_placed (b := b) kind fence wait read active fresh distinct fields id segment none flag free few
    obtain ⟨placed, stands⟩ := takenPlaced_settled (s := s.retire tag)
      (v := ((s.retire tag).taken q n (Record.of op b)).setLock (some { sq := q, chain := s.nextChain, fetched := 1 }))
      distinct (freshNum_fresh fresh) rfl rfl id room fun h i held => by
        rw [member, inChain_fetched]
        exact beq_eq_false_iff_ne.2 fun same => unheld h (held.trans (by rw [← same]; rfl))
    rw [member] at placed
    refine ⟨_, reads tag b s, ?_⟩
    rw [outcome]
    refine ⟨placed, settle_lock (by simp), stands.trans ?_⟩
    rw [standing_setLock, taken_standing, member]
    rfl
  · obtain ⟨kind, reads⟩ := ioRow_reads row
    obtain ⟨n, fresh⟩ := freshNum_of_room few
    have member := chainOf_member (r := Record.of op b) (chain := ((s.retire tag).sq q).chain) opened before
      (s.retire tag).nextChain
    have code : IoKind.ofCode ((Record.of op b).byte 0) = some k := by rw [Record.byte_zero_of, kind]
    have outcome : s.ioEntry op tag b = ((s.retire tag).taken q n (Record.of op b)).place n := by
      rw [memberEntry_taken read active fresh opened before, whole, same]
      have placed := settleEntry_member (s := (s.retire tag).taken q n (Record.of op b)) (q := q) (n := n)
        (m := { id := o.id, pos := o.next, last := !(Record.of op b).chainFlag }) code fence wait fields id segment before
      exact placed.trans (if_neg (show o.next ≠ 1 by omega))
    obtain ⟨placed, stands⟩ := takenPlaced_settled (s := s.retire tag) (v := (s.retire tag).taken q n (Record.of op b))
      distinct (freshNum_fresh fresh) rfl rfl id room fun h i held => by
        rw [member, inChain_fetched]
        exact beq_eq_false_iff_ne.2 fun same => unheld h (held.trans (by rw [← same]))
    rw [member] at placed
    refine ⟨_, reads tag b s, ?_⟩
    rw [outcome]
    refine ⟨placed, fun flag => settle_lock ?_, stands.trans ?_⟩
    · have lock : (((s.retire tag).taken q n (Record.of op b)).place n).lock =
          lockAfter s.lock (chainOf ((s.retire tag).sq q).chain (Record.of op b) (s.retire tag).nextChain).1 := by
        simp only [State.place_frame]
        rfl
      rw [lock, member, held, lockAfter, chain, flag]
      exact (if_pos rfl).trans (if_neg (by simp))
    · rw [taken_standing, member]
      rfl
  · obtain ⟨kind, reads⟩ := ioRow_reads row
    obtain ⟨n, fresh⟩ := freshNum_of_room few
    have member := chainOf_member (r := Record.of op b) (chain := ((s.retire tag).sq q).chain) opened before
      (s.retire tag).nextChain
    have outcome : s.ioEntry op tag b = ((s.retire tag).taken q n (Record.of op b)).becomeReady n .chainAborted := by
      rw [memberEntry_taken read active fresh opened before, failed]
      exact if_pos rfl
    obtain ⟨ready, -⟩ := takenReady_settled (s := s.retire tag) (q := q) (r := Record.of op b) distinct
      (freshNum_fresh fresh) open' .chainAborted
    rw [member] at ready
    refine ⟨_, n, reads tag b s, freshNum_fresh fresh, ?_⟩
    rw [outcome]
    exact ready
  · have stands : (s.abortChain id).sq q =
        (((s.unreachedMembers id).foldl (State.cancel .chainAborted) s).sq q).failChain id := State.sq_mapSqs _ _ _
    rw [stands] at opened
    exact Sq.failChain_failed opened same

end Sys2Proof.Machine
end

section
/-! PROOFS. Reports to the Presence Table, and what a firing watch does (R23 to R31, R124 to R127). -/

namespace Sys2Proof.Machine

set_option Elab.async false -- one thread elaborates: the checker's memory is limited

/-! ### Reports -/

theorem State.setPres_setPres (s : State) (t : Tgt) (e d : PresEntry) : (s.setPres t e).setPres t d = s.setPres t d := by
  refine congrArg (fun v => ({ s with presence := v } : State)) (vector_ext_get fun g => ?_)
  simp only [State.setPres, get_set]
  split
  next same =>
    refine vector_ext_get fun a => ?_
    simp only [same, get_set, if_true]
    split <;> rfl
  next => rfl

theorem answer_unknown {s : State} {t : Tgt} (src : Source) (h : (s.pres t).state = .unknown) : s.answer t src =
    (s.setPres t { state := .present, miss := 0 }).handEvent (.deviceFound t true false (s.restoreList t).length src) := by
  simp only [State.answer, h, State.setPres_setPres]

theorem answer_kept {s : State} {t : Tgt} (src : Source) (h : (s.pres t).state = .present ∨ (s.pres t).state = .restoring) :
    s.answer t src = s.setPres t { s.pres t with miss := 0 } := by
  obtain h | h := h <;> simp only [State.answer, h]

theorem answer_lost_empty {s : State} {t : Tgt} (src : Source) (h : (s.pres t).state = .lost)
    (none : (s.restoreList t).length = 0) : s.answer t src =
    (s.setPres t { state := .present, miss := 0 }).handEvent (.deviceFound t false false (s.restoreList t).length src) := by
  simp only [State.answer, h, State.setPres_setPres]
  exact if_neg (by omega)

theorem answer_lost_replay {s : State} {t : Tgt} (src : Source) (h : (s.pres t).state = .lost)
    (some : (s.restoreList t).length ≠ 0) : s.answer t src =
    ((s.setPres t { state := .restoring, miss := 0 }).handEvent
      (.deviceFound t false true (s.restoreList t).length src)).createJob t := by
  simp only [State.answer, h]
  refine (if_pos (by omega)).trans ?_
  simp only [State.startReplay, State.pres_setPres_same, State.setPres_setPres]

/-- A silence counts, up to 7 (R27). -/
def PresEntry.missed (e : PresEntry) : PresEntry := { e with miss := min (e.miss + 1) 7 }

theorem silence_counts {s : State} {t : Tgt} (src : Source) (h : ¬ (((s.pres t).state = .present ∨
    (s.pres t).state = .restoring) ∧ (s.seg t.seg).settings.missThreshold ≤ (s.pres t).missed.miss)) :
    s.silence t src = s.setPres t (s.pres t).missed := if_neg h

/-- The target goes to LOST, before its job is abandoned and the Watch Unit told (R28). -/
def State.lostFrom (s : State) (t : Tgt) (src : Source) : State :=
  (s.setPres t { state := .lost, miss := (s.pres t).missed.miss }).handEvent
    (.deviceLost t (s.pres t).state (s.pres t).missed.miss src)

theorem silence_lost {s : State} {t : Tgt} (src : Source) (h : (s.pres t).state = .present ∨
    (s.pres t).state = .restoring) (many : (s.seg t.seg).settings.missThreshold ≤ (s.pres t).missed.miss) :
    s.silence t src = (if (s.pres t).state = .restoring then (s.lostFrom t src).abandonJob t .targetLost
      else s.lostFrom t src).lossNotice t := by
  refine (if_pos ⟨h, many⟩).trans ?_
  simp only [State.goLost, State.pres_setPres_same, State.setPres_setPres]
  rfl

theorem report_answer {s : State} {t : Tgt} {src : Source} {a : Attempt} (h : a ≠ .silent) :
    s.report t src a = s.answer t src := if_neg h

theorem report_silence (s : State) (t : Tgt) (src : Source) : s.report t src .silent = s.silence t src := rfl

theorem report_pres_other (s : State) (t : Tgt) (src : Source) (a : Attempt) {y : Tgt} (other : y ≠ t) :
    (s.report t src a).pres y = s.pres y := by
  have kept (e : PresEntry) : (s.setPres t e).pres y = s.pres y := by rw [State.pres_setPres, if_neg (Ne.symm other)]
  by_cases silent : a = .silent
  · rw [silent, report_silence]
    by_cases loses : ((s.pres t).state = .present ∨ (s.pres t).state = .restoring) ∧
        (s.seg t.seg).settings.missThreshold ≤ (s.pres t).missed.miss
    · rw [silence_lost src loses.1 loses.2]
      split <;> simp [State.lostFrom, kept]
    · rw [silence_counts src loses, kept]
  · rw [report_answer silent]
    cases state : (s.pres t).state with
    | unknown => simp [answer_unknown src state, kept]
    | present => simp [answer_kept src (.inl state), kept]
    | restoring => simp [answer_kept src (.inr state), kept]
    | lost =>
      by_cases none : (s.restoreList t).length = 0
      · simp [answer_lost_empty src state none, kept]
      · simp [answer_lost_replay src state none, kept]

/-- Settles O55, report by report. -/
theorem presenceReports : Obligations.PresenceReports := by
  intro s x src a
  refine ⟨fun y other => report_pres_other s x src a other, fun answer => ⟨fun unknown => ?_, fun kept => ?_,
    fun lost none => ?_, fun lost some => ?_⟩, fun silent => ⟨fun counts => ?_, fun many => ⟨fun present => ?_,
      fun restoring j hj => ?_⟩⟩⟩
  · rw [report_answer answer, answer_unknown src unknown]
  · rw [report_answer answer, answer_kept src kept]
  · rw [report_answer answer, answer_lost_empty src lost none]
  · rw [report_answer answer, answer_lost_replay src lost some]
    rfl
  · rw [silent, report_silence]
    refine silence_counts src fun loses => ?_
    obtain ⟨here | here, many⟩ := loses
    all_goals
      obtain unknown | lost | few := counts
      · exact nomatch here.symm.trans unknown
      · exact nomatch here.symm.trans lost
      · exact absurd many (Nat.not_le.2 few)
  · rw [silent, report_silence, silence_lost src (.inl present) many, if_neg (by simp [present])]
    have kept : (s.lostFrom x src).watches = s.watches := by simp [State.lostFrom]
    rw [← kept]
    rfl
  · rw [silent, report_silence, silence_lost src (.inr restoring) many, if_pos restoring]
    have kept : ((s.lostFrom x src).abandonJob x .targetLost).watches = s.watches := by simp [State.lostFrom]
    have job : (s.lostFrom x src).job x = some j := by simpa [State.lostFrom] using hj
    have above : (s.lostFrom x src).restoreAbove x j.cursor = s.restoreAbove x j.cursor := by
      simp [State.lostFrom, State.restoreAbove]
    have jobs : (s.lostFrom x src).jobs = s.jobs := by simp [State.lostFrom]
    rw [← kept, ← above, ← jobs, State.abandonJob, job]
    rfl

/-! ### Firing -/

theorem State.updWatch_id (s : State) (w : WatchId) : s.updWatch w (fun x => x) = s := by
  refine congrArg (fun v => ({ s with watches := v } : State)) (vector_ext_get fun v => ?_)
  rw [get_set]
  split
  next same => subst same; exact Option.map_id'
  next => rfl

/-- A report changes the Event Unit, and of its watch only what is held. -/
theorem handReport_cases (s : State) (w : WatchId) (n : Half) (p : Option Half) :
    ∃ f : Option HeldReport → Option HeldReport, ∃ ev : EventUnit, ∀ u : State, u.ctl = s.ctl → u.ev = s.ev →
      u.handReport w n p = ({ u with ev := ev } : State).updWatch w fun x => { x with held := f x.held } := by
  by_cases failed : s.ctl.engine = .failed
  · refine ⟨id, s.ev, fun u ctl ev => ?_⟩
    rw [State.handReport, if_pos (ctl ▸ failed), ← ev]
    exact (State.updWatch_id u w).symm
  cases ring : s.ev.ring with
  | none =>
    refine ⟨id, s.ev, fun u ctl ev => ?_⟩
    rw [State.handReport, if_neg (ctl ▸ failed), ev, ring, ← ev]
    exact (State.updWatch_id u w).symm
  | some r =>
    by_cases room : 0 < r.free
    · refine ⟨id, { s.ev with ring := some (r.assign (.watchTriggered w (some n) p 1)) }, fun u ctl ev => ?_⟩
      rw [State.handReport, if_neg (ctl ▸ failed), ev, ring, ← ev]
      exact (if_pos room).trans (State.updWatch_id _ w).symm
    · refine ⟨fun held => some (heldAfter held p), s.ev, fun u ctl ev => ?_⟩
      rw [State.handReport, if_neg (ctl ▸ failed), ev, ring, ← ev]
      exact if_neg room

/-- Step 3 of R124. -/
def State.askReplay (s : State) (w : WatchId) (c : WatchCfg) : State :=
  if c.cond = .reinit then s.reinitRequest c.tgt w else s

section

variable {s : State} {w : WatchId} {c : WatchCfg}

theorem askReplay_starts (reinit : c.cond = .reinit) (present : (s.pres c.tgt).state = .present)
    (some : s.restoreList c.tgt ≠ []) : s.askReplay w c = s.startReplay c.tgt (.deviceReinit c.tgt w true) := by
  simp only [State.askReplay, reinit, if_true, State.reinitRequest, present]
  exact if_pos (List.length_pos_iff.2 some)

theorem askReplay_again (reinit : c.cond = .reinit) (restoring : (s.pres c.tgt).state = .restoring) :
    s.askReplay w c = s.handEvent (.deviceReinit c.tgt w false) := by
  simp only [State.askReplay, reinit, if_true, State.reinitRequest, restoring]

theorem askReplay_not (starts : ¬ (c.cond = .reinit ∧ (s.pres c.tgt).state = .present ∧ s.restoreList c.tgt ≠ []))
    (again : ¬ (c.cond = .reinit ∧ (s.pres c.tgt).state = .restoring)) : s.askReplay w c = s := by
  unfold State.askReplay
  split
  next reinit =>
    unfold State.reinitRequest
    split
    next present => exact if_neg fun h => starts ⟨reinit, present, List.length_pos_iff.1 h⟩
    next restoring => exact absurd ⟨reinit, restoring⟩ again
    next => rfl
  next => rfl

end

/-- The response write that a firing watch places (R127). -/
def Watch.placesResponse (x : Watch) (w : WatchId) : List IwEntry :=
  match x.cfg.response with
  | some r => if x.respPending then [] else
      [.response { watch := w, tgt := ⟨x.cfg.tgt.seg, r.slot⟩, index := r.index, data := r.data, tries := 0 }]
  | none => []

theorem respond_watch {s : State} {w : WatchId} {x : Watch} (hx : s.watch w = some x) (v : WatchId) :
    (s.respond w).watch v = if w = v then some { x with respPending := x.respPending || x.cfg.response.isSome }
      else s.watch v := by
  have same : (if w = v then some x else s.watch v) = s.watch v := by
    split
    next same => rw [← hx, same]
    next => rfl
  simp only [State.respond, hx]
  cases response : x.cfg.response with
  | none => simp [same]
  | some r =>
    cases pending : x.respPending with
    | true => simpa [← pending] using same.symm
    | false => simp [State.watch_setWatch]

theorem respond_seg {s : State} {w : WatchId} {x : Watch} (hx : s.watch w = some x) (k : SegId) :
    (s.respond w).seg k = if x.cfg.tgt.seg = k then
      { s.seg k with writes := (s.seg k).writes ++ x.placesResponse w } else s.seg k := by
  simp only [State.respond, hx, Watch.placesResponse]
  cases response : x.cfg.response with
  | none => simp
  | some r =>
    cases pending : x.respPending with
    | true => simp
    | false =>
      simp only [Bool.false_eq_true, if_false, State.seg_updSeg, State.setWatch_seg]

theorem handReport_if (s : State) (w : WatchId) (n : Half) (p : Option Half) (report : Bool) :
    ∃ f : Option HeldReport → Option HeldReport, ∃ ev : EventUnit, ∀ u : State, u.ctl = s.ctl → u.ev = s.ev →
      (if report then u.handReport w n p else u) =
        ({ u with ev := ev } : State).updWatch w fun x => { x with held := f x.held } := by
  cases report with
  | true => exact handReport_cases s w n p
  | false => exact ⟨id, s.ev, fun u _ ev => by rw [← ev]; exact (State.updWatch_id u w).symm⟩

/-- What asking for a replay does (R30, R126). -/
theorem askReplay_effect (s : State) (w : WatchId) (c : WatchCfg) :
    let starts := c.cond = .reinit ∧ (s.pres c.tgt).state = .present ∧ s.restoreList c.tgt ≠ []
    let again := c.cond = .reinit ∧ (s.pres c.tgt).state = .restoring
    (s.askReplay w c).ev = (if starts then s.handEvent (.deviceReinit c.tgt w true)
      else if again then s.handEvent (.deviceReinit c.tgt w false) else s).ev ∧
    (s.askReplay w c).jobs = s.jobs ++ (if starts then [freshJob c.tgt] else []) ∧
    (∀ y, (s.askReplay w c).pres y = if starts ∧ y = c.tgt then { s.pres y with state := .restoring } else s.pres y) ∧
    (s.askReplay w c).watches = s.watches ∧
    ∀ k, (s.askReplay w c).seg k = if c.tgt.seg = k then
      { s.seg k with writes := (s.seg k).writes ++ (if starts then [.job c.tgt] else []) } else s.seg k := by
  intro starts again
  by_cases h : starts
  · obtain ⟨reinit, present, some⟩ := id h
    rw [askReplay_starts reinit present some, if_pos h, if_pos h, if_pos h]
    have ev : (s.startReplay c.tgt (.deviceReinit c.tgt w true)).ev = (s.handEvent (.deviceReinit c.tgt w true)).ev :=
      handEvent_ev_congr (s := s) (t := s.setPres c.tgt { s.pres c.tgt with state := .restoring }) rfl rfl _
    refine ⟨ev, by simp [State.startReplay, State.createJob, Job.new, freshJob], fun y => ?_, by simp, fun k => ?_⟩
    · simp only [State.startReplay, State.createJob_frame, State.handEvent_frame, State.pres_setPres, h, true_and, eq_comm]
      split
      next same => rw [same]
      next => rfl
    · simp only [State.startReplay, State.createJob, State.seg_updSeg]
      split
      next same => subst same; simp [State.seg]
      next => simp [State.seg]
  · rw [if_neg h, if_neg h, if_neg h]
    have same (y : Tgt) : (if starts ∧ y = c.tgt then { s.pres y with state := .restoring } else s.pres y) = s.pres y :=
      if_neg fun k => h k.1
    have seg (k : SegId) : (if c.tgt.seg = k then { s.seg k with writes := (s.seg k).writes ++ [] } else s.seg k) =
        s.seg k := by rw [List.append_nil, ite_self]
    by_cases k : again
    · obtain ⟨reinit, restoring⟩ := id k
      rw [askReplay_again reinit restoring, if_pos k]
      exact ⟨rfl, by simp, fun y => by rw [same]; simp, by simp, fun k => by rw [seg]; simp⟩
    · rw [askReplay_not h k, if_neg k]
      exact ⟨rfl, (List.append_nil _).symm, fun y => (same y).symm, rfl, fun k => (seg k).symm⟩

/-- Settles O57: the five steps of R124, each by what it changes. -/
theorem firingWatchActs : Obligations.FiringWatchActs := by
  intro s w x p n hx
  obtain ⟨f, ev, reports⟩ := handReport_if s w n p x.cfg.report
  let counted := s.updWatch w fun x => { x with triggers := min (x.triggers + 1) 65535 }
  let told : State := ({ counted with ev := ev } : State).updWatch w fun x => { x with held := f x.held }
  have first : (if x.cfg.report then counted.handReport w n p else counted) = told := reports counted rfl rfl
  have hu : (if x.cfg.report then s.handReport w n p else s) = _ := reports s rfl rfl
  have fires : s.fire w x.cfg p n = if x.cfg.oneShot then ((told.askReplay w x.cfg).respond w).updWatch w fun x =>
      { x with state := .fired, nextDue := none, overrun := false } else (told.askReplay w x.cfg).respond w := by
    rw [← first]
    rfl
  obtain ⟨events, jobs, presence, watches, segs⟩ := askReplay_effect told w x.cfg
  have watched (v : WatchId) : told.watch v = if w = v then
      some { x with triggers := min (x.triggers + 1) 65535, held := f x.held } else s.watch v := by
    have mine : counted.watch w = some { x with triggers := min (x.triggers + 1) 65535 } := by
      simp [counted, hx]
    change ((({ counted with ev := ev } : State)).updWatch w _).watch v = _
    rw [State.watch_updWatch]
    split
    next same =>
      subst same
      exact congrArg (Option.map fun x => { x with held := f x.held }) mine
    next other => exact (State.watch_updWatch s w v _).trans (if_neg other)
  have asked (v : WatchId) : (told.askReplay w x.cfg).watch v = told.watch v := by
    rw [State.watch, watches]
    rfl
  have here := (asked w).trans ((watched w).trans (if_pos rfl))
  have responds := respond_watch here
  have response := respond_seg here
  have ends {γ : Type} (view : State → γ) (blind : BlindWatches view) :
      view (s.fire w x.cfg p n) = view ((told.askReplay w x.cfg).respond w) := by
    rw [fires]
    split
    · exact State.updWatch_view view blind _ _ _
    · rfl
  have watch (v : WatchId) : (s.fire w x.cfg p n).watch v = if w = v then some { x with
      triggers := min (x.triggers + 1) 65535, held := f x.held, respPending := x.respPending || x.cfg.response.isSome
      state := if x.cfg.oneShot then .fired else x.state, nextDue := if x.cfg.oneShot then none else x.nextDue
      overrun := if x.cfg.oneShot then false else x.overrun } else s.watch v := by
    rw [fires]
    cases x.cfg.oneShot with
    | true =>
      simp only [if_true, State.watch_updWatch, responds, asked, watched]
      split <;> rfl
    | false =>
      simp only [Bool.false_eq_true, if_false, responds, asked, watched]
      split <;> rfl
  have reported : (if x.cfg.report then s.handReport w n p else s).watch w = some { x with held := f x.held } := by
    rw [hu, State.watch_updWatch_same]
    exact congrArg (Option.map fun x => { x with held := f x.held }) hx
  refine ⟨⟨_, _, (watch w).trans (if_pos rfl), reported, rfl⟩, fun v other => (watch v).trans (if_neg (Ne.symm other)), ?_,
    ?_, fun y => ?_, ?_, fun k other => ?_⟩
  · refine (ends State.ev fun _ _ => rfl).trans ?_
    refine ((State.respond_view State.ev (fun _ _ => rfl) (fun _ _ => rfl) _ w).trans events).trans ?_
    rw [hu]
    have same (e : Event) : (told.handEvent e).ev = ((({ s with ev := ev } : State).updWatch w
        fun x => { x with held := f x.held }).handEvent e).ev :=
      handEvent_ev_congr (s := ({ s with ev := ev } : State).updWatch w fun x => { x with held := f x.held }) (t := told)
        rfl rfl e
    by_cases starts : x.cfg.cond = .reinit ∧ (s.pres x.cfg.tgt).state = .present ∧ s.restoreList x.cfg.tgt ≠ []
    · exact (congrArg State.ev (if_pos starts)).trans ((same _).trans (congrArg State.ev (if_pos starts)).symm)
    · by_cases again : x.cfg.cond = .reinit ∧ (s.pres x.cfg.tgt).state = .restoring
      · exact (congrArg State.ev ((if_neg starts).trans (if_pos again))).trans
          ((same _).trans (congrArg State.ev ((if_neg starts).trans (if_pos again))).symm)
      · have plain : told.ev = (({ s with ev := ev } : State).updWatch w fun x => { x with held := f x.held }).ev := rfl
        exact (congrArg State.ev ((if_neg starts).trans (if_neg again))).trans
          (plain.trans (congrArg State.ev ((if_neg starts).trans (if_neg again))).symm)
  · exact ((ends State.jobs fun _ _ => rfl).trans (State.respond_view State.jobs (fun _ _ => rfl) (fun _ _ => rfl) _ w)).trans jobs
  · exact ((ends (·.pres y) fun _ _ => rfl).trans (State.respond_view (·.pres y) (fun _ _ => rfl) (fun _ _ => rfl) _ w)).trans
      (presence y)
  · refine ((ends (·.seg x.cfg.tgt.seg) fun _ _ => rfl).trans (response _)).trans ((if_pos rfl).trans ?_)
    rw [segs, if_pos rfl]
    rfl
  · refine ((ends (·.seg k) fun _ _ => rfl).trans (response k)).trans ((if_neg (Ne.symm other)).trans ?_)
    rw [segs, if_neg (Ne.symm other)]
    rfl

end Sys2Proof.Machine
end

section
/-! PROOFS. How a host attempt ends: how its result reaches its context, and how its command ends or goes on (R11, R12,
R74 to R82, R105, R106, R135, R167, R171). -/

namespace Sys2Proof.Machine

set_option Elab.async false -- one thread elaborates: the checker's memory is limited

/-! ### Holders, while a step settles -/

theorem lockChance_holder (s : State) (q : SqId) (g : SegId) : ((s.lockChance q).seg g).holder = (s.seg g).holder := by
  unfold State.lockChance
  split
  next n _ =>
    split
    next =>
      unfold State.takeLock
      split
      next => rfl
      next =>
        split
        next => rfl
        next => exact place_holder _ n g
    next => rfl
  next => rfl

theorem offerTurns_holder (l : List SqId) (s : State) (g : SegId) :
    ((State.offerTurns l s).seg g).holder = (s.seg g).holder := by
  induction l generalizing s with
  | nil => rfl
  | cons q l ih =>
    rw [State.offerTurns]
    split
    · exact lockChance_holder s q g
    · refine (ih _).trans ?_
      split <;> exact lockChance_holder s q g

theorem settleLast_holder (s : State) (g : SegId) : (s.settleLast.seg g).holder = (s.seg g).holder := by
  have before : s.deleteIfOver.postAll.issueEvent.adminFetch.segs = s.segs := by simp
  have paused (u : State) : u.pauseIfQuiet.segs = u.segs := by simp
  have turn (u : State) : u.endTurnIfOver.segs = u.segs := by simp
  have fetch (u : State) : (u.ioFetch.seg g).holder = (u.seg g).holder := by
    rw [State.ioFetch]
    split
    · rw [State.seg, turn, State.seg]
    · split
      · exact congrArg (fun v : Vector SegCtl 4 => (v.get g).holder) (turn u)
      · rw [offerTurns_holder, State.seg, turn, State.seg]
  rw [State.settleLast, State.seg, paused]
  exact (fetch _).trans (by rw [State.seg, before, State.seg])

/-- While a step settles a hold stays, or the hold of a chain ends. -/
theorem settle_holder_or (s : State) (g : SegId) :
    (s.settle.seg g).holder = (s.seg g).holder ∨ (s.settle.seg g).holder = none := by
  have members : ∀ (l : List SegId) (u : State), ((l.foldl State.reachMember u).seg g).holder = (u.seg g).holder ∨
      ((l.foldl State.reachMember u).seg g).holder = none := fun l => by
    induction l with
    | nil => exact fun _ => .inl rfl
    | cons h l ih =>
      intro u
      obtain same | none := ih (u.reachMember h)
      · rw [List.foldl_cons, same]
        exact reachMember_holder u h g
      · exact .inr none
  rw [settle_eq, settleLast_holder]
  have first : (s.releaseFences.moveAllStaged.seg g).holder = (s.seg g).holder := by
    rw [moveAllStaged_holder, releaseFences_holder]
  rw [← first]
  exact members segIds _

/-! ### The report of an attempt -/

/-- A report changes, of the segments, only internal write lists. -/
theorem report_seg (s : State) (t : Tgt) (src : Source) (a : Attempt) (k : SegId) :
    ∃ l, (s.report t src a).seg k = { s.seg k with writes := l } := by
  by_cases silent : a = .silent
  · rw [silent, report_silence]
    by_cases loses : ((s.pres t).state = .present ∨ (s.pres t).state = .restoring) ∧
        (s.seg t.seg).settings.missThreshold ≤ (s.pres t).missed.miss
    · rw [silence_lost src loses.1 loses.2]
      have lost (k : SegId) : (s.lostFrom t src).seg k = s.seg k := by simp [State.lostFrom]
      split
      · obtain ⟨l, abandoned, -⟩ := (s.lostFrom t src).abandonJob_seg t .targetLost k
        exact ⟨l, by simpa [lost] using abandoned⟩
      · exact ⟨(s.seg k).writes, by simp [lost]⟩
    · rw [silence_counts src loses]
      exact ⟨_, rfl⟩
  · rw [report_answer silent]
    cases state : (s.pres t).state with
    | unknown => exact ⟨(s.seg k).writes, by rw [answer_unknown src state]; simp⟩
    | present => exact ⟨_, by rw [answer_kept src (.inl state)]; rfl⟩
    | restoring => exact ⟨_, by rw [answer_kept src (.inr state)]; rfl⟩
    | lost =>
      by_cases none : (s.restoreList t).length = 0
      · exact ⟨(s.seg k).writes, by rw [answer_lost_empty src state none]; simp⟩
      · rw [answer_lost_replay src state none]
        have created (u : State) : ∃ l, (u.createJob t).seg k = { u.seg k with writes := l } := by
          rw [State.createJob, State.seg_updSeg]
          split
          · exact ⟨_, rfl⟩
          · exact ⟨(u.seg k).writes, rfl⟩
        obtain ⟨l, made⟩ := created ((s.setPres t { state := .restoring, miss := 0 }).handEvent
          (.deviceFound t false true (s.restoreList t).length src))
        exact ⟨l, by simpa using made⟩

section

variable (s : State) (g : SegId) (t : Tgt) (src : Source) (a : Attempt)

theorem reported_seg (k : SegId) : ∃ l, (s.reported g t src a).seg k =
    { s.seg k with writes := l, wire := if g = k then none else (s.seg k).wire } := by
  obtain ⟨l, told⟩ := report_seg (s.setSeg g { s.seg g with wire := none }) t src a k
  refine ⟨l, told.trans ?_⟩
  rw [State.seg_setSeg]
  split
  next same => subst same; rfl
  next => rfl

theorem reported_ctxs : (s.reported g t src a).ctxs = s.ctxs := by simp [State.reported]

theorem reported_ctl : (s.reported g t src a).ctl = s.ctl := by simp [State.reported]

theorem reported_ticks : (s.reported g t src a).ticks = s.ticks := by simp [State.reported]

theorem reported_pool : (s.reported g t src a).pool = s.pool := by simp [State.reported]

theorem reported_sq (q : SqId) : (s.reported g t src a).sq q = s.sq q := by simp [State.reported]

theorem reported_cq (k : CqId) : (s.reported g t src a).cq k = s.cq k := by simp [State.reported]

theorem reported_link : (s.reported g t src a).link = s.link := by simp [State.reported]

theorem reported_spares (d : Ctx) : Spares d s (s.reported g t src a) := by
  refine .of_eq (reported_ctxs s g t src a) fun k => ?_
  obtain ⟨l, seg⟩ := reported_seg s g t src a k
  rw [seg]
  exact ⟨rfl, rfl⟩

end

/-! ### Ends of commands -/

theorem standing_finish (s : State) (n : CtxNum) (st : Status) : (s.finish n st).standing = s.standing := by
  rw [State.finish]
  split
  next => rfl
  next c _ =>
    split
    · exact (standing_updSeg _ c.seg (f := fun x => { x with offered := x.offered.filter (· ≠ c.num) }) rfl).trans (by simp)
    · simp

section

variable {s : State} {c : Ctx} {f : SegCtl → SegCtl} (distinct : s.distinct) (hc : c ∈ s.ctxs)
  (lists : ∀ y, (f y).pendingList = y.pendingList ∧ (f y).offered = y.offered)
  (stands : ∀ y, (f y).standing = y.standing)

include lists in
theorem released_finish_spares {d : Ctx} (other : d.num ≠ c.num) (st : Status) :
    Spares d s ((s.updSeg c.seg f).finish c.num st) :=
  (spares_relisted d s c.seg lists).trans (spares_finish _ other st)

include stands in
theorem released_finish_standing (st : Status) : ((s.updSeg c.seg f).finish c.num st).standing = s.standing :=
  (standing_finish _ _ st).trans (standing_updSeg (f := f) s c.seg (stands _))

include distinct hc in
theorem released_finish_cancelledAs (active : (s.cq (s.sq c.sq).bound).state = .active) (st : Status) :
    ((s.updSeg c.seg f).finish c.num st).settle.cancelledAs (s.sq c.sq).bound c st :=
  cancelledAs_onward (onward_settle _) ((shrinks_finish (s.updSeg c.seg f) c.num st).distinct distinct)
    (finish_cancelledAs (s := s.updSeg c.seg f) distinct hc active st)

end

/-- Outside chains a command ends with its hold and its frames (R74, R103). -/
theorem endCommand_alone {s : State} {c : Ctx} (hc : s.ctx c.num = some c) (alone : c.chain = none) (st : Status) :
    s.endCommand c.num st = (s.updSeg c.seg (·.endHoldOf c.num)).finish c.num st := by
  rw [State.endCommand, hc]
  dsimp only
  split
  · rfl
  · rw [State.memberEnded, alone]

theorem endAborted_alone {s : State} {c : Ctx} (hc : s.ctx c.num = some c) (alone : c.chain = none) :
    s.endAborted c.num = State.cancel .aborted s c.num := by
  rw [State.endAborted, hc]
  dsimp only
  rw [alone]

/-- A command outside chains ends: its hold ends, and then its frames. -/
def EndsAlone (s u : State) (c : Ctx) (st : Status) : Prop :=
  ∃ f : SegCtl → SegCtl, (∀ y, (f y).pendingList = y.pendingList ∧ (f y).offered = y.offered) ∧
    (∀ y, (f y).standing = y.standing) ∧ u = (s.updSeg c.seg f).finish c.num st

theorem endsAlone_endCommand {s : State} {c : Ctx} (hc : s.ctx c.num = some c) (alone : c.chain = none) (st : Status) :
    EndsAlone s (s.endCommand c.num st) c st :=
  ⟨_, (SegCtl.endHoldOf_lists · c.num), (SegCtl.standing_endHoldOf · c.num), endCommand_alone hc alone st⟩

theorem endsAlone_cancel {s : State} {c : Ctx} (hc : s.ctx c.num = some c) (st : Status) :
    EndsAlone s (State.cancel st s c.num) c st := by
  obtain ⟨f, lists, stands, cancelled⟩ := cancel_eq st hc
  exact ⟨f, lists, stands, cancelled⟩

theorem endsAlone_endAborted {s : State} {c : Ctx} (hc : s.ctx c.num = some c) (alone : c.chain = none) :
    EndsAlone s (s.endAborted c.num) c .aborted := by
  rw [endAborted_alone hc alone]
  exact endsAlone_cancel hc .aborted

/-! ### The result of an attempt -/

theorem Ctx.apply_of_not_accept {c : Ctx} {frame : FrameKind} {a : Attempt} (h : a.status ≠ .success) : c.apply frame a = c := by
  cases a with
  | accept v => exact absurd rfl h
  | parityFail => cases frame <;> rfl
  | hold => cases frame <;> rfl
  | refuse => cases frame <;> rfl
  | silent => cases frame <;> rfl

/-- What an attempt's result leaves of its context: all but the value and the block data (R75, R77, R79, R81). -/
theorem Ctx.apply_eq (c : Ctx) (frame : FrameKind) (a : Attempt) :
    ∃ v l, c.apply frame a = { c with value := v, staged := l } := by
  unfold Ctx.apply Ctx.applyRead
  split
  · split
    · exact ⟨_, c.staged, rfl⟩
    · exact ⟨c.value, _, rfl⟩
    · exact ⟨_, c.staged, rfl⟩
  · exact ⟨c.value, c.staged, rfl⟩

/-- The state in which an attempt's result is judged: the report made, the KEEP value handed off, the result applied
(R11, R74, R76). -/
def State.delivered (s : State) (g : SegId) (w : Wire) (c : Ctx) (a : Attempt) : State :=
  ((s.reported g c.tgt w.owner.source a).keepHandOff c w.kind a).updCtx c.num fun _ => c.apply w.kind a

section

variable {s : State} {g : SegId} {w : Wire} {c : Ctx} (a : Attempt)

theorem delivered_spares {d : Ctx} (other : d.num ≠ c.num) : Spares d s (s.delivered g w c a) := by
  have handed : Spares d (s.reported g c.tgt w.owner.source a)
      ((s.reported g c.tgt w.owner.source a).keepHandOff c w.kind a) := .of_segs (by simp) (by simp)
  exact ((reported_spares s g _ _ a d).trans handed).trans (spares_updCtx _ other _)

theorem delivered_distinct (distinct : s.distinct) (hc : c ∈ s.ctxs) : (s.delivered g w c a).distinct := by
  have ctxs : ((s.reported g c.tgt w.owner.source a).keepHandOff c w.kind a).ctxs = s.ctxs := by simp [reported_ctxs]
  have handed : ((s.reported g c.tgt w.owner.source a).keepHandOff c w.kind a).distinct := by rwa [State.distinct, ctxs]
  exact (shrinks_replace (ctx_of_mem handed (by rwa [ctxs])) _ (c.apply_num w.kind a)).distinct handed

theorem delivered_mem (hc : c ∈ s.ctxs) : c.apply w.kind a ∈ (s.delivered g w c a).ctxs := by
  refine mem_updCtx (s := (s.reported g c.tgt w.owner.source a).keepHandOff c w.kind a) (c := c) ?_ fun _ => c.apply w.kind a
  simpa [reported_ctxs] using hc

theorem delivered_sq (q : SqId) : (s.delivered g w c a).sq q = s.sq q := by
  change ((s.reported g c.tgt w.owner.source a).keepHandOff c w.kind a).sq q = _
  simp [reported_sq]

theorem delivered_cq (k : CqId) : (s.delivered g w c a).cq k = s.cq k := by
  change ((s.reported g c.tgt w.owner.source a).keepHandOff c w.kind a).cq k = _
  simp [reported_cq]

theorem delivered_ticks : (s.delivered g w c a).ticks = s.ticks := by
  change ((s.reported g c.tgt w.owner.source a).keepHandOff c w.kind a).ticks = _
  simp [reported_ticks]

theorem delivered_seg (k : SegId) : ∃ l, (s.delivered g w c a).seg k =
    { s.seg k with writes := l, wire := if g = k then none else (s.seg k).wire } := by
  obtain ⟨l, seg⟩ := reported_seg s g c.tgt w.owner.source a k
  refine ⟨l, ?_⟩
  change ((s.reported g c.tgt w.owner.source a).keepHandOff c w.kind a).seg k = _
  simpa using seg

/-- Without a KEEP value the delivered result leaves what stands after the report. -/
theorem delivered_standing (keep : ¬ (w.kind = .write ∧ a.status = .success ∧ c.record.keepFlag = true)) :
    (s.delivered g w c a).standing = (s.reported g c.tgt w.owner.source a).standing := by
  have handed : (s.reported g c.tgt w.owner.source a).keepHandOff c w.kind a = s.reported g c.tgt w.owner.source a :=
    if_neg fun h => keep ⟨h.1, h.2.1, h.2.2.1⟩
  rw [State.delivered, standing_updCtx, handed]

end

theorem drainIfDone_active {s : State} {g : SegId} (active : (s.seg g).state = .active) : s.drainIfDone g = s :=
  if_neg fun h => by simp [active] at h

theorem seg_state_of_standing {s t : State} (h : t.standing = s.standing) (g : SegId) :
    (t.seg g).state = (s.seg g).state := by
  have same : (t.seg g).standing = (s.seg g).standing := by rw [← standing_seg, ← standing_seg, h]
  exact (congrArg SegCtl.state same :)

theorem sendsFor_tgt {s : State} {g : SegId} {w : Wire} {c : Ctx} (sends : s.sendsFor g w c) (kind : w.kind ≠ .broadcast) :
    w.tgt = some c.tgt := by
  obtain ⟨-, -, frame, tgt, -⟩ := sends
  rw [tgt]
  refine if_neg fun broadcast => kind ?_
  rw [frame, Ctx.frameKind, broadcast]

/-- The verdict on the frame of a host context, once the result is applied. -/
abbrev State.verdictOf (s : State) (g : SegId) (w : Wire) (c : Ctx) (a : Attempt) : Verdict :=
  (c.apply w.kind a).verdict w.kind a (s.budgetLeft g c.tries)
    ((s.reported g c.tgt w.owner.source a).keepAnswer c w.kind a)

/-- How a READ or WRITE attempt of a host context ends (R11, R74). -/
theorem attemptEnd_host {s : State} {g : SegId} {w : Wire} {c : Ctx} {answer : BitVec 2} {data : Half} {parity : Bool}
    (sends : s.sendsFor g w c) (kind : w.kind ≠ .broadcast) (running : s.ctl.engine ≠ .failed) {a : Attempt}
    (ha : Attempt.ofAnswer w.kind answer data parity = a) : s.attemptEnd g answer data parity =
      ((s.delivered g w c a).judge (c.apply w.kind a) (s.verdictOf g w c a)).drainIfDone g := by
  have tgt := sendsFor_tgt sends kind
  obtain ⟨wire, owner, -, -, hc, distinct, -⟩ := sends
  have told : (s.clearWire g).report c.tgt w.owner.source a = s.reported g c.tgt w.owner.source a := rfl
  have here : (s.reported g c.tgt w.owner.source a).ctx c.num = some c := by
    rw [State.ctx, reported_ctxs]
    exact ctx_of_mem distinct hc
  have budget : ((s.reported g c.tgt w.owner.source a).keepHandOff c w.kind a).budgetLeft g c.tries =
      s.budgetLeft g c.tries := by
    obtain ⟨l, seg⟩ := reported_seg s g c.tgt w.owner.source a g
    simp [State.budgetLeft, seg]
  rw [State.attemptEnd, wire]
  dsimp only
  rw [tgt]
  dsimp only
  rw [ha, told, State.toOwner, owner]
  dsimp only
  rw [State.hostAttempt, ← owner, here]
  dsimp only
  rw [if_neg (by simpa [reported_ctl] using running), budget]
  rfl

/-- On an ACTIVE segment a command that ends drains nothing. -/
theorem hostFrame_drained {s u : State} {g : SegId} {w : Wire} {c : Ctx} {a : Attempt} {st : Status}
    (frame : s.hostFrame g w c) (ends : EndsAlone (s.delivered g w c a) u (c.apply w.kind a) st) : u.drainIfDone g = u := by
  obtain ⟨-, -, -, active, -⟩ := frame
  obtain ⟨f, -, stands, rfl⟩ := ends
  obtain ⟨l, seg⟩ := delivered_seg (s := s) (g := g) (w := w) (c := c) a g
  have segment : ((s.delivered g w c a).seg g).state = .active := by rw [seg]; exact active
  exact drainIfDone_active ((seg_state_of_standing (released_finish_standing stands st) g).trans segment)

/-- Where the command ends, outside chains and on an ACTIVE segment. -/
theorem hostFrame_ends {s u : State} {g : SegId} {w : Wire} {c : Ctx} {a : Attempt} {st : Status}
    (frame : s.hostFrame g w c) (ends : EndsAlone (s.delivered g w c a) u (c.apply w.kind a) st) :
    (u.drainIfDone g).settle.cancelledAs (s.sq c.sq).bound (c.apply w.kind a) st ∧
      s.keepsOthers (u.drainIfDone g).settle c.num ∧
      (u.drainIfDone g).settle.standing = (s.delivered g w c a).standing := by
  have drained := hostFrame_drained frame ends
  obtain ⟨⟨-, -, -, -, hc, distinct, -⟩, -, -, -, open'⟩ := frame
  obtain ⟨f, lists, stands, rfl⟩ := ends
  have mem := delivered_mem (g := g) (w := w) a hc
  have still := delivered_distinct (g := g) (w := w) a distinct hc
  have num := c.apply_num w.kind a
  have sq : (c.apply w.kind a).sq = c.sq := by
    obtain ⟨v, l, eq⟩ := c.apply_eq w.kind a
    rw [eq]
  have bound : ((s.delivered g w c a).sq (c.apply w.kind a).sq).bound = (s.sq c.sq).bound := by rw [sq, delivered_sq]
  have spares (d : Ctx) (other : d.num ≠ c.num) := delivered_spares (s := s) (g := g) (w := w) a other
  have cq := delivered_cq (s := s) (g := g) (w := w) (c := c) a
  generalize s.delivered g w c a = v at mem still bound spares cq drained ⊢
  generalize c.apply w.kind a = d at mem num sq bound drained ⊢
  have stood := released_finish_standing (s := v) (c := d) stands st
  have after := (shrinks_finish (v.updSeg d.seg f) d.num st).distinct still
  rw [drained]
  refine ⟨bound ▸ released_finish_cancelledAs still mem (by rw [bound, cq]; exact open') st,
    keepsOthers_of_spares after fun e other _ => (spares e other).trans (released_finish_spares lists (num.symm ▸ other) st),
    (settle_standing _).trans stood⟩

/-- Where the command goes on, outside chains and on an ACTIVE segment. -/
theorem hostFrame_goesOn {s : State} {g : SegId} {w : Wire} {c : Ctx} {a : Attempt} {f : Ctx → Ctx}
    (frame : s.hostFrame g w c) (num : ∀ d, (f d).num = d.num) (calm : (f (c.apply w.kind a)).calm) :
    f (c.apply w.kind a) ∈ (((s.delivered g w c a).updCtx c.num f).drainIfDone g).settle.ctxs ∧
      s.keepsOthers (((s.delivered g w c a).updCtx c.num f).drainIfDone g).settle c.num ∧
      (((s.delivered g w c a).updCtx c.num f).drainIfDone g).settle.standing = (s.delivered g w c a).standing := by
  obtain ⟨⟨-, -, -, -, hc, distinct, -⟩, -, -, active, -⟩ := frame
  have mem := delivered_mem (g := g) (w := w) a hc
  have still := delivered_distinct (g := g) (w := w) a distinct hc
  have same := c.apply_num w.kind a
  have spares (d : Ctx) (other : d.num ≠ c.num) := delivered_spares (s := s) (g := g) (w := w) a other
  have segment : ((s.delivered g w c a).seg g).state = .active := by
    obtain ⟨l, seg⟩ := delivered_seg (s := s) (g := g) (w := w) (c := c) a g
    rw [seg]
    exact active
  generalize s.delivered g w c a = v at mem still spares segment ⊢
  generalize c.apply w.kind a = d at mem same calm ⊢
  have drained : (v.updCtx c.num f).drainIfDone g = v.updCtx c.num f := drainIfDone_active segment
  have after : (v.updCtx c.num f).distinct := (shrinks_updCtx v c.num num).distinct still
  rw [drained, ← same]
  refine ⟨(settle_keeps _).calm (same ▸ after) _ (mem_updCtx mem f) calm, keepsOthers_of_spares (same ▸ after)
    fun e other _ => (spares e (same ▸ other)).trans (spares_updCtx v other f), settle_standing _⟩

/-- The holder of the segment of a host frame, once its command goes on: a holder outside chains stays. -/
theorem hostFrame_keepsHolder {s : State} {g : SegId} {w : Wire} {c : Ctx} {a : Attempt} {f : Ctx → Ctx} {h : Holder}
    (frame : s.hostFrame g w c) (held : (s.seg g).holder = some h) (outside : ∀ id, h ≠ .chain id) :
    ((((s.delivered g w c a).updCtx c.num f).drainIfDone g).settle.seg g).holder = some h := by
  obtain ⟨-, -, -, active, -⟩ := frame
  obtain ⟨l, seg⟩ := delivered_seg (s := s) (g := g) (w := w) (c := c) a g
  have segment : ((s.delivered g w c a).seg g).state = .active := by rw [seg]; exact active
  have here : (((s.delivered g w c a).updCtx c.num f).seg g).holder = some h := by
    change ((s.delivered g w c a).seg g).holder = _
    rw [seg]
    exact held
  have drained : ((s.delivered g w c a).updCtx c.num f).drainIfDone g = (s.delivered g w c a).updCtx c.num f :=
    drainIfDone_active segment
  rw [drained, settle_holder, here]
  rw [here]
  cases h with
  | chain id => exact absurd rfl (outside id)
  | maskedWrite n => trivial
  | readBlock n => trivial

/-! ### The verdict on an attempt -/

theorem judge_final {s : State} {c : Ctx} (mark : c.mark ≠ some .aborted) (st : Status) :
    s.judge c (.final st) = s.endCommand c.num st := by
  unfold State.judge
  split
  next aborted => exact absurd aborted mark
  next same _ => cases same; rfl
  all_goals simp_all

theorem judge_aborted {s : State} {c : Ctx} (mark : c.mark = some .aborted) (v : Verdict) :
    s.judge c v = s.endAborted c.num := by
  unfold State.judge
  rw [mark]

theorem judge_marked {s : State} {c : Ctx} {st : Status} {v : Verdict} (mark : c.mark = some st) (other : st ≠ .aborted)
    (further : ∀ st, v ≠ .final st) : s.judge c v = State.cancel st s c.num := by
  unfold State.judge
  split
  next aborted => exact absurd (Option.some.inj (mark.symm.trans aborted)) other
  next => exact absurd rfl (further _)
  all_goals simp_all

theorem judge_unmarked {s : State} {c : Ctx} {v : Verdict} (mark : c.mark = none) (further : ∀ st, v ≠ .final st) :
    s.judge c v = s.goOn c v := by
  unfold State.judge
  split
  next aborted => exact nomatch mark.symm.trans aborted
  next => exact absurd rfl (further _)
  all_goals simp_all

section

variable {s : State} {g : SegId} {w : Wire} {c : Ctx} {answer : BitVec 2} {data : Half} {parity : Bool} {a : Attempt}
  {st : Status}

theorem apply_kind (c : Ctx) (frame : FrameKind) (a : Attempt) : (c.apply frame a).kind = c.kind := by
  obtain ⟨v, l, eq⟩ := c.apply_eq frame a
  rw [eq]
  rfl

theorem apply_mark (c : Ctx) (frame : FrameKind) (a : Attempt) : (c.apply frame a).mark = c.mark := by
  obtain ⟨v, l, eq⟩ := c.apply_eq frame a
  rw [eq]

theorem apply_chain (c : Ctx) (frame : FrameKind) (a : Attempt) : (c.apply frame a).chain = c.chain := by
  obtain ⟨v, l, eq⟩ := c.apply_eq frame a
  rw [eq]

theorem delivered_ctx (frame : s.hostFrame g w c) :
    (s.delivered g w c a).ctx (c.apply w.kind a).num = some (c.apply w.kind a) := by
  obtain ⟨⟨-, -, -, -, hc, distinct, -⟩, -⟩ := frame
  exact ctx_of_mem (delivered_distinct a distinct hc) (delivered_mem a hc)

/-- A final verdict ends the command, unless it carries an abort mark (R167). -/
theorem hostFrame_final (frame : s.hostFrame g w c) (kind : w.kind ≠ .broadcast)
    (ha : Attempt.ofAnswer w.kind answer data parity = a) (mark : c.mark ≠ some .aborted)
    (verdict : s.verdictOf g w c a = .final st) :
    (s.attemptEnd g answer data parity).settle.cancelledAs (s.sq c.sq).bound (c.apply w.kind a) st ∧
      s.keepsOthers (s.attemptEnd g answer data parity).settle c.num ∧
      (s.attemptEnd g answer data parity).settle.standing = (s.delivered g w c a).standing := by
  obtain ⟨sends, alone, running, -⟩ := id frame
  have ended := attemptEnd_host sends kind running ha
  rw [verdict, judge_final (by rwa [apply_mark])] at ended
  rw [ended]
  exact hostFrame_ends frame (endsAlone_endCommand (delivered_ctx frame) (by rwa [apply_chain]) st)

/-- An abort mark ends the command whatever the result (R171). -/
theorem hostFrame_aborted (frame : s.hostFrame g w c) (kind : w.kind ≠ .broadcast)
    (ha : Attempt.ofAnswer w.kind answer data parity = a) (mark : c.mark = some .aborted) :
    (s.attemptEnd g answer data parity).settle.cancelledAs (s.sq c.sq).bound (c.apply w.kind a) .aborted ∧
      s.keepsOthers (s.attemptEnd g answer data parity).settle c.num ∧
      (s.attemptEnd g answer data parity).settle.standing = (s.delivered g w c a).standing := by
  obtain ⟨sends, alone, running, -⟩ := id frame
  have ended := attemptEnd_host sends kind running ha
  rw [judge_aborted (by rwa [apply_mark])] at ended
  rw [ended]
  exact hostFrame_ends frame (endsAlone_endAborted (delivered_ctx frame) (by rwa [apply_chain]))

/-- Another mark ends a command whose attempt is not final (R167). -/
theorem hostFrame_marked (frame : s.hostFrame g w c) (kind : w.kind ≠ .broadcast)
    (ha : Attempt.ofAnswer w.kind answer data parity = a) (mark : c.mark = some st) (other : st ≠ .aborted)
    (verdict : ∀ st, s.verdictOf g w c a ≠ .final st) :
    (s.attemptEnd g answer data parity).settle.cancelledAs (s.sq c.sq).bound (c.apply w.kind a) st ∧
      s.keepsOthers (s.attemptEnd g answer data parity).settle c.num ∧
      (s.attemptEnd g answer data parity).settle.standing = (s.delivered g w c a).standing := by
  obtain ⟨sends, alone, running, -⟩ := id frame
  have ended := attemptEnd_host sends kind running ha
  rw [judge_marked (by rwa [apply_mark]) other verdict] at ended
  rw [ended]
  exact hostFrame_ends frame (endsAlone_cancel (delivered_ctx frame) st)

/-- Without a mark the command goes on after an attempt that is not final (R12, R77, R79, R81). -/
theorem hostFrame_unmarked {f : Ctx → Ctx} (frame : s.hostFrame g w c) (kind : w.kind ≠ .broadcast)
    (ha : Attempt.ofAnswer w.kind answer data parity = a) (mark : c.mark = none)
    (verdict : ∀ st, s.verdictOf g w c a ≠ .final st)
    (goes : (s.delivered g w c a).goOn (c.apply w.kind a) (s.verdictOf g w c a) =
      (s.delivered g w c a).updCtx c.num f)
    (num : ∀ d, (f d).num = d.num) (calm : (f (c.apply w.kind a)).calm) :
    f (c.apply w.kind a) ∈ (s.attemptEnd g answer data parity).settle.ctxs ∧
      s.keepsOthers (s.attemptEnd g answer data parity).settle c.num ∧
      (s.attemptEnd g answer data parity).settle.standing = (s.delivered g w c a).standing ∧
      ∀ h, (s.seg g).holder = some h → (∀ id, h ≠ .chain id) →
        ((s.attemptEnd g answer data parity).settle.seg g).holder = some h := by
  obtain ⟨sends, alone, running, -⟩ := id frame
  have ended := attemptEnd_host sends kind running ha
  rw [judge_unmarked (by rwa [apply_mark]) verdict] at ended
  rw [ended, goes]
  obtain ⟨mem, others, stands⟩ := hostFrame_goesOn frame num calm
  exact ⟨mem, others, stands, fun h held outside => hostFrame_keepsHolder frame held outside⟩

end

theorem budgetLeft_iff {s : State} {g : SegId} {tries : Nat} :
    s.budgetLeft g tries = true ↔ tries < 1 + (s.seg g).settings.retryLimit := by simp [State.budgetLeft]

/-- A retriable result asks for a retry while the budget lasts, and no deadline has passed (R12, R82). -/
theorem verdict_retriable {c : Ctx} {frame : FrameKind} {a : Attempt} (kept : Bool) (failed : a = .hold ∨ a = .parityFail)
    (more : Bool) : c.verdict frame a more kept = if more then (if c.deadlinePassed then .final .conditionTimeout else .retry)
      else .final a.status := by
  obtain rfl | rfl := failed <;> rfl

/-- Settles O48: the verdict on each result that is not ACCEPT, judged against the mark. -/
theorem hostAttemptsEnd : Obligations.HostAttemptsEnd := by
  intro g answer data parity s w c frame kind a more ends
  have ha : Attempt.ofAnswer w.kind answer data parity = a := rfl
  have budget : s.budgetLeft g c.tries = true ↔ more := budgetLeft_iff
  have plain (failed : a.status ≠ .success) : c.apply w.kind a = c ∧
      (s.delivered g w c a).standing = (s.reported g c.tgt w.owner.source a).standing :=
    ⟨Ctx.apply_of_not_accept failed, delivered_standing a fun h => failed h.2.1⟩
  have finals (st : Status) (mark : c.mark ≠ some .aborted) (none : c.staged = []) (failed : a.status ≠ .success)
      (verdict : s.verdictOf g w c a = .final st) : ends c st := by
    obtain ⟨cancelled, others, stands⟩ := hostFrame_final frame kind ha mark verdict
    obtain ⟨same, reported⟩ := plain failed
    exact ⟨_, rfl, (same ▸ cancelled).ready none, others, stands.trans reported⟩
  have unspent (failed : a = .hold ∨ a = .parityFail) (left : more) : s.verdictOf g w c a =
      if c.deadlinePassed then .final .conditionTimeout else .retry := by
    have other : a.status ≠ .success := by obtain h | h := failed <;> rw [h] <;> decide
    rw [State.verdictOf, (plain other).1, verdict_retriable _ failed, if_pos (budget.2 left)]
  have spent (failed : a = .hold ∨ a = .parityFail) (left : ¬ more) : s.verdictOf g w c a = .final a.status := by
    have other : a.status ≠ .success := by obtain h | h := failed <;> rw [h] <;> decide
    rw [State.verdictOf, (plain other).1, verdict_retriable _ failed, if_neg (mt budget.1 left)]
  have failing (failed : a = .hold ∨ a = .parityFail) : a.status ≠ .success := by
    obtain h | h := failed <;> rw [h] <;> decide
  refine ⟨fun mark failed left inTime => ?_, fun mark none => ⟨fun failed left late => ?_, fun hold left => ?_,
    fun parity left => ?_, fun refuse => ?_, fun silent => ?_⟩, fun mark block keep => ?_,
    fun st mark other none failed left inTime => ?_⟩
  · have verdict : s.verdictOf g w c a = .retry := by rw [unspent failed left, inTime]; rfl
    obtain ⟨same, reported⟩ := plain (failing failed)
    have tick : (s.delivered g w c a).retryTick c.seg = s.ticks + (s.seg g).settings.retryDelay := by
      obtain ⟨⟨-, -, -, -, -, -, -, -, seg⟩, -⟩ := frame
      obtain ⟨l, eq⟩ := delivered_seg (s := s) (g := g) (w := w) (c := c) a g
      rw [State.retryTick, delivered_ticks, seg, eq]
    obtain ⟨mem, others, stands, -⟩ := hostFrame_unmarked (f := fun d =>
      { d with state := .retryWait, retryEnd := some ((s.delivered g w c a).retryTick d.seg) }) frame kind ha mark
      (by simp [verdict]) (by rw [verdict, same]; rfl) (fun _ => rfl) ⟨by simp, by simp, by simp⟩
    rw [same, tick] at mem
    exact ⟨_, rfl, mem, others, stands.trans reported⟩
  · exact finals _ mark none (failing failed) (by rw [unspent failed left, late]; rfl)
  · exact finals _ mark none (failing (.inl hold)) (by rw [spent (.inl hold) left, hold]; rfl)
  · exact finals _ mark none (failing (.inr parity)) (by rw [spent (.inr parity) left, parity]; rfl)
  · exact finals _ mark none (by rw [refuse]; decide) (by rw [refuse]; rfl)
  · exact finals _ mark none (by rw [silent]; decide) (by rw [silent]; rfl)
  · obtain ⟨cancelled, others, stands⟩ := hostFrame_aborted frame kind ha mark
    refine ⟨_, rfl, ?_, others, stands.trans (delivered_standing a fun h => by simp [keep] at h)⟩
    rw [State.cancelledAs, apply_kind, if_neg fun h => block h.1] at cancelled
    exact cancelled
  · have verdict : s.verdictOf g w c a = .retry := by rw [unspent failed left, inTime]; rfl
    obtain ⟨cancelled, others, stands⟩ := hostFrame_marked frame kind ha mark other (by simp [verdict])
    obtain ⟨same, reported⟩ := plain (failing failed)
    exact ⟨_, rfl, (same ▸ cancelled).ready none, others, stands.trans reported⟩

/-! ### ACCEPTed frames -/

theorem verdict_read {c : Ctx} {v : Half} {more kept : Bool} : c.verdict .read (.accept v) more kept =
    match c.kind with
    | some .maskedWrite => .further
    | some .readBlock => if c.blockCount = (c.record.byte 7).toNat then .final .success else .further
    | some .waitUntil =>
      if sampleMatches c.record v then .final .success
      else if c.deadlinePassed then .final .conditionTimeout
      else .pollWait
    | _ => .final .success := rfl


theorem apply_read_value (c : Ctx) (v : Half) (merge : c.kind ≠ some .maskedWrite) (block : c.kind ≠ some .readBlock) :
    c.apply .read (.accept v) = { c with value := some v } := by
  unfold Ctx.apply Ctx.applyRead
  split
  · split
    next h => exact absurd h merge
    next h => exact absurd h block
    next => simp_all
  · simp_all

theorem verdict_value (c : Ctx) (v : Half) (more kept : Bool) (merge : c.kind ≠ some .maskedWrite)
    (block : c.kind ≠ some .readBlock) (wait : c.kind ≠ some .waitUntil) :
    c.verdict .read (.accept v) more kept = .final .success := by
  rw [verdict_read]
  split
  next h => exact absurd h merge
  next h => exact absurd h block
  next h => exact absurd h wait
  next => rfl

theorem verdict_merge (c : Ctx) (v : Half) (more kept : Bool) (merge : c.kind = some .maskedWrite) :
    c.verdict .read (.accept v) more kept = .further := by
  rw [verdict_read, merge]

theorem verdict_wait (c : Ctx) (v : Half) (more kept : Bool) (wait : c.kind = some .waitUntil) :
    c.verdict .read (.accept v) more kept = if sampleMatches c.record v then .final .success
      else if c.deadlinePassed then .final .conditionTimeout else .pollWait := by
  rw [verdict_read, wait]

theorem verdict_block (c : Ctx) (v : Half) (more kept : Bool) (block : c.kind = some .readBlock) :
    c.verdict .read (.accept v) more kept = if c.blockCount = (c.record.byte 7).toNat then .final .success
      else .further := by
  rw [verdict_read, block]

theorem finish_holder (s : State) (n : CtxNum) (st : Status) (g : SegId) :
    ((s.finish n st).seg g).holder = (s.seg g).holder := by
  unfold State.finish
  split
  next => rfl
  next c _ =>
    split
    · exact seg_updSeg_holder (s := (s.issue _ _ _).updCtx c.num _) g c.seg
        (f := fun x => { x with offered := x.offered.filter (· ≠ c.num) }) fun _ => rfl
    · exact becomeReady_holder s n st g

/-- A command outside chains that has ended holds its segment no longer (R103). -/
theorem endCommand_frees {s : State} {c : Ctx} (hc : s.ctx c.num = some c) (alone : c.chain = none) (st : Status) :
    ((s.endCommand c.num st).seg c.seg).holder ≠ some (.readBlock c.num) := by
  rw [endCommand_alone hc alone, finish_holder, State.seg_updSeg_same]
  unfold SegCtl.endHoldOf
  split
  next => exact fun h => nomatch h
  next free => exact fun h => free (.inr h)

theorem goOn_further (s : State) (c : Ctx) : s.goOn c .further = s.updCtx c.num fun c => { c with tries := 0 } := rfl

theorem goOn_pollWait (s : State) (c : Ctx) : s.goOn c .pollWait = s.updCtx c.num fun c =>
    { c with state := .pollWait, tries := 0, pollEnd := some (s.now + (c.record.half 14).toNat) } := rfl

/-- A command has one kind. -/
theorem kind_only {c : Ctx} {k j : IoKind} {p : Prop} (is : c.kind = some k) (other : j ≠ k) (h : c.kind = some j) : p :=
  absurd (Option.some.inj (h.symm.trans is)) other

/-- Settles O49: the value reaches the command by its kind. -/
theorem hostReadsAccepted : Obligations.HostReadsAccepted := by
  intro g v parity s w c frame mark kind ha
  have accepted : Attempt.ofAnswer w.kind 0b01 v parity = .accept v := by rw [kind, ha]
  have reported : (s.delivered g w c (.accept v)).standing = (s.reported g c.tgt .host (.accept v)).standing := by
    obtain ⟨⟨-, owner, -⟩, -⟩ := id frame
    rw [delivered_standing _ (by simp [kind]), owner]
    rfl
  have wire : w.kind ≠ .broadcast := by simp [kind]
  have unmarked : c.mark ≠ some .aborted := by simp [mark]
  obtain ⟨⟨-, -, -, -, -, -, state, -⟩, -⟩ := id frame
  have final {st : Status} (h : s.verdictOf g w c (.accept v) = .final st) :=
    hostFrame_final frame wire accepted unmarked h
  refine ⟨(s.attemptEnd g 0b01 v parity).settle, rfl, ?_⟩
  by_cases merge : c.kind = some .maskedWrite
  · have applied : c.apply w.kind (.accept v) = { c with value := some (mergedValue c.record v) } := by
      rw [kind, Ctx.apply, Ctx.applyRead, merge]
    have verdict : s.verdictOf g w c (.accept v) = .further := by
      rw [State.verdictOf, applied, kind]
      exact verdict_merge _ v _ _ merge
    obtain ⟨mem, others, stands, holds⟩ := hostFrame_unmarked (f := fun c => { c with tries := 0 }) frame wire accepted mark
      (by simp [verdict]) (by rw [verdict, goOn_further, Ctx.apply_num]) (fun _ => rfl)
      (by rw [applied]; exact ⟨by simp [state], by simp [state], by simp [state]⟩)
    rw [applied] at mem
    exact ⟨others, stands.trans reported, kind_only merge (by decide), kind_only merge (by decide),
      fun _ => ⟨mem, fun held => holds _ held fun _ => nofun⟩, kind_only merge (by decide)⟩
  by_cases block : c.kind = some .readBlock
  · have applied : c.apply w.kind (.accept v) = { c with staged := c.staged ++ [v] } := by
      rw [kind, Ctx.apply, Ctx.applyRead, block]
    have count : ({ c with staged := c.staged ++ [v] } : Ctx).blockCount = c.staged.length + 1 := List.length_append
    by_cases last : c.staged.length + 1 = (c.record.byte 7).toNat
    · have verdict : s.verdictOf g w c (.accept v) = .final .success := by
        rw [State.verdictOf, applied, kind]
        exact (verdict_block { c with staged := c.staged ++ [v] } v _ _ block).trans (if_pos (count.trans last))
      obtain ⟨cancelled, others, stands⟩ := final verdict
      refine ⟨others, stands.trans reported, kind_only block (by decide), kind_only block (by decide),
        kind_only block (by decide), fun _ => ⟨fun more => by omega, fun _ => ⟨?_, ?_⟩⟩⟩
      · obtain ⟨sends, alone, running, segment, -⟩ := id frame
        have ended := attemptEnd_host sends wire running accepted
        rw [verdict, judge_final (by rwa [apply_mark])] at ended
        have here := delivered_ctx (a := .accept v) frame
        have outside : (c.apply w.kind (.accept v)).chain = none := by rwa [apply_chain]
        rw [ended, hostFrame_drained frame (endsAlone_endCommand here outside .success)]
        have frees := endCommand_frees here outside .success
        rw [applied] at frees ⊢
        obtain ⟨-, -, -, -, -, -, -, -, rfl⟩ := sends
        obtain same | none := settle_holder_or ((s.delivered c.seg w c (.accept v)).endCommand c.num .success) c.seg
        · exact fun h => frees (same.symm.trans h)
        · exact fun h => nomatch none.symm.trans h
      · rw [applied, State.cancelledAs, if_pos ⟨block, by simp⟩] at cancelled
        exact cancelled
    · have verdict : s.verdictOf g w c (.accept v) = .further := by
        rw [State.verdictOf, applied, kind]
        exact (verdict_block { c with staged := c.staged ++ [v] } v _ _ block).trans (if_neg (mt count.symm.trans last))
      obtain ⟨mem, others, stands, holds⟩ := hostFrame_unmarked (f := fun c => { c with tries := 0 }) frame wire accepted mark
        (by simp [verdict]) (by rw [verdict, goOn_further, Ctx.apply_num]) (fun _ => rfl)
        (by rw [applied]; exact ⟨by simp [state], by simp [state], by simp [state]⟩)
      rw [applied] at mem
      exact ⟨others, stands.trans reported, kind_only block (by decide), kind_only block (by decide),
        kind_only block (by decide),
        fun _ => ⟨fun _ => ⟨mem, fun held => holds _ held fun _ => nofun⟩, fun h => absurd h last⟩⟩
  have applied : c.apply w.kind (.accept v) = { c with value := some v } := by
    rw [kind, apply_read_value c v merge block]
  by_cases wait : c.kind = some .waitUntil
  · have verdict : s.verdictOf g w c (.accept v) = if sampleMatches c.record v then .final .success
        else if c.deadlinePassed then .final .conditionTimeout else .pollWait := by
      rw [State.verdictOf, applied, kind]
      exact verdict_wait _ v _ _ wait
    have sample : sampleMatches c.record v = true ↔ v &&& c.record.half 10 = c.record.half 12 := beq_iff_eq
    have ready {st : Status} (h : s.verdictOf g w c (.accept v) = .final st) :
        (s.attemptEnd g 0b01 v parity).settle.readyWith (s.sq c.sq).bound { c with value := some v } st := by
      obtain ⟨cancelled, -⟩ := final h
      rw [State.cancelledAs, apply_kind, if_neg fun h => block h.1, applied] at cancelled
      exact cancelled
    by_cases matched : sampleMatches c.record v = true
    · have verdict : s.verdictOf g w c (.accept v) = .final .success := verdict.trans (if_pos matched)
      obtain ⟨-, others, stands⟩ := final verdict
      refine ⟨others, stands.trans reported, kind_only wait (by decide), fun _ => ?_, fun h => absurd h merge,
        fun h => absurd h block⟩
      rw [if_pos (sample.1 matched)]
      exact ready verdict
    by_cases late : c.deadlinePassed = true
    · have verdict : s.verdictOf g w c (.accept v) = .final .conditionTimeout :=
        verdict.trans ((if_neg matched).trans (if_pos late))
      obtain ⟨-, others, stands⟩ := final verdict
      refine ⟨others, stands.trans reported, kind_only wait (by decide), fun _ => ?_, fun h => absurd h merge,
        fun h => absurd h block⟩
      rw [if_neg (mt sample.2 matched), if_pos late]
      exact ready verdict
    · have verdict : s.verdictOf g w c (.accept v) = .pollWait :=
        verdict.trans ((if_neg matched).trans (if_neg late))
      obtain ⟨mem, others, stands, -⟩ := hostFrame_unmarked (f := fun c =>
        { c with state := .pollWait, tries := 0, pollEnd := some (s.now + (c.record.half 14).toNat) }) frame wire accepted
        mark (by simp [verdict]) (by rw [verdict, goOn_pollWait, Ctx.apply_num, State.now, delivered_ticks]; rfl)
        (fun _ => rfl) ⟨by simp, by simp, by simp⟩
      refine ⟨others, stands.trans reported, kind_only wait (by decide), fun _ => ?_, fun h => absurd h merge,
        fun h => absurd h block⟩
      rw [if_neg (mt sample.2 matched), if_neg late]
      rw [applied] at mem
      exact mem
  · have verdict : s.verdictOf g w c (.accept v) = .final .success := by
      rw [State.verdictOf, applied, kind]
      exact verdict_value _ v _ _ merge block wait
    obtain ⟨cancelled, others, stands⟩ := final verdict
    refine ⟨others, stands.trans reported, fun _ => ?_, fun h => absurd h wait, fun h => absurd h merge,
      fun h => absurd h block⟩
    rw [State.cancelledAs, apply_kind, if_neg fun h => block h.1, applied] at cancelled
    exact cancelled

/-- The KEEP hand-off changes the restore pool at most. -/
theorem keepHandOff_eq (s : State) (c : Ctx) (frame : FrameKind) (a : Attempt) :
    s.keepHandOff c frame a = { s with pool := (s.keepHandOff c frame a).pool } := by
  unfold State.keepHandOff
  split <;> rfl

theorem endsAlone_settled {s u : State} {c : Ctx} {st : Status} (distinct : s.distinct) (hc : c ∈ s.ctxs)
    (active : (s.cq (s.sq c.sq).bound).state = .active) (ends : EndsAlone s u c st) :
    u.settle.cancelledAs (s.sq c.sq).bound c st ∧ s.keepsOthers u.settle c.num ∧ u.standing = s.standing := by
  obtain ⟨f, lists, stands, rfl⟩ := ends
  have after := (shrinks_finish (s.updSeg c.seg f) c.num st).distinct distinct
  exact ⟨released_finish_cancelledAs distinct hc active st, keepsOthers_of_spares after fun e other _ =>
    released_finish_spares lists other st, released_finish_standing stands st⟩

theorem keepsOthers_before {s v t : State} {n : CtxNum} (spares : ∀ d, Spares d s v) (h : v.keepsOthers t n) :
    s.keepsOthers t n := by
  intro d hd other calm
  obtain ⟨here, first⟩ := spares d hd
  obtain ⟨there, second⟩ := h d here other calm
  refine ⟨there, fun g => ?_⟩
  obtain ⟨listed, offered⟩ := first g
  obtain ⟨listed', offered'⟩ := second g
  exact ⟨listed' ∘ listed, offered' ∘ offered⟩

/-- The value that a WRITE frame puts into its target (R135). -/
theorem writtenValue_eq (c : Ctx) : c.writtenValue = if c.kind = some .maskedWrite then c.value.getD 0 else c.record.half 8 := by
  unfold Ctx.writtenValue Ctx.frameData
  split
  next h => rw [if_pos h]
  next h => rw [if_neg h]

theorem standing_pool_congr {u v t : State} (same : v = { u with pool := v.pool }) (pool : t.pool = v.pool) :
    v.standing = ({ u with pool := t.pool } : State).standing := by rw [pool, ← same]

theorem pool_of_standing {s t : State} (h : t.standing = s.standing) : t.pool = s.pool := (congrArg State.pool h :)

theorem delivered_pool (s : State) (g : SegId) (w : Wire) (c : Ctx) (a : Attempt) : (s.delivered g w c a).pool =
    ((s.reported g c.tgt w.owner.source a).keepHandOff c w.kind a).pool := rfl

/-- Settles O50: a KEEP value is recorded as the frame ends; a BROADCAST reports nothing. -/
theorem hostWritesAccepted : Obligations.HostWritesAccepted := by
  refine ⟨fun g d parity s w c frame mark kind pool => ?_, fun g s w c frame kind => ?_⟩
  · have accepted : Attempt.ofAnswer w.kind 0b01 d parity = .accept d := by rw [kind]; rfl
    have applied : c.apply w.kind (.accept d) = c := by rw [kind]; rfl
    obtain ⟨⟨-, owner, frameKind, -⟩, -⟩ := id frame
    have block : c.kind ≠ some .readBlock := fun h => by
      rw [kind, Ctx.frameKind, h] at frameKind
      exact nomatch frameKind
    let u := s.reported g c.tgt w.owner.source (.accept d)
    have verdict : s.verdictOf g w c (.accept d) = .final (if u.keepAnswer c w.kind (.accept d) then .success
        else .successNotKept) := by
      rw [State.verdictOf, applied, kind]
      rfl
    obtain ⟨cancelled, others, stands⟩ := hostFrame_final frame (by simp [kind]) accepted (by simp [mark]) verdict
    rw [State.cancelledAs, apply_kind, if_neg fun h => block h.1, applied] at cancelled
    have handed : (s.attemptEnd g 0b01 d parity).settle.pool = (u.keepHandOff c w.kind (.accept d)).pool :=
      (pool_of_standing stands).trans (delivered_pool s g w c (.accept d))
    have full : u.canRecord c.tgt (c.record.byte 6) = true ↔
        (∃ e ∈ s.pool, e.tgt = c.tgt ∧ e.index = c.record.byte 6) ∨ s.pool.length < 384 := by
      rw [canRecord_iff, reported_pool]
    refine ⟨_, rfl, others, ?_, fun keep => ?_, fun keep room => ?_, fun keep full' => ?_⟩
    · rw [stands, State.delivered, standing_updCtx, ← show w.owner.source = .host by rw [owner]; rfl]
      exact standing_pool_congr (keepHandOff_eq _ c w.kind (.accept d)) handed
    · have answer : u.keepAnswer c w.kind (.accept d) = true := by simp [State.keepAnswer, keep]
      have none : u.keepHandOff c w.kind (.accept d) = u := if_neg fun h => by simp [keep] at h
      rw [answer] at cancelled
      rw [none] at handed
      exact ⟨cancelled, handed.trans (reported_pool s g _ _ _)⟩
    · have answer : u.keepAnswer c w.kind (.accept d) = true := by simp [State.keepAnswer, full.2 room]
      have record : u.keepHandOff c w.kind (.accept d) = u.record c.tgt (c.record.byte 6) c.writtenValue :=
        if_pos ⟨kind, rfl, keep, full.2 room⟩
      have inv : u.poolInv := by rwa [State.poolInv, reported_pool]
      rw [answer] at cancelled
      rw [record] at handed
      refine ⟨cancelled, fun e => ?_⟩
      rw [handed, mem_record inv ⟨c.tgt, c.record.byte 6, c.writtenValue⟩, reported_pool, writtenValue_eq]
    · have refused : u.canRecord c.tgt (c.record.byte 6) = false := Bool.eq_false_iff.2 (mt full.1 full')
      have answer : u.keepAnswer c w.kind (.accept d) = false := by simp [State.keepAnswer, keep, kind, refused, Attempt.status]
      have none : u.keepHandOff c w.kind (.accept d) = u := if_neg fun h => by simp [refused] at h
      rw [answer] at cancelled
      rw [none] at handed
      exact ⟨cancelled, handed.trans (reported_pool s g _ _ _)⟩
  · obtain ⟨⟨wire, owner, -, tgt, hc, distinct, -, -, rfl⟩, alone, running, active, open'⟩ := frame
    have ended : s.broadcastEnd c.seg = ((s.clearWire c.seg).endCommand c.num .success).drainIfDone c.seg := by
      rw [State.broadcastEnd, wire]
      dsimp only
      rw [tgt, if_pos kind, owner]
      dsimp only
      rw [if_neg (by exact running)]
    have ends := endsAlone_endCommand (s := s.clearWire c.seg) (ctx_of_mem distinct hc) alone .success
    obtain ⟨cancelled, others, stands⟩ := endsAlone_settled (s := s.clearWire c.seg) distinct hc open' ends
    have segment : ((s.clearWire c.seg).seg c.seg).state = .active := by
      rw [State.clearWire, State.seg_updSeg_same]
      exact active
    rw [drainIfDone_active ((seg_state_of_standing stands c.seg).trans segment)] at ended
    refine ⟨_, congrArg done ended, ?_, ?_, (settle_standing _).trans stands⟩
    · rw [State.cancelledAs, if_neg (by simp [kind])] at cancelled
      exact cancelled
    · exact keepsOthers_before (fun e => spares_relisted e s c.seg (f := fun y => { y with wire := none }) fun _ => ⟨rfl, rfl⟩) others

end Sys2Proof.Machine
end

section
/-! PROOFS. Staged contexts move when room comes, also in the step in which a command ends (R73, R93). -/

namespace Sys2Proof.Machine

set_option Elab.async false -- one thread elaborates: the checker's memory is limited

/-- The STAGED contexts, in fetch order. -/
def State.queued (s : State) : List Ctx := s.ctxs.filter (·.state == .staged)

theorem mem_queued {s : State} {c : Ctx} : c ∈ s.queued ↔ c ∈ s.ctxs ∧ c.state = .staged := by
  rw [State.queued, List.mem_filter, beq_iff_eq]

/-- From `s` to `t` no STAGED context is touched, no slot is filled, and no pending list is longer. -/
structure Unmoved (s t : State) : Prop where
  queued : t.queued = s.queued
  empties : ∀ q, (t.sq q).staging = (s.sq q).staging ∨ (t.sq q).staging = none
  slots : ∀ q x, (s.sq q).staging = some x → (∃ c ∈ s.queued, c.num = x.ctx) → (t.sq q).staging = some x
  shorter : ∀ g, (t.seg g).pendingList.length ≤ (s.seg g).pendingList.length

theorem Unmoved.refl (s : State) : Unmoved s s := ⟨rfl, fun _ => .inl rfl, fun _ _ h _ => h, fun _ => le_rfl⟩

theorem Unmoved.trans {s t u : State} (h : Unmoved s t) (k : Unmoved t u) : Unmoved s u where
  queued := k.queued.trans h.queued
  empties q := by
    obtain same | none := k.empties q
    · rw [same]
      exact h.empties q
    · exact .inr none
  slots q x slot here := k.slots q x (h.slots q x slot here) (h.queued ▸ here)
  shorter g := (k.shorter g).trans (h.shorter g)

theorem Unmoved.of_eq {s t : State} (queued : t.queued = s.queued) (sqs : ∀ q, t.sq q = s.sq q)
    (segs : ∀ g, (t.seg g).pendingList = (s.seg g).pendingList) : Unmoved s t where
  queued := queued
  empties q := .inl (by rw [sqs])
  slots q x slot _ := by rwa [sqs]
  shorter g := by rw [segs]

theorem queued_updCtx {s : State} {n : CtxNum} {f : Ctx → Ctx}
    (other : ∀ c ∈ s.ctxs, c.num = n → c.state ≠ .staged ∧ (f c).state ≠ .staged) : (s.updCtx n f).queued = s.queued := by
  unfold State.queued State.updCtx
  rw [List.filter_map]
  have tests : ∀ c ∈ s.ctxs, ((fun c : Ctx => c.state == .staged) ∘ fun c => if c.num = n then f c else c) c =
      (c.state == .staged) := fun c hc => by
    simp only [Function.comp_apply]
    split
    next same =>
      obtain ⟨before, after⟩ := other c hc same
      rw [beq_eq_false_iff_ne.2 before, beq_eq_false_iff_ne.2 after]
    next => rfl
  rw [List.filter_congr tests]
  refine (List.map_congr_left fun c hc => if_neg fun same => ?_).trans (List.map_id _)
  obtain ⟨hc, staged⟩ := List.mem_filter.1 hc
  exact (other c hc same).1 (beq_iff_eq.1 staged)

theorem queued_freeCtx {s : State} {n : CtxNum} (other : ∀ c ∈ s.ctxs, c.num = n → c.state ≠ .staged) :
    (s.freeCtx n).queued = s.queued := by
  unfold State.queued State.freeCtx
  rw [List.filter_filter]
  refine List.filter_congr fun c hc => ?_
  cases staged : c.state == .staged with
  | false => rfl
  | true =>
    have apart : c.num ≠ n := fun same => other c hc same (beq_iff_eq.1 staged)
    simp [apart]

/-- A context that is not STAGED leaves its lists. -/
theorem unmoved_unlist {s : State} {c : Ctx} (distinct : s.distinct) (hc : c ∈ s.ctxs) (state : c.state ≠ .staged) :
    Unmoved s (s.unlist c) where
  queued := rfl
  empties q := by
    rw [State.unlist, State.sq_updSq]
    split
    next same =>
      subst same
      obtain ⟨same, -⟩ | ⟨none, -⟩ := Sq.unstage_staging (s.sq c.sq) c.num
      · exact .inl same
      · exact .inr none
    next => exact .inl rfl
  slots q x slot here := by
    rw [State.unlist, State.sq_updSq]
    split
    next same =>
      subst same
      obtain ⟨same, -⟩ | ⟨-, y, hy, num⟩ := Sq.unstage_staging (s.sq c.sq) c.num
      · exact same.trans slot
      · obtain ⟨d, hd, named⟩ := here
        obtain ⟨hd, staged⟩ := mem_queued.1 hd
        have same : x = y := Option.some.inj (slot.symm.trans hy)
        exact absurd (eq_of_num distinct hd hc (named.trans (same ▸ num)) ▸ staged) state
    next => exact slot
  shorter g := by
    have lists : ((s.unlist c).seg g).pendingList = if c.seg = g then ((s.seg g).unlist c.num).pendingList
        else (s.seg g).pendingList := by
      refine (congrArg SegCtl.pendingList (State.seg_updSeg s c.seg g (·.unlist c.num))).trans ?_
      split
      next same => subst same; rfl
      next => rfl
    rw [lists]
    split
    · exact List.length_filter_le _ _
    · exact le_rfl

theorem unmoved_becomeReady {s : State} {n : CtxNum} (distinct : s.distinct)
    (other : ∀ c, s.ctx n = some c → c.state ≠ .staged) (st : Status) : Unmoved s (s.becomeReady n st) := by
  unfold State.becomeReady
  split
  next => exact .refl s
  next c hctx =>
    obtain ⟨hc, num⟩ := ctx_mem hctx
    have mine : ∀ d ∈ (s.unlist c).ctxs, d.num = n → d.state ≠ .staged := fun d hd same => by
      obtain rfl := eq_of_num distinct hd hc (same.trans num.symm)
      exact other d hctx
    refine (unmoved_unlist distinct hc (other c hctx)).trans ?_
    dsimp only
    split
    · exact .of_eq ((queued_updCtx (s := s.unlist c) (f := (·.asReady st)) fun d hd same => ⟨mine d hd same, nofun⟩))
        (fun _ => rfl) fun _ => rfl
    · exact .of_eq (queued_freeCtx mine) (fun _ => rfl) fun _ => rfl

theorem unmoved_releaseFence {s : State} (n : CtxNum) (distinct : s.distinct) : Unmoved s (s.releaseFence n) := by
  unfold State.releaseFence
  split
  next => exact .refl s
  next c hc =>
    split
    next released =>
      refine unmoved_becomeReady distinct (fun d hd => ?_) .success
      obtain rfl := Option.some.inj (hc.symm.trans hd)
      simp [released.1]
    next => exact .refl s

theorem unmoved_releaseFences {s : State} (distinct : s.distinct) : Unmoved s s.releaseFences := by
  suffices fold : ∀ (l : List CtxNum) (u : State), u.distinct → Unmoved u (l.foldl State.releaseFence u) from
    fold _ s distinct
  intro l
  induction l with
  | nil => exact fun u _ => .refl u
  | cons n l ih =>
    exact fun u distinct => (unmoved_releaseFence n distinct).trans (ih _ ((shrinks_releaseFence u n).distinct distinct))

theorem queued_append {s : State} {l m : List Ctx} {c : Ctx} (ctxs : s.ctxs = l ++ c :: m) (staged : c.state = .staged) :
    s.queued = l.filter (·.state == .staged) ++ c :: m.filter (·.state == .staged) := by
  rw [State.queued, ctxs, List.filter_append, List.filter_cons_of_pos (by simp [staged])]

/-- The staged context that is first for a list in which a place has come, moves as the step settles (R93). -/
theorem settle_moves {s u : State} {c : Ctx} {l m : List Ctx} (distinct : u.distinct) (unmoved : Unmoved s u)
    (ctxs : s.ctxs = l ++ c :: m) (staged : c.state = .staged) (alone : c.chain = none)
    (waits : (s.sq c.sq).staging ≠ some { ctx := c.num, waitsLock := true })
    (room : (u.seg c.seg).pendingList.length < 32)
    (first : ∀ d ∈ l, d.state = .staged → d.seg = c.seg →
      (s.sq d.sq).staging = some { ctx := d.num, waitsLock := true }) :
    { c with state := .pending } ∈ u.settle.ctxs ∧ c.num ∈ (u.settle.seg c.seg).pendingList := by
  have after := unmoved.trans (unmoved_releaseFences distinct)
  have released := (keeps_releaseFences u).distinct distinct
  have queued : u.releaseFences.ctxs.filter (·.state == .staged) = _ := after.queued.trans (queued_append ctxs staged)
  obtain ⟨mem, ⟨n, list⟩, -⟩ := moveAllStaged_moves released queued
    (by
      obtain same | none := after.empties c.sq
      · rwa [same]
      · simp [none])
    ((unmoved_releaseFences distinct).shorter c.seg |>.trans_lt room)
    (fun d hd seg => by
      obtain ⟨hd, state⟩ := List.mem_filter.1 hd
      have state := beq_iff_eq.1 state
      exact after.slots d.sq _ (first d hd state seg)
        ⟨d, mem_queued.2 ⟨ctxs ▸ List.mem_append_left _ hd, state⟩, rfl⟩)
  have moved := (keeps_moveAllStaged _).distinct released
  have spares : Spares { c with state := .pending } u.releaseFences.moveAllStaged u.settle := by
    rw [settle_eq]
    exact (spares_reachMembers moved fun g id _ => by simp [Ctx.inChain, alone]).trans
      (spares_settleLast ((keeps_reachMembers _).distinct moved) nofun)
  obtain ⟨here, listed⟩ := spares mem
  exact ⟨here, (listed c.seg).1 (by rw [list]; exact List.mem_append_right _ List.mem_cons_self)⟩

theorem becomeReady_leaves {s : State} {c : Ctx} (hc : s.ctx c.num = some c) (st : Status) :
    ((s.becomeReady c.num st).seg c.seg).pendingList = (s.seg c.seg).pendingList.filter (· ≠ c.num) := by
  have left : ((s.unlist c).seg c.seg).pendingList = (s.seg c.seg).pendingList.filter (· ≠ c.num) :=
    congrArg SegCtl.pendingList (State.seg_updSeg_same s c.seg (·.unlist c.num))
  rw [State.becomeReady, hc]
  dsimp only
  split <;> exact left

/-- As a command ends it leaves its place, and no STAGED context is touched (R65, R73). -/
theorem unmoved_endCommand {s : State} {c : Ctx} (distinct : s.distinct) (hc : c ∈ s.ctxs) (alone : c.chain = none)
    (frames : c.needsBuffer = false) (state : c.state ≠ .staged) (st : Status) : Unmoved s (s.endCommand c.num st) ∧
      (c.num ∈ (s.seg c.seg).pendingList →
        ((s.endCommand c.num st).seg c.seg).pendingList.length < (s.seg c.seg).pendingList.length) := by
  have here : (s.updSeg c.seg (·.endHoldOf c.num)).ctx c.num = some c := ctx_of_mem distinct hc
  have lists (g : SegId) : ((s.updSeg c.seg (·.endHoldOf c.num)).seg g).pendingList = (s.seg g).pendingList := by
    rw [State.seg_updSeg]
    split
    · exact (SegCtl.endHoldOf_lists _ _).1
    · rfl
  have released : Unmoved s (s.updSeg c.seg (·.endHoldOf c.num)) := .of_eq rfl (fun _ => rfl) lists
  rw [endCommand_alone (ctx_of_mem distinct hc) alone, finish_of_ctx here, if_neg (by simp [frames])]
  refine ⟨released.trans (unmoved_becomeReady (s := s.updSeg c.seg (·.endHoldOf c.num)) distinct (fun d hd => ?_) st),
    fun listed => ?_⟩
  · obtain rfl := Option.some.inj (here.symm.trans hd)
    exact state
  · rw [becomeReady_leaves here, lists]
    exact List.length_filter_lt_length_iff_exists.2 ⟨c.num, listed, by simp⟩

/-- As a READ ends it leaves its place, and no STAGED context is touched (R65, R73). -/
theorem unmoved_readEnd {s : State} {g : SegId} {w : Wire} {c : Ctx} {v : Half} (frame : s.hostFrame g w c)
    (read : c.kind = some .read) (listed : c.num ∈ (s.seg g).pendingList) :
    Unmoved s ((s.delivered g w c (.accept v)).endCommand c.num .success) ∧
      (((s.delivered g w c (.accept v)).endCommand c.num .success).seg g).pendingList.length <
        (s.seg g).pendingList.length := by
  obtain ⟨⟨-, -, -, -, hc, distinct, state, -, rfl⟩, alone, -⟩ := id frame
  have num := c.apply_num w.kind (.accept v)
  obtain ⟨value, block, applied⟩ := c.apply_eq w.kind (.accept v)
  have frames : (c.apply w.kind (.accept v)).needsBuffer = false := by
    rw [Ctx.needsBuffer, apply_kind, read]
    rfl
  have delivered : Unmoved s (s.delivered c.seg w c (.accept v)) := by
    have ctxs : ((s.reported c.seg c.tgt w.owner.source (.accept v)).keepHandOff c w.kind (.accept v)).ctxs = s.ctxs := by
      simp [reported_ctxs]
    have kept : (s.delivered c.seg w c (.accept v)).queued = s.queued := by
      refine (queued_updCtx fun d hd same => ?_).trans (congrArg (List.filter _) ctxs)
      obtain rfl := eq_of_num distinct (ctxs ▸ hd) hc same
      rw [applied]
      simp [state]
    refine .of_eq kept (delivered_sq _) fun k => ?_
    obtain ⟨l, seg⟩ := delivered_seg (s := s) (g := c.seg) (w := w) (c := c) (.accept v) k
    rw [seg]
  have still := delivered_distinct (g := c.seg) (w := w) (.accept v) distinct hc
  have seg : (c.apply w.kind (.accept v)).seg = c.seg := by rw [applied]; rfl
  have active : (c.apply w.kind (.accept v)).state ≠ .staged := by rw [applied]; simp [state]
  have outside : (c.apply w.kind (.accept v)).chain = none := by rwa [apply_chain]
  have list : ((s.delivered c.seg w c (.accept v)).seg c.seg).pendingList = (s.seg c.seg).pendingList := by
    obtain ⟨l, eq⟩ := delivered_seg (s := s) (g := c.seg) (w := w) (c := c) (.accept v) c.seg
    rw [eq]
  obtain ⟨unmoved, shorter⟩ := unmoved_endCommand still (delivered_mem _ hc) outside frames active .success
  rw [num] at unmoved shorter
  rw [seg, list] at shorter
  exact ⟨delivered.trans unmoved, shorter listed⟩

/-- Settles O39: where an entry is placed, and when a staged context moves. -/
theorem ioEntriesPlaced : Obligations.IoEntriesPlaced := by
  refine ⟨fun op k c row fence tag b s q g takes distinct flag fields id segment room => ?_, fun s c hc room => ?_,
    fun s c hc full => ?_, fun s l m c distinct ctxs staged waits room first => ?_,
    fun s c distinct hc staged waits => moveAllStaged_full distinct hc staged waits,
    fun g v parity s w c d l m frame mark kind accepted listed few ctxs staged seg alone waits first => ?_⟩
  · let r := Record.of op b
    obtain ⟨kind, reads⟩ := ioRow_reads row
    obtain ⟨n, fresh⟩ := freshNum_of_takesIo takes
    obtain ⟨read, queue, -, none⟩ := takes
    have outside := chainOf_outside (r := r) (chain := ((s.retire tag).sq q).chain) none flag (s.retire tag).nextChain
    have code : IoKind.ofCode (r.byte 0) = some k := by rw [Record.byte_zero_of, kind]
    have outcome : s.ioEntry op tag b = ((s.retire tag).taken q n r).place n := by
      rw [ioEntry_taken read queue fresh, takeEntry_eq, outside]
      refine (settleEntry_valid ?_).trans (if_neg fun h => fence (Option.some.inj (code.symm.trans h)))
      rw [validate_segment code fields rfl fence id]
      change (s.seg g).state.refusal = _
      rw [segment]
      rfl
    obtain ⟨placed, stands⟩ := takenPlaced_settled (s := s.retire tag) (v := (s.retire tag).taken q n r) distinct
      (freshNum_fresh fresh) rfl rfl id room fun h i held => by rw [outside]; rfl
    rw [outside] at placed
    refine ⟨_, reads tag b s, ?_⟩
    rw [outcome]
    refine ⟨placed, stands.trans ?_⟩
    rw [taken_standing_outside (s := s.retire tag) none flag]
    rfl
  · rw [place_room hc room, placed_pendingList, if_pos rfl]
    exact ⟨rfl, ctx_updCtx hc fun _ => rfl⟩
  · rw [place_full hc full]
    refine ⟨?_, ctx_updCtx hc fun _ => rfl, rfl⟩
    rw [State.sq_updSq_same]
  · have queued : s.ctxs.filter (·.state == .staged) = _ := queued_append ctxs staged
    exact moveAllStaged_moves distinct queued waits room fun d hd seg => by
      obtain ⟨hd, state⟩ := List.mem_filter.1 hd
      exact first d hd (beq_iff_eq.1 state) seg
  · subst seg
    have read : w.kind = .read := by
      obtain ⟨⟨-, -, frameKind, -⟩, -⟩ := frame
      rw [frameKind, Ctx.frameKind, kind]
    have merge : c.kind ≠ some .maskedWrite := fun h => nomatch kind.symm.trans h
    have block : c.kind ≠ some .readBlock := fun h => nomatch kind.symm.trans h
    have wait : c.kind ≠ some .waitUntil := fun h => nomatch kind.symm.trans h
    have verdict : s.verdictOf d.seg w c (.accept v) = .final .success := by
      rw [State.verdictOf, read, apply_read_value c v merge block]
      exact verdict_value _ v _ _ merge block wait
    obtain ⟨sends, outside, running, -⟩ := id frame
    have ended := attemptEnd_host sends (by simp [read]) running (read ▸ accepted)
    rw [verdict, judge_final (by rw [apply_mark, mark]; exact nofun),
      hostFrame_drained frame (endsAlone_endCommand (delivered_ctx frame) (by rwa [apply_chain]) .success),
      Ctx.apply_num] at ended
    obtain ⟨unmoved, shorter⟩ := unmoved_readEnd (v := v) frame kind listed
    have still : ((s.delivered d.seg w c (.accept v)).endCommand c.num .success).distinct := by
      obtain ⟨-, -, -, -, hc, distinct, -⟩ := sends
      exact (shrinks_endCommand _ _ _).distinct (delivered_distinct _ distinct hc)
    refine ⟨_, congrArg done ended, ?_⟩
    exact settle_moves still unmoved ctxs staged alone waits (by omega) first

end Sys2Proof.Machine
end

section
/-! PROOFS. Frame boundaries: what is chosen, and the frame that starts (R98 to R104, R117, R140). -/

namespace Sys2Proof.Machine

set_option Elab.async false -- one thread elaborates: the checker's memory is limited

/-! ### Boundaries with no holder -/

theorem State.updSeg_updSeg (s : State) (g : SegId) (f h : SegCtl → SegCtl) :
    (s.updSeg g f).updSeg g h = s.updSeg g fun y => h (f y) :=
  congrArg (fun v => ({ s with segs := v } : State)) (vector_ext_get fun k => by
    change ((s.updSeg g f).updSeg g h).seg k = (s.updSeg g fun y => h (f y)).seg k
    rw [State.seg_updSeg, State.seg_updSeg, State.seg_updSeg]
    split <;> rfl)

section

variable {s : State} {g : SegId}

theorem boundary_still (h : ¬ ((s.seg g).state = .active ∧ (s.seg g).wire = none ∧ s.ctl.engine ≠ .failed)) :
    s.boundary g = s := if_neg h

theorem yieldIfHeld_free (free : (s.seg g).holder = none) : s.yieldIfHeld g = s := by
  rw [State.yieldIfHeld, State.holderCtx, free]

theorem boundary_open (at' : s.atBoundary g) : s.boundary g = s.openBoundary g := by
  obtain ⟨active, wire, free, running⟩ := at'
  refine (if_pos ⟨active, wire, running⟩).trans ?_
  rw [yieldIfHeld_free free]
  dsimp only
  rw [free]

theorem eligible_response {r : RespWrite} (free : (s.pres r.tgt).state ≠ .restoring) :
    s.eligible (.response r) = true := by
  simp [State.eligible, State.isRestoring, free]

theorem not_eligible {e : IwEntry} (held : ∃ p, e = .response p ∧ (s.pres p.tgt).state = .restoring) :
    s.eligible e = false := by
  obtain ⟨p, rfl, restoring⟩ := held
  simp [State.eligible, State.isRestoring, restoring]

theorem openBoundary_write {l m : List IwEntry} {e : IwEntry} (writes : (s.seg g).writes = l ++ e :: m)
    (held : ∀ d ∈ l, ∃ p, d = .response p ∧ (s.pres p.tgt).state = .restoring) (eligible : s.eligible e = true) :
    s.openBoundary g = s.chooseWrite g e ∧ (s.seg g).writes.erase e = l ++ m := by
  have apart : e ∉ l := fun h => by simp [not_eligible (held e h)] at eligible
  have found : (s.seg g).writes.find? s.eligible = some e := by
    rw [writes, List.find?_append, List.find?_eq_none.2 fun d hd => by simp [not_eligible (held d hd)], Option.none_or,
      List.find?_cons_of_pos eligible]
  refine ⟨by rw [State.openBoundary, found], ?_⟩
  rw [writes, List.erase_append_right _ apart, List.erase_cons_head]

theorem openBoundary_none (held : ∀ d ∈ (s.seg g).writes, ∃ p, d = .response p ∧ (s.pres p.tgt).state = .restoring) :
    s.openBoundary g = s.pollOrHost g := by
  have none : (s.seg g).writes.find? s.eligible = Option.none :=
    List.find?_eq_none.2 fun d hd => by simp [not_eligible (held d hd)]
  rw [State.openBoundary, none]

theorem pollOrHost_poll {d : DuePoll} {l : List DuePoll} (due : (s.seg g).duePolls = d :: l)
    (turn : s.hostChoice g = none ∨ (s.seg g).lastServed = .host) : s.pollOrHost g = s.choosePoll g d := by
  rw [State.pollOrHost, due]
  cases choice : s.hostChoice g with
  | none => rfl
  | some c =>
    obtain none | host := turn
    · exact nomatch choice.symm.trans none
    · exact if_neg (by simp [host])

theorem pollOrHost_host {c : Ctx} (choice : s.hostChoice g = some c)
    (turn : (s.seg g).duePolls = [] ∨ (s.seg g).lastServed = .poll) : s.pollOrHost g = s.chooseHost g c := by
  rw [State.pollOrHost, choice]
  cases due : (s.seg g).duePolls with
  | nil => rfl
  | cons d l =>
    obtain none | poll := turn
    · exact nomatch due.symm.trans none
    · exact if_pos poll

theorem pollOrHost_none (due : (s.seg g).duePolls = []) (choice : s.hostChoice g = none) : s.pollOrHost g = s := by
  rw [State.pollOrHost, choice, due]
  rfl

/-- A segment whose wire carries a frame that starts (R3, R13). -/
def SegCtl.sending (y : SegCtl) (w : Wire) : SegCtl := { y with wire := some w, stuckCount := 0 }

theorem startFrame_eq (s : State) (g : SegId) (kind : FrameKind) (tgt : Option Tgt) (index : Byte) (data : Half)
    (owner : WireOwner) :
    s.startFrame g kind tgt index data owner = s.updSeg g (·.sending (frameOf kind tgt index data owner)) := rfl

/-- The frame of a response write (R102). -/
theorem chooseWrite_response (r : RespWrite) : s.chooseWrite g (.response r) = s.updSeg g fun y =>
    { y with
      writes := y.writes.erase (.response r), stuckCount := 0
      wire := some (frameOf .write (some r.tgt) r.index r.data (.response { r with tries := r.tries + 1 } false)) } :=
  State.updSeg_updSeg s g (fun y => { y with writes := y.writes.erase (.response r) })
    (·.sending (frameOf .write (some r.tgt) r.index r.data (.response { r with tries := r.tries + 1 } false)))

/-- The frame of a replay write (R140). -/
theorem chooseWrite_job {x : Tgt} {j : Job} {w : ReplayWrite} (job : s.job x = some j) (next : s.nextReplay j = some w) :
    s.chooseWrite g (.job x) = (s.updSeg g fun y =>
      { y with
        writes := y.writes.erase (.job x), stuckCount := 0
        wire := some (frameOf .write (some x) w.index w.value (.replay x)) }).updJob x fun j =>
      { j with cursor := some w.index, inFlight := some w, retryEnd := none } := by
  have job' : (s.updSeg g fun y => { y with writes := y.writes.erase (.job x) }).job x = some j := job
  have next' : (s.updSeg g fun y => { y with writes := y.writes.erase (.job x) }).nextReplay j = some w := next
  unfold State.chooseWrite
  dsimp only
  rw [job']
  dsimp only
  rw [next']
  exact congrArg (fun t : State => t.updJob x fun j => { j with cursor := some w.index, inFlight := some w, retryEnd := none })
    (State.updSeg_updSeg s g (fun y => { y with writes := y.writes.erase (.job x) })
      (·.sending (frameOf .write (some x) w.index w.value (.replay x))))

/-- The frame of a poll (R117). -/
theorem choosePoll_watch {d : DuePoll} {x : Watch} (watch : s.watch d.watch = some x) :
    s.choosePoll g d = (s.updSeg g fun y =>
      { y with
        duePolls := y.duePolls.tail, lastServed := .poll, stuckCount := 0
        wire := some (frameOf .read (some x.cfg.tgt) x.cfg.index 0 (.poll d.watch)) }).setWatch d.watch
      (some { x with poll := .onWire, tries := x.tries + 1 }) := by
  have watch' : (s.updSeg g fun y => { y with duePolls := y.duePolls.tail, lastServed := .poll }).watch d.watch = some x :=
    watch
  unfold State.choosePoll
  dsimp only
  rw [watch']
  exact congrArg (fun t : State => t.setWatch d.watch (some { x with poll := .onWire, tries := x.tries + 1 }))
    (State.updSeg_updSeg s g (fun y => { y with duePolls := y.duePolls.tail, lastServed := .poll })
      (·.sending (frameOf .read (some x.cfg.tgt) x.cfg.index 0 (.poll d.watch))))

end

/-- Settles O46: internal writes, then due polls; what may not start changes nothing. -/
theorem boundariesServeWritesAndPolls : Obligations.BoundariesServeWritesAndPolls := by
  refine ⟨fun g s still => ⟨_, congrArg done (boundary_still still), settle_standing s⟩, fun g s at' =>
    ⟨fun l m r writes held free => ?_, fun l m x j writes held job more => ?_,
      fun d l x held due watch turn => ?_, fun held due choice => ?_⟩⟩
  · obtain ⟨chosen, rest⟩ := openBoundary_write writes held (eligible_response free)
    have outcome := (boundary_open at').trans (chosen.trans (chooseWrite_response r))
    refine ⟨_, congrArg done outcome, (settle_standing _).trans ?_⟩
    rw [State.updSeg, rest]
  · obtain ⟨chosen, rest⟩ := openBoundary_write writes held (e := .job x) rfl
    have next : ∃ w, s.nextReplay j = some w ∧ (∀ v, j.inFlight = some v → w = { v with tries := v.tries + 1 }) ∧
        (j.inFlight = none → w.tries = 1 ∧ ∃ e, (s.restoreAbove x j.cursor).head? = some e ∧ w.index = e.index ∧
          w.value = e.value) := by
      obtain rfl := job_tgt job
      unfold State.nextReplay
      cases inFlight : j.inFlight with
      | some v => exact ⟨_, rfl, fun u hu => by rw [Option.some.inj hu], nofun⟩
      | none =>
        obtain ⟨e, l, above⟩ := List.exists_cons_of_ne_nil (more inFlight)
        rw [above]
        exact ⟨_, rfl, nofun, fun _ => ⟨rfl, e, rfl, rfl, rfl⟩⟩
    obtain ⟨w, next, retried, first⟩ := next
    have outcome := (boundary_open at').trans (chosen.trans (chooseWrite_job job next))
    refine ⟨_, w, congrArg done outcome, retried, first, (settle_standing _).trans ?_⟩
    rw [State.updSeg, rest]
  · have outcome := (boundary_open at').trans ((openBoundary_none held).trans
      ((pollOrHost_poll due turn).trans (choosePoll_watch watch)))
    refine ⟨_, congrArg done outcome, (settle_standing _).trans ?_⟩
    rw [State.updSeg, due]
    rfl
  · have outcome := (boundary_open at').trans ((openBoundary_none held).trans (pollOrHost_none due choice))
    exact ⟨_, congrArg done outcome, settle_standing s⟩

/-! ### Chains that go on, while a step settles -/

theorem reachMember_keepsChain {s : State} {g : SegId} {id : Nat} {c : Ctx} (h : SegId)
    (held : (s.seg g).holder = some (.chain id)) (hc : c ∈ s.ctxs) (member : c.inChain id = true) (live : c.state ≠ .ready) :
    ((s.reachMember h).seg g).holder = some (.chain id) := by
  unfold State.reachMember
  split
  next i other =>
    split
    next none =>
      rw [State.seg_updSeg]
      split
      next same =>
        subst same
        have same : i = id := by simpa using other.symm.trans held
        have mem := mem_liveMembers.2 ⟨hc, member, live⟩
        rw [← same, none] at mem
        exact nomatch mem
      next => exact held
    next => split <;> exact held
  next => exact held

/-- A chain with a member that runs holds its segment while a step settles (R105). -/
theorem settle_keepsChain {s : State} {g : SegId} {id : Nat} {c : Ctx} (distinct : s.distinct)
    (held : (s.seg g).holder = some (.chain id)) (hc : c ∈ s.ctxs) (member : c.inChain id = true) (live : c.state ≠ .ready)
    (calm : c.calm) : (s.settle.seg g).holder = some (.chain id) := by
  have first := (keeps_releaseFences s).distinct distinct
  have second := (keeps_moveAllStaged _).distinct first
  have there := (keeps_moveAllStaged _).calm first c ((keeps_releaseFences s).calm distinct c hc calm) calm
  have held' : (s.releaseFences.moveAllStaged.seg g).holder = some (.chain id) := by
    rw [moveAllStaged_holder, releaseFences_holder, held]
  rw [settle_eq, settleLast_holder]
  suffices fold : ∀ (l : List SegId) (u : State), u.distinct → c ∈ u.ctxs → (u.seg g).holder = some (.chain id) →
      ((l.foldl State.reachMember u).seg g).holder = some (.chain id) from fold segIds _ second there held'
  intro l
  induction l with
  | nil => exact fun _ _ _ held => held
  | cons h l ih =>
    exact fun u distinct hc held => ih _ ((keeps_reachMember u h).distinct distinct)
      ((keeps_reachMember u h).calm distinct c hc calm) (reachMember_keepsChain h held hc member live)

/-! ### Host frames that start -/

/-- The frame of a host context (R3 to R7). -/
def Ctx.frame (c : Ctx) : Wire :=
  frameOf c.frameKind (if c.kind = some .broadcastWrite then none else some c.tgt) c.frameIndex c.frameData (.host c.num)

section

variable {s : State} {g : SegId} {c : Ctx} {f : SegCtl → SegCtl}

theorem startHost_eq (s : State) (g : SegId) (c : Ctx) (f : SegCtl → SegCtl) : (s.updSeg g f).startHost g c =
    (s.updCtx c.num (·.started s.now)).updSeg g fun y =>
      SegCtl.sending { f y with offered := (f y).offered.filter (· ≠ c.num) } c.frame := by
  have twice (v : State) : ((v.updSeg g f).updSeg g fun y => { y with offered := y.offered.filter (· ≠ c.num) }).updSeg g
      (·.sending c.frame) = v.updSeg g fun y =>
        SegCtl.sending { f y with offered := (f y).offered.filter (· ≠ c.num) } c.frame := by
    rw [State.updSeg_updSeg, State.updSeg_updSeg]
  exact twice (s.updCtx c.num (·.started s.now))

theorem startHost_distinct (distinct : s.distinct) : ((s.updSeg g f).startHost g c).distinct := by
  have still : (s.updCtx c.num (·.started s.now)).distinct :=
    (shrinks_updCtx s c.num (f := (·.started s.now)) fun _ => rfl).distinct distinct
  rw [startHost_eq]
  exact still

theorem startHost_mem (hc : c ∈ s.ctxs) : startedAs s c ∈ ((s.updSeg g f).startHost g c).ctxs := by
  rw [startHost_eq]
  exact mem_updCtx hc (·.started s.now)

theorem startHost_spares {d : Ctx} (other : d.num ≠ c.num)
    (lists : ∀ y, (f y).pendingList = y.pendingList ∧ (f y).offered = y.offered) :
    Spares d s ((s.updSeg g f).startHost g c) := by
  rw [startHost_eq]
  refine (spares_updCtx s other _).trans (spares_updSeg _ other g (fun y m h _ => ?_) fun y m h hm => ?_)
  · exact (lists y).1 ▸ h
  · exact List.mem_filter.2 ⟨(lists y).2 ▸ h, by simpa using hm⟩

theorem startHost_standing :
    ((s.updSeg g f).startHost g c).standing = (s.setSeg g ((f (s.seg g)).sending c.frame)).standing := by
  rw [startHost_eq, State.updSeg, setSeg_standing, setSeg_standing, standing_updCtx]
  exact congrArg (State.setSeg s.standing g) rfl

theorem startedAs_calm (s : State) (c : Ctx) : (startedAs s c).calm := ⟨nofun, nofun, nofun⟩

/-- A host context whose frame starts, once the step has settled. -/
theorem startHost_settled (distinct : s.distinct) (hc : c ∈ s.ctxs)
    (lists : ∀ y, (f y).pendingList = y.pendingList ∧ (f y).offered = y.offered) :
    startedAs s c ∈ ((s.updSeg g f).startHost g c).settle.ctxs ∧
      s.keepsOthers ((s.updSeg g f).startHost g c).settle c.num ∧
      ((s.updSeg g f).startHost g c).settle.standing = (s.setSeg g ((f (s.seg g)).sending c.frame)).standing :=
  ⟨(settle_keeps _).calm (startHost_distinct distinct) _ (startHost_mem hc) (startedAs_calm s c),
    keepsOthers_of_spares (startHost_distinct distinct) fun _ other _ => startHost_spares other lists,
    (settle_standing _).trans startHost_standing⟩

/-- The holder of the segment of a host frame that starts (R103, R105). -/
theorem startHost_holder {h : Option Holder} (distinct : s.distinct) (hc : c ∈ s.ctxs) (held : (f (s.seg g)).holder = h)
    (member : ∀ id, h = some (.chain id) → c.inChain id = true) :
    (((s.updSeg g f).startHost g c).settle.seg g).holder = h := by
  have still := startHost_distinct (g := g) (c := c) (f := f) distinct
  have started := startHost_mem (g := g) (f := f) hc
  have here : (((s.updSeg g f).startHost g c).seg g).holder = h := by
    rw [startHost_eq, State.seg_updSeg_same]
    exact held
  generalize (s.updSeg g f).startHost g c = u at still started here ⊢
  cases h with
  | none => rw [settle_holder (by rw [here]; trivial), here]
  | some h =>
    cases h with
    | chain id => exact settle_keepsChain still here started (member id rfl) nofun (startedAs_calm s c)
    | maskedWrite n => rw [settle_holder (by rw [here]; trivial), here]
    | readBlock n => rw [settle_holder (by rw [here]; trivial), here]

end

/-- A chosen context is one of those out of FREE. -/
theorem mem_of_hostChoice {s : State} {g : SegId} {c : Ctx} (choice : s.hostChoice g = some c) : c ∈ s.ctxs := by
  have first {l : List CtxNum} {p : Ctx → Bool} (h : s.firstCtx l p = some c) : c ∈ s.ctxs := by
    obtain ⟨n, -, hn⟩ := List.mem_filterMap.1 (List.mem_of_find?_eq_some h)
    exact (ctx_mem hn).1
  unfold State.hostChoice at choice
  split at choice
  next offered => exact first (Option.some.inj choice ▸ offered)
  next => exact first choice

/-- A host context is chosen at a boundary with no holder (R100, R101). -/
theorem boundary_host {s : State} {g : SegId} {c : Ctx} (at' : s.atBoundary g) (choice : s.hostChoice g = some c)
    (held : ∀ e ∈ (s.seg g).writes, ∃ p, e = .response p ∧ (s.pres p.tgt).state = .restoring)
    (turn : (s.seg g).duePolls = [] ∨ (s.seg g).lastServed = .poll) : s.boundary g =
      (s.updSeg g fun y => { y with holder := c.holderOf, lastServed := .host }).startHost g c :=
  (boundary_open at').trans ((openBoundary_none held).trans (pollOrHost_host choice turn))

/-! ### Holders at a boundary -/

/-- A context that is found first: those before it fail the test. -/
theorem firstCtx_split {s : State} {l : List CtxNum} {p : Ctx → Bool} {c : Ctx} (h : s.firstCtx l p = some c) :
    ∃ k m, l = k ++ c.num :: m ∧ p c = true ∧ ∀ n ∈ k, ∀ d, s.ctx n = some d → p d = false := by
  induction l with
  | nil => exact nomatch h
  | cons n l ih =>
    rw [State.firstCtx] at h
    cases hn : s.ctx n with
    | none =>
      rw [List.filterMap_cons_none hn] at h
      obtain ⟨k, m, rfl, hp, before⟩ := ih h
      refine ⟨n :: k, m, rfl, hp, fun i hi d hd => ?_⟩
      obtain rfl | hi := List.mem_cons.1 hi
      · exact nomatch hn.symm.trans hd
      · exact before i hi d hd
    | some d =>
      rw [List.filterMap_cons_some hn] at h
      cases hp : p d with
      | true =>
        rw [List.find?_cons_of_pos hp] at h
        obtain rfl := Option.some.inj h
        exact ⟨[], l, by rw [(ctx_mem hn).2]; rfl, hp, fun _ hi => nomatch hi⟩
      | false =>
        rw [List.find?_cons_of_neg (by simp [hp])] at h
        obtain ⟨k, m, rfl, hc, before⟩ := ih h
        refine ⟨n :: k, m, rfl, hc, fun i hi e he => ?_⟩
        obtain rfl | hi := List.mem_cons.1 hi
        · exact Option.some.inj (hn.symm.trans he) ▸ hp
        · exact before i hi e he

theorem firstCtx_none {s : State} {l : List CtxNum} {p : Ctx → Bool} (h : s.firstCtx l p = none) :
    ∀ n ∈ l, ∀ d, s.ctx n = some d → p d = false := fun n hn d hd => by
  simpa using List.find?_eq_none.1 h d (List.mem_filterMap.2 ⟨n, hn, hd⟩)

/-- The context whose frame the holder offers (R103, R105). -/
theorem holderCtx_eq {s : State} {g : SegId} {c : Ctx} (distinct : s.distinct) (hc : c ∈ s.ctxs)
    (runs : c.state = .active ∨ c.state = .retryWait)
    (held : (s.seg g).holder = some (.maskedWrite c.num) ∨ (s.seg g).holder = some (.readBlock c.num) ∨
      ∃ m, c.chain = some m ∧ (s.seg g).holder = some (.chain m.id) ∧
        ∀ l k, s.ctxs = l ++ c :: k → ∀ d ∈ l, d.inChain m.id = true → d.state ≠ .active ∧ d.state ≠ .retryWait) :
    s.holderCtx g = some c := by
  unfold State.holderCtx
  obtain held | held | ⟨m, chain, held, first⟩ := held
  · rw [held]
    exact ctx_of_mem distinct hc
  · rw [held]
    exact ctx_of_mem distinct hc
  · rw [held]
    obtain ⟨l, k, split⟩ := List.append_of_mem hc
    have mine : (c.inChain m.id && (c.state == .active || c.state == .retryWait)) = true := by
      obtain runs | runs := runs <;> simp [Ctx.inChain, chain, runs]
    have before : ∀ d ∈ l, ¬ (d.inChain m.id && (d.state == .active || d.state == .retryWait)) = true := fun d hd => by
      have := first l k split d hd
      simp only [Bool.and_eq_true, Bool.or_eq_true, beq_iff_eq]
      tauto
    dsimp only
    rw [split, List.find?_append, List.find?_eq_none.2 before, Option.none_or]
    exact List.find?_cons_of_pos (p := fun c : Ctx => c.inChain m.id && (c.state == .active || c.state == .retryWait)) mine

theorem heldByRestoring_iff {s : State} {c : Ctx} : s.heldByRestoring c = true ↔
    if c.kind = some .broadcastWrite then ∃ x : Tgt, x.seg = c.seg ∧ (s.pres x).state = .restoring
    else (s.pres c.tgt).state = .restoring := by
  unfold State.heldByRestoring
  split
  · simp [State.anyRestoring, State.isRestoring, List.any_eq_true, mem_targetsOf_iff]
  · simp [State.isRestoring]

/-- A context outside chains that is chosen holds its segment by its kind (R103). -/
theorem holderOf_alone {c : Ctx} (alone : c.chain = none) : c.holderOf =
    if c.kind = some .maskedWrite then some (.maskedWrite c.num)
    else if c.kind = some .readBlock then some (.readBlock c.num) else none := by
  rw [Ctx.holderOf, alone]
  dsimp only
  split
  next h => rw [if_pos h]
  next h => rw [if_neg (by simp [h]), if_pos h]
  next h1 h2 => rw [if_neg h1, if_neg h2]

/-- The boundary of a segment with a holder (R100). -/
theorem boundary_holder {s : State} {g : SegId} {h : Holder} (active : (s.seg g).state = .active)
    (wire : (s.seg g).wire = none) (running : s.ctl.engine ≠ .failed) (still : s.yieldIfHeld g = s)
    (held : (s.seg g).holder = some h) : s.boundary g = s.holderFrame g := by
  refine (if_pos ⟨active, wire, running⟩).trans ?_
  rw [still]
  dsimp only
  rw [held]

/-- Settles O47: the choice at a boundary, and the holder's next frame. -/
theorem boundariesServeHosts : Obligations.BoundariesServeHosts := by
  refine ⟨fun g s c at' distinct choice alone held turn => ?_, fun g s c choice => ?_,
    fun g s c distinct hc active wire running buffer runs held => ?_⟩
  · have hc := mem_of_hostChoice choice
    obtain ⟨started, others, stands⟩ := startHost_settled (g := g) (c := c)
      (f := fun y => { y with holder := c.holderOf, lastServed := .host }) distinct hc fun _ => ⟨rfl, rfl⟩
    have holder := startHost_holder (g := g) (c := c) (f := fun y => { y with holder := c.holderOf, lastServed := .host })
      distinct hc rfl fun id h => by
        rw [holderOf_alone alone] at h
        split at h
        · exact nomatch h
        · split at h <;> exact nomatch h
    refine ⟨_, congrArg done (boundary_host at' choice held turn), started, others, holder.trans (holderOf_alone alone), ?_⟩
    rw [stands, setSeg_standing, setSeg_standing]
    exact congrArg (State.setSeg s.standing g) rfl
  · unfold State.hostChoice at choice
    split at choice
    next offered =>
      obtain rfl := Option.some.inj choice
      obtain ⟨k, m, list, free, before⟩ := firstCtx_split offered
      exact .inl ⟨k, m, list, by simpa using free, fun n hn d hd => by simpa using before n hn d hd⟩
    next none =>
      obtain ⟨k, m, list, startable, before⟩ := firstCtx_split choice
      exact .inr ⟨fun n hn d hd => by simpa using firstCtx_none none n hn d hd, k, m, list, startable, before⟩
  · have holder := holderCtx_eq distinct hc runs held
    obtain ⟨h, holds, member⟩ : ∃ h, (s.seg g).holder = some h ∧ ∀ id, h = .chain id → c.inChain id = true := by
      obtain held | held | ⟨m, chain, held, -⟩ := held
      · exact ⟨_, held, fun _ => nofun⟩
      · exact ⟨_, held, fun _ => nofun⟩
      · exact ⟨_, held, fun id same => by cases same; simp [Ctx.inChain, chain]⟩
    have calm : c.calm := by
      obtain runs | runs := runs <;> exact ⟨by simp [runs], by simp [runs], by simp [runs]⟩
    have offers : c.offersFrame = true ↔ ¬ (c.state = .retryWait ∧ c.retryEnd ≠ none) := by
      obtain runs | runs := runs <;> simp [Ctx.offersFrame, buffer, runs]
    refine ⟨fun delayed => ?_, fun ready free => ?_, fun ready restoring => ?_⟩
    · have waits : ¬ c.offersFrame = true := fun h => offers.1 h delayed
      have still : s.yieldIfHeld g = s := by
        rw [State.yieldIfHeld, holder]
        exact if_neg fun h => waits h.1
      have outcome : s.boundary g = s := by
        rw [boundary_holder active wire running still holds, State.holderFrame, holder]
        exact if_neg waits
      refine ⟨_, congrArg done outcome, (settle_keeps s).calm distinct c hc calm, ?_, settle_standing s⟩
      rw [holds]
      cases h with
      | chain id =>
        exact settle_keepsChain distinct holds hc (member id rfl) (by obtain r | r := runs <;> simp [r]) calm
      | maskedWrite n => rw [settle_holder (by rw [holds]; trivial), holds]
      | readBlock n => rw [settle_holder (by rw [holds]; trivial), holds]
    · have still : s.yieldIfHeld g = s := by
        rw [State.yieldIfHeld, holder]
        exact if_neg fun h => free (heldByRestoring_iff.1 h.2)
      have same : s = s.updSeg g fun y => y := by
        refine congrArg (fun v => ({ s with segs := v } : State)) (State.segs_ext (s := s) (t := s.updSeg g fun y => y) fun k => ?_)
        rw [State.seg_updSeg]
        split <;> rfl
      have outcome : s.boundary g = (s.updSeg g fun y => y).startHost g c := by
        rw [boundary_holder active wire running still holds, State.holderFrame, holder, ← same]
        exact if_pos (offers.2 ready)
      obtain ⟨started, others, stands⟩ := startHost_settled (g := g) (c := c) (f := fun y => y) distinct hc
        fun _ => ⟨rfl, rfl⟩
      have stays := startHost_holder (g := g) (c := c) (f := fun y => y) distinct hc holds fun id h =>
        member id (Option.some.inj h)
      exact ⟨_, congrArg done outcome, started, others, stays.trans holds.symm, stands⟩
    · have yields : s.yieldIfHeld g = (s.updCtx c.num (·.yielded)).updSeg g fun y => { y with holder := none } := by
        rw [State.yieldIfHeld, holder]
        exact if_pos ⟨offers.2 ready, heldByRestoring_iff.2 restoring⟩
      have free : ((s.yieldIfHeld g).seg g).holder = none := by rw [yields, State.seg_updSeg_same]
      have ctx : (s.yieldIfHeld g).ctx c.num = some c.yielded := by
        rw [yields]
        exact ctx_updCtx (ctx_of_mem distinct hc) fun _ => rfl
      refine ⟨congrArg done ?_, free, ctx⟩
      have seg : (s.yieldIfHeld g).seg g = { s.seg g with holder := none } := by rw [yields]; exact State.seg_updSeg_same _ _ _
      have ctl : (s.yieldIfHeld g).ctl = s.ctl := by rw [yields]; rfl
      have here : (s.yieldIfHeld g).atBoundary g :=
        ⟨by rw [seg]; exact active, by rw [seg]; exact wire, free, by rw [ctl]; exact running⟩
      rw [boundary_open here]
      refine (if_pos ⟨active, wire, running⟩).trans ?_
      dsimp only
      rw [free]

end Sys2Proof.Machine
end

section
/-! PROOFS. The ends of several contexts at once: the contexts of a queue, of a segment, of a chain (R106, R166 to R168, R174, R176,
R179). -/

namespace Sys2Proof.Machine

set_option Elab.async false -- one thread elaborates: the checker's memory is limited

/-! ### One context -/

theorem onWire_of_core {s t : State} (h : t.core = s.core) (c : Ctx) : t.onWire c = s.onWire c := by
  have wire : (t.seg c.seg).wire = (s.seg c.seg).wire := (congrArg SegCtl.wire (seg_of_core h c.seg) :)
  rw [State.onWire, State.onWire, wire]

theorem bound_of_core {s t : State} (h : t.core = s.core) (c : Ctx) :
    (t.sq c.sq).bound = (s.sq c.sq).bound := sq_bound_of_core h c.sq

/-- A context that is neither running nor not running has ended (R166). -/
theorem ended_of_neither {s : State} {c : Ctx} (idle : ¬ s.notRunning c) (frame : ¬ s.running c) : c.ended := by
  unfold State.notRunning at idle
  unfold State.running at frame
  by_cases ready : c.state = .ready
  · exact .inl ready
  · refine .inr ?_
    by_cases active : c.state = .active
    · refine ⟨active, fun free => ?_⟩
      cases wire : s.onWire c with
      | true => exact frame ⟨active, free, wire⟩
      | false => exact idle ⟨ready, fun _ => ⟨free, wire⟩⟩
    · exact absurd ⟨ready, fun h => absurd h active⟩ idle

/-- A cancellation ends a context that is not running (R166). -/
theorem tearDownCtx_idle {s : State} {c : Ctx} (hc : s.ctx c.num = some c) (idle : s.notRunning c) (st : Status) :
    State.tearDownCtx st s c.num = State.cancel st s c.num := by
  obtain ⟨ready, free⟩ := idle
  rw [State.tearDownCtx, hc]
  dsimp only
  split
  next h => exact absurd h ready
  next active =>
    obtain ⟨buffer, wire⟩ := free active
    rw [if_neg (by simp [buffer]), if_neg (by simp [wire])]
  next => rfl

/-- One with a frame on the wire takes the cancel mark, unless it carries one (R167). -/
theorem tearDownCtx_running {s : State} {c : Ctx} (hc : s.ctx c.num = some c) (running : s.running c) (st : Status) :
    State.tearDownCtx st s c.num = s.updCtx c.num fun c => { c with mark := c.mark <|> some st } := by
  obtain ⟨active, buffer, wire⟩ := running
  rw [State.tearDownCtx, hc]
  dsimp only
  rw [active]
  dsimp only
  rw [if_neg (by simp [buffer]), if_pos wire]

/-- One that has ended, or whose buffer write is outstanding, is left (R166, R168). -/
theorem tearDownCtx_ended {s : State} {c : Ctx} (hc : s.ctx c.num = some c) (ended : c.ended) (st : Status) :
    State.tearDownCtx st s c.num = s := by
  rw [State.tearDownCtx, hc]
  dsimp only
  obtain ready | ⟨active, buffer⟩ := ended
  · rw [ready]
  · rw [active]
    exact if_pos (Option.isSome_iff_ne_none.2 buffer)

/-- What a teardown from `s` to `t` makes of context `c` (R166 to R168). -/
def State.tornDown (s t : State) (c : Ctx) (st : Status) : Prop :=
  ((s.cq (s.sq c.sq).bound).state = .active → s.notRunning c → t.cancelledAs (s.sq c.sq).bound c st) ∧
  (s.running c → { c with mark := c.mark <|> some st } ∈ t.ctxs) ∧
  (¬ s.notRunning c → ¬ s.running c → c ∈ t.ctxs)

theorem tearDownCtx_tornDown {s : State} {c : Ctx} (distinct : s.distinct) (hc : c ∈ s.ctxs) (st : Status) :
    s.tornDown (State.tearDownCtx st s c.num) c st := by
  have listed := ctx_of_mem distinct hc
  refine ⟨fun active idle => ?_, fun running => ?_, fun idle running => ?_⟩
  · rw [tearDownCtx_idle listed idle]
    exact cancel_cancelledAs distinct hc active st
  · rw [tearDownCtx_running listed running]
    exact mem_updCtx hc fun c => { c with mark := c.mark <|> some st }
  · rwa [tearDownCtx_ended listed (ended_of_neither idle running)]

/-- What comes after a teardown leaves its outcomes, if it leaves the contexts with a frame on the wire. -/
theorem State.tornDown.onward {s t u : State} {c : Ctx} {st : Status} (torn : s.tornDown t c st) (onward : Onward t u)
    (distinct : t.distinct) (stays : ∀ d ∈ t.ctxs, d.num = c.num → d.state = .active → d ∈ u.ctxs) : s.tornDown u c st := by
  obtain ⟨ends, marks, left⟩ := torn
  refine ⟨fun active idle => cancelledAs_onward onward distinct (ends active idle), fun running => ?_, fun idle running => ?_⟩
  · exact stays _ (marks running) rfl running.1
  · exact onward.stays distinct c (left idle running) (ended_of_neither idle running)

theorem State.tornDown.settle {s t : State} {c : Ctx} {st : Status} (torn : s.tornDown t c st) (distinct : t.distinct) :
    s.tornDown t.settle c st :=
  torn.onward (onward_settle t) distinct fun d hd _ active =>
    (settle_keeps t).calm distinct d hd ⟨by simp [active], by simp [active], by simp [active]⟩

theorem State.tornDown.of_core {r s t : State} {c : Ctx} {st : Status} (h : s.core = r.core) (torn : s.tornDown t c st) :
    r.tornDown t c st := by
  unfold State.tornDown State.notRunning State.running at *
  rwa [onWire_of_core h, bound_of_core h, cq_state_of_core h] at torn

/-! ### The contexts of a list -/

theorem core_tearDownAll (st : Status) (l : List CtxNum) (s : State) :
    (l.foldl (State.tearDownCtx st) s).core = s.core :=
  foldl_core _ (fun u n => core_tearDownCtx u n st) l s

theorem shrinks_tearDownAll (st : Status) (l : List CtxNum) (s : State) : Shrinks s (l.foldl (State.tearDownCtx st) s) :=
  Shrinks.foldl (shrinks_tearDownCtx st) l s

theorem onward_tearDownAll (st : Status) (l : List CtxNum) (s : State) : Onward s (l.foldl (State.tearDownCtx st) s) :=
  Onward.foldl (onward_tearDownCtx st) l s

/-- The contexts that are not in the list are left. -/
theorem spares_tearDownAll {d : Ctx} {l : List CtxNum} (other : d.num ∉ l) (st : Status) (s : State) :
    Spares d s (l.foldl (State.tearDownCtx st) s) :=
  Spares.foldl (fun u _ hn => spares_tearDownCtx u (fun same => other (same ▸ hn)) st) s

/-- Each context in the list ends, is marked or is left, each once (R166 to R168). -/
theorem tearDownAll_tornDown {s : State} {c : Ctx} {l : List CtxNum} (distinct : s.distinct) (nodup : l.Nodup)
    (hc : c ∈ s.ctxs) (listed : c.num ∈ l) (st : Status) : s.tornDown (l.foldl (State.tearDownCtx st) s) c st := by
  obtain ⟨before, after, rfl⟩ := List.append_of_mem listed
  rw [List.nodup_append, List.nodup_cons] at nodup
  obtain ⟨-, ⟨later, -⟩, earlier⟩ := nodup
  rw [List.foldl_append, List.foldl_cons]
  have here := (spares_tearDownAll (fun h => earlier _ h _ List.mem_cons_self rfl) st s hc).1
  have still := (shrinks_tearDownAll st before s).distinct distinct
  have same := core_tearDownAll st before s
  generalize before.foldl (State.tearDownCtx st) s = u at *
  refine State.tornDown.of_core same ((tearDownCtx_tornDown still here st).onward (onward_tearDownAll st after _)
    ((shrinks_tearDownCtx st u c.num).distinct still) fun d hd num _ => (spares_tearDownAll (num ▸ later) st _ hd).1)

/-! ### The members of a chain -/

/-- Each member of a failed chain that has not run ends as in a teardown (R106). -/
theorem cancelAll_unreached {s : State} {l : List CtxNum} (nodup : l.Nodup) (st : Status)
    (unreached : ∀ n ∈ l, ∃ c, s.ctx n = some c ∧ c.unreached = true) (distinct : s.distinct) :
    l.foldl (State.cancel st) s = l.foldl (State.tearDownCtx st) s := by
  induction l generalizing s with
  | nil => rfl
  | cons n l ih =>
    obtain ⟨c, hc, waits⟩ := unreached n List.mem_cons_self
    obtain ⟨-, rfl⟩ := ctx_mem hc
    have idle : s.notRunning c := by
      have states : c.state = .staged ∨ c.state = .pending := by simpa [Ctx.unreached] using waits
      obtain h | h := states <;> exact ⟨by simp [h], fun active => by simp [h] at active⟩
    rw [List.foldl_cons, List.foldl_cons, tearDownCtx_idle hc idle]
    rw [List.nodup_cons] at nodup
    obtain ⟨later, nodup⟩ := nodup
    have still := (shrinks_cancel st s c.num).distinct distinct
    refine ih nodup (fun m hm => ?_) still
    obtain ⟨d, hd, waits⟩ := unreached m (List.mem_cons_of_mem _ hm)
    obtain ⟨mem, rfl⟩ := ctx_mem hd
    exact ⟨d, ctx_of_mem still (spares_cancel s (fun same : d.num = c.num => later (same ▸ hm)) st mem).1, waits⟩

theorem abortChain_eq {s : State} (distinct : s.distinct) (id : Nat) : s.abortChain id =
    ((s.unreachedMembers id).foldl (State.tearDownCtx .chainAborted) s).mapSqs (Sq.failChain · id) := by
  rw [State.abortChain]
  refine congrArg (State.mapSqs · (Sq.failChain · id)) (cancelAll_unreached ?_ _ (fun n hn => ?_) distinct)
  · exact distinct.sublist (List.filter_sublist.map _)
  · obtain ⟨c, hc, rfl⟩ := List.mem_map.1 hn
    obtain ⟨hc, member⟩ := List.mem_filter.1 hc
    exact ⟨c, ctx_of_mem distinct hc, by simpa using (Bool.and_eq_true _ _ ▸ member).2⟩

theorem onward_abortChain {s : State} (distinct : s.distinct) (id : Nat) : Onward s (s.abortChain id) := by
  rw [abortChain_eq distinct]
  exact (onward_tearDownAll _ _ s).trans (.of_eq rfl rfl rfl)

/-- Each member that has not run ends CHAIN_ABORTED (R106). -/
theorem abortChain_cancelledAs {s : State} {c : Ctx} {id : Nat} (distinct : s.distinct) (hc : c ∈ s.ctxs)
    (member : c.inChain id = true) (unreached : c.unreached = true) (active : (s.cq (s.sq c.sq).bound).state = .active) :
    (s.abortChain id).cancelledAs (s.sq c.sq).bound c .chainAborted := by
  have listed : c.num ∈ s.unreachedMembers id :=
    List.mem_map.2 ⟨c, List.mem_filter.2 ⟨hc, by simp [member, unreached]⟩, rfl⟩
  have nodup : (s.unreachedMembers id).Nodup := distinct.sublist (List.filter_sublist.map _)
  have idle : s.notRunning c := by
    have states : c.state = .staged ∨ c.state = .pending := by simpa [Ctx.unreached] using unreached
    obtain h | h := states <;> exact ⟨by simp [h], fun active => by simp [h] at active⟩
  rw [abortChain_eq distinct]
  have ends := (tearDownAll_tornDown distinct nodup hc listed .chainAborted).1 active idle
  exact cancelledAs_onward (.of_eq rfl rfl rfl) ((shrinks_tearDownAll _ _ s).distinct distinct) ends

end Sys2Proof.Machine
end

section
/-! PROOFS. Chains that hold their segment: the next member is reached, the hold ends, the chain fails (R103, R105, R106). -/

namespace Sys2Proof.Machine

set_option Elab.async false -- one thread elaborates: the checker's memory is limited

/-! ### The order of contexts -/

theorem mem_of_pair_sublist {α : Type} {e d : α} {l m : List α} (nodup : (l ++ d :: m).Nodup)
    (pair : [e, d].Sublist (l ++ d :: m)) : e ∈ l := by
  obtain ⟨r, t, split, he, hd⟩ := List.cons_sublist_iff.1 pair
  have hd : d ∈ t := List.singleton_sublist.1 hd
  rw [split, List.nodup_append] at nodup
  obtain ⟨-, -, apart⟩ := nodup
  obtain ⟨k, rfl, rest⟩ | ⟨k, rfl, rest⟩ := List.append_eq_append_iff.1 split
  · cases k with
    | nil => simpa using he
    | cons x k =>
      obtain ⟨rfl, -⟩ : d = x ∧ _ := by simpa using rest
      exact absurd rfl (apart d (List.mem_append_right _ List.mem_cons_self) d hd)
  · exact List.mem_append_left _ he

/-- A context that stands before another one stood before it before. -/
theorem Shrinks.before {s t : State} {l m k n : List Ctx} {d e : Ctx} (shrinks : Shrinks s t) (distinct : s.distinct)
    (ctxs : s.ctxs = l ++ d :: m) (later : t.ctxs = k ++ e :: n) {f : Ctx} (hf : f ∈ n) (num : f.num = d.num) :
    ∃ c ∈ l, c.num = e.num := by
  have pair : [e.num, d.num].Sublist (s.ctxs.map (·.num)) := by
    refine List.Sublist.trans ?_ shrinks
    rw [later, List.map_append, List.map_cons]
    refine List.Sublist.trans ?_ (List.sublist_append_right _ _)
    exact List.Sublist.cons_cons _ (List.singleton_sublist.2 (List.mem_map.2 ⟨f, hf, num⟩))
  have nodup := distinct
  rw [State.distinct, ctxs, List.map_append, List.map_cons] at nodup
  rw [ctxs, List.map_append, List.map_cons] at pair
  exact List.mem_map.1 (mem_of_pair_sublist nodup pair)

/-! ### The members of a chain, while a step settles -/

theorem shrinks_releaseFences (s : State) : Shrinks s s.releaseFences := Shrinks.foldl shrinks_releaseFence _ s

theorem shrinks_moveAllStaged (s : State) : Shrinks s s.moveAllStaged := Shrinks.foldl shrinks_moveStaged _ s

theorem kin_releaseFences (s : State) : Kin s s.releaseFences := Kin.foldl kin_releaseFence _ s

theorem kin_moveAllStaged (s : State) : Kin s s.moveAllStaged := Kin.foldl kin_moveStaged _ s

theorem inChain_congr {c d : Ctx} (h : c.chain = d.chain) (id : Nat) : c.inChain id = d.inChain id := by
  rw [Ctx.inChain, Ctx.inChain, h]

/-- The first member of a chain that has not ended is `d`, PENDING or reached (R105). -/
def State.leads (s : State) (id : Nat) (d : Ctx) : Prop :=
  ∃ l, s.liveMembers id = d :: l ∨ s.liveMembers id = { d with state := .active } :: l

/-- The chain that holds the segment has reached `d`. -/
def State.reached (s : State) (id : Nat) (d : Ctx) : Prop := ∃ l, s.liveMembers id = { d with state := .active } :: l

section

variable {s : State} {g : SegId} {id : Nat} {d : Ctx}

/-- Where a chain reaches a member, other chains keep theirs. -/
theorem liveMembers_updCtx {c : Ctx} {f : Ctx → Ctx} (distinct : s.distinct) (hc : c ∈ s.ctxs) (other : c.inChain id = false)
    (chain : (f c).chain = c.chain) : (s.updCtx c.num f).liveMembers id = s.liveMembers id := by
  unfold State.liveMembers State.updCtx
  rw [List.filter_map]
  have tests : ∀ e ∈ s.ctxs, ((fun e : Ctx => e.inChain id && e.state != .ready) ∘ fun e => if e.num = c.num then f e else e) e =
      (e.inChain id && e.state != .ready) := fun e he => by
    simp only [Function.comp_apply]
    split
    next same =>
      obtain rfl := eq_of_num distinct he hc same
      rw [inChain_congr chain, other]
      rfl
    next => rfl
  rw [List.filter_congr tests]
  refine (List.map_congr_left fun e he => if_neg fun same => ?_).trans (List.map_id _)
  obtain ⟨he, member⟩ := List.mem_filter.1 he
  obtain rfl := eq_of_num distinct he hc same
  simp [other] at member

theorem liveMembers_reach {c : Ctx} {l : List Ctx} (distinct : s.distinct) (live : s.liveMembers id = c :: l) :
    (s.updCtx c.num fun c => { c with state := .active }).liveMembers id = { c with state := .active } :: l := by
  have mem : ∀ e ∈ c :: l, e ∈ s.ctxs ∧ e.inChain id = true ∧ e.state ≠ .ready := fun e he => mem_liveMembers.1 (live ▸ he)
  obtain ⟨hc, member, state⟩ := mem c List.mem_cons_self
  have nodup : ((c :: l).map (·.num)).Nodup := live ▸ distinct.sublist (List.filter_sublist.map (fun c : Ctx => c.num))
  unfold State.liveMembers State.updCtx at *
  rw [List.filter_map]
  have tests : ∀ e ∈ s.ctxs, ((fun e : Ctx => e.inChain id && e.state != .ready) ∘ fun e =>
      if e.num = c.num then { e with state := .active } else e) e = (e.inChain id && e.state != .ready) := fun e he => by
    simp only [Function.comp_apply]
    split
    next same =>
      obtain rfl := eq_of_num distinct he hc same
      have moved : ({ e with state := .active } : Ctx).inChain id = true := member
      rw [moved, member]
      exact congrArg (true && ·) ((rfl : (CtxState.active != CtxState.ready) = true).trans (bne_iff_ne.2 state).symm)
    next => rfl
  rw [List.filter_congr tests, live, List.map_cons, if_pos rfl]
  refine congrArg (_ :: ·) ((List.map_congr_left fun e he => if_neg fun same => ?_).trans (List.map_id _))
  rw [List.map_cons, List.nodup_cons] at nodup
  exact nodup.1 (List.mem_map.2 ⟨e, he, same⟩)

theorem State.reached.leads (h : s.reached id d) : s.leads id d := by
  obtain ⟨l, live⟩ := h
  exact ⟨l, .inr live⟩

/-- A chain that reaches its member, and the chains of other segments, leave the first live member first. -/
theorem leads_reachMember (h : SegId) (distinct : s.distinct) (leads : s.leads id d) :
    (s.reachMember h).leads id d ∧ (s.reached id d → (s.reachMember h).reached id d) ∧
      ((s.seg h).holder = some (.chain id) → d.state = .pending → (s.reachMember h).reached id d) := by
  have ⟨l, first⟩ := leads
  have head : ∀ e k, s.liveMembers id = e :: k → e = d ∨ e = { d with state := .active } := fun e k live => by
    obtain first | first := first
    · exact .inl (List.cons.inj (live.symm.trans first)).1
    · exact .inr (List.cons.inj (live.symm.trans first)).1
  unfold State.reachMember
  split
  next i held =>
    split
    next none =>
      refine ⟨leads, fun k => k, fun same => ?_⟩
      obtain rfl : i = id := by simpa using held.symm.trans same
      obtain first | first := first <;> exact nomatch none.symm.trans first
    next c k live =>
      obtain ⟨hc, member, -⟩ := mem_liveMembers.1 (live ▸ List.mem_cons_self : c ∈ s.liveMembers i)
      split
      next pending =>
        by_cases same : i = id
        · subst same
          have reached : (s.updCtx c.num fun c => { c with state := .active }).reached i d := by
            refine ⟨k, (liveMembers_reach distinct live).trans ?_⟩
            obtain rfl | rfl := head c k live <;> rfl
          exact ⟨reached.leads, fun _ => reached, fun _ _ => reached⟩
        · have other : c.inChain id = false := by
            unfold Ctx.inChain at *
            split at member
            next m chain =>
              have named : m.id = i := by simpa using member
              exact beq_eq_false_iff_ne.2 (named ▸ same)
            next => exact nomatch member
          have kept := liveMembers_updCtx (f := fun c => { c with state := .active }) distinct hc other rfl
          refine ⟨⟨l, by rwa [kept]⟩, fun ⟨r, live⟩ => ⟨r, by rwa [kept]⟩, fun here => ?_⟩
          exact absurd (by simpa using held.symm.trans here) same
      next still =>
        refine ⟨leads, fun k => k, fun same pending => ?_⟩
        obtain rfl : i = id := by simpa using held.symm.trans same
        obtain rfl | rfl := head c k live
        · exact absurd pending still
        · exact ⟨k, live⟩
  next none =>
    exact ⟨leads, fun k => k, fun held => absurd held (none id)⟩

theorem leads_mem (h : s.leads id d) : ∃ e ∈ s.ctxs, e.inChain id = true ∧ e.state ≠ .ready := by
  obtain ⟨l, live | live⟩ := h
  · obtain ⟨he, member, state⟩ := mem_liveMembers.1 (live ▸ List.mem_cons_self)
    exact ⟨_, he, member, state⟩
  · obtain ⟨he, member, state⟩ := mem_liveMembers.1 (live ▸ List.mem_cons_self)
    exact ⟨_, he, member, state⟩

/-- The chain that holds the segment reaches its first live member, and goes on holding the segment (R105). -/
theorem reachMembers_reach (distinct : s.distinct) (leads : s.leads id d) (pending : d.state = .pending)
    (held : (s.seg g).holder = some (.chain id)) :
    s.reachMembers.reached id d ∧ (s.reachMembers.seg g).holder = some (.chain id) := by
  have step (h : SegId) (u : State) (distinct : u.distinct) (leads : u.leads id d)
      (held : (u.seg g).holder = some (.chain id)) : (u.reachMember h).distinct ∧ (u.reachMember h).leads id d ∧
      ((u.reachMember h).seg g).holder = some (.chain id) := by
    obtain ⟨e, he, member, state⟩ := leads_mem leads
    exact ⟨(shrinks_reachMember u h).distinct distinct, (leads_reachMember h distinct leads).1,
      reachMember_keepsChain h held he member state⟩
  have before : ∀ (l : List SegId) (u : State), u.distinct → u.leads id d → (u.seg g).holder = some (.chain id) →
      (l.foldl State.reachMember u).distinct ∧ (l.foldl State.reachMember u).leads id d ∧
        ((l.foldl State.reachMember u).seg g).holder = some (.chain id) := fun l => by
    induction l with
    | nil => exact fun u distinct leads held => ⟨distinct, leads, held⟩
    | cons h l ih =>
      intro u distinct leads held
      obtain ⟨distinct, leads, held⟩ := step h u distinct leads held
      exact ih _ distinct leads held
  have after : ∀ (l : List SegId) (u : State), u.distinct → u.reached id d → (l.foldl State.reachMember u).reached id d :=
    fun l => by
      induction l with
      | nil => exact fun u _ reached => reached
      | cons h l ih =>
        exact fun u distinct reached => ih _ ((shrinks_reachMember u h).distinct distinct)
          ((leads_reachMember h distinct reached.leads).2.1 reached)
  obtain ⟨l, m, ids⟩ := List.append_of_mem (mem_segIds g)
  refine ⟨?_, (before segIds s distinct leads held).2.2⟩
  rw [State.reachMembers, ids, List.foldl_append, List.foldl_cons]
  obtain ⟨distinct, leads, held⟩ := before l s distinct leads held
  exact after m _ ((shrinks_reachMember _ g).distinct distinct) ((leads_reachMember g distinct leads).2.2 held pending)

/-- Every member of the chain has ended. -/
def State.chainOver (s : State) (id : Nat) : Prop := ∀ c ∈ s.ctxs, c.inChain id = true → c.state = .ready

theorem chainOver_reachMember (h : SegId) (distinct : s.distinct) (ended : s.chainOver id) :
    (s.reachMember h).chainOver id := by
  unfold State.reachMember
  split
  next =>
    split
    next => exact ended
    next c l live =>
      split
      next pending =>
        obtain ⟨hc, -⟩ := mem_liveMembers.1 (live ▸ List.mem_cons_self : c ∈ s.liveMembers _)
        intro e he member
        obtain ⟨f, hf, rfl⟩ := List.mem_map.1 he
        split at member
        next same =>
          obtain rfl := eq_of_num distinct hf hc same
          exact nomatch pending.symm.trans (ended f hf member)
        next other =>
          rw [if_neg other]
          exact ended f hf member
      next => exact ended
  next => exact ended

/-- When every member of the chain that holds the segment has ended, the hold ends (R105). -/
theorem reachMembers_over (distinct : s.distinct) (ended : s.chainOver id)
    (held : (s.seg g).holder = some (.chain id)) : (s.reachMembers.seg g).holder = none := by
  have none (l : List SegId) : ∀ u : State, (u.seg g).holder = none → ((l.foldl State.reachMember u).seg g).holder = none := by
    induction l with
    | nil => exact fun _ h => h
    | cons h l ih =>
      intro u free
      obtain same | none := reachMember_holder u h g
      · exact ih _ (same.trans free)
      · exact ih _ none
  have before : ∀ (l : List SegId) (u : State), u.distinct → u.chainOver id →
      (u.seg g).holder = some (.chain id) ∨ (u.seg g).holder = Option.none →
      (l.foldl State.reachMember u).chainOver id ∧ (((l.foldl State.reachMember u).seg g).holder = some (.chain id) ∨
        ((l.foldl State.reachMember u).seg g).holder = Option.none) := fun l => by
    induction l with
    | nil => exact fun u _ ended held => ⟨ended, held⟩
    | cons h l ih =>
      intro u distinct ended held
      refine ih _ ((shrinks_reachMember u h).distinct distinct) (chainOver_reachMember h distinct ended) ?_
      obtain same | free := reachMember_holder u h g
      · rwa [same]
      · exact .inr free
  obtain ⟨l, m, ids⟩ := List.append_of_mem (mem_segIds g)
  rw [State.reachMembers, ids, List.foldl_append, List.foldl_cons]
  obtain ⟨ended, held | free⟩ := before l s distinct ended (.inl held)
  · refine none m _ ?_
    have over' : (l.foldl State.reachMember s).liveMembers id = [] := by
      refine List.filter_eq_nil_iff.2 fun c hc => ?_
      cases member : c.inChain id with
      | false => simp
      | true => simp [ended c hc member]
    rw [State.reachMember, held]
    dsimp only
    rw [over', State.seg_updSeg_same]
  · obtain same | still := reachMember_holder (l.foldl State.reachMember s) g g
    · exact none m _ (same.trans free)
    · exact none m _ still

end

/-! ### After a member has ended -/

/-- From `s` to `t` context `c` has ended READY; the others stand where they stood. -/
structure MemberEnds (s t : State) (c : Ctx) : Prop where
  shrinks : Shrinks s t
  kin : Kin s t
  others : ∀ d ∈ s.ctxs, d.num ≠ c.num → d ∈ t.ctxs
  finished : ∃ d ∈ t.ctxs, d.num = c.num ∧ d.state = .ready

section

variable {s t : State} {g : SegId} {c : Ctx} {id : Nat}

/-- As contexts move and FENCEs are released, a member that has ended stays so. -/
theorem MemberEnds.moved (ends : MemberEnds s t c) (distinct : s.distinct) {e : Ctx}
    (he : e ∈ t.releaseFences.moveAllStaged.ctxs) : (e.num = c.num → e.state = .ready) ∧
      ∀ d ∈ s.ctxs, d.num = e.num → d.num ≠ c.num → d.state = .ready → e.state = .ready := by
  have still := ends.shrinks.distinct distinct
  have first := (keeps_releaseFences t).distinct still
  have last := (keeps_moveAllStaged _).distinct first
  have stays (d : Ctx) (hd : d ∈ t.ctxs) (ready : d.state = .ready) : d ∈ t.releaseFences.moveAllStaged.ctxs := by
    have calm : d.calm := ⟨by simp [ready], by simp [ready], by simp [ready]⟩
    exact (keeps_moveAllStaged _).calm first d ((keeps_releaseFences t).calm still d hd calm) calm
  refine ⟨fun same => ?_, fun d hd num other ready => ?_⟩
  · obtain ⟨d, hd, num, ready⟩ := ends.finished
    exact eq_of_num last he (stays d hd ready) (same.trans num.symm) ▸ ready
  · exact eq_of_num last he (stays d (ends.others d hd other) ready) num.symm ▸ ready

/-- The first member that had not ended, but for the one that ends, comes first. -/
theorem MemberEnds.first (ends : MemberEnds s t c) (distinct : s.distinct) {l m : List Ctx} {d : Ctx}
    (ctxs : s.ctxs = l ++ d :: m) (before : ∀ e ∈ l, e.inChain id = true → e.num ≠ c.num → e.state = .ready)
    (live : d ∈ t.releaseFences.moveAllStaged.liveMembers id) : t.releaseFences.moveAllStaged.leads id d := by
  have shrinks : Shrinks s t.releaseFences.moveAllStaged :=
    (ends.shrinks.trans (shrinks_releaseFences t)).trans (shrinks_moveAllStaged _)
  have kin : Kin s t.releaseFences.moveAllStaged :=
    (ends.kin.trans (kin_releaseFences t)).trans (kin_moveAllStaged _)
  cases members : t.releaseFences.moveAllStaged.liveMembers id with
  | nil => simp [members] at live
  | cons e r =>
    obtain ⟨he, member, still⟩ := mem_liveMembers.1 (members ▸ List.mem_cons_self : e ∈ _)
    rw [members] at live
    obtain rfl | later := List.mem_cons.1 live
    · exact ⟨r, .inl members⟩
    · obtain ⟨k, n, split, -, -, rest⟩ := List.filter_eq_cons_iff.1 members
      have hd : d ∈ n := (List.mem_filter.1 (rest ▸ later)).1
      obtain ⟨a, ha, num⟩ := shrinks.before distinct ctxs split hd rfl
      have ha' : a ∈ s.ctxs := ctxs ▸ List.mem_append_left _ ha
      refine absurd ?_ still
      by_cases same : a.num = c.num
      · exact (ends.moved distinct he).1 (num.symm.trans same)
      · obtain ⟨b, hb, named, -, -, chain⟩ := kin e he
        obtain rfl := eq_of_num distinct hb ha' (named.trans num.symm)
        exact (ends.moved distinct he).2 b ha' num same (before b ha (inChain_congr chain id ▸ member) same)

/-- The chain goes on with its next member, or its hold ends (R105). -/
theorem MemberEnds.goesOn (ends : MemberEnds s t c) (distinct : s.distinct)
    (held : (t.seg g).holder = some (.chain id)) : chainGoesOn s t.settle g c id := by
  have still := ends.shrinks.distinct distinct
  have first := (keeps_releaseFences t).distinct still
  have last := (keeps_moveAllStaged _).distinct first
  have holder : (t.releaseFences.moveAllStaged.seg g).holder = some (.chain id) := by
    rw [moveAllStaged_holder, releaseFences_holder, held]
  have kin : Kin s t.releaseFences.moveAllStaged :=
    (ends.kin.trans (kin_releaseFences t)).trans (kin_moveAllStaged _)
  refine ⟨fun l d m ctxs member other pending before => ?_, fun over' => ?_⟩
  · have hd : d ∈ t.ctxs := ends.others d (ctxs ▸ List.mem_append_right l List.mem_cons_self) other
    have here : d ∈ t.releaseFences.moveAllStaged.ctxs :=
      ((spares_releaseFences still (by simp [pending])).trans (spares_moveAllStaged first (by simp [pending])) hd).1
    have leads : t.releaseFences.moveAllStaged.leads id d := by
      have live : d ∈ t.releaseFences.moveAllStaged.liveMembers id := mem_liveMembers.2 ⟨here, member, by simp [pending]⟩
      exact ends.first distinct ctxs before live
    obtain ⟨⟨r, reached⟩, holds⟩ := reachMembers_reach last leads pending holder
    rw [settle_eq]
    refine ⟨?_, by rw [settleLast_holder, holds]⟩
    have mem := (mem_liveMembers.1 (reached ▸ List.mem_cons_self)).1
    exact (keeps_settleLast _).calm ((keeps_reachMembers _).distinct last) _ mem ⟨nofun, nofun, nofun⟩
  · rw [settle_eq, settleLast_holder]
    refine reachMembers_over last (fun e he member => ?_) holder
    obtain ⟨d, hd, num, -, -, chain⟩ := kin e he
    by_cases same : d.num = c.num
    · exact (ends.moved distinct he).1 (num.symm.trans same)
    · exact (ends.moved distinct he).2 d hd num same (over' d hd (inChain_congr chain id ▸ member) same)

end

/-! ### How a member ends -/

/-- From `s` to `v` the result of a frame has reached context `c`, which is now `d`; the rest stands (R74). -/
structure Delivers (s v : State) (c d : Ctx) : Prop where
  shrinks : Shrinks s v
  kin : Kin s v
  spares : ∀ e : Ctx, e.num ≠ c.num → Spares e s v
  bounds : ∀ q, (v.sq q).bound = (s.sq q).bound
  cqs : ∀ k, (v.cq k).state = (s.cq k).state
  mem : d ∈ v.ctxs
  num : d.num = c.num
  sq : d.sq = c.sq
  seg : d.seg = c.seg
  chain : d.chain = c.chain

section

variable {s v : State} {c d : Ctx} {m : ChainMember} {st : Status}

theorem Delivers.updSeg (delivers : Delivers s v c d) (g : SegId) {f : SegCtl → SegCtl}
    (lists : ∀ y, (f y).pendingList = y.pendingList ∧ (f y).offered = y.offered) : Delivers s (v.updSeg g f) c d where
  shrinks := delivers.shrinks.trans (.of_eq rfl)
  kin := delivers.kin.trans (.of_eq rfl)
  spares e other := (delivers.spares e other).trans (spares_relisted e v g lists)
  bounds := delivers.bounds
  cqs := delivers.cqs
  mem := delivers.mem
  num := delivers.num
  sq := delivers.sq
  seg := delivers.seg
  chain := delivers.chain

/-- The member becomes READY with its status. -/
theorem Delivers.ready (delivers : Delivers s v c d) (distinct : s.distinct)
    (active : (s.cq (s.sq c.sq).bound).state = .active) (st : Status) :
    (v.becomeReady c.num st).readyWith (s.sq c.sq).bound d st ∧ MemberEnds s (v.becomeReady c.num st) c := by
  have still := delivers.shrinks.distinct distinct
  have bound : (v.sq d.sq).bound = (s.sq c.sq).bound := by rw [delivers.sq, delivers.bounds]
  have ready := becomeReady_readyWith still delivers.mem (by rw [bound, delivers.cqs]; exact active) st
  rw [bound, delivers.num] at ready
  refine ⟨ready, delivers.shrinks.trans (shrinks_becomeReady v c.num st), delivers.kin.trans (kin_becomeReady v c.num st),
    fun e he other => ((delivers.spares e other).trans (spares_becomeReady v other st) he).1, ?_⟩
  obtain ⟨⟨e, he, num, -, -, -, state, -⟩, -⟩ := ready
  exact ⟨e, he, num.trans delivers.num, state⟩

/-- After a success of the member that the holding chain has reached, the chain goes on (R105). -/
theorem Delivers.goesOn (delivers : Delivers s v c d) (distinct : s.distinct)
    (active : (s.cq (s.sq c.sq).bound).state = .active) (held : (v.seg c.seg).holder = some (.chain m.id)) (st : Status) :
    (v.becomeReady c.num st).settle.readyWith (s.sq c.sq).bound d st ∧
      chainGoesOn s (v.becomeReady c.num st).settle c.seg c m.id := by
  obtain ⟨ready, ends⟩ := delivers.ready distinct active st
  refine ⟨readyWith_onward (onward_settle _) (ends.shrinks.distinct distinct) ready, ends.goesOn distinct ?_⟩
  rw [becomeReady_holder, held]

/-- A context that ends leaves its segment's holder, or ends its own hold (R103, R166). -/
theorem tearDownCtx_holder (st : Status) (s : State) (n : CtxNum) {g : SegId} (free : (s.seg g).holder = none) :
    ((State.tearDownCtx st s n).seg g).holder = none := by
  have ends (u : State) (k : SegId) (f : SegCtl → SegCtl) (keeps : ∀ y, y.holder = none → (f y).holder = none)
      (free : (u.seg g).holder = none) : ((u.updSeg k f).seg g).holder = none := by
    rw [State.seg_updSeg]
    split
    · next same =>
        subst same
        exact keeps _ free
    · exact free
  have alone (y : SegCtl) (n : CtxNum) (h : y.holder = none) : (y.endHoldOf n).holder = none := by
    unfold SegCtl.endHoldOf
    split
    · rfl
    · exact h
  have chain (y : SegCtl) (id : Nat) (h : y.holder = none) : (y.endHoldOfChain id).holder = none := by
    unfold SegCtl.endHoldOfChain
    split
    · rfl
    · exact h
  have cancels : ((State.cancel st s n).seg g).holder = none := by
    unfold State.cancel
    split
    next => exact free
    next c _ =>
      dsimp only
      rw [finish_holder]
      have first := ends s c.seg (·.endHoldOf n) (fun y => alone y n) free
      split
      next i _ =>
        split
        · exact first
        · exact ends _ c.seg (·.endHoldOfChain i.id) (fun y => chain y i.id) first
      next => exact first
  unfold State.tearDownCtx
  split
  next => exact free
  next c _ =>
    split
    next => exact free
    next =>
      split
      · exact free
      · split
        · exact free
        · exact cancels
    next => exact cancels

theorem tearDownAll_holder (st : Status) (l : List CtxNum) {s : State} {g : SegId} (free : (s.seg g).holder = none) :
    ((l.foldl (State.tearDownCtx st) s).seg g).holder = none := by
  induction l generalizing s with
  | nil => exact free
  | cons n l ih => exact ih (tearDownCtx_holder st s n free)

/-- After the member has ended otherwise, the chain ends with it (R106). -/
theorem Delivers.fails (delivers : Delivers s v c d) (distinct : s.distinct)
    (active : (s.cq (s.sq c.sq).bound).state = .active) (held : (v.seg c.seg).holder = some (.chain m.id)) (st : Status) :
    let t := (((v.becomeReady c.num st).updSeg c.seg (·.endHoldOfChain m.id)).abortChain m.id).settle
    t.readyWith (s.sq c.sq).bound d st ∧ chainFails s t c.seg c m.id := by
  obtain ⟨ready, ends⟩ := delivers.ready distinct active st
  have holder := (becomeReady_holder v c.num st c.seg).trans held
  have spares (e : Ctx) (other : e.num ≠ c.num) : Spares e s (v.becomeReady c.num st) :=
    (delivers.spares e other).trans (spares_becomeReady v other st)
  have same := core_becomeReady v c.num st
  have bounds (q : SqId) : ((v.becomeReady c.num st).sq q).bound = (s.sq q).bound :=
    (sq_bound_of_core same q).trans (delivers.bounds q)
  have cqs (k : CqId) : ((v.becomeReady c.num st).cq k).state = (s.cq k).state :=
    (cq_state_of_core same k).trans (delivers.cqs k)
  have still := ends.shrinks.distinct distinct
  generalize v.becomeReady c.num st = u at *
  have still : (u.updSeg c.seg (·.endHoldOfChain m.id)).distinct := still
  have ready : (u.updSeg c.seg (·.endHoldOfChain m.id)).readyWith (s.sq c.sq).bound d st := ready
  have free : ((u.updSeg c.seg (·.endHoldOfChain m.id)).seg c.seg).holder = none := by
    rw [State.seg_updSeg_same, SegCtl.endHoldOfChain, if_pos holder]
  have spares (e : Ctx) (other : e.num ≠ c.num) : Spares e s (u.updSeg c.seg (·.endHoldOfChain m.id)) :=
    (spares e other).trans (spares_relisted e u c.seg (SegCtl.endHoldOfChain_lists · m.id))
  have bounds (q : SqId) : ((u.updSeg c.seg (·.endHoldOfChain m.id)).sq q).bound = (s.sq q).bound := bounds q
  have cqs (k : CqId) : ((u.updSeg c.seg (·.endHoldOfChain m.id)).cq k).state = (s.cq k).state := cqs k
  generalize u.updSeg c.seg (·.endHoldOfChain m.id) = u at *
  have after := (onward_abortChain still m.id).trans (onward_settle _)
  refine ⟨readyWith_onward after still ready, ?_, fun e he member other unreached open' => ?_⟩
  · have aborted : ((u.abortChain m.id).seg c.seg).holder = none := by
      rw [abortChain_eq still]
      exact tearDownAll_holder _ _ free
    obtain kept | kept := settle_holder_or (u.abortChain m.id) c.seg
    · exact kept.trans aborted
    · exact kept
  · have fails := abortChain_cancelledAs still (spares e other he).1 member unreached (by rw [bounds, cqs]; exact open')
    rw [bounds] at fails
    exact cancelledAs_onward (onward_settle _) ((onward_abortChain still m.id).distinct still) fails

/-- A command with no block data ends: the hold outside chains, then the context, then the chain (R74, R105). -/
theorem endCommand_member (hd : v.ctx d.num = some d) (none : d.needsBuffer = false) (st : Status) :
    v.endCommand d.num st = ((v.updSeg d.seg (·.endHoldOf d.num)).becomeReady d.num st).memberEnded d st := by
  have here : (v.updSeg d.seg (·.endHoldOf d.num)).ctx d.num = some d := hd
  rw [State.endCommand, hd]
  dsimp only
  rw [finish_of_ctx here, none]
  rfl

theorem memberEnded_success {u : State} (success : st.isSuccess = true) : u.memberEnded d st = u := by
  rw [State.memberEnded]
  split
  · rfl
  · exact if_pos success

theorem memberEnded_failure {u : State} (chain : d.chain = some m) (failure : st.isSuccess = false) :
    u.memberEnded d st = (u.updSeg d.seg (·.endHoldOfChain m.id)).abortChain m.id := by
  rw [State.memberEnded, chain]
  dsimp only
  rw [failure]
  exact if_neg nofun

/-- A command that ends leaves a chain's hold to the chain. -/
theorem endHoldOf_chain {g : SegId} {id : Nat} (n : CtxNum) (held : (v.seg g).holder = some (.chain id)) :
    ((v.updSeg g (·.endHoldOf n)).seg g).holder = some (.chain id) := by
  rw [State.seg_updSeg_same, SegCtl.endHoldOf, if_neg (by simp [held])]
  exact held

/-- A member ends with a status whose frames leave no block data to write (R74, R105, R106). -/
theorem Delivers.endCommand (delivers : Delivers s v c d) (distinct : s.distinct)
    (active : (s.cq (s.sq c.sq).bound).state = .active) (held : (v.seg c.seg).holder = some (.chain m.id))
    (chain : c.chain = some m) (none : d.needsBuffer = false) (st : Status) :
    (v.endCommand d.num st).settle.readyWith (s.sq c.sq).bound d st ∧
      if st.isSuccess then chainGoesOn s (v.endCommand d.num st).settle c.seg c m.id
      else chainFails s (v.endCommand d.num st).settle c.seg c m.id := by
  have hd := ctx_of_mem (delivers.shrinks.distinct distinct) delivers.mem
  have released := delivers.updSeg c.seg (f := (·.endHoldOf c.num)) (SegCtl.endHoldOf_lists · c.num)
  have still := endHoldOf_chain c.num held
  rw [endCommand_member hd none, delivers.seg, delivers.num]
  cases success : st.isSuccess with
  | true =>
    rw [memberEnded_success success]
    exact released.goesOn distinct active still st
  | false =>
    rw [memberEnded_failure (delivers.chain.trans chain) success, delivers.seg]
    exact released.fails distinct active still st

end

/-! ### The frames of a member -/

section

variable {s : State} {g : SegId} {w : Wire} {c : Ctx} {m : ChainMember}

theorem delivers_delivered (sends : s.sendsFor g w c) (a : Attempt) :
    Delivers s (s.delivered g w c a) c (c.apply w.kind a) := by
  obtain ⟨-, -, -, -, hc, distinct, -⟩ := sends
  have ctxs : ((s.reported g c.tgt w.owner.source a).keepHandOff c w.kind a).ctxs = s.ctxs := by simp [reported_ctxs]
  obtain ⟨x, l, eq⟩ := c.apply_eq w.kind a
  refine ⟨?_, ?_, fun e other => delivered_spares a other, fun q => by rw [delivered_sq], fun k => by rw [delivered_cq],
    delivered_mem a hc, c.apply_num w.kind a, by rw [eq], by rw [eq]; rfl, by rw [eq]⟩
  · refine (Shrinks.of_eq ctxs).trans (shrinks_replace (ctx_of_mem ?_ (by rwa [ctxs])) _ (c.apply_num w.kind a))
    rwa [State.distinct, ctxs]
  · intro d hd
    obtain ⟨e, he, rfl⟩ := List.mem_map.1 hd
    rw [ctxs] at he
    split
    next same =>
      obtain rfl := eq_of_num distinct he hc same
      exact ⟨e, he, by rw [eq], by rw [eq], by rw [eq], by rw [eq]⟩
    next => exact ⟨e, he, rfl, rfl, rfl, rfl⟩

/-- A final verdict on the frame of an unmarked member (R74, R105, R106). -/
theorem memberFrame_final {answer : BitVec 2} {data : Half} {parity : Bool} {a : Attempt} {st : Status}
    (sends : s.sendsFor g w c) (chain : c.chain = some m) (held : (s.seg g).holder = some (.chain m.id))
    (running : s.ctl.engine ≠ .failed) (segment : (s.seg g).state = .active) (mark : c.mark = none)
    (active : (s.cq (s.sq c.sq).bound).state = .active) (kind : w.kind ≠ .broadcast)
    (ha : Attempt.ofAnswer w.kind answer data parity = a) (none : (c.apply w.kind a).needsBuffer = false)
    (verdict : s.verdictOf g w c a = .final st) :
    (s.attemptEnd g answer data parity).settle.readyWith (s.sq c.sq).bound (c.apply w.kind a) st ∧
      if st.isSuccess then chainGoesOn s (s.attemptEnd g answer data parity).settle g c m.id
      else chainFails s (s.attemptEnd g answer data parity).settle g c m.id := by
  have delivers := delivers_delivered sends a
  have ended := attemptEnd_host sends kind running ha
  obtain ⟨-, -, -, -, -, distinct, -, -, rfl⟩ := sends
  obtain ⟨l, seg⟩ := delivered_seg (s := s) (g := c.seg) (w := w) (c := c) a c.seg
  have drained := drainIfDone_active (s := (s.delivered c.seg w c a).endCommand (c.apply w.kind a).num st) (g := c.seg)
    ((seg_state_of_core (core_endCommand _ _ _) c.seg).trans (by rw [seg]; exact segment))
  rw [verdict, judge_final (by simp [apply_mark, mark]), drained] at ended
  rw [ended]
  exact delivers.endCommand distinct active (by rw [seg]; exact held) chain none st

end

/-- Settles O51: the member that the holding chain has reached ends, and the chain goes on or fails. -/
theorem chainsRunInOrder : Obligations.ChainsRunInOrder := by
  refine ⟨fun g s c m at' distinct choice chain held turn => ?_,
    fun g s w c m sends chain held running segment mark active => ⟨fun answer data parity => ?_, fun kind => ?_⟩,
    fun g s c m tag ok st distinct hc state buffer status chain seg held active => ?_⟩
  · have hc := mem_of_hostChoice choice
    have holds : c.holderOf = some (.chain m.id) := by rw [Ctx.holderOf, chain]
    obtain ⟨started, others, stands⟩ := startHost_settled (g := g) (c := c)
      (f := fun y => { y with holder := c.holderOf, lastServed := .host }) distinct hc fun _ => ⟨rfl, rfl⟩
    have holder := startHost_holder (g := g) (c := c) (f := fun y => { y with holder := c.holderOf, lastServed := .host })
      distinct hc holds fun id h => by
        cases h
        simp [Ctx.inChain, chain]
    refine ⟨_, congrArg done (boundary_host at' choice held turn), started, others, holder, ?_⟩
    rw [stands, setSeg_standing, setSeg_standing]
    exact congrArg (State.setSeg s.standing g) rfl
  · intro a
    refine ⟨fun kind good => ?_, fun other none bad => ?_⟩
    · have none : (c.apply w.kind a).needsBuffer = false := by
        rw [Ctx.needsBuffer, apply_kind]
        obtain h | h := kind <;> rw [h] <;> rfl
      have frame : w.kind = c.frameKind := sends.2.2.1
      obtain ⟨v, accept⟩ : ∃ v, a = .accept v := by
        cases h : a with
        | accept v => exact ⟨v, rfl⟩
        | _ => rw [h] at good; exact nomatch good
      obtain ⟨st, verdict, success⟩ : ∃ st, s.verdictOf g w c a = .final st ∧ st.isSuccess = true := by
        obtain h | h := kind
        · refine ⟨.success, ?_, rfl⟩
          have read : w.kind = .read := by rw [frame, Ctx.frameKind, h]
          rw [State.verdictOf, accept, read]
          exact verdict_value _ v _ _ (by simp [apply_kind, h]) (by simp [apply_kind, h]) (by simp [apply_kind, h])
        · have write : w.kind = .write := by rw [frame, Ctx.frameKind, h]
          rw [State.verdictOf, accept, write]
          refine ⟨_, rfl, ?_⟩
          split <;> rfl
      have broadcast : w.kind ≠ .broadcast := by
        rw [frame, Ctx.frameKind]
        obtain h | h := kind <;> rw [h] <;> nofun
      obtain ⟨ready, goes⟩ := memberFrame_final sends chain held running segment mark active broadcast rfl none verdict
      rw [if_pos success] at goes
      exact ⟨_, st, rfl, success, ready, goes⟩
    · have failed : a.status ≠ .success := by obtain h | h := bad <;> rw [h] <;> decide
      have same : c.apply w.kind a = c := Ctx.apply_of_not_accept failed
      have verdict : s.verdictOf g w c a = .final (if a = .refuse then .targetRefused else .noAnswer) := by
        obtain h | h := bad <;> rw [State.verdictOf, h] <;> rfl
      have broadcast : w.kind ≠ .broadcast := by
        rw [show w.kind = c.frameKind from sends.2.2.1, Ctx.frameKind]
        (repeat' split) <;> simp_all
      have nothing : (c.apply w.kind a).needsBuffer = false := by
        rw [same, Ctx.needsBuffer, Ctx.blockCount, none]
        simp
      obtain ⟨ready, fails⟩ := memberFrame_final sends chain held running segment mark active broadcast rfl nothing verdict
      rw [same] at ready
      rw [if_neg (by split <;> decide)] at fails
      exact ⟨_, rfl, ready, fails⟩
  · obtain ⟨wire, owner, -, tgt, hc, distinct, -, -, rfl⟩ := sends
    have ended : s.broadcastEnd c.seg = ((s.clearWire c.seg).endCommand c.num .success).drainIfDone c.seg := by
      rw [State.broadcastEnd, wire]
      dsimp only
      rw [tgt, if_pos kind, owner]
      dsimp only
      rw [if_neg (by exact running)]
    have delivers : Delivers s (s.clearWire c.seg) c c :=
      ⟨.of_eq rfl, .of_eq rfl, fun e _ => spares_relisted e s c.seg (f := fun y => { y with wire := Option.none }) fun _ => ⟨rfl, rfl⟩,
        fun _ => rfl, fun _ => rfl, hc, rfl, rfl, rfl, rfl⟩
    have drained := drainIfDone_active (s := (s.clearWire c.seg).endCommand c.num .success) (g := c.seg)
      ((seg_state_of_core (core_endCommand _ _ _) c.seg).trans (by rw [State.clearWire, State.seg_updSeg_same]; exact segment))
    rw [drained] at ended
    have none : c.needsBuffer = false := by rw [Ctx.needsBuffer, kind]; rfl
    have here : ((s.clearWire c.seg).seg c.seg).holder = some (.chain m.id) := by
      rw [State.clearWire, State.seg_updSeg_same]
      exact held
    obtain ⟨ready, goes⟩ := delivers.endCommand distinct active here chain none .success
    exact ⟨_, congrArg done ended, ready, goes⟩
  · subst seg
    have delivers : Delivers s (s.retire tag) c c :=
      ⟨.of_eq rfl, .of_eq rfl, fun e _ => .of_segs rfl rfl, fun _ => rfl, fun _ => rfl, hc, rfl, rfl, rfl, rfl⟩
    have written : s.bufferWritten c.num tag ok = ((s.retire tag).becomeReady c.num (if ok then st else .bufferError)).memberEnded c
        (if ok then st else .bufferError) := by
      rw [State.bufferWritten, ctx_of_mem distinct hc]
      dsimp only
      rw [if_pos buffer, chain]
      dsimp only
      rw [held, status]
      exact if_pos (beq_self_eq_true _)
    have here : ((s.retire tag).seg c.seg).holder = some (.chain m.id) := held
    refine ⟨_, congrArg done written, ?_⟩
    generalize ends : (if ok = true then st else Status.bufferError) = e
    cases success : e.isSuccess with
    | true =>
      rw [memberEnded_success success]
      obtain ⟨ready, goes⟩ := delivers.goesOn distinct active here e
      have good : ok = true ∧ st.isSuccess = true := by
        subst ends
        cases ok with
        | true => exact ⟨rfl, success⟩
        | false => exact nomatch success
      exact ⟨ready, by rwa [if_pos good]⟩
    | false =>
      rw [memberEnded_failure chain success]
      obtain ⟨ready, fails⟩ := delivers.fails distinct active here e
      have bad : ¬ (ok = true ∧ st.isSuccess = true) := fun ⟨h, good⟩ => by
        rw [← ends, if_pos h, good] at success
        exact nomatch success
      exact ⟨ready, by rwa [if_neg bad]⟩

end Sys2Proof.Machine
end

section
/-! PROOFS. DELETE_SQ: every context of the queue ends, and the command completes after the last (R174, R175). -/

namespace Sys2Proof.Machine

set_option Elab.async false -- one thread elaborates: the checker's memory is limited

/-! ### A queue while a step settles -/

/-- From `s` to `t` the queue changes at most its staging slot, and not even that with none of its contexts out of
FREE. -/
def Restages (q : SqId) (s t : State) : Prop :=
  (∃ l, t.sq q = { s.sq q with staging := l }) ∧
    ((∀ c ∈ s.ctxs, c.sq ≠ q) → t.sq q = s.sq q ∧ ∀ c ∈ t.ctxs, c.sq ≠ q)

theorem Restages.refl (q : SqId) (s : State) : Restages q s s := ⟨⟨(s.sq q).staging, rfl⟩, fun h => ⟨rfl, h⟩⟩

theorem Restages.trans {q : SqId} {s t u : State} (h : Restages q s t) (k : Restages q t u) : Restages q s u := by
  obtain ⟨⟨l, first⟩, vacant⟩ := h
  obtain ⟨⟨m, second⟩, vacant'⟩ := k
  refine ⟨⟨m, by rw [second, first]⟩, fun none => ?_⟩
  obtain ⟨same, none⟩ := vacant none
  obtain ⟨same', none⟩ := vacant' none
  exact ⟨same'.trans same, none⟩

theorem Restages.of_eq {q : SqId} {s t : State} (sqs : t.sqs = s.sqs) (ctxs : t.ctxs = s.ctxs) : Restages q s t := by
  have same : t.sq q = s.sq q := congrArg (fun v => v.get q) sqs
  exact ⟨⟨(s.sq q).staging, by rw [same]⟩, fun none => ⟨same, by rwa [ctxs]⟩⟩

theorem Restages.foldl {β : Type} {q : SqId} {f : State → β → State} (h : ∀ s b, Restages q s (f s b)) (l : List β)
    (s : State) : Restages q s (l.foldl f s) := by
  induction l generalizing s with
  | nil => exact .refl q s
  | cons b l ih => exact (h s b).trans (ih _)

/-- The update of one context and of the staging slot of its queue. -/
theorem Restages.of_ctx {q : SqId} {s t : State} {c : Ctx} {f : Sq → Sq} (hc : c ∈ s.ctxs) (kin : Kin s t)
    (sqs : t.sqs = (s.updSq c.sq f).sqs) (staging : ∀ x, ∃ l, f x = { x with staging := l }) : Restages q s t := by
  have sq : t.sq q = (s.updSq c.sq f).sq q := congrArg (fun v => v.get q) sqs
  rw [State.sq_updSq] at sq
  refine ⟨?_, fun none => ⟨?_, fun d hd => ?_⟩⟩
  · split at sq
    · next same =>
      subst same
      obtain ⟨l, eq⟩ := staging (s.sq c.sq)
      exact ⟨l, sq.trans eq⟩
    · exact ⟨(s.sq q).staging, sq⟩
  · rwa [if_neg (none c hc)] at sq
  · obtain ⟨e, he, -, same, -⟩ := kin d hd
    exact same ▸ none e he

theorem Sq.unstage_restages (x : Sq) (n : CtxNum) : ∃ l, x.unstage n = { x with staging := l } := by
  unfold Sq.unstage
  split
  · split
    · exact ⟨none, rfl⟩
    · exact ⟨x.staging, rfl⟩
  · exact ⟨x.staging, rfl⟩

section

variable (q : SqId) (s : State)

theorem restages_becomeReady (n : CtxNum) (st : Status) : Restages q s (s.becomeReady n st) := by
  have kin := kin_becomeReady s n st
  revert kin
  unfold State.becomeReady
  split
  next => exact fun _ => .refl q s
  next c hc =>
    intro kin
    refine .of_ctx (ctx_mem hc).1 kin (f := (·.unstage c.num)) ?_ (Sq.unstage_restages · c.num)
    dsimp only
    split <;> rfl

theorem restages_releaseFence (n : CtxNum) : Restages q s (s.releaseFence n) := by
  unfold State.releaseFence
  split
  next => exact .refl q s
  next =>
    split
    · exact restages_becomeReady q s n .success
    · exact .refl q s

theorem restages_place (n : CtxNum) : Restages q s (s.place n) := by
  have kin := kin_place s n
  revert kin
  unfold State.place
  split
  next => exact fun _ => .refl q s
  next c hc =>
    split
    · exact fun kin => .of_ctx (ctx_mem hc).1 kin (f := (·.unstage n)) rfl (Sq.unstage_restages · n)
    · exact fun kin => .of_ctx (ctx_mem hc).1 kin
        (f := fun x => { x with staging := some { ctx := n, waitsLock := false } }) rfl fun _ => ⟨_, rfl⟩

theorem restages_moveStaged (n : CtxNum) : Restages q s (s.moveStaged n) := by
  unfold State.moveStaged
  split
  next => exact .refl q s
  next =>
    split
    · exact restages_place q s n
    · exact .refl q s

theorem restages_reachMember (g : SegId) : Restages q s (s.reachMember g) := by
  unfold State.reachMember
  split
  next =>
    split
    next => exact .of_eq rfl rfl
    next c _ _ =>
      split
      · refine ⟨⟨(s.sq q).staging, rfl⟩, fun none => ⟨rfl, fun d hd => ?_⟩⟩
        obtain ⟨e, he, -, same, -⟩ := kin_updCtx s c.num (f := fun c => { c with state := .active })
          (fun _ => ⟨rfl, rfl, rfl, rfl⟩) d hd
        exact same ▸ none e he
      · exact .refl q s
  next => exact .refl q s

theorem restages_lockChance (p : SqId) : Restages q s (s.lockChance p) := by
  unfold State.lockChance
  split
  next n _ =>
    split
    · have taken : Restages q s (s.takeLock n) := by
        unfold State.takeLock
        split
        next => exact .refl q s
        next =>
          split
          next => exact .refl q s
          next => exact (Restages.of_eq rfl rfl).trans (restages_place q _ n)
      exact taken.trans (.of_eq rfl rfl)
    · exact .refl q s
  next => exact .refl q s

theorem restages_offerTurns (l : List SqId) : Restages q s (State.offerTurns l s) := by
  induction l generalizing s with
  | nil => exact .refl q s
  | cons p l ih =>
    rw [State.offerTurns]
    split
    · exact (restages_lockChance q s p).trans (.of_eq rfl rfl)
    · refine (restages_lockChance q s p).trans (Restages.trans ?_ (ih _))
      split
      · exact .of_eq rfl rfl
      · exact .refl q _

theorem restages_ioFetch : Restages q s s.ioFetch := by
  have turn : Restages q s s.endTurnIfOver := by
    unfold State.endTurnIfOver
    split
    · exact .refl q s
    · split
      · exact .of_eq rfl rfl
      · exact .refl q s
  unfold State.ioFetch
  dsimp only
  split
  · exact turn
  · split
    · exact turn.trans (.of_eq rfl rfl)
    · exact turn.trans (restages_offerTurns q _ _)

end

/-! ### The deletion completes -/

/-- What follows once a deletion that is over has completed. -/
def State.settleRest (s : State) : State := s.postAll.issueEvent.adminFetch.ioFetch.pauseIfQuiet

theorem settle_members_rest (s : State) :
    s.settle = s.releaseFences.moveAllStaged.reachMembers.deleteIfOver.settleRest := rfl

theorem restages_settleRest (q : SqId) (s : State) : Restages q s s.settleRest := by
  have writes : Restages q s s.postAll.issueEvent.adminFetch := .of_eq (by simp) (by simp)
  have paused (u : State) : Restages q u u.pauseIfQuiet := .of_eq (by simp) (by simp)
  exact (writes.trans (restages_ioFetch q _)).trans (paused _)

theorem restages_members (q : SqId) (s : State) : Restages q s s.releaseFences.moveAllStaged.reachMembers :=
  ((Restages.foldl (restages_releaseFence q) _ s).trans (Restages.foldl (restages_moveStaged q) _ _)).trans
    (Restages.foldl (restages_reachMember q) _ _)

theorem settleRest_adm (s : State) : s.settleRest.adm.ctx = s.adm.ctx := by
  have last (u : State) : u.ioFetch.pauseIfQuiet.adm = u.adm := by simp
  have first : s.postAll.issueEvent.adm = s.adm := by simp
  rw [State.settleRest, last, adminFetch_ctx, first]

theorem settleRest_owes {s : State} {c : CqId} {i : ReadyItem} (h : (s.cq c).owes i) : (s.settleRest.cq c).owes i := by
  have last (u : State) : u.issueEvent.adminFetch.ioFetch.pauseIfQuiet.cqs = u.cqs := by simp
  have posted : (s.postAll.cq c).owes i := foldl_owes _ (fun _ _ h => owes_post _ h) _ h
  unfold State.settleRest
  exact owes_of_cqs (last _) posted

section

variable {u : State} {q : SqId} {r : Record}

theorem deletingQueue_of_waiting (waits : u.adminWaiting r (.deletingSq q)) : u.deletingQueue = some q := by
  rw [State.deletingQueue, waits]

theorem deletionOver_iff : u.deletionOver q = true ↔
    (∀ c ∈ u.ctxs, c.sq ≠ q) ∧ ∀ rd, u.arb.read = some rd → rd.sq ≠ q := by
  unfold State.deletionOver
  rw [Bool.and_eq_true, List.all_eq_true]
  refine and_congr (by simp) ?_
  cases u.arb.read <;> simp

theorem members_same (u : State) : u.releaseFences.moveAllStaged.reachMembers.adm = u.adm ∧
    u.releaseFences.moveAllStaged.reachMembers.arb = u.arb := by
  constructor <;> simp

theorem members_sq_state (u : State) (q : SqId) :
    (u.releaseFences.moveAllStaged.reachMembers.sq q).state = (u.sq q).state := by
  obtain ⟨⟨l, eq⟩, -⟩ := restages_members q u
  exact (congrArg Sq.state eq :)

theorem cq_state_of_standing {s t : State} (h : t.standing = s.standing) (k : CqId) : (t.cq k).state = (s.cq k).state := by
  have same : (t.cq k).standing = (s.cq k).standing := by rw [← standing_cq, ← standing_cq, h]
  exact (congrArg Cq.state same :)

/-- With no context of the queue out of FREE and no read of it outstanding, the queue is ABSENT and the command completes
(R175). -/
theorem settle_deletes (waits : u.adminWaiting r (.deletingSq q)) (deleting : (u.sq q).state = .deleting)
    (ctxs : ∀ c ∈ u.ctxs, c.sq ≠ q) (read : ∀ rd, u.arb.read = some rd → rd.sq ≠ q) (active : (u.cq 0).state = .active) :
    u.settle.adminCompleted r .success none ∧ u.settle.sq q = Sq.absent := by
  obtain ⟨adm, arb⟩ := members_same u
  have state := (members_sq_state u q).trans deleting
  have vacant := ((restages_members q u).2 ctxs).2
  have cq : (u.releaseFences.moveAllStaged.reachMembers.cq 0).state = .active := by
    have stands : u.releaseFences.moveAllStaged.reachMembers.standing = u.standing := by simp
    exact (cq_state_of_standing stands 0).trans active
  rw [settle_members_rest]
  generalize u.releaseFences.moveAllStaged.reachMembers = m at *
  have waits : m.adminWaiting r (.deletingSq q) := (congrArg Admin.ctx adm).trans waits
  have over' : m.deletionOver q = true := deletionOver_iff.2 ⟨vacant, by rwa [arb]⟩
  have deleted : m.deleteIfOver = (m.setSq q Sq.absent).adminDone .success none := by
    rw [State.deleteIfOver, deletingQueue_of_waiting waits]
    exact if_pos ⟨state, over'⟩
  have after : m.deleteIfOver.ctxs = m.ctxs ∧ m.deleteIfOver.sq q = Sq.absent ∧
      m.deleteIfOver.adm.ctx = some { record := r, progress := .completed, status := some .success, result := none } ∧
      (m.deleteIfOver.cq 0).owes .admin := by
    have here : (m.setSq q Sq.absent).adm.ctx = _ := waits
    have open' : ((m.setSq q Sq.absent).cq 0).state = .active := cq
    rw [deleted, State.adminDone, here]
    dsimp only
    rw [if_pos open']
    refine ⟨rfl, (State.sq_setSq m q q Sq.absent).trans (if_pos rfl), rfl, .inl ?_⟩
    rw [State.cq_updCq_same]
    exact List.mem_append_right _ (List.mem_singleton.2 rfl)
  obtain ⟨ctxs, sq, adm, owes⟩ := after
  generalize m.deleteIfOver = w at *
  exact ⟨⟨(settleRest_adm w).trans adm, settleRest_owes owes⟩,
    ((restages_settleRest q w).2 (ctxs ▸ vacant)).1.trans sq⟩

/-- While a context of the queue is out of FREE or a read of it is outstanding, the command waits (R174, R175). -/
theorem settle_deleting (waits : u.adminWaiting r (.deletingSq q)) (deleting : (u.sq q).state = .deleting)
    (left : (u.distinct ∧ ∃ c ∈ u.ctxs, c.sq = q ∧ c.calm) ∨ ∃ rd, u.arb.read = some rd ∧ rd.sq = q) :
    u.settle.adminWaiting r (.deletingSq q) ∧ (u.settle.sq q).state = .deleting := by
  obtain ⟨adm, arb⟩ := members_same u
  have state := (members_sq_state u q).trans deleting
  have left : ¬ u.releaseFences.moveAllStaged.reachMembers.deletionOver q = true := fun over' => by
    obtain ⟨none, read⟩ := deletionOver_iff.1 over'
    obtain ⟨distinct, c, hc, same, calm⟩ | ⟨rd, waits, same⟩ := left
    · have keeps := ((keeps_releaseFences u).trans (keeps_moveAllStaged _)).trans (keeps_reachMembers _)
      exact none c (keeps.calm distinct c hc calm) same
    · exact read rd (by rwa [arb]) same
  rw [settle_members_rest]
  generalize u.releaseFences.moveAllStaged.reachMembers = m at *
  have waits : m.adminWaiting r (.deletingSq q) := (congrArg Admin.ctx adm).trans waits
  have still : m.deleteIfOver = m := by
    rw [State.deleteIfOver, deletingQueue_of_waiting waits]
    exact if_neg fun h => left h.2
  rw [still]
  refine ⟨(settleRest_adm m).trans waits, ?_⟩
  obtain ⟨⟨l, eq⟩, -⟩ := restages_settleRest q m
  exact (congrArg Sq.state eq :).trans state

end

/-! ### The contexts of a queue -/

theorem State.tornDown.congr {r s t : State} {c : Ctx} {st : Status} (wires : ∀ g, (s.seg g).wire = (r.seg g).wire)
    (bounds : ∀ q, (s.sq q).bound = (r.sq q).bound) (cqs : ∀ k, (s.cq k).state = (r.cq k).state)
    (torn : s.tornDown t c st) : r.tornDown t c st := by
  unfold State.tornDown State.notRunning State.running State.onWire at *
  rwa [wires, bounds, cqs] at torn

theorem kin_finish (s : State) (n : CtxNum) (st : Status) : Kin s (s.finish n st) := by
  unfold State.finish
  split
  next => exact .refl s
  next c _ =>
    split
    · exact (Kin.of_eq rfl).trans ((kin_updCtx (s.issue (.buffer c.num) c.record.address c.stagedBytes) c.num
        (f := (·.asWriting st s.link.next)) fun _ => ⟨rfl, rfl, rfl, rfl⟩).trans (.of_eq rfl))
    · exact kin_becomeReady s n st

theorem kin_tearDownCtx (st : Status) (s : State) (n : CtxNum) : Kin s (State.tearDownCtx st s n) := by
  have cancels : Kin s (State.cancel st s n) := by
    cases hc : s.ctx n with
    | none =>
      rw [State.cancel, hc]
      exact .refl s
    | some c =>
      obtain ⟨f, -, -, cancelled⟩ := cancel_eq st hc
      rw [cancelled]
      exact (Kin.of_eq rfl).trans (kin_finish (s.updSeg c.seg f) n st)
  unfold State.tearDownCtx
  split
  next => exact .refl s
  next c _ =>
    split
    next => exact .refl s
    next =>
      split
      · exact .refl s
      · split
        · exact kin_updCtx s n fun _ => ⟨rfl, rfl, rfl, rfl⟩
        · exact cancels
    next => exact cancels

/-- A context that is torn down is still out of FREE, unless its completion queue is not ACTIVE. -/
theorem State.tornDown.exists {s t : State} {c : Ctx} {st : Status} (torn : s.tornDown t c st)
    (active : (s.cq (s.sq c.sq).bound).state = .active) : ∃ d ∈ t.ctxs, d.num = c.num ∧ d.calm := by
  obtain ⟨ends, marks, left⟩ := torn
  by_cases idle : s.notRunning c
  · have cancelled := ends active idle
    unfold State.cancelledAs at cancelled
    split at cancelled
    · obtain ⟨d, hd, m, -, num, state, -⟩ := cancelled
      exact ⟨d, hd, num, by simp [state], by simp [state], by simp [state]⟩
    · obtain ⟨⟨d, hd, num, -, -, -, state, -⟩, -⟩ := cancelled
      exact ⟨d, hd, num, by simp [state], by simp [state], by simp [state]⟩
  · by_cases running : s.running c
    · obtain ⟨state, -⟩ := id running
      exact ⟨_, marks running, rfl, by simp [state], by simp [state], by simp [state]⟩
    · exact ⟨c, left idle running, rfl, (ended_of_neither idle running).calm⟩

/-- The state in which DELETE_SQ ends the contexts of its queue (R174). -/
def State.stopped (s : State) (q : SqId) : State := (s.updSq q fun x => { x with state := .deleting }).releaseLock q

section

variable (s : State) (q : SqId)

theorem stopped_same : (s.stopped q).ctxs = s.ctxs ∧ (s.stopped q).segs = s.segs ∧ (s.stopped q).cqs = s.cqs ∧
    (s.stopped q).arb = s.arb ∧ (s.stopped q).adm = s.adm := by
  unfold State.stopped State.releaseLock
  split
  · split <;> exact ⟨rfl, rfl, rfl, rfl, rfl⟩
  · exact ⟨rfl, rfl, rfl, rfl, rfl⟩

theorem stopped_sq (p : SqId) : (s.stopped q).sq p = if q = p then { s.sq p with state := .deleting } else s.sq p := by
  have same : (s.stopped q).sqs = (s.updSq q fun x => { x with state := .deleting }).sqs := by
    unfold State.stopped State.releaseLock
    split
    · split <;> rfl
    · rfl
  exact (congrArg (fun v => v.get p) same).trans (State.sq_updSq s q p _)

theorem stopped_bound (p : SqId) : ((s.stopped q).sq p).bound = (s.sq p).bound := by
  rw [stopped_sq]
  split <;> rfl

theorem startDelete_eq : s.startDelete q =
    (((s.stopped q).ctxsOf q).foldl (State.tearDownCtx .queueDeleted) (s.stopped q)).adminWaits (.deletingSq q) := rfl

/-- DELETE_SQ leaves what stands but for its queue, which counts as ABSENT. -/
theorem stopped_standing : (s.stopped q).standing = (s.setSq q Sq.absent).standing := by
  rw [State.stopped, releaseLock_standing]
  change (s.setSq q { s.sq q with state := .deleting }).standing = _
  rw [setSq_standing, setSq_standing]
  rfl

end

section

variable {s : State} {tag : Nat} {r : Record} {q : SqId}

/-- The queue is DELETING, and the command waits. -/
theorem startDelete_waits (adm : s.adm.ctx = some { record := r, progress := .executing, status := none, result := none }) :
    (s.startDelete q).adminWaiting r (.deletingSq q) ∧ ((s.startDelete q).sq q).state = .deleting ∧
      (s.startDelete q).arb = s.arb ∧ ∀ k, ((s.startDelete q).cq k).state = (s.cq k).state := by
  obtain ⟨-, -, cqs, arb, here⟩ := stopped_same s q
  have state : ((s.stopped q).sq q).state = .deleting := by rw [stopped_sq, if_pos rfl]
  have same := core_tearDownAll .queueDeleted ((s.stopped q).ctxsOf q) (s.stopped q)
  rw [startDelete_eq]
  refine ⟨?_, (sq_state_of_core same q).trans state, ?_, fun k => ?_⟩
  · have torn : (((s.stopped q).ctxsOf q).foldl (State.tearDownCtx .queueDeleted) (s.stopped q)).adm = s.adm :=
      (congrArg State.adm same :).trans here
    unfold State.adminWaiting State.adminWaits
    dsimp only
    rw [torn, adm]
    rfl
  · exact (congrArg State.arb same :).trans arb
  · exact (cq_state_of_core same k).trans (congrArg (fun v => (v.get k).state) cqs)

/-- A queue with no context out of FREE is ABSENT at once (R175). -/
theorem startDelete_none (none : ∀ c ∈ s.ctxs, c.sq ≠ q) : s.startDelete q = (s.stopped q).adminWaits (.deletingSq q) := by
  have empty : (s.stopped q).ctxsOf q = [] := by
    rw [State.ctxsOf, (stopped_same s q).1]
    simpa using none
  rw [startDelete_eq, empty]
  rfl

/-- Each context of the queue ends, is marked or is left (R174; log entries 24, 25). -/
theorem startDelete_tornDown (distinct : s.distinct) {c : Ctx} (hc : c ∈ s.ctxs) (own : c.sq = q) :
    s.tornDown (s.startDelete q) c .queueDeleted := by
  obtain ⟨ctxs, segs, cqs, -⟩ := stopped_same s q
  have still : (s.stopped q).distinct := by rwa [State.distinct, ctxs]
  have listed : c.num ∈ (s.stopped q).ctxsOf q :=
    List.mem_map.2 ⟨c, List.mem_filter.2 ⟨by rwa [ctxs], by simp [own]⟩, rfl⟩
  have torn := tearDownAll_tornDown still (still.sublist (List.filter_sublist.map _)) (by rwa [ctxs]) listed .queueDeleted
  refine State.tornDown.congr (s := s.stopped q) (fun g => ?_) (stopped_bound s q) (fun k => ?_) ?_
  · exact congrArg (fun v => (v.get g).wire) segs
  · exact congrArg (fun v => (v.get k).state) cqs
  · exact torn.onward (.of_eq rfl rfl rfl) ((shrinks_tearDownAll _ _ _).distinct still) fun d hd _ _ => hd

/-- Contexts of other queues are left. -/
theorem startDelete_spares {d : Ctx} (distinct : s.distinct) (hd : d ∈ s.ctxs) (other : d.sq ≠ q) :
    d ∈ (s.startDelete q).ctxs := by
  obtain ⟨ctxs, -⟩ := stopped_same s q
  refine (spares_tearDownAll (fun listed => other ?_) .queueDeleted (s.stopped q) (by rwa [ctxs])).1
  obtain ⟨e, he, num⟩ := List.mem_map.1 listed
  obtain ⟨he, own⟩ := List.mem_filter.1 (he : e ∈ (s.stopped q).ctxs.filter _)
  obtain rfl := eq_of_num distinct (ctxs ▸ he) hd num
  simpa using own

theorem kin_startDelete (s : State) (q : SqId) : Kin s (s.startDelete q) :=
  ((Kin.of_eq (stopped_same s q).1).trans (Kin.foldl (kin_tearDownCtx .queueDeleted) _ _)).trans (.of_eq rfl)

end

theorem runDeleteSq_eq {r : Record} {q : SqId} (id : ioSqOfByte (r.byte 4) = some q) (s : State) :
    runDeleteSq r s = if (s.sq q).state = .absent then s.adminDone .queueAbsent none else s.startDelete q := by
  rw [runDeleteSq, id]

/-- Settles O25: the contexts of the queue are torn down, and the deletion is over when none is left. -/
theorem deleteSqOutcomes : Obligations.DeleteSqOutcomes := by
  refine ⟨fun tag b s => ?_, fun q tag r s waits deleting active => ⟨fun k n flight alone read => ?_, fun read none => ?_⟩⟩
  · intro r takes
    refine ⟨_, done_adminEntry runDeleteSq takes, fun bad => ?_, fun q io id => ?_⟩
    · rw [runDeleteSq, ioSqOfByte_none bad]
      exact adminDone_only takes _
    · rw [runDeleteSq_eq (ioSqOfByte_some io id), entered_sq_state]
      refine ⟨fun absent => ?_, fun present => ?_⟩
      · rw [if_pos absent]
        exact adminDone_only takes _
      · rw [if_neg present]
        have queue := entered_sq s tag (Record.of 0x41 b) q io
        have wires (g : SegId) : ((s.entered tag (Record.of 0x41 b)).seg g).wire = (s.seg g).wire := rfl
        have bounds := entered_sq_bound s tag (Record.of 0x41 b)
        have cqs (k : CqId) : ((s.entered tag (Record.of 0x41 b)).cq k).state = (s.cq k).state := rfl
        obtain ⟨waits, deleting, arb, cq⟩ := startDelete_waits (q := q) (entered_ctx s tag (Record.of 0x41 b))
        refine ⟨fun none read => ?_, fun ⟨rd, read, own⟩ => ?_, fun distinct open' => ?_⟩
        · have same := startDelete_none (s := s.entered tag (Record.of 0x41 b)) none
          have ctxs : ((s.entered tag (Record.of 0x41 b)).stopped q).ctxs = s.ctxs := (stopped_same (s.entered tag (Record.of 0x41 b)) q).1
          obtain ⟨completed, -⟩ := settle_deletes waits deleting (by rw [same]; exact fun c hc => none c ((congrArg (c ∈ ·) ctxs).mp hc)) (by rw [arb]; exact read)
            ((cq 0).trans takes.cq)
          refine ⟨completed, ?_⟩
          rw [settle_standing, same, standing_adminWaits, stopped_standing, entered_setSq_standing]
        · exact settle_deleting waits deleting (.inr ⟨rd, by rwa [arb], own⟩)
        · have distinct : (s.entered tag (Record.of 0x41 b)).distinct := distinct
          have torn (c : Ctx) (hc : c ∈ s.ctxs) (own : c.sq = q) :=
            (startDelete_tornDown (s := s.entered tag (Record.of 0x41 b)) distinct hc own).congr wires bounds cqs
          have kin := kin_startDelete (s.entered tag (Record.of 0x41 b)) q
          have still := (shrinks_startDelete (s.entered tag (Record.of 0x41 b)) q).distinct distinct
          have spares (c : Ctx) (hc : c ∈ s.ctxs) (other : c.sq ≠ q) :=
            startDelete_spares (s := s.entered tag (Record.of 0x41 b)) distinct hc other
          generalize (s.entered tag (Record.of 0x41 b)).startDelete q = u at *
          refine ⟨fun ⟨c, hc, own⟩ => ?_, fun c hc => ⟨fun own idle => ?_, fun own running => ?_, fun own idle running => ?_,
            fun other calm => (settle_keeps u).calm still c (spares c hc other) calm⟩⟩
          · obtain ⟨d, hd, num, calm⟩ := (torn c hc own).exists (by rwa [own])
            obtain ⟨e, he, same, sq, -⟩ := kin d hd
            obtain rfl := eq_of_num distinct he hc (same.trans num)
            exact settle_deleting waits deleting (.inl ⟨still, d, hd, sq.symm.trans own, calm⟩)
          · have ends := ((torn c hc own).settle still).1
            rw [own] at ends
            exact ends open' idle
          · exact ((torn c hc own).settle still).2.1 running
          · exact ((torn c hc own).settle still).2.2 idle running
  · obtain ⟨u, hu, vacant, adm, sq, cq, arb⟩ : ∃ u, s.postingDone k tag = u ∧ (∀ c ∈ u.ctxs, c.sq ≠ q) ∧ u.adm = s.adm ∧
        u.sq q = s.sq q ∧ (u.cq 0).state = (s.cq 0).state ∧ u.arb = s.arb := by
      have freed (c : Ctx) (hc : c ∈ s.ctxs.filter fun c => c.num ≠ n) : c.sq ≠ q := fun own => by
        obtain ⟨hc, other⟩ := List.mem_filter.1 hc
        exact absurd (alone c hc own) (by simpa using other)
      have zero (x : Cq) (same : x.state = (s.cq k).state) : (((s.retire tag).setCq k x).cq 0).state = (s.cq 0).state := by
        rw [State.cq_setCq]
        split
        · next here => rw [same, here]
        · rfl
      have same (u : State) : (u.handVector (s.cq k).vector).ctxs = u.ctxs ∧ (u.handVector (s.cq k).vector).adm = u.adm ∧
          (u.handVector (s.cq k).vector).sq q = u.sq q ∧
          ((u.handVector (s.cq k).vector).cq 0).state = (u.cq 0).state ∧
          (u.handVector (s.cq k).vector).arb = u.arb := by simp
      by_cases posts : (s.cq k).state = .active
      · refine ⟨_, postingDone_active flight posts, fun c hc => freed c ?_, ?_, ?_, ?_, ?_⟩
        · rwa [(same _).1] at hc
        · exact (same _).2.1
        · exact (same _).2.2.1
        · exact ((same _).2.2.2.1).trans (zero (s.cq k).posted rfl)
        · exact (same _).2.2.2.2
      · exact ⟨_, postingDone_closed flight posts, freed, rfl, rfl, zero _ rfl, rfl⟩
    have waits : u.adminWaiting r (.deletingSq q) := (congrArg Admin.ctx adm).trans waits
    obtain ⟨completed, absent⟩ := settle_deletes waits (sq ▸ deleting) vacant (by rwa [arb]) (cq.trans active)
    exact ⟨_, congrArg done hu, completed, absent⟩
  · have discarded : s.readDiscarded q tag = s.discardRead tag :=
      (if_neg fun h => by simp [deleting] at h).trans (if_pos read)
    obtain ⟨completed, absent⟩ := settle_deletes (u := s.discardRead tag) waits deleting none (fun rd => nofun) active
    exact ⟨_, congrArg done discarded, completed, absent⟩

end Sys2Proof.Machine
end

section
/-! PROOFS. ABORT acts on the context it has found, according to its state (R169 to R173). -/

namespace Sys2Proof.Machine

set_option Elab.async false -- one thread elaborates: the checker's memory is limited

/-- With no DELETE_SQ in execution, a queue changes at most its staging slot while a step settles. -/
theorem restages_settle {s : State} (q : SqId) (h : s.deletingQueue = none) : Restages q s s.settle := by
  have members := restages_members q s
  have adm := (members_same s).1
  rw [settle_members_rest]
  generalize s.releaseFences.moveAllStaged.reachMembers = m at *
  have still : m.deleteIfOver = m := by
    rw [State.deleteIfOver, deletingQueue_congr (congrArg Admin.ctx adm), h]
  rw [still]
  exact members.trans (restages_settleRest q m)

theorem abortCtx_idle {s : State} {c : Ctx} (idle : s.notRunning c) : s.abortCtx c = (s.endAborted c.num, .success) := by
  obtain ⟨ready, free⟩ := idle
  unfold State.abortCtx
  split
  next h => exact absurd h ready
  next active =>
    obtain ⟨buffer, wire⟩ := free active
    rw [if_neg (by simp [buffer]), if_neg (by simp [wire])]
  next => rfl

theorem abortCtx_running {s : State} {c : Ctx} (running : s.running c) : s.abortCtx c =
    if c.lastRequest then (s, .abortTooLate)
    else (s.updCtx c.num fun c => { c with mark := c.mark <|> some .aborted }, .success) := by
  obtain ⟨active, buffer, wire⟩ := running
  unfold State.abortCtx
  rw [active]
  dsimp only
  rw [if_neg (by simp [buffer]), if_pos wire]

theorem abortCtx_ended {s : State} {c : Ctx} (ended : c.ended) : s.abortCtx c = (s, .abortTooLate) := by
  unfold State.abortCtx
  obtain ready | ⟨active, buffer⟩ := ended
  · rw [ready]
  · rw [active]
    exact if_pos (Option.isSome_iff_ne_none.2 buffer)

/-- ABORT ends a member: the context, and then its chain (R172). -/
theorem endAborted_member {s : State} {c : Ctx} {m : ChainMember} (hc : s.ctx c.num = some c) (chain : c.chain = some m) :
    s.endAborted c.num = (State.cancel .aborted s c.num).abortChain m.id := by
  rw [State.endAborted, hc]
  dsimp only
  rw [chain]

theorem onward_adminDone_settle (s : State) (st : Status) (v : Option Half) : Onward s (s.adminDone st v).settle :=
  (onward_adminDone s st v).trans (onward_settle _)

theorem adminDone_ctxs (s : State) (st : Status) (v : Option Half) : (s.adminDone st v).ctxs = s.ctxs := by
  unfold State.adminDone
  (repeat' split) <;> rfl

theorem adminDone_settle_calm {s : State} {c : Ctx} (distinct : s.distinct) (hc : c ∈ s.ctxs) (calm : c.calm) (st : Status)
    (v : Option Half) : c ∈ (s.adminDone st v).settle.ctxs := by
  have ctxs := adminDone_ctxs s st v
  exact (settle_keeps _).calm (by rwa [State.distinct, ctxs]) c (by rwa [ctxs]) calm

theorem onward_endAborted {s : State} {c : Ctx} (distinct : s.distinct) (hc : c ∈ s.ctxs) :
    Onward (State.cancel .aborted s c.num) (s.endAborted c.num) := by
  cases chain : c.chain with
  | none =>
    rw [endAborted_alone (ctx_of_mem distinct hc) chain]
    exact .refl _
  | some m =>
    rw [endAborted_member (ctx_of_mem distinct hc) chain]
    exact onward_abortChain ((shrinks_cancel .aborted s c.num).distinct distinct) m.id

theorem sq_mapSqs_chain {s : State} {p : SqId} {id : Nat} {o : OpenChain} (opened : ((s.abortChain id).sq p).chain = some o)
    (same : o.id = id) : o.failed = true := by
  rw [State.abortChain, State.sq_mapSqs] at opened
  exact Sq.failChain_failed opened same

section

variable {e : State} {c : Ctx} {v : Option Half}

/-- ABORT on a context that is not running: it ends ABORTED (R170). -/
theorem abortIdle_cancelledAs (distinct : e.distinct) (hc : c ∈ e.ctxs)
    (active : (e.cq (e.sq c.sq).bound).state = .active) :
    ((e.endAborted c.num).adminDone .success v).settle.cancelledAs (e.sq c.sq).bound c .aborted :=
  cancelledAs_onward ((onward_endAborted distinct hc).trans (onward_adminDone_settle _ _ _))
    ((shrinks_cancel .aborted e c.num).distinct distinct) (cancel_cancelledAs distinct hc active .aborted)

/-- Outside chains ABORT leaves the other contexts (R170). -/
theorem abortIdle_keepsOthers (distinct : e.distinct) (hc : c ∈ e.ctxs) (alone : c.chain = none) :
    e.keepsOthers ((e.endAborted c.num).adminDone .success v).settle c.num ∧
      (e.endAborted c.num).standing = e.standing := by
  have ends := endsAlone_endAborted (ctx_of_mem distinct hc) alone
  obtain ⟨f, lists, stands, ended⟩ := ends
  have after : (e.endAborted c.num).distinct := (shrinks_endAborted e c.num).distinct distinct
  have spares (d : Ctx) (other : d.num ≠ c.num) : Spares d e ((e.endAborted c.num).adminDone .success v) := by
    refine Spares.trans (t := e.endAborted c.num) (ended ▸ released_finish_spares lists other .aborted) (.of_eq ?_ fun g => ?_)
    · exact adminDone_ctxs _ _ _
    · simp
  refine ⟨keepsOthers_of_spares ((shrinks_adminDone _ _ _).distinct after) fun d other _ => spares d other, ?_⟩
  rw [ended]
  exact released_finish_standing stands .aborted

/-- Each member of its chain that has not run ends CHAIN_ABORTED, and the others are left (R172, R173). -/
theorem abortIdle_members {m : ChainMember} (distinct : e.distinct) (hc : c ∈ e.ctxs) (chain : c.chain = some m) {d : Ctx}
    (hd : d ∈ e.ctxs) (other : d.num ≠ c.num) :
    (d.inChain m.id = true → d.unreached = true → (e.cq (e.sq d.sq).bound).state = .active →
      ((e.endAborted c.num).adminDone .success v).settle.cancelledAs (e.sq d.sq).bound d .chainAborted) ∧
    (d.unreached = false → d.calm → d ∈ ((e.endAborted c.num).adminDone .success v).settle.ctxs) := by
  have still := (shrinks_cancel .aborted e c.num).distinct distinct
  have here := (spares_cancel e other .aborted hd).1
  have same := core_cancel e c.num .aborted
  have ended := endAborted_member (ctx_of_mem distinct hc) chain
  rw [ended]
  refine ⟨fun member unreached active => ?_, fun reached calm => ?_⟩
  · have ends := abortChain_cancelledAs still here member unreached
      (by rw [bound_of_core same, cq_state_of_core same]; exact active)
    rw [bound_of_core same] at ends
    exact cancelledAs_onward (onward_adminDone_settle _ _ _) ((onward_abortChain still m.id).distinct still) ends
  · have left := (abortChain_other still (c := d) (id := m.id) (fun h => by simp [reached] at h) here).1
    exact adminDone_settle_calm ((onward_abortChain still m.id).distinct still) left calm _ _

end

theorem adminDone_deletingQueue {s : State} (st : Status) (v : Option Half) (busy : s.adm.ctx ≠ none)
    (active : (s.cq 0).state = .active) : (s.adminDone st v).deletingQueue = none := by
  cases adm : s.adm.ctx with
  | none => exact absurd adm busy
  | some a =>
    rw [State.adminDone, adm]
    dsimp only
    rw [if_pos active]
    rfl

theorem runAbort_found {r : Record} {q : SqId} {c : Ctx} {s : State} (id : ioSqOfByte (r.byte 4) = some q)
    (found : s.ctxs.find? (fun c => c.sq == q && c.record.ident == r.half 8) = some c) :
    runAbort r s = (s.abortCtx c).1.adminDone (s.abortCtx c).2 none := by
  rw [runAbort, id]
  dsimp only
  rw [found]

/-- Settles O26: ABORT's table, by the state of the context it finds. -/
theorem abortOutcomes : Obligations.AbortOutcomes := by
  intro tag b s r takes distinct
  have still : (s.entered tag r).distinct := distinct
  have bounds := entered_sq_bound s tag r
  refine ⟨_, done_adminEntry runAbort takes, fun bad => ?_, fun q io id => ⟨fun lacks => ?_, fun c found => ?_⟩⟩
  · rw [runAbort, ioSqOfByte_none bad]
    exact adminDone_only takes _
  · have nothing : (s.entered tag r).ctxs.find? (fun c => c.sq == q && c.record.ident == r.half 8) = none :=
      List.find?_eq_none.2 fun c hc => by simpa using lacks c hc
    rw [runAbort, ioSqOfByte_some io id]
    dsimp only
    rw [nothing]
    exact adminDone_only takes _
  · have hc : c ∈ s.ctxs := List.mem_of_find?_eq_some found
    have own : c.sq = q := by
      have test := List.find?_some found
      simp only [Bool.and_eq_true, beq_iff_eq] at test
      exact test.1
    rw [runAbort_found (s := s.entered tag r) (ioSqOfByte_some io id) found]
    refine ⟨fun idle active => ?_, fun running => ?_, fun idle running => ?_⟩
    · rw [abortCtx_idle (s := s.entered tag r) idle]
      dsimp only
      have active : ((s.entered tag r).cq ((s.entered tag r).sq c.sq).bound).state = .active := by
        rw [bounds, own]
        exact active
      have bound : (s.sq q).bound = ((s.entered tag r).sq c.sq).bound := by rw [bounds, own]
      have same := core_endAborted (s.entered tag r) c.num
      have adm : ((s.entered tag r).endAborted c.num).adm.ctx = (s.entered tag r).adm.ctx := (congrArg (·.adm.ctx) same :)
      have cq := cq_state_of_core same 0
      obtain ⟨completed, stands⟩ := adminDone_completed takes .success none adm cq
      refine ⟨completed, bound ▸ abortIdle_cancelledAs still hc active, fun alone => ?_, fun m chain => ⟨fun d hd other member => ?_,
        fun p o opened named => ?_⟩⟩
      · obtain ⟨others, standing⟩ := abortIdle_keepsOthers (v := none) still hc alone
        exact ⟨⟨completed, stands.trans standing⟩, others⟩
      · obtain ⟨ends, left⟩ := abortIdle_members (v := none) still hc chain hd other
        refine ⟨fun unreached open' => ?_, left⟩
        have ends := ends member unreached (by rw [bounds]; exact open')
        rwa [bounds] at ends
      · have idle := adminDone_deletingQueue .success none (s := (s.entered tag r).endAborted c.num) (by rw [adm]; nofun)
          (cq.trans takes.cq)
        obtain ⟨⟨l, settled⟩, -⟩ := restages_settle p idle
        rw [settled] at opened
        have sqs : (((s.entered tag r).endAborted c.num).adminDone .success none).sq p =
            ((s.entered tag r).endAborted c.num).sq p := by simp
        rw [sqs, endAborted_member (ctx_of_mem still hc) chain] at opened
        exact sq_mapSqs_chain opened named
    · rw [abortCtx_running (s := s.entered tag r) running]
      have active := running.1
      have calm : c.calm := by exact ⟨by simp [active], by simp [active], by simp [active]⟩
      by_cases last : c.lastRequest = true
      · rw [if_pos last, if_pos last]
        exact ⟨adminDone_only takes _, adminDone_settle_calm still hc calm _ _⟩
      · rw [if_neg last, if_neg last]
        obtain ⟨completed, stands⟩ := adminDone_completed takes .success none
          (u := (s.entered tag r).updCtx c.num fun c => { c with mark := c.mark <|> some .aborted }) rfl rfl
        refine ⟨⟨completed, stands⟩, adminDone_settle_calm ?_ (mem_updCtx (s := s.entered tag r) hc
          fun c => { c with mark := c.mark <|> some .aborted }) ?_ _ _⟩
        · exact (shrinks_updCtx (s.entered tag r) c.num (f := fun c => { c with mark := c.mark <|> some .aborted })
            fun _ => rfl).distinct still
        · exact ⟨by simp [active], by simp [active], by simp [active]⟩
    · have ended := ended_of_neither idle running
      rw [abortCtx_ended (s := s.entered tag r) ended]
      exact ⟨adminDone_only takes _, adminDone_settle_calm still hc ended.calm _ _⟩

end Sys2Proof.Machine
end

section
/-! PROOFS. A segment that leaves ACTIVE: its watches halt, each of its contexts ends, its internal work is dropped and its RESTORING
targets are given up (R129, R145, R176 to R179). -/

namespace Sys2Proof.Machine

set_option Elab.async false -- one thread elaborates: the checker's memory is limited

/-! ### The states of watches -/

/-- A watch by its configuration and its state. -/
def State.watchState (s : State) (w : WatchId) : Option (WatchCfg × WatchState) := (s.watch w).map fun x => (x.cfg, x.state)

theorem watchState_some {s : State} {w : WatchId} {x : Watch} (h : s.watch w = some x) :
    s.watchState w = some (x.cfg, x.state) := by rw [State.watchState, h]; rfl

theorem of_watchState_some {s : State} {w : WatchId} {p : WatchCfg × WatchState} (h : s.watchState w = some p) :
    ∃ x, s.watch w = some x ∧ x.cfg = p.1 ∧ x.state = p.2 := by
  obtain ⟨x, hx, rfl⟩ := Option.map_eq_some_iff.1 h
  exact ⟨x, hx, rfl, rfl⟩

theorem watchState_congr {s t : State} {w : WatchId} (h : t.watch w = s.watch w) : t.watchState w = s.watchState w := by
  rw [State.watchState, State.watchState, h]

/-- The state of a watch once the watches of a segment have halted (R129). -/
def haltedOn (g : SegId) (p : WatchCfg × WatchState) : WatchCfg × WatchState :=
  (p.1, if p.1.tgt.seg = g ∧ p.2 = .armed then .halted else p.2)

theorem haltedOn_armed {g : SegId} {p : WatchCfg × WatchState} (own : p.1.tgt.seg = g) : (haltedOn g p).2 ≠ .armed := by
  unfold haltedOn
  dsimp only
  split
  · nofun
  · next other => exact fun armed => other ⟨own, armed⟩

theorem haltedOn_other {g : SegId} {p : WatchCfg × WatchState} (other : p.1.tgt.seg ≠ g) : haltedOn g p = p := by
  rw [haltedOn, if_neg fun h => other h.1]

theorem haltWatches_watchState (s : State) (g : SegId) (w : WatchId) :
    (s.haltWatches g).watchState w = (s.watchState w).map (haltedOn g) := by
  have watch : (s.haltWatches g).watch w = (s.watch w).map fun x => if x.cfg.tgt.seg = g then x.halt else x :=
    State.watch_mapWatches s _ w
  rw [State.watchState, State.watchState, watch, Option.map_map, Option.map_map]
  refine congrArg (Option.map · (s.watch w)) (funext fun x => ?_)
  simp only [Function.comp_apply, haltedOn]
  by_cases own : x.cfg.tgt.seg = g
  · by_cases armed : x.state = .armed <;> by_cases poll : x.poll = .onWire <;> simp [own, Watch.halt, armed, poll]
  · simp [own]

theorem updWatch_watchState (s : State) (v w : WatchId) {f : Watch → Watch}
    (same : ∀ x, (f x).cfg = x.cfg ∧ (f x).state = x.state) : (s.updWatch v f).watchState w = s.watchState w := by
  rw [State.watchState, State.watch_updWatch]
  split
  · rw [Option.map_map]
    refine congrArg (Option.map · (s.watch w)) (funext fun x => ?_)
    obtain ⟨cfg, state⟩ := same x
    exact Prod.ext cfg state
  · rfl

theorem dropResponses_watchState (s : State) (g : SegId) (w : WatchId) :
    (s.dropResponses g).watchState w = s.watchState w := by
  rw [State.dropResponses]
  exact foldl_same (fun u : State => u.watchState w) _
    (fun u (r : RespWrite) => updWatch_watchState u r.watch w (f := fun x => { x with respPending := false }) fun _ => ⟨rfl, rfl⟩) _ _

theorem lossNotice_watchState (s : State) (t : Tgt) (w : WatchId) : (s.lossNotice t).watchState w = s.watchState w := by
  rw [State.lossNotice, State.watchState, State.watch_mapWatches, Option.map_map]
  refine congrArg (Option.map · (s.watch w)) (funext fun x => ?_)
  simp only [Function.comp_apply]
  split <;> rfl

theorem giveUpAll_watchState (s : State) (g : SegId) (cause : AbandonCause) (w : WatchId) :
    (s.giveUpAll g cause).watchState w = s.watchState w := by
  refine foldl_same (fun u : State => u.watchState w) _ (fun u t => ?_) _ _
  unfold State.giveUp
  split
  · rw [lossNotice_watchState]
    exact watchState_congr (by simp)
  · rfl

/-! ### Presence entries -/

theorem giveUp_pres (cause : AbandonCause) (s : State) (t x : Tgt) : (s.giveUp cause t).pres x =
    if x = t ∧ (s.pres x).state = .restoring then { s.pres x with state := .lost } else s.pres x := by
  unfold State.giveUp State.isRestoring
  by_cases restoring : (s.pres t).state = .restoring
  · rw [if_pos (by simp [restoring])]
    have kept (u : State) : ((u.abandonJob t cause).lossNotice t).pres x = u.pres x := by simp
    rw [kept, State.pres_setPres]
    by_cases same : x = t
    · subst same
      simp [restoring]
    · rw [if_neg fun h => same h.symm, if_neg fun h => same h.1]
  · rw [if_neg (by simp [restoring]), if_neg]
    rintro ⟨rfl, h⟩
    exact restoring h

/-- The RESTORING targets of a segment go to LOST, and no other (R32). -/
theorem giveUpAll_pres (s : State) (g : SegId) (cause : AbandonCause) (x : Tgt) : (s.giveUpAll g cause).pres x =
    if x.seg = g ∧ (s.pres x).state = .restoring then { s.pres x with state := .lost } else s.pres x := by
  have fold (l : List Tgt) : ∀ u : State, ((l.foldl (State.giveUp cause) u).pres x) =
      if x ∈ l ∧ (u.pres x).state = .restoring then { u.pres x with state := .lost } else u.pres x := by
    induction l with
    | nil => exact fun u => by simp
    | cons t l ih =>
      intro u
      rw [List.foldl_cons, ih, giveUp_pres]
      by_cases restoring : (u.pres x).state = .restoring
      · by_cases same : x = t
        · subst same
          simp [restoring]
        · simp [same, restoring]
      · simp [restoring]
  exact (fold (targetsOf g) s).trans (if_congr (and_congr_left' (mem_targetsOf_iff g x)) rfl rfl)

/-! ### The segment loses its work -/

/-- The watches of the segment halt, its contexts are ended and its response writes are dropped (R176, R179). -/
def State.strip (s : State) (g : SegId) (st : Status) : State :=
  (((s.haltWatches g).endContexts g st).dropResponses g).stopReplayRetries g

section

variable (s : State) (g : SegId) (st : Status)

theorem strip_seg_other {k : SegId} (other : g ≠ k) : ((s.strip g st).seg k).standing = (s.seg k).standing := by
  rw [State.strip, State.stopReplayRetries_seg, State.dropResponses_seg_other _ other]
  refine (seg_of_core (core_endContexts _ g st) k).trans ?_
  rw [State.haltWatches_seg_other _ other]

theorem strip_seg_same : ∃ l, ((s.strip g st).seg g).standing =
    { (s.seg g).standing with duePolls := [], respDelays := [], writes := l } := by
  obtain ⟨l, dropped⟩ := State.dropResponses_seg_same ((s.haltWatches g).endContexts g st) g
  refine ⟨l, ?_⟩
  rw [State.strip, State.stopReplayRetries_seg, dropped]
  have same := seg_of_core (core_endContexts (s.haltWatches g) g st) g
  rw [State.haltWatches_seg_same] at same
  exact congrArg (fun y : SegCtl => { y with respDelays := [], writes := l }) same

theorem strip_watchState (w : WatchId) : (s.strip g st).watchState w = (s.watchState w).map (haltedOn g) := by
  rw [State.strip]
  refine (dropResponses_watchState _ g w).trans ?_
  rw [← haltWatches_watchState]
  exact watchState_congr (by simp)

theorem strip_same : (s.strip g st).presence = s.presence ∧ (s.strip g st).adm = s.adm ∧ (s.strip g st).ctl = s.ctl ∧
    (s.strip g st).pool = s.pool ∧ (s.strip g st).irq = s.irq ∧ (s.strip g st).ev = s.ev := by
  simp [State.strip]

theorem strip_cq (k : CqId) : ((s.strip g st).cq k).state = (s.cq k).state := by
  have ended := cq_state_of_core (core_endContexts (s.haltWatches g) g st) k
  have rest (u : State) : ((u.dropResponses g).stopReplayRetries g).cq k = u.cq k := by simp
  rw [State.strip, rest, ended]
  simp

theorem strip_ctxs : (s.strip g st).ctxs = ((s.haltWatches g).endContexts g st).ctxs := by
  simp [State.strip]

theorem shrinks_strip : Shrinks s (s.strip g st) := by
  refine Shrinks.trans (t := (s.haltWatches g).endContexts g st) ?_ (.of_eq (strip_ctxs s g st))
  exact (Shrinks.of_eq (by simp)).trans ((shrinks_tearDownAll st _ (s.haltWatches g)).trans (.of_eq rfl))

end

section

variable {s : State} {g : SegId} {st : Status} {c : Ctx}

theorem onward_stripped (s : State) (g : SegId) (st : Status) : Onward ((s.haltWatches g).endContexts g st) (s.strip g st) :=
  .of_eq (by simp [State.strip]) (by simp [State.strip]) (by simp [State.strip])

/-- A context bound for the segment ends, takes the mark or is left (R176, R179; log entries 24, 25). -/
theorem strip_tornDown (distinct : s.distinct) (hc : c ∈ s.ctxs) (own : c.seg = g) (fence : c.state ≠ .fenceWait) :
    s.tornDown (s.strip g st) c st := by
  have halted : (s.haltWatches g).ctxs = s.ctxs := by simp
  have still : (s.haltWatches g).distinct := by rwa [State.distinct, halted]
  have here : c ∈ (s.haltWatches g).ctxs := by rwa [halted]
  have nodup : ((s.haltWatches g).boundFor g).Nodup := still.sublist (List.filter_sublist.map _)
  have ended : (s.haltWatches g).tornDown (((s.haltWatches g).boundFor g).foldl (State.tearDownCtx st) (s.haltWatches g)) c st := by
    by_cases ready : c.state = .ready
    · refine ⟨fun _ idle => absurd ready idle.1, fun running => absurd (ready.symm.trans running.1) (by decide), fun _ _ => ?_⟩
      refine (spares_tearDownAll (fun listed => ?_) st _ here).1
      obtain ⟨e, he, num⟩ := List.mem_map.1 listed
      obtain ⟨he, test⟩ := List.mem_filter.1 he
      obtain rfl := eq_of_num still he here num
      simp [ready] at test
    · exact tearDownAll_tornDown still nodup here (List.mem_map.2 ⟨c, List.mem_filter.2 ⟨here, by simp [own, fence, ready]⟩, rfl⟩) st
  have stripped := (ended.onward (u := s.strip g st) (Onward.trans (t := (s.haltWatches g).endContexts g st) (.of_eq rfl rfl rfl) (onward_stripped s g st))
    ((shrinks_tearDownAll st _ _).distinct still) fun d hd _ _ => by rw [strip_ctxs]; exact hd)
  refine stripped.congr (fun k => ?_) (fun q => ?_) fun k => ?_
  · by_cases same : g = k
    · subst same
      rw [State.haltWatches_seg_same]
    · rw [State.haltWatches_seg_other _ same]
  · simp
  · simp

/-- A context that is bound for another segment, and a FENCE, is left (R176, R179). -/
theorem strip_left (distinct : s.distinct) (hc : c ∈ s.ctxs) (other : c.seg ≠ g ∨ c.state = .fenceWait) :
    c ∈ (s.strip g st).ctxs := by
  have halted : (s.haltWatches g).ctxs = s.ctxs := by simp
  rw [strip_ctxs]
  refine (spares_tearDownAll (fun listed => ?_) st (s.haltWatches g) (by rwa [halted])).1
  obtain ⟨e, he, num⟩ := List.mem_map.1 listed
  obtain ⟨he, test⟩ := List.mem_filter.1 he
  obtain rfl := eq_of_num distinct (halted ▸ he) hc num
  simp only [Bool.and_eq_true, beq_iff_eq, bne_iff_ne] at test
  obtain other | fence := other
  · exact other test.1.1
  · exact test.1.2 fence

end

/-! ### The segment is out of service -/

theorem giveUpAll_seg_other (s : State) {g k : SegId} (cause : AbandonCause) (other : g ≠ k) :
    (s.giveUpAll g cause).seg k = s.seg k := by
  obtain ⟨l, given, same⟩ := s.giveUpAll_seg g cause k
  rw [given, same (Ne.symm other)]

theorem emptied_seg_other (s : State) {g k : SegId} (st : SegState) (other : g ≠ k) :
    (s.updSeg g (·.emptied st)).seg k = s.seg k := by rw [State.seg_updSeg, if_neg other]

theorem arriveOff_seg_other (s : State) {g k : SegId} (other : g ≠ k) : (s.arriveOff g).seg k = s.seg k := by
  rw [State.arriveOff, emptied_seg_other _ _ other, giveUpAll_seg_other _ _ other, State.seg_updSeg, if_neg other]

theorem arriveOff_seg_same (s : State) (g : SegId) : (s.arriveOff g).seg g = (s.seg g).emptied .off := by
  obtain ⟨l, given, -⟩ := (s.updSeg g fun y => { y with state := .off }).giveUpAll_seg g .segmentOff g
  rw [State.arriveOff, State.seg_updSeg_same, given, State.seg_updSeg_same]
  rfl

theorem arriveOff_pres (s : State) (g : SegId) (x : Tgt) : (s.arriveOff g).pres x =
    if x.seg = g ∧ (s.pres x).state = .restoring then { s.pres x with state := .lost } else s.pres x := by
  rw [State.arriveOff, State.updSeg_pres, giveUpAll_pres]
  rfl

theorem arriveOff_watchState (s : State) (g : SegId) (w : WatchId) : (s.arriveOff g).watchState w = s.watchState w := by
  refine (watchState_congr ?_).trans ((giveUpAll_watchState (s.updSeg g fun y => { y with state := .off }) g .segmentOff w).trans
    (watchState_congr ?_))
  · rw [State.arriveOff, State.updSeg_watch]
  · rw [State.updSeg_watch]

theorem arriveOff_same (s : State) (g : SegId) : (s.arriveOff g).ctxs = s.ctxs ∧ (s.arriveOff g).cqs = s.cqs ∧
    (s.arriveOff g).link = s.link ∧ (s.arriveOff g).adm = s.adm := by simp

theorem drainIfDone_drained {s : State} {g : SegId} (draining : (s.seg g).state = .draining) (wire : (s.seg g).wire = none) :
    s.drainIfDone g =
      if s.adminAt (.drainingSegment g) then (s.arriveOff g).adminDone .success none else s.arriveOff g := by
  have at' : (s.arriveOff g).adminAt (.drainingSegment g) = s.adminAt (.drainingSegment g) := by
    unfold State.adminAt
    rw [(arriveOff_same s g).2.2.2]
  rw [State.drainIfDone, if_pos ⟨draining, wire⟩]
  dsimp only
  rw [at']

theorem drainIfDone_kept {s : State} {g : SegId} (wire : (s.seg g).wire ≠ none) : s.drainIfDone g = s :=
  if_neg fun h => wire h.2

end Sys2Proof.Machine
end

section
/-! PROOFS. SEGMENT_OFF (R18, R176 to R178). -/

namespace Sys2Proof.Machine

set_option Elab.async false -- one thread elaborates: the checker's memory is limited

/-! ### FENCEs while a step settles -/

theorem spares_reachMembers_fence {d : Ctx} {s : State} (distinct : s.distinct) (fence : d.state = .fenceWait) :
    Spares d s s.reachMembers := by
  have step (u : State) (g : SegId) (distinct : u.distinct) : Spares d u (u.reachMember g) := by
    unfold State.reachMember
    split
    next id _ =>
      split
      next => exact spares_relisted d u g fun _ => ⟨rfl, rfl⟩
      next c l live =>
        split
        next pending =>
          intro hd
          refine spares_updCtx u (fun same => ?_) _ hd
          obtain ⟨hc, -⟩ := mem_liveMembers.1 (live ▸ List.mem_cons_self : c ∈ u.liveMembers id)
          obtain rfl := eq_of_num distinct hd hc same
          exact nomatch fence.symm.trans pending
        next => exact .refl d u
    next => exact .refl d u
  suffices fold : ∀ (l : List SegId) (u : State), u.distinct → Spares d u (l.foldl State.reachMember u) from
    fold segIds s distinct
  intro l
  induction l with
  | nil => exact fun u _ => .refl d u
  | cons g l ih => exact fun u distinct => (step u g distinct).trans (ih _ ((keeps_reachMember u g).distinct distinct))

/-- A FENCE waits on, or is released with SUCCESS, while a step settles (R83). -/
theorem settle_fence {s : State} {c : Ctx} (distinct : s.distinct) (hc : c ∈ s.ctxs) (fence : c.state = .fenceWait)
    (active : (s.cq (s.sq c.sq).bound).state = .active) :
    c ∈ s.settle.ctxs ∨ ∃ d ∈ s.settle.ctxs, d.endsAs c .success := by
  have fences : ∀ (l : List CtxNum) (u : State), u.core = s.core → u.distinct → c ∈ u.ctxs →
      c ∈ (l.foldl State.releaseFence u).ctxs ∨ ∃ d ∈ (l.foldl State.releaseFence u).ctxs, d.endsAs c .success := fun l => by
    induction l with
    | nil => exact fun u _ _ hc => .inl hc
    | cons n l ih =>
      intro u same distinct hc
      have still := (keeps_releaseFence u n).distinct distinct
      rw [List.foldl_cons]
      by_cases own : c.num = n
      · subst own
        rw [State.releaseFence, ctx_of_mem distinct hc]
        dsimp only
        split
        · refine .inr ?_
          obtain ⟨⟨d, hd, ends⟩, -⟩ := becomeReady_readyWith distinct hc
            (by rw [bound_of_core same, cq_state_of_core same]; exact active) .success
          obtain ⟨-, -, -, -, ready, -⟩ := id ends
          refine ⟨d, (Keeps.foldl _ keeps_releaseFence l _).calm ((shrinks_becomeReady u c.num .success).distinct distinct) d hd ?_, ends⟩
          exact ⟨by simp [ready], by simp [ready], by simp [ready]⟩
        · exact ih u same distinct hc
      · refine ih _ ((core_releaseFence u n).trans same) still ((?_ : Spares c u (u.releaseFence n)) hc).1
        unfold State.releaseFence
        split
        next => exact .refl c u
        next =>
          split
          · exact spares_becomeReady u own .success
          · exact .refl c u
  have first := (keeps_releaseFences s).distinct distinct
  have second := (keeps_moveAllStaged _).distinct first
  have third := (keeps_reachMembers _).distinct second
  rw [settle_eq]
  obtain waits | ⟨d, hd, ends⟩ := fences s.waitingFences s rfl distinct hc
  · exact .inl ((((spares_moveAllStaged first (by simp [fence])).trans (spares_reachMembers_fence second fence)).trans
      (spares_settleLast third (by simp [fence]))) waits).1
  · obtain ⟨-, -, -, -, ready, -⟩ := id ends
    have calm : d.calm := ⟨by simp [ready], by simp [ready], by simp [ready]⟩
    exact .inr ⟨d, ((keeps_moveAllStaged _).trans ((keeps_reachMembers _).trans (keeps_settleLast _))).calm first d hd calm, ends⟩

/-! ### SEGMENT_OFF on an ACTIVE segment -/

theorem strip_bound (s : State) (g : SegId) (st : Status) (q : SqId) : ((s.strip g st).sq q).bound = (s.sq q).bound := by
  have ended := sq_bound_of_core (core_endContexts (s.haltWatches g) g st) q
  have rest (u : State) : ((u.dropResponses g).stopReplayRetries g).sq q = u.sq q := by simp
  rw [State.strip, rest, ended]
  simp

theorem enterDraining_eq (s : State) (g : SegId) :
    s.enterDraining g = (s.updSeg g fun y => { y with state := .draining, stuckCount := 0 }).strip g .segmentOff := rfl

/-- SEGMENT_OFF's own rule on an ACTIVE segment, with the command waiting. -/
def State.turnsOff (s : State) (g : SegId) : State := (s.adminWaits (.drainingSegment g)).enterDraining g

section

variable {s : State} {g : SegId}

theorem turnsOff_seg_other {k : SegId} (other : g ≠ k) : ((s.turnsOff g).seg k).standing = (s.seg k).standing := by
  rw [State.turnsOff, enterDraining_eq, strip_seg_other _ _ _ other, State.seg_updSeg, if_neg other]
  rfl

theorem turnsOff_seg_same : ∃ l, ((s.turnsOff g).seg g).standing =
    { (s.seg g).standing with state := .draining, stuckCount := 0, duePolls := [], respDelays := [], writes := l } := by
  obtain ⟨l, stripped⟩ := strip_seg_same
    ((s.adminWaits (.drainingSegment g)).updSeg g fun y => { y with state := .draining, stuckCount := 0 }) g .segmentOff
  refine ⟨l, ?_⟩
  rw [State.turnsOff, enterDraining_eq, stripped, State.seg_updSeg_same]
  rfl

theorem turnsOff_fields : ((s.turnsOff g).seg g).state = .draining ∧ ((s.turnsOff g).seg g).wire = (s.seg g).wire ∧
    ((s.turnsOff g).seg g).settings = (s.seg g).settings := by
  obtain ⟨l, same⟩ := turnsOff_seg_same (s := s) (g := g)
  generalize (s.turnsOff g).seg g = y, s.seg g = z at *
  exact ⟨(congrArg SegCtl.state same :), (congrArg SegCtl.wire same :), (congrArg SegCtl.settings same :)⟩

theorem turnsOff_watchState (w : WatchId) : (s.turnsOff g).watchState w = (s.watchState w).map (haltedOn g) := by
  rw [State.turnsOff, enterDraining_eq, strip_watchState]
  rfl

theorem turnsOff_presence : (s.turnsOff g).presence = s.presence := by
  rw [State.turnsOff, enterDraining_eq, (strip_same _ g .segmentOff).1]
  rfl

theorem turnsOff_adm : (s.turnsOff g).adm = (s.adminWaits (.drainingSegment g)).adm := by
  rw [State.turnsOff, enterDraining_eq, (strip_same _ g .segmentOff).2.1]
  rfl

theorem turnsOff_cq (k : CqId) : ((s.turnsOff g).cq k).state = (s.cq k).state := by
  rw [State.turnsOff, enterDraining_eq, strip_cq]
  rfl

theorem turnsOff_bound (q : SqId) : ((s.turnsOff g).sq q).bound = (s.sq q).bound := by
  rw [State.turnsOff, enterDraining_eq, strip_bound]
  rfl

theorem shrinks_turnsOff (s : State) (g : SegId) : Shrinks s (s.turnsOff g) := by
  rw [State.turnsOff, enterDraining_eq]
  exact (Shrinks.of_eq rfl).trans (shrinks_strip _ g .segmentOff)

theorem turnsOff_tornDown {c : Ctx} (distinct : s.distinct) (hc : c ∈ s.ctxs) (own : c.seg = g)
    (fence : c.state ≠ .fenceWait) : s.tornDown (s.turnsOff g) c .segmentOff := by
  have torn := strip_tornDown (s := (s.adminWaits (.drainingSegment g)).updSeg g fun y =>
    { y with state := .draining, stuckCount := 0 }) (st := .segmentOff) distinct hc own fence
  rw [State.turnsOff, enterDraining_eq]
  refine State.tornDown.congr (fun k => ?_) (fun q => ?_) (fun k => ?_) torn
  · rw [State.seg_updSeg]
    split <;> rfl
  · rfl
  · rfl

theorem turnsOff_left {c : Ctx} (distinct : s.distinct) (hc : c ∈ s.ctxs) (other : c.seg ≠ g ∨ c.state = .fenceWait) :
    c ∈ (s.turnsOff g).ctxs :=
  strip_left (s := (s.adminWaits (.drainingSegment g)).updSeg g fun y =>
    { y with state := .draining, stuckCount := 0 }) distinct hc other

end

/-! ### DRAINING is over -/

theorem seg_adminDone (s : State) (st : Status) (v : Option Half) (k : SegId) : (s.adminDone st v).seg k = s.seg k := by simp

section

variable (s : State) (g : SegId)

theorem drainIfDone_ctxs : (s.drainIfDone g).ctxs = s.ctxs := by
  obtain ⟨ctxs, -⟩ := arriveOff_same s g
  unfold State.drainIfDone
  dsimp only
  split
  · split
    · exact (adminDone_ctxs _ _ _).trans ctxs
    · exact ctxs
  · rfl

theorem onward_drainIfDone : Onward s (s.drainIfDone g) := by
  obtain ⟨ctxs, cqs, link, -⟩ := arriveOff_same s g
  unfold State.drainIfDone
  dsimp only
  split
  · split
    · exact (Onward.of_eq ctxs cqs link).trans (onward_adminDone _ _ _)
    · exact .of_eq ctxs cqs link
  · exact .refl s

theorem drainIfDone_watchState (w : WatchId) : (s.drainIfDone g).watchState w = s.watchState w := by
  have off := arriveOff_watchState s g w
  unfold State.drainIfDone
  dsimp only
  split
  · split
    · exact (watchState_congr (by simp)).trans off
    · exact off
  · rfl

theorem drainIfDone_seg_other {k : SegId} (other : g ≠ k) : (s.drainIfDone g).seg k = s.seg k := by
  have off := arriveOff_seg_other s other
  unfold State.drainIfDone
  dsimp only
  split
  · split
    · exact (seg_adminDone _ _ _ k).trans off
    · exact off
  · rfl

theorem drainIfDone_settings : ((s.drainIfDone g).seg g).settings = (s.seg g).settings := by
  have off := congrArg SegCtl.settings (arriveOff_seg_same s g)
  unfold State.drainIfDone
  dsimp only
  split
  · split
    · rw [seg_adminDone]
      exact off
    · exact off
  · rfl

theorem drainIfDone_cq (k : CqId) : ((s.drainIfDone g).cq k).state = (s.cq k).state := by
  have cqs := (arriveOff_same s g).2.1
  have off : ((s.arriveOff g).cq k).state = (s.cq k).state := congrArg (fun v => (v.get k).state) cqs
  unfold State.drainIfDone
  dsimp only
  split
  · split
    · exact (cq_state_of_standing (by simp) k).trans off
    · exact off
  · rfl

theorem drainIfDone_bound (q : SqId) : ((s.drainIfDone g).sq q).bound = (s.sq q).bound := by
  unfold State.drainIfDone
  dsimp only
  split
  · split <;> simp
  · rfl

end

theorem runSegmentOff_active {r : Record} {g : SegId} {s : State} (id : segOfByte (r.byte 4) = some g)
    (state : (s.seg g).state = .active) : runSegmentOff r s = (s.turnsOff g).drainIfDone g := by
  rw [runSegmentOff, id]
  dsimp only
  rw [state]
  rfl

/-- From `s` to `u` a segment has left ACTIVE: its watches have halted and its contexts have ended with a status, are marked
or are left (R129, R176, R179). -/
structure LeavesActive (s u : State) (g : SegId) (st : Status) : Prop where
  watches : ∀ w, u.watchState w = (s.watchState w).map (haltedOn g)
  distinct : s.distinct → u.distinct
  torn : s.distinct → ∀ c ∈ s.ctxs, c.seg = g → c.state ≠ .fenceWait → s.tornDown u c st
  left : s.distinct → ∀ c ∈ s.ctxs, c.seg ≠ g ∨ c.state = .fenceWait → c ∈ u.ctxs
  bounds : ∀ q, (u.sq q).bound = (s.sq q).bound
  cqs : ∀ k, (u.cq k).state = (s.cq k).state

section

variable {s u : State} {g : SegId} {st : Status}

/-- No watch of the segment is ARMED once the step has settled, and those of other segments have kept their states. -/
theorem LeavesActive.watches_settled (leaves : LeavesActive s u g st) :
    (∀ w x, u.settle.watch w = some x → x.cfg.tgt.seg = g → x.state ≠ .armed) ∧
    (∀ w x, s.watch w = some x → x.cfg.tgt.seg ≠ g → ∃ y, u.settle.watch w = some y ∧ y.state = x.state) := by
  refine ⟨fun w x hx own => ?_, fun w x hx other => ?_⟩
  · rw [settle_watch] at hx
    have here := (watchState_some hx).symm.trans (leaves.watches w)
    obtain ⟨p, hp, halted⟩ := Option.map_eq_some_iff.1 here.symm
    have state := congrArg Prod.snd halted
    have cfg := congrArg Prod.fst halted
    rw [← show (haltedOn g p).2 = x.state from state]
    refine haltedOn_armed ?_
    rw [show p.1 = x.cfg from cfg]
    exact own
  · have there := leaves.watches w
    rw [watchState_some hx, Option.map_some, haltedOn_other other] at there
    obtain ⟨y, hy, -, state⟩ := of_watchState_some there
    exact ⟨y, (settle_watch u w).trans hy, state⟩

/-- What becomes of the contexts once the step has settled. -/
theorem LeavesActive.contexts_settled (leaves : LeavesActive s u g st) (distinct : s.distinct) {c : Ctx} (hc : c ∈ s.ctxs) :
    (c.seg = g → c.state ≠ .fenceWait → s.tornDown u.settle c st) ∧
    (c.state = .fenceWait → (s.cq (s.sq c.sq).bound).state = .active →
      c ∈ u.settle.ctxs ∨ ∃ d ∈ u.settle.ctxs, d.endsAs c .success) ∧
    (c.seg ≠ g → c.calm → c ∈ u.settle.ctxs) := by
  have still := leaves.distinct distinct
  refine ⟨fun own fence => (leaves.torn distinct c hc own fence).settle still, fun fence active => ?_, fun other calm => ?_⟩
  · refine settle_fence still (leaves.left distinct c hc (.inr fence)) fence ?_
    rw [leaves.bounds, leaves.cqs]
    exact active
  · exact (settle_keeps u).calm still c (leaves.left distinct c hc (.inl other)) calm

end

/-- What stands of a controller: all but its lists of contexts and its holder. -/
theorem SegCtl.of_standing {y z : SegCtl} (h : y.standing = z.standing) : y.state = z.state ∧ y.settings = z.settings ∧
    y.wire = z.wire ∧ y.writes = z.writes ∧ y.respDelays = z.respDelays ∧ y.duePolls = z.duePolls :=
  ⟨(congrArg SegCtl.state h :), (congrArg SegCtl.settings h :), (congrArg SegCtl.wire h :), (congrArg SegCtl.writes h :),
    (congrArg SegCtl.respDelays h :), (congrArg SegCtl.duePolls h :)⟩

theorem presence_of_standing {s t : State} (h : t.standing = s.standing) : t.presence = s.presence :=
  (congrArg State.presence h :)

section

variable {s : State} {g : SegId} {r : Record}
  (at' : s.adm.ctx = some { record := r, progress := .executing, status := none, result := none })

include at' in
theorem turnsOff_waits : (s.turnsOff g).adminWaiting r (.drainingSegment g) := by
  unfold State.adminWaiting
  rw [turnsOff_adm, State.adminWaits]
  dsimp only
  rw [at']
  rfl

include at' in
/-- With a frame on the wire the segment is DRAINING, and the command waits (R176). -/
theorem turnsOff_busy (busy : (s.seg g).wire ≠ none) :
    let t := ((s.turnsOff g).drainIfDone g).settle
    t.adminWaiting r (.drainingSegment g) ∧ (t.seg g).state = .draining ∧ (t.seg g).wire = (s.seg g).wire ∧
      t.presence = s.presence := by
  obtain ⟨state, wire, -⟩ := turnsOff_fields (s := s) (g := g)
  have waits := turnsOff_waits (g := g) at'
  have presence := turnsOff_presence (s := s) (g := g)
  dsimp only
  rw [drainIfDone_kept (by rwa [wire])]
  generalize s.turnsOff g = u at *
  obtain ⟨waiting, -⟩ := adminWaits_settles waits fun _ => nofun
  have settled := presence_of_standing (settle_standing u)
  obtain ⟨state', -, wire', -⟩ := SegCtl.of_standing (settle_seg u g)
  exact ⟨waiting, state'.trans state, wire'.trans wire, settled.trans presence⟩

include at' in
/-- With no frame on the wire the segment is OFF at once, and the command completes (R177). -/
theorem turnsOff_free (active : (s.cq 0).state = .active) (free : (s.seg g).wire = none) :
    let t := ((s.turnsOff g).drainIfDone g).settle
    t.adminCompleted r .success none ∧ (t.seg g).state = .off ∧ (t.seg g).writes = [] ∧ (t.seg g).respDelays = [] ∧
      (t.seg g).duePolls = [] ∧
      ∀ x, t.pres x = if x.seg = g ∧ (s.pres x).state = .restoring then { s.pres x with state := .lost } else s.pres x := by
  obtain ⟨state, wire, -⟩ := turnsOff_fields (s := s) (g := g)
  rw [free] at wire
  have waits := turnsOff_waits (g := g) at'
  have cq := (turnsOff_cq (s := s) (g := g) 0).trans active
  have pres (x : Tgt) : (s.turnsOff g).pres x = s.pres x :=
    congrArg (fun v => (v.get x.seg).get x.slot) (turnsOff_presence (s := s) (g := g))
  dsimp only
  generalize s.turnsOff g = u at *
  obtain ⟨-, cqs, -, adm⟩ := arriveOff_same u g
  have off := arriveOff_seg_same u g
  have lost := arriveOff_pres u g
  rw [drainIfDone_drained state wire, if_pos (State.adminAt_of_waiting waits)]
  generalize u.arriveOff g = v at *
  obtain ⟨completed, -⟩ := adminDone_settles (u := v) .success none ((congrArg Admin.ctx adm).trans waits)
    ((congrArg (fun c => (c.get 0).state) cqs).trans cq)
  have seg : ((v.adminDone .success none).settle.seg g).standing = ((u.seg g).emptied .off).standing := by
    rw [settle_seg, seg_adminDone, off]
  obtain ⟨state, -, -, writes, delays, polls⟩ := SegCtl.of_standing seg
  refine ⟨completed, state, writes, delays, polls, fun x => ?_⟩
  have kept : (v.adminDone .success none).pres x = v.pres x := by simp
  rw [settle_pres, kept, lost, pres]

end

theorem turnsOff_leaves (s : State) (g : SegId) : LeavesActive s ((s.turnsOff g).drainIfDone g) g .segmentOff where
  watches w := (drainIfDone_watchState _ g w).trans (turnsOff_watchState w)
  distinct distinct := (onward_drainIfDone (s.turnsOff g) g).distinct ((shrinks_turnsOff s g).distinct distinct)
  torn distinct c hc own fence := (turnsOff_tornDown distinct hc own fence).onward (onward_drainIfDone _ g)
    ((shrinks_turnsOff s g).distinct distinct) fun d hd _ _ => by rwa [drainIfDone_ctxs]
  left distinct c hc other := by
    rw [drainIfDone_ctxs]
    exact turnsOff_left distinct hc other
  bounds q := (drainIfDone_bound _ g q).trans (turnsOff_bound q)
  cqs k := (drainIfDone_cq _ g k).trans (turnsOff_cq k)

/-- Settles O28: the branches of the rule, and the teardown of an ACTIVE segment. -/
theorem segmentOffOutcomes : Obligations.SegmentOffOutcomes := by
  intro tag b s r takes
  refine ⟨_, done_adminEntry runSegmentOff takes, fun bad => ?_, fun g named => ?_⟩
  · rw [runSegmentOff, segOfByte_none bad]
    exact adminDone_only takes _
  have id : segOfByte (r.byte 4) = some g := segOfByte_some named
  refine ⟨fun off => ?_, fun busy => ?_, fun faulted => ?_, fun active => ?_⟩
  · rw [runSegmentOff, id]
    dsimp only
    rw [entered_seg, off]
    exact adminDone_only takes _
  · rw [runSegmentOff, id]
    dsimp only
    rw [entered_seg]
    obtain h | h := busy <;> rw [h] <;> exact adminDone_only takes _
  · rw [runSegmentOff, id]
    dsimp only
    rw [entered_seg, faulted]
    dsimp only
    obtain ⟨completed, stands⟩ := adminDone_completed takes .success none
      (u := (s.entered tag r).updSeg g fun y => { y with state := .off }) rfl rfl
    exact ⟨completed, stands.trans (entered_updSeg_standing s tag r g _)⟩
  · rw [runSegmentOff_active (s := s.entered tag r) id active]
    have bounds := entered_sq_bound s tag r
    have leaves := turnsOff_leaves (s.entered tag r) g
    obtain ⟨halted, kept⟩ := leaves.watches_settled
    refine ⟨fun k other => ?_, ?_, halted, kept, fun distinct c hc => ?_, fun busy => ?_, fun free => ?_⟩
    · rw [settle_seg, drainIfDone_seg_other _ _ (Ne.symm other), turnsOff_seg_other (Ne.symm other)]
      rfl
    · obtain ⟨-, -, same⟩ := turnsOff_fields (s := s.entered tag r) (g := g)
      obtain ⟨-, settings, -⟩ := SegCtl.of_standing (settle_seg (((s.entered tag r).turnsOff g).drainIfDone g) g)
      rw [settings, drainIfDone_settings, same]
      rfl
    · obtain ⟨torn, fence, other⟩ := leaves.contexts_settled distinct hc
      have torn (own : c.seg = g) (fence : c.state ≠ .fenceWait) :=
        State.tornDown.congr (s := s.entered tag r) (r := s) (fun _ => rfl) bounds (fun _ => rfl) (torn own fence)
      refine ⟨fun own waits active idle => (torn own waits).1 active idle, fun own running => ?_, fun own idle running => ?_,
        fun waits active => fence waits (by rw [bounds]; exact active), other⟩
      · exact (torn own (by simp [running.1])).2.1 running
      · refine (torn own fun waits => idle ?_).2.2 idle running
        exact ⟨by simp [waits], fun h => by simp [waits] at h⟩
    · exact turnsOff_busy (entered_ctx s tag r) busy
    · exact turnsOff_free (entered_ctx s tag r) takes.cq free

end Sys2Proof.Machine
end

section
/-! PROOFS. The time base: ticks, the timed events that come with them, and samples of the lines (R12, R13, R14, R57). -/

namespace Sys2Proof.Machine

set_option Elab.async false -- one thread elaborates: the checker's memory is limited

/-! ### Timed events that have come -/

theorem comesAt_of_hasCome {s : State} {e : TimedEvent} (h : s.hasCome e = true) :
    ∃ t, s.comesAt e = some t ∧ t ≤ s.ticks := by
  unfold State.hasCome at h
  split at h
  next t at' => exact ⟨t, at', by simpa using h⟩
  next => exact nomatch h

theorem mem_watchesInUse {s : State} {w : WatchId} {x : Watch} (h : s.watch w = some x) : w ∈ s.watchesInUse := by
  refine List.mem_map.2 ⟨(w, some x), List.mem_filter.2 ⟨?_, rfl⟩, rfl⟩
  refine List.mem_iff_getElem.2 ⟨w.val, by simp [watchIds], ?_⟩
  have here : s.watches.toList[w.val]'(by simp) = some x := by
    rw [Vector.getElem_toList]
    exact h
  rw [List.getElem_zip, here]
  simp [watchIds]

/-- A timer that runs stands in the list of timed events, once its tick is here. -/
theorem mem_timedEvents {s : State} {e : TimedEvent} (come : s.hasCome e = true)
    (listed : e ∈ segIds.flatMap s.segTimers ∨ e ∈ s.ctxs.flatMap Ctx.timers ∨ e ∈ s.watchesInUse.flatMap watchTimers ∨
      e ∈ s.jobs.map (fun j => TimedEvent.retry (.replay j.tgt)) ∨
      e ∈ s.link.outstanding.map fun d => TimedEvent.limit d.access d.tag) : e ∈ s.timedEvents := by
  refine List.mem_filter.2 ⟨?_, come⟩
  simp only [List.mem_append]
  tauto

theorem mem_timedEvents_ctx {s : State} {e : TimedEvent} {n : CtxNum} {c : Ctx} (come : s.hasCome e = true)
    (hc : s.ctx n = some c) (own : e ∈ c.timers) : e ∈ s.timedEvents :=
  mem_timedEvents come (.inr (.inl (List.mem_flatMap.2 ⟨c, (ctx_mem hc).1, own⟩)))

theorem mem_timedEvents_watch {s : State} {e : TimedEvent} {w : WatchId} {x : Watch} (come : s.hasCome e = true)
    (hx : s.watch w = some x) (own : e ∈ watchTimers w) : e ∈ s.timedEvents :=
  mem_timedEvents come (.inr (.inr (.inl (List.mem_flatMap.2 ⟨w, mem_watchesInUse hx, own⟩))))

/-- Every timed event that has come is listed, but that of an access that may not be outstanding. -/
theorem timedEvents_complete {s : State} {e : TimedEvent} (come : s.hasCome e = true) (other : ∀ a tag, e ≠ .limit a tag) :
    e ∈ s.timedEvents := by
  obtain ⟨t, at', -⟩ := comesAt_of_hasCome come
  have ctx {n : CtxNum} {f : Ctx → Option Nat} (h : (match s.ctx n with | some c => f c | none => none) = some t)
      (own : ∀ c : Ctx, c.num = n → e ∈ c.timers) : e ∈ s.timedEvents := by
    split at h
    next c hc => exact mem_timedEvents_ctx come hc (own c (ctx_mem hc).2)
    next => exact nomatch h
  have watch {w : WatchId} {f : Watch → Option Nat} (h : (match s.watch w with | some x => f x | none => none) = some t)
      (own : e ∈ watchTimers w) : e ∈ s.timedEvents := by
    split at h
    next x hx => exact mem_timedEvents_watch come hx own
    next => exact nomatch h
  cases e with
  | retry r =>
    cases r with
    | host n => exact ctx at' fun c num => by simp [Ctx.timers, num]
    | poll w => exact watch at' (by simp [watchTimers])
    | response w =>
      obtain ⟨d, hd, -⟩ := Option.map_eq_some_iff.1 (at' : (s.respDelay w).map (·.retryEnd) = some t)
      unfold State.respDelay at hd
      split at hd
      next x hx =>
        have own : d.write.watch = w := by simpa using List.find?_some hd
        exact mem_timedEvents come (.inl (List.mem_flatMap.2 ⟨x.cfg.tgt.seg, mem_segIds _,
          List.mem_map.2 ⟨d, List.mem_of_find?_eq_some hd, by rw [own]⟩⟩))
      next => exact nomatch hd
    | replay x =>
      have at' : (match s.job x with | some j => j.retryEnd | none => none) = some t := at'
      split at at'
      next j hj =>
        exact mem_timedEvents come (.inr (.inr (.inr (.inl (List.mem_map.2 ⟨j, List.mem_of_find?_eq_some hj, by rw [job_tgt hj]⟩)))))
      next => exact nomatch at'
  | interval n => exact ctx at' fun c num => by simp [Ctx.timers, num]
  | deadline n => exact ctx at' fun c num => by simp [Ctx.timers, num]
  | due w => exact watch at' (by simp [watchTimers])
  | limit a tag => exact absurd rfl (other a tag)

/-! ### Each as a command -/

theorem advance_here {s : State} {t : Nat} (h : t ≤ s.ticks) : s.advance t = s := by
  rw [State.advance, Nat.sub_eq_zero_of_le h]
  rfl

theorem await_come {s : State} {e : TimedEvent} (come : s.hasCome e = true) : s.await e = s.take e := by
  obtain ⟨t, at', here⟩ := comesAt_of_hasCome come
  rw [State.await, at']
  dsimp only
  rw [advance_here here, if_pos come]

/-- A timed event that has come is taken as its own command would be. -/
theorem exec_command_come {s : State} {e : TimedEvent} (come : s.hasCome e = true) :
    exec e.command s = .next (s.take e).settle := by
  have awaits := congrArg done (await_come come)
  cases e with
  | retry r => exact awaits
  | interval n => exact awaits
  | deadline n => exact awaits
  | due w => exact awaits
  | limit a tag =>
    obtain ⟨t, at', here⟩ := comesAt_of_hasCome come
    refine congrArg done (?_ : s.timedOut a tag = s.failAccess a tag)
    rw [State.timedOut, show s.limitEnd tag = some t from at']
    dsimp only
    rw [advance_here here]

/-! ### Samples and faults -/

theorem SegCtl.sample_counts (y : SegCtl) (low : Bool) : y.sample low = { y with
    stuckCount := if y.state = .active ∧ y.wire = none then (if low then y.stuckCount + 1 else 0) else y.stuckCount } := by
  unfold SegCtl.sample SegCtl.monitors
  by_cases h : y.state = .active ∧ y.wire = none
  · rw [if_pos (by simp [h.1, h.2]), if_pos h]
  · rw [if_neg h, if_neg (by simpa using h)]

theorem SegCtl.stuck_iff (y : SegCtl) :
    y.stuck = decide (y.state = .active ∧ y.wire = none ∧ y.settings.stuckTime ≤ y.stuckCount) := by
  unfold SegCtl.stuck SegCtl.monitors
  by_cases state : y.state = .active <;> by_cases wire : y.wire = none <;> simp [state, wire]

/-- The faults of the stuck segments of a list: a fault leaves the others as stuck as they were (R14). -/
theorem foldl_faultIfStuck (l : List SegId) (nodup : l.Nodup) (s : State) :
    l.foldl State.faultIfStuck s = (l.filter fun g => (s.seg g).stuck).foldl State.faultSegment s := by
  induction l generalizing s with
  | nil => simp
  | cons g l ih =>
    rw [List.nodup_cons] at nodup
    obtain ⟨later, nodup⟩ := nodup
    rw [List.foldl_cons, ih nodup]
    cases stuck : (s.seg g).stuck with
    | false => rw [State.faultIfStuck_unstuck stuck, List.filter_cons_of_neg (by simp [stuck])]
    | true =>
      rw [State.faultIfStuck_stuck stuck, List.filter_cons_of_pos (by simp [stuck]), List.foldl_cons]
      refine congrArg (List.foldl State.faultSegment (s.faultSegment g)) (List.filter_congr fun k hk => ?_)
      have other : g ≠ k := fun same => later (same ▸ hk)
      rw [← SegCtl.stuck_standing, s.faultSegment_seg_other other, SegCtl.stuck_standing]

theorem nodup_segIds : segIds.Nodup := by decide

/-- The timed events that have come do not depend on the commands waiting. -/
theorem timedEvents_pending (s : State) (l : List Instr) : ({ s with pending := l } : State).timedEvents = s.timedEvents := rfl

/-- Settles O2: a tick, the timed events that have come, the samples, and the faults. -/
theorem emptyQueueTicks : Obligations.EmptyQueueTicks := by
  refine ⟨fun s empty => ?_, ⟨fun s e => timedEvents_complete, fun s d hd old => ?_, fun s => ?_⟩, fun low s => ?_, fun s n => ?_,
    fun s e => advance_here⟩
  · have pending : (s.passTick LineReads.free).pending = [] := by
      rw [← empty]
      apply State.passTick_view State.pending <;> exact fun _ _ => rfl
    refine ⟨s.tick, by rw [step, empty], ?_, rfl⟩
    rw [State.tick]
    generalize s.passTick LineReads.free = u at pending
    dsimp only
    rw [pending, List.nil_append]
    exact (congrArg (List.map (·.command)) (timedEvents_pending u _)).symm
  · exact mem_timedEvents (hasCome_limit hd old) (.inr (.inr (.inr (.inr (List.mem_map.2 ⟨d, hd, rfl⟩)))))
  · rw [State.takeTimed]
    refine List.foldl_ext _ _ s fun u e _ => ?_
    by_cases come : u.hasCome e = true
    · rw [State.takeIfCome, if_pos come, if_pos come, exec_command_come come]
    · rw [State.takeIfCome, if_neg come, if_neg come]
  · intro u
    have sampled : s.takeTimed.sampleLines low = u := by
      unfold State.sampleLines
      rw [State.takeTimed_ticks]
      have counts : (fun (g : SegId) (y : SegCtl) => y.sample (low g (s.ticks + 1))) = fun g y => { y with
          stuckCount := if y.state = .active ∧ y.wire = none then (if low g (s.ticks + 1) then y.stuckCount + 1 else 0)
            else y.stuckCount } := funext fun g => funext fun y => SegCtl.sample_counts y _
      rw [counts]
    rw [State.passTick, sampled, foldl_faultIfStuck segIds nodup_segIds]
    have same : (fun g => (u.seg g).stuck) = fun g => decide ((u.seg g).state = .active ∧ (u.seg g).wire = none ∧
        (u.seg g).settings.stuckTime ≤ (u.seg g).stuckCount) := funext fun g => SegCtl.stuck_iff _
    rw [same]
  · have one : s.ticks + (n + 1) - s.ticks = n + 1 := by omega
    have rest : s.ticks + n + 1 - (s.passTick LineReads.free).ticks = n := by
      rw [State.passTick_ticks]
      omega
    change s.advance (s.ticks + (n + 1)) = (s.passTick LineReads.free).advance (s.ticks + n + 1)
    rw [State.advance, State.advance, one, rest, State.passTicks_succ]

end Sys2Proof.Machine
end

section
/-! PROOFS. What register writes and most admin commands leave alone: the contexts, the lists in which they stand, and the
wires. -/

namespace Sys2Proof.Machine

set_option Elab.async false -- one thread elaborates: the checker's memory is limited

/-! ### Operations that touch no context -/

/-- From `s` to `u` no context, no list of contexts and no wire changes. -/
structure Untouched (s u : State) : Prop where
  ctxs : u.ctxs = s.ctxs
  lists : ∀ g, (u.seg g).pendingList = (s.seg g).pendingList ∧ (u.seg g).offered = (s.seg g).offered
  wires : ∀ g, (u.seg g).wire = (s.seg g).wire

theorem Untouched.refl (s : State) : Untouched s s := ⟨rfl, fun _ => ⟨rfl, rfl⟩, fun _ => rfl⟩

theorem Untouched.trans {s u v : State} (h : Untouched s u) (k : Untouched u v) : Untouched s v where
  ctxs := k.ctxs.trans h.ctxs
  lists g := ⟨(k.lists g).1.trans (h.lists g).1, (k.lists g).2.trans (h.lists g).2⟩
  wires g := (k.wires g).trans (h.wires g)

theorem Untouched.of_segs {s u : State} (ctxs : u.ctxs = s.ctxs := by rfl)
    (segs : u.segs = s.segs := by rfl) : Untouched s u := by
  have seg (g : SegId) : u.seg g = s.seg g := congrArg (fun v => v.get g) segs
  exact ⟨ctxs, fun g => by rw [seg]; exact ⟨rfl, rfl⟩, fun g => by rw [seg]⟩

theorem Untouched.updSeg (s : State) (g : SegId) {f : SegCtl → SegCtl}
    (same : ∀ y, (f y).pendingList = y.pendingList ∧ (f y).offered = y.offered ∧ (f y).wire = y.wire := by
      exact fun _ => ⟨rfl, rfl, rfl⟩) :
    Untouched s (s.updSeg g f) := by
  refine ⟨rfl, fun k => ?_, fun k => ?_⟩
  · rw [State.seg_updSeg]
    split
    · exact ⟨(same _).1, (same _).2.1⟩
    · exact ⟨rfl, rfl⟩
  · rw [State.seg_updSeg]
    split
    · exact (same _).2.2
    · rfl

theorem Untouched.foldl {β : Type} {f : State → β → State} (h : ∀ s b, Untouched s (f s b)) (l : List β) (s : State) :
    Untouched s (l.foldl f s) := by
  induction l generalizing s with
  | nil => exact .refl s
  | cons b l ih => exact (h s b).trans (ih _)

/-- What a step leaves, by the outcomes that the obligation names. -/
def LeavesContexts (s t : State) : Prop :=
  (∀ c ∈ s.ctxs, c.calm → c ∈ t.ctxs ∧ ∀ g, (c.num ∈ (s.seg g).pendingList → c.num ∈ (t.seg g).pendingList) ∧
    (c.num ∈ (s.seg g).offered → c.num ∈ (t.seg g).offered)) ∧
  ∀ c ∈ t.ctxs, ∃ d ∈ s.ctxs, d.num = c.num

theorem leavesContexts_of_eq {s u : State} (ctxs : u.ctxs = s.ctxs)
    (lists : ∀ g, (u.seg g).pendingList = (s.seg g).pendingList ∧ (u.seg g).offered = (s.seg g).offered) :
    LeavesContexts s u := by
  refine ⟨fun c hc _ => ⟨by rwa [ctxs], fun g => ?_⟩, fun c hc => ⟨c, by rwa [← ctxs], rfl⟩⟩
  rw [(lists g).1, (lists g).2]
  exact ⟨id, id⟩

theorem leavesContexts_settle {s u : State} (distinct : s.distinct) (ctxs : u.ctxs = s.ctxs)
    (lists : ∀ g, (u.seg g).pendingList = (s.seg g).pendingList ∧ (u.seg g).offered = (s.seg g).offered) :
    LeavesContexts s u.settle := by
  have still : u.distinct := by rwa [State.distinct, ctxs]
  refine ⟨fun c hc calm => ?_, fun c hc => ?_⟩
  · have kept := Spares.of_keeps (settle_keeps u) still calm (ctxs ▸ hc)
    refine ⟨kept.1, fun g => ?_⟩
    have listed := kept.2 g
    rwa [(lists g).1, (lists g).2] at listed
  · have num : c.num ∈ u.ctxs.map (·.num) := (settle_shrinks u).subset (List.mem_map.2 ⟨c, hc, rfl⟩)
    rw [ctxs] at num
    exact List.mem_map.1 num

/-- What the commands named in the obligation leave, but for WATCH_REMOVE's mark. -/
def LeavesAll (s t : State) : Prop := LeavesContexts s t ∧ ∀ g, (t.seg g).wire = (s.seg g).wire

theorem Untouched.leaves {s u : State} (h : Untouched s u) : LeavesAll s u :=
  ⟨leavesContexts_of_eq h.ctxs h.lists, h.wires⟩

theorem wire_settle (u : State) (g : SegId) : (u.settle.seg g).wire = (u.seg g).wire :=
  (SegCtl.of_standing (settle_seg u g)).2.2.1

theorem Untouched.settled {s u : State} (h : Untouched s u) (distinct : s.distinct) : LeavesAll s u.settle :=
  ⟨leavesContexts_settle distinct h.ctxs h.lists, fun g => (wire_settle u g).trans (h.wires g)⟩

/-! ### The operations -/

theorem untouched_adminDone (s : State) (st : Status) (v : Option Half) : Untouched s (s.adminDone st v) :=
  .of_segs (adminDone_ctxs s st v) (by simp)

theorem Untouched.done {s u : State} (h : Untouched s u) (st : Status) (v : Option Half) :
    Untouched s (u.adminDone st v) := h.trans (untouched_adminDone u st v)

theorem Untouched.waits {s u : State} (h : Untouched s u) (p : AdminProgress) : Untouched s (u.adminWaits p) :=
  h.trans .of_segs

/-- What holds of every state that leaves the contexts alone and of what the command's own rule does holds after an
admin entry: its checks leave the contexts alone. -/
theorem adminEntry_cases {s : State} {op : Byte} {tag : Nat} {b : Body} {run : Record → State → State} {P : State → Prop}
    (still : ∀ u, Untouched s u → P u) (rule : P (run (Record.of op b) (s.entered tag (Record.of op b)))) :
    P (s.adminEntry op tag b run) := by
  unfold State.adminEntry
  split
  · exact still _ .of_segs
  · split
    · exact still _ .of_segs
    · dsimp only
      split
      · exact still _ (.done .of_segs _ _)
      · exact rule

theorem untouched_entered (s : State) (tag : Nat) (r : Record) : Untouched s (s.entered tag r) := .of_segs

theorem untouched_rearmWatches (s : State) (g : SegId) : Untouched s (s.rearmWatches g) := by
  unfold State.rearmWatches
  split
  · exact .of_segs
  · exact .refl s

theorem untouched_writeResult (s : State) (r : Record) (l : List Byte) : Untouched s (s.writeResult r l) := by
  unfold State.writeResult
  split
  · exact .waits .of_segs _
  · exact untouched_adminDone s _ _

theorem untouched_removeJob (s : State) (t : Tgt) : Untouched s (s.removeJob t) := by
  have jobs : Untouched s { s with jobs := s.jobs.filter (fun j => j.tgt ≠ t) } := .of_segs
  unfold State.removeJob
  exact jobs.trans (.updSeg _ t.seg)

theorem untouched_endJobIfOver (s : State) (t : Tgt) : Untouched s (s.endJobIfOver t) := by
  unfold State.endJobIfOver
  split
  · exact .refl s
  · split
    · exact (untouched_removeJob s t).trans (.of_segs (by simp) (by simp))
    · exact .refl s

theorem untouched_drain (s : State) : Untouched s s.drain := .of_segs (by simp) (by simp)

section

variable (r : Record) (s : State)

theorem untouched_runCreateSq : Untouched s (runCreateSq r s) := by
  have refused (st : Status) : Untouched s (s.adminDone st none) := untouched_adminDone s st none
  unfold runCreateSq
  split
  · exact refused _
  split
  · exact refused _
  dsimp only
  split
  · exact refused _
  split
  · exact refused _
  split
  · exact refused _
  exact .done .of_segs _ _

theorem untouched_runCreateCq : Untouched s (runCreateCq r s) := by
  have refused (st : Status) : Untouched s (s.adminDone st none) := untouched_adminDone s st none
  unfold runCreateCq
  split
  · exact refused _
  split
  · exact refused _
  dsimp only
  split
  · exact refused _
  split
  · exact refused _
  exact .done .of_segs _ _

theorem untouched_runDeleteCq : Untouched s (runDeleteCq r s) := by
  have refused (st : Status) : Untouched s (s.adminDone st none) := untouched_adminDone s st none
  unfold runDeleteCq
  split
  · exact refused _
  split
  · exact refused _
  split
  · exact refused _
  exact .done .of_segs _ _

theorem untouched_runSegmentSetup : Untouched s (runSegmentSetup r s) := by
  have refused (st : Status) : Untouched s (s.adminDone st none) := untouched_adminDone s st none
  unfold runSegmentSetup
  split
  · exact refused _
  split
  · exact refused _
  split
  · exact refused _
  exact .done (.updSeg s _) _ _

theorem untouched_runSegmentOn : Untouched s (runSegmentOn r s) := by
  unfold runSegmentOn
  split
  · exact untouched_adminDone s _ _
  split
  · exact .done (.trans (.updSeg s _) (untouched_rearmWatches _ _)) _ _
  · exact untouched_adminDone s _ _
  · exact untouched_adminDone s _ _

theorem untouched_runSegmentRecover : Untouched s (runSegmentRecover r s) := by
  unfold runSegmentRecover
  split
  · exact untouched_adminDone s _ _
  split
  · exact .waits (.updSeg s _) _
  · exact untouched_adminDone s _ _

theorem untouched_runQuerySegment : Untouched s (runQuerySegment r s) := by
  unfold runQuerySegment
  split
  · exact untouched_adminDone s _ _
  · exact untouched_writeResult s r _

theorem untouched_runQueryTarget : Untouched s (runQueryTarget r s) := by
  unfold runQueryTarget
  split
  · exact untouched_adminDone s _ _
  · exact untouched_writeResult s r _

theorem untouched_runQueryWatch : Untouched s (runQueryWatch r s) := by
  unfold runQueryWatch
  split
  · exact untouched_adminDone s _ _
  split
  · exact untouched_adminDone s _ _
  · exact untouched_writeResult s r _

theorem untouched_runWatchAdd : Untouched s (runWatchAdd r s) := by
  unfold runWatchAdd
  split
  · exact untouched_adminDone s _ _
  split
  · exact untouched_adminDone s _ _
  split
  · exact untouched_adminDone s _ _
  · exact .done .of_segs _ _

theorem untouched_runWatchArm : Untouched s (runWatchArm r s) := by
  unfold runWatchArm
  split
  · exact untouched_adminDone s _ _
  split
  · exact untouched_adminDone s _ _
  split
  · exact .done .of_segs _ _
  · exact untouched_adminDone s _ _

theorem untouched_runRestoreAdd : Untouched s (runRestoreAdd r s) := by
  unfold runRestoreAdd
  split
  · exact untouched_adminDone s _ _
  split
  · exact .done .of_segs _ _
  · exact untouched_adminDone s _ _

theorem untouched_runRestoreDrop : Untouched s (runRestoreDrop r s) := by
  unfold runRestoreDrop
  split
  next t all _ _ =>
    have dropped : Untouched s { s with pool := s.pool.filter fun e => !dropSelects t all (r.byte 6) e } := .of_segs
    exact .done (dropped.trans (untouched_endJobIfOver _ t)) _ _
  next => exact untouched_adminDone s _ _

theorem untouched_runConfigureEvents : Untouched s (runConfigureEvents r s) := by
  unfold runConfigureEvents
  dsimp only
  split
  · exact .done .of_segs _ _
  split
  · exact untouched_adminDone s _ _
  split
  · exact untouched_adminDone s _ _
  split
  · exact .done (.trans .of_segs (untouched_drain _)) _ _
  · exact .done (.trans .of_segs (untouched_drain _)) _ _

theorem untouched_writeEventHead (w : RegWrite) : Untouched s (s.writeEventHead w) := by
  unfold State.writeEventHead
  split
  · split
    · exact .refl s
    · dsimp only
      split
      next ring _ _ =>
        have moved : Untouched s (s.setRing (some { ring with head := indexAfter w ring.head })) := .of_segs
        refine (moved.trans (untouched_drain _)).trans ?_
        unfold State.reRaise
        split
        · exact .of_segs (by simp) (by simp)
        · exact .refl _
      next => exact .of_segs (by simp) (by simp)
  · exact .refl s

theorem untouched_pauseWatches : Untouched s s.pauseWatches :=
  .trans (u := s.mapWatches Watch.pauseHalt) .of_segs (.foldl (fun u g => .updSeg u g) segIds _)

theorem untouched_resume : Untouched s s.resume :=
  .trans .of_segs (.foldl (fun u g => untouched_rearmWatches u g) segIds _)

theorem untouched_enableIdle : Untouched s s.enableIdle := by
  unfold State.enableIdle
  dsimp only
  split
  · exact .of_segs
  · exact .of_segs

end

theorem writeControl_leaves {s : State} {w : RegWrite} (distinct : s.distinct)
    (noReset : w.enables.getLsbD 0 = true → w.value.getLsbD 1 = false) : LeavesAll s (s.writeControl w) := by
  rw [s.writeControl_of_not_reset w noReset]
  have held : Untouched s { s with ctl := s.ctl.written w } := .of_segs
  dsimp only
  split
  · exact (held.trans (untouched_enableIdle _)).settled distinct
  · exact (held.trans (.trans .of_segs (untouched_pauseWatches _))).settled distinct
  · exact (held.trans (untouched_resume _)).settled distinct
  · exact (held.trans (untouched_resume _)).settled distinct
  · exact held.leaves

/-! ### WATCH_REMOVE -/

/-- From `s` to `u` no context and no list of contexts changes, and a wire at most loses the owner of a watch's response
write (R114; log entry 20). -/
structure Orphans (w : WatchId) (s u : State) : Prop where
  ctxs : u.ctxs = s.ctxs
  lists : ∀ g, (u.seg g).pendingList = (s.seg g).pendingList ∧ (u.seg g).offered = (s.seg g).offered
  wires : ∀ g, (u.seg g).wire = (s.seg g).wire ∨ (u.seg g).wire = (s.seg g).wire.map (·.orphaned w)

theorem Untouched.orphans {s u : State} (h : Untouched s u) (w : WatchId) : Orphans w s u :=
  ⟨h.ctxs, h.lists, fun g => .inl (h.wires g)⟩

theorem Orphans.trans {w : WatchId} {s u v : State} (h : Orphans w s u) (k : Untouched u v) : Orphans w s v where
  ctxs := k.ctxs.trans h.ctxs
  lists g := ⟨(k.lists g).1.trans (h.lists g).1, (k.lists g).2.trans (h.lists g).2⟩
  wires g := by rw [k.wires g]; exact h.wires g

theorem orphans_forgetWatch (w : WatchId) (s : State) (k : SegId) : Orphans w s (s.updSeg k (·.forgetWatch w)) := by
  refine ⟨rfl, fun g => ?_, fun g => ?_⟩
  · rw [State.seg_updSeg]
    split <;> exact ⟨rfl, rfl⟩
  · rw [State.seg_updSeg]
    split
    next h => subst h; exact .inr rfl
    next => exact .inl rfl

theorem runWatchRemove_orphans (r : Record) (s : State) :
    Untouched s (runWatchRemove r s) ∨ ∃ w, watchOfByte (r.byte 7) = some w ∧ Orphans w s (runWatchRemove r s) := by
  unfold runWatchRemove
  split
  · exact .inl (untouched_adminDone s _ _)
  next w named =>
    split
    · exact .inl (untouched_adminDone s _ _)
    · refine .inr ⟨w, named, ?_⟩
      dsimp only
      split
      · exact (orphans_forgetWatch w s _).trans (.waits .of_segs _)
      · exact (orphans_forgetWatch w s _).trans (.done .of_segs _ _)

/-- A wire that WATCH_REMOVE marks carries the response write of its own watch. -/
theorem orphaned_cases (y : Wire) (w : WatchId) :
    y.orphaned w = y ∨ ∃ p o, y.owner = .response p o ∧ p.watch = w ∧
      y.orphaned w = { y with owner := .response p true } := by
  unfold Wire.orphaned
  split
  next p o owner =>
    by_cases own : p.watch = w
    · exact .inr ⟨p, o, owner, own, by simp [own]⟩
    · refine .inl ?_
      cases y
      simp_all
  next => exact .inl rfl

theorem val_of_watchOfByte {b : Byte} {w : WatchId} (h : watchOfByte b = some w) : w.val = b.toNat := by
  unfold watchOfByte at h
  split at h
  · exact (congrArg Fin.val (Option.some.inj h)).symm
  · cases h

/-- What the obligation says of a wire after WATCH_REMOVE. -/
theorem watchRemove_leaves {s : State} (distinct : s.distinct) (tag : Nat) (b : Body) :
    let t := (s.adminEntry 0x51 tag b runWatchRemove).settle
    LeavesContexts s t ∧ ∀ g, (t.seg g).wire = (s.seg g).wire ∨ ∃ y p o, (s.seg g).wire = some y ∧ y.owner = .response p o ∧
      p.watch.val = ((Record.of 0x51 b).byte 7).toNat ∧ (t.seg g).wire = some { y with owner := .response p true } := by
  have cases' : Untouched s (s.adminEntry 0x51 tag b runWatchRemove) ∨
      ∃ w, watchOfByte ((Record.of 0x51 b).byte 7) = some w ∧ Orphans w s (s.adminEntry 0x51 tag b runWatchRemove) := by
    refine adminEntry_cases (P := fun u => Untouched s u ∨
      ∃ w, watchOfByte ((Record.of 0x51 b).byte 7) = some w ∧ Orphans w s u) (fun u h => .inl h) ?_
    have entered := untouched_entered s tag (Record.of 0x51 b)
    obtain still | ⟨w, named, h⟩ := runWatchRemove_orphans (Record.of 0x51 b) (s.entered tag (Record.of 0x51 b))
    · exact .inl (entered.trans still)
    · refine .inr ⟨w, named, h.ctxs, h.lists, h.wires⟩
  generalize s.adminEntry 0x51 tag b runWatchRemove = u at *
  dsimp only
  obtain still | ⟨w, named, h⟩ := cases'
  · obtain ⟨contexts, wires⟩ := still.settled distinct
    exact ⟨contexts, fun g => .inl (wires g)⟩
  · refine ⟨leavesContexts_settle distinct h.ctxs h.lists, fun g => ?_⟩
    rw [wire_settle]
    obtain same | marked := h.wires g
    · exact .inl same
    · rw [marked]
      cases wire : (s.seg g).wire with
      | none => exact .inl rfl
      | some y =>
        obtain same | ⟨p, o, owner, own, eq⟩ := orphaned_cases y w
        · exact .inl (congrArg some same)
        · exact .inr ⟨y, p, o, rfl, owner, own ▸ val_of_watchOfByte named, congrArg some eq⟩

/-! ### The obligation -/

theorem leaves_done {s u t : State} (h : Untouched s u) (distinct : s.distinct) (next : done u = .next t) :
    LeavesAll s t := by
  rw [next_of_done next]
  exact h.settled distinct

theorem leaves_admin {s t : State} {op : Byte} {tag : Nat} {b : Body} {run : Record → State → State}
    (rule : ∀ r u, Untouched u (run r u)) (distinct : s.distinct)
    (next : done (s.adminEntry op tag b run) = .next t) : LeavesAll s t :=
  leaves_done (adminEntry_cases (P := Untouched s) (fun _ h => h) ((untouched_entered s tag _).trans (rule _ _))) distinct next

theorem leaves_next {s u t : State} (h : Untouched s u) (next : (.next u : Result) = .next t) : LeavesAll s t := by
  rw [← Host.Outcome.next.inj next]
  exact h.leaves

theorem leaves_adminRegister {s t : State} {r : AdminReg} {e : BitVec 8} {v : BitVec 64}
    (next : exec (.adminQueueRegisterWrite r e v) s = .next t) : LeavesAll s t := by
  replace next : execAdminQueueRegisterWrite r e v s = .next t := next
  unfold execAdminQueueRegisterWrite at next
  split at next
  · cases r with
    | sqBase => exact leaves_next .of_segs next
    | cqBase => exact leaves_next .of_segs next
    | sizes => exact leaves_next .of_segs next
  · exact leaves_next (.refl s) next

theorem leaves_other {s t : State} {k : Nat} {w : RegWrite} (next : exec (.registerWriteOther k w) s = .next t) :
    LeavesAll s t := by
  replace next : execRegisterWriteOther k w s = .next t := next
  unfold execRegisterWriteOther at next
  split at next
  · exact leaves_next (.refl s) next
  · cases next

/-- Settles O60, by what each command leaves alone. -/
theorem commandsLeaveContexts : Obligations.CommandsLeaveContexts := by
  intro tag b w k e v r s t distinct reset i hi next
  have noReset : w.enables.getLsbD 0 = true → w.value.getLsbD 1 = false := fun on =>
    reset.resolve_left (by rw [on]; exact Bool.noConfusion)
  have control : LeavesAll s (s.writeControl w) := writeControl_leaves distinct noReset
  by_cases removes : i = .watchRemove tag b
  · subst removes
    rw [next_of_done next]
    obtain ⟨⟨contexts, nums⟩, wires⟩ := watchRemove_leaves distinct tag b
    exact ⟨contexts, nums, fun g => (wires g).imp id fun marked => ⟨rfl, marked⟩⟩
  suffices leaves : LeavesAll s t from ⟨leaves.1.1, leaves.1.2, fun g => .inl (leaves.2 g)⟩
  simp only [List.mem_cons, List.not_mem_nil, or_false] at hi
  obtain rfl | rfl | rfl | rfl | rfl | rfl | rfl | rfl | rfl | rfl | rfl | rfl | rfl | rfl | rfl | rfl | rfl | rfl | rfl |
    rfl | rfl | rfl | rfl | rfl | rfl := hi
  · exact Host.Outcome.next.inj next ▸ control
  · exact Host.Outcome.next.inj next ▸ control
  · exact Host.Outcome.next.inj next ▸ control
  · exact Host.Outcome.next.inj next ▸ control
  · exact leaves_adminRegister next
  · exact leaves_done (untouched_writeEventHead s w) distinct next
  · exact leaves_next .of_segs next
  · exact leaves_next .of_segs next
  · exact leaves_next .of_segs next
  · exact leaves_other next
  · exact leaves_admin untouched_runCreateSq distinct next
  · exact leaves_admin untouched_runCreateCq distinct next
  · exact leaves_admin untouched_runDeleteCq distinct next
  · exact leaves_admin untouched_runSegmentSetup distinct next
  · exact leaves_admin untouched_runSegmentOn distinct next
  · exact leaves_admin untouched_runSegmentRecover distinct next
  · exact leaves_admin untouched_runQuerySegment distinct next
  · exact leaves_admin untouched_runQueryTarget distinct next
  · exact leaves_admin untouched_runWatchAdd distinct next
  · exact absurd rfl removes
  · exact leaves_admin untouched_runWatchArm distinct next
  · exact leaves_admin untouched_runQueryWatch distinct next
  · exact leaves_admin untouched_runRestoreAdd distinct next
  · exact leaves_admin untouched_runRestoreDrop distinct next
  · exact leaves_admin untouched_runConfigureEvents distinct next

end Sys2Proof.Machine
end

section
/-! PROOFS. Timers: when each comes, what one taken early does, and what each does when its tick is here (R12, R81, R82, R102,
R116 to R118, R142). -/

namespace Sys2Proof.Machine

set_option Elab.async false -- one thread elaborates: the checker's memory is limited

/-! ### When each comes -/

theorem hasCome_iff {s : State} {e : TimedEvent} : s.hasCome e = true ↔ ∃ t, s.comesAt e = some t ∧ t ≤ s.ticks := by
  refine ⟨comesAt_of_hasCome, ?_⟩
  rintro ⟨t, at', here⟩
  rw [State.hasCome, at']
  exact decide_eq_true here

theorem hostRetryEnd_iff {s : State} {n : CtxNum} {t : Nat} : s.hostRetryEnd n = some t ↔
    ∃ c, s.ctx n = some c ∧ c.state = .retryWait ∧ c.retryEnd = some t := by
  unfold State.hostRetryEnd
  cases s.ctx n with
  | none => simp
  | some c => simp

theorem pollRetryEnd_iff {s : State} {w : WatchId} {t : Nat} : s.pollRetryEnd w = some t ↔
    ∃ x, s.watch w = some x ∧ x.poll = .retryWait ∧ x.retryEnd = some t := by
  unfold State.pollRetryEnd
  cases s.watch w with
  | none => simp
  | some x => simp

theorem respDelay_iff {s : State} {w : WatchId} {d : RespDelay} : s.respDelay w = some d ↔
    ∃ x l m, s.watch w = some x ∧ (s.seg x.cfg.tgt.seg).respDelays = l ++ d :: m ∧ (∀ p ∈ l, p.write.watch ≠ w) ∧
      d.write.watch = w := by
  unfold State.respDelay
  cases s.watch w with
  | none => simp
  | some x =>
    dsimp only
    rw [List.find?_eq_some_iff_append]
    simp
    tauto

theorem replayRetryEnd_iff {s : State} {x : Tgt} {t : Nat} : s.replayRetryEnd x = some t ↔
    ∃ j, s.job x = some j ∧ j.retryEnd = some t := by
  unfold State.replayRetryEnd
  cases s.job x with
  | none => simp
  | some j => simp

theorem intervalEnd_iff {s : State} {n : CtxNum} {t : Nat} : s.intervalEnd n = some t ↔
    ∃ c e, s.ctx n = some c ∧ c.state = .pollWait ∧ c.pollEnd = some e ∧ 10 * e = t := by
  unfold State.intervalEnd
  cases s.ctx n with
  | none => simp
  | some c => simp

theorem deadlineEnd_iff {s : State} {n : CtxNum} {t : Nat} : s.deadlineEnd n = some t ↔
    ∃ c e, s.ctx n = some c ∧ c.deadline = some e ∧ 10 * e = t := by
  unfold State.deadlineEnd
  cases s.ctx n with
  | none => simp
  | some c => simp

theorem dueEnd_iff {s : State} {w : WatchId} {t : Nat} : s.dueEnd w = some t ↔
    ∃ x e, s.watch w = some x ∧ x.state = .armed ∧ x.nextDue = some e ∧ 10 * e = t := by
  unfold State.dueEnd
  cases s.watch w with
  | none => simp
  | some x => simp

/-- A timed event whose timer ends here or before has come. -/
theorem hasCome_of_comesAt {s : State} {e : TimedEvent} {t : Nat} (at' : s.comesAt e = some t) (here : t ≤ s.ticks) :
    s.hasCome e = true := hasCome_iff.2 ⟨t, at', here⟩

/-! ### Taken early -/

/-- A timer's event taken before its tick: time moves on to the tick, and the event is taken if its timer still runs. -/
theorem exec_early {s : State} {i : TimedEvent} {e : Nat} (at' : s.comesAt i = some e) (timer : ∀ a tag, i ≠ .limit a tag) :
    ((s.advance e).hasCome i = true →
      ∃ t, exec i.command s = .next t ∧ exec i.command (s.advance e) = .next t) ∧
    ((s.advance e).hasCome i = false → exec i.command s = .next (s.advance e).settle) := by
  have awaits : exec i.command s = done (s.await i) := by
    cases i with
    | retry r => rfl
    | interval n => rfl
    | deadline n => rfl
    | due w => rfl
    | limit a tag => exact absurd rfl (timer a tag)
  have await : s.await i = if (s.advance e).hasCome i then (s.advance e).take i else s.advance e := by
    rw [State.await, at']
  rw [awaits, await]
  refine ⟨fun come => ⟨_, ?_, exec_command_come come⟩, fun stopped => ?_⟩
  · rw [if_pos come]
    rfl
  · rw [stopped]
    rfl

/-! ### Due polls -/

theorem insertRetried_eq (d : DuePoll) (l : List DuePoll) :
    insertRetried d l = l.takeWhile (·.retried) ++ d :: l.dropWhile (·.retried) := by
  induction l with
  | nil => rfl
  | cons x l ih =>
    rw [insertRetried]
    cases h : x.retried with
    | true => simp [h, ih]
    | false => simp [h]

/-- A due poll stands before another in the due-poll list: it is a retry, or due earlier, or of a lower watch (R116). -/
def DuePoll.before (x d : DuePoll) : Bool := x.retried || x.due < d.due || (x.due == d.due && x.watch < d.watch)

theorem DuePoll.before_iff {x d : DuePoll} :
    x.before d = true ↔ x.retried = true ∨ x.due < d.due ∨ (x.due = d.due ∧ x.watch < d.watch) := by
  simp [DuePoll.before, or_assoc]

theorem insertDue_eq (d : DuePoll) (l : List DuePoll) :
    insertDue d l = l.takeWhile (·.before d) ++ d :: l.dropWhile (·.before d) := by
  induction l with
  | nil => rfl
  | cons x l ih =>
    rw [insertDue]
    by_cases h : x.before d = true
    · rw [if_pos (DuePoll.before_iff.1 h), List.takeWhile_cons, List.dropWhile_cons, if_pos h, if_pos h, ih]
      rfl
    · rw [if_neg (mt DuePoll.before_iff.2 h), List.takeWhile_cons, List.dropWhile_cons, if_neg h, if_neg h]
      rfl

theorem not_of_head?_dropWhile {α : Type} {p : α → Bool} {l : List α} {x : α} (h : x ∈ (l.dropWhile p).head?) : p x = false := by
  have head := List.head?_dropWhile_not p l
  rw [h] at head
  simpa using head

/-! ### What each does -/

/-- A context joins those offered on a segment (R12, R81). -/
theorem offered_append (s : State) (g : SegId) (n : CtxNum) :
    (∀ k, ((s.updSeg g fun y => { y with offered := y.offered ++ [n] }).seg k).pendingList = (s.seg k).pendingList ∧
      ∀ m ∈ (s.seg k).offered, m ∈ ((s.updSeg g fun y => { y with offered := y.offered ++ [n] }).seg k).offered) ∧
    n ∈ ((s.updSeg g fun y => { y with offered := y.offered ++ [n] }).seg g).offered := by
  refine ⟨fun k => ?_, ?_⟩
  · rw [State.seg_updSeg]
    split
    · exact ⟨rfl, fun m hm => List.mem_append_left _ hm⟩
    · exact ⟨rfl, fun m hm => hm⟩
  · rw [State.seg_updSeg_same]
    exact List.mem_append_right _ (List.mem_singleton_self n)

section

variable {s : State} {c : Ctx} (distinct : s.distinct) (hc : c ∈ s.ctxs)

include distinct hc in
/-- A context that changes and may be offered, and then what follows by itself. -/
theorem changed_settled {f : Ctx → Ctx} {u : State} (num : ∀ d, (f d).num = d.num) (calm : (f c).calm)
    (ctxs : u.ctxs = (s.updCtx c.num f).ctxs)
    (lists : ∀ g, (u.seg g).pendingList = (s.seg g).pendingList ∧ ∀ m ∈ (s.seg g).offered, m ∈ (u.seg g).offered) :
    f c ∈ u.settle.ctxs ∧ (∀ g, c.num ∈ (u.seg g).offered → c.num ∈ (u.settle.seg g).offered) ∧
      s.keepsOthers u.settle c.num := by
  have still : u.distinct := by
    rw [State.distinct, ctxs]
    exact (shrinks_updCtx s c.num num).distinct distinct
  have mem : f c ∈ u.ctxs := ctxs ▸ mem_updCtx hc f
  have keeps := settle_keeps u
  refine ⟨keeps.calm still _ mem calm, fun g offered => ?_, keepsOthers_of_spares still fun d other _ => ?_⟩
  · have kept := keeps.offered still _ mem calm g
    rw [num] at kept
    exact kept offered
  · refine (spares_updCtx s other f).trans fun hd => ⟨ctxs ▸ hd, fun g => ⟨?_, (lists g).2 _⟩⟩
    rw [(lists g).1]
    exact id

include distinct hc in
/-- A context that changes and is offered on its segment, and then what follows by itself. -/
theorem offered_settled {f : Ctx → Ctx} (num : ∀ d, (f d).num = d.num) (calm : (f c).calm) {u : State}
    (offers : u = (s.updCtx c.num f).updSeg c.seg fun y => { y with offered := y.offered ++ [c.num] }) :
    f c ∈ u.settle.ctxs ∧ c.num ∈ (u.settle.seg c.seg).offered ∧ s.keepsOthers u.settle c.num ∧
      u.settle.standing = s.standing := by
  obtain ⟨lists, here⟩ := offered_append (s.updCtx c.num f) c.seg c.num
  have stands : u.standing = s.standing := by
    rw [offers]
    exact standing_updSeg _ _ _ rfl
  have ctxs : u.ctxs = (s.updCtx c.num f).ctxs := by rw [offers]; rfl
  rw [← offers] at lists here
  obtain ⟨mem, offered, others⟩ := changed_settled distinct hc num calm ctxs lists
  exact ⟨mem, offered _ here, others, (settle_standing u).trans stands⟩

/-- R12: a host context's retry is offered, unless it is the holder's next frame. -/
theorem offerHostRetry_eq (found : s.ctx c.num = some c) : s.offerHostRetry c.num =
    if s.holdsSegment c then s.updCtx c.num fun d => { d with retryEnd := none }
    else (s.updCtx c.num fun d => { d with retryEnd := none }).updSeg c.seg fun y =>
      { y with offered := y.offered ++ [c.num] } := by
  rw [State.offerHostRetry, found]
  rfl

include distinct hc in
theorem hostRetry_ends {e : Nat} (waits : c.state = .retryWait) (ends : c.retryEnd = some e) (here : e ≤ s.ticks) :
    ∃ t, exec (.retryDelayEnd (.host c.num)) s = .next t ∧ { c with retryEnd := none } ∈ t.ctxs ∧
      (s.holdsSegment c = false → c.num ∈ (t.seg c.seg).offered) ∧ s.keepsOthers t c.num ∧ t.standing = s.standing := by
  have found := ctx_of_mem distinct hc
  have come : s.hasCome (.retry (.host c.num)) = true :=
    hasCome_of_comesAt (hostRetryEnd_iff.2 ⟨c, found, waits, ends⟩) here
  have calm : ({ c with retryEnd := none } : Ctx).calm := by simp [Ctx.calm, waits]
  have eq := offerHostRetry_eq found
  refine ⟨(s.offerHostRetry c.num).settle, exec_command_come come, ?_⟩
  cases holds : s.holdsSegment c with
  | true =>
    rw [holds, if_pos rfl] at eq
    have stands : (s.offerHostRetry c.num).standing = s.standing := by rw [eq]; rfl
    obtain ⟨mem, -, others⟩ := changed_settled (f := fun d => { d with retryEnd := none }) distinct hc (fun _ => rfl) calm
      (congrArg State.ctxs eq) fun g => by rw [eq]; exact ⟨rfl, fun _ => id⟩
    exact ⟨mem, nofun, others, (settle_standing _).trans stands⟩
  | false =>
    rw [holds, if_neg (by decide)] at eq
    obtain ⟨mem, offered, others, stands⟩ := offered_settled (f := fun d => { d with retryEnd := none }) distinct hc
      (fun _ => rfl) calm eq
    exact ⟨mem, fun _ => offered, others, stands⟩

/-- R81: a WAIT_UNTIL that was waiting out its poll interval is offered. -/
theorem offerPollWait_eq (found : s.ctx c.num = some c) : s.offerPollWait c.num =
    (s.updCtx c.num fun d => { d with pollEnd := none }).updSeg c.seg fun y => { y with offered := y.offered ++ [c.num] } := by
  rw [State.offerPollWait, found]

include distinct hc in
theorem interval_ends {e : Nat} (waits : c.state = .pollWait) (ends : c.pollEnd = some e) (here : 10 * e ≤ s.ticks) :
    ∃ t, exec (.pollIntervalEnd c.num) s = .next t ∧ { c with pollEnd := none } ∈ t.ctxs ∧
      c.num ∈ (t.seg c.seg).offered ∧ s.keepsOthers t c.num ∧ t.standing = s.standing := by
  have found := ctx_of_mem distinct hc
  have come : s.hasCome (.interval c.num) = true :=
    hasCome_of_comesAt (intervalEnd_iff.2 ⟨c, e, found, waits, ends, rfl⟩) here
  have calm : ({ c with pollEnd := none } : Ctx).calm := by simp [Ctx.calm, waits]
  exact ⟨(s.offerPollWait c.num).settle, exec_command_come come,
    offered_settled (f := fun d => { d with pollEnd := none }) distinct hc (fun _ => rfl) calm (offerPollWait_eq found)⟩

/-- R82 outside chains: a deadline ends a waiting WAIT_UNTIL, and no other. -/
theorem passDeadline_eq (found : s.ctx c.num = some c) : s.passDeadline c.num =
    if c.state = .pollWait ∨ c.state = .retryWait then s.endCommand c.num .conditionTimeout
    else s.updCtx c.num fun c => { c with deadline := none, deadlinePassed := true } := by
  rw [State.passDeadline, found]
  dsimp only
  cases h : c.state <;> simp

include distinct hc in
theorem deadline_ends {e : Nat} (ends : c.deadline = some e) (alone : c.chain = none)
    (active : (s.cq (s.sq c.sq).bound).state = .active) (here : 10 * e ≤ s.ticks) :
    ∃ t, exec (.waitUntilDeadline c.num) s = .next t ∧ t.standing = s.standing ∧
      (c.state = .pollWait ∨ c.state = .retryWait → c.staged = [] →
        t.readyWith (s.sq c.sq).bound c .conditionTimeout ∧ s.keepsOthers t c.num) ∧
      (c.state = .active → { c with deadline := none, deadlinePassed := true } ∈ t.ctxs ∧ s.keepsOthers t c.num) := by
  have found := ctx_of_mem distinct hc
  have come : s.hasCome (.deadline c.num) = true :=
    hasCome_of_comesAt (deadlineEnd_iff.2 ⟨c, e, found, ends, rfl⟩) here
  refine ⟨_, exec_command_come come, ?_⟩
  change (s.passDeadline c.num).settle.standing = _ ∧ _
  rw [show s.take (.deadline c.num) = s.passDeadline c.num from rfl, passDeadline_eq found]
  split
  next waits =>
    obtain ⟨cancelled, others, stands⟩ := endsAlone_settled distinct hc active
      (endsAlone_endCommand found alone .conditionTimeout)
    refine ⟨(settle_standing _).trans stands, fun _ staged => ⟨cancelled.ready staged, others⟩, fun running => ?_⟩
    simp [running] at waits
  next running =>
    refine ⟨settle_standing _, fun waits => absurd waits running, fun active => ?_⟩
    obtain ⟨mem, -, others⟩ := changed_settled (f := fun d => { d with deadline := none, deadlinePassed := true })
      (u := s.updCtx c.num fun d => { d with deadline := none, deadlinePassed := true }) distinct hc (fun _ => rfl)
      (by simp [Ctx.calm, active]) rfl fun _ => ⟨rfl, fun _ => id⟩
    exact ⟨mem, others⟩

end

section

variable {s : State}

theorem pollRetry_ends {i : WatchId} {x : Watch} {e : Nat} (found : s.watch i = some x) (waits : x.poll = .retryWait)
    (ends : x.retryEnd = some e) (here : e ≤ s.ticks) :
    ∃ t l m d, exec (.retryDelayEnd (.poll i)) s = .next t ∧ (s.seg x.cfg.tgt.seg).duePolls = l ++ m ∧
      (∀ p ∈ l, p.retried = true) ∧ (∀ p ∈ m.head?, p.retried = false) ∧ d.watch = i ∧ d.retried = true ∧
      t.standing = ((s.updSeg x.cfg.tgt.seg fun y =>
        { y with duePolls := l ++ d :: m }).setWatch i (some { x with poll := .listed, retryEnd := none })).standing := by
  have come : s.hasCome (.retry (.poll i)) = true := hasCome_of_comesAt (pollRetryEnd_iff.2 ⟨x, found, waits, ends⟩) here
  refine ⟨_, _, _, { watch := i, due := s.now, retried := true }, exec_command_come come,
    List.takeWhile_append_dropWhile.symm, fun p hp => List.mem_takeWhile_imp hp, fun p => not_of_head?_dropWhile, rfl, rfl, ?_⟩
  rw [settle_standing, ← insertRetried_eq]
  change (s.listPollRetry i).standing = _
  rw [State.listPollRetry, found]
  rfl

theorem responseRetry_ends {i : WatchId} {x : Watch} {l m : List RespDelay} {d : RespDelay} (found : s.watch i = some x)
    (delays : (s.seg x.cfg.tgt.seg).respDelays = l ++ d :: m) (first : ∀ p ∈ l, p.write.watch ≠ i) (own : d.write.watch = i)
    (here : d.retryEnd ≤ s.ticks) :
    ∃ t, exec (.retryDelayEnd (.response i)) s = .next t ∧
      t.standing = (s.updSeg x.cfg.tgt.seg fun y =>
        { y with respDelays := l ++ m, writes := .response d.write :: y.writes }).standing := by
  have delay : s.respDelay i = some d := respDelay_iff.2 ⟨x, l, m, found, delays, first, own⟩
  have come : s.hasCome (.retry (.response i)) = true :=
    hasCome_of_comesAt (t := d.retryEnd) (congrArg (Option.map RespDelay.retryEnd) delay) here
  refine ⟨_, exec_command_come come, ?_⟩
  rw [settle_standing]
  change (s.offerResponse i).standing = _
  rw [State.offerResponse, found, delay]
  have erased : (s.seg x.cfg.tgt.seg).respDelays.erase d = l ++ m := by
    rw [delays, List.erase_append_right _ fun hd => first d hd own, List.erase_cons_head]
  unfold State.updSeg
  dsimp only
  rw [erased]

theorem replayRetry_ends {x : Tgt} {j : Job} {e : Nat} (found : s.job x = some j) (ends : j.retryEnd = some e)
    (here : e ≤ s.ticks) :
    ∃ t, exec (.retryDelayEnd (.replay x)) s = .next t ∧
      t.standing = ((s.updJob x fun j =>
        { j with retryEnd := none }).updSeg x.seg fun y => { y with writes := .job x :: y.writes }).standing := by
  have come : s.hasCome (.retry (.replay x)) = true := hasCome_of_comesAt (replayRetryEnd_iff.2 ⟨j, found, ends⟩) here
  exact ⟨_, exec_command_come come, settle_standing _⟩

/-- R116, R118: a watch that is due is listed, or its due time is overrun. -/
theorem becomeDue_eq {i : WatchId} {x : Watch} {e : Nat} (found : s.watch i = some x) (due : x.nextDue = some e) :
    s.becomeDue i = if x.poll = .none then
        (s.setWatch i (some { x with poll := .listed, nextDue := some (e + x.cfg.interval) })).updSeg x.cfg.tgt.seg
          fun y => { y with duePolls := insertDue { watch := i, due := e, retried := false } y.duePolls }
      else s.setWatch i (some { x with overrun := true, nextDue := none, overrunCount := min (x.overrunCount + 1) 255 }) := by
  rw [State.becomeDue, found]
  dsimp only
  rw [due]

theorem watch_comes_due {i : WatchId} {x : Watch} {e : Nat} (found : s.watch i = some x) (armed : x.state = .armed)
    (due : x.nextDue = some e) (here : 10 * e ≤ s.ticks) :
    (x.poll = .none →
      ∃ t l m, exec (.watchDue i) s = .next t ∧ (s.seg x.cfg.tgt.seg).duePolls = l ++ m ∧
        (∀ p ∈ l, p.retried = true ∨ p.due < e ∨ (p.due = e ∧ p.watch < i)) ∧
        (∀ p ∈ m.head?, p.retried = false ∧ ¬ (p.due < e ∨ (p.due = e ∧ p.watch < i))) ∧
        t.standing = ((s.updSeg x.cfg.tgt.seg fun y =>
          { y with duePolls := l ++ { watch := i, due := e, retried := false } :: m }).setWatch i
            (some { x with poll := .listed, nextDue := some (e + x.cfg.interval) })).standing) ∧
    (x.poll ≠ .none →
      ∃ t, exec (.watchDue i) s = .next t ∧
        t.standing = (s.setWatch i (some { x with
          overrun := true, nextDue := none, overrunCount := min (x.overrunCount + 1) 255 })).standing) := by
  have come : s.hasCome (.due i) = true := hasCome_of_comesAt (dueEnd_iff.2 ⟨x, e, found, armed, due, rfl⟩) here
  have runs := exec_command_come come
  rw [show s.take (.due i) = s.becomeDue i from rfl, becomeDue_eq found due] at runs
  refine ⟨fun free => ?_, fun polled => ?_⟩
  · rw [if_pos free] at runs
    refine ⟨_, _, _, runs, (List.takeWhile_append_dropWhile (p := fun p : DuePoll => p.before ⟨i, e, false⟩)).symm,
      fun p hp => ?_, fun p hp => ?_, ?_⟩
    · exact (DuePoll.before_iff (d := ⟨i, e, false⟩)).1
        (List.mem_takeWhile_imp (p := fun p : DuePoll => p.before ⟨i, e, false⟩) hp)
    · have later := not_of_head?_dropWhile hp
      rw [← Bool.not_eq_true, DuePoll.before_iff, not_or] at later
      exact ⟨Bool.eq_false_iff.2 later.1, later.2⟩
    · rw [settle_standing, ← insertDue_eq]
      rfl
  · rw [if_neg polled] at runs
    exact ⟨_, runs, settle_standing _⟩

end

/-- Settles O53: when each timer ends, what one taken early does, and what each does. -/
theorem timersFire : Obligations.TimersFire := by
  refine ⟨fun s => ⟨fun n => ?_, fun w => ?_, fun w => ?_, fun x => ?_, fun n => ?_, fun n => ?_, fun w => ?_⟩,
    fun s => ?_, ⟨fun s c e distinct hc => hostRetry_ends distinct hc, fun s i x e => pollRetry_ends,
      fun s i x l m d => responseRetry_ends, fun s x j e => replayRetry_ends,
      fun s c e distinct hc => interval_ends distinct hc, fun s c e distinct hc => deadline_ends distinct hc⟩,
    fun s i x e => watch_comes_due⟩
  · refine hasCome_iff.trans ?_
    simp only [State.comesAt, State.retryEnd, hostRetryEnd_iff]
    tauto
  · refine hasCome_iff.trans ?_
    simp only [State.comesAt, State.retryEnd, pollRetryEnd_iff]
    tauto
  · refine hasCome_iff.trans ?_
    simp only [State.comesAt, State.retryEnd, Option.map_eq_some_iff, respDelay_iff]
    refine ⟨?_, ?_⟩
    · rintro ⟨_, ⟨d, ⟨x, l, m, found, delays, first, own⟩, rfl⟩, here⟩
      exact ⟨x, l, m, d, found, delays, first, own, here⟩
    · rintro ⟨x, l, m, d, found, delays, first, own, here⟩
      exact ⟨_, ⟨d, ⟨x, l, m, found, delays, first, own⟩, rfl⟩, here⟩
  · refine hasCome_iff.trans ?_
    simp only [State.comesAt, State.retryEnd, replayRetryEnd_iff]
    tauto
  · refine hasCome_iff.trans ?_
    simp only [State.comesAt, intervalEnd_iff]
    exact ⟨fun ⟨_, ⟨c, e, found, waits, ends, same⟩, here⟩ => ⟨c, e, found, waits, ends, same ▸ here⟩,
      fun ⟨c, e, found, waits, ends, here⟩ => ⟨_, ⟨c, e, found, waits, ends, rfl⟩, here⟩⟩
  · refine hasCome_iff.trans ?_
    simp only [State.comesAt, deadlineEnd_iff]
    exact ⟨fun ⟨_, ⟨c, e, found, ends, same⟩, here⟩ => ⟨c, e, found, ends, same ▸ here⟩,
      fun ⟨c, e, found, ends, here⟩ => ⟨_, ⟨c, e, found, ends, rfl⟩, here⟩⟩
  · refine hasCome_iff.trans ?_
    simp only [State.comesAt, dueEnd_iff]
    exact ⟨fun ⟨_, ⟨x, e, found, armed, due, same⟩, here⟩ => ⟨x, e, found, armed, due, same ▸ here⟩,
      fun ⟨x, e, found, armed, due, here⟩ => ⟨_, ⟨x, e, found, armed, due, rfl⟩, here⟩⟩
  · exact ⟨fun n c e found waits ends => exec_early (hostRetryEnd_iff.2 ⟨c, found, waits, ends⟩) nofun,
      fun w x e found waits ends => exec_early (pollRetryEnd_iff.2 ⟨x, found, waits, ends⟩) nofun,
      fun w x l m d found delays first own => exec_early
        (congrArg (Option.map RespDelay.retryEnd) (respDelay_iff.2 ⟨x, l, m, found, delays, first, own⟩)) nofun,
      fun x j e found ends => exec_early (replayRetryEnd_iff.2 ⟨j, found, ends⟩) nofun,
      fun n c e found waits ends => exec_early (intervalEnd_iff.2 ⟨c, e, found, waits, ends, rfl⟩) nofun,
      fun n c e found ends => exec_early (deadlineEnd_iff.2 ⟨c, e, found, ends, rfl⟩) nofun,
      fun w x e found armed due => exec_early (dueEnd_iff.2 ⟨x, e, found, armed, due, rfl⟩) nofun⟩

end Sys2Proof.Machine
end

section
/-! PROOFS. O44 fails: its statement does not ask that the numbers of the contexts out of FREE be distinct, and with a FENCE of
the same number a context with a frame on the wire is not left as it is. -/

namespace Sys2Proof.Machine

set_option Elab.async false -- one thread elaborates: the checker's memory is limited

/-! ### Two contexts of one number -/

/-- A FENCE of SQ1 that waits, in context 2. -/
def twinFence : Ctx := { Ctx.fetched 2 1 (Record.of 0x07 0) none with state := .fenceWait }

/-- A READ of SQ1 with its frame on the wire, in context 2 too. -/
def twinRead : Ctx := { Ctx.fetched 2 1 (Record.of 0x01 0) none with state := .active }

/-- An engine that waits for an entry of SQ0, with the two contexts. -/
def twinState : State :=
  { State.reset with
    adm := { ctx := none, read := some 7 }
    ctxs := [twinFence, twinRead]
    segs := State.reset.segs.set 0 { State.reset.segs.get 0 with
      state := .active
      wire := some { kind := .read, tgt := some twinRead.tgt, index := 0, owner := .host 2, header := 0, payload := none } } }

theorem twinRead_onWire : twinRead ∈ twinState.ctxs ∧ twinRead.state = .active ∧ twinState.onWire twinRead = true := by
  decide +kernel

/-- The FENCE is released as the engine fails, and takes the other context of its number along. -/
theorem twinRead_lost : twinRead ∉ (twinState.readFailed 0 7).settle.ctxs := by decide +kernel

/-- Refutes O44: with two contexts of one number, which no run reaches, the failed read of an SQ0 entry does not leave a
context whose frame is on the wire. -/
theorem not_adminMemoryFailures : ¬ Obligations.AdminMemoryFailures := by
  rintro ⟨readFails, -⟩
  obtain ⟨t, next, -, -, -, -, -, left, -⟩ := readFails 7 twinState rfl
  rw [next_of_done next] at left
  obtain ⟨mem, active, wire⟩ := twinRead_onWire
  exact twinRead_lost (left twinRead mem active wire)

end Sys2Proof.Machine
end

section
/-! PROOFS. Attempts of polls, response writes and replay writes (R11, R12, R117 to R119, R128, R130, R141 to R145). -/

namespace Sys2Proof.Machine

set_option Elab.async false -- one thread elaborates: the checker's memory is limited

/-! ### Operations that change no segment but for its internal writes -/

/-- From `s` to `u` segments change in their internal write lists only. -/
def WritesOnly (s u : State) : Prop := ∀ k, ∃ l, u.seg k = { s.seg k with writes := l }

theorem WritesOnly.of_segs {s u : State} (h : u.segs = s.segs := by rfl) : WritesOnly s u := fun k =>
  ⟨(s.seg k).writes, congrArg (fun v => v.get k) h⟩

theorem WritesOnly.trans {s u v : State} (h : WritesOnly s u) (k : WritesOnly u v) : WritesOnly s v := fun g => by
  obtain ⟨l, first⟩ := h g
  obtain ⟨m, second⟩ := k g
  exact ⟨m, by rw [second, first]⟩

theorem WritesOnly.updSeg {s u : State} {g : SegId} {f : SegCtl → SegCtl} (h : WritesOnly s u)
    (only : ∀ y, ∃ l, f y = { y with writes := l }) : WritesOnly s (u.updSeg g f) := h.trans fun k => by
  rw [State.seg_updSeg]
  split
  · exact only _
  · exact ⟨(u.seg k).writes, rfl⟩

theorem writesOnly_respond (s : State) (w : WatchId) : WritesOnly s (s.respond w) := by
  unfold State.respond
  split
  · exact .of_segs
  split
  · exact .of_segs
  split
  · exact .of_segs
  · exact .updSeg .of_segs fun _ => ⟨_, rfl⟩

theorem writesOnly_startReplay (s : State) (t : Tgt) (e : Event) : WritesOnly s (s.startReplay t e) := by
  have told : WritesOnly s ((s.setPres t { s.pres t with state := .restoring }).handEvent e) := .of_segs (by simp)
  exact .updSeg (told.trans .of_segs) fun _ => ⟨_, rfl⟩

theorem writesOnly_reinitRequest (s : State) (t : Tgt) (w : WatchId) : WritesOnly s (s.reinitRequest t w) := by
  unfold State.reinitRequest
  split
  · split
    · exact writesOnly_startReplay s t _
    · exact .of_segs
  · exact .of_segs (by simp)
  · exact .of_segs

theorem writesOnly_fire (s : State) (w : WatchId) (c : WatchCfg) (p : Option Half) (n : Half) :
    WritesOnly s (s.fire w c p n) := by
  unfold State.fire
  dsimp only
  have counted : WritesOnly s (s.updWatch w fun x => { x with triggers := min (x.triggers + 1) 65535 }) := .of_segs (by simp)
  generalize s.updWatch w (fun x => { x with triggers := min (x.triggers + 1) 65535 }) = a at counted ⊢
  have reported : WritesOnly a (if c.report then a.handReport w n p else a) := .of_segs (by split <;> simp)
  generalize (if c.report then a.handReport w n p else a) = b at reported ⊢
  have asked : WritesOnly b (if c.cond = .reinit then b.reinitRequest c.tgt w else b) := by
    split
    · exact writesOnly_reinitRequest b _ w
    · exact .of_segs
  generalize (if c.cond = .reinit then b.reinitRequest c.tgt w else b) = d at asked ⊢
  refine ((counted.trans reported).trans asked).trans ((writesOnly_respond d w).trans (.of_segs ?_))
  split <;> simp

theorem writesOnly_evaluate (s : State) (w : WatchId) (x : Watch) (v : Half) : WritesOnly s (s.evaluate w x v) := by
  unfold State.evaluate
  dsimp only
  split
  · split
    · exact .trans .of_segs (writesOnly_fire _ w _ _ _)
    · exact .of_segs
  · exact .of_segs

/-! ### How an attempt ends -/

theorem report_watch (s : State) (t : Tgt) (src : Source) (a : Attempt) (i : WatchId) :
    (s.report t src a).watch i = s.watch i ∨ (s.report t src a).watch i = (s.watch i).map fun x =>
      if x.cfg.tgt = t then { x with stable := none, candidate := none, run := 0 } else x := by
  by_cases silent : a = .silent
  · rw [silent, report_silence]
    by_cases loses : ((s.pres t).state = .present ∨ (s.pres t).state = .restoring) ∧
        (s.seg t.seg).settings.missThreshold ≤ (s.pres t).missed.miss
    · right
      have kept : (if (s.pres t).state = .restoring then (s.lostFrom t src).abandonJob t .targetLost
          else s.lostFrom t src).watch i = s.watch i := by split <;> simp [State.lostFrom]
      rw [silence_lost src loses.1 loses.2, State.lossNotice, State.watch_mapWatches, kept]
    · exact .inl (by rw [silence_counts src loses]; rfl)
  · rw [report_answer silent]
    left
    cases state : (s.pres t).state with
    | unknown => rw [answer_unknown src state]; simp
    | present => rw [answer_kept src (.inl state)]; rfl
    | restoring => rw [answer_kept src (.inr state)]; rfl
    | lost =>
      by_cases none : (s.restoreList t).length = 0
      · rw [answer_lost_empty src state none]; simp
      · rw [answer_lost_replay src state none, State.createJob, State.updSeg_watch]
        exact (by simp : ((s.setPres t { state := .restoring, miss := 0 }).handEvent _).watch i = s.watch i)

/-- A report leaves of a watch all but the values that a loss notice takes (R132). -/
theorem reported_watch {s : State} {i : WatchId} {y : Watch} (found : s.watch i = some y) (g : SegId) (t : Tgt) (src : Source)
    (a : Attempt) : ∃ stable candidate run, (s.reported g t src a).watch i =
      some { y with stable := stable, candidate := candidate, run := run } := by
  obtain same | lost := report_watch (s.setSeg g { s.seg g with wire := none }) t src a i
  · exact ⟨_, _, _, same.trans found⟩
  · have found : (s.setSeg g { s.seg g with wire := none }).watch i = some y := found
    rw [found, Option.map_some] at lost
    split at lost
    · exact ⟨_, _, _, lost⟩
    · exact ⟨_, _, _, lost⟩

theorem reported_adm (s : State) (g : SegId) (t : Tgt) (src : Source) (a : Attempt) : (s.reported g t src a).adm = s.adm := by
  simp [State.reported]

theorem attemptEnd_eq {s : State} {g : SegId} {w : Wire} {x : Tgt} {answer : BitVec 2} {data : Half} {parity : Bool}
    (wire : (s.seg g).wire = some w) (tgt : w.tgt = some x) : s.attemptEnd g answer data parity =
      ((s.reported g x w.owner.source (Attempt.ofAnswer w.kind answer data parity)).toOwner g w
        (Attempt.ofAnswer w.kind answer data parity)).drainIfDone g := by
  rw [State.attemptEnd, wire]
  dsimp only
  rw [tgt]
  rfl

theorem Attempt.retriable_iff (a : Attempt) : a.retriable = true ↔ a = .hold ∨ a = .parityFail := by
  cases a <;> simp [Attempt.retriable]

section

variable {s : State} {g : SegId} {w : Wire} {x : Tgt} {answer : BitVec 2} {data : Half} {parity : Bool}
  (wire : (s.seg g).wire = some w) (tgt : w.tgt = some x) (active : (s.seg g).state = .active)

include wire tgt in
/-- On a segment that is still ACTIVE the attempt ends with what its requester does. -/
theorem internal_runs {a : Attempt} (ha : Attempt.ofAnswer w.kind answer data parity = a) {v : State}
    (owner : (s.reported g x w.owner.source a).toOwner g w a = v) (active : (v.seg g).state = .active) :
    exec (.frameAttemptEnd g answer data parity) s = .next v.settle := by
  refine congrArg done (?_ : s.attemptEnd g answer data parity = v)
  rw [attemptEnd_eq wire tgt, ha, owner, drainIfDone_active active]

include active in
theorem reported_active (a : Attempt) (src : Source) : ((s.reported g x src a).seg g).state = .active := by
  obtain ⟨l, seg⟩ := reported_seg s g x src a g
  rw [seg]
  exact active

theorem reported_budget (a : Attempt) (src : Source) (tries : Nat) :
    (s.reported g x src a).budgetLeft g tries = true ↔ tries < 1 + (s.seg g).settings.retryLimit := by
  obtain ⟨l, seg⟩ := reported_seg s g x src a g
  rw [budgetLeft_iff, seg]

theorem reported_retryTick (a : Attempt) (src : Source) :
    (s.reported g x src a).retryTick g = s.ticks + (s.seg g).settings.retryDelay := by
  obtain ⟨l, seg⟩ := reported_seg s g x src a g
  rw [State.retryTick, reported_ticks, seg]

include active in
theorem active_of_writesOnly {a : Attempt} {src : Source} {v : State} (h : WritesOnly (s.reported g x src a) v) :
    (v.seg g).state = .active := by
  obtain ⟨l, seg⟩ := h g
  rw [seg]
  exact reported_active active a src

end

/-! ### Polls -/

theorem setWatch_setWatch (s : State) (i : WatchId) (x y : Option Watch) : (s.setWatch i x).setWatch i y = s.setWatch i y := by
  simp only [State.setWatch, State.mk.injEq, true_and, and_true]
  exact Vector.set_set ..

theorem updWatch_setWatch (s : State) (i : WatchId) (x : Watch) (f : Watch → Watch) :
    (s.setWatch i (some x)).updWatch i f = s.setWatch i (some (f x)) := by
  rw [State.updWatch, State.watch_setWatch_same, setWatch_setWatch]
  rfl

theorem afterPoll_eq (s : State) (y : Watch) :
    y.afterPoll s.ctl.engine s.now = if y.state = .armed then afterPollOf s y else y := rfl

/-- A watch as its poll ends (R119 step 1). -/
def Watch.polled (x : Watch) (a : Attempt) : Watch :=
  { x with poll := .none, tries := 0, retryEnd := none, lastPoll := some a.status }

section

variable {s : State} {i : WatchId} {x : Watch} (a : Attempt) (found : s.watch i = some x)

include found in
theorem pollOver_unarmed (unarmed : x.state ≠ .armed) : s.pollOver i a = s.setWatch i (some (x.polled a)) := by
  rw [State.pollOver, found]
  exact if_neg unarmed

include found in
theorem pollOver_failed (armed : x.state = .armed) (failed : a.status ≠ .success) :
    s.pollOver i a = s.setWatch i (some (afterPollOf s (x.polled a))) := by
  have kept : (x.polled a).afterPoll s.ctl.engine s.now = afterPollOf s (x.polled a) :=
    (afterPoll_eq s _).trans (if_pos armed)
  have ends : s.pollOver i a = (s.setWatch i (some (x.polled a))).updWatch i fun y => y.afterPoll s.ctl.engine s.now := by
    rw [State.pollOver, found]
    refine (if_pos armed).trans ?_
    cases a with
    | accept v => exact absurd rfl failed
    | hold => rfl
    | parityFail => rfl
    | refuse => rfl
    | silent => rfl
  rw [ends, updWatch_setWatch, kept]

include found in
theorem pollOver_accepted (armed : x.state = .armed) (v : Half) : s.pollOver i (.accept v) =
    (s.evaluate i (x.polled (.accept v)) v).updWatch i fun y => if y.state = .armed then afterPollOf s y else y := by
  have ctl : (s.evaluate i (x.polled (.accept v)) v).ctl = s.ctl := by simp
  have ticks : (s.evaluate i (x.polled (.accept v)) v).ticks = s.ticks := by simp
  rw [State.pollOver, found]
  refine (if_pos armed).trans ?_
  change (s.evaluate i (x.polled (.accept v)) v).updWatch i (fun y => y.afterPoll
    (s.evaluate i (x.polled (.accept v)) v).ctl.engine (s.evaluate i (x.polled (.accept v)) v).now) = _
  rw [State.now, ctl, ticks]
  rfl

theorem writesOnly_pollOver (s : State) (i : WatchId) (a : Attempt) : WritesOnly s (s.pollOver i a) := by
  unfold State.pollOver
  split
  · exact .of_segs
  dsimp only
  split
  · split
    · exact (writesOnly_evaluate s i _ _).trans (.of_segs (State.updWatch_segs _ _ _))
    · exact .of_segs
  · exact .of_segs

theorem writesOnly_pollAttempt (s : State) (g : SegId) (i : WatchId) (a : Attempt) : WritesOnly s (s.pollAttempt g i a) := by
  unfold State.pollAttempt
  split
  · exact .of_segs
  split
  · exact .of_segs (by simp [State.removeDone])
  split
  · exact .of_segs
  · exact writesOnly_pollOver s i a

include found in
theorem pollAttempt_eq {g : SegId} (stays : s.adminAt (.removingWatch i) = false) : s.pollAttempt g i a =
    if a.retriable ∧ s.budgetLeft g x.tries ∧ x.state = .armed ∧ (s.seg g).state = .active then
      s.setWatch i (some { x with poll := .retryWait, retryEnd := some (s.retryTick g) })
    else s.pollOver i a := by
  rw [State.pollAttempt, found]
  exact if_neg (by simp [stays])

include found in
theorem pollAttempt_removing {g : SegId} (removing : s.adminAt (.removingWatch i) = true) :
    s.pollAttempt g i a = s.removeDone i := by
  rw [State.pollAttempt, found]
  exact if_pos removing

end

/-! ### Replay writes -/

theorem removeJob_job (s : State) (x : Tgt) : (s.removeJob x).job x = none :=
  List.find?_eq_none.2 fun j hj => by simpa using (List.mem_filter.1 hj).2

theorem settle_job (s : State) (x : Tgt) : s.settle.job x = s.job x := by
  rw [← standing_job, settle_standing, standing_job]

theorem updJob_job (s : State) (x : Tgt) {f : Job → Job} (tgt : ∀ j, (f j).tgt = j.tgt) :
    (s.updJob x f).job x = (s.job x).map f := by
  unfold State.job State.updJob
  dsimp only
  generalize s.jobs = l
  induction l with
  | nil => rfl
  | cons j l ih =>
    by_cases own : j.tgt = x
    · simp [own, tgt]
    · simp only [List.map_cons, if_neg own]
      rw [List.find?_cons_of_neg (by simpa using own), List.find?_cons_of_neg (by simpa using own), ih]

theorem abandonJob_job (s : State) (x : Tgt) (cause : AbandonCause) : (s.abandonJob x cause).job x = none := by
  unfold State.abandonJob
  split
  next none => exact none
  next => exact (by simp : ((s.removeJob x).handEvent _).job x = (s.removeJob x).job x).trans (removeJob_job s x)

/-- A job after a replay write has ended (R141). -/
def Job.counted (j : Job) (a : Attempt) : Job := { j with
  inFlight := none, retryEnd := none
  written := if a.status = .success then j.written + 1 else j.written
  failed := if a.status = .success then j.failed else j.failed + 1
  firstFailed := if a.status = .success then j.firstFailed else (j.firstFailed <|> j.cursor) }

/-- The test of R143. -/
theorem endJobIfOver_eq {s : State} {x : Tgt} {j : Job} (job : s.job x = some j) (idle : j.inFlight = none) :
    s.endJobIfOver x = if s.restoreAbove x j.cursor = [] then
      ((s.removeJob x).replayEnd x).handEvent (.restoreDone x j.written j.failed j.firstFailed none 0) else s := by
  rw [State.endJobIfOver, job]
  refine if_congr ?_ rfl rfl
  simp [State.jobOver, idle, job_tgt job]

section

variable {s : State} {x : Tgt} {j : Job} (a : Attempt) (job : s.job x = some j)

/-- The state in which a replay write's outcome has been counted, and its job stands at the tail of the list (R141). -/
def State.replayed (s : State) (x : Tgt) (a : Attempt) : State :=
  (s.updJob x (·.counted a)).updSeg x.seg fun y => { y with writes := y.writes ++ [.job x] }

include job in
theorem replayed_job : (s.replayed x a).job x = some (j.counted a) := by
  have counted := updJob_job s x (f := (·.counted a)) fun _ => rfl
  rw [job] at counted
  exact counted

include job in
theorem replayOutcome_eq : s.replayOutcome x a = (s.replayed x a).endJobIfOver x := by
  rw [State.replayOutcome, job]
  simp only [beq_iff_eq]
  rfl

include job in
theorem replayAttempt_eq {g : SegId} {v : ReplayWrite} (sent : j.inFlight = some v) : s.replayAttempt g x a =
    if a.retriable ∧ s.budgetLeft g v.tries ∧ (s.seg g).state = .active then
      s.updJob x fun j => { j with retryEnd := some (s.retryTick g) }
    else s.replayOutcome x a := by
  rw [State.replayAttempt, job]
  dsimp only
  rw [sent]

end

theorem writesOnly_removeJob (s : State) (x : Tgt) : WritesOnly s (s.removeJob x) := by
  unfold State.removeJob
  exact .updSeg .of_segs fun _ => ⟨_, rfl⟩

theorem writesOnly_endJobIfOver (s : State) (x : Tgt) : WritesOnly s (s.endJobIfOver x) := by
  unfold State.endJobIfOver
  split
  · exact .of_segs
  split
  · exact (writesOnly_removeJob s x).trans (.of_segs (by simp))
  · exact .of_segs

theorem writesOnly_replayAttempt (s : State) (g : SegId) (x : Tgt) (a : Attempt) :
    WritesOnly s (s.replayAttempt g x a) := by
  cases job : s.job x with
  | none =>
    rw [State.replayAttempt, job]
    exact .of_segs
  | some j =>
    have outcome : WritesOnly s (s.replayOutcome x a) := by
      rw [replayOutcome_eq a job]
      exact .trans (.updSeg .of_segs fun _ => ⟨_, rfl⟩) (writesOnly_endJobIfOver _ x)
    rw [State.replayAttempt, job]
    have either (p : Prop) [Decidable p] (f : Job → Job) :
        WritesOnly s (if p then s.updJob x f else s.replayOutcome x a) := by
      split
      · exact .of_segs
      · exact outcome
    exact either _ _

/-! ### The obligation -/

/-- What is left of a RESTORING target that an attempt does not take to LOST: its miss count (R24, R27). -/
def missAfter (e : PresEntry) (a : Attempt) : Nat := if a = .silent then min (e.miss + 1) 7 else 0

theorem reported_restoring {s : State} {g : SegId} {x : Tgt} {src : Source} {a : Attempt}
    (restoring : (s.pres x).state = .restoring)
    (stays : ¬ (a = .silent ∧ (s.seg x.seg).settings.missThreshold ≤ missAfter (s.pres x) a)) :
    s.reported g x src a =
      (s.setSeg g { s.seg g with wire := none }).setPres x { state := .restoring, miss := missAfter (s.pres x) a } := by
  have settings : ((s.setSeg g { s.seg g with wire := none }).seg x.seg).settings = (s.seg x.seg).settings := by
    rw [State.seg_setSeg]
    split
    next same => rw [same]
    next => rfl
  have pres : (s.setSeg g { s.seg g with wire := none }).pres x = s.pres x := rfl
  unfold State.reported
  generalize s.setSeg g { s.seg g with wire := none } = v at settings pres ⊢
  rw [← pres] at stays restoring ⊢
  rw [← settings] at stays
  unfold missAfter at stays ⊢
  by_cases silent : a = .silent
  · rw [if_pos silent] at stays ⊢
    rw [silent, report_silence, silence_counts src fun h => stays ⟨silent, h.2⟩, PresEntry.missed, restoring]
  · rw [if_neg silent, report_answer silent, answer_kept src (.inr restoring)]
    exact congrArg (fun st => v.setPres x { state := st, miss := 0 }) restoring

theorem reported_lost {s : State} {g : SegId} {x : Tgt} {src : Source} {a : Attempt}
    (restoring : (s.pres x).state = .restoring) (silent : a = .silent)
    (many : (s.seg x.seg).settings.missThreshold ≤ missAfter (s.pres x) a) :
    (s.reported g x src a).job x = none ∧
      (s.reported g x src a).pres x = { state := .lost, miss := missAfter (s.pres x) a } := by
  have settings : ((s.setSeg g { s.seg g with wire := none }).seg x.seg).settings = (s.seg x.seg).settings := by
    rw [State.seg_setSeg]
    split
    next same => rw [same]
    next => rfl
  have pres : (s.setSeg g { s.seg g with wire := none }).pres x = s.pres x := rfl
  unfold State.reported
  generalize s.setSeg g { s.seg g with wire := none } = v at settings pres ⊢
  rw [← pres] at many restoring ⊢
  rw [← settings, missAfter, if_pos silent] at many
  rw [missAfter, if_pos silent, silent, report_silence, silence_lost src (.inr restoring) many, if_pos restoring]
  have job (u : State) : (u.lossNotice x).job x = u.job x := rfl
  have entry (u : State) : (u.lossNotice x).pres x = u.pres x := rfl
  rw [job, entry]
  exact ⟨abandonJob_job _ x _, by simp [State.lostFrom, PresEntry.missed]⟩

section

variable {s : State} {g : SegId} {w : Wire} {x : Tgt} {answer : BitVec 2} {data : Half} {parity : Bool} {a : Attempt}
  (wire : (s.seg g).wire = some w) (tgt : w.tgt = some x) (active : (s.seg g).state = .active)
  (ha : Attempt.ofAnswer w.kind answer data parity = a)

include wire tgt active ha

/-- A poll of a watch that stays ends (R12, R119, R129, R130). -/
theorem poll_ends {i : WatchId} {y : Watch} (owner : w.owner = .poll i) (found : s.watch i = some y)
    (stays : s.adminAt (.removingWatch i) = false) :
    ∃ t z, exec (.frameAttemptEnd g answer data parity) s = .next t ∧
      (s.reported g x w.owner.source a).watch i = some z ∧
      (y.state = .armed → (a = .hold ∨ a = .parityFail) → y.tries < 1 + (s.seg g).settings.retryLimit →
        t.standing = ((s.reported g x w.owner.source a).setWatch i (some { z with
          poll := .retryWait, retryEnd := some (s.ticks + (s.seg g).settings.retryDelay) })).standing) ∧
      (y.state = .armed → ¬ ((a = .hold ∨ a = .parityFail) ∧ y.tries < 1 + (s.seg g).settings.retryLimit) →
        (a.status ≠ .success →
          t.standing = ((s.reported g x w.owner.source a).setWatch i (some (afterPollOf s (z.polled a)))).standing) ∧
        (∀ v, a = .accept v →
          t.standing = (((s.reported g x w.owner.source a).evaluate i (z.polled a) v).updWatch i fun y =>
            if y.state = .armed then afterPollOf s y else y).standing)) ∧
      (y.state ≠ .armed → t.standing = ((s.reported g x w.owner.source a).setWatch i (some (z.polled a))).standing) := by
  obtain ⟨stable, candidate, run, told⟩ := reported_watch found g x w.owner.source a
  have state := reported_active (x := x) active a w.owner.source
  have budget := reported_budget (s := s) (g := g) (x := x) a w.owner.source y.tries
  have tick := reported_retryTick (s := s) (g := g) (x := x) a w.owner.source
  have after (z : Watch) : afterPollOf (s.reported g x w.owner.source a) z = afterPollOf s z := by
    rw [afterPollOf, afterPollOf, reported_ctl, reported_ticks]
  have stays : (s.reported g x w.owner.source a).adminAt (.removingWatch i) = false := by
    rw [State.adminAt, reported_adm]
    exact stays
  have runs := internal_runs wire tgt ha (v := (s.reported g x w.owner.source a).pollAttempt g i a)
    (by rw [State.toOwner, owner]) (active_of_writesOnly active (writesOnly_pollAttempt _ g i a))
  have attempt := pollAttempt_eq a told (g := g) stays
  refine ⟨_, _, runs, told, fun armed failed left => ?_, fun armed ends => ⟨fun failed => ?_, fun v accepted => ?_⟩,
    fun unarmed => ?_⟩
  all_goals rw [settle_standing, attempt]
  · rw [if_pos ⟨(Attempt.retriable_iff a).2 failed, budget.2 left, armed, state⟩, tick]
  · rw [if_neg fun h => ends ⟨(Attempt.retriable_iff a).1 h.1, budget.1 h.2.1⟩, pollOver_failed a told armed failed, after]
  · rw [if_neg fun h => ends ⟨(Attempt.retriable_iff a).1 h.1, budget.1 h.2.1⟩]
    subst accepted
    rw [pollOver_accepted told armed v]
    simp only [after]
  · rw [if_neg fun h => unarmed h.2.2.1, pollOver_unarmed a told unarmed]

/-- A poll of a watch that is being removed completes the removal (R114). -/
theorem removed_poll_ends {i : WatchId} {y : Watch} {r : Record} (owner : w.owner = .poll i) (found : s.watch i = some y)
    (removing : s.adminWaiting r (.removingWatch i)) (open' : (s.cq 0).state = .active) :
    ∃ t, exec (.frameAttemptEnd g answer data parity) s = .next t ∧ t.watch i = none ∧
      t.adminCompleted r .success none := by
  obtain ⟨stable, candidate, run, told⟩ := reported_watch found g x w.owner.source a
  have runs := internal_runs wire tgt ha (v := (s.reported g x w.owner.source a).pollAttempt g i a)
    (by rw [State.toOwner, owner]) (active_of_writesOnly active (writesOnly_pollAttempt _ g i a))
  have adm := reported_adm s g x w.owner.source a
  have cq := reported_cq s g x w.owner.source a 0
  generalize s.reported g x w.owner.source a = u at runs told adm cq
  have removing : u.adminWaiting r (.removingWatch i) := (congrArg Admin.ctx adm).trans removing
  rw [pollAttempt_removing a told (State.adminAt_of_waiting removing)] at runs
  obtain ⟨completed, -⟩ := adminDone_settles (u := u.setWatch i none) .success none removing (by rw [← open', ← cq]; rfl)
  refine ⟨_, runs, ?_, completed⟩
  rw [settle_watch]
  exact (by simp : ((u.setWatch i none).adminDone .success none).watch i = (u.setWatch i none).watch i).trans
    (State.watch_setWatch_same u i none)

/-- A response write's attempt ends (R12, R128). -/
theorem response_ends {r : RespWrite} {orphan : Bool} (owner : w.owner = .response r orphan) :
    exec (.frameAttemptEnd g answer data parity) s =
      .next ((s.reported g x w.owner.source a).responseAttempt g r orphan a).settle := by
  refine internal_runs wire tgt ha (by rw [State.toOwner, owner]) ?_
  have state := reported_active (x := x) active a w.owner.source
  generalize s.reported g x w.owner.source a = u at state ⊢
  unfold State.responseAttempt
  split
  · exact state
  split
  · rw [State.seg_updSeg_same]
    exact state
  · exact state

/-- A replay write's attempt ends (R12, R141, R143, R145). -/
theorem replay_ends {j : Job} {v : ReplayWrite} (owner : w.owner = .replay x) (job : s.job x = some j)
    (restoring : (s.pres x).state = .restoring) (sent : j.inFlight = some v) :
    ∃ t, exec (.frameAttemptEnd g answer data parity) s = .next t ∧
      (a = .silent ∧ (s.seg x.seg).settings.missThreshold ≤ missAfter (s.pres x) a →
        t.job x = none ∧ t.pres x = { state := .lost, miss := missAfter (s.pres x) a } ∧
          t.standing = (s.reported g x w.owner.source a).standing) ∧
      (¬ (a = .silent ∧ (s.seg x.seg).settings.missThreshold ≤ missAfter (s.pres x) a) →
        ((a = .hold ∨ a = .parityFail) → v.tries < 1 + (s.seg g).settings.retryLimit →
          t.standing = ((s.reported g x w.owner.source a).updJob x fun j =>
            { j with retryEnd := some (s.ticks + (s.seg g).settings.retryDelay) }).standing) ∧
        (¬ ((a = .hold ∨ a = .parityFail) ∧ v.tries < 1 + (s.seg g).settings.retryLimit) →
          (s.restoreAbove x j.cursor ≠ [] → t.job x = some (j.counted a) ∧
            t.pres x = { state := .restoring, miss := missAfter (s.pres x) a } ∧
            (t.seg x.seg).writes = ((s.reported g x w.owner.source a).seg x.seg).writes ++ [.job x]) ∧
          (s.restoreAbove x j.cursor = [] → t.job x = none ∧
            t.pres x = { state := .present, miss := missAfter (s.pres x) a } ∧
            t.ev.standing = (s.handEvent (.restoreDone x (j.counted a).written (j.counted a).failed
              (j.counted a).firstFailed none 0)).ev.standing))) := by
  have runs := internal_runs wire tgt ha (v := (s.reported g x w.owner.source a).replayAttempt g x a)
    (by rw [State.toOwner, owner]) (active_of_writesOnly active (writesOnly_replayAttempt _ g x a))
  refine ⟨_, runs, fun lost => ?_, fun stays => ?_⟩
  · obtain ⟨gone, entry⟩ := reported_lost (g := g) (src := w.owner.source) restoring lost.1 lost.2
    rw [settle_job, settle_pres, settle_standing, State.replayAttempt, gone]
    exact ⟨gone, entry, rfl⟩
  · have budget := reported_budget (s := s) (g := g) (x := x) a w.owner.source v.tries
    have tick := reported_retryTick (s := s) (g := g) (x := x) a w.owner.source
    have state := reported_active (x := x) active a w.owner.source
    have told := reported_restoring (g := g) (src := w.owner.source) restoring stays
    have here : (s.reported g x w.owner.source a).job x = some j := by rw [told]; exact job
    have entry : (s.reported g x w.owner.source a).pres x = { state := .restoring, miss := missAfter (s.pres x) a } := by
      rw [told, State.pres_setPres_same]
    have pool : (s.reported g x w.owner.source a).pool = s.pool := reported_pool ..
    have ev : (s.reported g x w.owner.source a).ev = s.ev := by rw [told]; rfl
    have ctl : (s.reported g x w.owner.source a).ctl = s.ctl := reported_ctl ..
    have attempt := replayAttempt_eq a here (g := g) sent
    generalize s.reported g x w.owner.source a = u at *
    refine ⟨fun failed left => ?_, fun ends => ?_⟩
    · rw [settle_standing, attempt, if_pos ⟨(Attempt.retriable_iff a).2 failed, budget.2 left, state⟩, tick]
    · rw [attempt, if_neg fun h => ends ⟨(Attempt.retriable_iff a).1 h.1, budget.1 h.2.1⟩, replayOutcome_eq a here]
      have job := replayed_job a here
      have above : (u.replayed x a).restoreAbove x (j.counted a).cursor = s.restoreAbove x j.cursor := by
        rw [State.restoreAbove, State.restoreAbove, State.restoreList, State.restoreList]
        exact congrArg (fun l => List.filter _ (List.filter _ l)) pool
      have after := endJobIfOver_eq job rfl
      rw [above] at after
      refine ⟨fun more => ?_, fun nothing => ?_⟩
      · rw [if_neg more] at after
        rw [after, settle_job, settle_pres]
        obtain ⟨-, -, -, writes, -⟩ := SegCtl.of_standing (settle_seg (u.replayed x a) x.seg)
        refine ⟨job, entry, writes.trans ?_⟩
        rw [State.replayed, State.seg_updSeg_same]
        rfl
      · rw [if_pos nothing] at after
        rw [after, settle_job, settle_pres, settle_ev]
        have gone : ((((u.replayed x a).removeJob x).replayEnd x).handEvent (.restoreDone x (j.counted a).written
            (j.counted a).failed (j.counted a).firstFailed none 0)).job x = ((u.replayed x a).removeJob x).job x := by simp
        have kept : ((u.replayed x a).removeJob x).pres x = u.pres x := rfl
        refine ⟨gone.trans (removeJob_job _ x), ?_, ?_⟩
        · simp only [State.handEvent_frame, replayEnd_pres, kept, entry, if_true]
        · exact congrArg EventUnit.standing (handEvent_ev_congr (by simpa [State.replayed] using ctl)
            (by simpa [State.replayed] using ev) _)

end

/-- Settles O52, by what each requester does with the result of its attempt. -/
theorem internalAttemptsEnd : Obligations.InternalAttemptsEnd := by
  intro g answer data parity s w x wire tgt active
  refine ⟨fun i y owner found stays => poll_ends wire tgt active rfl owner found stays,
    fun i y r owner found removing open' => removed_poll_ends wire tgt active rfl owner found removing open',
    fun r owner => ⟨_, response_ends wire tgt active rfl owner, fun failed left => ?_, fun ends => ?_⟩,
    fun r owner => ⟨_, response_ends wire tgt active rfl owner, settle_standing _⟩,
    fun j v owner job restoring sent => ?_⟩
  · rw [settle_standing, State.responseAttempt, if_neg (by decide),
      if_pos ⟨(Attempt.retriable_iff _).2 failed, (reported_budget _ _ _).2 left, reported_active active _ _⟩,
      reported_retryTick]
  · rw [settle_standing, State.responseAttempt, if_neg (by decide),
      if_neg fun h => ends ⟨(Attempt.retriable_iff _).1 h.1, (reported_budget _ _ _).1 h.2.1⟩]
  · obtain ⟨t, runs, lost, stays⟩ := replay_ends (answer := answer) (data := data) (parity := parity) wire tgt active rfl owner
      job restoring sent
    exact ⟨t, runs, lost, fun kept => (stays kept).1, fun kept => (stays kept).2⟩

end Sys2Proof.Machine
end

section
/-! PROOFS. The frame of a DRAINING segment ends, and the segment is OFF (R128, R129, R141, R167, R177, R188). -/

namespace Sys2Proof.Machine

set_option Elab.async false -- one thread elaborates: the checker's memory is limited

/-! ### What an attempt does outside its segment -/

/-- From `s` to `u` segment `g` changes in its internal writes only, and nothing changes of other segments, of the presence of
their targets, of the admin context and of the states of completion queues. -/
structure Confined (g : SegId) (s u : State) : Prop where
  other : ∀ k, g ≠ k → (u.seg k).standing = (s.seg k).standing
  own : ∃ l, (u.seg g).standing = { (s.seg g).standing with writes := l }
  pres : ∀ x : Tgt, x.seg ≠ g → u.pres x = s.pres x
  adm : u.adm = s.adm
  cq : ∀ k, (u.cq k).state = (s.cq k).state

namespace Confined

variable {g : SegId} {s u v : State}

theorem trans (h : Confined g s u) (k : Confined g u v) : Confined g s v where
  other i different := (k.other i different).trans (h.other i different)
  own := by
    obtain ⟨l, first⟩ := h.own
    obtain ⟨m, second⟩ := k.own
    exact ⟨m, by rw [second, first]⟩
  pres x different := (k.pres x different).trans (h.pres x different)
  adm := k.adm.trans h.adm
  cq i := (k.cq i).trans (h.cq i)

theorem of_same (segs : u.segs = s.segs := by rfl) (presence : u.presence = s.presence := by rfl)
    (adm : u.adm = s.adm := by rfl) (cqs : u.cqs = s.cqs := by rfl) : Confined g s u where
  other k _ := congrArg (fun v => (v.get k).standing) segs
  own := ⟨(s.seg g).writes, congrArg (fun v => (v.get g).standing) segs⟩
  pres x _ := congrArg (fun v => (v.get x.seg).get x.slot) presence
  adm := adm
  cq k := congrArg (fun v => (v.get k).state) cqs

theorem of_core (h : u.core = s.core) : Confined g s u where
  other k _ := seg_of_core h k
  own := ⟨(s.seg g).writes, seg_of_core h g⟩
  pres x _ := (congrArg (fun v : State => (v.presence.get x.seg).get x.slot) h :)
  adm := (congrArg State.adm h :)
  cq := cq_state_of_core h

theorem setPres (h : Confined g s u) {t : Tgt} (here : t.seg = g) (e : PresEntry) : Confined g s (u.setPres t e) :=
  h.trans {
    other := fun _ _ => rfl
    own := ⟨_, rfl⟩
    pres := fun x different => by
      rw [State.pres_setPres, if_neg fun same => different (by rw [← same, here])]
    adm := rfl
    cq := fun _ => rfl }

theorem handEvent (h : Confined g s u) (e : Event) : Confined g s (u.handEvent e) :=
  h.trans (.of_same (by simp) (by simp) (by simp) (by simp))

theorem updSeg (h : Confined g s u) {f : SegCtl → SegCtl} (only : ∀ y, ∃ l, f y = { y with writes := l }) :
    Confined g s (u.updSeg g f) := h.trans {
  other := fun k different => by rw [State.seg_updSeg, if_neg different]
  own := by
    obtain ⟨l, eq⟩ := only (u.seg g)
    rw [State.seg_updSeg_same, eq]
    exact ⟨l, rfl⟩
  pres := fun _ _ => rfl
  adm := rfl
  cq := fun _ => rfl }

theorem removeJob (h : Confined g s u) {t : Tgt} (here : t.seg = g) : Confined g s (u.removeJob t) := by
  subst here
  have jobs : Confined t.seg s { u with jobs := u.jobs.filter (fun j => j.tgt ≠ t) } := h.trans .of_same
  unfold State.removeJob
  exact jobs.updSeg fun _ => ⟨_, rfl⟩

theorem abandonJob (h : Confined g s u) {t : Tgt} (here : t.seg = g) (cause : AbandonCause) :
    Confined g s (u.abandonJob t cause) := by
  unfold State.abandonJob
  split
  · exact h
  · exact (h.removeJob here).handEvent _

theorem createJob (h : Confined g s u) {t : Tgt} (here : t.seg = g) : Confined g s (u.createJob t) := by
  subst here
  unfold State.createJob
  exact .updSeg (h.trans .of_same) fun _ => ⟨_, rfl⟩

end Confined

theorem confined_report {g : SegId} {t : Tgt} (s : State) (here : t.seg = g) (src : Source) (a : Attempt) :
    Confined g s (s.report t src a) := by
  have same : Confined g s s := .of_same
  by_cases silent : a = .silent
  · rw [silent, report_silence]
    by_cases loses : ((s.pres t).state = .present ∨ (s.pres t).state = .restoring) ∧
        (s.seg t.seg).settings.missThreshold ≤ (s.pres t).missed.miss
    · rw [silence_lost src loses.1 loses.2]
      have lost : Confined g s (s.lostFrom t src) := (same.setPres here _).handEvent _
      refine .trans (u := if (s.pres t).state = .restoring then (s.lostFrom t src).abandonJob t .targetLost
        else s.lostFrom t src) ?_ .of_same
      split
      · exact lost.abandonJob here _
      · exact lost
    · rw [silence_counts src loses]
      exact same.setPres here _
  · rw [report_answer silent]
    cases state : (s.pres t).state with
    | unknown => rw [answer_unknown src state]; exact (same.setPres here _).handEvent _
    | present => rw [answer_kept src (.inl state)]; exact same.setPres here _
    | restoring => rw [answer_kept src (.inr state)]; exact same.setPres here _
    | lost =>
      by_cases none : (s.restoreList t).length = 0
      · rw [answer_lost_empty src state none]; exact (same.setPres here _).handEvent _
      · rw [answer_lost_replay src state none]; exact ((same.setPres here _).handEvent _).createJob here

theorem presence_of_core {s t : State} (h : t.core = s.core) : t.presence = s.presence := (congrArg State.presence h :)

theorem core_judge (s : State) (c : Ctx) (v : Verdict) : (s.judge c v).core = s.core := by
  unfold State.judge
  split
  · exact core_endAborted s _
  · exact core_endCommand s _ _
  · exact core_cancel s _ _
  · unfold State.goOn
    split <;> rfl

theorem confined_hostAttempt {g : SegId} (s : State) (n : CtxNum) (k : FrameKind) (a : Attempt) :
    Confined g s (s.hostAttempt g n k a) := by
  unfold State.hostAttempt
  split
  · exact .of_same
  next c _ =>
    have kept : Confined g s (s.keepHandOff c k a) := by
      rw [keepHandOff_eq]
      exact .of_same
    dsimp only
    split
    · exact kept.trans (.of_core (core_discard _ n))
    · exact kept.trans (.of_core (core_judge _ _ _))

theorem confined_responseAttempt {g : SegId} (s : State) (r : RespWrite) (orphan : Bool) (a : Attempt)
    (idle : (s.seg g).state ≠ .active) : Confined g s (s.responseAttempt g r orphan a) := by
  unfold State.responseAttempt
  split
  · exact .of_same
  · rw [if_neg fun h => idle h.2.2]
    exact .of_same

/-- A poll on a segment that is not ACTIVE is recorded and not evaluated (R129). -/
theorem pollAttempt_recorded {s : State} {g : SegId} {i : WatchId} {y : Watch} (a : Attempt) (found : s.watch i = some y)
    (stays : s.adminAt (.removingWatch i) = false) (unarmed : y.state ≠ .armed) :
    s.pollAttempt g i a = s.setWatch i (some (y.polled a)) := by
  rw [pollAttempt_eq a found stays, if_neg fun h => unarmed h.2.2.1, pollOver_unarmed a found unarmed]

/-- A replay write on a segment that is not ACTIVE is not retried (R176). -/
theorem replayAttempt_idle {s : State} {g : SegId} {x : Tgt} {j : Job} (a : Attempt) (job : s.job x = some j)
    (idle : (s.seg g).state ≠ .active) : s.replayAttempt g x a = (s.replayed x a).endJobIfOver x := by
  rw [← replayOutcome_eq a job, State.replayAttempt, job]
  exact if_neg fun h => idle h.2.2

theorem confined_replayAttempt {g : SegId} {x : Tgt} (s : State) (here : x.seg = g) (a : Attempt)
    (idle : (s.seg g).state ≠ .active) : Confined g s (s.replayAttempt g x a) := by
  cases job : s.job x with
  | none =>
    rw [State.replayAttempt, job]
    exact .of_same
  | some j =>
    have counted : Confined g s (s.replayed x a) := by
      subst here
      exact .updSeg .of_same fun _ => ⟨_, rfl⟩
    rw [replayAttempt_idle a job idle]
    unfold State.endJobIfOver
    split
    · exact counted
    split
    · refine Confined.handEvent ?_ _
      unfold State.replayEnd
      split
      · exact (counted.removeJob here).setPres here _
      · exact counted.removeJob here
    · exact counted

/-! ### Out of service -/

/-- What R132 leaves of a watch whose target is lost. -/
def Watch.valueless (x : Watch) : Watch := { x with stable := none, candidate := none, run := 0 }

theorem giveUp_watch (cause : AbandonCause) (s : State) (t : Tgt) (i : WatchId) :
    ((s.giveUp cause t).watch i).map Watch.valueless = (s.watch i).map Watch.valueless := by
  unfold State.giveUp
  split
  · have kept : ((s.setPres t { s.pres t with state := .lost }).abandonJob t cause).watch i = s.watch i := by simp
    rw [State.lossNotice, State.watch_mapWatches, kept, Option.map_map]
    refine congrArg (Option.map · (s.watch i)) (funext fun x => ?_)
    simp only [Function.comp_apply]
    split <;> rfl
  · rfl

/-- Out of service a watch loses its values at most. -/
theorem arriveOff_watch (s : State) (g : SegId) (i : WatchId) :
    ((s.arriveOff g).watch i).map Watch.valueless = (s.watch i).map Watch.valueless := by
  rw [State.arriveOff, State.updSeg_watch]
  exact foldl_same (fun u : State => (u.watch i).map Watch.valueless) _ (fun u t => giveUp_watch .segmentOff u t i) _ _

theorem job_none_iff {s : State} {x : Tgt} : s.job x = none ↔ ∀ j ∈ s.jobs, j.tgt ≠ x := by
  simp [State.job, List.find?_eq_none]

theorem abandonJob_jobs (s : State) (t : Tgt) (cause : AbandonCause) : ∀ j ∈ (s.abandonJob t cause).jobs, j ∈ s.jobs := by
  unfold State.abandonJob
  split
  · exact fun j hj => hj
  · have jobs (u : State) (e : Event) : (u.handEvent e).jobs = u.jobs := by simp
    rw [jobs]
    exact fun j hj => (List.mem_filter.1 hj).1

theorem giveUp_jobs (cause : AbandonCause) (s : State) (t : Tgt) : ∀ j ∈ (s.giveUp cause t).jobs, j ∈ s.jobs := by
  unfold State.giveUp
  split
  · exact abandonJob_jobs (s.setPres t { s.pres t with state := .lost }) t cause
  · exact fun j hj => hj

theorem foldl_giveUp_jobs (cause : AbandonCause) (l : List Tgt) (s : State) :
    ∀ j ∈ (l.foldl (State.giveUp cause) s).jobs, j ∈ s.jobs := by
  induction l generalizing s with
  | nil => exact fun j hj => hj
  | cons t l ih => exact fun j hj => giveUp_jobs cause s t j (ih _ j hj)

theorem foldl_giveUp_job (cause : AbandonCause) (l : List Tgt) {s : State} {x : Tgt} (gone : s.job x = none) :
    (l.foldl (State.giveUp cause) s).job x = none := by
  rw [job_none_iff] at gone ⊢
  exact fun j hj => gone j (foldl_giveUp_jobs cause l s j hj)

/-- A RESTORING target that is given up has no job (R145). -/
theorem giveUpAll_job (s : State) (x : Tgt) (cause : AbandonCause) (restoring : (s.pres x).state = .restoring) :
    (s.giveUpAll x.seg cause).job x = none := by
  have mem : x ∈ targetsOf x.seg := (mem_targetsOf_iff x.seg x).2 rfl
  unfold State.giveUpAll
  generalize targetsOf x.seg = l at mem
  induction l generalizing s with
  | nil => exact absurd mem List.not_mem_nil
  | cons t l ih =>
    rw [List.foldl_cons]
    by_cases same : x = t
    · subst same
      refine foldl_giveUp_job cause l ?_
      rw [State.giveUp, if_pos (by simp [State.isRestoring, restoring])]
      exact abandonJob_job (s.setPres x { s.pres x with state := .lost }) x cause
    · refine ih _ ?_ ((List.mem_cons.1 mem).resolve_left same)
      rw [giveUp_pres, if_neg fun h => same h.1]
      exact restoring

theorem arriveOff_job {s : State} {g : SegId} {x : Tgt} (gone : s.job x = none ∨ x.seg = g ∧ (s.pres x).state = .restoring) :
    (s.arriveOff g).job x = none := by
  rw [State.arriveOff, State.updSeg_job]
  obtain none | ⟨rfl, restoring⟩ := gone
  · exact foldl_giveUp_job .segmentOff (targetsOf g) (s := s.updSeg g fun y => { y with state := .off }) none
  · exact giveUpAll_job (s.updSeg x.seg fun y => { y with state := .off }) x .segmentOff restoring

/-- What a DRAINING segment whose frame has ended leaves: `s` before it, `v` after the requester has its result. -/
structure ArrivedOff (g : SegId) (s v t : State) : Prop where
  now : nowOff s t g
  pres : ∀ x, t.pres x = if x.seg = g ∧ (v.pres x).state = .restoring then { v.pres x with state := .lost } else v.pres x
  watch : ∀ i z, v.watch i = some z → ∃ y, t.watch i = some y ∧ y.valueless = z.valueless
  job : ∀ x, v.job x = none ∨ x.seg = g ∧ (v.pres x).state = .restoring → t.job x = none
  onward : Onward v t
  shrinks : Shrinks v t

theorem arrivedOff {g : SegId} {s v : State} (draining : (s.seg g).state = .draining)
    (confined : Confined g (s.clearWire g) v) : ArrivedOff g s v (v.drainIfDone g).settle := by
  obtain ⟨l, own⟩ := confined.own
  rw [State.clearWire, State.seg_updSeg_same] at own
  have state : (v.seg g).state = .draining := (congrArg SegCtl.state own :).trans draining
  have wire : (v.seg g).wire = none := (congrArg SegCtl.wire own :)
  have adm : v.adm = s.adm := confined.adm
  have other (k : SegId) (different : g ≠ k) : (v.seg k).standing = (s.seg k).standing := by
    rw [confined.other k different, State.clearWire, State.seg_updSeg, if_neg different]
  obtain ⟨-, offCqs, -, offAdm⟩ := arriveOff_same v g
  have same : (((v.drainIfDone g).settle.seg g).standing = ((v.seg g).emptied .off).standing ∧
      ((v.drainIfDone g).settle.seg g).holder = none) ∧
      (∀ k, g ≠ k → ((v.drainIfDone g).settle.seg k).standing = (v.seg k).standing) ∧
      (∀ x, (v.drainIfDone g).settle.pres x = (v.arriveOff g).pres x) ∧
      (∀ i, (v.drainIfDone g).settle.watch i = (v.arriveOff g).watch i) ∧
      ∀ x, (v.drainIfDone g).settle.job x = (v.arriveOff g).job x := by
    have arrived := arriveOff_seg_same v g
    have kept (k : SegId) (different : g ≠ k) := arriveOff_seg_other v different
    have either : ∃ u, v.drainIfDone g = u ∧ (∀ k, u.seg k = (v.arriveOff g).seg k) ∧
        (∀ x, u.pres x = (v.arriveOff g).pres x) ∧ (∀ i, u.watch i = (v.arriveOff g).watch i) ∧
        ∀ x, u.job x = (v.arriveOff g).job x := by
      rw [drainIfDone_drained state wire]
      split
      · exact ⟨_, rfl, by simp, by simp, by simp, by simp⟩
      · exact ⟨_, rfl, fun _ => rfl, fun _ => rfl, fun _ => rfl, fun _ => rfl⟩
    obtain ⟨u, eq, segs, pres, watch, job⟩ := either
    rw [eq]
    refine ⟨⟨by rw [settle_seg, segs, arrived], ?_⟩, fun k different => by rw [settle_seg, segs, kept k different],
      fun x => (settle_pres u x).trans (pres x), fun i => (settle_watch u i).trans (watch i),
      fun x => (settle_job u x).trans (job x)⟩
    have free : (u.seg g).holder = none := by rw [segs, arrived]; rfl
    obtain held | none := settle_holder_or u g
    · exact held.trans free
    · exact none
  obtain ⟨⟨off, holder⟩, others, pres, watch, job⟩ := same
  refine ⟨⟨?_, holder, fun k different => (others k (Ne.symm different)).trans (other k (Ne.symm different)), fun r waits active => ?_⟩,
    fun x => (pres x).trans (arriveOff_pres v g x), fun i z found => ?_, fun x gone => (job x).trans (arriveOff_job gone),
    (onward_drainIfDone v g).trans (onward_settle _), (shrinks_drainIfDone v g).trans (settle_shrinks _)⟩
  · rw [off, SegCtl.standing_emptied, own]
    rfl
  · have waits : v.adminWaiting r (.drainingSegment g) := (congrArg Admin.ctx adm).trans waits
    rw [drainIfDone_drained state wire, if_pos (State.adminAt_of_waiting waits)]
    have waits : (v.arriveOff g).adminWaiting r (.drainingSegment g) := (congrArg Admin.ctx offAdm).trans waits
    obtain ⟨completed, -⟩ := adminDone_settles .success none waits
      ((congrArg (fun c => (c.get 0).state) offCqs).trans ((confined.cq 0).trans active))
    exact completed
  · have values := (congrArg (Option.map Watch.valueless) (watch i)).trans (arriveOff_watch v g i)
    rw [found] at values
    exact Option.map_eq_some_iff.1 values

/-! ### The requesters -/

/-- Where a command ends, outside chains, as the segment of its frame drains. -/
theorem endsAlone_drained {s u : State} {g : SegId} {c : Ctx} {st : Status} (distinct : s.distinct) (hc : c ∈ s.ctxs)
    (active : (s.cq (s.sq c.sq).bound).state = .active) (ends : EndsAlone s u c st) :
    (u.drainIfDone g).settle.cancelledAs (s.sq c.sq).bound c st := by
  obtain ⟨f, lists, stands, rfl⟩ := ends
  exact cancelledAs_onward ((onward_drainIfDone _ g).trans (onward_settle _))
    ((shrinks_finish (s.updSeg c.seg f) c.num st).distinct distinct)
    (finish_cancelledAs (s := s.updSeg c.seg f) distinct hc active st)

section

variable {s : State} {g : SegId} {w : Wire} {x : Tgt} {answer : BitVec 2} {data : Half} {parity : Bool} {a : Attempt}
  (draining : (s.seg g).state = .draining) (here : x.seg = g)

include draining in
theorem reported_idle (src : Source) : ((s.reported g x src a).seg g).state ≠ .active := by
  obtain ⟨l, seg⟩ := reported_seg s g x src a g
  rw [seg]
  exact fun active => nomatch draining.symm.trans active

theorem reported_watch_none {i : WatchId} (absent : s.watch i = none) (src : Source) :
    (s.reported g x src a).watch i = none := by
  have absent : (s.setSeg g { s.seg g with wire := none }).watch i = none := absent
  obtain same | lost := report_watch (s.setSeg g { s.seg g with wire := none }) x src a i
  · exact same.trans absent
  · rw [absent] at lost
    exact lost

include draining here in
/-- The result reaches its requester without effect outside the segment. -/
theorem confined_toOwner (replays : ∀ y, w.owner = .replay y → y = x)
    (polls : ∀ i y, w.owner = .poll i → s.watch i = some y → y.state ≠ .armed ∧ s.adminAt (.removingWatch i) = false) :
    Confined g (s.clearWire g) ((s.reported g x w.owner.source a).toOwner g w a) := by
  have told : Confined g (s.clearWire g) (s.reported g x w.owner.source a) := confined_report _ here _ a
  have idle := reported_idle (x := x) (a := a) draining w.owner.source
  refine told.trans ?_
  unfold State.toOwner
  cases owner : w.owner with
  | host n => exact confined_hostAttempt _ n w.kind a
  | poll i =>
    dsimp only
    cases found : s.watch i with
    | none =>
      rw [State.pollAttempt, reported_watch_none found]
      exact .of_same
    | some y =>
      obtain ⟨unarmed, stays⟩ := polls i y owner found
      obtain ⟨stable, candidate, run, seen⟩ := reported_watch found g x (WireOwner.poll i).source a
      rw [pollAttempt_recorded a seen (by rw [State.adminAt, reported_adm]; exact stays) unarmed]
      exact .of_same
  | response r orphan => exact confined_responseAttempt _ r orphan a (owner ▸ idle)
  | replay y =>
    obtain rfl := replays y owner
    exact confined_replayAttempt _ here a (owner ▸ idle)

include draining here in
/-- A replay write's job is over with the segment: its target is PRESENT when nothing was left to write, and LOST otherwise
(R141, R177). -/
theorem replay_drained {j : Job} {t : State} (job : s.job x = some j) (restoring : (s.pres x).state = .restoring)
    (src : Source) (off : ArrivedOff g s ((s.reported g x src a).replayAttempt g x a) t) : t.job x = none ∧
      (t.pres x).state = if ((s.reported g x src a).pres x).state = .restoring ∧ s.restoreAbove x j.cursor = [] then .present
        else .lost := by
  have idle := reported_idle (x := x) (a := a) draining src
  by_cases lost : a = .silent ∧ (s.seg x.seg).settings.missThreshold ≤ missAfter (s.pres x) a
  · obtain ⟨gone, entry⟩ := reported_lost (g := g) (src := src) restoring lost.1 lost.2
    have same : (s.reported g x src a).replayAttempt g x a = s.reported g x src a := by rw [State.replayAttempt, gone]
    rw [same] at off
    refine ⟨off.job x (.inl gone), ?_⟩
    rw [off.pres, entry, if_neg (by simp), if_neg (by simp)]
  · have told := reported_restoring (g := g) (src := src) restoring lost
    have found : (s.reported g x src a).job x = some j := by rw [told]; exact job
    have entry : ((s.reported g x src a).pres x).state = .restoring := by rw [told, State.pres_setPres_same]
    have pool : (s.reported g x src a).pool = s.pool := reported_pool ..
    generalize s.reported g x src a = u at *
    have counted := replayed_job a found
    have after := endJobIfOver_eq counted rfl
    have above : (u.replayed x a).restoreAbove x (j.counted a).cursor = s.restoreAbove x j.cursor :=
      congrArg (fun l => List.filter _ (List.filter _ l)) pool
    rw [replayAttempt_idle a found idle] at off
    rw [above] at after
    by_cases nothing : s.restoreAbove x j.cursor = []
    · rw [if_pos nothing] at after
      rw [after] at off
      have kept : ((u.replayed x a).removeJob x).pres x = u.pres x := rfl
      rw [if_pos ⟨entry, nothing⟩]
      refine ⟨off.job x (.inl ?_), ?_⟩
      · have same (v : State) (e : Event) : ((v.replayEnd x).handEvent e).job x = v.job x := by simp
        exact (same _ _).trans (removeJob_job _ x)
      · rw [off.pres]
        simp [State.handEvent_frame, replayEnd_pres, kept, entry]
    · rw [if_neg nothing] at after
      rw [after] at off
      have kept : ((u.replayed x a).pres x).state = .restoring := entry
      rw [if_neg fun h => nothing h.2, off.pres, if_pos ⟨here, kept⟩]
      exact ⟨off.job x (.inr ⟨here, kept⟩), rfl⟩

/-- In FAILED the context of a host frame is discarded (R188). -/
theorem hostAttempt_discards (n : CtxNum) (k : FrameKind) (failed : s.ctl.engine = .failed) :
    ∀ d ∈ (s.hostAttempt g n k a).ctxs, d.num ≠ n := by
  unfold State.hostAttempt
  split
  next absent => exact fun d hd => by simpa using List.find?_eq_none.1 absent d hd
  next c found =>
    dsimp only
    have ctl : (s.keepHandOff c k a).ctl = s.ctl := by simp
    rw [if_pos (by rw [ctl, failed])]
    have found : (s.keepHandOff c k a).ctx n = some c := by
      rw [← found]
      simp
    rw [State.discard, found]
    exact freeCtx_not_mem _ n

end

theorem kind_of_frameKind {c : Ctx} (h : c.frameKind = .broadcast) : c.kind = some .broadcastWrite := by
  unfold Ctx.frameKind at h
  split at h
  · exact nomatch h
  next kind => exact kind
  · split at h <;> exact nomatch h
  · exact nomatch h

/-- A context that carries the mark of the teardown ends by it when its attempt is not final, and by its result when the
attempt is (R167). -/
theorem host_drained {s : State} {g : SegId} {w : Wire} {c : Ctx} {answer : BitVec 2} {data : Half} {parity : Bool}
    {a : Attempt} (running : s.ctl.engine ≠ .failed) (sends : s.sendsFor g w c) (alone : c.chain = none) (none : c.staged = [])
    (mark : c.mark = some .segmentOff) (active : (s.cq (s.sq c.sq).bound).state = .active) (kind : w.kind ≠ .broadcast)
    (ha : Attempt.ofAnswer w.kind answer data parity = a) :
    ((a = .hold ∨ a = .parityFail) → c.tries < 1 + (s.seg g).settings.retryLimit → c.deadlinePassed = false →
      (s.attemptEnd g answer data parity).settle.readyWith (s.sq c.sq).bound c .segmentOff) ∧
    (a = .refuse → (s.attemptEnd g answer data parity).settle.readyWith (s.sq c.sq).bound c .targetRefused) ∧
    (a = .silent → (s.attemptEnd g answer data parity).settle.readyWith (s.sq c.sq).bound c .noAnswer) := by
  have ended := attemptEnd_host sends kind running ha
  obtain ⟨-, -, -, -, hc, distinct, -⟩ := sends
  have still := delivered_distinct (g := g) (w := w) a distinct hc
  have mem := delivered_mem (g := g) (w := w) a hc
  have bound : ((s.delivered g w c a).sq c.sq).bound = (s.sq c.sq).bound := by rw [delivered_sq]
  have open' : ((s.delivered g w c a).cq ((s.delivered g w c a).sq c.sq).bound).state = .active := by
    rw [bound, delivered_cq]
    exact active
  have verdict : s.verdictOf g w c a = (c.apply w.kind a).verdict w.kind a (s.budgetLeft g c.tries)
    ((s.reported g c.tgt w.owner.source a).keepAnswer c w.kind a) := rfl
  have plain (failed : a.status ≠ .success) : c.apply w.kind a = c := Ctx.apply_of_not_accept failed
  have found (failed : a.status ≠ .success) : (s.delivered g w c a).ctx c.num = some c := by
    rw [plain failed] at mem
    exact ctx_of_mem still mem
  have ends {u : State} {st : Status} (failed : a.status ≠ .success)
      (h : (s.delivered g w c a).judge (c.apply w.kind a) (s.verdictOf g w c a) = u)
      (alone : EndsAlone (s.delivered g w c a) u c st) :
      (s.attemptEnd g answer data parity).settle.readyWith (s.sq c.sq).bound c st := by
    rw [plain failed] at mem
    rw [ended, h, ← bound]
    exact (endsAlone_drained still mem open' alone).ready none
  have final (failed : a.status ≠ .success) (st : Status) (verdict : s.verdictOf g w c a = .final st) :
      (s.attemptEnd g answer data parity).settle.readyWith (s.sq c.sq).bound c st := by
    refine ends failed ?_ (endsAlone_endCommand (found failed) alone st)
    rw [verdict, plain failed, judge_final (by simp [mark])]
  refine ⟨fun failed left inTime => ?_, fun refuse => ?_, fun silent => ?_⟩
  · have other : a.status ≠ .success := by obtain h | h := failed <;> rw [h] <;> decide
    refine ends other ?_ (endsAlone_cancel (found other) .segmentOff)
    rw [verdict, plain other, verdict_retriable _ failed, if_pos (budgetLeft_iff.2 left), if_neg (by simp [inTime]),
      judge_marked (v := .retry) mark (by decide) nofun]
  · subst refuse
    exact final (by decide) _ rfl
  · subst silent
    exact final (by decide) _ rfl

/-- In FAILED the context of a BROADCAST frame is discarded, and otherwise its command has succeeded (R78, R188). -/
theorem broadcastEnd_eq {s : State} {g : SegId} {w : Wire} {c : Ctx} (sends : s.sendsFor g w c)
    (kind : c.kind = some .broadcastWrite) : s.broadcastEnd g =
      (if s.ctl.engine = .failed then (s.clearWire g).discard c.num
        else (s.clearWire g).endCommand c.num .success).drainIfDone g := by
  obtain ⟨wire, owner, -, tgt, -⟩ := sends
  rw [if_pos kind] at tgt
  rw [State.broadcastEnd, wire]
  dsimp only
  rw [tgt, owner]
  rfl

/-- Settles O29: what each requester does as its segment drains, and then the segment out of service. -/
theorem drainingSegmentsEnd : Obligations.DrainingSegmentsEnd := by
  refine ⟨fun g answer data parity s w x wire tgt here draining replays polls => ?_,
    fun g s w c sends kind draining quiet => ?_⟩
  · intro a u
    have confined := confined_toOwner (a := a) draining here replays polls
    have off := arrivedOff draining confined
    rw [← attemptEnd_eq wire tgt] at off
    have idle := reported_idle (x := x) (a := a) draining w.owner.source
    refine ⟨(s.attemptEnd g answer data parity).settle, rfl, off.now, fun y other => ?_, fun y own => ?_,
      fun i y owner found => ?_, fun r y owner found => ?_, fun j owner job restoring => ?_, fun n failed owner => ?_,
      fun c running sends alone none mark active => ?_⟩
    · rw [off.pres, if_neg fun h => other h.1]
      exact confined.pres y other
    · rw [off.pres]
      split
      · nofun
      next other => exact fun restoring => other ⟨own, restoring⟩
    · obtain ⟨unarmed, stays⟩ := polls i y owner found
      obtain ⟨stable, candidate, run, seen⟩ := reported_watch found g x w.owner.source a
      have recorded := pollAttempt_recorded (g := g) a seen (by rw [State.adminAt, reported_adm]; exact stays) unarmed
      rw [State.toOwner, owner] at off
      dsimp only at off
      rw [← owner, recorded] at off
      obtain ⟨z, found, values⟩ := off.watch i _ (State.watch_setWatch_same ..)
      exact ⟨z, found, (congrArg Watch.state values :), (congrArg Watch.poll values :), (congrArg Watch.lastPoll values :)⟩
    · obtain ⟨stable, candidate, run, seen⟩ := reported_watch found g x w.owner.source a
      have recorded : (s.reported g x w.owner.source a).responseAttempt g r false a =
          (s.reported g x w.owner.source a).updWatch r.watch fun y =>
            { y with respPending := false, lastResponse := some a.status } := by
        rw [State.responseAttempt, if_neg (by decide), if_neg fun h => idle h.2.2]
      rw [State.toOwner, owner] at off
      dsimp only at off
      rw [← owner, recorded] at off
      obtain ⟨z, found, values⟩ := off.watch r.watch _ ((State.watch_updWatch_same ..).trans (congrArg (Option.map _) seen))
      exact ⟨z, found, (congrArg Watch.respPending values :), (congrArg Watch.lastResponse values :)⟩
    · rw [State.toOwner, owner] at off
      dsimp only at off
      have ends := replay_drained draining here job restoring _ off
      rwa [← owner] at ends
    · rw [State.toOwner, owner] at off
      dsimp only at off
      exact off.shrinks.not_mem (hostAttempt_discards n w.kind (by rw [reported_ctl]; exact failed))
    · refine host_drained running sends alone none mark active (fun broadcast => ?_) rfl
      obtain ⟨-, -, frame, target, -⟩ := sends
      rw [if_pos (kind_of_frameKind (frame.symm.trans broadcast)), tgt] at target
      exact nomatch target
  · have core : (if s.ctl.engine = .failed then (s.clearWire g).discard c.num
        else (s.clearWire g).endCommand c.num .success).core = (s.clearWire g).core := by split <;> simp
    have off := arrivedOff draining (.of_core core)
    have ended := broadcastEnd_eq sends kind
    obtain ⟨-, -, -, -, hc, distinct, -⟩ := sends
    have found := ctx_of_mem distinct hc
    refine ⟨_, congrArg done ended, off.now, State.presence_ext fun x => ?_, fun failed => ?_, fun running alone active => ?_⟩
    · have same := presence_of_core core
      generalize (if s.ctl.engine = .failed then (s.clearWire g).discard c.num
        else (s.clearWire g).endCommand c.num .success) = v at off same
      have kept : v.pres x = s.pres x := congrArg (fun p : Vector (Vector PresEntry 62) 4 => (p.get x.seg).get x.slot) same
      rw [off.pres, kept, if_neg fun h => quiet x h.1 h.2]
    · rw [if_pos failed]
      refine ((shrinks_drainIfDone _ g).trans (settle_shrinks _)).not_mem ?_
      rw [State.discard, show (s.clearWire g).ctx c.num = some c from found]
      exact freeCtx_not_mem _ _
    · rw [if_neg running]
      have ends := endsAlone_drained (s := s.clearWire g) (g := g) distinct hc active
        (endsAlone_endCommand (s := s.clearWire g) found alone .success)
      rwa [State.cancelledAs, if_neg fun h => by simp [kind] at h] at ends

end Sys2Proof.Machine
end

section
/-! PROOFS. What settling does to the contexts out of FREE, said once: it moves contexts that wait for a place or for their
chain, and ends or frees FENCEs (R83, R93, R94, R105). With it, timers that rest go on resting while a step settles. -/

namespace Sys2Proof.Machine

set_option Elab.async false -- one thread elaborates: the checker's memory is limited

/-! ### Moves -/

/-- One move that settling makes on the list of contexts: a context takes another place, or a FENCE in FENCE_WAIT is READY or
returns to FREE. -/
inductive CtxMove : List Ctx → List Ctx → Prop
  | restated (l : List Ctx) (n : CtxNum) (x : CtxState) (place : x = .pending ∨ x = .staged ∨ x = .active) :
    CtxMove l (l.map fun c => if c.num = n then { c with state := x } else c)
  | released (l : List Ctx) (n : CtxNum) (c : Ctx) (st : Status) (listed : l.find? (fun c => c.num == n) = some c)
    (fence : c.state = .fenceWait) : CtxMove l (l.map fun c => if c.num = n then c.asReady st else c)
  | freed (l : List Ctx) (n : CtxNum) (c : Ctx) (listed : l.find? (fun c => c.num == n) = some c)
    (fence : c.state = .fenceWait) : CtxMove l (l.filter fun c => c.num ≠ n)

/-- From `s` to `t` the contexts make moves of settling only. -/
def Moves (s t : State) : Prop := Relation.ReflTransGen CtxMove s.ctxs t.ctxs

theorem Moves.of_eq {s t : State} (h : t.ctxs = s.ctxs) : Moves s t := by
  unfold Moves
  rw [h]

theorem Moves.refl (s : State) : Moves s s := .of_eq rfl

theorem Moves.trans {s t u : State} (h : Moves s t) (k : Moves t u) : Moves s u := Relation.ReflTransGen.trans h k

theorem Moves.foldl {β : Type} {f : State → β → State} (h : ∀ s b, Moves s (f s b)) (l : List β) (s : State) :
    Moves s (l.foldl f s) :=
  foldl_keeps (P := fun u => Moves s u) (fun u b moved => moved.trans (h u b)) l (.refl s)

/-- What every move keeps is kept. -/
theorem Moves.keeps {P : List Ctx → Prop} (move : ∀ l m, CtxMove l m → P l → P m) {s t : State} (h : Moves s t)
    (hs : P s.ctxs) : P t.ctxs := by
  unfold Moves at h
  generalize s.ctxs = l, t.ctxs = m at *
  induction h with
  | refl => exact hs
  | tail _ last ih => exact move _ _ last ih

theorem moves_place (s : State) (n : CtxNum) : Moves s (s.place n) := by
  unfold State.place
  split
  next => exact .refl s
  next =>
    split
    · exact .single (.restated _ n .pending (.inl rfl))
    · exact .single (.restated _ n .staged (.inr (.inl rfl)))

theorem moves_releaseFence (s : State) (n : CtxNum) : Moves s (s.releaseFence n) := by
  unfold State.releaseFence
  split
  next => exact .refl s
  next c listed =>
    split
    next waits =>
      unfold State.becomeReady
      rw [listed]
      dsimp only
      split
      · exact .single (.released s.ctxs n c .success listed waits.1)
      · exact .single (.freed s.ctxs n c listed waits.1)
    next => exact .refl s

theorem moves_moveStaged (s : State) (n : CtxNum) : Moves s (s.moveStaged n) := by
  unfold State.moveStaged
  split
  next => exact .refl s
  next =>
    split
    · exact moves_place s n
    · exact .refl s

theorem moves_reachMember (s : State) (g : SegId) : Moves s (s.reachMember g) := by
  unfold State.reachMember
  split
  · split
    · exact .of_eq (by simp)
    next c _ _ =>
      split
      · exact .single (.restated _ c.num .active (.inr (.inr rfl)))
      · exact .refl s
  · exact .refl s

theorem moves_lockChance (s : State) (q : SqId) : Moves s (s.lockChance q) := by
  have takes (n : CtxNum) : Moves s (s.takeLock n) := by
    unfold State.takeLock
    split
    next => exact .refl s
    next c _ =>
      split
      next => exact .refl s
      next m _ =>
        exact Moves.trans (t := s.setLock (some { sq := c.sq, chain := m.id, fetched := 1 })) (.of_eq rfl) (moves_place _ n)
  unfold State.lockChance
  split
  next n _ =>
    split
    · exact (takes n).trans (.of_eq (by simp))
    · exact .refl s
  next => exact .refl s

theorem moves_offerTurns (l : List SqId) (s : State) : Moves s (State.offerTurns l s) := by
  induction l generalizing s with
  | nil => exact .refl s
  | cons q l ih =>
    rw [State.offerTurns]
    refine (moves_lockChance s q).trans ?_
    split
    · exact .of_eq (by simp)
    · refine Moves.trans ?_ (ih _)
      split
      · exact .of_eq (by simp)
      · exact .refl _

theorem moves_settleRest (s : State) : Moves s s.settleRest := by
  have writes (u : State) : Moves u u.postAll.issueEvent.adminFetch := .of_eq (by simp)
  have paused (u : State) : Moves u u.pauseIfQuiet := .of_eq (by simp)
  have fetch (u : State) : Moves u u.ioFetch := by
    unfold State.ioFetch
    refine Moves.trans (t := u.endTurnIfOver) (.of_eq (by simp)) ?_
    dsimp only
    split
    · exact .refl _
    · split
      · exact .of_eq (by simp)
      · exact moves_offerTurns _ _
  unfold State.settleRest
  exact ((writes s).trans (fetch _)).trans (paused _)

theorem moves_members (s : State) : Moves s s.releaseFences.moveAllStaged.reachMembers :=
  ((Moves.foldl moves_releaseFence _ s).trans (Moves.foldl moves_moveStaged _ _)).trans (Moves.foldl moves_reachMember _ _)

theorem deleteIfOver_ctxs (s : State) : s.deleteIfOver.ctxs = s.ctxs := by
  unfold State.deleteIfOver
  split
  · split
    · exact (adminDone_ctxs _ _ _).trans rfl
    · rfl
  · rfl

theorem moves_settle (s : State) : Moves s s.settle := by
  rw [settle_members_rest]
  exact ((moves_members s).trans (.of_eq (deleteIfOver_ctxs _))).trans (moves_settleRest _)

/-! ### A context that goes on -/

/-- The context `c` is still out of FREE, and neither READY nor in FENCE_WAIT: at most its place is another. -/
def GoesOn (c : Ctx) (l : List Ctx) : Prop :=
  (l.map (·.num)).Nodup ∧ ∃ x, x ≠ .ready ∧ x ≠ .fenceWait ∧ { c with state := x } ∈ l

theorem GoesOn.move {c : Ctx} {l m : List Ctx} (move : CtxMove l m) (h : GoesOn c l) : GoesOn c m := by
  obtain ⟨nodup, x, ready, fence, here⟩ := h
  have other {n : CtxNum} {d : Ctx} (listed : l.find? (fun c => c.num == n) = some d) (waits : d.state = .fenceWait) :
      c.num ≠ n := by
    rintro rfl
    have num : d.num = c.num := by simpa using List.find?_some listed
    have same := List.inj_on_of_nodup_map nodup (List.mem_of_find?_eq_some listed) here num
    exact fence ((congrArg Ctx.state same).symm.trans waits)
  have nums (n : CtxNum) (f : Ctx → Ctx) (same : ∀ d, (f d).num = d.num) :
      ((l.map fun d => if d.num = n then f d else d).map (·.num)) = l.map (·.num) := by
    rw [List.map_map]
    refine List.map_congr_left fun d _ => ?_
    simp only [Function.comp_apply]
    split
    · exact same d
    · rfl
  cases move with
  | restated n y place =>
    refine ⟨(nums n (fun d => { d with state := y }) fun _ => rfl).symm ▸ nodup, ?_⟩
    by_cases own : c.num = n
    · refine ⟨y, ?_, ?_, List.mem_map.2 ⟨_, here, if_pos own⟩⟩ <;>
        (rintro rfl; simp at place)
    · exact ⟨x, ready, fence, List.mem_map.2 ⟨_, here, if_neg own⟩⟩
  | released n d st listed waits =>
    exact ⟨(nums n (·.asReady st) fun _ => rfl).symm ▸ nodup, x, ready, fence, List.mem_map.2 ⟨_, here, if_neg (other listed waits)⟩⟩
  | freed n d listed waits =>
    exact ⟨nodup.sublist (List.filter_sublist.map _), x, ready, fence,
      List.mem_filter.2 ⟨here, by simpa using other listed waits⟩⟩

theorem GoesOn.settle {c : Ctx} {s : State} (h : GoesOn c s.ctxs) : GoesOn c s.settle.ctxs :=
  (moves_settle s).keeps (P := GoesOn c) (fun _ _ move => GoesOn.move move) h

/-- While a context of it is out of FREE, a queue keeps its completion queue. -/
theorem GoesOn.settle_bound {c : Ctx} {s : State} (h : GoesOn c s.ctxs) :
    (s.settle.sq c.sq).bound = (s.sq c.sq).bound := by
  have bound {u v : State} (restages : Restages c.sq u v) : (v.sq c.sq).bound = (u.sq c.sq).bound := by
    obtain ⟨⟨l, same⟩, -⟩ := restages
    exact (congrArg Sq.bound same :)
  have here := (moves_members s).keeps (P := GoesOn c) (fun _ _ move => GoesOn.move move) h
  have before := bound (restages_members c.sq s)
  rw [settle_members_rest, bound (restages_settleRest c.sq _), ← before]
  generalize s.releaseFences.moveAllStaged.reachMembers = u at here
  obtain ⟨-, x, -, -, here⟩ := here
  unfold State.deleteIfOver
  split
  next q _ =>
    split
    next done =>
      have none := (deletionOver_iff.1 done.2).1 _ here
      have other : q ≠ c.sq := fun same => none same.symm
      have kept (v : State) : (v.adminDone .success Option.none).sq c.sq = v.sq c.sq := by simp
      rw [kept, State.sq_setSq, if_neg other]
    next => rfl
  next => rfl

/-! ### Timers that rest -/

/-- No timer of the context runs that ends by tick `T` (R12, R81, R82). -/
def Ctx.restsUntil (T : Nat) (c : Ctx) : Prop :=
  (c.state = .retryWait → ∀ e, c.retryEnd = some e → T < e) ∧ (c.state = .pollWait → ∀ e, c.pollEnd = some e → T < 10 * e) ∧
    ∀ e, c.deadline = some e → T < 10 * e

/-- No timer of a context of the list runs that ends by tick `T`. -/
def ctxsRest (T : Nat) (l : List Ctx) : Prop :=
  ∀ n c, l.find? (fun c => c.num == n) = some c → c.restsUntil T

theorem find?_map_num (l : List Ctx) (n m : CtxNum) {f : Ctx → Ctx} (num : ∀ c, (f c).num = c.num) :
    (l.map fun c => if c.num = n then f c else c).find? (fun c => c.num == m) =
      (l.find? fun c => c.num == m).map fun c => if c.num = n then f c else c := by
  rw [List.find?_map]
  refine congrArg (Option.map _) (congrArg (List.find? · l) (funext fun c => ?_))
  simp only [Function.comp_apply]
  split <;> simp [num]

theorem ctxsRest.move {T : Nat} {l m : List Ctx} (move : CtxMove l m) (rest : ctxsRest T l) : ctxsRest T m := by
  have mapped (n : CtxNum) (f : Ctx → Ctx) (num : ∀ c, (f c).num = c.num) (rests : ∀ c, c.restsUntil T → (f c).restsUntil T) :
      ctxsRest T (l.map fun c => if c.num = n then f c else c) := by
    intro k d hd
    rw [find?_map_num l n k num] at hd
    obtain ⟨c, hc, rfl⟩ := Option.map_eq_some_iff.1 hd
    split
    · exact rests c (rest k c hc)
    · exact rest k c hc
  cases move with
  | restated n x place =>
    refine mapped n _ (fun _ => rfl) fun c ⟨_, _, deadline⟩ => ⟨fun h => ?_, fun h => ?_, deadline⟩ <;>
      (subst h; simp at place)
  | released n c st _ _ => exact mapped n _ (fun _ => rfl) fun d _ => ⟨nofun, nofun, nofun⟩
  | freed n _ _ _ =>
    intro k d hd
    refine rest k d ?_
    rw [List.find?_filter] at hd
    by_cases same : k = n
    · subst same
      have := List.find?_some hd
      simp at this
    · rw [← hd]
      refine congrArg (List.find? · l) (funext fun c => ?_)
      by_cases here : c.num = k <;> simp [here, same]

/-- No timed event comes by tick `T`. -/
def State.restsUntil (s : State) (T : Nat) : Prop := ∀ e, ({ s with ticks := T } : State).hasCome e = false

theorem State.restsUntil.not_come {s : State} {T t : Nat} {e : TimedEvent} (rest : s.restsUntil T) (at' : s.comesAt e = some t) :
    T < t := by
  have here : ({ s with ticks := T } : State).comesAt e = some t := at'
  by_contra come
  exact absurd (hasCome_iff.2 ⟨t, here, by simpa using come⟩) (by simp [rest e])

theorem restsUntil_iff {s : State} {T : Nat} : s.restsUntil T ↔ ∀ e t, s.comesAt e = some t → T < t := by
  refine ⟨fun rest e t => rest.not_come, fun later e => Bool.eq_false_iff.2 fun come => ?_⟩
  obtain ⟨t, at', here⟩ := hasCome_iff.1 come
  exact absurd (later e t at') (by simpa using here)

theorem State.restsUntil.mono {s : State} {T U : Nat} (rest : s.restsUntil T) (le : U ≤ T) : s.restsUntil U :=
  restsUntil_iff.2 fun _ _ at' => Nat.lt_of_le_of_lt le (rest.not_come at')

theorem State.restsUntil.hasCome {s : State} {T : Nat} (rest : s.restsUntil T) (le : s.ticks ≤ T) (e : TimedEvent) :
    s.hasCome e = false := rest.mono le e

theorem State.restsUntil.ctxs {s : State} {T : Nat} (rest : s.restsUntil T) : ctxsRest T s.ctxs := by
  intro n c hc
  refine ⟨fun waits e he => rest.not_come (e := .retry (.host n)) (hostRetryEnd_iff.2 ⟨c, hc, waits, he⟩), fun waits e he => ?_,
    fun e he => ?_⟩
  · exact rest.not_come (e := .interval n) (intervalEnd_iff.2 ⟨c, e, hc, waits, he, rfl⟩)
  · exact rest.not_come (e := .deadline n) (deadlineEnd_iff.2 ⟨c, e, hc, he, rfl⟩)

/-- No access outstanding comes to its limit by tick `T`. -/
theorem limitEnd_later {s : State} {T tag : Nat} (young : ∀ d ∈ s.link.outstanding, d.tag = tag → T < d.issued + dmaLimit) {t : Nat}
    (at' : s.limitEnd tag = some t) : T < t := by
  obtain ⟨m, least, rfl⟩ := Option.map_eq_some_iff.1 at'
  obtain ⟨d, hd, rfl⟩ := List.mem_map.1 ((List.min?_eq_some_iff.1 least).1)
  obtain ⟨hd, tagged⟩ := List.mem_filter.1 hd
  exact young d hd (by simpa using tagged)

theorem State.restsUntil.young {s : State} {T : Nat} (rest : s.restsUntil T) {d : Dma} (hd : d ∈ s.link.outstanding) :
    T < d.issued + dmaLimit := by
  by_contra old
  have come := hasCome_limit (s := { s with ticks := T }) (a := d.access) hd (by simpa using old)
  exact absurd come (by simp [rest _])

/-- Timers that rest go on resting where the watches, the delays and the jobs are the same, the contexts make moves of settling
only, and accesses are issued late. -/
theorem State.restsUntil.of_moves {s t : State} {T : Nat} (rest : s.restsUntil T) (moves : Moves s t)
    (watch : ∀ w, t.watch w = s.watch w) (delays : ∀ g, (t.seg g).respDelays = (s.seg g).respDelays)
    (job : ∀ x, t.job x = s.job x)
    (issued : ∀ d ∈ t.link.outstanding, d ∈ s.link.outstanding ∨ T < d.issued + dmaLimit) : t.restsUntil T := by
  have ctxs := moves.keeps (P := ctxsRest T) (fun _ _ move => ctxsRest.move move) rest.ctxs
  refine restsUntil_iff.2 fun e due' at' => ?_
  cases e with
  | retry r =>
    cases r with
    | host n =>
      obtain ⟨c, hc, waits, he⟩ := hostRetryEnd_iff.1 at'
      exact (ctxs n c hc).1 waits due' he
    | poll w =>
      obtain ⟨x, hx, waits, he⟩ := pollRetryEnd_iff.1 at'
      exact rest.not_come (e := .retry (.poll w)) (pollRetryEnd_iff.2 ⟨x, (watch w).symm.trans hx, waits, he⟩)
    | response w =>
      refine rest.not_come (e := .retry (.response w)) (Eq.trans ?_ at')
      change (s.respDelay w).map _ = (t.respDelay w).map _
      unfold State.respDelay
      rw [watch]
      cases s.watch w with
      | none => rfl
      | some x => exact congrArg (fun l : List RespDelay => (l.find? fun d => d.write.watch == w).map (·.retryEnd)) (delays _).symm
    | replay x =>
      obtain ⟨j, hj, he⟩ := replayRetryEnd_iff.1 at'
      exact rest.not_come (e := .retry (.replay x)) (replayRetryEnd_iff.2 ⟨j, (job x).symm.trans hj, he⟩)
  | interval n =>
    obtain ⟨c, d, hc, waits, he, rfl⟩ := intervalEnd_iff.1 at'
    exact (ctxs n c hc).2.1 waits d he
  | deadline n =>
    obtain ⟨c, d, hc, he, rfl⟩ := deadlineEnd_iff.1 at'
    exact (ctxs n c hc).2.2 d he
  | due w =>
    obtain ⟨x, d, hx, armed, he, rfl⟩ := dueEnd_iff.1 at'
    exact rest.not_come (e := .due w) (dueEnd_iff.2 ⟨x, d, (watch w).symm.trans hx, armed, he, rfl⟩)
  | limit a tag =>
    refine limitEnd_later (fun d hd _ => ?_) at'
    exact (issued d hd).elim rest.young id

/-- Timers that rest go on resting while a step settles. -/
theorem State.restsUntil.settle {s : State} {T : Nat} (rest : s.restsUntil T) (near : T < s.ticks + dmaLimit) :
    s.settle.restsUntil T := by
  refine rest.of_moves (moves_settle s) (settle_watch s) (fun g => ?_) (settle_job s) fun d hd => ?_
  · obtain ⟨-, -, -, -, delays, -⟩ := SegCtl.of_standing (settle_seg s g)
    exact delays
  · exact ((issues_settle s).outstanding d hd).imp id fun now => by rw [now]; exact near

/-- Where nothing comes, nothing is taken. -/
theorem takeTimed_rests {s : State} {T : Nat} (rest : s.restsUntil T) (le : s.ticks ≤ T) : s.takeTimed = s := by
  have none : s.timedEvents = [] := List.filter_eq_nil_iff.2 fun e _ => by simp [rest.hasCome le e]
  rw [State.takeTimed, none]
  rfl

end Sys2Proof.Machine
end

section
/-! PROOFS. The stuck count of a monitored segment whose line is held low: each tick adds 1 to it, whatever the timed events of the
tick do, until the segment faults or the engine fails (R13, R14; log entry 26). -/

namespace Sys2Proof.Machine

set_option Elab.async false -- one thread elaborates: the checker's memory is limited

/-! ### Timed events leave the stuck counts, unless the engine fails -/

/-- What the monitoring of a segment goes by: its state, its settings, its wire and its stuck count (R13). -/
def SegCtl.clock (y : SegCtl) : SegCtl := { y.standing with writes := [], respDelays := [], duePolls := [] }

theorem SegCtl.clock_of_standing {y z : SegCtl} (h : y.standing = z.standing) : y.clock = z.clock :=
  congrArg (fun y : SegCtl => { y with writes := [], respDelays := [], duePolls := [] }) h

/-- From `s` to `u` the engine has failed, or what the monitoring of every segment goes by is as it was. -/
structure OrFails (s u : State) : Prop where
  failed : s.ctl.engine = .failed → u.ctl.engine = .failed
  clock : u.ctl.engine = .failed ∨ ∀ g, (u.seg g).clock = (s.seg g).clock

namespace OrFails

variable {s u v : State}

theorem of_same (engine : u.ctl.engine = s.ctl.engine) (clock : ∀ g, (u.seg g).clock = (s.seg g).clock) : OrFails s u where
  failed h := engine.trans h
  clock := .inr clock

theorem of_segs (ctl : u.ctl = s.ctl := by rfl) (segs : u.segs = s.segs := by rfl) : OrFails s u :=
  of_same (congrArg Control.engine ctl) fun g => congrArg (fun v => (v.get g).clock) segs

theorem refl (s : State) : OrFails s s := of_segs

theorem trans (h : OrFails s u) (k : OrFails u v) : OrFails s v where
  failed := k.failed ∘ h.failed
  clock := by
    obtain failed | same := k.clock
    · exact .inl failed
    · obtain failed | first := h.clock
      · exact .inl (k.failed failed)
      · exact .inr fun g => (same g).trans (first g)

theorem of_core (h : u.core = s.core) : OrFails s u :=
  of_same (congrArg (fun v : State => v.ctl.engine) h :) fun g => SegCtl.clock_of_standing (seg_of_core h g)

theorem foldl {β : Type} {f : State → β → State} (h : ∀ s b, OrFails s (f s b)) (l : List β) (s : State) :
    OrFails s (l.foldl f s) :=
  foldl_keeps (P := fun u => OrFails s u) (fun u b moved => moved.trans (h u b)) l (.refl s)

/-- A change of a controller's lists. -/
theorem updSeg (s : State) (g : SegId) {f : SegCtl → SegCtl} (same : ∀ y, (f y).clock = y.clock := by exact fun _ => rfl) :
    OrFails s (s.updSeg g f) := of_same rfl fun k => by
  rw [State.seg_updSeg]
  split
  · exact same _
  · rfl

theorem of_failed (failed : u.ctl.engine = .failed) : OrFails s u := ⟨fun _ => failed, .inl failed⟩

end OrFails

theorem failEngine_engine (s : State) : s.failEngine.ctl.engine = .failed := by
  unfold State.failEngine
  rw [foldl_same State.ctl State.failSegment fun u g => by simp]
  simp

theorem orFails_settle (s : State) : OrFails s s.settle where
  failed h := by
    have same := congrArg Control.engine (settle_ctl s)
    simp only [Control.standing, h] at same
    by_contra running
    split at same
    · exact nomatch same
    · exact running same
  clock := .inr fun g => SegCtl.clock_of_standing (settle_seg s g)

theorem orFails_sqError (cause : QueueCause) (s : State) (q : SqId) : OrFails s (State.sqError cause s q) := by
  unfold State.sqError
  dsimp only
  split
  · have stopped : OrFails s (((s.setSq q { s.sq q with state := .error }).handEvent (.queueError false q.val cause)).releaseLock
        q) := .of_segs (by simp) (by simp)
    split
    · exact stopped.trans (.of_core (by simp))
    · exact stopped
  · exact .refl s

theorem orFails_cqError (s : State) (c : CqId) (cause : QueueCause) : OrFails s (s.cqError c cause) := by
  have emptied : OrFails s ((s.cq c).ready.foldl State.freeItem (s.setCq c { s.cq c with state := .error, ready := [] })) :=
    .trans (u := s.setCq c { s.cq c with state := .error, ready := [] }) .of_segs
      (.foldl (fun u i => .of_segs (by simp) (by simp)) _ _)
  exact emptied.trans (.trans (.of_segs (by simp) (by simp)) (.foldl (orFails_sqError .cqLost) _ _))

/-- An access that fails makes the engine fail, or leaves the stuck counts (R57 to R59). -/
theorem orFails_failAccess (s : State) (a : Access) (tag : Nat) : OrFails s (s.failAccess a tag) := by
  have fails (u : State) : OrFails s u.failEngine := .of_failed (failEngine_engine u)
  cases a with
  | entryRead q =>
    rw [State.failAccess, State.readFailed]
    split
    · split
      · exact fails _
      · exact .of_segs
    · split
      · exact .trans (u := s.discardRead tag) .of_segs (orFails_sqError _ _ _)
      · exact .of_segs
  | completion c =>
    rw [State.failAccess, State.postingFailed]
    dsimp only
    split
    · exact .of_segs
    next i _ =>
      split
      · exact fails _
      · have freed : OrFails s (((s.retire tag).setCq c { s.cq c with inFlight := none }).freeItem i) :=
          .of_segs (by simp) (by simp)
        split
        · exact freed.trans (orFails_cqError _ _ _)
        · exact freed
  | buffer n =>
    have ready (st : Status) : OrFails s ((s.retire tag).becomeReady n st) :=
      .trans (u := s.retire tag) .of_segs (.of_core (core_becomeReady _ n st))
    have ended (st : Status) (c : Ctx) : OrFails s (((s.retire tag).becomeReady n st).memberEnded c st) :=
      (ready st).trans (.of_core (core_memberEnded _ c st))
    rw [State.failAccess, State.bufferWritten]
    have either {p : Prop} [Decidable p] (c : Ctx) (st : Status) :
        OrFails s (if p then ((s.retire tag).becomeReady n st).memberEnded c st else (s.retire tag).becomeReady n st) := by
      split
      · exact ended st c
      · exact ready st
    split
    · exact .of_segs
    · split
      · exact either _ _
      · exact .of_segs
  | result =>
    rw [State.failAccess, State.resultWritten]
    split
    · exact .of_segs (by simp) (by simp)
    · exact .of_segs
  | event =>
    rw [State.failAccess, State.eventFailed]
    split
    · exact .of_segs
    · split
      · exact .of_segs (by simp) (by simp)
      · exact .of_segs

theorem orFails_take (s : State) (e : TimedEvent) : OrFails s (s.take e) := by
  cases e with
  | retry r =>
    cases r with
    | host n =>
      rw [State.take, State.offerRetry, State.offerHostRetry]
      split
      · exact .refl s
      · dsimp only
        split
        · exact .of_segs
        · exact .trans (u := s.updCtx n _) .of_segs (.updSeg _ _)
    | poll w =>
      rw [State.take, State.offerRetry, State.listPollRetry]
      split
      · exact .refl s
      · exact .trans (u := s.setWatch w _) .of_segs (.updSeg _ _)
    | response w =>
      rw [State.take, State.offerRetry, State.offerResponse]
      split
      · exact .updSeg _ _
      · exact .refl s
    | replay t =>
      rw [State.take, State.offerRetry, State.offerReplay]
      exact .trans (u := s.updJob t _) (.of_segs (by simp) (by simp)) (.updSeg _ _)
  | interval n =>
    rw [State.take, State.offerPollWait]
    split
    · exact .refl s
    · exact .trans (u := s.updCtx n _) .of_segs (.updSeg _ _)
  | deadline n =>
    rw [State.take, State.passDeadline]
    split
    · exact .refl s
    · split
      · exact .of_core (core_endCommand s n _)
      · exact .of_core (core_endCommand s n _)
      · exact .of_segs
  | due w =>
    rw [State.take, State.becomeDue]
    split
    · exact .refl s
    · split
      · exact .refl s
      · split
        · exact .trans (u := s.setWatch w _) .of_segs (.updSeg _ _)
        · exact .of_segs
  | limit a tag => exact orFails_failAccess s a tag

theorem orFails_takeTimed (s : State) : OrFails s s.takeTimed := by
  refine .foldl (fun u e => ?_) _ s
  unfold State.takeIfCome
  split
  · exact (orFails_take u e).trans (orFails_settle _)
  · exact .refl u

/-! ### A held line counts -/

/-- The segment is on its way to its fault: the engine has failed, or the segment is FAULTED, or it is monitored with stuck count
`m`. -/
def State.countsTo (s : State) (g : SegId) (y : SegCtl) (m : Nat) : Prop :=
  s.ctl.engine = .failed ∨ (s.seg g).state = .faulted ∨ (s.seg g).clock = { y.clock with stuckCount := m }

theorem SegCtl.of_clock {y z : SegCtl} (h : y.clock = z.clock) :
    y.state = z.state ∧ y.settings = z.settings ∧ y.wire = z.wire ∧ y.stuckCount = z.stuckCount :=
  ⟨(congrArg SegCtl.state h :), (congrArg SegCtl.settings h :), (congrArg SegCtl.wire h :), (congrArg SegCtl.stuckCount h :)⟩

section

variable {s u : State} {g : SegId} {y : SegCtl} {m : Nat}

theorem State.countsTo.orFails (counts : s.countsTo g y m) (runs : OrFails s u) : u.countsTo g y m := by
  obtain failed | same := runs.clock
  · exact .inl failed
  · obtain failed | faulted | here := counts
    · exact .inl (runs.failed failed)
    · exact .inr (.inl ((SegCtl.of_clock (same g)).1.trans faulted))
    · exact .inr (.inr ((same g).trans here))

theorem SegCtl.clock_sample_low (active : y.state = .active) (wire : y.wire = none) :
    (y.sample true).clock = { y.clock with stuckCount := y.stuckCount + 1 } := by
  rw [SegCtl.sample_counts, if_pos ⟨active, wire⟩]
  rfl

theorem State.countsTo.sampleLines (counts : s.countsTo g y m) {low : LineReads} (held : ∀ tick, low g tick = true)
    (active : y.state = .active) (wire : y.wire = none) : (s.sampleLines low).countsTo g y (m + 1) := by
  obtain failed | faulted | here := counts
  · exact .inl failed
  · refine .inr (.inl ?_)
    rw [State.sampleLines_seg, SegCtl.sample_state, faulted]
  · refine .inr (.inr ?_)
    have fields := SegCtl.of_clock (z := { y with stuckCount := m }) here
    obtain ⟨state, -, free, count⟩ := fields
    rw [State.sampleLines_seg, held, SegCtl.clock_sample_low (state.trans active) (free.trans wire), count, here]

theorem faultIfStuck_ctl (s : State) (k : SegId) : (s.faultIfStuck k).ctl = s.ctl := by
  apply State.faultIfStuck_view State.ctl <;> exact fun _ _ => rfl

theorem faultSegment_state (s : State) (g : SegId) : ((s.faultSegment g).seg g).state = .faulted :=
  (SegCtl.of_standing (s.faultSegment_seg_same g)).1

theorem State.countsTo.faultIfStuck (counts : s.countsTo g y m) (k : SegId) : (s.faultIfStuck k).countsTo g y m := by
  obtain failed | rest := counts
  · exact .inl ((congrArg Control.engine (faultIfStuck_ctl s k)).trans failed)
  · unfold State.faultIfStuck
    split
    · by_cases own : k = g
      · subst own
        exact .inr (.inl (faultSegment_state s k))
      · have same := s.faultSegment_seg_other own
        exact .inr (rest.imp (fun faulted => (SegCtl.of_standing same).1.trans faulted)
          fun here => (SegCtl.clock_of_standing same).trans here)
    · exact .inr rest

theorem State.countsTo.passTick (counts : s.countsTo g y m) {low : LineReads} (held : ∀ tick, low g tick = true)
    (active : y.state = .active) (wire : y.wire = none) : (s.passTick low).countsTo g y (m + 1) := by
  have sampled := (counts.orFails (orFails_takeTimed s)).sampleLines held active wire
  exact State.countsTo.orFails (foldl_keeps (P := fun u : State => u.countsTo g y (m + 1))
    (fun _ k h => h.faultIfStuck k) segIds sampled) (orFails_settle _)

theorem State.countsTo.passTicks {low : LineReads} (held : ∀ tick, low g tick = true) (active : y.state = .active)
    (wire : y.wire = none) (n : Nat) (counts : s.countsTo g y m) : (s.passTicks low n).countsTo g y (m + n) := by
  induction n generalizing s m with
  | zero => exact counts
  | succ n ih =>
    rw [State.passTicks_succ, Nat.add_comm n 1, ← Nat.add_assoc]
    exact ih (counts.passTick held active wire)

/-- A segment whose count has come to its stuck time faults, unless the engine has failed. -/
theorem State.countsTo.faults (counts : s.countsTo g y m) (active : y.state = .active) (wire : y.wire = none)
    (reached : y.settings.stuckTime ≤ m) :
    ((s.faultIfStuck g).seg g).state = .faulted ∨ (s.faultIfStuck g).ctl.engine = .failed := by
  obtain failed | rest := counts
  · exact .inr ((congrArg Control.engine (faultIfStuck_ctl s g)).trans failed)
  · refine .inl ?_
    unfold State.faultIfStuck
    split
    · exact faultSegment_state s g
    next calm =>
      obtain faulted | here := rest
      · exact faulted
      · obtain ⟨state, settings, free, count⟩ := SegCtl.of_clock (z := { y with stuckCount := m }) here
        refine absurd ?_ calm
        rw [SegCtl.stuck_iff, state, settings, free, count]
        exact decide_eq_true ⟨active, wire, reached⟩

end

/-! ### After a tick no segment is stuck -/

theorem faultIfStuck_unsticks (s : State) (k g : SegId) (h : k = g ∨ (s.seg g).stuck = false) :
    ((s.faultIfStuck k).seg g).stuck = false := by
  unfold State.faultIfStuck
  split
  next stuck =>
    by_cases own : k = g
    · subst own
      rw [SegCtl.stuck_iff, faultSegment_state]
      rfl
    · rw [← SegCtl.stuck_standing, s.faultSegment_seg_other own, SegCtl.stuck_standing]
      exact h.resolve_left own
  next calm =>
    by_cases own : k = g
    · subst own
      exact Bool.eq_false_iff.2 calm
    · exact h.resolve_left own

theorem foldl_unsticks (l : List SegId) (s : State) (g : SegId) (h : g ∈ l ∨ (s.seg g).stuck = false) :
    ((l.foldl State.faultIfStuck s).seg g).stuck = false := by
  induction l generalizing s with
  | nil => exact h.resolve_left List.not_mem_nil
  | cons k l ih =>
    refine ih _ ?_
    by_cases later : g ∈ l
    · exact .inl later
    · refine .inr (faultIfStuck_unsticks s k g (h.imp (fun mem => ?_) id))
      exact ((List.mem_cons.1 mem).resolve_right later).symm

theorem passTick_unstuck (s : State) (low : LineReads) (g : SegId) : ((s.passTick low).seg g).stuck = false := by
  rw [State.passTick, ← SegCtl.stuck_standing, settle_seg, SegCtl.stuck_standing]
  exact foldl_unsticks segIds _ g (.inl (mem_segIds g))

/-- The last of so many ticks stands by itself. -/
theorem passTicks_last (low : LineReads) (n : Nat) (s : State) :
    s.passTicks low (n + 1) = (s.passTicks low n).passTick low := by
  induction n generalizing s with
  | zero => rfl
  | succ n ih => rw [State.passTicks_succ, ih, ← State.passTicks_succ]

theorem passTicks_unstuck (s : State) (low : LineReads) {n : Nat} (pos : 0 < n) (g : SegId) :
    ((s.passTicks low n).seg g).stuck = false := by
  obtain ⟨m, rfl⟩ := Nat.exists_eq_succ_of_ne_zero (Nat.ne_of_gt pos)
  rw [Nat.succ_eq_add_one, passTicks_last]
  exact passTick_unstuck _ low g

end Sys2Proof.Machine
end

section
/-! PROOFS. A stuck line on a segment, with nothing else on the way: idle ticks pass, and then the segment is torn down
(R13, R14, R179; log entry 26). -/

namespace Sys2Proof.Machine

set_option Elab.async false -- one thread elaborates: the checker's memory is limited

/-! ### Idle ticks -/

/-- What stands of a state but for its time and its stuck counts. -/
def State.still (s : State) : State :=
  { s.standing with ticks := 0, segs := tableMap (fun y => { y with stuckCount := 0 }) s.standing.segs }

theorem still_of_standing {s t : State} (h : t.standing = s.standing) : t.still = s.still := by
  unfold State.still
  rw [h]

theorem SegCtl.sample_still (y : SegCtl) (low : Bool) :
    { (y.sample low).standing with stuckCount := 0 } = { y.standing with stuckCount := 0 } := by
  rw [SegCtl.sample_counts]
  rfl

theorem still_seg (s : State) (k : SegId) : s.still.seg k = { (s.seg k).standing with stuckCount := 0 } := by
  refine (get_tableMap _ _ _).trans ?_
  exact congrArg (fun y : SegCtl => { y with stuckCount := 0 }) (standing_seg s k)

theorem still_sampleLines (s : State) (low : LineReads) : (s.sampleLines low).still = s.still := by
  have segs : (s.sampleLines low).still.segs = s.still.segs := State.segs_ext fun k => by
    rw [still_seg, still_seg, State.sampleLines_seg, SegCtl.sample_still]
  exact congrArg (fun v => { s.still with segs := v }) segs

/-- From `s` to `v` time has passed with nothing on the way: what stands is as it was but for the stuck counts, calm contexts are
as they were, and those that have neither ended nor wait for a fence have at most taken another place. -/
structure Idles (s v : State) : Prop where
  still : v.still = s.still
  keeps : Keeps s v
  goesOn : ∀ c, GoesOn c s.ctxs → GoesOn c v.ctxs ∧ (v.sq c.sq).bound = (s.sq c.sq).bound

namespace Idles

variable {s u v : State}

theorem refl (s : State) : Idles s s := ⟨rfl, .refl s, fun _ h => ⟨h, rfl⟩⟩

theorem trans (h : Idles s u) (k : Idles u v) : Idles s v where
  still := k.still.trans h.still
  keeps := h.keeps.trans k.keeps
  goesOn c here := by
    obtain ⟨first, bound⟩ := h.goesOn c here
    obtain ⟨second, bound'⟩ := k.goesOn c first
    exact ⟨second, bound'.trans bound⟩

theorem settle (s : State) : Idles s s.settle :=
  ⟨still_of_standing (settle_standing s), settle_keeps s, fun _ h => ⟨h.settle, h.settle_bound⟩⟩

theorem sampleLines (s : State) (low : LineReads) : Idles s (s.sampleLines low) where
  still := still_sampleLines s low
  keeps := by
    have lists (k : SegId) : ((s.sampleLines low).seg k).pendingList = (s.seg k).pendingList ∧
        ((s.sampleLines low).seg k).offered = (s.seg k).offered := by
      rw [State.sampleLines_seg, SegCtl.sample_counts]
      exact ⟨rfl, rfl⟩
    exact ⟨id, fun _ _ hc _ => hc, fun _ _ _ _ k h => by rwa [(lists k).1], fun _ _ _ _ k h => by rwa [(lists k).2]⟩
  goesOn _ h := ⟨h, rfl⟩

variable (idles : Idles s v)
include idles

theorem seg (k : SegId) : (v.seg k).standing = { (s.seg k).standing with stuckCount := (v.seg k).stuckCount } := by
  have same := congrArg (fun u : State => u.seg k) idles.still
  simp only [still_seg] at same
  exact congrArg (fun y : SegCtl => { y with stuckCount := (v.seg k).stuckCount }) same

theorem monitored (k : SegId) : (v.seg k).state = (s.seg k).state ∧ (v.seg k).settings = (s.seg k).settings ∧
    (v.seg k).wire = (s.seg k).wire := by
  have same := idles.seg k
  exact ⟨(congrArg SegCtl.state same :), (congrArg SegCtl.settings same :), (congrArg SegCtl.wire same :)⟩

theorem watch (w : WatchId) : v.watch w = s.watch w := (congrArg (fun u : State => u.watches.get w) idles.still :)

theorem pres (x : Tgt) : v.pres x = s.pres x :=
  (congrArg (fun u : State => (u.presence.get x.seg).get x.slot) idles.still :)

theorem job (x : Tgt) : v.job x = s.job x := (congrArg (fun u : State => u.jobs.find? (·.tgt == x)) idles.still :)

theorem fields : v.pool = s.pool ∧ v.irq = s.irq ∧ v.jobs = s.jobs :=
  ⟨(congrArg State.pool idles.still :), (congrArg State.irq idles.still :), (congrArg State.jobs idles.still :)⟩

theorem ev : v.ev.standing = s.ev.standing := (congrArg State.ev idles.still :)

theorem ctl : v.ctl.standing = s.ctl.standing := (congrArg State.ctl idles.still :)

theorem cq (k : CqId) : (v.cq k).state = (s.cq k).state := by
  have same : (v.cq k).standing = (s.cq k).standing := by
    rw [← standing_cq, ← standing_cq]
    exact (congrArg (fun u : State => u.cqs.get k) idles.still :)
  exact (congrArg Cq.state same :)

end Idles

theorem State.restsUntil.sampleLines {s : State} {T : Nat} (rest : s.restsUntil T) (low : LineReads) :
    (s.sampleLines low).restsUntil T := by
  refine rest.of_moves (.of_eq rfl) (fun _ => rfl) (fun k => ?_) (fun _ => rfl) fun d hd => .inl hd
  rw [State.sampleLines_seg, SegCtl.sample_counts]

/-- A tick at which no timed event comes and no segment is stuck. -/
theorem passTick_idle {s : State} {T : Nat} {low : LineReads} (rest : s.restsUntil T) (le : s.ticks ≤ T)
    (calm : ∀ k, ((s.sampleLines low).seg k).stuck = false) : s.passTick low = (s.sampleLines low).settle := by
  have none : segIds.filter (fun k => ((s.sampleLines low).seg k).stuck) = [] :=
    List.filter_eq_nil_iff.2 fun k _ => Bool.eq_false_iff.1 (calm k)
  rw [State.passTick, takeTimed_rests rest le, foldl_faultIfStuck segIds nodup_segIds, none]
  rfl

theorem SegCtl.sample_calm {y : SegCtl} {low : Bool} (far : y.state = .active → y.wire = none →
    y.stuckCount + 1 < y.settings.stuckTime) : (y.sample low).stuck = false := by
  rw [SegCtl.stuck_iff, SegCtl.sample_counts]
  refine decide_eq_false ?_
  rintro ⟨active, wire, reached⟩
  have far := far active wire
  dsimp only at reached active wire
  rw [if_pos ⟨active, wire⟩] at reached
  split at reached <;> omega

theorem SegCtl.sample_count_le (y : SegCtl) (low : Bool) : (y.sample low).stuckCount ≤ y.stuckCount + 1 := by
  rw [SegCtl.sample_counts]
  dsimp only
  (repeat' split) <;> omega

/-- Ticks at which no timed event comes, and after which no monitored segment is stuck, are idle. -/
theorem passTicks_idles {low : LineReads} {T : Nat} (n : Nat) {s : State} (rest : s.restsUntil T) (le : s.ticks + n ≤ T)
    (near : T < s.ticks + dmaLimit)
    (far : ∀ k, (s.seg k).state = .active → (s.seg k).wire = none → (s.seg k).stuckCount + n < (s.seg k).settings.stuckTime) :
    Idles s (s.passTicks low n) ∧ (s.passTicks low n).restsUntil T ∧
      (∀ k, ((s.passTicks low n).seg k).stuckCount ≤ (s.seg k).stuckCount + n) ∧
      ∀ k, (∀ tick, low k tick = true) → (s.seg k).state = .active → (s.seg k).wire = none →
        ((s.passTicks low n).seg k).stuckCount = (s.seg k).stuckCount + n := by
  induction n generalizing s with
  | zero => exact ⟨.refl s, rest, fun _ => Nat.le_refl _, fun _ _ _ _ => rfl⟩
  | succ n ih =>
    have tick : s.passTick low = (s.sampleLines low).settle := passTick_idle rest (by omega) fun k => by
      rw [State.sampleLines_seg]
      exact SegCtl.sample_calm fun active wire => by have := far k active wire; omega
    have idle : Idles s (s.passTick low) := tick ▸ (Idles.sampleLines s low).trans (.settle _)
    have rest' : (s.passTick low).restsUntil T :=
      tick ▸ (rest.sampleLines low).settle (by rw [State.sampleLines_ticks]; omega)
    have count (k : SegId) : ((s.passTick low).seg k).stuckCount = ((s.seg k).sample (low k (s.ticks + 1))).stuckCount := by
      have same := (SegCtl.of_clock (SegCtl.clock_of_standing (settle_seg (s.sampleLines low) k))).2.2.2
      rw [tick, same, State.sampleLines_seg]
    have fields := idle.monitored
    have ticks := s.passTick_ticks low
    rw [State.passTicks_succ]
    generalize s.passTick low = u at *
    obtain ⟨idles, rest'', most, held⟩ := ih rest' (by omega) (by omega) fun k active wire => by
      obtain ⟨state, settings, free⟩ := fields k
      have now := SegCtl.sample_count_le (s.seg k) (low k (s.ticks + 1))
      have later := far k (state.symm.trans active) (free.symm.trans wire)
      rw [count, settings]
      omega
    refine ⟨idle.trans idles, rest'', fun k => ?_, fun k low' active wire => ?_⟩
    · have now := SegCtl.sample_count_le (s.seg k) (low k (s.ticks + 1))
      have later := most k
      rw [count] at later
      omega
    · obtain ⟨state, -, free⟩ := fields k
      rw [held k low' (state.trans active) (free.trans wire), count, low', SegCtl.sample_counts, if_pos ⟨active, wire⟩]
      dsimp only
      rw [if_pos rfl]
      omega

/-! ### The fault -/

/-- From `w` to `t` steps have settled. -/
structure Settled (w t : State) : Prop where
  standing : t.standing = w.standing
  keeps : Keeps w t
  onward : Onward w t
  holder : ∀ g, (t.seg g).holder = (w.seg g).holder ∨ (t.seg g).holder = none

theorem Settled.settle (w : State) : Settled w w.settle :=
  ⟨settle_standing w, settle_keeps w, onward_settle w, settle_holder_or w⟩

theorem Settled.trans {w t u : State} (h : Settled w t) (k : Settled t u) : Settled w u where
  standing := k.standing.trans h.standing
  keeps := h.keeps.trans k.keeps
  onward := h.onward.trans k.onward
  holder g := (k.holder g).elim (fun same => same ▸ h.holder g) .inr

section

variable {s : State} {g : SegId}

theorem filter_segIds (g : SegId) : segIds.filter (fun k => decide (k = g)) = [g] := by
  revert g
  decide

theorem heldLow_self (low : LineReads) (g : SegId) (tick : Nat) : low.heldLow g g tick = true := by
  simp [LineReads.heldLow]

theorem stuckLine_monitored (active : (s.seg g).state = .active) (wire : (s.seg g).wire = none) :
    s.stuckLine g = (s.passTicks (LineReads.free.heldLow g) ((s.seg g).settings.stuckTime - (s.seg g).stuckCount)).faultIfStuck
      g :=
  if_pos (by simp [SegCtl.monitors, active, wire])

/-- With nothing on the way, the ticks are idle, and at the last of them the segment faults (R13, R14). -/
theorem stuckLine_faults (active : (s.seg g).state = .active) (wire : (s.seg g).wire = none)
    (short : (s.seg g).settings.stuckTime ≤ 255)
    (quiet : 0 < (s.seg g).settings.stuckTime - (s.seg g).stuckCount →
      s.restsUntil (s.ticks + ((s.seg g).settings.stuckTime - (s.seg g).stuckCount - 1)))
    (far : ∀ k, k ≠ g → (s.seg k).state = .active → (s.seg k).wire = none →
      (s.seg k).stuckCount + ((s.seg g).settings.stuckTime - (s.seg g).stuckCount) < (s.seg k).settings.stuckTime) :
    ∃ v, Idles s v ∧ Settled (v.faultSegment g) (s.stuckLine g).settle := by
  rw [stuckLine_monitored active wire]
  cases lows : (s.seg g).settings.stuckTime - (s.seg g).stuckCount with
  | zero =>
    have stuck : (s.seg g).stuck = true := by
      rw [SegCtl.stuck_iff]
      exact decide_eq_true ⟨active, wire, by omega⟩
    rw [State.passTicks_zero, State.faultIfStuck_stuck stuck]
    exact ⟨s, .refl s, .settle _⟩
  | succ n =>
    rw [lows] at quiet far
    have held := heldLow_self LineReads.free g
    have limit : dmaLimit = 5000 := rfl
    obtain ⟨idles, rest, most, exact⟩ := passTicks_idles (low := LineReads.free.heldLow g) n (quiet (by omega)) (by omega)
      (by omega) fun k active wire => by
        by_cases own : k = g
        · subst own
          omega
        · have := far k own active wire
          omega
    have now := passTicks_unstuck s (LineReads.free.heldLow g) (Nat.succ_pos n) g
    have ticks := s.passTicks_ticks (LineReads.free.heldLow g) n
    rw [State.faultIfStuck_unstuck now, passTicks_last]
    have count := exact g held active wire
    generalize s.passTicks (LineReads.free.heldLow g) n = u at *
    have stuck : (fun k => ((u.sampleLines (LineReads.free.heldLow g)).seg k).stuck) = fun k => decide (k = g) := by
      funext k
      obtain ⟨state, settings, free⟩ := idles.monitored k
      rw [State.sampleLines_seg]
      by_cases own : k = g
      · subst own
        rw [held, SegCtl.stuck_iff, SegCtl.sample_counts, if_pos ⟨state.trans active, free.trans wire⟩]
        dsimp only
        rw [if_pos rfl, settings]
        exact (decide_eq_true ⟨state.trans active, free.trans wire, by rw [count]; omega⟩).trans
          (decide_eq_true rfl).symm
      · refine Eq.trans (SegCtl.sample_calm fun active wire => ?_) (decide_eq_false own).symm
        have later := far k own (state.symm.trans active) (free.symm.trans wire)
        have := most k
        rw [settings]
        omega
    have one := filter_segIds g
    have tick : u.passTick (LineReads.free.heldLow g) =
        ((u.sampleLines (LineReads.free.heldLow g)).faultSegment g).settle := by
      rw [State.passTick, takeTimed_rests rest (by omega), foldl_faultIfStuck segIds nodup_segIds, stuck, one]
      rfl
    rw [tick]
    exact ⟨_, idles.trans (.sampleLines u _), (Settled.settle _).trans (.settle _)⟩

end

/-! ### What the fault leaves -/

/-- The segment is FAULTED, and SEGMENT_FAULTED handed over (R14). -/
def State.faulting (s : State) (g : SegId) : State :=
  (s.updSeg g fun y => { y with state := .faulted, stuckCount := 0 }).handEvent (.segmentFaulted g)

theorem faultSegment_strip (s : State) (g : SegId) : s.faultSegment g =
    ((((s.faulting g).strip g .segmentFault).updSeg g fun y => { y with writes := [] }).giveUpAll g .segmentFault).updSeg g
      (·.emptied .faulted) := rfl

section

variable (v : State) (g : SegId)

theorem faulting_same : (v.faulting g).ctxs = v.ctxs ∧ (v.faulting g).sqs = v.sqs ∧ (v.faulting g).cqs = v.cqs ∧
    (v.faulting g).link = v.link ∧ (v.faulting g).presence = v.presence ∧ (v.faulting g).watches = v.watches ∧
    (v.faulting g).jobs = v.jobs ∧ (v.faulting g).pool = v.pool ∧ (v.faulting g).irq = v.irq := by
  simp [State.faulting]

theorem faulting_wire (k : SegId) : ((v.faulting g).seg k).wire = (v.seg k).wire := by
  have handed (u : State) (e : Event) : (u.handEvent e).seg k = u.seg k := by simp
  rw [State.faulting, handed, State.seg_updSeg]
  split <;> rfl

theorem faultSegment_same : (v.faultSegment g).ctxs = ((v.faulting g).strip g .segmentFault).ctxs ∧
    (v.faultSegment g).sqs = ((v.faulting g).strip g .segmentFault).sqs ∧
    (v.faultSegment g).cqs = ((v.faulting g).strip g .segmentFault).cqs ∧
    (v.faultSegment g).link = ((v.faulting g).strip g .segmentFault).link := by
  rw [faultSegment_strip]
  generalize (v.faulting g).strip g .segmentFault = u
  simp

theorem faultSegment_watchState (w : WatchId) :
    (v.faultSegment g).watchState w = (v.watchState w).map (haltedOn g) := by
  obtain ⟨-, -, -, -, -, watches, -⟩ := faulting_same v g
  have before : (v.faulting g).watchState w = v.watchState w := congrArg (fun l => (l.get w).map fun x => (x.cfg, x.state)) watches
  rw [faultSegment_strip, watchState_congr (State.updSeg_watch _ _ _ _), giveUpAll_watchState,
    watchState_congr (State.updSeg_watch _ _ _ _), strip_watchState, before]

theorem faultSegment_pres (x : Tgt) : (v.faultSegment g).pres x =
    if x.seg = g ∧ (v.pres x).state = .restoring then { v.pres x with state := .lost } else v.pres x := by
  obtain ⟨-, -, -, -, before, -⟩ := faulting_same v g
  obtain ⟨stripped, -⟩ := strip_same (v.faulting g) g .segmentFault
  have same : ((v.faulting g).strip g .segmentFault).pres x = v.pres x :=
    congrArg (fun p => (p.get x.seg).get x.slot) (stripped.trans before)
  rw [faultSegment_strip, State.updSeg_pres, giveUpAll_pres, State.updSeg_pres, same]

theorem faultSegment_fields : (v.faultSegment g).pool = v.pool ∧ (v.faultSegment g).irq = v.irq := by
  simp [State.faultSegment]

/-- Where no replay job is, giving up the targets of a segment hands over no event. -/
theorem giveUpAll_ev (u : State) (g : SegId) (cause : AbandonCause) (none : u.jobs = []) : (u.giveUpAll g cause).ev = u.ev := by
  unfold State.giveUpAll
  generalize targetsOf g = l
  induction l generalizing u with
  | nil => rfl
  | cons t l ih =>
    have no : ∀ j ∈ (State.giveUp cause u t).jobs, False := fun j hj => by
      have := giveUp_jobs cause u t j hj
      rw [none] at this
      exact nomatch this
    have same : (State.giveUp cause u t).ev = u.ev := by
      have free : (u.setPres t { u.pres t with state := .lost }).job t = Option.none :=
        job_none_iff.2 fun j hj => absurd (none ▸ hj : j ∈ ([] : List Job)) List.not_mem_nil
      unfold State.giveUp
      split
      · rw [State.abandonJob, free]
        simp
      · rfl
    rw [List.foldl_cons, ih _ (List.eq_nil_iff_forall_not_mem.2 no), same]

theorem strip_jobs (u : State) (g : SegId) (st : Status) (none : u.jobs = []) : (u.strip g st).jobs = [] := by
  have kept : (((u.haltWatches g).endContexts g st).dropResponses g).jobs = u.jobs := by simp
  rw [State.strip, State.stopReplayRetries, kept, none]
  rfl

/-- Where no replay job is, SEGMENT_FAULTED is the only event of a fault. -/
theorem faultSegment_ev (none : v.jobs = []) : (v.faultSegment g).ev = (v.handEvent (.segmentFaulted g)).ev := by
  obtain ⟨-, -, -, -, -, -, jobs, -⟩ := faulting_same v g
  obtain ⟨-, -, -, -, -, ev⟩ := strip_same (v.faulting g) g .segmentFault
  have stripped := strip_jobs (v.faulting g) g .segmentFault (jobs.trans none)
  have handed : (v.faulting g).ev = (v.handEvent (.segmentFaulted g)).ev := by
    rw [State.faulting]
    exact handEvent_ev_congr (State.updSeg_ctl _ _ _) (State.updSeg_ev _ _ _) _
  rw [← handed, ← ev, faultSegment_strip]
  generalize (v.faulting g).strip g .segmentFault = u at stripped
  rw [State.updSeg_ev, giveUpAll_ev _ _ _ ((State.updSeg_jobs _ _ _).trans stripped), State.updSeg_ev]

theorem faultSegment_leaves : LeavesActive v (v.faultSegment g) g .segmentFault := by
  obtain ⟨ctxs, sqs, cqs, link, -⟩ := faulting_same v g
  obtain ⟨ctxs', sqs', cqs', link'⟩ := faultSegment_same v g
  have distinct (h : v.distinct) : (v.faulting g).distinct := by rwa [State.distinct, ctxs]
  have still (h : v.distinct) : ((v.faulting g).strip g .segmentFault).distinct :=
    (shrinks_strip (v.faulting g) g .segmentFault).distinct (distinct h)
  have bound (q : SqId) : ((v.faulting g).sq q).bound = (v.sq q).bound := congrArg (fun l => (l.get q).bound) sqs
  have cq (k : CqId) : ((v.faulting g).cq k).state = (v.cq k).state := congrArg (fun l => (l.get k).state) cqs
  refine ⟨faultSegment_watchState v g, fun h => ?_, fun h c hc own fence => ?_, fun h c hc other => ?_, fun q => ?_, fun k => ?_⟩
  · have := still h
    rwa [State.distinct, ← ctxs'] at this
  · have here : c ∈ (v.faulting g).ctxs := by rwa [ctxs]
    have torn := strip_tornDown (st := .segmentFault) (distinct h) here own fence
    refine State.tornDown.congr (faulting_wire v g) bound cq ?_
    exact torn.onward (.of_eq ctxs' cqs' link') (still h) fun d hd _ _ => by rwa [ctxs']
  · rw [ctxs']
    exact strip_left (distinct h) (by rwa [ctxs]) other
  · exact (congrArg (fun l => (l.get q).bound) sqs').trans ((strip_bound _ g _ q).trans (bound q))
  · exact (congrArg (fun l => (l.get k).state) cqs').trans ((strip_cq _ g _ k).trans (cq k))

end

/-- An event is taken the same way where what stands of the Event Unit is the same. -/
theorem handEvent_ev_standing {s t : State} (ctl : t.ctl.standing = s.ctl.standing) (ev : t.ev.standing = s.ev.standing)
    (e : Event) : (t.handEvent e).ev.standing = (s.handEvent e).ev.standing := by
  have engine := congrArg Control.engine ctl
  have fails : t.ctl.engine = .failed ↔ s.ctl.engine = .failed := by
    simp only [Control.standing] at engine
    constructor <;> intro h <;> rw [h] at engine <;> by_contra running <;> split at engine <;> simp_all
  have rings : (t.ev.ring.map fun r => { r with inFlight := none }) = s.ev.ring.map fun r => { r with inFlight := none } :=
    (congrArg EventUnit.ring ev :)
  have backlog : t.ev.backlog = s.ev.backlog := (congrArg EventUnit.backlog ev :)
  have lost : t.ev.lost = s.ev.lost := (congrArg EventUnit.lost ev :)
  by_cases failed : s.ctl.engine = .failed
  · rw [State.handEvent_discarded e (.inl failed), State.handEvent_discarded e (.inl (fails.2 failed)), ev]
  cases ring : s.ev.ring with
  | none =>
    rw [ring, Option.map_none, Option.map_eq_none_iff] at rings
    rw [State.handEvent_discarded e (.inr ring), State.handEvent_discarded e (.inr rings), ev]
  | some r =>
    rw [ring, Option.map_some] at rings
    obtain ⟨r', ring', same⟩ := Option.map_eq_some_iff.1 rings
    have free : r'.free = r.free := (congrArg Ring.free same :)
    rw [State.handEvent_of_ring e failed ring, State.handEvent_of_ring e (fails.not.2 failed) ring', free, backlog, lost]
    split
    · have assigned := congrArg (fun r : Ring => some { r.assign e with inFlight := none }) same
      exact congrArg₂ (fun (r : Option Ring) (v : EventUnit) => { v with ring := r }) assigned ev
    · split
      · exact congrArg (fun v : EventUnit => { v with backlog := s.ev.backlog ++ [e] }) ev
      · exact congrArg (fun v : EventUnit => { v with lost := min (s.ev.lost + 1) 65535 }) ev

section

variable {s v t : State} {g : SegId} (idles : Idles s v) (settled : Settled (v.faultSegment g) t)
  (wire : (s.seg g).wire = none) (distinct : s.distinct) {c : Ctx}

include idles settled distinct in
theorem faulted_tornDown {d : Ctx} (hd : d ∈ v.ctxs) (own : d.seg = g) (fence : d.state ≠ .fenceWait) :
    v.tornDown t d .segmentFault := by
  have leaves := faultSegment_leaves v g
  have still := idles.keeps.distinct distinct
  refine (leaves.torn still d hd own fence).onward settled.onward (leaves.distinct still) fun e he _ active => ?_
  exact settled.keeps.calm (leaves.distinct still) e he ⟨by simp [active], by simp [active], by simp [active]⟩

include idles wire in
theorem wire_free {d : Ctx} (own : d.seg = g) : v.onWire d = false := by
  obtain ⟨-, -, free⟩ := idles.monitored g
  unfold State.onWire
  rw [own, free.trans wire]

include idles settled wire distinct in
/-- A context of the segment that is not running ends SEGMENT_FAULT (R179; log entry 24). -/
theorem faulted_cancelledAs (hc : c ∈ s.ctxs) (own : c.seg = g) (fence : c.state ≠ .fenceWait) (idle : s.notRunning c)
    (none : c.buffer = Option.none) (active : (s.cq (s.sq c.sq).bound).state = .active) :
    t.cancelledAs (s.sq c.sq).bound c .segmentFault := by
  obtain ⟨⟨-, x, ready, waits, here⟩, bound⟩ := idles.goesOn c ⟨distinct, c.state, idle.1, fence, hc⟩
  have torn := faulted_tornDown idles settled distinct here own waits
  have ends := torn.1 (by rw [bound, idles.cq]; exact active)
    ⟨ready, fun _ => ⟨none, wire_free idles wire own⟩⟩
  rw [bound] at ends
  exact ends

include idles settled wire distinct in
/-- A context of the segment that has ended, or whose buffer write is outstanding, is left. -/
theorem faulted_left (hc : c ∈ s.ctxs) (own : c.seg = g) (ends : ¬ s.notRunning c) : c ∈ t.ctxs := by
  have idle : ¬ s.running c := fun running => by
    have := wire_free (Idles.refl s) wire own
    exact absurd (running.2.2.symm.trans this) (by decide)
  have ended := ended_of_neither ends idle
  have here := idles.keeps.calm distinct c hc ended.calm
  have fence : c.state ≠ .fenceWait := ended.calm.1
  refine (faulted_tornDown idles settled distinct here own fence).2.2 (fun h => ?_) fun running => ?_
  · exact ended.elim h.1 fun writing => writing.2 (h.2 writing.1).1
  · exact absurd (running.2.2.symm.trans (wire_free idles wire own)) (by decide)

end

theorem irq_of_standing {s t : State} (h : t.standing = s.standing) : t.irq = s.irq := (congrArg State.irq h :)

/-- What the fault leaves once its step has settled, where nothing was on the way. -/
theorem stuckLine_quiet {s v t : State} {g : SegId} (idles : Idles s v) (settled : Settled (v.faultSegment g) t)
    (wire : (s.seg g).wire = none) :
    (t.seg g).state = .faulted ∧
      (t.seg g).standing = { (s.seg g).standing with
        state := .faulted, writes := [], respDelays := [], duePolls := [], stuckCount := 0 } ∧
      (t.seg g).holder = none ∧
      (∀ k, k ≠ g → ∃ n, (t.seg k).standing = { (s.seg k).standing with stuckCount := n }) ∧
      (∀ w x, t.watch w = some x → x.cfg.tgt.seg = g → x.state ≠ .armed) ∧
      (∀ w x, s.watch w = some x → x.cfg.tgt.seg ≠ g → ∃ y, t.watch w = some y ∧ y.state = x.state) ∧
      (∀ x, t.pres x = if x.seg = g ∧ (s.pres x).state = .restoring then { s.pres x with state := .lost } else s.pres x) ∧
      t.pool = s.pool ∧ t.irq = s.irq ∧
      (s.jobs = [] → t.ev.standing = (s.handEvent (.segmentFaulted g)).ev.standing) ∧
      (s.distinct → ∀ c ∈ s.ctxs,
        (c.seg = g → c.state ≠ .fenceWait → s.notRunning c → c.buffer = none →
          (s.cq (s.sq c.sq).bound).state = .active → t.cancelledAs (s.sq c.sq).bound c .segmentFault) ∧
        (c.seg = g → ¬ s.notRunning c → c ∈ t.ctxs) ∧ (c.seg ≠ g → c.calm → c ∈ t.ctxs)) := by
  have leaves := faultSegment_leaves v g
  obtain ⟨halted, kept⟩ := leaves.watches_settled
  have watch (w : WatchId) : t.watch w = (v.faultSegment g).settle.watch w := by
    rw [settle_watch, ← standing_watch, settled.standing, standing_watch]
  have seg (k : SegId) : (t.seg k).standing = ((v.faultSegment g).seg k).standing := by
    rw [← standing_seg, settled.standing, standing_seg]
  have own := (seg g).trans (v.faultSegment_seg_same g)
  have fields := idles.fields
  obtain ⟨pool, irq⟩ := faultSegment_fields v g
  refine ⟨(SegCtl.of_standing own).1, ?_, ?_, fun k other => ⟨(v.seg k).stuckCount, ?_⟩, fun w x hx here => ?_, fun w x hx other => ?_, fun x => ?_,
    ?_, ?_, fun none => ?_, fun distinct c hc => ⟨fun here fence idle none active => ?_, fun here ends => ?_,
      fun other calm => ?_⟩⟩
  · rw [own, SegCtl.standing_emptied, idles.seg g]
    rfl
  · refine (settled.holder g).elim (fun same => same.trans ?_) id
    rw [State.faultSegment_eq, State.seg_updSeg_same]
    rfl
  · rw [seg k, v.faultSegment_seg_other (Ne.symm other), idles.seg k]
  · exact halted w x ((watch w).symm.trans hx) here
  · obtain ⟨y, hy, state⟩ := kept w x ((idles.watch w).trans hx) other
    exact ⟨y, (watch w).trans hy, state⟩
  · rw [← standing_pres, settled.standing, standing_pres, faultSegment_pres, idles.pres]
  · exact (pool_of_standing settled.standing).trans (pool.trans fields.1)
  · exact (irq_of_standing settled.standing).trans (irq.trans fields.2.1)
  · rw [← standing_ev, settled.standing, standing_ev, faultSegment_ev v g (fields.2.2.trans none)]
    exact handEvent_ev_standing idles.ctl idles.ev _
  · exact faulted_cancelledAs idles settled wire distinct hc here fence idle none active
  · exact faulted_left idles settled wire distinct hc here ends
  · have still := idles.keeps.distinct distinct
    exact settled.keeps.calm (leaves.distinct still) c
      (leaves.left still c (idles.keeps.calm distinct c hc calm) (.inl other)) calm

/-- Settles O54: the line held low counts tick by tick to the stuck time, and the segment is torn down as its rule says. -/
theorem stuckLineFaults : Obligations.StuckLineFaults := by
  intro g s
  refine ⟨fun other => ?_, fun active wire => ?_⟩
  · have still : s.stuckLine g = s := if_neg fun monitors => other (by
      simpa [SegCtl.monitors] using monitors)
    exact ⟨_, congrArg done still, settle_standing s⟩
  · intro lows
    have held := heldLow_self LineReads.free g
    have line := stuckLine_monitored active wire
    have standing := settle_standing (s.stuckLine g)
    refine ⟨(s.stuckLine g).settle, rfl, ?_, ?_, fun none => ?_, fun pos => ?_, fun short quiet far => ?_⟩
    · rw [(State.settle_frame _).2.1, line, State.faultIfStuck_ticks, State.passTicks_ticks]
    · have start : s.countsTo g (s.seg g) (s.seg g).stuckCount := .inr (.inr rfl)
      have faults := (start.passTicks held active wire lows).faults active wire (by omega)
      rw [← line] at faults
      generalize s.stuckLine g = u at faults
      have runs := orFails_settle u
      obtain faulted | failed := faults
      · exact .inl ((SegCtl.of_standing (settle_seg u g)).1.trans faulted)
      · exact .inr (runs.failed failed)
    · have stuck : (s.seg g).stuck = true := by
        rw [SegCtl.stuck_iff]
        exact decide_eq_true ⟨active, wire, Nat.sub_eq_zero_iff_le.1 none⟩
      rw [standing, line, show (s.seg g).settings.stuckTime - (s.seg g).stuckCount = 0 from none, State.passTicks_zero,
        State.faultIfStuck_stuck stuck]
    · rw [standing, line, State.faultIfStuck_unstuck (passTicks_unstuck s _ pos g)]
      rfl
    · obtain ⟨v, idles, settled⟩ := stuckLine_faults active wire short quiet far
      exact stuckLine_quiet idles settled wire

end Sys2Proof.Machine
end
